-- ==== Sys2Proof/Word.lean ====
section
/-! DEFINITION. The word types of the block: register words, 64-bit quantities, bytes, vectors of symbols. -/

namespace Sys2Proof

/-- A register word (spec/00 R15). -/
abbrev Word := BitVec 32

/-- A 64-bit register, a control word, a vector number (spec/00 R15, spec/04 R127). -/
abbrev DWord := BitVec 64

/-- One byte of pattern memory (spec/03 R89). -/
abbrev Byte := BitVec 8

/-- One vector of a slice: a 4-bit symbol per lane (spec/00 R5). -/
abbrev Symbols := BitVec 128

end Sys2Proof
end

