-- ==== Sys2Proof/Syntax.lean ====
section
/-! DEFINITION. The commands of the block, one constructor per row of spec/opcode_table.json, with the operands each
row's chapter gives it. A command that is a register access carries its initiator and the written value; a command that
is an event carries what the event's physics decide and State does not hold. -/

namespace Sys2Proof

/-- Who makes a register access (spec/00 R16, R25; spec/14 R486). -/
inductive Initiator where
  | pcie (p : Fin 8) | mgmt | remote | core (c : Fin 8)
deriving DecidableEq, Repr

/-- What the ball does while a strobe watches it (spec/07 R246, spec/06 R225): an edge strobe sees the two
comparators at its instant; a window strobe sees no excursion from its expectation, one shorter than 50 ps, or one of
50 ps or more. -/
inductive BallObs where
  | edge (aboveVoh belowVol : Bool) | windowClean | windowShort | windowLong
deriving DecidableEq, Repr

/-- Where an uncorrectable HBM error met the load unit (spec/03 R110). -/
inductive EccWhere where
  | none | header | body
deriving DecidableEq, Repr

/-- The initiators of HBM requests (spec/03 R94). -/
inductive HbmBy where
  | stream (n : Fin 8) | load (n : Fin 8) | admission (n : Fin 8) | sequencer (n : Fin 8) | spool (n : Fin 8)
  | scan (u : Fin 4) | core (c : Fin 8) | dma (c : Fin 16) | patch | eth (e : Fin 2) | mgmt
deriving DecidableEq, Repr

/-- What an HBM request does: the bytes it writes (none: it reads), and the 64-bit word whose read meets an uncorrectable error, if
one does (R381). -/
structure HbmOp where
  wr : Option (List Byte)
  ue : Option Nat
deriving DecidableEq, Repr

/-- How the stack ends a repair (spec/10 R394). -/
inductive PprEnd where
  | ok | noResource | fail
deriving DecidableEq, Repr

/-- The header of a received Clothesline frame (spec/12 R434). -/
structure Hdr where
  seq : BitVec 12
  dst : BitVec 12
  src : BitVec 12
  bcast : Bool
deriving DecidableEq, Repr

/-- A DMA descriptor as the engine reads it from host memory (spec/14 R492). -/
structure DmaDesc where
  haddr : DWord
  maddr : DWord
  len : Word
  ctrl : Word
  token : Word
deriving DecidableEq, Repr

/-- How the host and the stacks answer one chunk (spec/14 R494). -/
inductive DmaEnd where
  | ok | ecc | hostErr
deriving DecidableEq, Repr

/-- A PHC time: seconds, nanoseconds, 2^-16 ns (spec/13 R473). -/
structure PhcTime where
  sec : DWord
  ns : Nat
  frac : Nat
deriving DecidableEq, Repr

/-- What the timestamp unit takes of an Ethernet frame (spec/13 R472): the PHC time at its own stamp point, and the position of the frame
in the 64b/66b gearbox, in ps. -/
structure RawStamp where
  time : PhcTime
  gearbox : Nat
deriving DecidableEq, Repr

/-- What the firmware read of a new image (spec/14 R501): one whose signature verifies, with its SVN, one whose signature does
not, or one that it could not read. -/
inductive ImageCheck where
  | signed (svn : Nat) | unsigned | unread
deriving DecidableEq, Repr

/-- The domains that a fatal fault takes with it (spec/01 R51, spec/16 R539, spec/17 R589): none, a stack's interface, the DRC, FAB. -/
inductive MemLoss where
  | none | hb (k : Fin 2) | drc | fab
deriving DecidableEq, Repr

/-- What a Press run measured (spec/16 R549, R550): the 2.500 V reference and ground, in µV; the new deskew of CMP, OFF, D1 and D0
of each lane, in taps; the offset of each TDC path (driver, comparator above VOH and below VOL of each lane, the two markers), in
the TDC's unit; gain, in 2^-16, and offset, in codes, of each level DAC of each lane and of the force and the measure path of each
PPMU in each range. -/
structure PressMeasured where
  reference : Int
  ground : Int
  deskew : List Int
  tdc : List Int
  levels : List (Nat × Int)
  ppmu : List ((Nat × Int) × (Nat × Int))
deriving DecidableEq, Repr

/-- The report of a self-test (spec/16 R556), and whether its first failing element is a column (R561). -/
structure TestReport where
  pass : Bool
  coverage : Fin 1001
  us : Word
  fails : Word
  first : Word
  column : Bool
deriving DecidableEq, Repr

/-- What the boot ROM reads of a slot that it tries (spec/17 R587, R595): nothing, a read error, an image whose signature does not
verify, or one whose signature does, with its SVN. -/
inductive SlotImage where
  | blank | readError | unsigned | signed (svn : Nat)
deriving DecidableEq, Repr

/-- The commands (spec/opcode_table.json). -/
inductive Instr where
  /-- REGISTER_WRITE (R18): A write to a register that has no row of its own acts on its fields by access type, with the size, unmapped, reserved-encoding and not-ready checks applied. -/
  | registerWrite (ini : Initiator) (addr : Nat) (size : Nat) (wr : Option DWord)
  /-- SHADOW_LOW_WORD_READ (R16): A 32-bit read of the low word of a 64-bit register latches its high word into the initiator's shadow. -/
  | shadowLowWordRead (ini : Initiator) (addr : Nat)
  /-- CLKCTL_WRITE (R49): A write to GLOBAL.CLKCTL.SRC selects the root reference, and is refused with BUSY while any slice has an accepted burst. -/
  | clkctlWrite (ini : Initiator) (v : Word)
  /-- EVENT_PATH_DBE (R35): A double-bit error on a slice's event path is a contained fault that ends its burst at once with the pins safe. -/
  | eventPathDbe (n : Fin 8)
  /-- CONTROL_PATH_DBE (R35): A double-bit error on a PE control path is a contained fault of all four slices of that PE die. -/
  | controlPathDbe (pe : Fin 2)
  /-- START (R67): SLn.BCMD.START requests admission of the slice's or gang's burst, which enters CHECKING. -/
  | start (ini : Initiator) (n : Fin 8) (v : Word)
  /-- ADMISSION_RESULT (R69): The admission algorithm completes, and either accepts the burst into PREFILL and locks its reachable set or rejects it with a reason code. -/
  | admissionResult (n : Fin 8)
  /-- PREFILL_DONE (R65): The Bobbin lead-ins and the stream FIFO are full, and the slice becomes ARMED. -/
  | prefillDone (n : Fin 8)
  /-- BURST_T0 (R58): T0 is reached, vector 0 is scheduled, and the slice becomes RUNNING. -/
  | burstT0 (n : Fin 8)
  /-- ABORT_HEM (R78): An abort that ends the burst at the next run-time hem boundary, or withdraws it in PREFILL or ARMED, or rejects it in CHECKING. -/
  | abortHem (ini : Initiator) (n : Fin 8) (v : Word)
  /-- ABORT_NOW (R78): An immediate abort that stops the formatter input at the vector group in progress. -/
  | abortNow (ini : Initiator) (n : Fin 8) (v : Word)
  /-- PINS_PARK (R187): At t_L + 2 × p_L, or within 100 ns after ABORT_NOW's last event, every pin takes the park state and the markers go low. -/
  | pinsPark (n : Fin 8)
  /-- BURST_IDLE (R188): The slice leaves ENDING for IDLE once the pins are parked and the Spool has drained. -/
  | burstIdle (n : Fin 8)
  /-- HEM_BOUNDARY (R136): A run-time hem boundary, at which pending aborts, SPOOL_HALT and exception ends are taken. -/
  | hemBoundary (n : Fin 8)
  /-- FSEAM_HANDOVER (R210): At the seam time Ts the incoming synthesizer makes its first edge, and the outgoing one becomes RECOVERING. -/
  | fseamHandover (n : Fin 8)
  /-- SYNTH_RECOVERED (R208): A RECOVERING synthesizer becomes STANDBY within 18 µs. -/
  | synthRecovered (n : Fin 8) (b : Bool)
  /-- SYNTH_FAULT (R212): A synthesizer that is not ready at a seam, or that loses lock, ends the burst as a contained fault and sets VCLK.FAULT. -/
  | synthFault (n : Fin 8)
  /-- DLL_LOCK_LOST (R230): A vernier DLL leaves lock, which is a corrected fault and sets CAL_STALE. -/
  | dllLockLost (n : Fin 8)
  /-- DRIVE_EVENT (R223): A drive event reaches its placed instant and sets the pin state, or is dropped for range or spacing. -/
  | driveEvent (n : Fin 8) (lane : Fin 32) (vec : Nat) (slot : Fin 4)
  /-- STROBE (R293): A strobe gives a pass/fail result that updates the compare window, the fail counter and FFVEC, or is dropped. -/
  | strobe (n : Fin 8) (lane : Fin 32) (vec : Nat) (unit : Fin 2) (obs : BallObs)
  /-- EVT_INPUT_EDGE (R151): A rising edge on an EVT ball is synchronised and makes the EVT_EDGE flag pending. -/
  | evtInputEdge (e : Fin 8) (tm : Nat)
  /-- STREAM_UNDERRUN (R61): A stream underrun or Bobbin miss ends the burst as a contained fault of the slice. -/
  | streamUnderrun (n : Fin 8)
  /-- STREAM_ECC_ERROR (R166): An uncorrectable error in streamed control or vector data raises ECC, which ends the burst at the last hem boundary before the affected vector. -/
  | streamEccError (n : Fin 8) (data : Bool) (seg : Nat) (off : Nat) (vec : Nat) (word : DWord)
  /-- ADV (R138): ADV moves the placement point and has no effect at run time. -/
  | adv (n : Fin 8) (word : DWord)
  /-- RPT (R139): RPT plays its vector a further N times. -/
  | rpt (n : Fin 8) (k : Fin 4) (word : DWord)
  /-- JMP (R140): JMP transfers control to the target segment after its vector. -/
  | jmp (n : Fin 8) (word : DWord)
  /-- FSEAM (R141): FSEAM jumps to its target and can switch the timing set at the target's first vector. -/
  | fseam (n : Fin 8) (word : DWord)
  /-- CALL (R142): CALL pushes the continuation and transfers, or raises STACK_OVF when the stack is full. -/
  | call (n : Fin 8) (word : DWord)
  /-- RET (R142): RET pops a continuation and transfers to it, or raises STACK_UNF when the stack is empty. -/
  | ret (n : Fin 8) (word : DWord)
  /-- HALT (R144): HALT ends the burst after its vector with CAUSE = HALT and records its code. -/
  | halt (n : Fin 8) (word : DWord)
  /-- LDC (R145): LDC loads a value into a loop counter. -/
  | ldc (n : Fin 8) (k : Fin 4) (word : DWord)
  /-- LOOP (R146): LOOP decrements its counter and transfers to the body while the counter is above 1. -/
  | loop (n : Fin 8) (word : DWord)
  /-- BRC (R152): BRC evaluates its condition and transfers to the target when the condition is true. -/
  | brc (n : Fin 8) (word : DWord) (evt : Bool)
  /-- MWAIT (R153): MWAIT continues on a match, repeats the body while its counter allows, and otherwise times out. -/
  | mwait (n : Fin 8) (word : DWord) (evt : Bool)
  /-- TSET (R154): TSET makes a timing set current from its own vector on. -/
  | tset (n : Fin 8) (k : Fin 4) (word : DWord)
  /-- LVL (R155): LVL writes one level-change entry into the level queue at its vector's scheduled time. -/
  | lvl (n : Fin 8) (k : Fin 4) (word : DWord)
  /-- PMU (R156): PMU writes an ADC conversion trigger entry into the PMU-trigger queue. -/
  | pmu (n : Fin 8) (k : Fin 4) (word : DWord)
  /-- TDC (R156): TDC writes a TDC arm entry into the PMU-trigger queue. -/
  | tdc (n : Fin 8) (k : Fin 4) (word : DWord)
  /-- MKSET (R157): MKSET queues an edge that drives a marker ball high. -/
  | mkset (n : Fin 8) (k : Fin 4) (word : DWord)
  /-- MKCLR (R157): MKCLR queues an edge that drives a marker ball low. -/
  | mkclr (n : Fin 8) (k : Fin 4) (word : DWord)
  /-- SMASK_LOAD (R159): SMASK LOAD sets the site mask to MASK AND the filled slots. -/
  | smaskLoad (n : Fin 8) (k : Fin 4) (word : DWord)
  /-- SMASK_ENABLE (R159): SMASK ENABLE sets the mask bits of filled slots that MASK names. -/
  | smaskEnable (n : Fin 8) (k : Fin 4) (word : DWord)
  /-- SMASK_DISABLE (R159): SMASK DISABLE clears the mask bits that MASK names. -/
  | smaskDisable (n : Fin 8) (k : Fin 4) (word : DWord)
  /-- SMASK_DROP_FAILED (R159): SMASK DROP_FAILED clears the mask bits of the named slots whose latch shows fail. -/
  | smaskDropFailed (n : Fin 8) (k : Fin 4) (word : DWord)
  /-- SLATCH_ACCUM (R161): SLATCH ACCUM sets the latch of each active site whose site flag is set to fail. -/
  | slatchAccum (n : Fin 8) (k : Fin 4) (word : DWord)
  /-- SLATCH_ACCUM_CLRW (R161): SLATCH ACCUM_CLRW accumulates the latches and then clears the window. -/
  | slatchAccumClrw (n : Fin 8) (k : Fin 4) (word : DWord)
  /-- SLATCH_CLRW (R161): SLATCH CLRW clears the compare window at its vector. -/
  | slatchClrw (n : Fin 8) (k : Fin 4) (word : DWord)
  /-- SLATCH_RESET (R161): SLATCH RESET sets the latch of each active site to pass. -/
  | slatchReset (n : Fin 8) (k : Fin 4) (word : DWord)
  /-- GSYNC (R162): GSYNC checks that the gang members are in position, and can post a fail summary. The members' positions stand
  in the state, so what the sender says of them (`inStep`) decides nothing. -/
  | gsync (n : Fin 8) (k : Fin 4) (word : DWord) (inStep : Bool)
  /-- QUEUE_ENTRY_ARRIVAL (R617): A queue entry arrives at its vector's scheduled time and is queued, or raises QUEUE_BREACH when the queue is full. -/
  | queueEntryArrival (n : Fin 8)
  /-- MARKER_EDGE (R157): A marker entry leaves its queue at its edge instant and sets the marker level. -/
  | markerEdge (n : Fin 8) (m : Bool)
  /-- RESV_WRITE (R71): A write to SLn.RESV is refused with BUDGET when it would raise the real-time budget above 98,304. -/
  | resvWrite (ini : Initiator) (n : Fin 8) (v : Word)
  /-- DDIST_WRITE (R185): A write to SLn.DDIST sets D, and in a gang writes the same value into every member. -/
  | ddistWrite (ini : Initiator) (n : Fin 8) (v : Word)
  /-- SEG_OPEN (R106): SEGCMD OPEN assigns a segment entry an image range and makes it OPEN, or is refused. -/
  | segOpen (ini : Initiator) (n : Fin 8) (v : Word)
  /-- SEG_SEAL (R106): SEGCMD SEAL makes an OPEN entry VERIFYING and queues its token in the seal queue. -/
  | segSeal (ini : Initiator) (n : Fin 8) (v : Word)
  /-- SEG_DROP (R106): SEGCMD DROP empties an entry that is not LOCKED and abandons its verification. -/
  | segDrop (ini : Initiator) (n : Fin 8) (v : Word)
  /-- DMA_SEAL (R107): Once every write of a descriptor is committed, the DMA engine presents its seal, which then acts as a SEAL command. -/
  | dmaSeal (c : Fin 16)
  /-- VERIFY_BEGIN (R108): The load unit begins verifying the oldest waiting seal once LOADDONE has room. -/
  | verifyBegin (n : Fin 8)
  /-- VERIFY_DONE (R110): Verification ends, and the entry becomes LOADED with its derived figures or returns to OPEN with an error code. -/
  | verifyDone (n : Fin 8) (ecc : EccWhere)
  /-- LOADDONE_POST (R108): A ready completion record enters LOADDONE when it has room, and frees its seal-queue place. -/
  | loaddonePost (n : Fin 8)
  /-- LOADDONE_READ (R126): A 64-bit read or a read of the low word of SLn.LOADDONE removes the oldest completion record. -/
  | loaddoneRead (ini : Initiator) (n : Fin 8) (wide : Bool)
  /-- HREG_CTRL_WRITE (R92): A write to GLOBAL.HREG[i].CTRL forms a region after the kind, overlap and in-use checks, or is refused as a whole. -/
  | hregCtrlWrite (ini : Initiator) (i : Fin 32) (v : Word)
  /-- HBM_ACCESS (R94): An HBM request is checked against the region map and served by the DRC scheduler in its class. -/
  | hbmAccess (who : HbmBy) (addr : Nat) (len : Nat) (op : HbmOp)
  /-- SMAP_COMMIT (R179): SMAPCMD.COMMIT checks the staged site map and applies it as a whole, or refuses it with a code. -/
  | smapCommit (ini : Initiator) (n : Fin 8) (v : Word)
  /-- SMAP_REVERT (R179): SMAPCMD.REVERT copies the site map in force into the staging registers. -/
  | smapRevert (ini : Initiator) (n : Fin 8) (v : Word)
  /-- GANG_WRITE (R181): A write to SLn.GANG.MEMBERS is checked for idle slices and broken sites, and on acceptance copies the lead's D to every member. -/
  | gangWrite (ini : Initiator) (n : Fin 8) (v : Word)
  /-- PINCFG_WRITE (R241): A write to SLn.PINCFG changes a lane's connection within 1 µs, and is refused while the slice is busy or a safe-state cause is held. -/
  | pincfgWrite (ini : Initiator) (n : Fin 8) (lane : Fin 32) (v : Word)
  /-- LVLPUSH (R253): A write of the high word of SLn.LVLPUSH, or a 64-bit write, pushes a level entry, which is dropped when the queue is full. -/
  | lvlpush (ini : Initiator) (n : Fin 8) (wide : Bool) (v : DWord)
  /-- PMU_WRITE (R258): A write to SLn.PMU stages a PPMU change, which is taken at the next DAC tick. -/
  | pmuWrite (ini : Initiator) (n : Fin 8) (lane : Fin 32) (v : Word)
  /-- PMU_QUEUE_TAKE (R263): The head PMU-trigger entry is taken once its resource is free, and starts an ADC sequence or arms the TDC. -/
  | pmuQueueTake (n : Fin 8)
  /-- ADC_START (R262): ADCCMD.START starts the ADC sequence or the sum, or is skipped while one runs. -/
  | adcStart (ini : Initiator) (n : Fin 8) (v : Word)
  /-- ADC_STOP (R261): ADCCMD.STOP stops a running sum. -/
  | adcStop (ini : Initiator) (n : Fin 8) (v : Word)
  /-- ADC_TIMER (R262): The ADC timer period expires and starts a sequence, or is skipped while one runs. -/
  | adcTimer (n : Fin 8)
  /-- ADC_DELAY_EXPIRY (R262): The start delay of a sequence expires and its first sample begins. -/
  | adcDelayExpiry (n : Fin 8)
  /-- ADC_SAMPLE_DONE (R260): A 1 µs conversion completes and its sample is added to the entry's accumulator or to the sum. -/
  | adcSampleDone (n : Fin 8) (sample : BitVec 18)
  /-- ADC_URGENT_REQUEST (R264): An urgent Press or supervisor request preempts a running sequence or sum. -/
  | adcUrgentRequest (n : Fin 8)
  /-- ADCRES_READ (R284): A read of SLn.ADCRES removes the oldest ADC record. -/
  | adcresRead (ini : Initiator) (n : Fin 8) (wide : Bool)
  /-- TDC_ARM (R267): TDCCMD.ARM arms the TDC. -/
  | tdcArm (ini : Initiator) (n : Fin 8) (v : Word)
  /-- TDC_CANCEL (R267): TDCCMD.CANCEL ends the armed measurement with CANCEL = 1. -/
  | tdcCancel (ini : Initiator) (n : Fin 8) (v : Word)
  /-- TDC_ARMED (R267): The TDC becomes armed 30 ns after it takes its arm. -/
  | tdcArmed (n : Fin 8)
  /-- TDC_STOP (R266): A qualifying stop edge ends the measurement, and the TDC posts a record. -/
  | tdcStop (n : Fin 8) (raw : Nat)
  /-- TDC_TIMEOUT (R267): The TDCTO time after arming expires, and a record with TIMEOUT = 1 is posted. -/
  | tdcTimeout (n : Fin 8)
  /-- TDC_LOCK_LOST (R270): The interpolator loop leaves lock, and records completed meanwhile carry NOLOCK. -/
  | tdcLockLost (n : Fin 8)
  /-- TDCRES_READ (R291): A read of SLn.TDCRES removes the oldest TDC record. -/
  | tdcresRead (ini : Initiator) (n : Fin 8) (wide : Bool)
  /-- XO_DISCIPLINE_UPDATE (R269): Once per second a disciplined time base rewrites GLOBAL.XOTB.PPB from REFCLK. -/
  | xoDisciplineUpdate (ppb : Int)
  /-- XOTB_WRITE (R269): A software write to PPB is accepted unless the time base is disciplined. -/
  | xotbWrite (ini : Initiator) (v : Word)
  /-- SPOOL_RECORD (R300): After every strobe of a failing vector has completed, its record enters the on-die stage under the policy in force. -/
  | spoolRecord (n : Fin 8)
  /-- SPOOL_DRAIN (R302): The oldest record of the stage is committed to the ring and SPWR advances, or the drain waits on a full ring. -/
  | spoolDrain (n : Fin 8)
  /-- SPRD_WRITE (R304): A write to SPRD frees ring space, or is refused with RDERR when its value is outside the allowed range. -/
  | sprdWrite (ini : Initiator) (n : Fin 8) (v : Word)
  /-- DISCARD (R307): SPCMD.DISCARD empties the on-die stage in ENDING and counts the records in SPDROP. -/
  | discard (ini : Initiator) (n : Fin 8) (v : Word)
  /-- CNTCLR (R295): SPCMD.CNTCLR clears the fail counters and FCSAT. -/
  | cntclr (ini : Initiator) (n : Fin 8) (v : Word)
  /-- SITELAT_WRITE (R297): Writing 1 to a SITELAT bit sets that latch to pass across the gang. -/
  | sitelatWrite (ini : Initiator) (n : Fin 8) (v : Word)
  /-- SITESET_WRITE (R297): Writing 1 to a SITESET bit sets that latch to fail across the gang. -/
  | sitesetWrite (ini : Initiator) (n : Fin 8) (v : Word)
  /-- SCOPE_ARM (R310): SCPCMD.ARM starts a scope acquisition after its checks. -/
  | scopeArm (ini : Initiator) (n : Fin 8) (v : Word)
  /-- SCOPE_CANCEL (R316): SCPCMD.CANCEL ends the acquisition with CANCELLED and restores VOH. -/
  | scopeCancel (ini : Initiator) (n : Fin 8) (v : Word)
  /-- SCOPE_SETTLED (R312): The VOH settling of a row ends and sampling may begin. -/
  | scopeSettled (n : Fin 8)
  /-- SCOPE_TRIGGER (R313): A play of the SCPREF vector is a trigger for the next sample, unless it is skipped. -/
  | scopeTrigger (n : Fin 8) (vec : Nat)
  /-- SCOPE_FORCED_TRIGGER (R314): With AUTO, no trigger within SCPTO forces a trigger at the next TROOT boundary. -/
  | scopeForcedTrigger (n : Fin 8)
  /-- SCOPE_SAMPLE (R312): The comparator is sampled at the sample instant, and counts are stored; after the last count the trigger point is computed. -/
  | scopeSample (n : Fin 8) (above : Bool)
  /-- SCAN_ENABLE (R347): Writing EN from 0 to 1 admits the unit and, on acceptance, puts it in WAIT with its shadows in force. -/
  | scanEnable (ini : Initiator) (u : Fin 4) (v : Word)
  /-- SCAN_DISABLE (R352): Writing EN = 0 stops the raster at once and returns the owned lanes to the slice. -/
  | scanDisable (ini : Initiator) (u : Fin 4) (v : Word)
  /-- SCAN_COMMIT (R351): A COMMIT request waits to be taken at a line start, and then puts every shadow in force. -/
  | scanCommit (ini : Initiator) (u : Fin 4) (v : Word)
  /-- SCAN_BASERDY (R351): A BASERDY request waits to be taken, and then puts BASEOFF and BSTRIDE in force. -/
  | scanBaserdy (ini : Initiator) (u : Fin 4) (v : Word)
  /-- SCAN_OVLRDY (R351): An OVLRDY request waits to be taken, and then hands over the overlay. -/
  | scanOvlrdy (ini : Initiator) (u : Fin 4) (v : Word)
  /-- SCAN_LINE_FETCHED (R349): The fetch of a line completes into the buffer, and line 0 makes the unit PRIMED. -/
  | scanLineFetched (u : Fin 4)
  /-- SCAN_RASTER_START (R338): The raster starts at TSTART or at T0 of the first burst on SLA after PRIMED, and the unit becomes RUN. -/
  | scanRasterStart (u : Fin 4)
  /-- SCAN_LINE_START (R341): At each line start the unit takes pending requests, decides F or an inserted line, and begins the next fetch. -/
  | scanLineStart (u : Fin 4)
  /-- SCAN_UNDERRUN (R346): A pixel needed before it arrives, or a bad pixel word, puts the unit in FAULT and ends the attached bursts. -/
  | scanUnderrun (u : Fin 4)
  /-- REFRESH_DUE (R371): A pseudo-channel's refresh falls due and is issued, or is owed under panic; at 8 owed a forced burst begins. -/
  | refreshDue (pc : Fin 64)
  /-- FORCED_BURST_REFRESH (R372): The next of the 8 refreshes of a forced burst is issued after a 410 ns service gap. -/
  | forcedBurstRefresh (pc : Fin 64)
  /-- ROW_ACTIVATE (R374): An activate updates the bank's rowhammer table and can queue a targeted or probabilistic refresh. The
  draw is that of the LFSR in the state, so what the sender says of it (`draw`) decides nothing. -/
  | rowActivate (pc : Fin 64) (sid : Fin 3) (bank : Fin 16) (row : Nat) (draw : Bool)
  /-- TARGETED_REFRESH (R375): A queued targeted refresh of a row's neighbours is issued in its class. -/
  | targetedRefresh (pc : Fin 64) (sid : Fin 3) (bank : Fin 16) (row : Nat)
  /-- PROB_REFRESH (R377): A probabilistic neighbour refresh is issued. -/
  | probRefresh (pc : Fin 64) (sid : Fin 3) (bank : Fin 16) (row : Nat)
  /-- HBM_TEMP_READ (R371): Once per millisecond the DRC reads each stack's temperature and sets the refresh interval. -/
  | hbmTempRead (s : Fin 2) (temp : Int)
  /-- HBM_CORRECTED_ERROR (R381): A single-bit HBM error is corrected, counted and reported. -/
  | hbmCorrectedError (addr : Nat)
  /-- HBM_UNCORRECTABLE_ERROR (R381): An uncorrectable HBM error is counted, reported and handled per initiator. -/
  | hbmUncorrectableError (addr : Nat) (who : HbmBy)
  /-- HB_INIT (R378): DRC.HBCMD.INITs initialises a stack's interface with the DRC.TRN values. -/
  | hbInit (ini : Initiator) (v : Word)
  /-- HB_INIT_DONE (R378): The stack's interface initialisation and self-check complete and READY.HBs sets. -/
  | hbInitDone (s : Fin 2) (pass : Bool)
  /-- TRN_WRITE (R379): A write to DRC.TRN is accepted only from the management controller while its stack is not ready. -/
  | trnWrite (ini : Initiator) (s : Fin 2) (c : Fin 16) (w : Fin 64) (v : Word)
  /-- PPR_SOFT (R383): DRC.PPR SOFT starts a soft post-package repair of one row. -/
  | pprSoft (ini : Initiator) (v : Word)
  /-- PPR_HARD (R383): DRC.PPR HARD starts a hard post-package repair, permitted only in MANUFACTURE and RMA. -/
  | pprHard (ini : Initiator) (v : Word)
  /-- PPR_DONE (R394): A repair completes and DRC.PPRSTAT.RESULT is written. -/
  | pprDone (res : PprEnd)
  /-- CORE_RUN (R403): The management controller's write of CORE[c].CTRL.RUN starts or stops a site core. -/
  | coreRun (ini : Initiator) (c : Fin 8) (v : Word)
  /-- CORE_RESET (R403): CORE[c].CTRL.RESET stops the core, resets its state and abandons its task. -/
  | coreReset (ini : Initiator) (c : Fin 8) (v : Word)
  /-- CORE_UE (R402): An uncorrectable error in a core's SRAM or cache is a contained fault that stops the core. -/
  | coreUe (c : Fin 8)
  /-- CORE_TIMER_INTERRUPT (R401): mtime reaches mtimecmp and the core's machine timer interrupt becomes pending. -/
  | coreTimerInterrupt (c : Fin 8)
  /-- MSIP_WRITE (R404): A write to CORE[c].MSIP sets or clears the core's machine software interrupt. -/
  | msipWrite (ini : Initiator) (c : Fin 8) (v : Word)
  /-- DOORBELL (R404): The host writes 1 to bit 16 of CORE[c].IRQPEND and sets DOORBELL. -/
  | doorbell (ini : Initiator) (c : Fin 8) (v : Word)
  /-- PUSH (R406): A 64-bit write to DISPATCH.PUSH or a store to a core's PUSH port queues a task, or is refused. -/
  | push (ini : Initiator) (desc : DWord)
  /-- GET (R409): A 64-bit load from the GET port blocks until a grant, or returns 0 when the core already holds a task. -/
  | get (c : Fin 8)
  /-- GET_RELEASE (R409): A blocked GET returns 0 on an enabled interrupt, a core reset or GETEN = 0. -/
  | getRelease (c : Fin 8)
  /-- DONE (R410): A store to the DONE port ends the held task and frees its flow. -/
  | done (c : Fin 8)
  /-- FLUSH (R412): DISPATCH.CTRL.FLUSH discards every waiting task. -/
  | flush (ini : Initiator) (v : Word)
  /-- CL_ENABLE (R430): Setting a port's EN moves it from DISABLED to PROBE and begins attempt 1. -/
  | clEnable (ini : Initiator) (p : Fin 4) (v : Word)
  /-- CL_DISABLE (R430): Clearing EN takes the port to DISABLED and discards its frames. -/
  | clDisable (ini : Initiator) (p : Fin 4) (v : Word)
  /-- LRST (R448): CTRL.LRST discards the replay buffer, zeroes the sequence numbers and restarts training. -/
  | lrst (ini : Initiator) (p : Fin 4) (v : Word)
  /-- LOS_SET (R427): Amplitude below 50 mV for 100 ns sets LOS on a lane. -/
  | losSet (p : Fin 4) (l : Fin 2)
  /-- LOS_CLEAR (R427): Amplitude at or above 50 mV for 10 µs clears LOS. -/
  | losClear (p : Fin 4) (l : Fin 2)
  /-- LOL_SET (R427): The CDR loses lock or sees too large an offset, and LOL sets. -/
  | lolSet (p : Fin 4) (l : Fin 2)
  /-- LOL_CLEAR (R427): The CDR stays locked for 10 µs and LOL clears. -/
  | lolClear (p : Fin 4) (l : Fin 2)
  /-- RX_BLOCK (R428): A received block's sync header is checked for block lock and counted when invalid. -/
  | rxBlock (p : Fin 4) (l : Fin 2) (hdr : BitVec 2) (btype : Byte)
  /-- TRAIN (R435): TRAIN blocks received in ACTIVE or RECOVER send the port to PROBE for attempt 1. -/
  | train (p : Fin 4) (l : Fin 2)
  /-- ALIGN (R429): A received ALIGN block is used to deskew the two lanes. `block` is the count of the receiver's block slots at which
  it came. -/
  | align (p : Fin 4) (l : Fin 2) (block : Nat)
  /-- ALIGN_TX (R429): Every 16,384 blocks each lane sends an ALIGN block. -/
  | alignTx (p : Fin 4)
  /-- ACK (R435): A received ACK frees outstanding frames up to its sequence number. -/
  | ack (p : Fin 4) (body : BitVec 16) (crc : Byte)
  /-- NAK (R435): A received NAK frees earlier frames, and the sender resends from its sequence number. -/
  | nak (p : Fin 4) (body : BitVec 16) (crc : Byte)
  /-- RECOVER (R436): A received RECOVER block sends an ACTIVE port into RECOVER, or carries RDY and SWDLY in recovery. -/
  | recover (p : Fin 4) (rdy : Bool) (swdly : Nat)
  /-- HELLO (R432): A received HELLO frame is checked and advances HANDSHAKE towards SWITCH. -/
  | hello (p : Fin 4) (version : Byte) (trusted : Bool) (rxok : Bool) (drive : Bool) (swdly : Nat) (serial : DWord)
  /-- HELLO_TIMER (R430): In HANDSHAKE a HELLO frame is sent every 1 µs. -/
  | helloTimer (p : Fin 4)
  /-- FRAME_CRC_ERROR (R435): A frame whose CRC fails is discarded, and one NAK is sent. -/
  | frameCrcError (p : Fin 4)
  /-- TX_FRAME (R434): The transmitter sends the next waiting frame, urgent frames first, and keeps it for replay. -/
  | txFrame (p : Fin 4)
  /-- ACK_TIMER (R435): 1 µs after an accepted frame the receiver sends ACK. -/
  | ackTimer (p : Fin 4)
  /-- REPLAY_TIMEOUT (R435): 10 µs without progress resends every outstanding frame; after four, the port enters RECOVER. -/
  | replayTimeout (p : Fin 4)
  /-- ATTEMPT_TIMEOUT (R431): An attempt that has not reached ACTIVE within 10 ms fails, and after three failures the port enters DOWN. -/
  | attemptTimeout (p : Fin 4)
  /-- DOWN_RETRY (R430): Every RETRY × 10 ms a DOWN port makes one attempt. -/
  | downRetry (p : Fin 4)
  /-- SWITCH_TIMEOUT (R430): SWITCH without CDR and block lock within 200 µs fails the attempt with CDR. -/
  | switchTimeout (p : Fin 4)
  /-- RECOVER_TIMEOUT (R436): A RECOVER not complete within 1 ms sends the port to PROBE for attempt 1. -/
  | recoverTimeout (p : Fin 4)
  /-- SUMMARY (R438): A received SUMMARY frame is routed or posted to CL.SUMRX. -/
  | summary (p : Fin 4) (hdr : Hdr) (vec : DWord) (map : BitVec 256) (tag : Byte) (slices : Byte)
  /-- SUMRX_POP (R456): CL.SUMRXPOP removes the oldest received summary. -/
  | sumrxPop (ini : Initiator) (v : Word)
  /-- REGRD (R442): A REGRD on a TRUSTED port for this device is executed with PF rights and answered with REGRSP. -/
  | regrd (p : Fin 4) (hdr : Hdr) (tag : BitVec 6) (off : Nat)
  /-- REGWR (R442): A REGWR on a TRUSTED port for this device is executed with PF rights and answered with REGRSP. -/
  | regwr (p : Fin 4) (hdr : Hdr) (tag : BitVec 6) (off : Nat) (data : Word)
  /-- REGRSP (R443): A received REGRSP completes the matching outstanding remote request, or is discarded. -/
  | regrsp (p : Fin 4) (hdr : Hdr) (tag : BitVec 6) (off : Nat) (status : BitVec 2) (data : Word)
  /-- DISCOVER (R445): An ENUM DISCOVER adopts a newer generation and fans out, or is answered with ALT. -/
  | discover (p : Fin 4) (hdr : Hdr) (gen : Word) (depth : Nat) (partnerRoot : Bool)
  /-- JOIN (R445): An ENUM JOIN sets the port's role to DOWN. -/
  | join (p : Fin 4) (hdr : Hdr) (gen : Word)
  /-- ALT (R445): An ENUM ALT sets the port's role to ALT. -/
  | alt (p : Fin 4) (hdr : Hdr) (gen : Word)
  /-- REPORT (R445): An ENUM REPORT is forwarded towards the root, which assigns indices from them. -/
  | report (p : Fin 4) (hdr : Hdr) (gen : Word) (serial : DWord) (hint : BitVec 12)
  /-- FIN (R445): An ENUM FIN completes a subtree, and the device reports up once all its DOWN ports have finished. -/
  | fin (p : Fin 4) (hdr : Hdr) (gen : Word) (count : Nat) (overflow : Bool)
  /-- ASSIGN (R445): An ENUM ASSIGN gives the named device its INDEX and IVALID. -/
  | assign (p : Fin 4) (hdr : Hdr) (gen : Word) (serial : DWord) (index : BitVec 12)
  /-- DONE_ENUM (R445): An ENUM DONE sets ENUMSTAT.DONE. -/
  | doneEnum (p : Fin 4) (hdr : Hdr) (gen : Word)
  /-- CHANGE (R446): An ENUM CHANGE is passed up, and at the root starts a new generation. -/
  | change (p : Fin 4) (hdr : Hdr) (gen : Word)
  /-- ADOPT (R446): An ENUM ADOPT sets the receiving port's role to DOWN. -/
  | adopt (p : Fin 4) (hdr : Hdr) (gen : Word)
  /-- SEARCH (R445): ENUMCTL.SEARCH at the root starts a new generation and sends DISCOVER. -/
  | search (ini : Initiator) (v : Word)
  /-- ENUM_PORT_CHANGE (R446): A TRUSTED port entering or leaving ACTIVE sends CHANGE, and can switch UP to an ALT port with ADOPT. -/
  | enumPortChange (p : Fin 4)
  /-- SYNC (R464): A SYNC from the source gives the offset, steps or slews TICK, and is forwarded. -/
  | sync (p : Fin 4) (hdr : Hdr) (prio : Byte) (hops : Nat) (sseq : Word) (tick : DWord) (tap : Byte) (serial : DWord) (arrival : Nat)
  /-- DELAY_EXCHANGE_TIMER (R459): A link-delay exchange is started by sending DREQ, every 10 µs in MEASURE and every 1 ms in ACTIVE. -/
  | delayExchangeTimer (p : Fin 4) (departure : Nat)
  /-- DREQ (R459): A received DREQ is stamped and answered with DRESP. -/
  | dreq (p : Fin 4) (hdr : Hdr) (num : Byte) (arrival : Nat) (departure : Nat)
  /-- DRESP (R459): A received DRESP completes an exchange and updates RTT and DELAY. -/
  | dresp (p : Fin 4) (hdr : Hdr) (num : Byte) (turn : Nat) (arrival : Nat)
  /-- LATE (R470): A received LATE report sets TRIGREP.REP and records the reporter. -/
  | late (p : Fin 4) (hdr : Hdr) (num : Byte) (index : BitVec 12) (behind : Int)
  /-- TRIG (R470): A received TRIG frame is accepted into the pending table or refused, and broadcasts are forwarded. -/
  | trig (p : Fin 4) (hdr : Hdr) (num : Byte) (tm : DWord)
  /-- SEND (R469): TIME.TRIGCMD.SEND issues a trigger, or refuses it when the lead is too short. -/
  | send (ini : Initiator) (v : Word)
  /-- SNAP (R458): TIME.SNAPCMD.SNAP latches TICK and the PHC together. -/
  | snap (ini : Initiator) (v : Word)
  /-- PHC_SET (R481): PHCCMD.SET loads the PHC from SETSEC and SETNS at the next 10 ns step. -/
  | phcSet (ini : Initiator) (v : Word)
  /-- SERVO_UPDATE (R475): A write of TIME.SRVOFF runs one servo update that steps the PHC or sets ADJ. -/
  | servoUpdate (ini : Initiator) (wide : Bool) (v : DWord)
  /-- RESETI (R475): SRVCTL.RESETI sets the servo's i and ADJ to 0. -/
  | reseti (ini : Initiator) (v : Word)
  /-- TXTS_POP (R484): TIME.TXTSPOP removes the oldest transmit stamp. -/
  | txtsPop (ini : Initiator) (v : Word)
  /-- FLR (R489): An FLR of a function causes a partition reset of its partition. -/
  | flr (p : Fin 8)
  /-- PARTITION_RESET (R489): GLOBAL.PRST bit p resets partition p's DMA, slices, SCAN units, Dispatcher tasks, mailbox and ACCERR copy. -/
  | partitionReset (ini : Initiator) (v : Word)
  /-- PART_WRITE (R488): A write to GLOBAL.PART[p] gives resources to a VF partition, or is refused. -/
  | partWrite (ini : Initiator) (p : Fin 8) (v : Word)
  /-- DMA_CHUNK (R493): In round robin, a channel moves its next chunk after checking it against the region map. -/
  | dmaChunk (c : Fin 16) (desc : DmaDesc) (data : List Byte) (end_ : DmaEnd)
  /-- DMA_STATUS_WRITE (R494): After its last chunk, or on an error, a descriptor's status is written and HEAD advances. -/
  | dmaStatusWrite (c : Fin 16)
  /-- GET_INFO (R499): Mailbox GET_INFO returns firmware version, SVN, slot and fuse counter. -/
  | getInfo (ini : Initiator) (p : Fin 8) (v : Word)
  /-- READ_SENSORS (R499): Mailbox READ_SENSORS returns the 17 sensor words. -/
  | readSensors (ini : Initiator) (p : Fin 8) (v : Word)
  /-- READ_LOG (R499): Mailbox READ_LOG returns fault-log records. -/
  | readLog (ini : Initiator) (p : Fin 8) (v : Word)
  /-- REMOTE_RD (R500): Mailbox REMOTE_RD sends a REGRD to another device and returns its status and data. -/
  | remoteRd (ini : Initiator) (p : Fin 8) (v : Word)
  /-- REMOTE_WR (R500): Mailbox REMOTE_WR sends a REGWR to another device and returns its status. -/
  | remoteWr (ini : Initiator) (p : Fin 8) (v : Word)
  /-- UPDATE_BEGIN (R501): Mailbox UPDATE_BEGIN starts writing the slot that is not running. -/
  | updateBegin (ini : Initiator) (p : Fin 8) (v : Word)
  /-- UPDATE_DATA (R501): Mailbox UPDATE_DATA writes part of the new image. -/
  | updateData (ini : Initiator) (p : Fin 8) (v : Word)
  /-- UPDATE_END (R501): Mailbox UPDATE_END verifies the image and marks it trial or invalid. -/
  | updateEnd (ini : Initiator) (p : Fin 8) (v : Word)
  /-- CONFIRM (R501): Mailbox CONFIRM confirms the running trial image. -/
  | confirm (ini : Initiator) (p : Fin 8) (v : Word)
  /-- COMMIT_SVN (R501): Mailbox COMMIT_SVN raises the fuse counter to the confirmed image's SVN. -/
  | commitSvn (ini : Initiator) (p : Fin 8) (v : Word)
  /-- MAILBOX_RESPONSE (R499): The controller writes a command's response, sets DONE, clears BUSY and fires vector 0. -/
  | mailboxResponse (p : Fin 8) (check : ImageCheck) (info : List Word)
  /-- SENSOR_SAMPLE (R497): Each millisecond the sensors are sampled, with warnings, fatal limits and Press DUE and CAL_STALE judged. -/
  | sensorSample (measured : List Int)
  /-- FULL_RESET (R506): SMBus FULL_RESET acts as PERST_N. -/
  | fullReset (data : Byte) (pec : Bool)
  /-- INTERLOCK_CHANGE (R507): A change of ILK_A or ILK_B moves the interlock among CLOSED, OPEN and DISAGREE, holding or releasing the pin safe state. -/
  | interlockChange (a : Bool) (b : Bool)
  /-- ILK_FAULT_CLEAR (R508): Writing 1 to GLOBAL.ILK.FAULT clears it while the state is CLOSED, and is otherwise refused. -/
  | ilkFaultClear (ini : Initiator) (v : Word)
  /-- ETH_TX_FRAME (R503): A transmit descriptor's frame is sent, optionally stamped, and its FLAGS are written. -/
  | ethTxFrame (e : Fin 2) (stamp : RawStamp) (ecc : Bool)
  /-- ETH_RX_FRAME (R504): A received frame is stamped and written to the next receive descriptor, or dropped for a bad FCS or no descriptor. -/
  | ethRxFrame (e : Fin 2) (frame : List Byte) (fcs : Bool) (stamp : RawStamp) (ecc : Bool)
  /-- ETH_LINK_DOWN (R51): Loss of an Ethernet link or its reference is a link-down that ends no burst. -/
  | ethLinkDown (e : Fin 2)
  /-- LOAD (R528): GLOBAL.UPCMD.LOAD starts the patch engine on the verified image. -/
  | load (ini : Initiator) (v : Word)
  /-- REJECT (R528): GLOBAL.UPCMD.REJECT records a firmware rejection of the patch with RCODE. -/
  | reject (ini : Initiator) (v : Word)
  /-- PATCH_LOAD_DONE (R528): The patch engine finishes its checks and writes patch RAM and traps, or fails leaving ROM alone. -/
  | patchLoadDone (tag : Bool) (ecc : Bool) (plain : List Byte)
  /-- HAMPER_ERROR_EVENT (R541): A source reports an error, which is counted and latched and, when permitted, recorded and acted on by its class. -/
  | hamperErrorEvent (src : Fin 512) (detail : DWord)
  /-- POP (R565): HAMPER.POP removes the oldest Hamper record. -/
  | pop (ini : Initiator) (v : Word)
  /-- AONCLR (R566): HAMPER.AONCLR empties the named AON copies. -/
  | aonclr (ini : Initiator) (v : Word)
  /-- INJECT_SINGLE (R544): INJ ARM with SINGLE inverts one check bit at the source's next check. -/
  | injectSingle (ini : Initiator) (v : Word)
  /-- INJECT_DOUBLE (R544): INJ ARM with DOUBLE inverts two check bits at the source's next check. -/
  | injectDouble (ini : Initiator) (v : Word)
  /-- INJECT_WIRE (R544): INJ ARM with WIRE holds the source's rails equal for two samples. -/
  | injectWire (ini : Initiator) (v : Word)
  /-- PRESS_RUN (R548): PRESS.SL[n].CTRL.RUN requests a calibration run, which starts when its conditions hold. -/
  | pressRun (ini : Initiator) (n : Fin 8) (v : Word)
  /-- PRESS_AUTO_START (R548): With AUTO and DUE, a run starts after the slice has been IDLE for HOLDOFF µs. -/
  | pressAutoStart (n : Fin 8)
  /-- PRESS_RUN_DONE (R550): A run ends, writing the new values on a pass or keeping the old ones on a failure. -/
  | pressRunDone (n : Fin 8) (m : PressMeasured)
  /-- PRESS_SWITCH_RESTORE (R549): 20 µs after the restore apply tick, each switch returns to its CONN value. -/
  | pressSwitchRestore (n : Fin 8)
  /-- BIST_START (R556): BIST.CMD.START starts a full BIST of a target, or is refused. -/
  | bistStart (ini : Initiator) (v : Word)
  /-- BIST_ABORT (R556): BIST.CMD.ABORT ends the test with ABANDONED and re-initialises the target. -/
  | bistAbort (ini : Initiator) (v : Word)
  /-- BIST_DONE (R556): A full BIST completes, reports its result and re-initialises its target. -/
  | bistDone (rep : TestReport)
  /-- RINSE_STEP_DONE (R558): A rinse step ends, reports its result and posts a contained fault on failure. -/
  | rinseStepDone (rep : TestReport)
  /-- SUBMIT (R555): BIST.TOKCMD.SUBMIT hands a life-cycle token to the firmware for verification. -/
  | submit (ini : Initiator) (v : Word)
  /-- FUSE (R562): DARN.CMD.FUSE blows the soft repairs into the fuse table. -/
  | fuse (ini : Initiator) (v : Word)
  /-- POWER_ON_RESET (R575): PWRGOOD rising resets the whole module, and VAON rising resets AON as well. -/
  | powerOnReset (vaon : Bool)
  /-- WARM (R576): GLOBAL.RST.WARM puts HBM in self-refresh and resets every block except AON, RWS fields and PCIe. -/
  | warm (ini : Initiator) (v : Word)
  /-- SLICE (R575): GLOBAL.RST.SLICE bit n resets slice n and ends its gang's burst. -/
  | slice (ini : Initiator) (v : Word)
  /-- MGMT (R576): GLOBAL.RST.MGMT resets the management controller, mailboxes and sensor sampling. -/
  | mgmt (ini : Initiator) (v : Word)
  /-- BOOT_VERIFY_DONE (R587): The boot ROM finishes verifying a slot and sets READY.FW, or leaves it 0. -/
  | bootVerifyDone (a : SlotImage) (b : SlotImage) (ms : Nat)
  /-- STANDBY (R581): PWRCTL.STANDBY = 1 is checked and, once accepted, unpowers the PE dies and puts HBM in self-refresh. -/
  | standby (ini : Initiator) (v : Word)
  /-- STANDBY_EXIT (R582): PWRCTL.STANDBY = 0 powers the PE dies, restores levels, closes the switches and sets READY again. -/
  | standbyExit (ini : Initiator) (v : Word)
  /-- PARK (R579): Setting a PWRCTL.PARK bit gates the slice's clocks, or is refused while the slice is busy. -/
  | park (ini : Initiator) (v : Word)
  /-- UNPARK (R579): Clearing a PARK bit ungates the clocks, and READY.SL sets within 50 µs. -/
  | unpark (ini : Initiator) (v : Word)
  /-- SVCOFF_SL (R588): An SVCOFF SL bit takes a slice out of service, or returns it to service when cleared. -/
  | svcoffSl (ini : Initiator) (v : Word)
  /-- SVCOFF_SCAN (R588): An SVCOFF SCAN bit takes a SCAN unit out of service, or returns it when cleared. -/
  | svcoffScan (ini : Initiator) (v : Word)
  /-- SVCOFF_HB (R588): An SVCOFF HB bit takes a stack out of service into self-refresh, or releases it when cleared. -/
  | svcoffHb (ini : Initiator) (v : Word)
  /-- SHADOW_HIGH_WORD_READ (R16): A 32-bit read of the high word of a 64-bit register returns and empties the initiator's shadow when its tag names that register. -/
  | shadowHighWordRead (ini : Initiator) (addr : Nat)
  /-- ETH_LINK_UP (R55): An Ethernet port's 10GBASE-R link comes up with timestamping, and READY.ETHe and STAT.LINK set. -/
  | ethLinkUp (e : Fin 2)
  /-- VECTOR_GROUP (R37): In each VPIPE cycle the formatter takes one group of four vectors from the FIFO or Bobbin, with SCAN-owned symbols substituted. -/
  | vectorGroup (n : Fin 8)
  /-- SCAN_LEAD_WATERMARK (R345): The lead of a SCAN unit's line buffer falls below WMARK.URG or WMARK.PANIC as time passes, and the port raises urgency or panic.
  The lead follows from the state, so the watermarks that the sender names (`urgent`, `panic`) decide nothing. -/
  | scanLeadWatermark (u : Fin 4) (urgent : Bool) (panic : Bool)
  /-- TDC_START_EDGE (R266): The selected start edge reaches the armed TDC and the measured interval begins. -/
  | tdcStartEdge (n : Fin 8)
  /-- PEER_BUCKET_REFILL (R441): A PEER rate-limit bucket gains one token every INTERVAL × 10 ns. -/
  | peerBucketRefill (p : Fin 4) (k : Fin 3)
  /-- SAFE_PINS (R506): SMBus SAFE_PINS puts every slice in the pin safe state and holds the cause. -/
  | safePins (data : Byte) (pec : Bool)
  /-- SAFE_RELEASE (R506): SMBus SAFE_RELEASE releases the SAFE_PINS cause without closing a switch. -/
  | safeRelease (data : Byte) (pec : Bool)
  /-- READ_HAMPER_LOG (R506): SMBus READ_HAMPER_LOG returns the four AON copies of Hamper records. -/
  | readHamperLog (pec : Bool)
  /-- READ_TEMPS (R506): SMBus READ_TEMPS returns the 13 temperatures and the sample age. -/
  | readTemps (pec : Bool) (age : Nat) (reach : BitVec 13)
  /-- POWER_DOWN_PE (R583): SMBus POWER_DOWN_PE puts every slice safe and unpowers both PE dies. -/
  | powerDownPe (data : Byte) (pec : Bool)
  /-- SMB_GET_INFO (R506): SMBus code 0x01 gives GET_INFO through the management controller. -/
  | smbGetInfo (pec : Bool) (info : List Word)
  /-- SMB_READ_SENSORS (R506): SMBus code 0x02 gives READ_SENSORS through the management controller. -/
  | smbReadSensors (pec : Bool)
  /-- SMB_READ_LOG (R506): SMBus code 0x03 gives READ_LOG through the management controller. -/
  | smbReadLog (pec : Bool) (first : Nat) (count : Nat)
  /-- CS_CORRECTED_ERROR (R517): A single-bit control-store error is corrected in the read and counted in UCSCE. -/
  | csCorrectedError (n : Fin 8)
  /-- CS_UNCORRECTABLE_ERROR (R517): An uncorrectable control-store error stops the sequencer and sets CSUE. -/
  | csUncorrectableError (n : Fin 8)
  /-- SEQ_STATE_CORRECT (R524): A single-bit error in sequencer state runs CORRECT, which writes back the corrected value and resumes the routine. -/
  | seqStateCorrect (n : Fin 8) (entry : BitVec 14)
  /-- HAMPER_WIRE_FAULT (R536): Equal rails in two consecutive samples are treated as an error of the source with WIRE = 1. -/
  | hamperWireFault (src : Fin 512)
  /-- FATAL_FAULT (R539): A fatal fault puts every slice safe, ends every burst, puts HBM in self-refresh and signals AER and ALERT_N. -/
  | fatalFault (src : Fin 512) (lost : MemLoss)
  /-- TOKEN_VERIFY_DONE (R555): The firmware's token check completes, sets RESULT and may change the life-cycle state. -/
  | tokenVerifyDone (sig : Bool)
  /-- PPMU_AT_LIMIT (R257): A lane's PPMU reaches or leaves its current or voltage limit because of the load, changing its PPMUCLP bit. -/
  | ppmuAtLimit (n : Fin 8) (lane : Fin 32) (atLimit : Bool)
  /-- HAMPER_SOURCE_CLEARED (R541): A Hamper source's rails return to no error, so SRC[i].ACTIVE reads 0 and LATCHED can be cleared. -/
  | hamperSourceCleared (src : Fin 512)
  /-- TX_EMBEDDED_CHANGE (R432): A port's transmitter reaches the block it announced in SWDLY and changes to EMBEDDED, the DRIVE end turning FCK off. -/
  | txEmbeddedChange (p : Fin 4)
  /-- FCK_DETECTOR (R430): In PROBE, FCK is sensed present (SENSE) or contention on FCK is seen (DRIVE). -/
  | fckDetector (p : Fin 4) (ok : Bool)
  /-- MEASURE_EXCHANGE_TIMEOUT (R459): A link-delay exchange in MEASURE is unanswered within 1 ms, and the attempt fails with REASON = MEASURE. -/
  | measureExchangeTimeout (p : Fin 4)
  /-- REF_LOST (R46): REFCLK misses an edge for 40 ns or leaves its window, and in AUTO TROOT moves to the XO. -/
  | refLost
  /-- REF_VALID (R46): REFCLK is declared valid again after 100 ms without fault. -/
  | refValid
  /-- ROOT_RETURN_TO_REF (R47): In AUTO, TROOT returns to REF once REF has been valid for 100 ms and no slice has an accepted burst. -/
  | rootReturnToRef
  /-- XO_LOST (R50): The XO is lost and AON switches to its backup oscillator within 1 µs. -/
  | xoLost
  /-- XO_VALID (R50): The XO is valid again and AON returns to XO divided by 4. -/
  | xoValid
  /-- TROOT_LOCK_LOST (R48): Loss of the root reference or of TROOT lock is a fatal fault of the device. -/
  | trootLockLost
  /-- DAC_TICK (R252): At each 100 ns DAC tick, the head level entry and pending PMU changes are taken, and entries taken two ticks earlier are applied. -/
  | dacTick
  /-- PANIC_LONG (R370): Panic held for more than 100 µs sets DRC.PANLOG.LONG and reports a corrected fault. -/
  | panicLong
  /-- DISPATCH_GRANT (R408): In a FAB cycle, the Dispatcher grants the longest-waiting core a task by level and deficit round robin. -/
  | dispatchGrant
  /-- SYNC_TIMER (R462): The master sends a SYNC frame every 10 µs on every ACTIVE port. -/
  | syncTimer
  /-- SOURCE_TIMEOUT (R463): No SYNC from the source for 50 µs changes the source or begins holdover. -/
  | sourceTimeout
  /-- MASTER_TAKEOVER (R467): A device with PRIO ≠ 0 that hears no better master within its wait becomes master. -/
  | masterTakeover
  /-- TRIGGER_ACTION (R471): At an accepted trigger's action time, CL_EVENT flags set, armed slices start and named slices abort. -/
  | triggerAction
  /-- PCIE_LINK_DOWN (R51): Loss of the PCIe link is handled as a link-down and ends no accepted burst. -/
  | pcieLinkDown
  /-- REMOTE_TIMEOUT (R500): A remote request with no REGRSP within 100 µs completes with TIMEOUT. -/
  | remoteTimeout
  /-- ALERT_RESPONSE (R498): A read of the SMBus Alert Response Address is answered with the sideband address. -/
  | alertResponse
  /-- INTERLOCK_FAULT (R508): A DISAGREE that lasts DISC ms latches an interlock fault. -/
  | interlockFault
  /-- RINSE_STEP (R558): Every PERIOD ms the rinse cycle tests the next quiescent instance. -/
  | rinseStep
  /-- PERST_N (R575): PERST_N low resets the whole module except the AON-held fields. -/
  | perstN
  /-- PWRGOOD_FALL (R584): PWRGOOD falling drives the pin safe state within 10 µs and makes the module OFF. -/
  | pwrgoodFall
  /-- RAIL_FAULT (R606): A rail out of range for 5 µs or more while PWRGOOD is high is a fatal fault. -/
  | railFault
  /-- VAON_LOSS (R606): Loss of VAON ends every function and the pin switches open by default. -/
  | vaonLoss
  /-- ROOT_PLL_LOCKED (R45): The root PLL TROOT acquires lock, setting CLKSTAT.ROOT_LOCK, READY.TROOT and starting TICK with READY.TIME. -/
  | rootPllLocked
  /-- RAILS_IN_RANGE (R604): AON's rail monitors see every rail within its range for 1 ms and release power-on reset. -/
  | railsInRange
  /-- MGMT_FIRMWARE_RUNNING (R585): The management controller's verified firmware is running and READY.MGMT sets. -/
  | mgmtFirmwareRunning
  /-- DISPATCHER_STORE_RECOVERED (R545): After a contained fault of the Dispatcher store, the Dispatcher returns to service within 10 µs and READY.DISPATCH sets again. -/
  | dispatcherStoreRecovered
  /-- STANDBY_ENTERED (R581): The PE dies are unpowered and both stacks are in self-refresh, and PWRSTAT.STATE moves from ENTERING to STANDBY. -/
  | standbyEntered
  /-- PE_CORRECTIONS_RELOADED (R582): During a STANDBY exit the PE dies are powered and their DAC and PPMU corrections are reloaded, so the next DAC tick can take the codes. -/
  | peCorrectionsReloaded
  /-- STANDBY_SWITCH_CLOSE (R582): 20 µs after the restored codes are applied at a STANDBY exit, every switch moves to its CONN value. -/
  | standbySwitchClose
deriving DecidableEq, Repr

end Sys2Proof
end

