-- ==== Sys2Proof/WellFormed.lean ====
section
/-! DEFINITION. Which commands are well formed: the ranges of the operands that their types do not bound. -/

namespace Sys2Proof

/-- Bytes of BAR0 (spec/00 R32). -/
def bar0 : Nat := 0x4000000

/-- Bytes of the window, after BAR0, by which the management controller loads the site cores' local SRAM (assumption 53). -/
def sramWindow : Nat := 0x200000

/-- A PHC time's nanoseconds and fraction are in range (spec/13 R473). -/
def phcOk (t : PhcTime) : Bool := decide (t.ns < 1000000000) && decide (t.frac < 65536)

/-- Whether a range lies within 1 KiB, as one request of the pattern memory controller does (spec/10 R363). -/
def oneRequest (addr len : Nat) : Bool := addr / 1024 == (addr + len - 1) / 1024

/-- Whether a command's operands are in range. -/
def Instr.wf (i : Instr) : Bool :=
  match i with
  | .registerWrite ini addr size _ => decide (addr < bar0 + if ini = .mgmt then sramWindow else 0) && [1, 2, 4, 8].contains size
  | .shadowLowWordRead _ addr => decide (addr < bar0) && addr % 4 == 0
  | .driveEvent _ _ vec _ => decide (vec < 2 ^ 64)
  | .strobe _ _ vec _ _ => decide (vec < 2 ^ 64)
  | .streamEccError _ _ seg off vec _ => decide (seg < 2 ^ 20) && decide (off < 2 ^ 32) && decide (vec < 2 ^ 64)
  | .hbmAccess who addr len op => decide (addr < 2 ^ 36) && len != 0 && (match op.wr with | some b => b.length == len | none => true) &&
    (oneRequest addr len || (match who with | .stream _ => true | _ => false)) &&
    (match op.ue with | some w => w % 8 == 0 | none => true)
  | .tdcStop _ raw => decide (raw < 2 ^ 42)
  | .scopeTrigger _ vec => decide (vec < 2 ^ 64)
  | .rowActivate _ _ _ row _ => decide (row < 2 ^ 14)
  | .targetedRefresh _ _ _ row => decide (row < 2 ^ 14)
  | .probRefresh _ _ _ row => decide (row < 2 ^ 14)
  | .hbmCorrectedError addr => decide (addr < 0xC00000000)
  | .hbmUncorrectableError addr _ => decide (addr < 0xC00000000)
  | .recover _ _ swdly => decide (swdly < 2 ^ 32)
  | .hello _ _ _ _ _ swdly _ => decide (swdly < 2 ^ 32)
  | .regrd _ _ _ off => decide (off < bar0) && off % 4 == 0
  | .regwr _ _ _ off _ => decide (off < bar0) && off % 4 == 0
  | .regrsp _ _ _ off _ _ => decide (off < bar0) && off % 4 == 0
  | .discover _ _ _ depth _ => decide (depth < 256)
  | .fin _ _ _ count _ => decide (count < 2 ^ 16)
  | .sync _ _ _ hops _ _ _ _ _ => decide (hops < 256)
  | .dresp _ _ _ turn _ => decide (turn < 2 ^ 64)
  | .dmaChunk _ _ data _ => data.length % 64 == 0
  | .sensorSample measured => measured.length == 17
  | .smbReadLog _ _ count => decide (1 ≤ count)
  | .ethTxFrame _ stamp _ => phcOk stamp.time
  | .ethRxFrame _ _ _ stamp _ => phcOk stamp.time
  | .pressRunDone _ m => m.deskew.length == 128 && m.tdc.length == 98 && m.levels.length == 224 && m.ppmu.length == 160
  | .shadowHighWordRead _ addr => decide (addr < bar0) && addr % 4 == 0
  | .refLost | .refValid | .rootReturnToRef | .xoLost | .xoValid | .trootLockLost | .clkctlWrite ..
  | .eventPathDbe .. | .controlPathDbe .. | .start .. | .admissionResult .. | .prefillDone .. | .burstT0 ..
  | .abortHem .. | .abortNow .. | .pinsPark .. | .burstIdle .. | .hemBoundary .. | .fseamHandover ..
  | .synthRecovered .. | .synthFault .. | .dllLockLost .. | .evtInputEdge .. | .streamUnderrun .. | .adv .. | .rpt ..
  | .jmp .. | .fseam .. | .call .. | .ret .. | .halt .. | .ldc .. | .loop .. | .brc .. | .mwait .. | .tset ..
  | .lvl .. | .pmu .. | .tdc .. | .mkset .. | .mkclr .. | .smaskLoad .. | .smaskEnable .. | .smaskDisable ..
  | .smaskDropFailed .. | .slatchAccum .. | .slatchAccumClrw .. | .slatchClrw .. | .slatchReset .. | .gsync ..
  | .queueEntryArrival .. | .markerEdge .. | .dacTick | .resvWrite .. | .ddistWrite .. | .segOpen .. | .segSeal ..
  | .segDrop .. | .dmaSeal .. | .verifyBegin .. | .verifyDone .. | .loaddonePost .. | .loaddoneRead ..
  | .hregCtrlWrite .. | .smapCommit .. | .smapRevert .. | .gangWrite .. | .pincfgWrite .. | .lvlpush ..
  | .pmuWrite .. | .pmuQueueTake .. | .adcStart .. | .adcStop .. | .adcTimer .. | .adcDelayExpiry ..
  | .adcSampleDone .. | .adcUrgentRequest .. | .adcresRead .. | .tdcArm .. | .tdcCancel .. | .tdcArmed ..
  | .tdcTimeout .. | .tdcLockLost .. | .tdcresRead .. | .xoDisciplineUpdate .. | .xotbWrite .. | .spoolRecord ..
  | .spoolDrain .. | .sprdWrite .. | .discard .. | .cntclr .. | .sitelatWrite .. | .sitesetWrite .. | .scopeArm ..
  | .scopeCancel .. | .scopeSettled .. | .scopeForcedTrigger .. | .scopeSample .. | .scanEnable .. | .scanDisable ..
  | .scanCommit .. | .scanBaserdy .. | .scanOvlrdy .. | .scanLineFetched .. | .scanRasterStart .. | .scanLineStart ..
  | .scanUnderrun .. | .refreshDue .. | .forcedBurstRefresh .. | .hbmTempRead .. | .panicLong | .hbInit ..
  | .hbInitDone .. | .trnWrite .. | .pprSoft .. | .pprHard .. | .pprDone .. | .coreRun .. | .coreReset ..
  | .coreUe .. | .coreTimerInterrupt .. | .msipWrite .. | .doorbell .. | .push .. | .dispatchGrant | .get ..
  | .getRelease .. | .done .. | .flush .. | .clEnable .. | .clDisable .. | .lrst .. | .losSet .. | .losClear ..
  | .lolSet .. | .lolClear .. | .rxBlock .. | .train .. | .align .. | .alignTx .. | .ack .. | .nak ..
  | .helloTimer .. | .frameCrcError .. | .txFrame .. | .ackTimer .. | .replayTimeout .. | .attemptTimeout ..
  | .downRetry .. | .switchTimeout .. | .recoverTimeout .. | .peerBucketRefill .. | .summary .. | .sumrxPop ..
  | .join .. | .alt .. | .report .. | .assign .. | .doneEnum .. | .change .. | .adopt .. | .search ..
  | .enumPortChange .. | .syncTimer | .sourceTimeout | .masterTakeover | .delayExchangeTimer .. | .dreq .. | .late ..
  | .trig .. | .send .. | .triggerAction | .snap .. | .phcSet .. | .servoUpdate .. | .reseti .. | .txtsPop ..
  | .pcieLinkDown | .flr .. | .partitionReset .. | .partWrite .. | .dmaStatusWrite .. | .getInfo .. | .readSensors ..
  | .readLog .. | .remoteRd .. | .remoteWr .. | .remoteTimeout | .updateBegin .. | .updateData .. | .updateEnd ..
  | .confirm .. | .commitSvn .. | .mailboxResponse .. | .safePins .. | .safeRelease .. | .readHamperLog ..
  | .readTemps .. | .powerDownPe .. | .fullReset .. | .smbGetInfo .. | .smbReadSensors .. | .alertResponse
  | .interlockChange .. | .interlockFault | .ilkFaultClear .. | .ethLinkDown .. | .load .. | .reject ..
  | .patchLoadDone .. | .csCorrectedError .. | .csUncorrectableError .. | .seqStateCorrect .. | .hamperErrorEvent ..
  | .hamperWireFault .. | .fatalFault .. | .pop .. | .aonclr .. | .injectSingle .. | .injectDouble ..
  | .injectWire .. | .pressRun .. | .pressAutoStart .. | .pressSwitchRestore .. | .bistStart .. | .bistAbort ..
  | .bistDone .. | .rinseStep | .rinseStepDone .. | .submit .. | .tokenVerifyDone .. | .fuse .. | .powerOnReset ..
  | .perstN | .warm .. | .slice .. | .mgmt .. | .bootVerifyDone .. | .pwrgoodFall | .railFault | .vaonLoss
  | .standby .. | .standbyExit .. | .park .. | .unpark .. | .svcoffSl .. | .svcoffScan .. | .svcoffHb ..
  | .rootPllLocked | .railsInRange | .mgmtFirmwareRunning | .ethLinkUp .. | .vectorGroup .. | .scanLeadWatermark ..
  | .ppmuAtLimit .. | .tdcStartEdge .. | .hamperSourceCleared .. | .txEmbeddedChange .. | .fckDetector ..
  | .measureExchangeTimeout .. | .dispatcherStoreRecovered | .standbyEntered | .peCorrectionsReloaded
  | .standbySwitchClose => true

end Sys2Proof
end

