-- ==== Sys2Proof/Config.lean ====
section
/-! DEFINITION. What one device fixes by its fuses, and the free values: constants without a body, so that no proof
can see what they are. -/

namespace Sys2Proof

/-- The unit whose checker reports an error to Hamper (spec/16 R537 gives each block a range of source numbers and
no more). -/
inductive ErrUnit where
  | eventPath (n : Fin 8) | controlPath (pe : Fin 2) | underrun (n : Fin 8) | synth (n : Fin 8) | dll (n : Fin 8)
  | controlStore (n : Fin 8) | storeUe (n : Fin 8) | seqState (n : Fin 8)
  | rootRef | rootLost | hbmCorrected (s : Fin 2) | hbmUe (s : Fin 2) | panicLong | hbmHot (s : Fin 2)
  | scan (n : Fin 4) | core (c : Fin 8) | port (p : Fin 4) | trigLate
  | sensor (i : Fin 17) | junction (i : Fin 17) | interlock | rail | patch | bist (kind inst : Nat) | darning (kind inst : Nat)
  | bringUp (bit : Nat)
deriving DecidableEq, Repr

namespace Config

/-- Free values: the k-th value drawn where the spec leaves a result open (assumption 1). -/
opaque freeWord : Nat → DWord

/-- The undefined byte at an address of a stack that came back without its contents for the k-th time (assumption 6). -/
opaque bareByte : Nat → Nat → Byte

/-- The serial number in fuses (spec/14 R509). -/
opaque serial : DWord

/-- The silicon stepping in fuses (spec/14 R509). -/
opaque stepping : BitVec 8

/-- The version of a capability entry (spec/14 R490). -/
opaque capVersion : Nat → Byte

/-- The BAR0 offset that the SR-IOV entry names (assumption 15). -/
opaque capSriovBase : Word

/-- Calibration data in MRAM (spec/14 R496, spec/16 R552): whether it holds a valid factory record of a slice, with the slice's
REFTEMP, the deskew of a lane, the offset of a TDC path, gain and offset of a level DAC of a lane, and those of the force and the
measure path of a lane's PPMU in a range. -/
opaque factoryValid : Nat → Bool
opaque factoryTemp : Nat → BitVec 16
opaque factoryDeskew : Nat → Nat → Word
opaque factoryTdc : Nat → Nat → Int
opaque factoryLevel : Nat → Nat → Nat → Nat × Int
opaque factoryPpmu : Nat → Nat → Nat → (Nat × Int) × (Nat × Int)

/-- Which of the classes that a Hamper source may have its fuses name (spec/16 R537, R568). -/
opaque classPick : Nat → Nat

/-- The classes that the table of R537 lists for a source: 1 corrected, 2 contained, 3 fatal. -/
def classesOf (src : Nat) : List (BitVec 2) :=
  if src < 192 then [1, 2]
  else if src < 256 then [1, 3]
  else if src < 384 then [1, 2]
  else if src < 400 then [2]
  else if src < 432 then [1, 3]
  else if src < 464 then [1, 2, 3]
  else [1, 3]

/-- The place of a source among the sources of its unit: 16 for each slice, 32 for each PE die, 64 for the DRC with both
stacks, 4 for each SCAN unit and Ethernet port, 8 for each site core and port, else its block (spec/16 R537). -/
def placeOf (src : Nat) : Nat :=
  if src < 128 then src % 16
  else if src < 192 then src % 32
  else if src < 256 then src % 64
  else if src < 272 then src % 4
  else if src < 376 then src % 8
  else if src < 384 then src % 4
  else if src < 400 then 0
  else if src < 432 then src - 400
  else if src < 464 then src - 432
  else if src < 496 then src - 464
  else src - 496

/-- The class of each Hamper source (spec/16 R537, R568). Every unit has a source of each class that the table lists: the
first ones of its range, in the table's order (assumption 9); the class of a further source is open. -/
def srcClass (src : Nat) : BitVec 2 :=
  ((classesOf src)[placeOf src]?).getD ((classesOf src).getD (classPick src % (classesOf src).length) 1)

/-- Which of its block's source numbers a unit's error has (assumption 9). -/
opaque sourcePick : ErrUnit → Nat

/-- The numbers from a first one on. -/
def numbers (first count : Nat) : List Nat := (List.range count).map (first + ·)

/-- The source numbers of the block that a unit lies in, by the table of R537; every number where the table names no block
for it, and for the tables of the DRC, whose block has no contained source for the record of R563 (assumption 9). -/
def sourcesOf : ErrUnit → List Nat
  | .eventPath n | .underrun n | .synth n | .controlStore n | .storeUe n | .seqState n => numbers (16 * n) 16
  | .controlPath pe => numbers (128 + 32 * pe) 32
  | .dll n => numbers (16 * n) 16 ++ numbers (128 + 32 * (n / 4)) 32
  | .hbmCorrected _ | .hbmUe _ | .panicLong | .hbmHot _ => numbers 192 64
  | .scan n => numbers (256 + 4 * n) 4
  | .core c => numbers (272 + 8 * c) 8
  | .port p => numbers (344 + 8 * p) 8
  | .rootRef | .rootLost | .trigLate => numbers 400 32
  | .sensor _ | .junction _ | .interlock | .rail => numbers 432 32
  | .bist kind inst | .darning kind inst =>
    if kind ≤ 3 then numbers (16 * inst) 16
    else if kind = 4 then numbers (256 + 4 * inst) 4
    else if kind = 5 then numbers (272 + 8 * inst) 8
    else if kind = 6 then numbers 336 8
    else if kind = 7 then numbers (344 + 8 * inst) 8
    else numbers 0 512
  | .patch | .bringUp _ => numbers 0 512

/-- The classes that the rules allow an error: the one that its rule names; where a rule only has a record made and stops
no unit, corrected or contained (assumption 9). -/
def unitClasses : ErrUnit → List (BitVec 2)
  | .eventPath _ | .controlPath _ | .underrun _ | .synth _ | .storeUe _ => [2]
  | .dll _ | .controlStore _ | .seqState _ => [1]
  | .rootRef | .hbmCorrected _ | .hbmUe _ | .panicLong | .port _ | .sensor _ => [1]
  | .rootLost | .hbmHot _ | .junction _ | .rail => [3]
  | .scan _ | .core _ | .bist _ _ | .darning _ _ => [2]
  | .trigLate => [1]
  | .patch => [1]
  | .interlock | .bringUp _ => [1, 2]

/-- The Hamper source number of a unit's error: one of its block's that has a class the error may have. -/
def sourceOf (u : ErrUnit) : Fin 512 :=
  let l := (sourcesOf u).filter fun n => (unitClasses u).contains (srcClass n)
  Fin.ofNat 512 (l.getD (sourcePick u % l.length) 0)

/-- The DRC's LFSR (spec/10 R377): the seed that boot firmware loads into it and its next value. One value of its low 11 bits is a
draw, so that a draw has the probability 2^-11 (assumption 51). -/
opaque lfsrSeed : Nat → Word
opaque lfsrNext : Word → Word
opaque lfsrPattern : BitVec 11
def lfsrHit (w : Word) : Bool := w.setWidth 11 == lfsrPattern

/-- The characterisation of a fitted stack, and the row at a physical distance from a row in the row order that it gives; none
where the array ends (spec/10 R375). -/
opaque stackOrder : Nat → Nat
opaque rowBeside : Nat → Nat → Int → Option Nat

/-- The SECDED check bits of a 64-bit word of pattern memory (spec/10 R380). -/
opaque secded : DWord → Byte

/-- The ROM of the control stores, its dispatch table, an entry address for each OP value, and the SECDED check bits of a word
(spec/15 R516 to R518). -/
opaque rom : Nat → BitVec 160
opaque dispatch : Nat → Nat
opaque romCheck : BitVec 160 → BitVec 9

/-- AES-256-GCM with the device patch key in fuses (spec/15 R528): the plaintext of a ciphertext under an IV, and the tag of header and
ciphertext under it. -/
opaque patchPlain : List Byte → List Byte → List Byte
opaque patchTag : List Byte → List Byte → List Byte → List Byte

/-- The life-cycle state in fuses (spec/16 R554). -/
opaque lifeCycle : BitVec 3

/-- Fuse repair entries that a device comes with, at most the 2,048 of the table, and the spares of a macro, rows or columns, that
they use (spec/16 R561, R562, R574). -/
opaque fusePick : Nat
def fuseRepairs : Nat := min 2048 fusePick
opaque fuseSpares : Nat → Bool → Nat

/-- The fuse counter of security versions (spec/14 R501). -/
opaque svnFuses : Nat

/-- The SMBus address in fuses (spec/14 R506). -/
opaque smbAddr : BitVec 7

/-- The random nonce of the k-th draw (spec/16 R555). -/
opaque nonce : Nat → DWord

end Config
end Sys2Proof
end

