-- ==== Sys2Proof/Machine/RegMap.lean ====
section
/-! DEFINITION. The register map: every register the spec's chapters give, with its address, its instances, its
fields, their access types, reset values and accepted encodings (spec/00 R14 to R32). -/

namespace Sys2Proof.Machine

/-- Access types (spec/00 R18). -/
inductive Acc where
  | rw | ro | wo | rw1c | rw1s
deriving DecidableEq, Repr

/-- The function whose READY bit governs writes (spec/01 R56). -/
inductive Gate where
  | none | sl | scan | disp | cl | time | hamper | press | mgmt | hb | hbs
deriving DecidableEq, Repr

/-- One field of a register: bits [lo + w - 1 : lo] of the whole register, its reset value, whether boot firmware or a
fuse gives it, and the encodings it accepts (none listed: all) (spec/00 R18, R20, R22). -/
structure FieldD where
  lo : Nat
  w : Nat
  acc : Acc
  reset : Nat := 0
  boot : Bool := false
  ok : List (Nat × Nat) := []
deriving DecidableEq, Repr

/-- One register: address of its first instance, the (count, stride) of each index, whether it is 64 bits wide, the
function that gates writes and whether it is exempt as a status, reset or bring-up register (spec/01 R56). -/
structure RegD where
  base : Nat
  dims : List (Nat × Nat)
  wide : Bool
  gate : Gate
  exempt : Bool
  bootGate : Gate
  fields : List FieldD
deriving DecidableEq, Repr

/-- A field of one register instance, as an operation names it: byte address of the register, low bit, width. -/
structure Fld where
  addr : Nat
  lo : Nat
  w : Nat
deriving DecidableEq, Repr

/-- Every register of the block. -/
inductive Reg where
  | idIdent
  | idRev
  | idSerial
  | idCapptr
  | idCap
  | accerr
  | accerrAddr
  | accerrx
  | accerrxAddr
  | ready
  | clkctl
  | clkstat
  | xotb
  | rst
  | pwrctl
  | pwrstat
  | svcoff
  | boot
  | rstcause
  | ilk
  | ilkcfg
  | hregBase
  | hregCtrl
  | part
  | prst
  | dmaRing
  | dmaRingsz
  | dmaTail
  | dmaHead
  | dmaCtrl
  | dmaStat
  | sensor
  | senswarn
  | upaddr
  | uplen
  | upcmd
  | upstat
  | upid
  | slBurst
  | slDdist
  | slTstart
  | slBcmd
  | slResv
  | slAdmit
  | slAdmitd
  | slBendvec
  | slPrefill
  | slSegargBase
  | slSegargSize
  | slSegargToken
  | slSegcmd
  | slSegstat
  | slSegsel
  | slSeginfo
  | slSegbase
  | slSeglen
  | slLoaddone
  | slSeqstat
  | slLc
  | slExc
  | slExcpos
  | slExcvec
  | slExcword
  | slStack
  | slSmapLane
  | slSmapSlot
  | slSmapcmd
  | slSmapstat
  | slGang
  | slPark
  | slWtime
  | slWent
  | slVclk
  | slFreqnow
  | slPeriodw
  | slHandover
  | slWft
  | slPinadj
  | slDeskew
  | slWferr
  | slWfcnt
  | slPincfg
  | slLevel
  | slLvlpush
  | slLvlstat
  | slPmu
  | slPpmuclp
  | slClampinv
  | slAdcctl
  | slAdcdly
  | slAdctmr
  | slAdcseq
  | slAdccmd
  | slAdcstat
  | slAdcres
  | slAdcsum
  | slAdcsumn
  | slTdccfg
  | slTdcto
  | slTdccmd
  | slTdcstat
  | slTdcres
  | slSpcfg
  | slSpcmd
  | slSpstat
  | slSpwr
  | slSprd
  | slSpdrop
  | slFailcnt
  | slFcsat
  | slFfvec
  | slSitelat
  | slSiteset
  | slScpcfg
  | slScppts
  | slScplev
  | slScptime
  | slScphits
  | slScpto
  | slScpref
  | slScpcmd
  | slScpstat
  | slScptrig
  | slUstat
  | slUcsce
  | scCtrl
  | scHtim
  | scHsync
  | scVtim
  | scVsync
  | scResv
  | scWmark
  | scTstart
  | scFcfg
  | scFvmax
  | scBaseoff
  | scBstride
  | scOvloff
  | scOstride
  | scOvlpos
  | scOvlsize
  | scCmd
  | scAdmit
  | scAdmitd
  | scStat
  | scCnt
  | scFlen
  | scFrames
  | scRole
  | drcPanic
  | drcUrgent
  | drcPanlog
  | drcPancnt
  | drcRefstat
  | drcRhcfg
  | drcRhcntT
  | drcRhcntP
  | drcEcccnt
  | drcEccaddr
  | drcHbcmd
  | drcPpr
  | drcPprstat
  | drcTrn
  | dpPush
  | dpCtrl
  | dpStat
  | dpDropcnt
  | dpWeight
  | dpLvldepth
  | dpGrpdepth
  | dpHist
  | dpCoreCtrl
  | dpCoreStat
  | dpCoreTask
  | dpCoreBusy
  | dpCoreIdle
  | dpCoreDonecnt
  | dpCoreIrqpend
  | dpCoreIrqen
  | dpCoreMsip
  | clCtrl
  | clStat
  | clErrcnt
  | clLinkcnt
  | clDropcnt
  | clSumdrop
  | clSumdst
  | clSeq
  | clPeerlim0
  | clPeerlim1
  | clPeerlim2
  | clEnumctl
  | clEnumgen
  | clEnumstat
  | clEnumcnt
  | clSumrxw
  | clSumrxpop
  | clSumrxstat
  | tmCtrl
  | tmStat
  | tmNow
  | tmOffset
  | tmMserial
  | tmLinkDelay
  | tmLinkAsym
  | tmLinkLat
  | tmLinkRtt
  | tmTrigctl
  | tmTrigat
  | tmTrigcmd
  | tmTrigstat
  | tmTrigrep
  | tmTrigact
  | tmSnapcmd
  | tmSnaptick
  | tmSnapsec
  | tmSnapns
  | tmSnapfrac
  | tmSetsec
  | tmSetns
  | tmPhccmd
  | tmSrvctl
  | tmSrvkp
  | tmSrvki
  | tmSrvoff
  | tmSrvadj
  | tmSrvcnt
  | tmEthlat
  | tmTxtsw
  | tmTxtspop
  | tmTxtsstat
  | tmTxtsovf
  | hmStat
  | hmCnt
  | hmRec
  | hmPop
  | hmFirst
  | hmLast
  | hmFatal1
  | hmFatal2
  | hmAonclr
  | hmInj
  | hmSrc
  | prCfg
  | prCtrl
  | prStat
  | prCount
  | prFails
  | prTsec
  | prTns
  | prBistLc
  | prBistNonce
  | prBistToken
  | prBistTokcmd
  | prBistCmd
  | prBistRes
  | prBistDur
  | prBistFails
  | prBistFirst
  | prBistRinse
  | prBistRinseres
  | prBistRinsedur
  | prBistRinseinst
  | prDarnStat
  | prDarnCmd
  | mgReq
  | mgRsp
  | mgCmd
  | mgStat
  | etTxring
  | etTxsz
  | etTxtail
  | etTxhead
  | etRxring
  | etRxsz
  | etRxtail
  | etRxhead
  | etCtrl
  | etStat
  | etRxdrop
  | etRxerr
deriving DecidableEq, Repr

/-- The description of each register, from its chapter's register tables. The READY bit of CORE[c].IRQEN and MSIP is DISPATCH's
(assumption 67). XOTB.PPB, a boot field, waits for READY.MGMT, and a value out of its range gives it 0 (assumption 68). -/
def Reg.desc : Reg → RegD
  -- ID.IDENT, spec/14_host_partitions_and_management.md R509
  | .idIdent => ⟨0x0, [], false, .none, true, .none,
      [⟨16, 16, .ro, 598, false, []⟩, ⟨0, 16, .ro, 7996, false, []⟩]⟩
  -- ID.REV, spec/14_host_partitions_and_management.md R509
  | .idRev => ⟨0x4, [], false, .none, true, .none,
      [⟨0, 8, .ro, 0, false, []⟩]⟩
  -- ID.SERIAL, spec/14_host_partitions_and_management.md R509
  | .idSerial => ⟨0x8, [], true, .none, true, .none,
      [⟨0, 64, .ro, 0, false, []⟩]⟩
  -- ID.CAPPTR, spec/14_host_partitions_and_management.md R509
  | .idCapptr => ⟨0x10, [], false, .none, true, .none,
      [⟨0, 20, .ro, 256, false, []⟩]⟩
  -- ID.CAP[i][w], spec/14_host_partitions_and_management.md R490
  | .idCap => ⟨0x100, [(63, 0x10), (4, 0x4)], false, .none, true, .none,
      [⟨0, 32, .ro, 0, false, []⟩]⟩
  -- GLOBAL.ACCERR, spec/00_scope.md R26
  | .accerr => ⟨0x100010, [], false, .none, true, .none,
      [⟨0, 8, .rw1c, 0, false, []⟩]⟩
  -- GLOBAL.ACCERR_ADDR, spec/00_scope.md R27
  | .accerrAddr => ⟨0x100018, [], true, .none, true, .none,
      [⟨63, 1, .rw1c, 0, false, []⟩, ⟨62, 1, .ro, 0, false, []⟩, ⟨0, 36, .ro, 0, false, []⟩]⟩
  -- GLOBAL.ACCERRX[i], spec/00_scope.md R28
  | .accerrx => ⟨0x100400, [(17, 0x10)], false, .none, true, .none,
      [⟨0, 8, .rw1c, 0, false, []⟩]⟩
  -- GLOBAL.ACCERRX_ADDR[i], spec/00_scope.md R28
  | .accerrxAddr => ⟨0x100408, [(17, 0x10)], true, .none, true, .none,
      [⟨63, 1, .rw1c, 0, false, []⟩, ⟨62, 1, .ro, 0, false, []⟩, ⟨0, 36, .ro, 0, false, []⟩]⟩
  -- GLOBAL.READY, spec/01_module_architecture_and_clocks.md R55
  | .ready => ⟨0x100040, [], false, .none, true, .none,
      [⟨28, 1, .ro, 0, false, []⟩, ⟨27, 1, .ro, 0, false, []⟩, ⟨26, 1, .ro, 0, false, []⟩, ⟨25, 1, .ro, 0, false, []⟩, ⟨24, 1, .ro, 0, false, []⟩, ⟨20, 4, .ro, 0, false, []⟩, ⟨16, 4, .ro, 0, false, []⟩, ⟨8, 8, .ro, 0, false, []⟩, ⟨7, 1, .ro, 0, false, []⟩, ⟨6, 1, .ro, 0, false, []⟩, ⟨5, 1, .ro, 0, false, []⟩, ⟨4, 1, .ro, 0, false, []⟩, ⟨3, 1, .ro, 0, false, []⟩, ⟨2, 1, .ro, 0, false, []⟩, ⟨1, 1, .ro, 0, false, []⟩, ⟨0, 1, .ro, 0, false, []⟩]⟩
  -- GLOBAL.CLKCTL, spec/01_module_architecture_and_clocks.md R44
  | .clkctl => ⟨0x100050, [], false, .none, false, .none,
      [⟨0, 2, .rw, 0, false, [(0, 2)]⟩]⟩
  -- GLOBAL.CLKSTAT, spec/01_module_architecture_and_clocks.md R45
  | .clkstat => ⟨0x100054, [], false, .none, true, .none,
      [⟨8, 1, .rw1c, 0, false, []⟩, ⟨4, 2, .ro, 0, false, []⟩, ⟨2, 1, .ro, 0, false, []⟩, ⟨1, 1, .ro, 0, false, []⟩, ⟨0, 1, .ro, 0, false, []⟩]⟩
  -- GLOBAL.XOTB, spec/07_pin_electronics_levels_pmu_adc_tdc.md R292
  | .xotb => ⟨0x100060, [], false, .none, false, .mgmt,
      [⟨31, 1, .rw, 0, false, []⟩, ⟨30, 1, .ro, 0, false, []⟩, ⟨0, 18, .rw, 0, true, [(0, 100000), (162144, 262143)]⟩]⟩
  -- GLOBAL.RST, spec/17_reset_power_states_and_bring_up.md R591
  | .rst => ⟨0x100080, [], false, .none, true, .none,
      [⟨31, 1, .rw1s, 0, false, []⟩, ⟨16, 1, .rw1s, 0, false, []⟩, ⟨0, 8, .rw1s, 0, false, []⟩]⟩
  -- GLOBAL.PWRCTL, spec/17_reset_power_states_and_bring_up.md R592
  | .pwrctl => ⟨0x100090, [], false, .none, false, .none,
      [⟨31, 1, .rw, 0, false, []⟩, ⟨0, 8, .rw, 0, false, []⟩]⟩
  -- GLOBAL.PWRSTAT, spec/17_reset_power_states_and_bring_up.md R593
  | .pwrstat => ⟨0x100094, [], false, .none, true, .none,
      [⟨29, 3, .ro, 0, false, []⟩, ⟨28, 1, .ro, 0, false, []⟩, ⟨16, 1, .rw1c, 0, false, []⟩, ⟨0, 8, .ro, 0, false, []⟩]⟩
  -- GLOBAL.SVCOFF, spec/17_reset_power_states_and_bring_up.md R594
  | .svcoff => ⟨0x1000a0, [], false, .none, false, .none,
      [⟨31, 1, .rw, 0, false, []⟩, ⟨16, 2, .rw, 0, false, []⟩, ⟨8, 4, .rw, 0, false, []⟩, ⟨0, 8, .rw, 0, false, []⟩]⟩
  -- GLOBAL.BOOT, spec/17_reset_power_states_and_bring_up.md R595
  | .boot => ⟨0x1000b0, [], false, .none, true, .none,
      [⟨30, 2, .ro, 0, false, []⟩, ⟨29, 1, .ro, 0, false, []⟩, ⟨24, 4, .ro, 0, false, []⟩, ⟨20, 4, .ro, 0, false, []⟩, ⟨0, 16, .ro, 0, false, []⟩]⟩
  -- GLOBAL.RSTCAUSE, spec/17_reset_power_states_and_bring_up.md R596
  | .rstcause => ⟨0x1000b4, [], false, .none, true, .none,
      [⟨31, 1, .rw1c, 1, false, []⟩, ⟨30, 1, .rw1c, 0, false, []⟩, ⟨29, 1, .rw1c, 0, false, []⟩, ⟨28, 1, .rw1c, 0, false, []⟩, ⟨27, 1, .rw1c, 0, false, []⟩, ⟨26, 1, .rw1c, 0, false, []⟩, ⟨25, 1, .rw1c, 0, false, []⟩]⟩
  -- GLOBAL.ILK, spec/14_host_partitions_and_management.md R513
  | .ilk => ⟨0x100100, [], false, .none, true, .none,
      [⟨31, 1, .rw1c, 0, false, []⟩, ⟨30, 1, .ro, 0, false, []⟩, ⟨28, 2, .ro, 1, false, []⟩, ⟨27, 1, .ro, 0, false, []⟩, ⟨26, 1, .ro, 1, false, []⟩, ⟨25, 1, .ro, 0, false, []⟩]⟩
  -- GLOBAL.ILKCFG, spec/14_host_partitions_and_management.md R513
  | .ilkcfg => ⟨0x100104, [], false, .none, false, .none,
      [⟨0, 9, .rw, 20, false, [(1, 500)]⟩]⟩
  -- GLOBAL.HREG[i].BASE, spec/03_segments_and_pattern_memory.md R115
  | .hregBase => ⟨0x101000, [(32, 0x8)], false, .none, true, .hbs,
      [⟨0, 15, .rw, 0, true, []⟩]⟩
  -- GLOBAL.HREG[i].CTRL, spec/03_segments_and_pattern_memory.md R116
  | .hregCtrl => ⟨0x101004, [(32, 0x8)], false, .none, true, .hbs,
      [⟨28, 4, .rw, 0, true, []⟩, ⟨24, 4, .rw, 0, true, []⟩, ⟨0, 15, .rw, 0, true, []⟩]⟩
  -- GLOBAL.PART[p], spec/14_host_partitions_and_management.md R510
  | .part => ⟨0x102000, [(8, 0x4)], false, .none, false, .none,
      [⟨16, 16, .rw, 0, false, []⟩, ⟨8, 4, .rw, 0, false, []⟩, ⟨0, 8, .rw, 0, false, []⟩]⟩
  -- GLOBAL.PRST, spec/14_host_partitions_and_management.md R510
  | .prst => ⟨0x102040, [], false, .none, true, .none,
      [⟨0, 8, .rw1s, 0, false, []⟩]⟩
  -- GLOBAL.DMA[c].RING, spec/14_host_partitions_and_management.md R511
  | .dmaRing => ⟨0x103000, [(16, 0x40)], true, .none, false, .none,
      [⟨12, 52, .rw, 0, false, []⟩]⟩
  -- GLOBAL.DMA[c].RINGSZ, spec/14_host_partitions_and_management.md R511
  | .dmaRingsz => ⟨0x103008, [(16, 0x40)], false, .none, false, .none,
      [⟨0, 4, .rw, 4, false, [(4, 12)]⟩]⟩
  -- GLOBAL.DMA[c].TAIL, spec/14_host_partitions_and_management.md R511
  | .dmaTail => ⟨0x10300c, [(16, 0x40)], false, .none, false, .none,
      [⟨0, 12, .rw, 0, false, []⟩]⟩
  -- GLOBAL.DMA[c].HEAD, spec/14_host_partitions_and_management.md R511
  | .dmaHead => ⟨0x103010, [(16, 0x40)], false, .none, true, .none,
      [⟨0, 12, .ro, 0, false, []⟩]⟩
  -- GLOBAL.DMA[c].CTRL, spec/14_host_partitions_and_management.md R511
  | .dmaCtrl => ⟨0x103014, [(16, 0x40)], false, .none, false, .none,
      [⟨0, 1, .rw, 0, false, []⟩]⟩
  -- GLOBAL.DMA[c].STAT, spec/14_host_partitions_and_management.md R511
  | .dmaStat => ⟨0x103018, [(16, 0x40)], false, .none, true, .none,
      [⟨31, 1, .ro, 0, false, []⟩, ⟨0, 4, .ro, 0, false, []⟩]⟩
  -- GLOBAL.SENSOR[i], spec/14_host_partitions_and_management.md R512
  | .sensor => ⟨0x104000, [(17, 0x4)], false, .none, true, .none,
      [⟨31, 1, .rw1c, 0, false, []⟩, ⟨0, 16, .ro, 0, false, []⟩]⟩
  -- GLOBAL.SENSWARN[i], spec/14_host_partitions_and_management.md R512
  | .senswarn => ⟨0x104080, [(17, 0x4)], false, .none, false, .mgmt,
      [⟨0, 16, .rw, 0, true, []⟩]⟩
  -- GLOBAL.UPADDR, spec/15_microcode_and_patches.md R531
  | .upaddr => ⟨0x105000, [], true, .none, false, .none,
      [⟨0, 36, .rw, 0, false, []⟩]⟩
  -- GLOBAL.UPLEN, spec/15_microcode_and_patches.md R532
  | .uplen => ⟨0x105008, [], false, .none, false, .none,
      [⟨0, 15, .rw, 0, false, []⟩]⟩
  -- GLOBAL.UPCMD, spec/15_microcode_and_patches.md R533
  | .upcmd => ⟨0x10500c, [], false, .none, false, .none,
      [⟨8, 4, .rw, 0, false, [(7, 8)]⟩, ⟨1, 1, .rw1s, 0, false, []⟩, ⟨0, 1, .rw1s, 0, false, []⟩]⟩
  -- GLOBAL.UPSTAT, spec/15_microcode_and_patches.md R534
  | .upstat => ⟨0x105010, [], false, .none, true, .none,
      [⟨28, 4, .ro, 0, false, []⟩, ⟨24, 4, .ro, 0, false, []⟩, ⟨18, 6, .ro, 0, false, []⟩, ⟨11, 7, .ro, 0, false, []⟩, ⟨0, 11, .ro, 0, false, []⟩]⟩
  -- GLOBAL.UPID, spec/15_microcode_and_patches.md R534
  | .upid => ⟨0x105014, [], false, .none, true, .none,
      [⟨0, 32, .ro, 0, false, []⟩]⟩
  -- SLn.BURST, spec/02_timing_promise_and_admission.md R80
  | .slBurst => ⟨0x1001000, [(8, 0x100000)], false, .sl, false, .none,
      [⟨30, 2, .rw, 0, false, [(0, 2)]⟩, ⟨29, 1, .rw, 0, false, []⟩, ⟨20, 8, .rw, 0, false, []⟩, ⟨0, 20, .rw, 0, false, []⟩]⟩
  -- SLn.DDIST, spec/02_timing_promise_and_admission.md R81
  | .slDdist => ⟨0x1001004, [(8, 0x100000)], false, .sl, false, .none,
      [⟨0, 11, .rw, 90, false, [(8, 1024)]⟩]⟩
  -- SLn.TSTART, spec/02_timing_promise_and_admission.md R82
  | .slTstart => ⟨0x1001008, [(8, 0x100000)], true, .sl, false, .none,
      [⟨0, 64, .rw, 0, false, []⟩]⟩
  -- SLn.BCMD, spec/02_timing_promise_and_admission.md R83
  | .slBcmd => ⟨0x1001018, [(8, 0x100000)], false, .sl, true, .none,
      [⟨5, 1, .rw, 0, false, []⟩, ⟨4, 1, .rw, 0, false, []⟩, ⟨2, 1, .rw1s, 0, false, []⟩, ⟨1, 1, .rw1s, 0, false, []⟩, ⟨0, 1, .rw1s, 0, false, []⟩]⟩
  -- SLn.RESV, spec/02_timing_promise_and_admission.md R84
  | .slResv => ⟨0x1001020, [(8, 0x100000)], false, .sl, false, .none,
      [⟨0, 20, .rw, 7680, false, []⟩]⟩
  -- SLn.ADMIT, spec/02_timing_promise_and_admission.md R85
  | .slAdmit => ⟨0x1001040, [(8, 0x100000)], false, .sl, true, .none,
      [⟨24, 8, .ro, 0, false, []⟩, ⟨20, 4, .ro, 0, false, []⟩, ⟨12, 1, .ro, 0, false, []⟩, ⟨11, 1, .rw1c, 0, false, []⟩, ⟨10, 1, .ro, 0, false, []⟩, ⟨0, 4, .ro, 0, false, []⟩]⟩
  -- SLn.ADMITD, spec/02_timing_promise_and_admission.md R86
  | .slAdmitd => ⟨0x1001044, [(8, 0x100000)], false, .sl, true, .none,
      [⟨28, 4, .ro, 0, false, []⟩, ⟨0, 28, .ro, 0, false, []⟩]⟩
  -- SLn.BENDVEC, spec/02_timing_promise_and_admission.md R87
  | .slBendvec => ⟨0x1001050, [(8, 0x100000)], true, .sl, true, .none,
      [⟨0, 64, .ro, 18446744073709551615, false, []⟩]⟩
  -- SLn.PREFILL, spec/02_timing_promise_and_admission.md R88
  | .slPrefill => ⟨0x1001058, [(8, 0x100000)], false, .sl, true, .none,
      [⟨0, 28, .ro, 0, false, []⟩]⟩
  -- SLn.SEGARG_BASE, spec/03_segments_and_pattern_memory.md R117
  | .slSegargBase => ⟨0x1002000, [(8, 0x100000)], false, .sl, false, .none,
      [⟨0, 24, .rw, 0, false, []⟩]⟩
  -- SLn.SEGARG_SIZE, spec/03_segments_and_pattern_memory.md R118
  | .slSegargSize => ⟨0x1002004, [(8, 0x100000)], false, .sl, false, .none,
      [⟨0, 24, .rw, 0, false, []⟩]⟩
  -- SLn.SEGARG_TOKEN, spec/03_segments_and_pattern_memory.md R119
  | .slSegargToken => ⟨0x1002008, [(8, 0x100000)], false, .sl, false, .none,
      [⟨0, 32, .rw, 0, false, []⟩]⟩
  -- SLn.SEGCMD, spec/03_segments_and_pattern_memory.md R120
  | .slSegcmd => ⟨0x100200c, [(8, 0x100000)], false, .sl, false, .none,
      [⟨28, 4, .wo, 0, false, []⟩, ⟨0, 20, .wo, 0, false, []⟩]⟩
  -- SLn.SEGSTAT, spec/03_segments_and_pattern_memory.md R121
  | .slSegstat => ⟨0x1002010, [(8, 0x100000)], false, .sl, true, .none,
      [⟨31, 1, .ro, 0, false, []⟩, ⟨16, 1, .rw1c, 0, false, []⟩, ⟨9, 1, .ro, 0, false, []⟩, ⟨4, 4, .ro, 0, false, []⟩, ⟨0, 4, .ro, 0, false, []⟩]⟩
  -- SLn.SEGSEL, spec/03_segments_and_pattern_memory.md R122
  | .slSegsel => ⟨0x1002020, [(8, 0x100000)], false, .sl, false, .none,
      [⟨0, 20, .rw, 0, false, []⟩]⟩
  -- SLn.SEGINFO, spec/03_segments_and_pattern_memory.md R123
  | .slSeginfo => ⟨0x1002024, [(8, 0x100000)], false, .sl, true, .none,
      [⟨30, 2, .ro, 0, false, []⟩, ⟨29, 1, .ro, 0, false, []⟩, ⟨28, 1, .ro, 0, false, []⟩, ⟨27, 1, .ro, 0, false, []⟩, ⟨20, 4, .ro, 0, false, []⟩, ⟨0, 20, .ro, 0, false, []⟩]⟩
  -- SLn.SEGBASE, spec/03_segments_and_pattern_memory.md R124
  | .slSegbase => ⟨0x1002028, [(8, 0x100000)], false, .sl, true, .none,
      [⟨0, 24, .ro, 0, false, []⟩]⟩
  -- SLn.SEGLEN, spec/03_segments_and_pattern_memory.md R125
  | .slSeglen => ⟨0x100202c, [(8, 0x100000)], false, .sl, true, .none,
      [⟨0, 27, .ro, 0, false, []⟩]⟩
  -- SLn.LOADDONE, spec/03_segments_and_pattern_memory.md R126
  | .slLoaddone => ⟨0x1002030, [(8, 0x100000)], true, .sl, true, .none,
      [⟨63, 1, .ro, 0, false, []⟩, ⟨56, 4, .ro, 0, false, []⟩, ⟨32, 20, .ro, 0, false, []⟩, ⟨0, 32, .ro, 0, false, []⟩]⟩
  -- SLn.SEQSTAT, spec/04_sequencer_instruction_set.md R169
  | .slSeqstat => ⟨0x1003000, [(8, 0x100000)], false, .sl, true, .none,
      [⟨24, 8, .ro, 0, false, []⟩, ⟨16, 5, .ro, 0, false, []⟩, ⟨15, 1, .ro, 0, false, []⟩, ⟨0, 6, .ro, 0, false, []⟩]⟩
  -- SLn.LC[k], spec/04_sequencer_instruction_set.md R170
  | .slLc => ⟨0x1003010, [(8, 0x100000), (8, 0x4)], false, .sl, false, .none,
      [⟨0, 32, .rw, 0, false, []⟩]⟩
  -- SLn.EXC, spec/05_control_flow_sites_and_gangs.md R193
  | .slExc => ⟨0x1003100, [(8, 0x100000)], false, .sl, true, .none,
      [⟨31, 1, .ro, 0, false, []⟩, ⟨16, 8, .ro, 0, false, []⟩, ⟨12, 4, .ro, 0, false, []⟩, ⟨8, 4, .ro, 0, false, []⟩, ⟨5, 3, .ro, 0, false, []⟩, ⟨0, 5, .ro, 0, false, []⟩]⟩
  -- SLn.EXCPOS, spec/05_control_flow_sites_and_gangs.md R194
  | .slExcpos => ⟨0x1003108, [(8, 0x100000)], true, .sl, true, .none,
      [⟨32, 20, .ro, 0, false, []⟩, ⟨0, 32, .ro, 0, false, []⟩]⟩
  -- SLn.EXCVEC, spec/05_control_flow_sites_and_gangs.md R195
  | .slExcvec => ⟨0x1003110, [(8, 0x100000)], true, .sl, true, .none,
      [⟨0, 64, .ro, 0, false, []⟩]⟩
  -- SLn.EXCWORD, spec/05_control_flow_sites_and_gangs.md R196
  | .slExcword => ⟨0x1003118, [(8, 0x100000)], true, .sl, true, .none,
      [⟨0, 64, .ro, 0, false, []⟩]⟩
  -- SLn.STACK[i], spec/05_control_flow_sites_and_gangs.md R197
  | .slStack => ⟨0x1003140, [(8, 0x100000), (16, 0x4)], false, .sl, true, .none,
      [⟨0, 20, .ro, 0, false, []⟩]⟩
  -- SLn.SMAP_LANE[k], spec/05_control_flow_sites_and_gangs.md R198
  | .slSmapLane => ⟨0x1004000, [(8, 0x100000), (32, 0x4)], false, .sl, false, .none,
      [⟨5, 1, .rw, 0, false, []⟩, ⟨0, 5, .rw, 0, false, []⟩]⟩
  -- SLn.SMAP_SLOT[j], spec/05_control_flow_sites_and_gangs.md R199
  | .slSmapSlot => ⟨0x1004080, [(8, 0x100000), (32, 0x4)], false, .sl, false, .none,
      [⟨8, 1, .rw, 0, false, []⟩, ⟨0, 8, .rw, 0, false, []⟩]⟩
  -- SLn.SMAPCMD, spec/05_control_flow_sites_and_gangs.md R200
  | .slSmapcmd => ⟨0x1004100, [(8, 0x100000)], false, .sl, false, .none,
      [⟨1, 1, .rw1s, 0, false, []⟩, ⟨0, 1, .rw1s, 0, false, []⟩]⟩
  -- SLn.SMAPSTAT, spec/05_control_flow_sites_and_gangs.md R201
  | .slSmapstat => ⟨0x1004104, [(8, 0x100000)], false, .sl, true, .none,
      [⟨16, 1, .rw1c, 0, false, []⟩, ⟨8, 5, .ro, 0, false, []⟩, ⟨0, 4, .ro, 0, false, []⟩]⟩
  -- SLn.GANG, spec/05_control_flow_sites_and_gangs.md R202
  | .slGang => ⟨0x1004110, [(8, 0x100000)], false, .sl, false, .none,
      [⟨0, 8, .rw, 0, false, []⟩]⟩
  -- SLn.PARK, spec/05_control_flow_sites_and_gangs.md R203
  | .slPark => ⟨0x1004120, [(8, 0x100000)], false, .sl, false, .none,
      [⟨0, 3, .rw, 0, false, [(0, 5)]⟩]⟩
  -- SLn.WTIME[t][k][w], spec/06_vector_clock_waveforms_and_edges.md R216
  | .slWtime => ⟨0x1080000, [(8, 0x100000), (64, 0x1400), (32, 0xa0), (8, 0x4)], false, .sl, false, .none,
      [⟨16, 16, .rw, 0, false, []⟩, ⟨0, 16, .rw, 0, false, []⟩]⟩
  -- SLn.WENT[t][k][s], spec/06_vector_clock_waveforms_and_edges.md R217
  | .slWent => ⟨0x1080020, [(8, 0x100000), (64, 0x1400), (32, 0xa0), (16, 0x8)], true, .sl, false, .none,
      [⟨50, 2, .rw, 0, false, [(0, 2)]⟩, ⟨48, 2, .rw, 0, false, []⟩, ⟨44, 4, .rw, 0, false, []⟩, ⟨40, 4, .rw, 0, false, []⟩, ⟨38, 2, .rw, 0, false, [(0, 2)]⟩, ⟨36, 2, .rw, 0, false, []⟩, ⟨32, 4, .rw, 0, false, []⟩, ⟨28, 4, .rw, 0, false, []⟩, ⟨25, 3, .rw, 0, false, [(0, 4)]⟩, ⟨21, 4, .rw, 0, false, []⟩, ⟨18, 3, .rw, 0, false, [(0, 4)]⟩, ⟨14, 4, .rw, 0, false, []⟩, ⟨11, 3, .rw, 0, false, [(0, 4)]⟩, ⟨7, 4, .rw, 0, false, []⟩, ⟨4, 3, .rw, 0, false, [(0, 4)]⟩, ⟨0, 4, .rw, 0, false, []⟩]⟩
  -- SLn.VCLK, spec/06_vector_clock_waveforms_and_edges.md R232
  | .slVclk => ⟨0x1005000, [(8, 0x100000)], false, .sl, true, .none,
      [⟨7, 1, .rw1c, 0, false, []⟩, ⟨4, 1, .ro, 0, false, []⟩, ⟨1, 1, .ro, 0, false, []⟩, ⟨0, 1, .ro, 0, false, []⟩]⟩
  -- SLn.FREQNOW, spec/06_vector_clock_waveforms_and_edges.md R233
  | .slFreqnow => ⟨0x1005004, [(8, 0x100000)], false, .sl, true, .none,
      [⟨0, 32, .ro, 33554432, false, []⟩]⟩
  -- SLn.PERIODW, spec/06_vector_clock_waveforms_and_edges.md R234
  | .slPeriodw => ⟨0x1005008, [(8, 0x100000)], true, .sl, true, .none,
      [⟨0, 40, .ro, 549755813888, false, []⟩]⟩
  -- SLn.HANDOVER, spec/06_vector_clock_waveforms_and_edges.md R235
  | .slHandover => ⟨0x1005010, [(8, 0x100000)], false, .sl, true, .none,
      [⟨0, 32, .ro, 0, false, []⟩]⟩
  -- SLn.WFT[t], spec/06_vector_clock_waveforms_and_edges.md R236
  | .slWft => ⟨0x1005400, [(8, 0x100000), (64, 0x4)], false, .sl, false, .none,
      [⟨0, 16, .rw, 0, false, []⟩]⟩
  -- SLn.PINADJ[k], spec/06_vector_clock_waveforms_and_edges.md R237
  | .slPinadj => ⟨0x1005600, [(8, 0x100000), (32, 0x4)], false, .sl, false, .none,
      [⟨0, 12, .rw, 0, false, []⟩]⟩
  -- SLn.DESKEW[k], spec/06_vector_clock_waveforms_and_edges.md R238
  | .slDeskew => ⟨0x1005700, [(8, 0x100000), (32, 0x4)], false, .sl, true, .none,
      [⟨24, 8, .ro, 0, false, []⟩, ⟨16, 8, .ro, 0, false, []⟩, ⟨8, 8, .ro, 0, false, []⟩, ⟨0, 8, .ro, 0, false, []⟩]⟩
  -- SLn.WFERR, spec/06_vector_clock_waveforms_and_edges.md R239
  | .slWferr => ⟨0x1005800, [(8, 0x100000)], false, .sl, true, .none,
      [⟨24, 5, .ro, 0, false, []⟩, ⟨2, 1, .rw1c, 0, false, []⟩, ⟨1, 1, .rw1c, 0, false, []⟩, ⟨0, 1, .rw1c, 0, false, []⟩]⟩
  -- SLn.WFCNT[i], spec/06_vector_clock_waveforms_and_edges.md R240
  | .slWfcnt => ⟨0x1005810, [(8, 0x100000), (3, 0x4)], false, .sl, true, .none,
      [⟨0, 32, .rw, 0, false, []⟩]⟩
  -- SLn.PINCFG[k], spec/07_pin_electronics_levels_pmu_adc_tdc.md R272
  | .slPincfg => ⟨0x1006000, [(8, 0x100000), (32, 0x4)], false, .sl, false, .none,
      [⟨3, 1, .rw, 0, false, []⟩, ⟨0, 2, .rw, 0, false, [(0, 2)]⟩]⟩
  -- SLn.LEVEL[k][d], spec/07_pin_electronics_levels_pmu_adc_tdc.md R273
  | .slLevel => ⟨0x1006100, [(8, 0x100000), (32, 0x20), (7, 0x4)], false, .sl, true, .none,
      [⟨0, 16, .ro, 32768, false, []⟩]⟩
  -- SLn.LVLPUSH, spec/07_pin_electronics_levels_pmu_adc_tdc.md R274
  | .slLvlpush => ⟨0x1006500, [(8, 0x100000)], true, .sl, false, .none,
      [⟨0, 40, .wo, 0, false, []⟩]⟩
  -- SLn.LVLSTAT, spec/07_pin_electronics_levels_pmu_adc_tdc.md R275
  | .slLvlstat => ⟨0x1006508, [(8, 0x100000)], false, .sl, true, .none,
      [⟨16, 1, .rw1c, 0, false, []⟩, ⟨0, 7, .ro, 0, false, []⟩]⟩
  -- SLn.PMU[k], spec/07_pin_electronics_levels_pmu_adc_tdc.md R276
  | .slPmu => ⟨0x1006600, [(8, 0x100000), (32, 0x4)], false, .sl, false, .none,
      [⟨20, 2, .rw, 0, false, []⟩, ⟨16, 3, .rw, 0, false, [(0, 4)]⟩, ⟨0, 16, .rw, 32768, false, []⟩]⟩
  -- SLn.PPMUCLP, spec/07_pin_electronics_levels_pmu_adc_tdc.md R277
  | .slPpmuclp => ⟨0x1006680, [(8, 0x100000)], false, .sl, true, .none,
      [⟨0, 32, .ro, 0, false, []⟩]⟩
  -- SLn.CLAMPINV, spec/07_pin_electronics_levels_pmu_adc_tdc.md R277
  | .slClampinv => ⟨0x1006684, [(8, 0x100000)], false, .sl, true, .none,
      [⟨0, 32, .ro, 0, false, []⟩]⟩
  -- SLn.ADCCTL, spec/07_pin_electronics_levels_pmu_adc_tdc.md R278
  | .slAdcctl => ⟨0x1006700, [(8, 0x100000)], false, .sl, false, .none,
      [⟨4, 4, .rw, 0, false, []⟩, ⟨0, 2, .rw, 0, false, [(0, 2)]⟩]⟩
  -- SLn.ADCDLY, spec/07_pin_electronics_levels_pmu_adc_tdc.md R279
  | .slAdcdly => ⟨0x1006704, [(8, 0x100000)], false, .sl, false, .none,
      [⟨0, 17, .rw, 0, false, [(0, 100000)]⟩]⟩
  -- SLn.ADCTMR, spec/07_pin_electronics_levels_pmu_adc_tdc.md R280
  | .slAdctmr => ⟨0x1006708, [(8, 0x100000)], false, .sl, false, .none,
      [⟨0, 24, .rw, 0, false, []⟩]⟩
  -- SLn.ADCSEQ[i], spec/07_pin_electronics_levels_pmu_adc_tdc.md R281
  | .slAdcseq => ⟨0x1006740, [(8, 0x100000), (16, 0x4)], false, .sl, false, .none,
      [⟨16, 1, .rw, 0, false, []⟩, ⟨12, 4, .rw, 0, false, [(0, 8)]⟩, ⟨8, 4, .rw, 0, false, [(0, 8)]⟩, ⟨0, 6, .rw, 0, false, [(0, 37)]⟩]⟩
  -- SLn.ADCCMD, spec/07_pin_electronics_levels_pmu_adc_tdc.md R282
  | .slAdccmd => ⟨0x1006780, [(8, 0x100000)], false, .sl, false, .none,
      [⟨8, 8, .rw, 0, false, []⟩, ⟨1, 1, .rw1s, 0, false, []⟩, ⟨0, 1, .rw1s, 0, false, []⟩]⟩
  -- SLn.ADCSTAT, spec/07_pin_electronics_levels_pmu_adc_tdc.md R283
  | .slAdcstat => ⟨0x1006784, [(8, 0x100000)], false, .sl, true, .none,
      [⟨31, 1, .ro, 0, false, []⟩, ⟨30, 1, .ro, 0, false, []⟩, ⟨17, 1, .rw1c, 0, false, []⟩, ⟨16, 1, .rw1c, 0, false, []⟩, ⟨0, 6, .ro, 0, false, []⟩]⟩
  -- SLn.ADCRES, spec/07_pin_electronics_levels_pmu_adc_tdc.md R284
  | .slAdcres => ⟨0x1006788, [(8, 0x100000)], true, .sl, true, .none,
      [⟨63, 1, .ro, 0, false, []⟩, ⟨62, 1, .ro, 0, false, []⟩, ⟨61, 1, .ro, 0, false, []⟩, ⟨60, 1, .ro, 0, false, []⟩, ⟨56, 4, .ro, 0, false, []⟩, ⟨48, 8, .ro, 0, false, []⟩, ⟨40, 2, .ro, 0, false, []⟩, ⟨0, 26, .ro, 0, false, []⟩]⟩
  -- SLn.ADCSUM, spec/07_pin_electronics_levels_pmu_adc_tdc.md R285
  | .slAdcsum => ⟨0x1006790, [(8, 0x100000)], true, .sl, true, .none,
      [⟨63, 1, .ro, 0, false, []⟩, ⟨0, 48, .ro, 0, false, []⟩]⟩
  -- SLn.ADCSUMN, spec/07_pin_electronics_levels_pmu_adc_tdc.md R286
  | .slAdcsumn => ⟨0x1006798, [(8, 0x100000)], true, .sl, false, .none,
      [⟨32, 32, .rw, 0, false, []⟩, ⟨0, 31, .ro, 0, false, []⟩]⟩
  -- SLn.TDCCFG, spec/07_pin_electronics_levels_pmu_adc_tdc.md R287
  | .slTdccfg => ⟨0x1006800, [(8, 0x100000)], false, .sl, false, .none,
      [⟨16, 8, .rw, 0, false, []⟩, ⟨14, 2, .rw, 0, false, []⟩, ⟨13, 1, .rw, 0, false, []⟩, ⟨8, 5, .rw, 0, false, []⟩, ⟨6, 2, .rw, 0, false, []⟩, ⟨5, 1, .rw, 0, false, []⟩, ⟨0, 5, .rw, 0, false, []⟩]⟩
  -- SLn.TDCTO, spec/07_pin_electronics_levels_pmu_adc_tdc.md R288
  | .slTdcto => ⟨0x1006804, [(8, 0x100000)], false, .sl, false, .none,
      [⟨0, 10, .rw, 1000, false, [(1, 1000)]⟩]⟩
  -- SLn.TDCCMD, spec/07_pin_electronics_levels_pmu_adc_tdc.md R289
  | .slTdccmd => ⟨0x1006808, [(8, 0x100000)], false, .sl, false, .none,
      [⟨8, 8, .rw, 0, false, []⟩, ⟨1, 1, .rw1s, 0, false, []⟩, ⟨0, 1, .rw1s, 0, false, []⟩]⟩
  -- SLn.TDCSTAT, spec/07_pin_electronics_levels_pmu_adc_tdc.md R290
  | .slTdcstat => ⟨0x100680c, [(8, 0x100000)], false, .sl, true, .none,
      [⟨8, 4, .ro, 0, false, []⟩, ⟨2, 1, .ro, 0, false, []⟩, ⟨1, 1, .ro, 0, false, []⟩, ⟨0, 1, .rw1c, 0, false, []⟩]⟩
  -- SLn.TDCRES, spec/07_pin_electronics_levels_pmu_adc_tdc.md R291
  | .slTdcres => ⟨0x1006810, [(8, 0x100000)], true, .sl, true, .none,
      [⟨63, 1, .ro, 0, false, []⟩, ⟨62, 1, .ro, 0, false, []⟩, ⟨61, 1, .ro, 0, false, []⟩, ⟨60, 1, .ro, 0, false, []⟩, ⟨59, 1, .ro, 0, false, []⟩, ⟨48, 8, .ro, 0, false, []⟩, ⟨0, 42, .ro, 0, false, []⟩]⟩
  -- SLn.SPCFG, spec/08_compare_capture_and_acquisition.md R317
  | .slSpcfg => ⟨0x1007000, [(8, 0x100000)], false, .sl, false, .none,
      [⟨2, 1, .rw, 0, false, []⟩, ⟨0, 2, .rw, 0, false, [(0, 2)]⟩]⟩
  -- SLn.SPCMD, spec/08_compare_capture_and_acquisition.md R318
  | .slSpcmd => ⟨0x1007004, [(8, 0x100000)], false, .sl, false, .none,
      [⟨1, 1, .rw1s, 0, false, []⟩, ⟨0, 1, .rw1s, 0, false, []⟩]⟩
  -- SLn.SPSTAT, spec/08_compare_capture_and_acquisition.md R319
  | .slSpstat => ⟨0x1007008, [(8, 0x100000)], false, .sl, true, .none,
      [⟨31, 1, .rw1c, 0, false, []⟩, ⟨30, 1, .rw1c, 0, false, []⟩, ⟨29, 1, .ro, 0, false, []⟩, ⟨28, 1, .ro, 0, false, []⟩, ⟨0, 14, .ro, 0, false, []⟩]⟩
  -- SLn.SPWR, spec/08_compare_capture_and_acquisition.md R320
  | .slSpwr => ⟨0x1007010, [(8, 0x100000)], false, .sl, true, .none,
      [⟨0, 32, .ro, 0, false, []⟩]⟩
  -- SLn.SPRD, spec/08_compare_capture_and_acquisition.md R320
  | .slSprd => ⟨0x1007014, [(8, 0x100000)], false, .sl, false, .none,
      [⟨0, 32, .rw, 0, false, []⟩]⟩
  -- SLn.SPDROP, spec/08_compare_capture_and_acquisition.md R320
  | .slSpdrop => ⟨0x1007018, [(8, 0x100000)], false, .sl, true, .none,
      [⟨0, 32, .ro, 0, false, []⟩]⟩
  -- SLn.FAILCNT[k], spec/08_compare_capture_and_acquisition.md R321
  | .slFailcnt => ⟨0x1007100, [(8, 0x100000), (32, 0x4)], false, .sl, true, .none,
      [⟨0, 32, .rw, 0, false, []⟩]⟩
  -- SLn.FCSAT, spec/08_compare_capture_and_acquisition.md R322
  | .slFcsat => ⟨0x1007180, [(8, 0x100000)], false, .sl, true, .none,
      [⟨0, 32, .rw1c, 0, false, []⟩]⟩
  -- SLn.FFVEC, spec/08_compare_capture_and_acquisition.md R323
  | .slFfvec => ⟨0x1007188, [(8, 0x100000)], true, .sl, true, .none,
      [⟨0, 64, .ro, 18446744073709551615, false, []⟩]⟩
  -- SLn.SITELAT, spec/08_compare_capture_and_acquisition.md R324
  | .slSitelat => ⟨0x1007200, [(8, 0x100000)], false, .sl, false, .none,
      [⟨0, 32, .rw1c, 0, false, []⟩]⟩
  -- SLn.SITESET, spec/08_compare_capture_and_acquisition.md R324
  | .slSiteset => ⟨0x1007204, [(8, 0x100000)], false, .sl, false, .none,
      [⟨0, 32, .wo, 0, false, []⟩]⟩
  -- SLn.SCPCFG, spec/08_compare_capture_and_acquisition.md R325
  | .slScpcfg => ⟨0x1007400, [(8, 0x100000)], false, .sl, false, .none,
      [⟨31, 1, .rw, 0, false, []⟩, ⟨30, 1, .rw, 0, false, []⟩, ⟨21, 9, .rw, 1, false, [(1, 256)]⟩, ⟨13, 8, .rw, 0, false, []⟩, ⟨0, 5, .rw, 0, false, []⟩]⟩
  -- SLn.SCPPTS, spec/08_compare_capture_and_acquisition.md R326
  | .slScppts => ⟨0x1007404, [(8, 0x100000)], false, .sl, false, .none,
      [⟨16, 16, .rw, 1, false, [(1, 65535)]⟩, ⟨0, 13, .rw, 1, false, [(1, 4096)]⟩]⟩
  -- SLn.SCPLEV, spec/08_compare_capture_and_acquisition.md R327
  | .slScplev => ⟨0x1007408, [(8, 0x100000)], false, .sl, false, .none,
      [⟨16, 16, .rw, 0, false, []⟩, ⟨0, 16, .rw, 32768, false, []⟩]⟩
  -- SLn.SCPTIME, spec/08_compare_capture_and_acquisition.md R328
  | .slScptime => ⟨0x100740c, [(8, 0x100000)], false, .sl, false, .none,
      [⟨0, 24, .rw, 0, false, []⟩]⟩
  -- SLn.SCPHITS, spec/08_compare_capture_and_acquisition.md R329
  | .slScphits => ⟨0x1007410, [(8, 0x100000)], false, .sl, false, .none,
      [⟨0, 16, .rw, 1, false, [(1, 65535)]⟩]⟩
  -- SLn.SCPTO, spec/08_compare_capture_and_acquisition.md R330
  | .slScpto => ⟨0x1007414, [(8, 0x100000)], false, .sl, false, .none,
      [⟨0, 24, .rw, 1000, false, [(1, 10000000)]⟩]⟩
  -- SLn.SCPREF, spec/08_compare_capture_and_acquisition.md R331
  | .slScpref => ⟨0x1007418, [(8, 0x100000)], true, .sl, false, .none,
      [⟨32, 20, .rw, 0, false, []⟩, ⟨0, 32, .rw, 0, false, []⟩]⟩
  -- SLn.SCPCMD, spec/08_compare_capture_and_acquisition.md R332
  | .slScpcmd => ⟨0x1007420, [(8, 0x100000)], false, .sl, false, .none,
      [⟨1, 1, .rw1s, 0, false, []⟩, ⟨0, 1, .rw1s, 0, false, []⟩]⟩
  -- SLn.SCPSTAT, spec/08_compare_capture_and_acquisition.md R333
  | .slScpstat => ⟨0x1007424, [(8, 0x100000)], false, .sl, true, .none,
      [⟨28, 4, .ro, 0, false, []⟩, ⟨27, 1, .rw1c, 0, false, []⟩, ⟨0, 16, .ro, 0, false, []⟩]⟩
  -- SLn.SCPTRIG, spec/08_compare_capture_and_acquisition.md R334
  | .slScptrig => ⟨0x1007428, [(8, 0x100000)], false, .sl, true, .none,
      [⟨31, 1, .ro, 0, false, []⟩, ⟨30, 1, .ro, 0, false, []⟩, ⟨0, 19, .ro, 0, false, []⟩]⟩
  -- SLn.USTAT, spec/15_microcode_and_patches.md R535
  | .slUstat => ⟨0x1008000, [(8, 0x100000)], false, .sl, true, .none,
      [⟨31, 1, .rw1c, 0, false, []⟩, ⟨30, 1, .ro, 0, false, []⟩, ⟨16, 14, .ro, 0, false, []⟩, ⟨0, 16, .rw, 0, false, []⟩]⟩
  -- SLn.UCSCE, spec/15_microcode_and_patches.md R535
  | .slUcsce => ⟨0x1008004, [(8, 0x100000)], false, .sl, true, .none,
      [⟨0, 32, .rw, 0, false, []⟩]⟩
  -- SCANn.CTRL, spec/09_scan_units.md R353
  | .scCtrl => ⟨0x2400000, [(4, 0x10000)], false, .scan, true, .none,
      [⟨31, 1, .rw, 0, false, []⟩, ⟨30, 1, .rw, 0, false, []⟩, ⟨29, 1, .rw, 0, false, []⟩, ⟨20, 4, .rw, 15, false, [(0, 7), (15, 15)]⟩, ⟨16, 4, .rw, 0, false, [(0, 7)]⟩, ⟨14, 2, .rw, 2, false, [(0, 2)]⟩, ⟨0, 12, .rw, 16, false, [(4, 4095)]⟩]⟩
  -- SCANn.HTIM, spec/09_scan_units.md R354
  | .scHtim => ⟨0x2400004, [(4, 0x10000)], false, .scan, false, .none,
      [⟨16, 16, .rw, 0, false, []⟩, ⟨0, 16, .rw, 0, false, []⟩]⟩
  -- SCANn.HSYNC, spec/09_scan_units.md R354
  | .scHsync => ⟨0x2400008, [(4, 0x10000)], false, .scan, false, .none,
      [⟨16, 16, .rw, 0, false, []⟩, ⟨0, 16, .rw, 0, false, []⟩]⟩
  -- SCANn.VTIM, spec/09_scan_units.md R354
  | .scVtim => ⟨0x240000c, [(4, 0x10000)], false, .scan, false, .none,
      [⟨16, 16, .rw, 0, false, []⟩, ⟨0, 16, .rw, 0, false, []⟩]⟩
  -- SCANn.VSYNC, spec/09_scan_units.md R354
  | .scVsync => ⟨0x2400010, [(4, 0x10000)], false, .scan, false, .none,
      [⟨16, 16, .rw, 0, false, []⟩, ⟨0, 16, .rw, 0, false, []⟩]⟩
  -- SCANn.RESV, spec/09_scan_units.md R355
  | .scResv => ⟨0x2400014, [(4, 0x10000)], false, .scan, false, .none,
      [⟨0, 9, .rw, 400, false, [(0, 400)]⟩]⟩
  -- SCANn.WMARK, spec/09_scan_units.md R355
  | .scWmark => ⟨0x2400018, [(4, 0x10000)], false, .scan, false, .none,
      [⟨16, 16, .rw, 400, false, []⟩, ⟨0, 16, .rw, 200, false, []⟩]⟩
  -- SCANn.TSTART, spec/09_scan_units.md R356
  | .scTstart => ⟨0x2400020, [(4, 0x10000)], true, .scan, false, .none,
      [⟨0, 64, .rw, 0, false, []⟩]⟩
  -- SCANn.FCFG, spec/09_scan_units.md R358
  | .scFcfg => ⟨0x2400040, [(4, 0x10000)], false, .scan, false, .none,
      [⟨17, 1, .rw, 0, false, []⟩, ⟨16, 1, .rw, 0, false, []⟩, ⟨14, 2, .rw, 0, false, [(0, 2)]⟩]⟩
  -- SCANn.FVMAX, spec/09_scan_units.md R358
  | .scFvmax => ⟨0x2400044, [(4, 0x10000)], false, .scan, false, .none,
      [⟨0, 16, .rw, 0, false, []⟩]⟩
  -- SCANn.BASEOFF, spec/09_scan_units.md R358
  | .scBaseoff => ⟨0x2400048, [(4, 0x10000)], false, .scan, false, .none,
      [⟨0, 32, .rw, 0, false, []⟩]⟩
  -- SCANn.BSTRIDE, spec/09_scan_units.md R358
  | .scBstride => ⟨0x240004c, [(4, 0x10000)], false, .scan, false, .none,
      [⟨0, 16, .rw, 0, false, []⟩]⟩
  -- SCANn.OVLOFF, spec/09_scan_units.md R358
  | .scOvloff => ⟨0x2400050, [(4, 0x10000)], false, .scan, false, .none,
      [⟨0, 32, .rw, 0, false, []⟩]⟩
  -- SCANn.OSTRIDE, spec/09_scan_units.md R358
  | .scOstride => ⟨0x2400054, [(4, 0x10000)], false, .scan, false, .none,
      [⟨0, 16, .rw, 0, false, []⟩]⟩
  -- SCANn.OVLPOS, spec/09_scan_units.md R358
  | .scOvlpos => ⟨0x2400058, [(4, 0x10000)], false, .scan, false, .none,
      [⟨16, 16, .rw, 0, false, []⟩, ⟨0, 16, .rw, 0, false, []⟩]⟩
  -- SCANn.OVLSIZE, spec/09_scan_units.md R358
  | .scOvlsize => ⟨0x240005c, [(4, 0x10000)], false, .scan, false, .none,
      [⟨16, 16, .rw, 0, false, []⟩, ⟨0, 16, .rw, 0, false, []⟩]⟩
  -- SCANn.CMD, spec/09_scan_units.md R359
  | .scCmd => ⟨0x2400060, [(4, 0x10000)], false, .scan, false, .none,
      [⟨2, 1, .rw1s, 0, false, []⟩, ⟨1, 1, .rw1s, 0, false, []⟩, ⟨0, 1, .rw1s, 0, false, []⟩]⟩
  -- SCANn.ADMIT, spec/09_scan_units.md R360
  | .scAdmit => ⟨0x2400070, [(4, 0x10000)], false, .scan, true, .none,
      [⟨24, 8, .ro, 0, false, []⟩, ⟨23, 1, .rw1c, 0, false, []⟩, ⟨0, 4, .ro, 0, false, []⟩]⟩
  -- SCANn.ADMITD, spec/09_scan_units.md R360
  | .scAdmitd => ⟨0x2400074, [(4, 0x10000)], false, .scan, true, .none,
      [⟨0, 32, .ro, 0, false, []⟩]⟩
  -- SCANn.STAT, spec/09_scan_units.md R361
  | .scStat => ⟨0x2400078, [(4, 0x10000)], false, .scan, true, .none,
      [⟨31, 1, .rw1c, 0, false, []⟩, ⟨30, 1, .rw1c, 0, false, []⟩, ⟨29, 1, .rw1c, 0, false, []⟩, ⟨28, 1, .ro, 0, false, []⟩, ⟨27, 1, .ro, 0, false, []⟩, ⟨26, 1, .ro, 0, false, []⟩, ⟨0, 16, .ro, 0, false, []⟩]⟩
  -- SCANn.CNT, spec/09_scan_units.md R361
  | .scCnt => ⟨0x240007c, [(4, 0x10000)], false, .scan, true, .none,
      [⟨16, 16, .rw, 0, false, []⟩, ⟨0, 16, .rw, 0, false, []⟩]⟩
  -- SCANn.FLEN, spec/09_scan_units.md R361
  | .scFlen => ⟨0x2400080, [(4, 0x10000)], false, .scan, true, .none,
      [⟨0, 16, .ro, 0, false, []⟩]⟩
  -- SCANn.FRAMES, spec/09_scan_units.md R361
  | .scFrames => ⟨0x2400084, [(4, 0x10000)], false, .scan, true, .none,
      [⟨0, 32, .ro, 0, false, []⟩]⟩
  -- SCANn.ROLE[j], spec/09_scan_units.md R357
  | .scRole => ⟨0x2400100, [(4, 0x10000), (64, 0x4)], false, .scan, false, .none,
      [⟨8, 4, .rw, 0, false, []⟩, ⟨4, 4, .rw, 0, false, []⟩, ⟨0, 3, .rw, 0, false, [(0, 5)]⟩]⟩
  -- DRC.PANIC, spec/10_pattern_memory_controller.md R385
  | .drcPanic => ⟨0x2000100, [], false, .none, true, .none,
      [⟨20, 2, .ro, 0, false, []⟩, ⟨0, 20, .ro, 0, false, []⟩]⟩
  -- DRC.URGENT, spec/10_pattern_memory_controller.md R385
  | .drcUrgent => ⟨0x2000104, [], false, .none, true, .none,
      [⟨0, 20, .ro, 0, false, []⟩]⟩
  -- DRC.PANLOG, spec/10_pattern_memory_controller.md R386
  | .drcPanlog => ⟨0x2000108, [], false, .none, true, .none,
      [⟨31, 1, .rw1c, 0, false, []⟩, ⟨0, 24, .rw, 0, false, []⟩]⟩
  -- DRC.PANCNT, spec/10_pattern_memory_controller.md R386
  | .drcPancnt => ⟨0x200010c, [], false, .none, true, .none,
      [⟨0, 32, .rw, 0, false, []⟩]⟩
  -- DRC.REFSTAT[s], spec/10_pattern_memory_controller.md R387
  | .drcRefstat => ⟨0x2000200, [(2, 0x4)], false, .none, true, .none,
      [⟨16, 16, .rw, 0, false, []⟩, ⟨4, 1, .ro, 0, false, []⟩, ⟨0, 4, .rw, 0, false, [(0, 8)]⟩]⟩
  -- DRC.RHCFG, spec/10_pattern_memory_controller.md R388
  | .drcRhcfg => ⟨0x2000300, [], false, .none, false, .none,
      [⟨16, 1, .rw, 1, false, []⟩, ⟨0, 16, .rw, 4096, false, [(256, 32768)]⟩]⟩
  -- DRC.RHCNT.TARGETED, spec/10_pattern_memory_controller.md R389
  | .drcRhcntT => ⟨0x2000304, [], false, .none, true, .none,
      [⟨0, 32, .rw, 0, false, []⟩]⟩
  -- DRC.RHCNT.PROB, spec/10_pattern_memory_controller.md R389
  | .drcRhcntP => ⟨0x2000308, [], false, .none, true, .none,
      [⟨0, 32, .rw, 0, false, []⟩]⟩
  -- DRC.ECCCNT[s], spec/10_pattern_memory_controller.md R390
  | .drcEcccnt => ⟨0x2000400, [(2, 0x4)], false, .none, true, .none,
      [⟨16, 16, .rw, 0, false, []⟩, ⟨0, 16, .rw, 0, false, []⟩]⟩
  -- DRC.ECCADDR[s], spec/10_pattern_memory_controller.md R391
  | .drcEccaddr => ⟨0x2000410, [(2, 0x8)], true, .none, true, .none,
      [⟨63, 1, .ro, 0, false, []⟩, ⟨62, 1, .rw1c, 0, false, []⟩, ⟨0, 36, .ro, 0, false, []⟩]⟩
  -- DRC.HBCMD, spec/10_pattern_memory_controller.md R392
  | .drcHbcmd => ⟨0x2000500, [], false, .none, true, .none,
      [⟨1, 1, .rw1s, 0, false, []⟩, ⟨0, 1, .rw1s, 0, false, []⟩]⟩
  -- DRC.PPR, spec/10_pattern_memory_controller.md R393
  | .drcPpr => ⟨0x2000508, [], false, .none, true, .none,
      [⟨30, 2, .wo, 0, false, []⟩, ⟨29, 1, .wo, 0, false, []⟩, ⟨25, 4, .wo, 0, false, []⟩, ⟨24, 1, .wo, 0, false, []⟩, ⟨22, 2, .wo, 0, false, []⟩, ⟨18, 4, .wo, 0, false, []⟩, ⟨0, 14, .wo, 0, false, []⟩]⟩
  -- DRC.PPRSTAT, spec/10_pattern_memory_controller.md R394
  | .drcPprstat => ⟨0x200050c, [], false, .none, true, .none,
      [⟨31, 1, .ro, 0, false, []⟩, ⟨0, 3, .ro, 0, false, []⟩]⟩
  -- DRC.TRN[s][c][w], spec/10_pattern_memory_controller.md R395
  | .drcTrn => ⟨0x2010000, [(2, 0x1000), (16, 0x100), (64, 0x4)], false, .none, true, .hb,
      [⟨24, 8, .rw, 0, true, []⟩, ⟨16, 8, .rw, 0, true, []⟩, ⟨8, 8, .rw, 0, true, []⟩, ⟨0, 8, .rw, 0, true, []⟩]⟩
  -- DISPATCH.PUSH, spec/11_site_cores_and_dispatcher.md R415
  | .dpPush => ⟨0x2800000, [], true, .disp, false, .none,
      [⟨0, 64, .wo, 0, false, []⟩]⟩
  -- DISPATCH.CTRL, spec/11_site_cores_and_dispatcher.md R416
  | .dpCtrl => ⟨0x2800010, [], false, .disp, false, .none,
      [⟨0, 1, .rw1s, 0, false, []⟩]⟩
  -- DISPATCH.STAT, spec/11_site_cores_and_dispatcher.md R416
  | .dpStat => ⟨0x2800014, [], false, .disp, true, .none,
      [⟨31, 1, .rw1c, 0, false, []⟩, ⟨0, 13, .ro, 0, false, []⟩]⟩
  -- DISPATCH.DROPCNT, spec/11_site_cores_and_dispatcher.md R416
  | .dpDropcnt => ⟨0x2800018, [], false, .disp, true, .none,
      [⟨0, 32, .rw, 0, false, []⟩]⟩
  -- DISPATCH.WEIGHT[g], spec/11_site_cores_and_dispatcher.md R417
  | .dpWeight => ⟨0x2800040, [(8, 0x4)], false, .disp, true, .none,
      [⟨0, 8, .rw, 1, false, [(1, 255)]⟩]⟩
  -- DISPATCH.LVLDEPTH[l], spec/11_site_cores_and_dispatcher.md R418
  | .dpLvldepth => ⟨0x2800080, [(16, 0x4)], false, .disp, true, .none,
      [⟨0, 13, .ro, 0, false, []⟩]⟩
  -- DISPATCH.GRPDEPTH[g], spec/11_site_cores_and_dispatcher.md R418
  | .dpGrpdepth => ⟨0x28000c0, [(8, 0x4)], false, .disp, true, .none,
      [⟨0, 13, .ro, 0, false, []⟩]⟩
  -- DISPATCH.HIST[l][b], spec/11_site_cores_and_dispatcher.md R419
  | .dpHist => ⟨0x2801000, [(16, 0x40), (16, 0x4)], false, .disp, true, .none,
      [⟨0, 32, .rw, 0, false, []⟩]⟩
  -- DISPATCH.CORE[c].CTRL, spec/11_site_cores_and_dispatcher.md R420
  | .dpCoreCtrl => ⟨0x2810000, [(8, 0x100)], false, .disp, true, .none,
      [⟨8, 8, .rw, 255, false, []⟩, ⟨2, 1, .rw, 1, false, []⟩, ⟨1, 1, .rw1s, 0, false, []⟩, ⟨0, 1, .rw, 0, false, []⟩]⟩
  -- DISPATCH.CORE[c].STAT, spec/11_site_cores_and_dispatcher.md R421
  | .dpCoreStat => ⟨0x2810004, [(8, 0x100)], false, .disp, true, .none,
      [⟨31, 1, .rw1c, 0, false, []⟩, ⟨30, 1, .rw1c, 0, false, []⟩, ⟨29, 1, .rw1c, 0, false, []⟩, ⟨1, 1, .ro, 0, false, []⟩, ⟨0, 1, .ro, 0, false, []⟩]⟩
  -- DISPATCH.CORE[c].TASK, spec/11_site_cores_and_dispatcher.md R422
  | .dpCoreTask => ⟨0x2810008, [(8, 0x100)], true, .disp, true, .none,
      [⟨0, 64, .ro, 0, false, []⟩]⟩
  -- DISPATCH.CORE[c].BUSY, spec/11_site_cores_and_dispatcher.md R422
  | .dpCoreBusy => ⟨0x2810010, [(8, 0x100)], true, .disp, true, .none,
      [⟨0, 64, .rw, 0, false, []⟩]⟩
  -- DISPATCH.CORE[c].IDLE, spec/11_site_cores_and_dispatcher.md R422
  | .dpCoreIdle => ⟨0x2810018, [(8, 0x100)], true, .disp, true, .none,
      [⟨0, 64, .rw, 0, false, []⟩]⟩
  -- DISPATCH.CORE[c].DONECNT, spec/11_site_cores_and_dispatcher.md R422
  | .dpCoreDonecnt => ⟨0x2810020, [(8, 0x100)], true, .disp, true, .none,
      [⟨0, 64, .rw, 0, false, []⟩]⟩
  -- DISPATCH.CORE[c].IRQPEND, spec/11_site_cores_and_dispatcher.md R423
  | .dpCoreIrqpend => ⟨0x2810040, [(8, 0x100)], false, .disp, true, .none,
      [⟨0, 18, .rw1c, 0, false, []⟩]⟩
  -- DISPATCH.CORE[c].IRQEN, spec/11_site_cores_and_dispatcher.md R423
  | .dpCoreIrqen => ⟨0x2810044, [(8, 0x100)], false, .disp, false, .none,
      [⟨0, 18, .rw, 0, false, []⟩]⟩
  -- DISPATCH.CORE[c].MSIP, spec/11_site_cores_and_dispatcher.md R423
  | .dpCoreMsip => ⟨0x2810048, [(8, 0x100)], false, .disp, false, .none,
      [⟨0, 1, .rw, 0, false, []⟩]⟩
  -- CL.PORT[p].CTRL, spec/12_clothesline_links.md R449
  | .clCtrl => ⟨0x2c00000, [(4, 0x100)], false, .cl, true, .cl,
      [⟨31, 1, .rw, 0, true, []⟩, ⟨30, 1, .rw1s, 0, false, []⟩, ⟨29, 1, .rw, 0, false, []⟩, ⟨28, 1, .rw, 0, false, []⟩, ⟨25, 1, .rw, 0, false, []⟩, ⟨24, 1, .rw, 0, true, []⟩, ⟨0, 16, .rw, 100, false, [(1, 60000)]⟩]⟩
  -- CL.PORT[p].STAT, spec/12_clothesline_links.md R450
  | .clStat => ⟨0x2c00004, [(4, 0x100)], false, .cl, true, .none,
      [⟨28, 4, .ro, 0, false, []⟩, ⟨24, 4, .ro, 0, false, []⟩, ⟨22, 2, .ro, 0, false, []⟩, ⟨20, 2, .ro, 0, false, []⟩, ⟨19, 1, .ro, 0, false, []⟩, ⟨18, 1, .ro, 0, false, []⟩, ⟨17, 1, .ro, 0, false, []⟩, ⟨16, 1, .ro, 0, false, []⟩, ⟨15, 1, .ro, 0, false, []⟩, ⟨14, 1, .ro, 0, false, []⟩, ⟨13, 1, .ro, 0, false, []⟩, ⟨12, 1, .rw1c, 0, false, []⟩, ⟨11, 1, .rw1c, 0, false, []⟩, ⟨0, 9, .ro, 0, false, []⟩]⟩
  -- CL.PORT[p].ERRCNT, spec/12_clothesline_links.md R451
  | .clErrcnt => ⟨0x2c00008, [(4, 0x100)], false, .cl, true, .none,
      [⟨16, 16, .rw, 0, false, []⟩, ⟨0, 16, .rw, 0, false, []⟩]⟩
  -- CL.PORT[p].LINKCNT, spec/12_clothesline_links.md R451
  | .clLinkcnt => ⟨0x2c0000c, [(4, 0x100)], false, .cl, true, .none,
      [⟨16, 16, .rw, 0, false, []⟩, ⟨0, 16, .rw, 0, false, []⟩]⟩
  -- CL.PORT[p].DROPCNT, spec/12_clothesline_links.md R451
  | .clDropcnt => ⟨0x2c00010, [(4, 0x100)], false, .cl, true, .none,
      [⟨16, 16, .rw, 0, false, []⟩, ⟨0, 16, .rw, 0, false, []⟩]⟩
  -- CL.PORT[p].SUMDROP, spec/12_clothesline_links.md R451
  | .clSumdrop => ⟨0x2c00014, [(4, 0x100)], false, .cl, true, .none,
      [⟨0, 32, .rw, 0, false, []⟩]⟩
  -- CL.PORT[p].SUMDST, spec/12_clothesline_links.md R452
  | .clSumdst => ⟨0x2c00018, [(4, 0x100)], false, .cl, true, .none,
      [⟨0, 12, .rw, 0, false, []⟩]⟩
  -- CL.PORT[p].SEQ, spec/12_clothesline_links.md R452
  | .clSeq => ⟨0x2c0001c, [(4, 0x100)], false, .cl, true, .none,
      [⟨16, 12, .ro, 0, false, []⟩, ⟨0, 12, .ro, 0, false, []⟩]⟩
  -- CL.PORT[p].PEERLIM[0], spec/12_clothesline_links.md R453
  | .clPeerlim0 => ⟨0x2c00020, [(4, 0x100)], false, .cl, true, .none,
      [⟨24, 8, .rw, 16, false, [(1, 255)]⟩, ⟨0, 24, .rw, 100, false, [(1, 16777215)]⟩]⟩
  -- CL.PORT[p].PEERLIM[1], spec/12_clothesline_links.md R453
  | .clPeerlim1 => ⟨0x2c00024, [(4, 0x100)], false, .cl, true, .none,
      [⟨24, 8, .rw, 8, false, [(1, 255)]⟩, ⟨0, 24, .rw, 1000, false, [(1, 16777215)]⟩]⟩
  -- CL.PORT[p].PEERLIM[2], spec/12_clothesline_links.md R453
  | .clPeerlim2 => ⟨0x2c00028, [(4, 0x100)], false, .cl, true, .none,
      [⟨24, 8, .rw, 4, false, [(1, 255)]⟩, ⟨0, 24, .rw, 10000, false, [(1, 16777215)]⟩]⟩
  -- CL.ENUMCTL, spec/12_clothesline_links.md R454
  | .clEnumctl => ⟨0x2c01000, [], false, .cl, true, .cl,
      [⟨31, 1, .rw, 0, true, []⟩, ⟨30, 1, .rw1s, 0, false, []⟩, ⟨0, 12, .rw, 0, true, []⟩]⟩
  -- CL.ENUMGEN, spec/12_clothesline_links.md R454
  | .clEnumgen => ⟨0x2c01004, [], false, .cl, true, .none,
      [⟨0, 32, .ro, 0, false, []⟩]⟩
  -- CL.ENUMSTAT, spec/12_clothesline_links.md R455
  | .clEnumstat => ⟨0x2c01008, [], false, .cl, true, .none,
      [⟨31, 1, .ro, 0, false, []⟩, ⟨30, 1, .ro, 0, false, []⟩, ⟨29, 1, .ro, 0, false, []⟩, ⟨28, 1, .rw1c, 0, false, []⟩, ⟨27, 1, .rw1c, 0, false, []⟩, ⟨26, 1, .rw1c, 0, false, []⟩, ⟨20, 6, .ro, 0, false, []⟩, ⟨0, 12, .ro, 0, false, []⟩]⟩
  -- CL.ENUMCNT, spec/12_clothesline_links.md R454
  | .clEnumcnt => ⟨0x2c0100c, [], false, .cl, true, .none,
      [⟨16, 16, .rw, 0, false, []⟩, ⟨0, 13, .ro, 0, false, []⟩]⟩
  -- CL.SUMRXW[i], spec/12_clothesline_links.md R456
  | .clSumrxw => ⟨0x2c01100, [(16, 0x4)], false, .cl, true, .none,
      [⟨0, 32, .ro, 0, false, []⟩]⟩
  -- CL.SUMRXPOP, spec/12_clothesline_links.md R456
  | .clSumrxpop => ⟨0x2c01140, [], false, .cl, true, .none,
      [⟨0, 1, .wo, 0, false, []⟩]⟩
  -- CL.SUMRXSTAT, spec/12_clothesline_links.md R456
  | .clSumrxstat => ⟨0x2c01144, [], false, .cl, true, .none,
      [⟨31, 1, .rw1c, 0, false, []⟩, ⟨0, 5, .ro, 0, false, []⟩]⟩
  -- TIME.CTRL, spec/13_array_time_and_triggers.md R477
  | .tmCtrl => ⟨0x3000000, [], false, .time, false, .time,
      [⟨24, 8, .rw, 0, true, []⟩, ⟨20, 4, .rw, 0, false, []⟩, ⟨0, 1, .rw, 0, true, []⟩]⟩
  -- TIME.STAT, spec/13_array_time_and_triggers.md R477
  | .tmStat => ⟨0x3000004, [], false, .time, true, .none,
      [⟨30, 2, .ro, 0, false, []⟩, ⟨28, 2, .ro, 0, false, []⟩, ⟨27, 1, .ro, 0, false, []⟩, ⟨26, 1, .ro, 0, false, []⟩, ⟨25, 1, .ro, 0, false, []⟩, ⟨24, 1, .ro, 0, false, []⟩, ⟨23, 1, .rw1c, 0, false, []⟩, ⟨22, 1, .rw1c, 0, false, []⟩, ⟨0, 6, .ro, 0, false, []⟩]⟩
  -- TIME.NOW, spec/13_array_time_and_triggers.md R478
  | .tmNow => ⟨0x3000008, [], true, .time, true, .none,
      [⟨0, 64, .ro, 0, false, []⟩]⟩
  -- TIME.OFFSET, spec/13_array_time_and_triggers.md R478
  | .tmOffset => ⟨0x3000010, [], false, .time, true, .none,
      [⟨0, 32, .ro, 0, false, []⟩]⟩
  -- TIME.MSERIAL, spec/13_array_time_and_triggers.md R478
  | .tmMserial => ⟨0x3000018, [], true, .time, true, .none,
      [⟨0, 64, .ro, 0, false, []⟩]⟩
  -- TIME.LINK[p].DELAY, spec/13_array_time_and_triggers.md R479
  | .tmLinkDelay => ⟨0x3000100, [(4, 0x10)], false, .time, true, .none,
      [⟨0, 32, .ro, 0, false, []⟩]⟩
  -- TIME.LINK[p].ASYM, spec/13_array_time_and_triggers.md R479
  | .tmLinkAsym => ⟨0x3000104, [(4, 0x10)], false, .time, false, .none,
      [⟨0, 16, .rw, 0, false, []⟩]⟩
  -- TIME.LINK[p].LAT, spec/13_array_time_and_triggers.md R479
  | .tmLinkLat => ⟨0x3000108, [(4, 0x10)], false, .time, false, .time,
      [⟨16, 16, .rw, 0, true, []⟩, ⟨0, 16, .rw, 0, true, []⟩]⟩
  -- TIME.LINK[p].RTT, spec/13_array_time_and_triggers.md R479
  | .tmLinkRtt => ⟨0x300010c, [(4, 0x10)], false, .time, true, .none,
      [⟨0, 32, .ro, 0, false, []⟩]⟩
  -- TIME.TRIGCTL, spec/13_array_time_and_triggers.md R480
  | .tmTrigctl => ⟨0x3000200, [], false, .time, false, .none,
      [⟨0, 6, .rw, 8, false, []⟩]⟩
  -- TIME.TRIGAT, spec/13_array_time_and_triggers.md R480
  | .tmTrigat => ⟨0x3000208, [], true, .time, false, .none,
      [⟨0, 64, .rw, 0, false, []⟩]⟩
  -- TIME.TRIGCMD, spec/13_array_time_and_triggers.md R480
  | .tmTrigcmd => ⟨0x3000210, [], false, .time, false, .none,
      [⟨31, 1, .rw1s, 0, false, []⟩, ⟨30, 1, .rw, 0, false, []⟩, ⟨29, 1, .rw1c, 0, false, []⟩, ⟨16, 12, .rw, 0, false, []⟩, ⟨0, 8, .rw, 0, false, []⟩]⟩
  -- TIME.TRIGSTAT, spec/13_array_time_and_triggers.md R480
  | .tmTrigstat => ⟨0x3000214, [], false, .time, true, .none,
      [⟨16, 16, .rw, 0, false, []⟩, ⟨0, 16, .rw, 0, false, []⟩]⟩
  -- TIME.TRIGREP, spec/13_array_time_and_triggers.md R480
  | .tmTrigrep => ⟨0x3000218, [], false, .time, true, .none,
      [⟨31, 1, .rw1c, 0, false, []⟩, ⟨30, 1, .rw1c, 0, false, []⟩, ⟨16, 12, .ro, 0, false, []⟩, ⟨0, 8, .ro, 0, false, []⟩]⟩
  -- TIME.TRIGACT[n], spec/13_array_time_and_triggers.md R480
  | .tmTrigact => ⟨0x3000400, [(256, 0x4)], false, .time, false, .none,
      [⟨0, 8, .rw, 0, false, []⟩]⟩
  -- TIME.SNAPCMD, spec/13_array_time_and_triggers.md R481
  | .tmSnapcmd => ⟨0x3000800, [], false, .time, false, .none,
      [⟨0, 1, .rw1s, 0, false, []⟩]⟩
  -- TIME.SNAPTICK, spec/13_array_time_and_triggers.md R481
  | .tmSnaptick => ⟨0x3000808, [], true, .time, true, .none,
      [⟨0, 64, .ro, 0, false, []⟩]⟩
  -- TIME.SNAPSEC, spec/13_array_time_and_triggers.md R481
  | .tmSnapsec => ⟨0x3000810, [], true, .time, true, .none,
      [⟨0, 64, .ro, 0, false, []⟩]⟩
  -- TIME.SNAPNS, spec/13_array_time_and_triggers.md R481
  | .tmSnapns => ⟨0x3000818, [], false, .time, true, .none,
      [⟨0, 30, .ro, 0, false, []⟩]⟩
  -- TIME.SNAPFRAC, spec/13_array_time_and_triggers.md R481
  | .tmSnapfrac => ⟨0x300081c, [], false, .time, true, .none,
      [⟨0, 16, .ro, 0, false, []⟩]⟩
  -- TIME.SETSEC, spec/13_array_time_and_triggers.md R481
  | .tmSetsec => ⟨0x3000820, [], true, .time, false, .none,
      [⟨0, 64, .rw, 0, false, []⟩]⟩
  -- TIME.SETNS, spec/13_array_time_and_triggers.md R481
  | .tmSetns => ⟨0x3000828, [], false, .time, false, .none,
      [⟨0, 30, .rw, 0, false, [(0, 999999999)]⟩]⟩
  -- TIME.PHCCMD, spec/13_array_time_and_triggers.md R481
  | .tmPhccmd => ⟨0x300082c, [], false, .time, false, .none,
      [⟨0, 1, .rw1s, 0, false, []⟩]⟩
  -- TIME.SRVCTL, spec/13_array_time_and_triggers.md R482
  | .tmSrvctl => ⟨0x3000900, [], false, .time, false, .none,
      [⟨31, 1, .rw, 0, false, []⟩, ⟨30, 1, .rw1s, 0, false, []⟩, ⟨0, 16, .rw, 1000, false, [(1, 65535)]⟩]⟩
  -- TIME.SRVKP, spec/13_array_time_and_triggers.md R482
  | .tmSrvkp => ⟨0x3000904, [], false, .time, false, .none,
      [⟨0, 32, .rw, 0, false, []⟩]⟩
  -- TIME.SRVKI, spec/13_array_time_and_triggers.md R482
  | .tmSrvki => ⟨0x3000908, [], false, .time, false, .none,
      [⟨0, 32, .rw, 0, false, []⟩]⟩
  -- TIME.SRVOFF, spec/13_array_time_and_triggers.md R482
  | .tmSrvoff => ⟨0x3000910, [], true, .time, false, .none,
      [⟨0, 64, .wo, 0, false, []⟩]⟩
  -- TIME.SRVADJ, spec/13_array_time_and_triggers.md R482
  | .tmSrvadj => ⟨0x3000918, [], true, .time, true, .none,
      [⟨0, 64, .ro, 0, false, []⟩]⟩
  -- TIME.SRVCNT, spec/13_array_time_and_triggers.md R482
  | .tmSrvcnt => ⟨0x3000920, [], false, .time, true, .none,
      [⟨16, 16, .rw, 0, false, []⟩, ⟨0, 16, .rw, 0, false, []⟩]⟩
  -- TIME.ETHLAT[e], spec/13_array_time_and_triggers.md R483
  | .tmEthlat => ⟨0x3000a00, [(2, 0x4)], false, .time, false, .time,
      [⟨16, 16, .rw, 0, true, []⟩, ⟨0, 16, .rw, 0, true, []⟩]⟩
  -- TIME.TXTSW[i], spec/13_array_time_and_triggers.md R484
  | .tmTxtsw => ⟨0x3000b00, [(4, 0x4)], false, .time, true, .none,
      [⟨0, 32, .ro, 0, false, []⟩]⟩
  -- TIME.TXTSPOP, spec/13_array_time_and_triggers.md R484
  | .tmTxtspop => ⟨0x3000b10, [], false, .time, true, .none,
      [⟨0, 1, .wo, 0, false, []⟩]⟩
  -- TIME.TXTSSTAT, spec/13_array_time_and_triggers.md R484
  | .tmTxtsstat => ⟨0x3000b14, [], false, .time, true, .none,
      [⟨31, 1, .rw1c, 0, false, []⟩, ⟨0, 5, .ro, 0, false, []⟩]⟩
  -- TIME.TXTSOVF, spec/13_array_time_and_triggers.md R484
  | .tmTxtsovf => ⟨0x3000b18, [], false, .time, true, .none,
      [⟨0, 32, .rw, 0, false, []⟩]⟩
  -- HAMPER.STAT, spec/16_faults_calibration_and_self_test.md R564
  | .hmStat => ⟨0x3400000, [], false, .hamper, true, .none,
      [⟨31, 1, .ro, 0, false, []⟩, ⟨30, 1, .rw1c, 0, false, []⟩, ⟨0, 7, .ro, 0, false, []⟩]⟩
  -- HAMPER.CNT[k], spec/16_faults_calibration_and_self_test.md R564
  | .hmCnt => ⟨0x3400010, [(4, 0x4)], false, .hamper, true, .none,
      [⟨0, 32, .rw, 0, false, []⟩]⟩
  -- HAMPER.REC[i], spec/16_faults_calibration_and_self_test.md R565
  | .hmRec => ⟨0x3400040, [(8, 0x4)], false, .hamper, true, .none,
      [⟨0, 32, .ro, 0, false, []⟩]⟩
  -- HAMPER.POP, spec/16_faults_calibration_and_self_test.md R565
  | .hmPop => ⟨0x3400060, [], false, .hamper, true, .none,
      [⟨0, 1, .wo, 0, false, []⟩]⟩
  -- HAMPER.FIRST[i], spec/16_faults_calibration_and_self_test.md R566
  | .hmFirst => ⟨0x3400080, [(8, 0x4)], false, .hamper, true, .none,
      [⟨0, 32, .ro, 0, false, []⟩]⟩
  -- HAMPER.LAST[i], spec/16_faults_calibration_and_self_test.md R566
  | .hmLast => ⟨0x34000a0, [(8, 0x4)], false, .hamper, true, .none,
      [⟨0, 32, .ro, 0, false, []⟩]⟩
  -- HAMPER.FATAL1[i], spec/16_faults_calibration_and_self_test.md R566
  | .hmFatal1 => ⟨0x34000c0, [(8, 0x4)], false, .hamper, true, .none,
      [⟨0, 32, .ro, 0, false, []⟩]⟩
  -- HAMPER.FATAL2[i], spec/16_faults_calibration_and_self_test.md R566
  | .hmFatal2 => ⟨0x34000e0, [(8, 0x4)], false, .hamper, true, .none,
      [⟨0, 32, .ro, 0, false, []⟩]⟩
  -- HAMPER.AONCLR, spec/16_faults_calibration_and_self_test.md R566
  | .hmAonclr => ⟨0x3400100, [], false, .hamper, true, .none,
      [⟨0, 4, .wo, 0, false, []⟩]⟩
  -- HAMPER.INJ, spec/16_faults_calibration_and_self_test.md R567
  | .hmInj => ⟨0x3400200, [], false, .hamper, false, .none,
      [⟨31, 1, .rw1s, 0, false, []⟩, ⟨24, 2, .rw, 0, false, [(0, 2)]⟩, ⟨0, 9, .rw, 0, false, []⟩]⟩
  -- HAMPER.SRC[i], spec/16_faults_calibration_and_self_test.md R568
  | .hmSrc => ⟨0x3401000, [(512, 0x4)], false, .hamper, true, .none,
      [⟨31, 1, .rw1c, 0, false, []⟩, ⟨30, 1, .ro, 0, false, []⟩, ⟨29, 1, .ro, 0, false, []⟩, ⟨27, 2, .ro, 0, false, []⟩, ⟨0, 16, .rw, 0, false, []⟩]⟩
  -- PRESS.CFG, spec/16_faults_calibration_and_self_test.md R569
  | .prCfg => ⟨0x3800000, [], false, .press, false, .none,
      [⟨16, 16, .rw, 100, false, []⟩, ⟨8, 8, .rw, 96, false, []⟩, ⟨0, 8, .rw, 32, false, []⟩]⟩
  -- PRESS.SL[n].CTRL, spec/16_faults_calibration_and_self_test.md R570
  | .prCtrl => ⟨0x3800100, [(8, 0x40)], false, .press, false, .none,
      [⟨1, 1, .rw1s, 0, false, []⟩, ⟨0, 1, .rw, 1, false, []⟩]⟩
  -- PRESS.SL[n].STAT, spec/16_faults_calibration_and_self_test.md R570
  | .prStat => ⟨0x3800104, [(8, 0x40)], false, .press, true, .press,
      [⟨31, 1, .ro, 0, false, []⟩, ⟨30, 1, .ro, 0, false, []⟩, ⟨29, 1, .ro, 0, false, []⟩, ⟨28, 1, .ro, 0, false, []⟩, ⟨24, 4, .ro, 0, false, []⟩, ⟨16, 5, .ro, 0, false, []⟩, ⟨0, 16, .ro, 0, true, []⟩]⟩
  -- PRESS.SL[n].COUNT, spec/16_faults_calibration_and_self_test.md R570
  | .prCount => ⟨0x3800108, [(8, 0x40)], false, .press, true, .none,
      [⟨0, 32, .ro, 0, false, []⟩]⟩
  -- PRESS.SL[n].FAILS, spec/16_faults_calibration_and_self_test.md R570
  | .prFails => ⟨0x380010c, [(8, 0x40)], false, .press, true, .none,
      [⟨0, 32, .rw, 0, false, []⟩]⟩
  -- PRESS.SL[n].TSEC, spec/16_faults_calibration_and_self_test.md R570
  | .prTsec => ⟨0x3800110, [(8, 0x40)], true, .press, true, .none,
      [⟨0, 64, .ro, 0, false, []⟩]⟩
  -- PRESS.SL[n].TNS, spec/16_faults_calibration_and_self_test.md R570
  | .prTns => ⟨0x3800118, [(8, 0x40)], false, .press, true, .none,
      [⟨0, 30, .ro, 0, false, []⟩]⟩
  -- BIST.LC, spec/16_faults_calibration_and_self_test.md R571
  | .prBistLc => ⟨0x3810000, [], false, .none, true, .none,
      [⟨0, 3, .ro, 0, false, []⟩]⟩
  -- BIST.NONCE, spec/16_faults_calibration_and_self_test.md R571
  | .prBistNonce => ⟨0x3810008, [], true, .none, true, .none,
      [⟨0, 64, .ro, 0, false, []⟩]⟩
  -- BIST.TOKEN[i], spec/16_faults_calibration_and_self_test.md R571
  | .prBistToken => ⟨0x3810100, [(32, 0x4)], false, .none, false, .none,
      [⟨0, 32, .rw, 0, false, []⟩]⟩
  -- BIST.TOKCMD, spec/16_faults_calibration_and_self_test.md R571
  | .prBistTokcmd => ⟨0x3810180, [], false, .none, false, .none,
      [⟨4, 4, .ro, 0, false, []⟩, ⟨0, 1, .rw1s, 0, false, []⟩]⟩
  -- BIST.CMD, spec/16_faults_calibration_and_self_test.md R572
  | .prBistCmd => ⟨0x3810200, [], false, .none, false, .none,
      [⟨31, 1, .rw1s, 0, false, []⟩, ⟨30, 1, .rw1s, 0, false, []⟩, ⟨8, 8, .rw, 1, false, [(1, 8)]⟩, ⟨0, 8, .rw, 0, false, []⟩]⟩
  -- BIST.RES, spec/16_faults_calibration_and_self_test.md R572
  | .prBistRes => ⟨0x3810204, [], false, .none, true, .none,
      [⟨28, 4, .ro, 0, false, []⟩, ⟨0, 10, .ro, 0, false, []⟩]⟩
  -- BIST.DUR, spec/16_faults_calibration_and_self_test.md R572
  | .prBistDur => ⟨0x3810208, [], false, .none, true, .none,
      [⟨0, 32, .ro, 0, false, []⟩]⟩
  -- BIST.FAILS, spec/16_faults_calibration_and_self_test.md R572
  | .prBistFails => ⟨0x381020c, [], false, .none, true, .none,
      [⟨0, 32, .ro, 0, false, []⟩]⟩
  -- BIST.FIRST, spec/16_faults_calibration_and_self_test.md R572
  | .prBistFirst => ⟨0x3810210, [], false, .none, true, .none,
      [⟨0, 32, .ro, 0, false, []⟩]⟩
  -- BIST.RINSE, spec/16_faults_calibration_and_self_test.md R573
  | .prBistRinse => ⟨0x3810300, [], false, .none, false, .none,
      [⟨31, 1, .rw, 1, false, []⟩, ⟨0, 16, .rw, 1000, false, [(100, 60000)]⟩]⟩
  -- BIST.RINSERES, spec/16_faults_calibration_and_self_test.md R572
  | .prBistRinseres => ⟨0x3810304, [], false, .none, true, .none,
      [⟨28, 4, .ro, 0, false, []⟩, ⟨0, 10, .ro, 0, false, []⟩]⟩
  -- BIST.RINSEDUR, spec/16_faults_calibration_and_self_test.md R572
  | .prBistRinsedur => ⟨0x3810308, [], false, .none, true, .none,
      [⟨0, 32, .ro, 0, false, []⟩]⟩
  -- BIST.RINSEINST, spec/16_faults_calibration_and_self_test.md R572
  | .prBistRinseinst => ⟨0x381030c, [], false, .none, true, .none,
      [⟨8, 8, .ro, 0, false, []⟩, ⟨0, 8, .ro, 0, false, []⟩]⟩
  -- DARN.STAT, spec/16_faults_calibration_and_self_test.md R574
  | .prDarnStat => ⟨0x3810400, [], false, .none, true, .mgmt,
      [⟨31, 1, .rw1c, 0, false, []⟩, ⟨16, 12, .ro, 0, false, []⟩, ⟨0, 16, .ro, 0, true, []⟩]⟩
  -- DARN.CMD, spec/16_faults_calibration_and_self_test.md R574
  | .prDarnCmd => ⟨0x3810404, [], false, .none, false, .none,
      [⟨0, 1, .rw1s, 0, false, []⟩]⟩
  -- MGMT.MBOX[p].REQ[i], spec/14_host_partitions_and_management.md R514
  | .mgReq => ⟨0x3c00000, [(8, 0x10000), (1024, 0x4)], false, .mgmt, false, .none,
      [⟨0, 32, .rw, 0, false, []⟩]⟩
  -- MGMT.MBOX[p].RSP[i], spec/14_host_partitions_and_management.md R514
  | .mgRsp => ⟨0x3c01000, [(8, 0x10000), (1024, 0x4)], false, .mgmt, true, .none,
      [⟨0, 32, .ro, 0, false, []⟩]⟩
  -- MGMT.MBOX[p].CMD, spec/14_host_partitions_and_management.md R514
  | .mgCmd => ⟨0x3c02000, [(8, 0x10000)], false, .mgmt, false, .none,
      [⟨24, 8, .wo, 0, false, []⟩, ⟨0, 12, .wo, 0, false, []⟩]⟩
  -- MGMT.MBOX[p].STAT, spec/14_host_partitions_and_management.md R514
  | .mgStat => ⟨0x3c02004, [(8, 0x10000)], false, .mgmt, true, .none,
      [⟨31, 1, .ro, 0, false, []⟩, ⟨30, 1, .rw1c, 0, false, []⟩, ⟨16, 8, .ro, 0, false, []⟩, ⟨0, 12, .ro, 0, false, []⟩]⟩
  -- MGMT.ETH[e].TXRING, spec/14_host_partitions_and_management.md R505
  | .etTxring => ⟨0x3c80000, [(2, 0x1000)], true, .none, true, .none,
      [⟨6, 30, .rw, 0, false, []⟩]⟩
  -- MGMT.ETH[e].TXSZ, spec/14_host_partitions_and_management.md R505
  | .etTxsz => ⟨0x3c80008, [(2, 0x1000)], false, .none, true, .none,
      [⟨0, 4, .rw, 4, false, [(4, 12)]⟩]⟩
  -- MGMT.ETH[e].TXTAIL, spec/14_host_partitions_and_management.md R505
  | .etTxtail => ⟨0x3c8000c, [(2, 0x1000)], false, .none, true, .none,
      [⟨0, 12, .rw, 0, false, []⟩]⟩
  -- MGMT.ETH[e].TXHEAD, spec/14_host_partitions_and_management.md R505
  | .etTxhead => ⟨0x3c80010, [(2, 0x1000)], false, .none, true, .none,
      [⟨0, 12, .ro, 0, false, []⟩]⟩
  -- MGMT.ETH[e].RXRING, spec/14_host_partitions_and_management.md R505
  | .etRxring => ⟨0x3c80020, [(2, 0x1000)], true, .none, true, .none,
      [⟨6, 30, .rw, 0, false, []⟩]⟩
  -- MGMT.ETH[e].RXSZ, spec/14_host_partitions_and_management.md R505
  | .etRxsz => ⟨0x3c80028, [(2, 0x1000)], false, .none, true, .none,
      [⟨0, 4, .rw, 4, false, [(4, 12)]⟩]⟩
  -- MGMT.ETH[e].RXTAIL, spec/14_host_partitions_and_management.md R505
  | .etRxtail => ⟨0x3c8002c, [(2, 0x1000)], false, .none, true, .none,
      [⟨0, 12, .rw, 0, false, []⟩]⟩
  -- MGMT.ETH[e].RXHEAD, spec/14_host_partitions_and_management.md R505
  | .etRxhead => ⟨0x3c80030, [(2, 0x1000)], false, .none, true, .none,
      [⟨0, 12, .ro, 0, false, []⟩]⟩
  -- MGMT.ETH[e].CTRL, spec/14_host_partitions_and_management.md R505
  | .etCtrl => ⟨0x3c80040, [(2, 0x1000)], false, .none, true, .none,
      [⟨31, 1, .rw, 0, false, []⟩]⟩
  -- MGMT.ETH[e].STAT, spec/14_host_partitions_and_management.md R505
  | .etStat => ⟨0x3c80044, [(2, 0x1000)], false, .none, true, .none,
      [⟨31, 1, .rw1c, 0, false, []⟩, ⟨30, 1, .ro, 0, false, []⟩]⟩
  -- MGMT.ETH[e].RXDROP, spec/14_host_partitions_and_management.md R505
  | .etRxdrop => ⟨0x3c80048, [(2, 0x1000)], false, .none, true, .none,
      [⟨0, 32, .rw, 0, false, []⟩]⟩
  -- MGMT.ETH[e].RXERR, spec/14_host_partitions_and_management.md R505
  | .etRxerr => ⟨0x3c8004c, [(2, 0x1000)], false, .none, true, .none,
      [⟨0, 32, .rw, 0, false, []⟩]⟩

/-- The registers of the id block. -/
def Reg.idRegs : List Reg :=
  [.idIdent, .idRev, .idSerial, .idCapptr, .idCap]
/-- The registers of the global block. -/
def Reg.globalRegs : List Reg :=
  [.accerr, .accerrAddr, .accerrx, .accerrxAddr, .ready, .clkctl, .clkstat, .xotb, .rst, .pwrctl, .pwrstat, .svcoff, .boot, .rstcause, .ilk, .ilkcfg, .hregBase, .hregCtrl, .part, .prst, .dmaRing, .dmaRingsz, .dmaTail, .dmaHead] ++
  [.dmaCtrl, .dmaStat, .sensor, .senswarn, .upaddr, .uplen, .upcmd, .upstat, .upid]
/-- The registers of the slice block. -/
def Reg.sliceRegs : List Reg :=
  [.slBurst, .slDdist, .slTstart, .slBcmd, .slResv, .slAdmit, .slAdmitd, .slBendvec, .slPrefill, .slSegargBase, .slSegargSize, .slSegargToken, .slSegcmd, .slSegstat, .slSegsel, .slSeginfo, .slSegbase, .slSeglen, .slLoaddone, .slSeqstat, .slLc, .slExc, .slExcpos, .slExcvec] ++
  [.slExcword, .slStack, .slSmapLane, .slSmapSlot, .slSmapcmd, .slSmapstat, .slGang, .slPark, .slWtime, .slWent, .slVclk, .slFreqnow, .slPeriodw, .slHandover, .slWft, .slPinadj, .slDeskew, .slWferr, .slWfcnt, .slPincfg, .slLevel, .slLvlpush, .slLvlstat, .slPmu] ++
  [.slPpmuclp, .slClampinv, .slAdcctl, .slAdcdly, .slAdctmr, .slAdcseq, .slAdccmd, .slAdcstat, .slAdcres, .slAdcsum, .slAdcsumn, .slTdccfg, .slTdcto, .slTdccmd, .slTdcstat, .slTdcres, .slSpcfg, .slSpcmd, .slSpstat, .slSpwr, .slSprd, .slSpdrop, .slFailcnt, .slFcsat] ++
  [.slFfvec, .slSitelat, .slSiteset, .slScpcfg, .slScppts, .slScplev, .slScptime, .slScphits, .slScpto, .slScpref, .slScpcmd, .slScpstat, .slScptrig, .slUstat, .slUcsce]
/-- The registers of the drc block. -/
def Reg.drcRegs : List Reg :=
  [.drcPanic, .drcUrgent, .drcPanlog, .drcPancnt, .drcRefstat, .drcRhcfg, .drcRhcntT, .drcRhcntP, .drcEcccnt, .drcEccaddr, .drcHbcmd, .drcPpr, .drcPprstat, .drcTrn]
/-- The registers of the scan block. -/
def Reg.scanRegs : List Reg :=
  [.scCtrl, .scHtim, .scHsync, .scVtim, .scVsync, .scResv, .scWmark, .scTstart, .scFcfg, .scFvmax, .scBaseoff, .scBstride, .scOvloff, .scOstride, .scOvlpos, .scOvlsize, .scCmd, .scAdmit, .scAdmitd, .scStat, .scCnt, .scFlen, .scFrames, .scRole]
/-- The registers of the dispatch block. -/
def Reg.dispatchRegs : List Reg :=
  [.dpPush, .dpCtrl, .dpStat, .dpDropcnt, .dpWeight, .dpLvldepth, .dpGrpdepth, .dpHist, .dpCoreCtrl, .dpCoreStat, .dpCoreTask, .dpCoreBusy, .dpCoreIdle, .dpCoreDonecnt, .dpCoreIrqpend, .dpCoreIrqen, .dpCoreMsip]
/-- The registers of the cl block. -/
def Reg.clRegs : List Reg :=
  [.clCtrl, .clStat, .clErrcnt, .clLinkcnt, .clDropcnt, .clSumdrop, .clSumdst, .clSeq, .clPeerlim0, .clPeerlim1, .clPeerlim2, .clEnumctl, .clEnumgen, .clEnumstat, .clEnumcnt, .clSumrxw, .clSumrxpop, .clSumrxstat]
/-- The registers of the time block. -/
def Reg.timeRegs : List Reg :=
  [.tmCtrl, .tmStat, .tmNow, .tmOffset, .tmMserial, .tmLinkDelay, .tmLinkAsym, .tmLinkLat, .tmLinkRtt, .tmTrigctl, .tmTrigat, .tmTrigcmd, .tmTrigstat, .tmTrigrep, .tmTrigact, .tmSnapcmd, .tmSnaptick, .tmSnapsec, .tmSnapns, .tmSnapfrac, .tmSetsec, .tmSetns, .tmPhccmd, .tmSrvctl] ++
  [.tmSrvkp, .tmSrvki, .tmSrvoff, .tmSrvadj, .tmSrvcnt, .tmEthlat, .tmTxtsw, .tmTxtspop, .tmTxtsstat, .tmTxtsovf]
/-- The registers of the hamper block. -/
def Reg.hamperRegs : List Reg :=
  [.hmStat, .hmCnt, .hmRec, .hmPop, .hmFirst, .hmLast, .hmFatal1, .hmFatal2, .hmAonclr, .hmInj, .hmSrc]
/-- The registers of the press block. -/
def Reg.pressRegs : List Reg :=
  [.prCfg, .prCtrl, .prStat, .prCount, .prFails, .prTsec, .prTns, .prBistLc, .prBistNonce, .prBistToken, .prBistTokcmd, .prBistCmd, .prBistRes, .prBistDur, .prBistFails, .prBistFirst, .prBistRinse, .prBistRinseres, .prBistRinsedur, .prBistRinseinst, .prDarnStat, .prDarnCmd]
/-- The registers of the mgmt block. -/
def Reg.mgmtRegs : List Reg :=
  [.mgReq, .mgRsp, .mgCmd, .mgStat, .etTxring, .etTxsz, .etTxtail, .etTxhead, .etRxring, .etRxsz, .etRxtail, .etRxhead, .etCtrl, .etStat, .etRxdrop, .etRxerr]

/-- The registers of the block that holds a BAR0 offset (spec/00 R32). -/
def Reg.ofBlock (a : Nat) : List Reg :=
  if a < 0x100000 then Reg.idRegs
  else if a < 0x1000000 then Reg.globalRegs
  else if a < 0x2000000 then Reg.sliceRegs
  else if a < 0x2400000 then Reg.drcRegs
  else if a < 0x2800000 then Reg.scanRegs
  else if a < 0x2c00000 then Reg.dispatchRegs
  else if a < 0x3000000 then Reg.clRegs
  else if a < 0x3400000 then Reg.timeRegs
  else if a < 0x3800000 then Reg.hamperRegs
  else if a < 0x3c00000 then Reg.pressRegs
  else if a < 0x4000000 then Reg.mgmtRegs
  else []

/-! Fields by name: `fBlockRegister_FIELD` takes the instance numbers in the order of the register name. -/

abbrev aIdIdent : Nat := 0x0
def fIdIdent_DEVICE : Fld := ⟨aIdIdent, 16, 16⟩
def fIdIdent_VENDOR : Fld := ⟨aIdIdent, 0, 16⟩
abbrev aIdRev : Nat := 0x4
def fIdRev_STEP : Fld := ⟨aIdRev, 0, 8⟩
abbrev aIdSerial : Nat := 0x8
def fIdSerial_SERIAL : Fld := ⟨aIdSerial, 0, 64⟩
abbrev aIdCapptr : Nat := 0x10
def fIdCapptr_PTR : Fld := ⟨aIdCapptr, 0, 20⟩
abbrev aIdCap (i : Nat) (j : Nat) : Nat := 0x100 + 0x10 * i + 0x4 * j
def fIdCap_WORD (i : Nat) (j : Nat) : Fld := ⟨aIdCap i j, 0, 32⟩
abbrev aAccerr : Nat := 0x100010
def fAccerr_BITS : Fld := ⟨aAccerr, 0, 8⟩
abbrev aAccerrAddr : Nat := 0x100018
def fAccerrAddr_VALID : Fld := ⟨aAccerrAddr, 63, 1⟩
def fAccerrAddr_SPACE : Fld := ⟨aAccerrAddr, 62, 1⟩
def fAccerrAddr_ADDR : Fld := ⟨aAccerrAddr, 0, 36⟩
abbrev aAccerrx (i : Nat) : Nat := 0x100400 + 0x10 * i
def fAccerrx_BITS (i : Nat) : Fld := ⟨aAccerrx i, 0, 8⟩
abbrev aAccerrxAddr (i : Nat) : Nat := 0x100408 + 0x10 * i
def fAccerrxAddr_VALID (i : Nat) : Fld := ⟨aAccerrxAddr i, 63, 1⟩
def fAccerrxAddr_SPACE (i : Nat) : Fld := ⟨aAccerrxAddr i, 62, 1⟩
def fAccerrxAddr_ADDR (i : Nat) : Fld := ⟨aAccerrxAddr i, 0, 36⟩
abbrev aReady : Nat := 0x100040
def fReady_ETH1 : Fld := ⟨aReady, 28, 1⟩
def fReady_ETH0 : Fld := ⟨aReady, 27, 1⟩
def fReady_PRESS : Fld := ⟨aReady, 26, 1⟩
def fReady_CORES : Fld := ⟨aReady, 25, 1⟩
def fReady_DISPATCH : Fld := ⟨aReady, 24, 1⟩
def fReady_CL : Fld := ⟨aReady, 20, 4⟩
def fReady_SCAN : Fld := ⟨aReady, 16, 4⟩
def fReady_SL : Fld := ⟨aReady, 8, 8⟩
def fReady_TIME : Fld := ⟨aReady, 7, 1⟩
def fReady_TROOT : Fld := ⟨aReady, 6, 1⟩
def fReady_HB1 : Fld := ⟨aReady, 5, 1⟩
def fReady_HB0 : Fld := ⟨aReady, 4, 1⟩
def fReady_HAMPER : Fld := ⟨aReady, 3, 1⟩
def fReady_MGMT : Fld := ⟨aReady, 2, 1⟩
def fReady_FW : Fld := ⟨aReady, 1, 1⟩
def fReady_AON : Fld := ⟨aReady, 0, 1⟩
abbrev aClkctl : Nat := 0x100050
def fClkctl_SRC : Fld := ⟨aClkctl, 0, 2⟩
abbrev aClkstat : Nat := 0x100054
def fClkstat_SWITCHED : Fld := ⟨aClkstat, 8, 1⟩
def fClkstat_ROOT_SRC : Fld := ⟨aClkstat, 4, 2⟩
def fClkstat_ROOT_LOCK : Fld := ⟨aClkstat, 2, 1⟩
def fClkstat_XO_OK : Fld := ⟨aClkstat, 1, 1⟩
def fClkstat_REF_OK : Fld := ⟨aClkstat, 0, 1⟩
abbrev aXotb : Nat := 0x100060
def fXotb_DISC_EN : Fld := ⟨aXotb, 31, 1⟩
def fXotb_DISC_LOCK : Fld := ⟨aXotb, 30, 1⟩
def fXotb_PPB : Fld := ⟨aXotb, 0, 18⟩
abbrev aRst : Nat := 0x100080
def fRst_WARM : Fld := ⟨aRst, 31, 1⟩
def fRst_MGMT : Fld := ⟨aRst, 16, 1⟩
def fRst_SLICE : Fld := ⟨aRst, 0, 8⟩
abbrev aPwrctl : Nat := 0x100090
def fPwrctl_STANDBY : Fld := ⟨aPwrctl, 31, 1⟩
def fPwrctl_PARK : Fld := ⟨aPwrctl, 0, 8⟩
abbrev aPwrstat : Nat := 0x100094
def fPwrstat_STATE : Fld := ⟨aPwrstat, 29, 3⟩
def fPwrstat_PEOFF : Fld := ⟨aPwrstat, 28, 1⟩
def fPwrstat_REFUSED : Fld := ⟨aPwrstat, 16, 1⟩
def fPwrstat_PARKED : Fld := ⟨aPwrstat, 0, 8⟩
abbrev aSvcoff : Nat := 0x1000a0
def fSvcoff_FORCE : Fld := ⟨aSvcoff, 31, 1⟩
def fSvcoff_HB : Fld := ⟨aSvcoff, 16, 2⟩
def fSvcoff_SCAN : Fld := ⟨aSvcoff, 8, 4⟩
def fSvcoff_SL : Fld := ⟨aSvcoff, 0, 8⟩
abbrev aBoot : Nat := 0x1000b0
def fBoot_SLOT : Fld := ⟨aBoot, 30, 2⟩
def fBoot_TRIAL : Fld := ⟨aBoot, 29, 1⟩
def fBoot_ASTAT : Fld := ⟨aBoot, 24, 4⟩
def fBoot_BSTAT : Fld := ⟨aBoot, 20, 4⟩
def fBoot_MS : Fld := ⟨aBoot, 0, 16⟩
abbrev aRstcause : Nat := 0x1000b4
def fRstcause_VAON : Fld := ⟨aRstcause, 31, 1⟩
def fRstcause_PWRGOOD : Fld := ⟨aRstcause, 30, 1⟩
def fRstcause_PERST : Fld := ⟨aRstcause, 29, 1⟩
def fRstcause_FULLRST : Fld := ⟨aRstcause, 28, 1⟩
def fRstcause_WARM : Fld := ⟨aRstcause, 27, 1⟩
def fRstcause_MGMT : Fld := ⟨aRstcause, 26, 1⟩
def fRstcause_FATAL : Fld := ⟨aRstcause, 25, 1⟩
abbrev aIlk : Nat := 0x100100
def fIlk_FAULT : Fld := ⟨aIlk, 31, 1⟩
def fIlk_SAFE : Fld := ⟨aIlk, 30, 1⟩
def fIlk_STATE : Fld := ⟨aIlk, 28, 2⟩
def fIlk_A : Fld := ⟨aIlk, 27, 1⟩
def fIlk_B : Fld := ⟨aIlk, 26, 1⟩
def fIlk_SBSAFE : Fld := ⟨aIlk, 25, 1⟩
abbrev aIlkcfg : Nat := 0x100104
def fIlkcfg_DISC : Fld := ⟨aIlkcfg, 0, 9⟩
abbrev aHregBase (i : Nat) : Nat := 0x101000 + 0x8 * i
def fHregBase_BASE (i : Nat) : Fld := ⟨aHregBase i, 0, 15⟩
abbrev aHregCtrl (i : Nat) : Nat := 0x101004 + 0x8 * i
def fHregCtrl_KIND (i : Nat) : Fld := ⟨aHregCtrl i, 28, 4⟩
def fHregCtrl_INDEX (i : Nat) : Fld := ⟨aHregCtrl i, 24, 4⟩
def fHregCtrl_SIZE (i : Nat) : Fld := ⟨aHregCtrl i, 0, 15⟩
abbrev aPart (i : Nat) : Nat := 0x102000 + 0x4 * i
def fPart_DMACH (i : Nat) : Fld := ⟨aPart i, 16, 16⟩
def fPart_SCAN (i : Nat) : Fld := ⟨aPart i, 8, 4⟩
def fPart_SLICES (i : Nat) : Fld := ⟨aPart i, 0, 8⟩
abbrev aPrst : Nat := 0x102040
def fPrst_RESET : Fld := ⟨aPrst, 0, 8⟩
abbrev aDmaRing (i : Nat) : Nat := 0x103000 + 0x40 * i
def fDmaRing_BASE (i : Nat) : Fld := ⟨aDmaRing i, 12, 52⟩
abbrev aDmaRingsz (i : Nat) : Nat := 0x103008 + 0x40 * i
def fDmaRingsz_LOG2 (i : Nat) : Fld := ⟨aDmaRingsz i, 0, 4⟩
abbrev aDmaTail (i : Nat) : Nat := 0x10300c + 0x40 * i
def fDmaTail_INDEX (i : Nat) : Fld := ⟨aDmaTail i, 0, 12⟩
abbrev aDmaHead (i : Nat) : Nat := 0x103010 + 0x40 * i
def fDmaHead_INDEX (i : Nat) : Fld := ⟨aDmaHead i, 0, 12⟩
abbrev aDmaCtrl (i : Nat) : Nat := 0x103014 + 0x40 * i
def fDmaCtrl_EN (i : Nat) : Fld := ⟨aDmaCtrl i, 0, 1⟩
abbrev aDmaStat (i : Nat) : Nat := 0x103018 + 0x40 * i
def fDmaStat_BUSY (i : Nat) : Fld := ⟨aDmaStat i, 31, 1⟩
def fDmaStat_CODE (i : Nat) : Fld := ⟨aDmaStat i, 0, 4⟩
abbrev aSensor (i : Nat) : Nat := 0x104000 + 0x4 * i
def fSensor_WARN (i : Nat) : Fld := ⟨aSensor i, 31, 1⟩
def fSensor_VALUE (i : Nat) : Fld := ⟨aSensor i, 0, 16⟩
abbrev aSenswarn (i : Nat) : Nat := 0x104080 + 0x4 * i
def fSenswarn_LIMIT (i : Nat) : Fld := ⟨aSenswarn i, 0, 16⟩
abbrev aUpaddr : Nat := 0x105000
def fUpaddr_ADDR : Fld := ⟨aUpaddr, 0, 36⟩
abbrev aUplen : Nat := 0x105008
def fUplen_BYTES : Fld := ⟨aUplen, 0, 15⟩
abbrev aUpcmd : Nat := 0x10500c
def fUpcmd_RCODE : Fld := ⟨aUpcmd, 8, 4⟩
def fUpcmd_REJECT : Fld := ⟨aUpcmd, 1, 1⟩
def fUpcmd_LOAD : Fld := ⟨aUpcmd, 0, 1⟩
abbrev aUpstat : Nat := 0x105010
def fUpstat_STATE : Fld := ⟨aUpstat, 28, 4⟩
def fUpstat_ERR : Fld := ⟨aUpstat, 24, 4⟩
def fUpstat_NMATCH : Fld := ⟨aUpstat, 18, 6⟩
def fUpstat_SVN : Fld := ⟨aUpstat, 11, 7⟩
def fUpstat_NWORDS : Fld := ⟨aUpstat, 0, 11⟩
abbrev aUpid : Nat := 0x105014
def fUpid_PATCHID : Fld := ⟨aUpid, 0, 32⟩
abbrev aSlBurst (i : Nat) : Nat := 0x1001000 + 0x100000 * i
def fSlBurst_MODE (i : Nat) : Fld := ⟨aSlBurst i, 30, 2⟩
def fSlBurst_CAPTURE (i : Nat) : Fld := ⟨aSlBurst i, 29, 1⟩
def fSlBurst_TRIG (i : Nat) : Fld := ⟨aSlBurst i, 20, 8⟩
def fSlBurst_START_SEG (i : Nat) : Fld := ⟨aSlBurst i, 0, 20⟩
abbrev aSlDdist (i : Nat) : Nat := 0x1001004 + 0x100000 * i
def fSlDdist_D (i : Nat) : Fld := ⟨aSlDdist i, 0, 11⟩
abbrev aSlTstart (i : Nat) : Nat := 0x1001008 + 0x100000 * i
def fSlTstart_TICK (i : Nat) : Fld := ⟨aSlTstart i, 0, 64⟩
abbrev aSlBcmd (i : Nat) : Nat := 0x1001018 + 0x100000 * i
def fSlBcmd_OVR_QUEUE (i : Nat) : Fld := ⟨aSlBcmd i, 5, 1⟩
def fSlBcmd_OVR_CAL (i : Nat) : Fld := ⟨aSlBcmd i, 4, 1⟩
def fSlBcmd_ABORT_NOW (i : Nat) : Fld := ⟨aSlBcmd i, 2, 1⟩
def fSlBcmd_ABORT_HEM (i : Nat) : Fld := ⟨aSlBcmd i, 1, 1⟩
def fSlBcmd_START (i : Nat) : Fld := ⟨aSlBcmd i, 0, 1⟩
abbrev aSlResv (i : Nat) : Nat := 0x1001020 + 0x100000 * i
def fSlResv_BW (i : Nat) : Fld := ⟨aSlResv i, 0, 20⟩
abbrev aSlAdmit (i : Nat) : Nat := 0x1001040 + 0x100000 * i
def fSlAdmit_REASON (i : Nat) : Fld := ⟨aSlAdmit i, 24, 8⟩
def fSlAdmit_CAUSE (i : Nat) : Fld := ⟨aSlAdmit i, 20, 4⟩
def fSlAdmit_OVR_USED (i : Nat) : Fld := ⟨aSlAdmit i, 12, 1⟩
def fSlAdmit_REJECTED (i : Nat) : Fld := ⟨aSlAdmit i, 11, 1⟩
def fSlAdmit_ACCEPTED (i : Nat) : Fld := ⟨aSlAdmit i, 10, 1⟩
def fSlAdmit_STATE (i : Nat) : Fld := ⟨aSlAdmit i, 0, 4⟩
abbrev aSlAdmitd (i : Nat) : Nat := 0x1001044 + 0x100000 * i
def fSlAdmitd_SLICE (i : Nat) : Fld := ⟨aSlAdmitd i, 28, 4⟩
def fSlAdmitd_VALUE (i : Nat) : Fld := ⟨aSlAdmitd i, 0, 28⟩
abbrev aSlBendvec (i : Nat) : Nat := 0x1001050 + 0x100000 * i
def fSlBendvec_VEC (i : Nat) : Fld := ⟨aSlBendvec i, 0, 64⟩
abbrev aSlPrefill (i : Nat) : Nat := 0x1001058 + 0x100000 * i
def fSlPrefill_BOUND (i : Nat) : Fld := ⟨aSlPrefill i, 0, 28⟩
abbrev aSlSegargBase (i : Nat) : Nat := 0x1002000 + 0x100000 * i
def fSlSegargBase_BASE (i : Nat) : Fld := ⟨aSlSegargBase i, 0, 24⟩
abbrev aSlSegargSize (i : Nat) : Nat := 0x1002004 + 0x100000 * i
def fSlSegargSize_SIZE (i : Nat) : Fld := ⟨aSlSegargSize i, 0, 24⟩
abbrev aSlSegargToken (i : Nat) : Nat := 0x1002008 + 0x100000 * i
def fSlSegargToken_TOKEN (i : Nat) : Fld := ⟨aSlSegargToken i, 0, 32⟩
abbrev aSlSegcmd (i : Nat) : Nat := 0x100200c + 0x100000 * i
def fSlSegcmd_OP (i : Nat) : Fld := ⟨aSlSegcmd i, 28, 4⟩
def fSlSegcmd_SEG (i : Nat) : Fld := ⟨aSlSegcmd i, 0, 20⟩
abbrev aSlSegstat (i : Nat) : Nat := 0x1002010 + 0x100000 * i
def fSlSegstat_BUSY (i : Nat) : Fld := ⟨aSlSegstat i, 31, 1⟩
def fSlSegstat_REFUSED (i : Nat) : Fld := ⟨aSlSegstat i, 16, 1⟩
def fSlSegstat_DONE_PEND (i : Nat) : Fld := ⟨aSlSegstat i, 9, 1⟩
def fSlSegstat_SEALQ (i : Nat) : Fld := ⟨aSlSegstat i, 4, 4⟩
def fSlSegstat_ERR (i : Nat) : Fld := ⟨aSlSegstat i, 0, 4⟩
abbrev aSlSegsel (i : Nat) : Nat := 0x1002020 + 0x100000 * i
def fSlSegsel_SEG (i : Nat) : Fld := ⟨aSlSegsel i, 0, 20⟩
abbrev aSlSeginfo (i : Nat) : Nat := 0x1002024 + 0x100000 * i
def fSlSeginfo_STATE (i : Nat) : Fld := ⟨aSlSeginfo i, 30, 2⟩
def fSlSeginfo_LOCKED (i : Nat) : Fld := ⟨aSlSeginfo i, 29, 1⟩
def fSlSeginfo_TYPE (i : Nat) : Fld := ⟨aSlSeginfo i, 28, 1⟩
def fSlSeginfo_ECCSEEN (i : Nat) : Fld := ⟨aSlSeginfo i, 27, 1⟩
def fSlSeginfo_ERR (i : Nat) : Fld := ⟨aSlSeginfo i, 20, 4⟩
def fSlSeginfo_SEG (i : Nat) : Fld := ⟨aSlSeginfo i, 0, 20⟩
abbrev aSlSegbase (i : Nat) : Nat := 0x1002028 + 0x100000 * i
def fSlSegbase_BASE (i : Nat) : Fld := ⟨aSlSegbase i, 0, 24⟩
abbrev aSlSeglen (i : Nat) : Nat := 0x100202c + 0x100000 * i
def fSlSeglen_HEMS (i : Nat) : Fld := ⟨aSlSeglen i, 0, 27⟩
abbrev aSlLoaddone (i : Nat) : Nat := 0x1002030 + 0x100000 * i
def fSlLoaddone_VALID (i : Nat) : Fld := ⟨aSlLoaddone i, 63, 1⟩
def fSlLoaddone_ERR (i : Nat) : Fld := ⟨aSlLoaddone i, 56, 4⟩
def fSlLoaddone_SEG (i : Nat) : Fld := ⟨aSlLoaddone i, 32, 20⟩
def fSlLoaddone_TOKEN (i : Nat) : Fld := ⟨aSlLoaddone i, 0, 32⟩
abbrev aSlSeqstat (i : Nat) : Nat := 0x1003000 + 0x100000 * i
def fSlSeqstat_HALT_CODE (i : Nat) : Fld := ⟨aSlSeqstat i, 24, 8⟩
def fSlSeqstat_SP (i : Nat) : Fld := ⟨aSlSeqstat i, 16, 5⟩
def fSlSeqstat_MWTO (i : Nat) : Fld := ⟨aSlSeqstat i, 15, 1⟩
def fSlSeqstat_TS (i : Nat) : Fld := ⟨aSlSeqstat i, 0, 6⟩
abbrev aSlLc (i : Nat) (j : Nat) : Nat := 0x1003010 + 0x100000 * i + 0x4 * j
def fSlLc_VALUE (i : Nat) (j : Nat) : Fld := ⟨aSlLc i j, 0, 32⟩
abbrev aSlExc (i : Nat) : Nat := 0x1003100 + 0x100000 * i
def fSlExc_VALID (i : Nat) : Fld := ⟨aSlExc i, 31, 1⟩
def fSlExc_LOST (i : Nat) : Fld := ⟨aSlExc i, 16, 8⟩
def fSlExc_EXC (i : Nat) : Fld := ⟨aSlExc i, 12, 4⟩
def fSlExc_SUB (i : Nat) : Fld := ⟨aSlExc i, 8, 4⟩
def fSlExc_ORIGIN (i : Nat) : Fld := ⟨aSlExc i, 5, 3⟩
def fSlExc_SP (i : Nat) : Fld := ⟨aSlExc i, 0, 5⟩
abbrev aSlExcpos (i : Nat) : Nat := 0x1003108 + 0x100000 * i
def fSlExcpos_SEG (i : Nat) : Fld := ⟨aSlExcpos i, 32, 20⟩
def fSlExcpos_OFFSET (i : Nat) : Fld := ⟨aSlExcpos i, 0, 32⟩
abbrev aSlExcvec (i : Nat) : Nat := 0x1003110 + 0x100000 * i
def fSlExcvec_VEC (i : Nat) : Fld := ⟨aSlExcvec i, 0, 64⟩
abbrev aSlExcword (i : Nat) : Nat := 0x1003118 + 0x100000 * i
def fSlExcword_WORD (i : Nat) : Fld := ⟨aSlExcword i, 0, 64⟩
abbrev aSlStack (i : Nat) (j : Nat) : Nat := 0x1003140 + 0x100000 * i + 0x4 * j
def fSlStack_SEG (i : Nat) (j : Nat) : Fld := ⟨aSlStack i j, 0, 20⟩
abbrev aSlSmapLane (i : Nat) (j : Nat) : Nat := 0x1004000 + 0x100000 * i + 0x4 * j
def fSlSmapLane_EN (i : Nat) (j : Nat) : Fld := ⟨aSlSmapLane i j, 5, 1⟩
def fSlSmapLane_SLOT (i : Nat) (j : Nat) : Fld := ⟨aSlSmapLane i j, 0, 5⟩
abbrev aSlSmapSlot (i : Nat) (j : Nat) : Nat := 0x1004080 + 0x100000 * i + 0x4 * j
def fSlSmapSlot_EN (i : Nat) (j : Nat) : Fld := ⟨aSlSmapSlot i j, 8, 1⟩
def fSlSmapSlot_SITE (i : Nat) (j : Nat) : Fld := ⟨aSlSmapSlot i j, 0, 8⟩
abbrev aSlSmapcmd (i : Nat) : Nat := 0x1004100 + 0x100000 * i
def fSlSmapcmd_REVERT (i : Nat) : Fld := ⟨aSlSmapcmd i, 1, 1⟩
def fSlSmapcmd_COMMIT (i : Nat) : Fld := ⟨aSlSmapcmd i, 0, 1⟩
abbrev aSlSmapstat (i : Nat) : Nat := 0x1004104 + 0x100000 * i
def fSlSmapstat_REFUSED (i : Nat) : Fld := ⟨aSlSmapstat i, 16, 1⟩
def fSlSmapstat_DETAIL (i : Nat) : Fld := ⟨aSlSmapstat i, 8, 5⟩
def fSlSmapstat_ERR (i : Nat) : Fld := ⟨aSlSmapstat i, 0, 4⟩
abbrev aSlGang (i : Nat) : Nat := 0x1004110 + 0x100000 * i
def fSlGang_MEMBERS (i : Nat) : Fld := ⟨aSlGang i, 0, 8⟩
abbrev aSlPark (i : Nat) : Nat := 0x1004120 + 0x100000 * i
def fSlPark_MODE (i : Nat) : Fld := ⟨aSlPark i, 0, 3⟩
abbrev aSlWtime (i : Nat) (j : Nat) (k : Nat) (l : Nat) : Nat := 0x1080000 + 0x100000 * i + 0x1400 * j + 0xa0 * k + 0x4 * l
def fSlWtime_E_ODD (i : Nat) (j : Nat) (k : Nat) (l : Nat) : Fld := ⟨aSlWtime i j k l, 16, 16⟩
def fSlWtime_E_EVEN (i : Nat) (j : Nat) (k : Nat) (l : Nat) : Fld := ⟨aSlWtime i j k l, 0, 16⟩
abbrev aSlWent (i : Nat) (j : Nat) (k : Nat) (l : Nat) : Nat := 0x1080020 + 0x100000 * i + 0x1400 * j + 0xa0 * k + 0x8 * l
def fSlWent_S1KIND (i : Nat) (j : Nat) (k : Nat) (l : Nat) : Fld := ⟨aSlWent i j k l, 50, 2⟩
def fSlWent_S1EXP (i : Nat) (j : Nat) (k : Nat) (l : Nat) : Fld := ⟨aSlWent i j k l, 48, 2⟩
def fSlWent_S1CLOSE (i : Nat) (j : Nat) (k : Nat) (l : Nat) : Fld := ⟨aSlWent i j k l, 44, 4⟩
def fSlWent_S1OPEN (i : Nat) (j : Nat) (k : Nat) (l : Nat) : Fld := ⟨aSlWent i j k l, 40, 4⟩
def fSlWent_S0KIND (i : Nat) (j : Nat) (k : Nat) (l : Nat) : Fld := ⟨aSlWent i j k l, 38, 2⟩
def fSlWent_S0EXP (i : Nat) (j : Nat) (k : Nat) (l : Nat) : Fld := ⟨aSlWent i j k l, 36, 2⟩
def fSlWent_S0CLOSE (i : Nat) (j : Nat) (k : Nat) (l : Nat) : Fld := ⟨aSlWent i j k l, 32, 4⟩
def fSlWent_S0OPEN (i : Nat) (j : Nat) (k : Nat) (l : Nat) : Fld := ⟨aSlWent i j k l, 28, 4⟩
def fSlWent_EV3ACT (i : Nat) (j : Nat) (k : Nat) (l : Nat) : Fld := ⟨aSlWent i j k l, 25, 3⟩
def fSlWent_EV3IDX (i : Nat) (j : Nat) (k : Nat) (l : Nat) : Fld := ⟨aSlWent i j k l, 21, 4⟩
def fSlWent_EV2ACT (i : Nat) (j : Nat) (k : Nat) (l : Nat) : Fld := ⟨aSlWent i j k l, 18, 3⟩
def fSlWent_EV2IDX (i : Nat) (j : Nat) (k : Nat) (l : Nat) : Fld := ⟨aSlWent i j k l, 14, 4⟩
def fSlWent_EV1ACT (i : Nat) (j : Nat) (k : Nat) (l : Nat) : Fld := ⟨aSlWent i j k l, 11, 3⟩
def fSlWent_EV1IDX (i : Nat) (j : Nat) (k : Nat) (l : Nat) : Fld := ⟨aSlWent i j k l, 7, 4⟩
def fSlWent_EV0ACT (i : Nat) (j : Nat) (k : Nat) (l : Nat) : Fld := ⟨aSlWent i j k l, 4, 3⟩
def fSlWent_EV0IDX (i : Nat) (j : Nat) (k : Nat) (l : Nat) : Fld := ⟨aSlWent i j k l, 0, 4⟩
abbrev aSlVclk (i : Nat) : Nat := 0x1005000 + 0x100000 * i
def fSlVclk_FAULT (i : Nat) : Fld := ⟨aSlVclk i, 7, 1⟩
def fSlVclk_ACTIVE (i : Nat) : Fld := ⟨aSlVclk i, 4, 1⟩
def fSlVclk_B_RDY (i : Nat) : Fld := ⟨aSlVclk i, 1, 1⟩
def fSlVclk_A_RDY (i : Nat) : Fld := ⟨aSlVclk i, 0, 1⟩
abbrev aSlFreqnow (i : Nat) : Nat := 0x1005004 + 0x100000 * i
def fSlFreqnow_FREQ (i : Nat) : Fld := ⟨aSlFreqnow i, 0, 32⟩
abbrev aSlPeriodw (i : Nat) : Nat := 0x1005008 + 0x100000 * i
def fSlPeriodw_PW (i : Nat) : Fld := ⟨aSlPeriodw i, 0, 40⟩
abbrev aSlHandover (i : Nat) : Nat := 0x1005010 + 0x100000 * i
def fSlHandover_COUNT (i : Nat) : Fld := ⟨aSlHandover i, 0, 32⟩
abbrev aSlWft (i : Nat) (j : Nat) : Nat := 0x1005400 + 0x100000 * i + 0x4 * j
def fSlWft_BASE (i : Nat) (j : Nat) : Fld := ⟨aSlWft i j, 0, 16⟩
abbrev aSlPinadj (i : Nat) (j : Nat) : Nat := 0x1005600 + 0x100000 * i + 0x4 * j
def fSlPinadj_ADJ (i : Nat) (j : Nat) : Fld := ⟨aSlPinadj i j, 0, 12⟩
abbrev aSlDeskew (i : Nat) (j : Nat) : Nat := 0x1005700 + 0x100000 * i + 0x4 * j
def fSlDeskew_CMP (i : Nat) (j : Nat) : Fld := ⟨aSlDeskew i j, 24, 8⟩
def fSlDeskew_OFF (i : Nat) (j : Nat) : Fld := ⟨aSlDeskew i j, 16, 8⟩
def fSlDeskew_D1 (i : Nat) (j : Nat) : Fld := ⟨aSlDeskew i j, 8, 8⟩
def fSlDeskew_D0 (i : Nat) (j : Nat) : Fld := ⟨aSlDeskew i j, 0, 8⟩
abbrev aSlWferr (i : Nat) : Nat := 0x1005800 + 0x100000 * i
def fSlWferr_LANE (i : Nat) : Fld := ⟨aSlWferr i, 24, 5⟩
def fSlWferr_SCOLL (i : Nat) : Fld := ⟨aSlWferr i, 2, 1⟩
def fSlWferr_DCOLL (i : Nat) : Fld := ⟨aSlWferr i, 1, 1⟩
def fSlWferr_RANGE (i : Nat) : Fld := ⟨aSlWferr i, 0, 1⟩
abbrev aSlWfcnt (i : Nat) (j : Nat) : Nat := 0x1005810 + 0x100000 * i + 0x4 * j
def fSlWfcnt_COUNT (i : Nat) (j : Nat) : Fld := ⟨aSlWfcnt i j, 0, 32⟩
abbrev aSlPincfg (i : Nat) (j : Nat) : Nat := 0x1006000 + 0x100000 * i + 0x4 * j
def fSlPincfg_CLAMPEN (i : Nat) (j : Nat) : Fld := ⟨aSlPincfg i j, 3, 1⟩
def fSlPincfg_CONN (i : Nat) (j : Nat) : Fld := ⟨aSlPincfg i j, 0, 2⟩
abbrev aSlLevel (i : Nat) (j : Nat) (k : Nat) : Nat := 0x1006100 + 0x100000 * i + 0x20 * j + 0x4 * k
def fSlLevel_CODE (i : Nat) (j : Nat) (k : Nat) : Fld := ⟨aSlLevel i j k, 0, 16⟩
abbrev aSlLvlpush (i : Nat) : Nat := 0x1006500 + 0x100000 * i
def fSlLvlpush_OPND (i : Nat) : Fld := ⟨aSlLvlpush i, 0, 40⟩
abbrev aSlLvlstat (i : Nat) : Nat := 0x1006508 + 0x100000 * i
def fSlLvlstat_FULLDROP (i : Nat) : Fld := ⟨aSlLvlstat i, 16, 1⟩
def fSlLvlstat_DEPTH (i : Nat) : Fld := ⟨aSlLvlstat i, 0, 7⟩
abbrev aSlPmu (i : Nat) (j : Nat) : Nat := 0x1006600 + 0x100000 * i + 0x4 * j
def fSlPmu_MODE (i : Nat) (j : Nat) : Fld := ⟨aSlPmu i j, 20, 2⟩
def fSlPmu_RANGE (i : Nat) (j : Nat) : Fld := ⟨aSlPmu i j, 16, 3⟩
def fSlPmu_FORCE (i : Nat) (j : Nat) : Fld := ⟨aSlPmu i j, 0, 16⟩
abbrev aSlPpmuclp (i : Nat) : Nat := 0x1006680 + 0x100000 * i
def fSlPpmuclp_LANES (i : Nat) : Fld := ⟨aSlPpmuclp i, 0, 32⟩
abbrev aSlClampinv (i : Nat) : Nat := 0x1006684 + 0x100000 * i
def fSlClampinv_LANES (i : Nat) : Fld := ⟨aSlClampinv i, 0, 32⟩
abbrev aSlAdcctl (i : Nat) : Nat := 0x1006700 + 0x100000 * i
def fSlAdcctl_LEN (i : Nat) : Fld := ⟨aSlAdcctl i, 4, 4⟩
def fSlAdcctl_TRIGSRC (i : Nat) : Fld := ⟨aSlAdcctl i, 0, 2⟩
abbrev aSlAdcdly (i : Nat) : Nat := 0x1006704 + 0x100000 * i
def fSlAdcdly_STEPS (i : Nat) : Fld := ⟨aSlAdcdly i, 0, 17⟩
abbrev aSlAdctmr (i : Nat) : Nat := 0x1006708 + 0x100000 * i
def fSlAdctmr_PERIOD (i : Nat) : Fld := ⟨aSlAdctmr i, 0, 24⟩
abbrev aSlAdcseq (i : Nat) (j : Nat) : Nat := 0x1006740 + 0x100000 * i + 0x4 * j
def fSlAdcseq_SUM (i : Nat) (j : Nat) : Fld := ⟨aSlAdcseq i j, 16, 1⟩
def fSlAdcseq_SHIFT (i : Nat) (j : Nat) : Fld := ⟨aSlAdcseq i j, 12, 4⟩
def fSlAdcseq_LOG2N (i : Nat) (j : Nat) : Fld := ⟨aSlAdcseq i j, 8, 4⟩
def fSlAdcseq_INPUT (i : Nat) (j : Nat) : Fld := ⟨aSlAdcseq i j, 0, 6⟩
abbrev aSlAdccmd (i : Nat) : Nat := 0x1006780 + 0x100000 * i
def fSlAdccmd_TAG (i : Nat) : Fld := ⟨aSlAdccmd i, 8, 8⟩
def fSlAdccmd_STOP (i : Nat) : Fld := ⟨aSlAdccmd i, 1, 1⟩
def fSlAdccmd_START (i : Nat) : Fld := ⟨aSlAdccmd i, 0, 1⟩
abbrev aSlAdcstat (i : Nat) : Nat := 0x1006784 + 0x100000 * i
def fSlAdcstat_BUSY (i : Nat) : Fld := ⟨aSlAdcstat i, 31, 1⟩
def fSlAdcstat_SUMRUN (i : Nat) : Fld := ⟨aSlAdcstat i, 30, 1⟩
def fSlAdcstat_RESDROP (i : Nat) : Fld := ⟨aSlAdcstat i, 17, 1⟩
def fSlAdcstat_SKIP (i : Nat) : Fld := ⟨aSlAdcstat i, 16, 1⟩
def fSlAdcstat_DEPTH (i : Nat) : Fld := ⟨aSlAdcstat i, 0, 6⟩
abbrev aSlAdcres (i : Nat) : Nat := 0x1006788 + 0x100000 * i
def fSlAdcres_VALID (i : Nat) : Fld := ⟨aSlAdcres i, 63, 1⟩
def fSlAdcres_PREEMPT (i : Nat) : Fld := ⟨aSlAdcres i, 62, 1⟩
def fSlAdcres_BUSY (i : Nat) : Fld := ⟨aSlAdcres i, 61, 1⟩
def fSlAdcres_ABANDON (i : Nat) : Fld := ⟨aSlAdcres i, 60, 1⟩
def fSlAdcres_ENTRY (i : Nat) : Fld := ⟨aSlAdcres i, 56, 4⟩
def fSlAdcres_TAG (i : Nat) : Fld := ⟨aSlAdcres i, 48, 8⟩
def fSlAdcres_SRC (i : Nat) : Fld := ⟨aSlAdcres i, 40, 2⟩
def fSlAdcres_VALUE (i : Nat) : Fld := ⟨aSlAdcres i, 0, 26⟩
abbrev aSlAdcsum (i : Nat) : Nat := 0x1006790 + 0x100000 * i
def fSlAdcsum_OVF (i : Nat) : Fld := ⟨aSlAdcsum i, 63, 1⟩
def fSlAdcsum_SUM (i : Nat) : Fld := ⟨aSlAdcsum i, 0, 48⟩
abbrev aSlAdcsumn (i : Nat) : Nat := 0x1006798 + 0x100000 * i
def fSlAdcsumn_SUMN (i : Nat) : Fld := ⟨aSlAdcsumn i, 32, 32⟩
def fSlAdcsumn_COUNT (i : Nat) : Fld := ⟨aSlAdcsumn i, 0, 31⟩
abbrev aSlTdccfg (i : Nat) : Nat := 0x1006800 + 0x100000 * i
def fSlTdccfg_STOPSKIP (i : Nat) : Fld := ⟨aSlTdccfg i, 16, 8⟩
def fSlTdccfg_STOP_KIND (i : Nat) : Fld := ⟨aSlTdccfg i, 14, 2⟩
def fSlTdccfg_STOP_EDGE (i : Nat) : Fld := ⟨aSlTdccfg i, 13, 1⟩
def fSlTdccfg_STOP_SEL (i : Nat) : Fld := ⟨aSlTdccfg i, 8, 5⟩
def fSlTdccfg_START_KIND (i : Nat) : Fld := ⟨aSlTdccfg i, 6, 2⟩
def fSlTdccfg_START_EDGE (i : Nat) : Fld := ⟨aSlTdccfg i, 5, 1⟩
def fSlTdccfg_START_SEL (i : Nat) : Fld := ⟨aSlTdccfg i, 0, 5⟩
abbrev aSlTdcto (i : Nat) : Nat := 0x1006804 + 0x100000 * i
def fSlTdcto_MS (i : Nat) : Fld := ⟨aSlTdcto i, 0, 10⟩
abbrev aSlTdccmd (i : Nat) : Nat := 0x1006808 + 0x100000 * i
def fSlTdccmd_TAG (i : Nat) : Fld := ⟨aSlTdccmd i, 8, 8⟩
def fSlTdccmd_CANCEL (i : Nat) : Fld := ⟨aSlTdccmd i, 1, 1⟩
def fSlTdccmd_ARM (i : Nat) : Fld := ⟨aSlTdccmd i, 0, 1⟩
abbrev aSlTdcstat (i : Nat) : Nat := 0x100680c + 0x100000 * i
def fSlTdcstat_DEPTH (i : Nat) : Fld := ⟨aSlTdcstat i, 8, 4⟩
def fSlTdcstat_LOCK (i : Nat) : Fld := ⟨aSlTdcstat i, 2, 1⟩
def fSlTdcstat_ARMED (i : Nat) : Fld := ⟨aSlTdcstat i, 1, 1⟩
def fSlTdcstat_RESDROP (i : Nat) : Fld := ⟨aSlTdcstat i, 0, 1⟩
abbrev aSlTdcres (i : Nat) : Nat := 0x1006810 + 0x100000 * i
def fSlTdcres_VALID (i : Nat) : Fld := ⟨aSlTdcres i, 63, 1⟩
def fSlTdcres_TIMEOUT (i : Nat) : Fld := ⟨aSlTdcres i, 62, 1⟩
def fSlTdcres_NOLOCK (i : Nat) : Fld := ⟨aSlTdcres i, 61, 1⟩
def fSlTdcres_DISC (i : Nat) : Fld := ⟨aSlTdcres i, 60, 1⟩
def fSlTdcres_CANCEL (i : Nat) : Fld := ⟨aSlTdcres i, 59, 1⟩
def fSlTdcres_TAG (i : Nat) : Fld := ⟨aSlTdcres i, 48, 8⟩
def fSlTdcres_TIME (i : Nat) : Fld := ⟨aSlTdcres i, 0, 42⟩
abbrev aSlSpcfg (i : Nat) : Nat := 0x1007000 + 0x100000 * i
def fSlSpcfg_CNTAUTO (i : Nat) : Fld := ⟨aSlSpcfg i, 2, 1⟩
def fSlSpcfg_POLICY (i : Nat) : Fld := ⟨aSlSpcfg i, 0, 2⟩
abbrev aSlSpcmd (i : Nat) : Nat := 0x1007004 + 0x100000 * i
def fSlSpcmd_DISCARD (i : Nat) : Fld := ⟨aSlSpcmd i, 1, 1⟩
def fSlSpcmd_CNTCLR (i : Nat) : Fld := ⟨aSlSpcmd i, 0, 1⟩
abbrev aSlSpstat (i : Nat) : Nat := 0x1007008 + 0x100000 * i
def fSlSpstat_RDERR (i : Nat) : Fld := ⟨aSlSpstat i, 31, 1⟩
def fSlSpstat_OVWR (i : Nat) : Fld := ⟨aSlSpstat i, 30, 1⟩
def fSlSpstat_STOPPED (i : Nat) : Fld := ⟨aSlSpstat i, 29, 1⟩
def fSlSpstat_HALTED (i : Nat) : Fld := ⟨aSlSpstat i, 28, 1⟩
def fSlSpstat_DEPTH (i : Nat) : Fld := ⟨aSlSpstat i, 0, 14⟩
abbrev aSlSpwr (i : Nat) : Nat := 0x1007010 + 0x100000 * i
def fSlSpwr_COUNT (i : Nat) : Fld := ⟨aSlSpwr i, 0, 32⟩
abbrev aSlSprd (i : Nat) : Nat := 0x1007014 + 0x100000 * i
def fSlSprd_COUNT (i : Nat) : Fld := ⟨aSlSprd i, 0, 32⟩
abbrev aSlSpdrop (i : Nat) : Nat := 0x1007018 + 0x100000 * i
def fSlSpdrop_COUNT (i : Nat) : Fld := ⟨aSlSpdrop i, 0, 32⟩
abbrev aSlFailcnt (i : Nat) (j : Nat) : Nat := 0x1007100 + 0x100000 * i + 0x4 * j
def fSlFailcnt_COUNT (i : Nat) (j : Nat) : Fld := ⟨aSlFailcnt i j, 0, 32⟩
abbrev aSlFcsat (i : Nat) : Nat := 0x1007180 + 0x100000 * i
def fSlFcsat_LANES (i : Nat) : Fld := ⟨aSlFcsat i, 0, 32⟩
abbrev aSlFfvec (i : Nat) : Nat := 0x1007188 + 0x100000 * i
def fSlFfvec_VEC (i : Nat) : Fld := ⟨aSlFfvec i, 0, 64⟩
abbrev aSlSitelat (i : Nat) : Nat := 0x1007200 + 0x100000 * i
def fSlSitelat_FAIL (i : Nat) : Fld := ⟨aSlSitelat i, 0, 32⟩
abbrev aSlSiteset (i : Nat) : Nat := 0x1007204 + 0x100000 * i
def fSlSiteset_FAIL (i : Nat) : Fld := ⟨aSlSiteset i, 0, 32⟩
abbrev aSlScpcfg (i : Nat) : Nat := 0x1007400 + 0x100000 * i
def fSlScpcfg_AUTO (i : Nat) : Fld := ⟨aSlScpcfg i, 31, 1⟩
def fSlScpcfg_FALL (i : Nat) : Fld := ⟨aSlScpcfg i, 30, 1⟩
def fSlScpcfg_NLEV (i : Nat) : Fld := ⟨aSlScpcfg i, 21, 9⟩
def fSlScpcfg_TRIGROW (i : Nat) : Fld := ⟨aSlScpcfg i, 13, 8⟩
def fSlScpcfg_LANE (i : Nat) : Fld := ⟨aSlScpcfg i, 0, 5⟩
abbrev aSlScppts (i : Nat) : Nat := 0x1007404 + 0x100000 * i
def fSlScppts_STEP (i : Nat) : Fld := ⟨aSlScppts i, 16, 16⟩
def fSlScppts_NPTS (i : Nat) : Fld := ⟨aSlScppts i, 0, 13⟩
abbrev aSlScplev (i : Nat) : Nat := 0x1007408 + 0x100000 * i
def fSlScplev_VSTEP (i : Nat) : Fld := ⟨aSlScplev i, 16, 16⟩
def fSlScplev_VSTART (i : Nat) : Fld := ⟨aSlScplev i, 0, 16⟩
abbrev aSlScptime (i : Nat) : Nat := 0x100740c + 0x100000 * i
def fSlScptime_TSTART (i : Nat) : Fld := ⟨aSlScptime i, 0, 24⟩
abbrev aSlScphits (i : Nat) : Nat := 0x1007410 + 0x100000 * i
def fSlScphits_HITS (i : Nat) : Fld := ⟨aSlScphits i, 0, 16⟩
abbrev aSlScpto (i : Nat) : Nat := 0x1007414 + 0x100000 * i
def fSlScpto_US (i : Nat) : Fld := ⟨aSlScpto i, 0, 24⟩
abbrev aSlScpref (i : Nat) : Nat := 0x1007418 + 0x100000 * i
def fSlScpref_SEG (i : Nat) : Fld := ⟨aSlScpref i, 32, 20⟩
def fSlScpref_OFFSET (i : Nat) : Fld := ⟨aSlScpref i, 0, 32⟩
abbrev aSlScpcmd (i : Nat) : Nat := 0x1007420 + 0x100000 * i
def fSlScpcmd_CANCEL (i : Nat) : Fld := ⟨aSlScpcmd i, 1, 1⟩
def fSlScpcmd_ARM (i : Nat) : Fld := ⟨aSlScpcmd i, 0, 1⟩
abbrev aSlScpstat (i : Nat) : Nat := 0x1007424 + 0x100000 * i
def fSlScpstat_STATE (i : Nat) : Fld := ⟨aSlScpstat i, 28, 4⟩
def fSlScpstat_LVLCLASH (i : Nat) : Fld := ⟨aSlScpstat i, 27, 1⟩
def fSlScpstat_FORCED (i : Nat) : Fld := ⟨aSlScpstat i, 0, 16⟩
abbrev aSlScptrig (i : Nat) : Nat := 0x1007428 + 0x100000 * i
def fSlScptrig_VALID (i : Nat) : Fld := ⟨aSlScptrig i, 31, 1⟩
def fSlScptrig_NOCROSS (i : Nat) : Fld := ⟨aSlScptrig i, 30, 1⟩
def fSlScptrig_POINT (i : Nat) : Fld := ⟨aSlScptrig i, 0, 19⟩
abbrev aSlUstat (i : Nat) : Nat := 0x1008000 + 0x100000 * i
def fSlUstat_CSUE (i : Nat) : Fld := ⟨aSlUstat i, 31, 1⟩
def fSlUstat_PATCHED (i : Nat) : Fld := ⟨aSlUstat i, 30, 1⟩
def fSlUstat_LASTENTRY (i : Nat) : Fld := ⟨aSlUstat i, 16, 14⟩
def fSlUstat_RESTARTS (i : Nat) : Fld := ⟨aSlUstat i, 0, 16⟩
abbrev aSlUcsce (i : Nat) : Nat := 0x1008004 + 0x100000 * i
def fSlUcsce_COUNT (i : Nat) : Fld := ⟨aSlUcsce i, 0, 32⟩
abbrev aScCtrl (i : Nat) : Nat := 0x2400000 + 0x10000 * i
def fScCtrl_EN (i : Nat) : Fld := ⟨aScCtrl i, 31, 1⟩
def fScCtrl_COMPAT (i : Nat) : Fld := ⟨aScCtrl i, 30, 1⟩
def fScCtrl_SMODE (i : Nat) : Fld := ⟨aScCtrl i, 29, 1⟩
def fScCtrl_SLB (i : Nat) : Fld := ⟨aScCtrl i, 20, 4⟩
def fScCtrl_SLA (i : Nat) : Fld := ⟨aScCtrl i, 16, 4⟩
def fScCtrl_NB (i : Nat) : Fld := ⟨aScCtrl i, 14, 2⟩
def fScCtrl_PPER (i : Nat) : Fld := ⟨aScCtrl i, 0, 12⟩
abbrev aScHtim (i : Nat) : Nat := 0x2400004 + 0x10000 * i
def fScHtim_HTOTAL (i : Nat) : Fld := ⟨aScHtim i, 16, 16⟩
def fScHtim_HACT (i : Nat) : Fld := ⟨aScHtim i, 0, 16⟩
abbrev aScHsync (i : Nat) : Nat := 0x2400008 + 0x10000 * i
def fScHsync_HSW (i : Nat) : Fld := ⟨aScHsync i, 16, 16⟩
def fScHsync_HSS (i : Nat) : Fld := ⟨aScHsync i, 0, 16⟩
abbrev aScVtim (i : Nat) : Nat := 0x240000c + 0x10000 * i
def fScVtim_VTOTAL (i : Nat) : Fld := ⟨aScVtim i, 16, 16⟩
def fScVtim_VACT (i : Nat) : Fld := ⟨aScVtim i, 0, 16⟩
abbrev aScVsync (i : Nat) : Nat := 0x2400010 + 0x10000 * i
def fScVsync_VSW (i : Nat) : Fld := ⟨aScVsync i, 16, 16⟩
def fScVsync_VSS (i : Nat) : Fld := ⟨aScVsync i, 0, 16⟩
abbrev aScResv (i : Nat) : Nat := 0x2400014 + 0x10000 * i
def fScResv_BW (i : Nat) : Fld := ⟨aScResv i, 0, 9⟩
abbrev aScWmark (i : Nat) : Nat := 0x2400018 + 0x10000 * i
def fScWmark_URG (i : Nat) : Fld := ⟨aScWmark i, 16, 16⟩
def fScWmark_PANIC (i : Nat) : Fld := ⟨aScWmark i, 0, 16⟩
abbrev aScTstart (i : Nat) : Nat := 0x2400020 + 0x10000 * i
def fScTstart_TICK (i : Nat) : Fld := ⟨aScTstart i, 0, 64⟩
abbrev aScFcfg (i : Nat) : Nat := 0x2400040 + 0x10000 * i
def fScFcfg_STRETCH (i : Nat) : Fld := ⟨aScFcfg i, 17, 1⟩
def fScFcfg_OVLMISS (i : Nat) : Fld := ⟨aScFcfg i, 16, 1⟩
def fScFcfg_OVLMODE (i : Nat) : Fld := ⟨aScFcfg i, 14, 2⟩
abbrev aScFvmax (i : Nat) : Nat := 0x2400044 + 0x10000 * i
def fScFvmax_VMAXTOT (i : Nat) : Fld := ⟨aScFvmax i, 0, 16⟩
abbrev aScBaseoff (i : Nat) : Nat := 0x2400048 + 0x10000 * i
def fScBaseoff_OFF (i : Nat) : Fld := ⟨aScBaseoff i, 0, 32⟩
abbrev aScBstride (i : Nat) : Nat := 0x240004c + 0x10000 * i
def fScBstride_STRIDE (i : Nat) : Fld := ⟨aScBstride i, 0, 16⟩
abbrev aScOvloff (i : Nat) : Nat := 0x2400050 + 0x10000 * i
def fScOvloff_OFF (i : Nat) : Fld := ⟨aScOvloff i, 0, 32⟩
abbrev aScOstride (i : Nat) : Nat := 0x2400054 + 0x10000 * i
def fScOstride_STRIDE (i : Nat) : Fld := ⟨aScOstride i, 0, 16⟩
abbrev aScOvlpos (i : Nat) : Nat := 0x2400058 + 0x10000 * i
def fScOvlpos_OY (i : Nat) : Fld := ⟨aScOvlpos i, 16, 16⟩
def fScOvlpos_OX (i : Nat) : Fld := ⟨aScOvlpos i, 0, 16⟩
abbrev aScOvlsize (i : Nat) : Nat := 0x240005c + 0x10000 * i
def fScOvlsize_OH (i : Nat) : Fld := ⟨aScOvlsize i, 16, 16⟩
def fScOvlsize_OW (i : Nat) : Fld := ⟨aScOvlsize i, 0, 16⟩
abbrev aScCmd (i : Nat) : Nat := 0x2400060 + 0x10000 * i
def fScCmd_OVLRDY (i : Nat) : Fld := ⟨aScCmd i, 2, 1⟩
def fScCmd_BASERDY (i : Nat) : Fld := ⟨aScCmd i, 1, 1⟩
def fScCmd_COMMIT (i : Nat) : Fld := ⟨aScCmd i, 0, 1⟩
abbrev aScAdmit (i : Nat) : Nat := 0x2400070 + 0x10000 * i
def fScAdmit_REASON (i : Nat) : Fld := ⟨aScAdmit i, 24, 8⟩
def fScAdmit_REFUSED (i : Nat) : Fld := ⟨aScAdmit i, 23, 1⟩
def fScAdmit_STATE (i : Nat) : Fld := ⟨aScAdmit i, 0, 4⟩
abbrev aScAdmitd (i : Nat) : Nat := 0x2400074 + 0x10000 * i
def fScAdmitd_VALUE (i : Nat) : Fld := ⟨aScAdmitd i, 0, 32⟩
abbrev aScStat (i : Nat) : Nat := 0x2400078 + 0x10000 * i
def fScStat_LATE (i : Nat) : Fld := ⟨aScStat i, 31, 1⟩
def fScStat_OVLMISSED (i : Nat) : Fld := ⟨aScStat i, 30, 1⟩
def fScStat_UNDERRUN (i : Nat) : Fld := ⟨aScStat i, 29, 1⟩
def fScStat_PANIC (i : Nat) : Fld := ⟨aScStat i, 28, 1⟩
def fScStat_URGENT (i : Nat) : Fld := ⟨aScStat i, 27, 1⟩
def fScStat_STRETCHING (i : Nat) : Fld := ⟨aScStat i, 26, 1⟩
def fScStat_LINE (i : Nat) : Fld := ⟨aScStat i, 0, 16⟩
abbrev aScCnt (i : Nat) : Nat := 0x240007c + 0x10000 * i
def fScCnt_MISS (i : Nat) : Fld := ⟨aScCnt i, 16, 16⟩
def fScCnt_LATE (i : Nat) : Fld := ⟨aScCnt i, 0, 16⟩
abbrev aScFlen (i : Nat) : Nat := 0x2400080 + 0x10000 * i
def fScFlen_LINES (i : Nat) : Fld := ⟨aScFlen i, 0, 16⟩
abbrev aScFrames (i : Nat) : Nat := 0x2400084 + 0x10000 * i
def fScFrames_COUNT (i : Nat) : Fld := ⟨aScFrames i, 0, 32⟩
abbrev aScRole (i : Nat) (j : Nat) : Nat := 0x2400100 + 0x10000 * i + 0x4 * j
def fScRole_SYMB (i : Nat) (j : Nat) : Fld := ⟨aScRole i j, 8, 4⟩
def fScRole_SYMA (i : Nat) (j : Nat) : Fld := ⟨aScRole i j, 4, 4⟩
def fScRole_ROLE (i : Nat) (j : Nat) : Fld := ⟨aScRole i j, 0, 3⟩
abbrev aDrcPanic : Nat := 0x2000100
def fDrcPanic_LEVEL : Fld := ⟨aDrcPanic, 20, 2⟩
def fDrcPanic_PORTS : Fld := ⟨aDrcPanic, 0, 20⟩
abbrev aDrcUrgent : Nat := 0x2000104
def fDrcUrgent_PORTS : Fld := ⟨aDrcUrgent, 0, 20⟩
abbrev aDrcPanlog : Nat := 0x2000108
def fDrcPanlog_LONG : Fld := ⟨aDrcPanlog, 31, 1⟩
def fDrcPanlog_MAXUS : Fld := ⟨aDrcPanlog, 0, 24⟩
abbrev aDrcPancnt : Nat := 0x200010c
def fDrcPancnt_COUNT : Fld := ⟨aDrcPancnt, 0, 32⟩
abbrev aDrcRefstat (i : Nat) : Nat := 0x2000200 + 0x4 * i
def fDrcRefstat_FORCED (i : Nat) : Fld := ⟨aDrcRefstat i, 16, 16⟩
def fDrcRefstat_HOT (i : Nat) : Fld := ⟨aDrcRefstat i, 4, 1⟩
def fDrcRefstat_MAXOWED (i : Nat) : Fld := ⟨aDrcRefstat i, 0, 4⟩
abbrev aDrcRhcfg : Nat := 0x2000300
def fDrcRhcfg_PROB : Fld := ⟨aDrcRhcfg, 16, 1⟩
def fDrcRhcfg_THRESH : Fld := ⟨aDrcRhcfg, 0, 16⟩
abbrev aDrcRhcntT : Nat := 0x2000304
def fDrcRhcntT_COUNT : Fld := ⟨aDrcRhcntT, 0, 32⟩
abbrev aDrcRhcntP : Nat := 0x2000308
def fDrcRhcntP_COUNT : Fld := ⟨aDrcRhcntP, 0, 32⟩
abbrev aDrcEcccnt (i : Nat) : Nat := 0x2000400 + 0x4 * i
def fDrcEcccnt_UE (i : Nat) : Fld := ⟨aDrcEcccnt i, 16, 16⟩
def fDrcEcccnt_CE (i : Nat) : Fld := ⟨aDrcEcccnt i, 0, 16⟩
abbrev aDrcEccaddr (i : Nat) : Nat := 0x2000410 + 0x8 * i
def fDrcEccaddr_UE (i : Nat) : Fld := ⟨aDrcEccaddr i, 63, 1⟩
def fDrcEccaddr_VALID (i : Nat) : Fld := ⟨aDrcEccaddr i, 62, 1⟩
def fDrcEccaddr_ADDR (i : Nat) : Fld := ⟨aDrcEccaddr i, 0, 36⟩
abbrev aDrcHbcmd : Nat := 0x2000500
def fDrcHbcmd_INIT1 : Fld := ⟨aDrcHbcmd, 1, 1⟩
def fDrcHbcmd_INIT0 : Fld := ⟨aDrcHbcmd, 0, 1⟩
abbrev aDrcPpr : Nat := 0x2000508
def fDrcPpr_OP : Fld := ⟨aDrcPpr, 30, 2⟩
def fDrcPpr_STACK : Fld := ⟨aDrcPpr, 29, 1⟩
def fDrcPpr_CH : Fld := ⟨aDrcPpr, 25, 4⟩
def fDrcPpr_PC : Fld := ⟨aDrcPpr, 24, 1⟩
def fDrcPpr_SID : Fld := ⟨aDrcPpr, 22, 2⟩
def fDrcPpr_BANK : Fld := ⟨aDrcPpr, 18, 4⟩
def fDrcPpr_ROW : Fld := ⟨aDrcPpr, 0, 14⟩
abbrev aDrcPprstat : Nat := 0x200050c
def fDrcPprstat_BUSY : Fld := ⟨aDrcPprstat, 31, 1⟩
def fDrcPprstat_RESULT : Fld := ⟨aDrcPprstat, 0, 3⟩
abbrev aDrcTrn (i : Nat) (j : Nat) (k : Nat) : Nat := 0x2010000 + 0x1000 * i + 0x100 * j + 0x4 * k
def fDrcTrn_WDLY_ODD (i : Nat) (j : Nat) (k : Nat) : Fld := ⟨aDrcTrn i j k, 24, 8⟩
def fDrcTrn_RDLY_ODD (i : Nat) (j : Nat) (k : Nat) : Fld := ⟨aDrcTrn i j k, 16, 8⟩
def fDrcTrn_WDLY_EVEN (i : Nat) (j : Nat) (k : Nat) : Fld := ⟨aDrcTrn i j k, 8, 8⟩
def fDrcTrn_RDLY_EVEN (i : Nat) (j : Nat) (k : Nat) : Fld := ⟨aDrcTrn i j k, 0, 8⟩
abbrev aDpPush : Nat := 0x2800000
def fDpPush_DESC : Fld := ⟨aDpPush, 0, 64⟩
abbrev aDpCtrl : Nat := 0x2800010
def fDpCtrl_FLUSH : Fld := ⟨aDpCtrl, 0, 1⟩
abbrev aDpStat : Nat := 0x2800014
def fDpStat_FULL : Fld := ⟨aDpStat, 31, 1⟩
def fDpStat_DEPTH : Fld := ⟨aDpStat, 0, 13⟩
abbrev aDpDropcnt : Nat := 0x2800018
def fDpDropcnt_COUNT : Fld := ⟨aDpDropcnt, 0, 32⟩
abbrev aDpWeight (i : Nat) : Nat := 0x2800040 + 0x4 * i
def fDpWeight_WEIGHT (i : Nat) : Fld := ⟨aDpWeight i, 0, 8⟩
abbrev aDpLvldepth (i : Nat) : Nat := 0x2800080 + 0x4 * i
def fDpLvldepth_DEPTH (i : Nat) : Fld := ⟨aDpLvldepth i, 0, 13⟩
abbrev aDpGrpdepth (i : Nat) : Nat := 0x28000c0 + 0x4 * i
def fDpGrpdepth_DEPTH (i : Nat) : Fld := ⟨aDpGrpdepth i, 0, 13⟩
abbrev aDpHist (i : Nat) (j : Nat) : Nat := 0x2801000 + 0x40 * i + 0x4 * j
def fDpHist_COUNT (i : Nat) (j : Nat) : Fld := ⟨aDpHist i j, 0, 32⟩
abbrev aDpCoreCtrl (i : Nat) : Nat := 0x2810000 + 0x100 * i
def fDpCoreCtrl_GROUPS (i : Nat) : Fld := ⟨aDpCoreCtrl i, 8, 8⟩
def fDpCoreCtrl_GETEN (i : Nat) : Fld := ⟨aDpCoreCtrl i, 2, 1⟩
def fDpCoreCtrl_RESET (i : Nat) : Fld := ⟨aDpCoreCtrl i, 1, 1⟩
def fDpCoreCtrl_RUN (i : Nat) : Fld := ⟨aDpCoreCtrl i, 0, 1⟩
abbrev aDpCoreStat (i : Nat) : Nat := 0x2810004 + 0x100 * i
def fDpCoreStat_ABANDON (i : Nat) : Fld := ⟨aDpCoreStat i, 31, 1⟩
def fDpCoreStat_NESTED (i : Nat) : Fld := ⟨aDpCoreStat i, 30, 1⟩
def fDpCoreStat_NODONE (i : Nat) : Fld := ⟨aDpCoreStat i, 29, 1⟩
def fDpCoreStat_HOLD (i : Nat) : Fld := ⟨aDpCoreStat i, 1, 1⟩
def fDpCoreStat_WAITING (i : Nat) : Fld := ⟨aDpCoreStat i, 0, 1⟩
abbrev aDpCoreTask (i : Nat) : Nat := 0x2810008 + 0x100 * i
def fDpCoreTask_VALUE (i : Nat) : Fld := ⟨aDpCoreTask i, 0, 64⟩
abbrev aDpCoreBusy (i : Nat) : Nat := 0x2810010 + 0x100 * i
def fDpCoreBusy_VALUE (i : Nat) : Fld := ⟨aDpCoreBusy i, 0, 64⟩
abbrev aDpCoreIdle (i : Nat) : Nat := 0x2810018 + 0x100 * i
def fDpCoreIdle_VALUE (i : Nat) : Fld := ⟨aDpCoreIdle i, 0, 64⟩
abbrev aDpCoreDonecnt (i : Nat) : Nat := 0x2810020 + 0x100 * i
def fDpCoreDonecnt_VALUE (i : Nat) : Fld := ⟨aDpCoreDonecnt i, 0, 64⟩
abbrev aDpCoreIrqpend (i : Nat) : Nat := 0x2810040 + 0x100 * i
def fDpCoreIrqpend_SRC (i : Nat) : Fld := ⟨aDpCoreIrqpend i, 0, 18⟩
abbrev aDpCoreIrqen (i : Nat) : Nat := 0x2810044 + 0x100 * i
def fDpCoreIrqen_EN (i : Nat) : Fld := ⟨aDpCoreIrqen i, 0, 18⟩
abbrev aDpCoreMsip (i : Nat) : Nat := 0x2810048 + 0x100 * i
def fDpCoreMsip_MSIP (i : Nat) : Fld := ⟨aDpCoreMsip i, 0, 1⟩
abbrev aClCtrl (i : Nat) : Nat := 0x2c00000 + 0x100 * i
def fClCtrl_EN (i : Nat) : Fld := ⟨aClCtrl i, 31, 1⟩
def fClCtrl_LRST (i : Nat) : Fld := ⟨aClCtrl i, 30, 1⟩
def fClCtrl_LOOPBACK (i : Nat) : Fld := ⟨aClCtrl i, 29, 1⟩
def fClCtrl_SUMEN (i : Nat) : Fld := ⟨aClCtrl i, 28, 1⟩
def fClCtrl_MODE (i : Nat) : Fld := ⟨aClCtrl i, 25, 1⟩
def fClCtrl_FCKDIR (i : Nat) : Fld := ⟨aClCtrl i, 24, 1⟩
def fClCtrl_RETRY (i : Nat) : Fld := ⟨aClCtrl i, 0, 16⟩
abbrev aClStat (i : Nat) : Nat := 0x2c00004 + 0x100 * i
def fClStat_STATE (i : Nat) : Fld := ⟨aClStat i, 28, 4⟩
def fClStat_REASON (i : Nat) : Fld := ⟨aClStat i, 24, 4⟩
def fClStat_ATTEMPT (i : Nat) : Fld := ⟨aClStat i, 22, 2⟩
def fClStat_ROLE (i : Nat) : Fld := ⟨aClStat i, 20, 2⟩
def fClStat_CLKMODE (i : Nat) : Fld := ⟨aClStat i, 19, 1⟩
def fClStat_LOS1 (i : Nat) : Fld := ⟨aClStat i, 18, 1⟩
def fClStat_LOS0 (i : Nat) : Fld := ⟨aClStat i, 17, 1⟩
def fClStat_LOL1 (i : Nat) : Fld := ⟨aClStat i, 16, 1⟩
def fClStat_LOL0 (i : Nat) : Fld := ⟨aClStat i, 15, 1⟩
def fClStat_BLK1 (i : Nat) : Fld := ⟨aClStat i, 14, 1⟩
def fClStat_BLK0 (i : Nat) : Fld := ⟨aClStat i, 13, 1⟩
def fClStat_VIOL (i : Nat) : Fld := ⟨aClStat i, 12, 1⟩
def fClStat_DOWNEV (i : Nat) : Fld := ⟨aClStat i, 11, 1⟩
def fClStat_OUT (i : Nat) : Fld := ⟨aClStat i, 0, 9⟩
abbrev aClErrcnt (i : Nat) : Nat := 0x2c00008 + 0x100 * i
def fClErrcnt_CRC (i : Nat) : Fld := ⟨aClErrcnt i, 16, 16⟩
def fClErrcnt_HDR (i : Nat) : Fld := ⟨aClErrcnt i, 0, 16⟩
abbrev aClLinkcnt (i : Nat) : Nat := 0x2c0000c + 0x100 * i
def fClLinkcnt_REPLAY (i : Nat) : Fld := ⟨aClLinkcnt i, 16, 16⟩
def fClLinkcnt_RECOVER (i : Nat) : Fld := ⟨aClLinkcnt i, 0, 16⟩
abbrev aClDropcnt (i : Nat) : Nat := 0x2c00010 + 0x100 * i
def fClDropcnt_TXDROP (i : Nat) : Fld := ⟨aClDropcnt i, 16, 16⟩
def fClDropcnt_PEERDROP (i : Nat) : Fld := ⟨aClDropcnt i, 0, 16⟩
abbrev aClSumdrop (i : Nat) : Nat := 0x2c00014 + 0x100 * i
def fClSumdrop_COUNT (i : Nat) : Fld := ⟨aClSumdrop i, 0, 32⟩
abbrev aClSumdst (i : Nat) : Nat := 0x2c00018 + 0x100 * i
def fClSumdst_DST (i : Nat) : Fld := ⟨aClSumdst i, 0, 12⟩
abbrev aClSeq (i : Nat) : Nat := 0x2c0001c + 0x100 * i
def fClSeq_RXSEQ (i : Nat) : Fld := ⟨aClSeq i, 16, 12⟩
def fClSeq_TXSEQ (i : Nat) : Fld := ⟨aClSeq i, 0, 12⟩
abbrev aClPeerlim0 (i : Nat) : Nat := 0x2c00020 + 0x100 * i
def fClPeerlim0_BURST (i : Nat) : Fld := ⟨aClPeerlim0 i, 24, 8⟩
def fClPeerlim0_INTERVAL (i : Nat) : Fld := ⟨aClPeerlim0 i, 0, 24⟩
abbrev aClPeerlim1 (i : Nat) : Nat := 0x2c00024 + 0x100 * i
def fClPeerlim1_BURST (i : Nat) : Fld := ⟨aClPeerlim1 i, 24, 8⟩
def fClPeerlim1_INTERVAL (i : Nat) : Fld := ⟨aClPeerlim1 i, 0, 24⟩
abbrev aClPeerlim2 (i : Nat) : Nat := 0x2c00028 + 0x100 * i
def fClPeerlim2_BURST (i : Nat) : Fld := ⟨aClPeerlim2 i, 24, 8⟩
def fClPeerlim2_INTERVAL (i : Nat) : Fld := ⟨aClPeerlim2 i, 0, 24⟩
abbrev aClEnumctl : Nat := 0x2c01000
def fClEnumctl_ROOT : Fld := ⟨aClEnumctl, 31, 1⟩
def fClEnumctl_SEARCH : Fld := ⟨aClEnumctl, 30, 1⟩
def fClEnumctl_HINT : Fld := ⟨aClEnumctl, 0, 12⟩
abbrev aClEnumgen : Nat := 0x2c01004
def fClEnumgen_GEN : Fld := ⟨aClEnumgen, 0, 32⟩
abbrev aClEnumstat : Nat := 0x2c01008
def fClEnumstat_VALID : Fld := ⟨aClEnumstat, 31, 1⟩
def fClEnumstat_DONE : Fld := ⟨aClEnumstat, 30, 1⟩
def fClEnumstat_IVALID : Fld := ⟨aClEnumstat, 29, 1⟩
def fClEnumstat_CONFLICT : Fld := ⟨aClEnumstat, 28, 1⟩
def fClEnumstat_OVERFLOW : Fld := ⟨aClEnumstat, 27, 1⟩
def fClEnumstat_RESTART : Fld := ⟨aClEnumstat, 26, 1⟩
def fClEnumstat_DEPTH : Fld := ⟨aClEnumstat, 20, 6⟩
def fClEnumstat_INDEX : Fld := ⟨aClEnumstat, 0, 12⟩
abbrev aClEnumcnt : Nat := 0x2c0100c
def fClEnumcnt_SEARCHES : Fld := ⟨aClEnumcnt, 16, 16⟩
def fClEnumcnt_DEVICES : Fld := ⟨aClEnumcnt, 0, 13⟩
abbrev aClSumrxw (i : Nat) : Nat := 0x2c01100 + 0x4 * i
def fClSumrxw_DATA (i : Nat) : Fld := ⟨aClSumrxw i, 0, 32⟩
abbrev aClSumrxpop : Nat := 0x2c01140
def fClSumrxpop_POP : Fld := ⟨aClSumrxpop, 0, 1⟩
abbrev aClSumrxstat : Nat := 0x2c01144
def fClSumrxstat_DROP : Fld := ⟨aClSumrxstat, 31, 1⟩
def fClSumrxstat_DEPTH : Fld := ⟨aClSumrxstat, 0, 5⟩
abbrev aTmCtrl : Nat := 0x3000000
def fTmCtrl_PRIO : Fld := ⟨aTmCtrl, 24, 8⟩
def fTmCtrl_PEERSRC : Fld := ⟨aTmCtrl, 20, 4⟩
def fTmCtrl_EN : Fld := ⟨aTmCtrl, 0, 1⟩
abbrev aTmStat : Nat := 0x3000004
def fTmStat_ROLE : Fld := ⟨aTmStat, 30, 2⟩
def fTmStat_SRC : Fld := ⟨aTmStat, 28, 2⟩
def fTmStat_SRCVALID : Fld := ⟨aTmStat, 27, 1⟩
def fTmStat_ALIGNED : Fld := ⟨aTmStat, 26, 1⟩
def fTmStat_GRIDLOST : Fld := ⟨aTmStat, 25, 1⟩
def fTmStat_DIVERGED : Fld := ⟨aTmStat, 24, 1⟩
def fTmStat_MLOST : Fld := ⟨aTmStat, 23, 1⟩
def fTmStat_TAKEOVER : Fld := ⟨aTmStat, 22, 1⟩
def fTmStat_HOPS : Fld := ⟨aTmStat, 0, 6⟩
abbrev aTmNow : Nat := 0x3000008
def fTmNow_TICK : Fld := ⟨aTmNow, 0, 64⟩
abbrev aTmOffset : Nat := 0x3000010
def fTmOffset_TAPS : Fld := ⟨aTmOffset, 0, 32⟩
abbrev aTmMserial : Nat := 0x3000018
def fTmMserial_SERIAL : Fld := ⟨aTmMserial, 0, 64⟩
abbrev aTmLinkDelay (i : Nat) : Nat := 0x3000100 + 0x10 * i
def fTmLinkDelay_DELAY (i : Nat) : Fld := ⟨aTmLinkDelay i, 0, 32⟩
abbrev aTmLinkAsym (i : Nat) : Nat := 0x3000104 + 0x10 * i
def fTmLinkAsym_ASYM (i : Nat) : Fld := ⟨aTmLinkAsym i, 0, 16⟩
abbrev aTmLinkLat (i : Nat) : Nat := 0x3000108 + 0x10 * i
def fTmLinkLat_TXLAT (i : Nat) : Fld := ⟨aTmLinkLat i, 16, 16⟩
def fTmLinkLat_RXLAT (i : Nat) : Fld := ⟨aTmLinkLat i, 0, 16⟩
abbrev aTmLinkRtt (i : Nat) : Nat := 0x300010c + 0x10 * i
def fTmLinkRtt_RTT (i : Nat) : Fld := ⟨aTmLinkRtt i, 0, 32⟩
abbrev aTmTrigctl : Nat := 0x3000200
def fTmTrigctl_HOPS : Fld := ⟨aTmTrigctl, 0, 6⟩
abbrev aTmTrigat : Nat := 0x3000208
def fTmTrigat_TICK : Fld := ⟨aTmTrigat, 0, 64⟩
abbrev aTmTrigcmd : Nat := 0x3000210
def fTmTrigcmd_SEND : Fld := ⟨aTmTrigcmd, 31, 1⟩
def fTmTrigcmd_BCAST : Fld := ⟨aTmTrigcmd, 30, 1⟩
def fTmTrigcmd_REFUSED : Fld := ⟨aTmTrigcmd, 29, 1⟩
def fTmTrigcmd_DST : Fld := ⟨aTmTrigcmd, 16, 12⟩
def fTmTrigcmd_NUM : Fld := ⟨aTmTrigcmd, 0, 8⟩
abbrev aTmTrigstat : Nat := 0x3000214
def fTmTrigstat_ACCEPTED : Fld := ⟨aTmTrigstat, 16, 16⟩
def fTmTrigstat_LATE : Fld := ⟨aTmTrigstat, 0, 16⟩
abbrev aTmTrigrep : Nat := 0x3000218
def fTmTrigrep_REP : Fld := ⟨aTmTrigrep, 31, 1⟩
def fTmTrigrep_FULL : Fld := ⟨aTmTrigrep, 30, 1⟩
def fTmTrigrep_FROM : Fld := ⟨aTmTrigrep, 16, 12⟩
def fTmTrigrep_NUM : Fld := ⟨aTmTrigrep, 0, 8⟩
abbrev aTmTrigact (i : Nat) : Nat := 0x3000400 + 0x4 * i
def fTmTrigact_ABORT (i : Nat) : Fld := ⟨aTmTrigact i, 0, 8⟩
abbrev aTmSnapcmd : Nat := 0x3000800
def fTmSnapcmd_SNAP : Fld := ⟨aTmSnapcmd, 0, 1⟩
abbrev aTmSnaptick : Nat := 0x3000808
def fTmSnaptick_VALUE : Fld := ⟨aTmSnaptick, 0, 64⟩
abbrev aTmSnapsec : Nat := 0x3000810
def fTmSnapsec_VALUE : Fld := ⟨aTmSnapsec, 0, 64⟩
abbrev aTmSnapns : Nat := 0x3000818
def fTmSnapns_NS : Fld := ⟨aTmSnapns, 0, 30⟩
abbrev aTmSnapfrac : Nat := 0x300081c
def fTmSnapfrac_FRAC : Fld := ⟨aTmSnapfrac, 0, 16⟩
abbrev aTmSetsec : Nat := 0x3000820
def fTmSetsec_VALUE : Fld := ⟨aTmSetsec, 0, 64⟩
abbrev aTmSetns : Nat := 0x3000828
def fTmSetns_NS : Fld := ⟨aTmSetns, 0, 30⟩
abbrev aTmPhccmd : Nat := 0x300082c
def fTmPhccmd_SET : Fld := ⟨aTmPhccmd, 0, 1⟩
abbrev aTmSrvctl : Nat := 0x3000900
def fTmSrvctl_EN : Fld := ⟨aTmSrvctl, 31, 1⟩
def fTmSrvctl_RESETI : Fld := ⟨aTmSrvctl, 30, 1⟩
def fTmSrvctl_STEPTHR : Fld := ⟨aTmSrvctl, 0, 16⟩
abbrev aTmSrvkp : Nat := 0x3000904
def fTmSrvkp_KP : Fld := ⟨aTmSrvkp, 0, 32⟩
abbrev aTmSrvki : Nat := 0x3000908
def fTmSrvki_KI : Fld := ⟨aTmSrvki, 0, 32⟩
abbrev aTmSrvoff : Nat := 0x3000910
def fTmSrvoff_OFF : Fld := ⟨aTmSrvoff, 0, 64⟩
abbrev aTmSrvadj : Nat := 0x3000918
def fTmSrvadj_ADJ : Fld := ⟨aTmSrvadj, 0, 64⟩
abbrev aTmSrvcnt : Nat := 0x3000920
def fTmSrvcnt_STEPS : Fld := ⟨aTmSrvcnt, 16, 16⟩
def fTmSrvcnt_CLAMPS : Fld := ⟨aTmSrvcnt, 0, 16⟩
abbrev aTmEthlat (i : Nat) : Nat := 0x3000a00 + 0x4 * i
def fTmEthlat_TX (i : Nat) : Fld := ⟨aTmEthlat i, 16, 16⟩
def fTmEthlat_RX (i : Nat) : Fld := ⟨aTmEthlat i, 0, 16⟩
abbrev aTmTxtsw (i : Nat) : Nat := 0x3000b00 + 0x4 * i
def fTmTxtsw_DATA (i : Nat) : Fld := ⟨aTmTxtsw i, 0, 32⟩
abbrev aTmTxtspop : Nat := 0x3000b10
def fTmTxtspop_POP : Fld := ⟨aTmTxtspop, 0, 1⟩
abbrev aTmTxtsstat : Nat := 0x3000b14
def fTmTxtsstat_OVF : Fld := ⟨aTmTxtsstat, 31, 1⟩
def fTmTxtsstat_DEPTH : Fld := ⟨aTmTxtsstat, 0, 5⟩
abbrev aTmTxtsovf : Nat := 0x3000b18
def fTmTxtsovf_COUNT : Fld := ⟨aTmTxtsovf, 0, 32⟩
abbrev aHmStat : Nat := 0x3400000
def fHmStat_FATAL : Fld := ⟨aHmStat, 31, 1⟩
def fHmStat_LOST : Fld := ⟨aHmStat, 30, 1⟩
def fHmStat_DEPTH : Fld := ⟨aHmStat, 0, 7⟩
abbrev aHmCnt (i : Nat) : Nat := 0x3400010 + 0x4 * i
def fHmCnt_COUNT (i : Nat) : Fld := ⟨aHmCnt i, 0, 32⟩
abbrev aHmRec (i : Nat) : Nat := 0x3400040 + 0x4 * i
def fHmRec_DATA (i : Nat) : Fld := ⟨aHmRec i, 0, 32⟩
abbrev aHmPop : Nat := 0x3400060
def fHmPop_POP : Fld := ⟨aHmPop, 0, 1⟩
abbrev aHmFirst (i : Nat) : Nat := 0x3400080 + 0x4 * i
def fHmFirst_DATA (i : Nat) : Fld := ⟨aHmFirst i, 0, 32⟩
abbrev aHmLast (i : Nat) : Nat := 0x34000a0 + 0x4 * i
def fHmLast_DATA (i : Nat) : Fld := ⟨aHmLast i, 0, 32⟩
abbrev aHmFatal1 (i : Nat) : Nat := 0x34000c0 + 0x4 * i
def fHmFatal1_DATA (i : Nat) : Fld := ⟨aHmFatal1 i, 0, 32⟩
abbrev aHmFatal2 (i : Nat) : Nat := 0x34000e0 + 0x4 * i
def fHmFatal2_DATA (i : Nat) : Fld := ⟨aHmFatal2 i, 0, 32⟩
abbrev aHmAonclr : Nat := 0x3400100
def fHmAonclr_CLR : Fld := ⟨aHmAonclr, 0, 4⟩
abbrev aHmInj : Nat := 0x3400200
def fHmInj_ARM : Fld := ⟨aHmInj, 31, 1⟩
def fHmInj_MODE : Fld := ⟨aHmInj, 24, 2⟩
def fHmInj_SRC : Fld := ⟨aHmInj, 0, 9⟩
abbrev aHmSrc (i : Nat) : Nat := 0x3401000 + 0x4 * i
def fHmSrc_LATCHED (i : Nat) : Fld := ⟨aHmSrc i, 31, 1⟩
def fHmSrc_ACTIVE (i : Nat) : Fld := ⟨aHmSrc i, 30, 1⟩
def fHmSrc_WIRE (i : Nat) : Fld := ⟨aHmSrc i, 29, 1⟩
def fHmSrc_CLASS (i : Nat) : Fld := ⟨aHmSrc i, 27, 2⟩
def fHmSrc_COUNT (i : Nat) : Fld := ⟨aHmSrc i, 0, 16⟩
abbrev aPrCfg : Nat := 0x3800000
def fPrCfg_HOLDOFF : Fld := ⟨aPrCfg, 16, 16⟩
def fPrCfg_HARD : Fld := ⟨aPrCfg, 8, 8⟩
def fPrCfg_DRIFT : Fld := ⟨aPrCfg, 0, 8⟩
abbrev aPrCtrl (i : Nat) : Nat := 0x3800100 + 0x40 * i
def fPrCtrl_RUN (i : Nat) : Fld := ⟨aPrCtrl i, 1, 1⟩
def fPrCtrl_AUTO (i : Nat) : Fld := ⟨aPrCtrl i, 0, 1⟩
abbrev aPrStat (i : Nat) : Nat := 0x3800104 + 0x40 * i
def fPrStat_CAL_STALE (i : Nat) : Fld := ⟨aPrStat i, 31, 1⟩
def fPrStat_DUE (i : Nat) : Fld := ⟨aPrStat i, 30, 1⟩
def fPrStat_RUNNING (i : Nat) : Fld := ⟨aPrStat i, 29, 1⟩
def fPrStat_LASTFAIL (i : Nat) : Fld := ⟨aPrStat i, 28, 1⟩
def fPrStat_FAILCODE (i : Nat) : Fld := ⟨aPrStat i, 24, 4⟩
def fPrStat_FAILLANE (i : Nat) : Fld := ⟨aPrStat i, 16, 5⟩
def fPrStat_REFTEMP (i : Nat) : Fld := ⟨aPrStat i, 0, 16⟩
abbrev aPrCount (i : Nat) : Nat := 0x3800108 + 0x40 * i
def fPrCount_COUNT (i : Nat) : Fld := ⟨aPrCount i, 0, 32⟩
abbrev aPrFails (i : Nat) : Nat := 0x380010c + 0x40 * i
def fPrFails_FAILS (i : Nat) : Fld := ⟨aPrFails i, 0, 32⟩
abbrev aPrTsec (i : Nat) : Nat := 0x3800110 + 0x40 * i
def fPrTsec_SEC (i : Nat) : Fld := ⟨aPrTsec i, 0, 64⟩
abbrev aPrTns (i : Nat) : Nat := 0x3800118 + 0x40 * i
def fPrTns_NS (i : Nat) : Fld := ⟨aPrTns i, 0, 30⟩
abbrev aPrBistLc : Nat := 0x3810000
def fPrBistLc_STATE : Fld := ⟨aPrBistLc, 0, 3⟩
abbrev aPrBistNonce : Nat := 0x3810008
def fPrBistNonce_NONCE : Fld := ⟨aPrBistNonce, 0, 64⟩
abbrev aPrBistToken (i : Nat) : Nat := 0x3810100 + 0x4 * i
def fPrBistToken_DATA (i : Nat) : Fld := ⟨aPrBistToken i, 0, 32⟩
abbrev aPrBistTokcmd : Nat := 0x3810180
def fPrBistTokcmd_RESULT : Fld := ⟨aPrBistTokcmd, 4, 4⟩
def fPrBistTokcmd_SUBMIT : Fld := ⟨aPrBistTokcmd, 0, 1⟩
abbrev aPrBistCmd : Nat := 0x3810200
def fPrBistCmd_START : Fld := ⟨aPrBistCmd, 31, 1⟩
def fPrBistCmd_ABORT : Fld := ⟨aPrBistCmd, 30, 1⟩
def fPrBistCmd_KIND : Fld := ⟨aPrBistCmd, 8, 8⟩
def fPrBistCmd_INST : Fld := ⟨aPrBistCmd, 0, 8⟩
abbrev aPrBistRes : Nat := 0x3810204
def fPrBistRes_RESULT : Fld := ⟨aPrBistRes, 28, 4⟩
def fPrBistRes_COVERAGE : Fld := ⟨aPrBistRes, 0, 10⟩
abbrev aPrBistDur : Nat := 0x3810208
def fPrBistDur_US : Fld := ⟨aPrBistDur, 0, 32⟩
abbrev aPrBistFails : Nat := 0x381020c
def fPrBistFails_COUNT : Fld := ⟨aPrBistFails, 0, 32⟩
abbrev aPrBistFirst : Nat := 0x3810210
def fPrBistFirst_ELEMENT : Fld := ⟨aPrBistFirst, 0, 32⟩
abbrev aPrBistRinse : Nat := 0x3810300
def fPrBistRinse_EN : Fld := ⟨aPrBistRinse, 31, 1⟩
def fPrBistRinse_PERIOD : Fld := ⟨aPrBistRinse, 0, 16⟩
abbrev aPrBistRinseres : Nat := 0x3810304
def fPrBistRinseres_RESULT : Fld := ⟨aPrBistRinseres, 28, 4⟩
def fPrBistRinseres_COVERAGE : Fld := ⟨aPrBistRinseres, 0, 10⟩
abbrev aPrBistRinsedur : Nat := 0x3810308
def fPrBistRinsedur_US : Fld := ⟨aPrBistRinsedur, 0, 32⟩
abbrev aPrBistRinseinst : Nat := 0x381030c
def fPrBistRinseinst_KIND : Fld := ⟨aPrBistRinseinst, 8, 8⟩
def fPrBistRinseinst_INST : Fld := ⟨aPrBistRinseinst, 0, 8⟩
abbrev aPrDarnStat : Nat := 0x3810400
def fPrDarnStat_EXHAUST : Fld := ⟨aPrDarnStat, 31, 1⟩
def fPrDarnStat_FUSEN : Fld := ⟨aPrDarnStat, 16, 12⟩
def fPrDarnStat_SOFTN : Fld := ⟨aPrDarnStat, 0, 16⟩
abbrev aPrDarnCmd : Nat := 0x3810404
def fPrDarnCmd_FUSE : Fld := ⟨aPrDarnCmd, 0, 1⟩
abbrev aMgReq (i : Nat) (j : Nat) : Nat := 0x3c00000 + 0x10000 * i + 0x4 * j
def fMgReq_DATA (i : Nat) (j : Nat) : Fld := ⟨aMgReq i j, 0, 32⟩
abbrev aMgRsp (i : Nat) (j : Nat) : Nat := 0x3c01000 + 0x10000 * i + 0x4 * j
def fMgRsp_DATA (i : Nat) (j : Nat) : Fld := ⟨aMgRsp i j, 0, 32⟩
abbrev aMgCmd (i : Nat) : Nat := 0x3c02000 + 0x10000 * i
def fMgCmd_OP (i : Nat) : Fld := ⟨aMgCmd i, 24, 8⟩
def fMgCmd_LEN (i : Nat) : Fld := ⟨aMgCmd i, 0, 12⟩
abbrev aMgStat (i : Nat) : Nat := 0x3c02004 + 0x10000 * i
def fMgStat_BUSY (i : Nat) : Fld := ⟨aMgStat i, 31, 1⟩
def fMgStat_DONE (i : Nat) : Fld := ⟨aMgStat i, 30, 1⟩
def fMgStat_CODE (i : Nat) : Fld := ⟨aMgStat i, 16, 8⟩
def fMgStat_RLEN (i : Nat) : Fld := ⟨aMgStat i, 0, 12⟩
abbrev aEtTxring (i : Nat) : Nat := 0x3c80000 + 0x1000 * i
def fEtTxring_BASE (i : Nat) : Fld := ⟨aEtTxring i, 6, 30⟩
abbrev aEtTxsz (i : Nat) : Nat := 0x3c80008 + 0x1000 * i
def fEtTxsz_LOG2 (i : Nat) : Fld := ⟨aEtTxsz i, 0, 4⟩
abbrev aEtTxtail (i : Nat) : Nat := 0x3c8000c + 0x1000 * i
def fEtTxtail_INDEX (i : Nat) : Fld := ⟨aEtTxtail i, 0, 12⟩
abbrev aEtTxhead (i : Nat) : Nat := 0x3c80010 + 0x1000 * i
def fEtTxhead_INDEX (i : Nat) : Fld := ⟨aEtTxhead i, 0, 12⟩
abbrev aEtRxring (i : Nat) : Nat := 0x3c80020 + 0x1000 * i
def fEtRxring_BASE (i : Nat) : Fld := ⟨aEtRxring i, 6, 30⟩
abbrev aEtRxsz (i : Nat) : Nat := 0x3c80028 + 0x1000 * i
def fEtRxsz_LOG2 (i : Nat) : Fld := ⟨aEtRxsz i, 0, 4⟩
abbrev aEtRxtail (i : Nat) : Nat := 0x3c8002c + 0x1000 * i
def fEtRxtail_INDEX (i : Nat) : Fld := ⟨aEtRxtail i, 0, 12⟩
abbrev aEtRxhead (i : Nat) : Nat := 0x3c80030 + 0x1000 * i
def fEtRxhead_INDEX (i : Nat) : Fld := ⟨aEtRxhead i, 0, 12⟩
abbrev aEtCtrl (i : Nat) : Nat := 0x3c80040 + 0x1000 * i
def fEtCtrl_EN (i : Nat) : Fld := ⟨aEtCtrl i, 31, 1⟩
abbrev aEtStat (i : Nat) : Nat := 0x3c80044 + 0x1000 * i
def fEtStat_NOBUF (i : Nat) : Fld := ⟨aEtStat i, 31, 1⟩
def fEtStat_LINK (i : Nat) : Fld := ⟨aEtStat i, 30, 1⟩
abbrev aEtRxdrop (i : Nat) : Nat := 0x3c80048 + 0x1000 * i
def fEtRxdrop_COUNT (i : Nat) : Fld := ⟨aEtRxdrop i, 0, 32⟩
abbrev aEtRxerr (i : Nat) : Nat := 0x3c8004c + 0x1000 * i
def fEtRxerr_COUNT (i : Nat) : Fld := ⟨aEtRxerr i, 0, 32⟩

end Sys2Proof.Machine
end

