-- ==== Sys2Proof/Machine/State.lean ====
section
/-! DEFINITION. The state of the block as plain data: the register words, pattern memory, and for every unit what its
chapter says it holds. A read-only register field that only shows typed state is computed from it when it is read. -/

namespace Sys2Proof.Machine

/-- Why the machine would stop with a fault. No command does: the spec gives every row an effect. -/
inductive Fault where
deriving DecidableEq, Repr

/-- Why a command has no meaning. -/
inductive Refusal where
  /-- A row of the table that has no meaning yet. Raised by an arm of exec only; safe: nothing can be proved of it. -/
  | notModelled (mnemonic : String)
deriving DecidableEq, Repr

/-! ## Slices (spec/02 to spec/08) -/

/-- The states of a burst (spec/02 R85). CHECKING is `Slice.chk`. -/
inductive BurstState where
  | idle | prefill | armed | running | ending
deriving DecidableEq, Repr

/-- How a burst ended (spec/02 R60). -/
inductive Cause where
  | none | halt | exception | spoolHalt | abortHem | abortNow | withdrawn | safeState | reset | contained | fatal
deriving DecidableEq, Repr

/-- What a START was taken with: the slice that received it, the overrides, the lowest member that was not IDLE when it
was taken, the cycle, and the service interval of each slice's PMU-trigger queue by its ADC settings then (spec/02 R67,
R75, R77). -/
structure Check where
  recv : Fin 8
  ovrQueue : Bool
  ovrCal : Bool
  busy : Option (Fin 8)
  taken : Nat
  tqPmu : Vector Nat 8
deriving DecidableEq, Repr

/-- Head, gap and tail of one queue kind in a segment, in played vectors; none is infinite (spec/02, spec/04 R137). -/
structure QFig where
  head : Option Nat
  gap : Option Nat
  tail : Option Nat
deriving DecidableEq, Repr

/-- The figures that the load unit derives (spec/03 R104). -/
structure Figures where
  hems : Nat
  freq : Nat
  succ : List Nat
  cond : List Nat
  conts : List Nat
  hasRet : Bool
  exitMin : Option Nat
  cmpBranch : Bool
  level : QFig
  pmu : QFig
  mk0 : QFig
  mk1 : QFig
deriving DecidableEq, Repr

/-- States of a segment-table entry (spec/03 R103). -/
inductive SegState where
  | empty | opened | verifying | loaded
deriving DecidableEq, Repr

/-- A segment-table entry (spec/03 R103, R123 to R125); base and size in 4 KiB units. -/
structure SegEntry where
  st : SegState
  base : Nat
  size : Nat
  dataOnly : Bool
  eccSeen : Bool
  err : Nat
  fig : Option Figures
deriving DecidableEq, Repr

/-- What a place of the seal queue holds (spec/03 R108): a waiting seal, one whose record needs no verification, the
seal under verification, a record that waits for room. -/
inductive SealState where
  | waiting | noEntry (err : Nat) | verifying | ready (err : Nat)
deriving DecidableEq, Repr

/-- A place of the seal queue. -/
structure Seal where
  seg : Nat
  token : Word
  st : SealState
deriving DecidableEq, Repr

/-- Which queue an entry is for, with its operands (spec/04 R155 to R157). -/
inductive QKind where
  | lvl (opnd : BitVec 40) | pmu (tag : Byte) | tdc (tag : Byte) | mk (m : Bool) (level : Bool) (coarse : Nat)
deriving DecidableEq, Repr

/-- A queue entry on its way, with the placement that raised it (spec/04 R617). -/
structure InFlight where
  kind : QKind
  vec : Nat
  seg : Nat
  off : Nat
  word : DWord
deriving DecidableEq, Repr

/-- A waiting level entry: DAC, code and lanes (spec/07 R252). -/
structure LvlEntry where
  dac : Nat
  code : Nat
  lanes : Word
deriving DecidableEq, Repr

/-- A waiting PMU-trigger entry (spec/04 R156). -/
structure PmuEntry where
  tdc : Bool
  tag : Byte
deriving DecidableEq, Repr

/-- A waiting marker entry: its level and edge instant, in 2^-32 TROOT periods (spec/04 R157). -/
structure MkEntry where
  level : Bool
  instant : Nat
deriving DecidableEq, Repr

/-- A vector on its way to the pins, as the formatter took it (spec/06 R220). -/
structure Played where
  vec : Nat
  seg : Nat
  off : Nat
  ts : Nat
  sched : Nat
  pw : Nat
  sym : Symbols
  again : Bool
deriving DecidableEq, Repr

/-- The failing strobes of one vector until its Spool record is made (spec/08 R293, R301). -/
structure FailVec where
  vec : Nat
  off : Nat
  seg : Nat
  ts : Nat
  lanes : Word
  s0 : Bool
  s1 : Bool
  spill : Bool
  again : Bool
deriving DecidableEq, Repr

/-- A Spool record (spec/08 R301). -/
structure SpoolRec where
  vec : Nat
  off : Nat
  segts : Word
  fail : Word
  flags : Word
  seq : Word
  id : Word
deriving DecidableEq, Repr

/-- The pin states a drive event sets (spec/06 R218). -/
inductive Drive where
  | d0 | d1 | z | term
deriving DecidableEq, Repr

/-- Park modes (spec/05 R188). -/
inductive ParkMode where
  | open | hiz | low | high | hold | term
deriving DecidableEq, Repr

/-- The pin of a lane: its drive state, the park state in force, whether its switch is held open (park OPEN, the safe
state, a Press run, STANDBY), the nominal instant of the last drive event taken, the last one judged (instant, vector, slot)
(spec/06 R222, R223), the placed instants of the last drive event taken, of the last strobe's edge or open and of the last
window's close as its edge generators count them: whole TROOT periods and vernier tap (spec/06 R228). Instants in 2^-32 TROOT
periods. When a strobe unit is busy follows from the vectors taken (spec/06 R224). -/
structure Lane where
  drive : Drive
  park : Option ParkMode
  cut : Bool
  lastEvent : Option Int
  judged : Option (Int × Nat × Nat)
  edge : Option (Int × Nat)
  sampled : Option (Int × Nat)
  closed : Option (Int × Nat)
deriving DecidableEq, Repr

/-- The correction of one level DAC by the last valid Press run: gain in units of 2^-16, offset in codes (spec/07 R250,
assumption 48). -/
structure Corr where
  gain : Nat
  offset : Int
deriving DecidableEq, Repr

/-- The corrections of a PPMU in one range: of what it forces and of what it measures (spec/16 R546). -/
structure PmuCorr where
  force : Corr
  sense : Corr
deriving DecidableEq, Repr

/-- A PPMU setting: mode, range, force code as it is applied (spec/07 R255, R256). -/
structure PpmuSet where
  mode : BitVec 2
  range : BitVec 3
  force : BitVec 16
deriving DecidableEq, Repr

/-- What waits between a DAC tick that took it and the tick that applies it (spec/07 R252, R258). -/
inductive DacItem where
  | level (dac : Nat) (code : Nat) (lanes : Word)
  | ppmu (lane : Fin 32)
  | scopeVoh (lane : Fin 32) (code : Nat)
  | restore
deriving DecidableEq, Repr

/-- A running ADC sequence (spec/07 R262 to R265). -/
structure AdcRun where
  src : BitVec 2
  tag : Byte
  entry : Nat
  taken : Nat
  acc : Nat
  started : Bool
  preempted : Bool
  urgentSpent : Bool
deriving DecidableEq, Repr

/-- A measurement of the TDC from its arm to its end (spec/07 R266, R267). -/
structure TdcRun where
  tag : Byte
  armed : Bool
  started : Bool
  stops : Nat
deriving DecidableEq, Repr

/-- A span in which a strobe unit of a lane is busy, in 2^-32 TROOT periods: from a strobe's edge or open up to what ends it
(spec/06 R224). -/
structure UnitSpan where
  lane : Fin 32
  unit : Fin 2
  start : Int
  close : Int
deriving DecidableEq, Repr

/-- States of the scope engine (spec/08 R333). -/
inductive ScopeState where
  | idle | settle | sampling | done | cancelled | abandoned
deriving DecidableEq, Repr

/-- The scope engine: row, point, hits so far and their count, the sample instant of the trigger taken and whether it was
forced, the lane's VOH code at ARM, the counts of row TRIGROW so far, the first vector whose strobes give results again after an acquisition and the lane of that
acquisition (spec/08 R312 to R316). -/
structure Scope where
  st : ScopeState
  row : Nat
  point : Nat
  hit : Nat
  count : Nat
  trig : Option Int
  forced : Bool
  savedVoh : Nat
  counts : List Nat
  resume : Nat
  muted : Nat
deriving DecidableEq, Repr

/-- Roles of a synthesizer (spec/06 R207). -/
inductive SynthRole where
  | active | standby | recovering
deriving DecidableEq, Repr

/-- The two synthesizers: roles, which is active or takes over next, the frequency word at which each runs, a hand-over that
waits for its seam time: the first vector of the segment entered and its frequency word (spec/06 R207 to R213). -/
structure Synths where
  a : SynthRole
  b : SynthRole
  useB : Bool
  fa : Nat
  fb : Nat
  seam : Option (Nat × Nat)
deriving DecidableEq, Repr

/-- An uncorrectable stream error whose vector has not come yet (spec/04 R166). -/
structure EccPend where
  data : Bool
  origin : Fin 8
  seg : Nat
  off : Nat
  vec : Nat
  word : DWord
deriving DecidableEq, Repr

/-- The place of a stream error among those of one vector: the lead's control word first, then the members' data. -/
def EccPend.rank (e : EccPend) : Nat := if e.data then 1 + e.origin.val else 0

/-- Where the stream port reads (spec/05 R174, R175): the segment and offset of the next vector, the copy of the stack at that
position, whether the stream ends there, the vectors of a lead-in with its carry that still play from the Bobbin, whether a
restart waits for its first data. -/
structure Ahead where
  seg : Nat
  off : Nat
  stack : List Nat
  done : Bool
  bobbin : Nat
  restart : Bool
deriving DecidableEq, Repr

/-- A control word as the fetch unit presents it to the microcode engine, before any effect of its own: its vector, the entries of
the stack, the loop counters (spec/15 R520, R521). -/
structure MWord where
  word : DWord
  vec : Nat
  sp : Nat
  lc : List Nat
deriving DecidableEq, Repr

/-- What waits for the end of a routine of the microcode: a control word, or a service routine that follows those before it. -/
inductive MItem where
  | word (w : MWord) | service (e : Nat)
deriving DecidableEq, Repr

/-- The microcode engine of a sequencer (spec/15 R518 to R526): the address of its next microword, none where it waits at
DISPATCH; the entry that RESUME returns to; the service routine that runs and the interrupts that wait for its end; the link register,
the branch flag, the control word in progress, how many have begun in the burst, and what waits behind it; the microwords of the
routine whose effects are staged, the effects that the last COMMIT applied (the place of the field in the microword, its encoding). -/
structure Micro where
  addr : Option Nat
  entry : Option Nat
  service : Option Nat
  pend : List Nat
  link : Nat
  flag : Bool
  cur : MWord
  begun : Nat
  queue : List MItem
  staged : List (BitVec 160)
  applied : List (Nat × Nat)
deriving DecidableEq, Repr

/-- The sequencer and the vectors of a burst (spec/04, spec/05 R184, R189). In a gang the lead's is the one that decides;
every other member's follows the same stream (R162). The next vector and its place, plays since the segment was entered, a repeat in progress and one that waits for its vector, timing sets
in force, last played and waiting, stack depth, MW_TIMEOUT, site mask, the scheduled time and period at each change of
period, event edges and trigger times not cleared, what the next run-time hem boundary must do, and the microcode engine. -/
structure Seq where
  vec : Nat
  seg : Nat
  off : Nat
  plays : Nat
  rptLeft : Nat
  rptSet : Nat
  rptOff : Nat
  ts : Nat
  tsPlayed : Nat
  tsets : List (Nat × Nat)
  sp : Nat
  mwTimeout : Bool
  mask : Word
  epochs : List (Nat × Nat × Nat)
  evts : List (Nat × Nat)
  clEvents : List (Nat × Nat)
  hemDue : Bool
  taken : Bool
  halted : Bool
  excRaised : Bool
  ecc : List EccPend
  abortHem : Bool
  spoolStop : Bool
  micro : Micro
deriving DecidableEq, Repr

/-- One slice. -/
structure Slice where
  st : BurstState
  chk : Option Check
  gang : List (Fin 8)
  lead : Fin 8
  recv : Fin 8
  reach : List Nat
  t0 : Nat
  trigArmed : List Nat
  ovrUsed : Bool
  fifo : Nat
  ahead : Ahead
  parked : Bool
  seq : Seq
  window : List (Nat × Fin 32)
  played : List Played
  units : List UnitSpan
  fails : List FailVec
  inflight : List InFlight
  lvlq : List LvlEntry
  pmuq : List PmuEntry
  mkq0 : List MkEntry
  mkq1 : List MkEntry
  mk0 : Bool
  mk1 : Bool
  segs : List (Nat × SegEntry)
  sealq : List Seal
  loaddone : List DWord
  mapLane : Vector (Option (Fin 32)) 32
  mapSlot : Vector (Option Byte) 32
  lanes : Vector Lane 32
  corr : Vector (Vector Corr 7) 32
  ppmuCorr : Vector (Vector PmuCorr 5) 32
  tdcPath : Vector Int 98
  dac : Vector (Vector Nat 7) 32
  ppmu : Vector PpmuSet 32
  ppmuStaged : Word
  ppmuLimit : Word
  dacPipe : List (Nat × DacItem)
  adc : Option AdcRun
  sumRun : Bool
  adcUrgent : Bool
  adcres : List DWord
  tdc : Option TdcRun
  tdcLock : Bool
  tdcres : List DWord
  patched : Bool
  scope : Scope
  synth : Synths
  stage : List SpoolRec
  spSeq : Nat
  bursts : Nat
  csDead : Bool
deriving DecidableEq, Repr

/-! ## SCAN units and the DRC (spec/09, spec/10) -/

/-- States of a SCAN unit (spec/09 R360). -/
inductive ScanState where
  | off | wait | primed | run | fault
deriving DecidableEq, Repr

/-- A SCAN unit: the frame registers in force (FCFG, FVMAX, BASEOFF, BSTRIDE, OVLOFF, OSTRIDE, OVLPOS, OVLSIZE), those of
the frame that plays, the pending requests, the raster's start and place, what the frame has taken, the line buffer with
the lines whose fetch runs (spec/09 R338 to R352). -/
structure Scan where
  st : ScanState
  live : Vector Word 8
  frameLive : Vector Word 8
  commit : Bool
  base : Bool
  ovl : Bool
  primedAt : Nat
  origin : Nat
  lineStart : Nat
  line : Nat
  lastLine : Bool
  newContent : Bool
  ovlTaken : Bool
  ovlEver : Bool
  showOvl : Bool
  fetch : List Nat
  lines : List (Nat × List Byte)
  urgent : Bool
  panic : Bool
deriving DecidableEq, Repr

/-- A rowhammer table: pseudo-channel, SID, bank and up to 32 (row, count) entries, one per place (spec/10 R374). -/
structure RhBank where
  pc : Fin 64
  sid : Fin 3
  bank : Fin 16
  rows : List (Nat × Nat)
deriving DecidableEq, Repr

/-- A granule of a request that waits (spec/10 R363, R364): initiator, address, bytes, the data of a write, the 64-bit word
whose read meets an uncorrectable error, the time of the request, whether it is the first and the last granule. -/
structure HbmReq where
  who : HbmBy
  addr : Nat
  len : Nat
  wr : Option (List Byte)
  ue : Option Nat
  since : Nat
  first : Bool
  last : Bool
deriving DecidableEq, Repr

/-- A repaired row (spec/10 R383): the place as DRC.PPR names it, and whether the repair is hard. -/
structure Repaired where
  place : Word
  hard : Bool
deriving DecidableEq, Repr

/-- The DRC (spec/10): refreshes owed and left in a forced burst per pseudo-channel, the start of each stack's refresh
window, the open row of each bank, rowhammer tables, queued targeted and probabilistic refreshes, the rows that targeted
ones have refreshed in a bank where a probabilistic one waits, the LFSR of their draw, which
characterisation's row order is loaded for each stack, stacks above 85 °C, in self-refresh and under initialisation, a running
repair and the rows repaired, the start of the current panic period and whether its length has been reported, the stacks whose
contents were lost with their domains and that have not come back, whether boot firmware is to write zeros to them, the stacks that
came back with undefined contents, how often one did, and the addresses written in them since (spec/17 R585, R589), granules that wait and whose turn it
is in class 6 of each pseudo-channel. -/
structure Drc where
  owed : Vector Nat 64
  forced : Vector Nat 64
  window : Vector Nat 2
  openRows : List (Fin 64 × Fin 3 × Fin 16 × Nat)
  banks : List RhBank
  targeted : List (Fin 64 × Fin 3 × Fin 16 × Nat)
  prob : List (Fin 64 × Fin 3 × Fin 16 × Nat)
  covered : List (Fin 64 × Fin 3 × Fin 16 × Nat)
  lfsr : Word
  order : Vector (Option Nat) 2
  hot : Vector Bool 2
  selfRefresh : Vector Bool 2
  initBusy : Vector Bool 2
  ppr : Option Word
  repaired : List Repaired
  panicSince : Option Nat
  panicTold : Bool
  lost : Vector Bool 2
  fill : Bool
  bare : Vector Bool 2
  bareCount : Vector Nat 2
  written : List Nat
  waiting : List HbmReq
  turn : Vector Nat 64
deriving DecidableEq, Repr

/-! ## Site cores and the Dispatcher (spec/11) -/

/-- A waiting task: descriptor, initiator, FAB cycle of its push (spec/11 R406). -/
structure Task where
  desc : DWord
  by_ : Initiator
  fab : Nat
deriving DecidableEq, Repr

/-- The control and status registers of a site core that hold state (spec/11 R396, assumption 29). -/
structure Csrs where
  mstatus : DWord
  mtvec : DWord
  mscratch : DWord
  mepc : DWord
  mcause : DWord
  mtval : DWord
  mie : DWord
  mcounteren : DWord
  mcountinhibit : DWord
  menvcfg : DWord
  mcycle : DWord
  minstret : DWord
  pmpcfg : Vector Byte 8
  pmpaddr : Vector DWord 8
deriving DecidableEq, Repr

/-- A site core (spec/11 R396 to R409): pc, mode, registers, CSRs, the reservation of an LR (address and size), the lines of
its instruction and data caches (64 bytes at an address, newest first), its timer compare and timer interrupt, the task it
holds, since when it waits at its GET port with the register and length of the load that waits, the last load result, whether an
uncorrectable error stopped it, local SRAM. -/
structure CoreSt where
  pc : DWord
  machineMode : Bool
  x : Vector DWord 32
  csr : Csrs
  rsv : Option (Nat × Nat)
  icache : List (Nat × List Byte)
  dcache : List (Nat × List Byte)
  mtimecmp : DWord
  mtip : Bool
  hold : Option DWord
  waiting : Option Nat
  waitRd : Option (Fin 32 × Nat)
  loadData : DWord
  halted : Bool
  sram : List Host.Cell
deriving DecidableEq, Repr

/-- The Dispatcher: waiting tasks in push order, the deficit round robin of each level (spec/11 R408), whether a store failed and
is not re-initialised yet (spec/16 R545). -/
structure Disp where
  waiting : List Task
  ptr : Vector Nat 16
  deficit : Vector (Vector Nat 8) 16
  down : Bool
deriving DecidableEq, Repr

/-! ## Clothesline (spec/12) and time (spec/13) -/

/-- States of a port (spec/12 R430). -/
inductive PortState where
  | disabled | probe | align | handshake | switch | measure | active | recover | down | loopback
deriving DecidableEq, Repr

/-- Roles of a port in the tree (spec/12 R450). -/
inductive Role where
  | none | up | down | alt
deriving DecidableEq, Repr

/-- The payload of a frame (spec/12 R432, R434, R439, R443, R445; spec/13 R462, R468). A DRESP keeps t2 beside what it carries, for
a resend (spec/13 R461). -/
inductive Payload where
  | hello (version : Byte) (trusted rxok drive : Bool) (swdly : Nat) (serial : DWord)
  | discover (gen : Word) (depth : Nat) | join (gen : Word) | alt (gen : Word)
  | report (gen : Word) (serial : DWord) (hint : BitVec 12) | fin (gen : Word) (count : Nat) (overflow : Bool)
  | assign (gen : Word) (serial : DWord) (index : BitVec 12) | done (gen : Word) | change (gen : Word)
  | adopt (gen : Word)
  | trig (num : Byte) (tm : DWord)
  | sync (prio : Byte) (hops : Nat) (sseq : Word) (serial : DWord) (tick : DWord) (tap : Byte)
  | dreq (num : Byte) | dresp (num : Byte) (t2 : Int) (turn : Nat) | late (num : Byte) (index : BitVec 12) (behind : Int)
  | summary (vec : DWord) (map : BitVec 256) (tag : Byte) (slices : Byte)
  | regrd (tag : BitVec 6) (off : Nat) | regwr (tag : BitVec 6) (off : Nat) (data : Word)
  | regrsp (tag : BitVec 6) (off : Nat) (status : BitVec 2) (data : Word)
deriving DecidableEq, Repr

/-- A frame to send or kept for replay (spec/12 R434, R435). -/
structure Frame where
  seq : BitVec 12
  dst : BitVec 12
  src : BitVec 12
  bcast : Bool
  urg : Bool
  load : Payload
deriving DecidableEq, Repr

/-- One receive lane: LOS, LOL, block lock, the count of valid headers in HUNT, the block and bad-header counts of the window in
LOCKED, and the block slot of the last ALIGN since the lock (spec/12 R427 to R429). -/
structure RxLane where
  los : Bool
  lol : Bool
  blk : Bool
  good : Nat
  blocks : Nat
  bad : Nat
  alignAt : Option Nat
deriving DecidableEq, Repr

/-- One port (spec/12 R424 to R441): training state, a single attempt from DOWN, FCK, the lanes, the direction
changes to EMBEDDED and their announced block counts, valid HELLOs, RDY sent and seen, sequence numbers, replay buffer,
waiting frames and summary, the NAK and ACK in hand, fruitless resends, PEER tokens, the round trips measured, the link-delay
exchanges without an answer (number, t1), the last number and how many were started, the role and its generation, whether the port was ACTIVE when its change was last announced. -/
structure Port where
  st : PortState
  single : Bool
  fckOk : Bool
  lane : Vector RxLane 2
  txEmb : Bool
  rxEmb : Bool
  helloAny : Bool
  helloRun : Nat
  swTx : Nat
  swRx : Nat
  rdySent : Bool
  rdySeen : Bool
  txseq : BitVec 12
  rxseq : BitVec 12
  sent : List Frame
  wait : List Frame
  sum : Option Frame
  nakSent : Bool
  unacked : Nat
  resends : Nat
  tokens : Vector Nat 3
  rtts : List Int
  exch : List (Byte × Int)
  exchNum : Byte
  exchCount : Nat
  role : Role
  roleGen : Option Word
  wasActive : Bool
deriving DecidableEq, Repr

/-- Enumeration (spec/12 R444 to R447): up port, the ports that owe an answer or a FIN, what FIN brought, the serial
numbers, hints and indices reported below each port. -/
structure Enum where
  gen : Word
  valid : Bool
  isDone : Bool
  ivalid : Bool
  depth : Nat
  index : BitVec 12
  up : Option (Fin 4)
  pend : List (Fin 4)
  fin : List (Fin 4)
  finSent : Bool
  count : Nat
  ovf : Bool
  below : List (Fin 4 × DWord × BitVec 12)
  assigned : List (DWord × BitVec 12)
  devices : Nat
deriving DecidableEq, Repr

/-- Roles of the time unit (spec/13 R477). -/
inductive TimeRole where
  | none | master | follower | holdover
deriving DecidableEq, Repr

/-- What a port last heard of a master (spec/13 R463): PRIO, serial, HOPS, SSEQ, and the clock at which it came. -/
structure Heard where
  prio : Byte
  serial : DWord
  hops : Nat
  sseq : Word
  clock : Nat
deriving DecidableEq, Repr

/-- A transmit stamp (spec/13 R484). -/
structure TxStamp where
  id : BitVec 16
  port : Fin 2
  stamp : PhcTime
deriving DecidableEq, Repr

/-- A pending trigger: number, action time, issuer, the PEER port it came in by (spec/13 R470). -/
structure Trig where
  num : Byte
  tm : DWord
  src : BitVec 12
  via : Option (Fin 4)
deriving DecidableEq, Repr

/-- The time unit (spec/13): TICK, role and source, what each port heard, this device's own SYNC count as a master and the
last SSEQ forwarded, the last 16 offsets, the offset left to slew and the phase slewed that TICK does not show yet, in taps, pending triggers, the PHC with
48 fraction bits, the servo, the run of agreeing XO estimates (spec/07 R269), the stamp queue. -/
structure Time where
  tick : DWord
  mtimeHeld : DWord
  role : TimeRole
  src : Fin 4
  srcValid : Bool
  heard : Vector (Option Heard) 4
  master : Option (Byte × DWord)
  sseq : Option Word
  fwd : Option Word
  hops : Nat
  offsets : List Int
  slew : Int
  phase : Int
  diverged : Bool
  pend : List Trig
  phcSec : DWord
  phcNs : Nat
  phcFrac : Nat
  setPending : Bool
  adj : Int
  servoI : Int
  discCount : Nat
  discLast : Int
  txts : List TxStamp
deriving DecidableEq, Repr

/-! ## Host, management (spec/14), patches (spec/15), faults (spec/16), power (spec/17) -/

/-- A region of pattern memory in force (spec/03 R91), in 2 MiB units. -/
structure Region where
  kind : Nat
  index : Nat
  base : Nat
  size : Nat
deriving DecidableEq, Repr

/-- Progress of a DMA channel's descriptor (spec/14 R493, R494): the descriptor, bytes and chunks moved, the code it ends
with, whether its seal is still to be taken, whether nothing is left to move. -/
structure DmaRun where
  desc : DmaDesc
  moved : Nat
  chunks : Nat
  code : Nat
  sealDue : Bool
  finished : Bool
deriving DecidableEq, Repr

/-- A mailbox command that a partition reset took from its mailbox (spec/14 R489): its operation and length, and the words of its
request where the controller has not begun it. -/
structure Orphan where
  op : Nat
  len : Nat
  req : Option (List Word)
deriving DecidableEq, Repr

/-- A mailbox (spec/14 R499): the operation and length of the command in progress, and those that a partition reset took from it,
which run to their end in the controller first (R489). -/
structure Mbox where
  op : Option (Nat × Nat)
  orphans : List Orphan
deriving DecidableEq, Repr

/-- The remote request of the mailbox (spec/14 R500): destination, TAG, offset, and the status and data it ended with. -/
structure Remote where
  dst : BitVec 12
  tag : BitVec 6
  off : Nat
  res : Option (Nat × Word)
deriving DecidableEq, Repr

/-- The firmware slots, false A and true B (spec/14 R501, spec/17 R587): which runs, which is a trial and whether it was
booted, which is confirmed, a write of the other one in progress (image size, bytes written), the SVN of the running image, the
fault for which an image is marked invalid, 0 for A and 1 for B (status 2 SIGNATURE, 3 ROLLBACK, 0 no mark), the fuse counter
once it was raised, the bytes written to the SPI NOR (slot B from 16 MiB up). -/
structure Slots where
  run : Option Bool
  trial : Option Bool
  bootedOnce : Bool
  confirmed : Bool
  writing : Option Nat
  written : Nat
  runSvn : Nat
  invalid : Vector Nat 2
  svn : Option Nat
  nor : List Host.Cell
deriving DecidableEq, Repr

/-- A loaded patch: microwords and trap entries (spec/15 R526, R527). -/
structure Patch where
  words : List (BitVec 160)
  traps : List Word
deriving DecidableEq, Repr

/-- A Hamper record (spec/16 R540). -/
structure HRec where
  tick : DWord
  source : Nat
  cls : Nat
  wire : Bool
  injected : Bool
  lostBefore : Bool
  noTime : Bool
  count : Word
  detail : DWord
  seq : Word
deriving DecidableEq, Repr

/-- A source that shows an error or equal rails now (a broken wire stays so until it is repaired), and when it last made a record
(spec/16 R536, R541). -/
structure HSrc where
  src : Nat
  active : Bool
  wire : Bool
  lastRec : Option Nat
deriving DecidableEq, Repr

/-- Hamper (spec/16 R536 to R544). -/
structure Hamper where
  queue : List HRec
  seq : Nat
  lostBefore : Bool
  srcs : List HSrc
  inject : Option (BitVec 2 × Nat)
  first : Option HRec
  last : Option HRec
  fatal1 : Option HRec
  fatal2 : Option HRec
  faultLog : List (HRec × PhcTime)
deriving DecidableEq, Repr

/-- The phases of a Press run that State tells apart (spec/16 R549). -/
inductive PressPhase where
  | off | running | restore | restored
deriving DecidableEq, Repr

/-- What the checks of a Press run have found (spec/16 R550): the new values, which come into force at its end, or the first check
that failed and its lane. -/
inductive PressEnd where
  | pass (deskew : Vector Word 32) (levels : Vector (Vector Corr 7) 32) (tdc : Vector Int 98)
      (ppmu : Vector (Vector PmuCorr 5) 32)
  | fail (code lane : Nat)
deriving DecidableEq, Repr

/-- Press of one slice: phase, a request that waits, whether its READY bit waits for a run to end, whether no run has ended since boot, the temperature
at the start of the run, what its checks have found, when the slice became IDLE (spec/16 R547 to R552). -/
structure PressSl where
  phase : PressPhase
  want : Bool
  firstRun : Bool
  untried : Bool
  startTemp : BitVec 16
  found : Option PressEnd
  idleSince : Nat
deriving DecidableEq, Repr

/-- An entry of the repair log in MRAM (spec/16 R561): a failing row or column of a macro with its spare, the source that found it
and the PHC seconds at logging; or a row of a stack after a post-package repair (spec/10 R383). -/
inductive RepairEntry where
  | sram (macro_ : Nat) (column : Bool) (spare : Nat) (element : Nat) (source : Nat) (sec : DWord)
  | hbm (row : Repaired) (sec : DWord)
deriving DecidableEq, Repr

/-- Self-test: the full BIST in progress with its target and whether the target's READY bit was 1, the rinse step in
progress, when each of them began, the next place of the rinse cycle, the READY bits that a failed step or an exhausted repair holds at 0, the
nonce's draw, the life-cycle state once a transition has changed it, a token under verification with the draw of its
nonce, the repair log in MRAM, the entries blown into fuses and those of them in force since the last power-on (spec/16 R554 to
R563). -/
structure Bist where
  full : Option (Nat × Nat × Bool)
  rinse : Option (Nat × Nat)
  fullAt : Nat
  rinseAt : Nat
  next : Nat
  held : Word
  exhausted : Word
  draws : Nat
  lcBlown : Option (BitVec 3)
  fieldDiag : Bool
  token : Option (BitVec 1024 × Nat)
  log : List RepairEntry
  fused : List RepairEntry
  inForce : List RepairEntry
deriving DecidableEq, Repr

/-- Power states (spec/17 R593). -/
inductive PwrState where
  | active | entering | standby | exiting
deriving DecidableEq, Repr

/-- Power, root reference, rails, interlock (spec/01 R44 to R50, spec/14 R506 to R508, spec/17 R578 to R588): PWRGOOD,
VAON, rails judged in range, the power state, an exit asked for during entry, the step of an exit, the READY bits that an
exit sets again, the PE dies off and a request for that kept through STANDBY, the references, the root PLL, SAFE_PINS, the
interlock inputs and its hold, the fatal latch, AON on its backup oscillator. -/
structure Power where
  on : Bool
  vaon : Bool
  rails : Bool
  st : PwrState
  exitAsked : Bool
  exitStep : Nat
  saved : Word
  peOff : Bool
  peAsk : Bool
  refOk : Bool
  xoOk : Bool
  rootSrc : BitVec 2
  rootLock : Bool
  sbSafe : Bool
  ilkA : Bool
  ilkB : Bool
  ilkHold : Bool
  fatal : Bool
  backupOsc : Bool
deriving DecidableEq, Repr

/-- What the block sends out of itself: MSI-X, AER, DMA writes to the host, frames, blocks, markers of the SMBus. -/
inductive OutEvent where
  | msix (fn : Fin 8) (vector : Nat) | aerFatal | aerHost (fn : Fin 8) | hostWrite (addr : Nat) (bytes : List Byte)
  | clFrame (p : Fin 4) (f : Frame) | clAck (p : Fin 4) (seq : BitVec 12) | clNak (p : Fin 4) (seq : BitVec 12)
  | clAlign (p : Fin 4) | clTrain (p : Fin 4) | clIdle (p : Fin 4) | clRecover (p : Fin 4) (rdy : Bool) (swdly : Nat)
  | ethFrame (e : Fin 2) (bytes : List Byte) | smbus (bytes : List Byte)
deriving DecidableEq, Repr

/-- A received Ethernet frame that waits for the stacks to serve its port (spec/14 R504, spec/01 R53). -/
structure EthFrame where
  port : Fin 2
  bytes : List Byte
  stamp : Option PhcTime
  ecc : Bool
deriving DecidableEq, Repr

/-- The register words, sparse: byte address and word, rising, no entry equal to the word's reset value. -/
abbrev RegFile := List (Nat × Word)

/-- The state of the block. `wasReady`: the READY bits that have been 1 since the fields marked boot were last reset
(spec/00 R20). `caps`: which optional features the fuses name: SCAN units 0 to 3, Clothesline ports 4 to 7, Ethernet ports 8
and 9, SR-IOV 10, PTP servo 11, patch facility 12 (spec/00 R33, spec/14 R490). -/
structure State where
  pending : List Instr
  regs : RegFile
  mem : List Host.Cell
  ready : Word
  wasReady : Word
  caps : BitVec 13
  sl : Vector Slice 8
  scan : Vector Scan 4
  drc : Drc
  cores : Vector CoreSt 8
  disp : Disp
  port : Vector Port 4
  enum : Enum
  time : Time
  region : Vector Region 32
  dma : Vector (Option DmaRun) 16
  dmaNext : Nat
  dmaStalled : Word
  mbox : Vector Mbox 8
  remote : Option Remote
  remoteTag : BitVec 6
  slots : Slots
  ethLink : Vector Bool 2
  patch : Option Patch
  patchLoading : Bool
  hamper : Hamper
  press : Vector PressSl 8
  bist : Bist
  power : Power
  shadow : Vector (Option (Nat × Word)) 18
  sumrx : List (List Word)
  busData : DWord
  busErr : Bool
  ethHeld : List EthFrame
  free : Nat
  clock : Nat
  out : List OutEvent
deriving DecidableEq, Repr

/-! ## After reset -/

/-- At the start of a service routine, or at DISPATCH (spec/15 R518). -/
def Micro.reset : Micro := ⟨none, none, none, [], 0, false, ⟨0, 0, 0, []⟩, 0, [], [], []⟩

def Seq.reset : Seq where
  vec := 0; seg := 0; off := 0; plays := 0; rptLeft := 0; rptSet := 0; rptOff := 0; ts := 0; tsPlayed := 0
  tsets := []; sp := 0; mwTimeout := false; mask := 0; epochs := []; evts := []; clEvents := []; hemDue := false
  taken := false; halted := false; excRaised := false; ecc := []; abortHem := false; spoolStop := false
  micro := Micro.reset

def Lane.reset : Lane := ⟨.z, none, true, none, none, none, none, none⟩

def Ahead.reset : Ahead := ⟨0, 0, [], false, 0, false⟩

/-- PPMU off, FORCE = 0x8000 (spec/07 R243, R276). -/
def PpmuSet.reset : PpmuSet := ⟨0, 0, 0x8000⟩

/-- Synthesizers after reset: both recover, A takes over next, 100 MHz (spec/06 R209, R213, R232). -/
def Synths.reset : Synths := ⟨.recovering, .recovering, false, 0x02000000, 0x02000000, none⟩

def Scope.reset : Scope := ⟨.idle, 0, 0, 0, 0, none, false, 0x8000, [], 0, 0⟩

def Slice.reset : Slice where
  st := .idle; chk := none; gang := []; lead := 0; recv := 0; reach := []; t0 := 0; trigArmed := []; ovrUsed := false; fifo := 0; ahead := Ahead.reset; parked := true
  seq := Seq.reset; window := []; played := []; units := []; fails := []; inflight := []; lvlq := []; pmuq := []; mkq0 := []
  mkq1 := []; mk0 := false; mk1 := false; segs := []; sealq := []; loaddone := []
  mapLane := Vector.replicate 32 none; mapSlot := Vector.replicate 32 none
  lanes := Vector.replicate 32 Lane.reset; corr := Vector.replicate 32 (Vector.replicate 7 ⟨65536, 0⟩)
  ppmuCorr := Vector.replicate 32 (Vector.replicate 5 ⟨⟨65536, 0⟩, ⟨65536, 0⟩⟩); tdcPath := Vector.replicate 98 0
  dac := Vector.replicate 32 (Vector.replicate 7 0x8000); ppmu := Vector.replicate 32 PpmuSet.reset; ppmuStaged := 0; ppmuLimit := 0
  dacPipe := []; adc := none; sumRun := false; adcUrgent := false; adcres := []; tdc := none; tdcLock := false
  tdcres := []; patched := false; scope := Scope.reset; synth := Synths.reset; stage := []; spSeq := 0; bursts := 0
  csDead := false

def Scan.reset : Scan where
  st := .off; live := Vector.replicate 8 0; frameLive := Vector.replicate 8 0; commit := false; base := false
  ovl := false; primedAt := 0; origin := 0; lineStart := 0; line := 0; lastLine := false; newContent := false
  ovlTaken := false; ovlEver := false; showOvl := false; fetch := []; lines := []; urgent := false; panic := false

def Drc.reset : Drc where
  owed := Vector.replicate 64 0; forced := Vector.replicate 64 0; window := Vector.replicate 2 0; openRows := []; banks := []
  targeted := []; prob := []; covered := []; lfsr := 0; order := Vector.replicate 2 none; hot := Vector.replicate 2 false; selfRefresh := Vector.replicate 2 false
  initBusy := Vector.replicate 2 false; ppr := none; repaired := []; panicSince := none; panicTold := false
  lost := Vector.replicate 2 true; fill := true; bare := Vector.replicate 2 false; bareCount := Vector.replicate 2 0; written := []; waiting := []; turn := Vector.replicate 64 0

/-- Interrupts off, PMP off; the rest of the CSRs 0 (assumption 29). -/
def Csrs.reset : Csrs where
  mstatus := 0; mtvec := 0; mscratch := 0; mepc := 0; mcause := 0; mtval := 0; mie := 0; mcounteren := 0; mcountinhibit := 0
  menvcfg := 0; mcycle := 0; minstret := 0; pmpcfg := Vector.replicate 8 0; pmpaddr := Vector.replicate 8 0

def CoreSt.reset : CoreSt where
  pc := 0; machineMode := true; x := Vector.replicate 32 0; csr := Csrs.reset; rsv := none; icache := []; dcache := []
  mtimecmp := 0; mtip := false; hold := none; waiting := none; waitRd := none; loadData := 0; halted := false; sram := []

/-- Every pointer 7, every deficit 0 (spec/11 R408). -/
def Disp.reset : Disp := ⟨[], Vector.replicate 16 7, Vector.replicate 16 (Vector.replicate 8 0), false⟩

def RxLane.reset : RxLane := ⟨false, false, false, 0, 0, 0, none⟩

def Port.reset : Port where
  st := .disabled; single := false; fckOk := false; lane := Vector.replicate 2 RxLane.reset
  txEmb := false; rxEmb := false; helloAny := false; helloRun := 0; swTx := 0; swRx := 0; rdySent := false
  rdySeen := false; txseq := 0; rxseq := 0; sent := []; wait := []; sum := none; nakSent := false; unacked := 0
  resends := 0; tokens := ⟨#[16, 8, 4], rfl⟩; rtts := []; exch := []; exchNum := 0; exchCount := 0; role := .none; roleGen := none
  wasActive := false

def Enum.reset : Enum where
  gen := 0; valid := false; isDone := false; ivalid := false; depth := 0; index := 0; up := none; pend := []; fin := []
  finSent := false; count := 0; ovf := false; below := []; assigned := []; devices := 0

def Time.reset : Time where
  tick := 0; mtimeHeld := 0; role := .none; src := 0; srcValid := false; heard := Vector.replicate 4 none
  master := none; sseq := none; fwd := none; hops := 0; offsets := []; slew := 0; phase := 0; diverged := false; pend := []
  phcSec := 0; phcNs := 0; phcFrac := 0; setPending := false; adj := 0; servoI := 0; discCount := 0; discLast := 0
  txts := []

def Mbox.reset : Mbox := ⟨none, []⟩

/-- The SPI NOR as the module first powers up: slot A confirmed, nothing on trial, nothing written since (assumption 14). -/
def Slots.reset : Slots := ⟨none, none, false, false, none, 0, 0, Vector.replicate 2 0, none, []⟩

def Hamper.reset : Hamper := ⟨[], 0, false, [], none, none, none, none, none, []⟩

def PressSl.reset : PressSl := ⟨.off, false, true, true, 0, none, 0⟩

def Bist.reset : Bist := ⟨none, none, 0, 0, 0, 0, 0, 0, none, false, none, [], [], []⟩

/-- VAON has risen, PWRGOOD is high, no rail has been judged yet; the interlock reads OPEN, and SAFE 0 (spec/14 R513). -/
def Power.reset : Power where
  on := true; vaon := true; rails := false; st := .active; exitAsked := false; exitStep := 0; saved := 0; peOff := false
  peAsk := false; refOk := false; xoOk := false; rootSrc := 0; rootLock := false; sbSafe := false; ilkA := false
  ilkB := true; ilkHold := false; fatal := false; backupOsc := false

/-- The block right after power-on reset with VAON rising (spec/17 R577): every register at its reset value, every unit
as its chapter leaves it, pattern memory listing nothing. -/
def State.reset : State where
  pending := []; regs := []; mem := []; ready := 0; wasReady := 0; caps := BitVec.allOnes 13
  sl := Vector.replicate 8 Slice.reset; scan := Vector.replicate 4 Scan.reset; drc := Drc.reset
  cores := Vector.replicate 8 CoreSt.reset; disp := Disp.reset; port := Vector.replicate 4 Port.reset
  enum := Enum.reset; time := Time.reset; region := Vector.replicate 32 ⟨0, 0, 0, 0⟩
  dma := Vector.replicate 16 none; dmaNext := 0; dmaStalled := 0; mbox := Vector.replicate 8 Mbox.reset; remote := none
  remoteTag := 0
  slots := Slots.reset; ethLink := Vector.replicate 2 false; patch := none; patchLoading := false
  hamper := Hamper.reset; press := Vector.replicate 8 PressSl.reset; bist := Bist.reset; power := Power.reset
  shadow := Vector.replicate 18 none; sumrx := []; busData := 0; busErr := false; ethHeld := []; free := 0; clock := 0; out := []

end Sys2Proof.Machine
end

