-- ==== Sys2Proof/Machine/Ops.lean ====
section
/-! DEFINITION. The operations every unit uses: bit fields, register words, pattern memory bytes, one slice or port at
a time, the initiator's ACCERR copy, free values, interrupts. -/

namespace Sys2Proof.Machine

open Sys2Proof

/-! ## Numbers -/

/-- Bits [lo + w - 1 : lo] of a number. -/
def bitsOf (v lo w : Nat) : Nat := v / 2 ^ lo % 2 ^ w

/-- A number with bits [lo + w - 1 : lo] replaced. -/
def withBits (v lo w x : Nat) : Nat :=
  v % 2 ^ lo + x % 2 ^ w * 2 ^ lo + v / 2 ^ (lo + w) * 2 ^ (lo + w)

/-- Bit i of a number. -/
def bitOf (v i : Nat) : Bool := bitsOf v i 1 == 1

/-- A Bool as a bit. -/
def b2n (b : Bool) : Nat := if b then 1 else 0

/-- A number of w bits in two's complement as an integer. -/
def signed (v w : Nat) : Int := if v < 2 ^ (w - 1) then (v : Int) else (v : Int) - (2 ^ w : Nat)

/-- An integer as w bits in two's complement. -/
def unsignedOf (i : Int) (w : Nat) : Nat := (i % (2 ^ w : Nat)).toNat

/-- Quotient rounded up. -/
def ceilDiv (a b : Nat) : Nat := (a + b - 1) / b

/-- The numbers of the set bits of a mask below w, rising. -/
def bitList (v w : Nat) : List Nat := (List.range w).filter fun i => bitOf v i

/-- The mask of a list of bit numbers. -/
def maskOf (l : List Nat) : Nat := l.foldl (fun m i => if bitOf m i then m else m + 2 ^ i) 0

/-! ## Register words (spec/00 R15, R20) -/

/-- The indices of an offset from a register's base, by its (count, stride) list; none where no instance lies there. -/
def dimsAt : List (Nat × Nat) → Nat → Option (List Nat)
  | [], o => if o = 0 then some [] else none
  | (c, st) :: ds, o =>
    match dimsAt ds (o % st) with
    | some ix => if o / st < c then some (o / st :: ix) else none
    | none => none

/-- The register that holds the word at a 4-aligned BAR0 offset, its instance, and whether it is its high word. -/
def Reg.findIn : List Reg → Nat → Option (Reg × List Nat × Bool)
  | [], _ => none
  | r :: rs, a =>
    let d := r.desc
    if a < d.base then Reg.findIn rs a
    else match dimsAt d.dims (a - d.base) with
      | some ix => some (r, ix, false)
      | none =>
        if d.wide && decide (d.base + 4 ≤ a) then
          match dimsAt d.dims (a - d.base - 4) with
          | some ix => some (r, ix, true)
          | none => Reg.findIn rs a
        else Reg.findIn rs a

/-- The register of a BAR0 offset (spec/00 R17, R32). -/
def Reg.find (a : Nat) : Option (Reg × List Nat × Bool) := Reg.findIn (Reg.ofBlock a) a

/-- The reset value of a whole register: its fields' reset values (spec/00 R20). -/
def Reg.resetVal (r : Reg) : Nat := r.desc.fields.foldl (fun v f => withBits v f.lo f.w f.reset) 0

/-- The reset value of the word at a byte address. -/
def resetWord (a : Nat) : Word :=
  match Reg.find a with
  | some (r, _, false) => BitVec.ofNat 32 r.resetVal
  | some (r, _, true) => BitVec.ofNat 32 (r.resetVal / 2 ^ 32)
  | none => 0

/-- The word listed at an address, else the word an unlisted address reads as. -/
def RegFile.get : RegFile → Nat → Word → Word
  | [], _, d => d
  | (b, v) :: m, a, d => if b = a then v else RegFile.get m a d

/-- The list with an entry added where its address belongs. -/
def RegFile.insert : RegFile → Nat → Word → RegFile
  | [], a, v => [(a, v)]
  | (b, w) :: m, a, v => if a ≤ b then (a, v) :: (b, w) :: m else (b, w) :: RegFile.insert m a v

/-- The word at an address replaced; a word equal to what an unlisted address reads as is not listed. -/
def RegFile.put (m : RegFile) (a : Nat) (v d : Word) : RegFile :=
  let r := m.filter fun e => e.1 ≠ a
  if v = d then r else RegFile.insert r a v

/-- The stored word at an address. -/
def State.reg (s : State) (a : Nat) : Word := RegFile.get s.regs a (resetWord a)

/-- The state with the stored word at an address replaced. -/
def State.setReg (s : State) (a : Nat) (v : Word) : State := { s with regs := RegFile.put s.regs a v (resetWord a) }

/-- A field of the stored registers. -/
def State.rd (s : State) (f : Fld) : Nat :=
  if 32 ≤ f.lo then bitsOf (s.reg (f.addr + 4)).toNat (f.lo - 32) f.w
  else if f.lo + f.w ≤ 32 then bitsOf (s.reg f.addr).toNat f.lo f.w
  else bitsOf ((s.reg f.addr).toNat + (s.reg (f.addr + 4)).toNat * 2 ^ 32) f.lo f.w

/-- Whether a field is not 0. -/
def State.on (s : State) (f : Fld) : Bool := s.rd f != 0

/-- The state with a field of the stored registers replaced by the value's low bits. -/
def State.wr (s : State) (f : Fld) (v : Nat) : State :=
  if 32 ≤ f.lo then s.setReg (f.addr + 4) (BitVec.ofNat 32 (withBits (s.reg (f.addr + 4)).toNat (f.lo - 32) f.w v))
  else if f.lo + f.w ≤ 32 then s.setReg f.addr (BitVec.ofNat 32 (withBits (s.reg f.addr).toNat f.lo f.w v))
  else
    let x := withBits ((s.reg f.addr).toNat + (s.reg (f.addr + 4)).toNat * 2 ^ 32) f.lo f.w v
    (s.setReg f.addr (BitVec.ofNat 32 x)).setReg (f.addr + 4) (BitVec.ofNat 32 (x / 2 ^ 32))

/-- Several fields, one after the other. -/
def State.wrs (s : State) (l : List (Fld × Nat)) : State := l.foldl (fun s e => s.wr e.1 e.2) s

/-- A counter field that adds and stops at its largest value. -/
def State.addSat (s : State) (f : Fld) (k : Nat) : State := s.wr f (min (s.rd f + k) (2 ^ f.w - 1))

/-- Every stored register word whose address meets the test back at its reset value. -/
def State.resetRegs (s : State) (p : Nat → Bool) : State := { s with regs := s.regs.filter fun e => !p e.1 }

/-- Every listed register word whose address meets the test passed through a function that keeps reset values. -/
def State.mapRegs (s : State) (p : Nat → Bool) (f : Word → Word) : State :=
  { s with regs := s.regs.filterMap fun e =>
      bif p e.1 then (if f e.2 = resetWord e.1 then none else some (e.1, f e.2)) else some e }

/-- Whether an address lies in the span of `len` bytes from a base. -/
def inSpan (base len a : Nat) : Bool := decide (base ≤ a) && decide (a < base + len)

/-! ## Pattern memory (spec/03 R89) -/

/-- Bytes of pattern memory: 48 GiB. -/
def memBytes : Nat := 0xC00000000

/-- What a byte that nothing has written reads as: every region is filled with zeros at reset (spec/17 R585). -/
def memBlank : Byte := 0

/-- The byte listed at an address, else the blank byte. -/
def Memory.get : List Host.Cell → Nat → Byte
  | [], _ => memBlank
  | (b, v) :: m, a => if b = a then v else Memory.get m a

/-- The list with a cell added where its address belongs. -/
def Memory.insert : List Host.Cell → Nat → Byte → List Host.Cell
  | [], a, v => [(a, v)]
  | (b, w) :: m, a, v => if a ≤ b then (a, v) :: (b, w) :: m else (b, w) :: Memory.insert m a v

/-- One byte written, in canonical form. -/
def Memory.put (m : List Host.Cell) (a : Nat) (v : Byte) : List Host.Cell :=
  let r := m.filter fun e => e.1 ≠ a
  if v = memBlank then r else Memory.insert r a v

/-- Bytes written from an address upward. -/
def Memory.putAll : List Host.Cell → Nat → List Byte → List Host.Cell
  | m, _, [] => m
  | m, a, v :: vs => Memory.putAll (Memory.put m a v) (a + 1) vs

/-- The canonical form: addresses rising, no cell blank. -/
abbrev Memory.wf (m : List Host.Cell) : Prop :=
  m.Pairwise (fun x y => x.1 < y.1) ∧ ∀ c ∈ m, c.2 ≠ memBlank

/-- The pseudo-channel number of an address (spec/10 R362). -/
def pcOf (a : Nat) : Nat := Nat.xor (a / 256 % 64) (a / 2 ^ 14 % 64)

/-- The stack of an address. -/
def stackOf (a : Nat) : Fin 2 := Fin.ofNat 2 (pcOf a / 32)

/-- Whether the byte at an address is undefined since its stack came back (spec/17 R589). -/
def Drc.bareAt (d : Drc) (a : Nat) : Bool := d.bare[stackOf a] && !d.written.contains a

/-- Bytes from an address upward no longer undefined. -/
def Drc.wrote (d : Drc) (a len : Nat) : Drc :=
  { d with written := d.written ++ ((List.range len).map (a + ·)).filter d.bareAt }

/-- A byte of pattern memory; an undefined one is a free value of its address (assumption 6). -/
def State.byte (s : State) (a : Nat) : Byte := if s.drc.bareAt a then Config.bareByte s.drc.bareCount[stackOf a] a else Memory.get s.mem a

/-- Bytes from an address upward. -/
def State.bytes (s : State) (a len : Nat) : List Byte := (List.range len).map fun i => s.byte (a + i)

/-- The little-endian number of a list of bytes (spec/00 R14). -/
def leNat : List Byte → Nat
  | [] => 0
  | b :: bs => b.toNat + 256 * leNat bs

/-- The low bytes of a number, little-endian. -/
def leBytes : Nat → Nat → List Byte
  | 0, _ => []
  | k + 1, v => BitVec.ofNat 8 v :: leBytes k (v / 256)

/-- A little-endian number of `len` bytes in pattern memory. -/
def State.num (s : State) (a len : Nat) : Nat := leNat (s.bytes a len)

/-- Bytes stored to pattern memory. -/
def State.store (s : State) (a : Nat) (bs : List Byte) : State :=
  { s with mem := Memory.putAll s.mem a bs, drc := s.drc.wrote a bs.length }

/-! ## One unit at a time -/

/-- One slice changed. -/
def State.modSl (s : State) (n : Fin 8) (f : Slice → Slice) : State := { s with sl := s.sl.set n (f s.sl[n]) }

/-- The sequencer of a slice changed. -/
def State.modSeq (s : State) (n : Fin 8) (f : Seq → Seq) : State := s.modSl n fun x => { x with seq := f x.seq }

/-- The frequency word of the synthesizer that VCLK.ACTIVE names (spec/06 R233). -/
def Synths.freq (y : Synths) : Nat := if y.useB then y.fb else y.fa

/-- One lane of a slice changed. -/
def Slice.modLane (x : Slice) (l : Fin 32) (f : Lane → Lane) : Slice := { x with lanes := x.lanes.set l (f x.lanes[l]) }

/-- One SCAN unit changed. -/
def State.modScan (s : State) (u : Fin 4) (f : Scan → Scan) : State := { s with scan := s.scan.set u (f s.scan[u]) }

/-- One site core changed. -/
def State.modCore (s : State) (c : Fin 8) (f : CoreSt → CoreSt) : State := { s with cores := s.cores.set c (f s.cores[c]) }

/-- One Clothesline port changed. -/
def State.modPort (s : State) (p : Fin 4) (f : Port → Port) : State := { s with port := s.port.set p (f s.port[p]) }

/-- The DRC changed. -/
def State.modDrc (s : State) (f : Drc → Drc) : State := { s with drc := f s.drc }

/-- The time unit changed. -/
def State.modTime (s : State) (f : Time → Time) : State := { s with time := f s.time }

/-- Enumeration changed. -/
def State.modEnum (s : State) (f : Enum → Enum) : State := { s with enum := f s.enum }

/-- The power unit changed. -/
def State.modPower (s : State) (f : Power → Power) : State := { s with power := f s.power }

/-- A value sent out of the block. -/
def State.emit (s : State) (e : OutEvent) : State := { s with out := s.out ++ [e] }

/-- An operation on each of a list of units, in order. -/
def State.each {α : Type} (s : State) (l : List α) (f : α → State → State) : State := l.foldl (fun s a => f a s) s

/-- The slices, lanes and ports in order. -/
def slices : List (Fin 8) := List.finRange 8
def lanes32 : List (Fin 32) := List.finRange 32
def ports : List (Fin 4) := List.finRange 4

/-! ## Free values -/

/-- A free value, and the state in which the next one is due (assumption 1). -/
def State.freeVal (s : State) : DWord × State := (Config.freeWord s.free, { s with free := s.free + 1 })

/-! ## READY (spec/01 R55) -/

/-- Bit numbers of GLOBAL.READY. -/
inductive ReadyBit where
  | aon | fw | mgmt | hamper | hb (s : Fin 2) | troot | time | sl (n : Fin 8) | scan (u : Fin 4) | cl (p : Fin 4)
  | dispatch | cores | press | eth (e : Fin 2)
deriving DecidableEq, Repr

/-- The place of each bit. -/
def ReadyBit.pos : ReadyBit → Nat
  | .aon => 0 | .fw => 1 | .mgmt => 2 | .hamper => 3 | .hb s => 4 + s | .troot => 6 | .time => 7 | .sl n => 8 + n
  | .scan u => 16 + u | .cl p => 20 + p | .dispatch => 24 | .cores => 25 | .press => 26 | .eth e => 27 + e

/-- Whether PWRGOOD is high and power-on reset is released: more than AON runs (spec/17 R584, spec/18 R604). -/
def State.awake (s : State) : Bool := s.power.on && s.power.rails

/-- What a unit outside AON does: nothing while only AON runs. -/
def State.whenAwake (s : State) (f : State → State) : State := if s.awake then f s else s

/-- Whether a function is ready. -/
def State.isReady (s : State) (b : ReadyBit) : Bool := s.ready.getLsbD b.pos

/-- One READY bit given a value. -/
def State.setReady (s : State) (b : ReadyBit) (v : Bool) : State :=
  let m := BitVec.ofNat 32 (2 ^ b.pos)
  { s with ready := if v then s.ready ||| m else s.ready &&& ~~~m, wasReady := if v then s.wasReady ||| m else s.wasReady }

/-- Whether the fuses name an optional feature (spec/00 R33). -/
def State.hasCap (s : State) (i : Nat) : Bool := s.caps.getLsbD i

/-- The READY bits that a failed test or an exhausted repair holds at 0 (spec/16 R560, R563). -/
def State.heldReady (s : State) (b : ReadyBit) : Bool := (s.bist.held ||| s.bist.exhausted).getLsbD b.pos

/-- Whether a full BIST runs on an instance of one of some kinds (spec/16 R557). -/
def State.tested (s : State) (kinds : List Nat) (inst : Nat) : Bool :=
  match s.bist.full with | some (k, i, _) => kinds.contains k && i == inst | none => false

/-- The bits that clear with a bit (spec/17 R585). -/
def ReadyBit.below : ReadyBit → List ReadyBit
  | .aon => [.troot, .fw] | .fw => [.mgmt]
  | .troot => [.time, .mgmt, .cl 0, .cl 1, .cl 2, .cl 3, .hb 0, .hb 1]
  | .hb _ => [.scan 0, .scan 1, .scan 2, .scan 3, .sl 0, .sl 1, .sl 2, .sl 3, .sl 4, .sl 5, .sl 6, .sl 7]
  | _ => []

/-- A READY bit cleared with every bit that clears with it. A slice's bit that clears for want of HB0, HB1 or TROOT sets
again only after a Press run of the slice (spec/01 R57). -/
def State.dropReady (s : State) (b : ReadyBit) : State :=
  let l := [b] ++ b.below ++ b.below.flatMap ReadyBit.below ++ (b.below.flatMap ReadyBit.below).flatMap ReadyBit.below
  let s := s.each l fun b s => s.setReady b false
  if l.contains (.sl 0) then
    { s with press := Vector.ofFn fun (n : Fin 8) => { s.press[n] with firstRun := true } }
  else s

/-! ## Initiators -/

/-- The copy of ACCERR of an initiator (spec/00 R25). -/
def copyOf : Initiator → Nat
  | .pcie p => p | .mgmt => 8 | .remote => 8 | .core c => 9 + c

/-- The shadow of an initiator (spec/00 R16). -/
def shadowOf : Initiator → Fin 18
  | .pcie p => ⟨p, by omega⟩ | .mgmt => 8 | .remote => 9 | .core c => ⟨10 + c, by omega⟩

/-- The bits of ACCERR (spec/00 R26). -/
inductive AccBit where
  | size | unmapped | rsvd | busy | notready | overlap | budget | hbm
deriving DecidableEq, Repr

/-- The place of each bit. -/
def AccBit.pos : AccBit → Nat
  | .size => 0 | .unmapped => 1 | .rsvd => 2 | .busy => 3 | .notready => 4 | .overlap => 5 | .budget => 6 | .hbm => 7

/-- The bit of a broken rule set in copy i, and the address captured where VALID is 0 (spec/00 R25, R27). -/
def State.accErrAt (s : State) (i : Nat) (b : AccBit) (space : Bool) (addr : Nat) : State :=
  let s := s.wr ⟨aAccerrx i, b.pos, 1⟩ 1
  if s.on (fAccerrxAddr_VALID i) then s
  else s.wrs [(fAccerrxAddr_ADDR i, addr), (fAccerrxAddr_SPACE i, b2n space), (fAccerrxAddr_VALID i, 1)]

/-- The bit of a register access that breaks a rule (spec/00 R25). -/
def State.accErr (s : State) (ini : Initiator) (b : AccBit) (addr : Nat) : State :=
  s.accErrAt (copyOf ini) b false addr

/-! ## Burst states (spec/02 R60, R85) -/

/-- Whether a slice has an accepted burst: PREFILL, ARMED, RUNNING or ENDING. -/
def Slice.accepted (x : Slice) : Bool := x.st != .idle

/-- Whether vectors of a burst play or may play. -/
def Slice.running (x : Slice) : Bool := x.st == .running

/-- Whether any slice has an accepted burst. -/
def State.anyAccepted (s : State) : Bool := s.sl.toList.any Slice.accepted

/-- The slices of a PE die (spec/01 R34). -/
def peSlices (pe : Fin 2) : List (Fin 8) := slices.filter fun n => n.val / 4 == pe.val

end Sys2Proof.Machine
end

