-- ==== Sys2Proof/Machine/Report.lean ====
section
/-! DEFINITION. Reports: interrupts to the host and the site cores, and the records of Hamper (spec/14 R487, spec/11
R404, spec/16 R536 to R543). -/

namespace Sys2Proof.Machine

open Sys2Proof

/-! ## Interrupts -/

/-- The partition that owns slice n: the VF partition whose PART names it, else partition 0 (spec/14 R488). -/
def State.ownerSl (s : State) (n : Fin 8) : Fin 8 :=
  ((List.finRange 8).find? fun (p : Fin 8) => p != 0 && bitOf (s.rd (fPart_SLICES p)) n).getD 0

/-- The partition that owns SCAN unit u. -/
def State.ownerScan (s : State) (u : Fin 4) : Fin 8 :=
  ((List.finRange 8).find? fun (p : Fin 8) => p != 0 && bitOf (s.rd (fPart_SCAN p)) u).getD 0

/-- The partition that owns DMA channel c. -/
def State.ownerDma (s : State) (c : Fin 16) : Fin 8 :=
  ((List.finRange 8).find? fun (p : Fin 8) => p != 0 && bitOf (s.rd (fPart_DMACH p)) c).getD 0

/-- An MSI-X vector of a resource: fired in the PF, which sees every resource, and in the VF that owns it (R487). -/
def State.msix (s : State) (owner : Fin 8) (v : Nat) : State :=
  let s := s.emit (.msix 0 v)
  if owner = 0 then s else s.emit (.msix owner v)

/-- One bit of every site core's IRQPEND set (spec/11 R404). -/
def State.irqAll (s : State) (bit : Nat) : State :=
  s.each (List.finRange 8) fun c s => s.wr ⟨aDpCoreIrqpend c, bit, 1⟩ 1

/-! ## Refused accesses to HBM -/

/-- The ACCERR copy that records a refused access (spec/03 R95). -/
def State.hbmCopy (s : State) (who : HbmBy) : Nat :=
  match who with
  | .stream n | .load n | .admission n | .sequencer n | .spool n => s.ownerSl n
  | .scan u => s.ownerScan u
  | .core c => 9 + c.val
  | .dma c => s.ownerDma c
  | .patch | .eth _ | .mgmt => 8

/-- A refused access recorded. -/
def State.hbmRefuse (s : State) (who : HbmBy) (a : Nat) : State := s.accErrAt (s.hbmCopy who) .hbm true a

/-! ## Hamper -/

/-- The class of a source as a number: 1 corrected, 2 contained, 3 fatal (spec/16 R537). -/
def hamperClass (src : Nat) : Nat := (Config.srcClass src).toNat

/-- What Hamper knows of a source now. -/
def Hamper.find (h : Hamper) (src : Nat) : HSrc := (h.srcs.find? fun e => e.src == src).getD ⟨src, false, false, none⟩

/-- What Hamper knows of a source replaced. -/
def Hamper.put (h : Hamper) (e : HSrc) : Hamper := { h with srcs := e :: h.srcs.filter fun x => x.src != e.src }

/-- A record put into the queue or dropped, and into the AON copies, each with LOSTBEFORE where one was dropped before it (spec/16
R540, R542, R543). -/
def State.postRecord (s : State) (r : HRec) : State :=
  let h := s.hamper
  let r := { r with lostBefore := h.lostBefore }
  let fatal := r.cls == 3
  let h := { h with
    seq := h.seq + 1
    first := match h.first with | some x => some x | none => some r
    last := some r
    fatal1 := match h.fatal1 with | some x => some x | none => if fatal then some r else none
    fatal2 := match h.fatal1, h.fatal2 with | some _, none => if fatal then some r else none | _, x => x }
  if h.queue.length < 64 then
    let s := { s with hamper := { h with queue := h.queue ++ [r], lostBefore := false } }
    (s.emit (.msix 0 1)).irqAll 17
  else
    let s := { s with hamper := { h with lostBefore := true } }
    (s.addSat (fHmCnt_COUNT 3) 1).wr fHmStat_LOST 1

/-- 1 ms in TROOT periods. -/
def msTicks : Nat := 12800000

/-- An error event of a source: counted, latched and, where R541 permits, recorded. `hold` says that the rails go on
showing the error, `wire` that they stay equal; an injected WIRE holds them equal for two samples only (R544). -/
def State.report (s : State) (src : Nat) (detail : DWord) (hold wire : Bool) : State :=
  let e := s.hamper.find src
  let cls := hamperClass src
  let inj := match s.hamper.inject with | some (_, n) => n == src | none => false
  let injWire := match s.hamper.inject with | some (m, n) => n == src && m == 2 | none => false
  let s := (s.addSat (fHmSrc_COUNT src) 1).wr (fHmSrc_LATCHED src) 1
  let s := s.addSat (fHmCnt_COUNT (cls - 1)) 1
  let due := match e.lastRec with | some t => decide (msTicks ≤ s.clock - t) | none => true
  let makes := if cls = 1 then !e.active && due else true
  let h := s.hamper.put ⟨src, e.active || hold, e.wire || wire, if makes then some s.clock else e.lastRec⟩
  let h := { h with inject := if inj then none else h.inject }
  let s := { s with hamper := h }
  if makes then
    let time := s.isReady .time
    s.postRecord
      { tick := if time then s.time.tick else 0, source := src, cls := cls, wire := e.wire || wire || injWire, injected := inj, lostBefore := false
        noTime := !time, count := BitVec.ofNat 32 (s.rd (fHmSrc_COUNT src)), detail := detail, seq := BitVec.ofNat 32 h.seq }
  else s

/-- A unit's checker reports an event that clears itself. -/
def State.reportUnit (s : State) (u : ErrUnit) (detail : DWord) : State :=
  s.report (Config.sourceOf u) detail false false

end Sys2Proof.Machine
end

