-- ==== Sys2Proof/Machine/Hart.lean ====
section
/-! DEFINITION. The instruction set of a site core (spec/11 R396): RV64IMAC with Zicsr, Zifencei, Zicntr and Zicbom, machine and
user mode, 8 PMP entries. The spec names these parts of the RISC-V standard; what each does is the standard's (assumption 29). -/

namespace Sys2Proof.Machine

open Sys2Proof

/-! ## Instructions -/

/-- Register-register and register-immediate operations of I and M. -/
inductive Alu where
  | add | sub | sll | slt | sltu | xor | srl | sra | or | and
  | mul | mulh | mulhsu | mulhu | div | divu | rem | remu
deriving DecidableEq, Repr

/-- Conditions of branches. -/
inductive Cond where
  | eq | ne | lt | ge | ltu | geu
deriving DecidableEq, Repr

/-- Operations of an AMO. -/
inductive Amo where
  | swap | add | xor | and | or | min | max | minu | maxu
deriving DecidableEq, Repr

/-- Operations on a cache block. -/
inductive Cbo where
  | inval | clean | flush
deriving DecidableEq, Repr

/-- What a CSR instruction does with its operand. -/
inductive CsrDo where
  | write | set | clear
deriving DecidableEq, Repr

/-- A decoded instruction; `w` marks the 32-bit forms, a size counts bytes, `sx` sign extension. -/
inductive Rv where
  | lui (rd : Fin 32) (v : DWord)
  | auipc (rd : Fin 32) (v : DWord)
  | jal (rd : Fin 32) (off : DWord)
  | jalr (rd a : Fin 32) (off : DWord)
  | branch (k : Cond) (a b : Fin 32) (off : DWord)
  | load (size : Nat) (sx : Bool) (rd a : Fin 32) (off : DWord)
  | store (size : Nat) (a b : Fin 32) (off : DWord)
  | aluImm (k : Alu) (w : Bool) (rd a : Fin 32) (imm : DWord)
  | alu (k : Alu) (w : Bool) (rd a b : Fin 32)
  | lr (size : Nat) (rd a : Fin 32)
  | sc (size : Nat) (rd a b : Fin 32)
  | amo (k : Amo) (size : Nat) (rd a b : Fin 32)
  | fence | fenceI
  | cbo (k : Cbo) (a : Fin 32)
  | csr (k : CsrDo) (imm : Bool) (rd src : Fin 32) (num : Nat)
  | ecall | ebreak | mret | wfi
deriving DecidableEq, Repr

/-! ## Decoding 32-bit instructions -/

/-- A number of w bits sign-extended. -/
def sext (v w : Nat) : DWord := BitVec.ofInt 64 (signed v w)

/-- The register a 5-bit field names. -/
def rvReg (w lo : Nat) : Fin 32 := Fin.ofNat 32 (bitsOf w lo 5)

/-- The immediates of the formats. -/
def immI (w : Nat) : DWord := sext (bitsOf w 20 12) 12
def immS (w : Nat) : DWord := sext (bitsOf w 25 7 * 2 ^ 5 + bitsOf w 7 5) 12
def immB (w : Nat) : DWord := sext (bitsOf w 31 1 * 2 ^ 12 + bitsOf w 7 1 * 2 ^ 11 + bitsOf w 25 6 * 2 ^ 5 + bitsOf w 8 4 * 2) 13
def immU (w : Nat) : DWord := sext (bitsOf w 12 20 * 2 ^ 12) 32
def immJ (w : Nat) : DWord :=
  sext (bitsOf w 31 1 * 2 ^ 20 + bitsOf w 12 8 * 2 ^ 12 + bitsOf w 20 1 * 2 ^ 11 + bitsOf w 21 10 * 2) 21

/-- The register-immediate operation of OP-IMM and, with `w`, OP-IMM-32. -/
def decodeImm (w : Bool) (i : Nat) : Option Rv :=
  let rd := rvReg i 7; let a := rvReg i 15
  let shift := fun (k : Alu) => some (Rv.aluImm k w rd a (BitVec.ofNat 64 (bitsOf i 20 6)))
  let plain := fun (k : Alu) => if w then none else some (Rv.aluImm k w rd a (immI i))
  let top := if w then bitsOf i 25 7 else bitsOf i 26 6 * 2
  match bitsOf i 12 3 with
  | 0 => some (.aluImm .add w rd a (immI i))
  | 1 => if top = 0 then shift .sll else none
  | 5 => if top = 0 then shift .srl else if top = 0x20 then shift .sra else none
  | 2 => plain .slt | 3 => plain .sltu | 4 => plain .xor | 6 => plain .or | _ => plain .and

/-- The operation of OP and OP-32 by funct7 and funct3. -/
def aluOf : Nat → Nat → Option Alu
  | 0, 0 => some .add | 0, 1 => some .sll | 0, 2 => some .slt | 0, 3 => some .sltu | 0, 4 => some .xor | 0, 5 => some .srl
  | 0, 6 => some .or | 0, 7 => some .and | 0x20, 0 => some .sub | 0x20, 5 => some .sra
  | 1, 0 => some .mul | 1, 1 => some .mulh | 1, 2 => some .mulhsu | 1, 3 => some .mulhu
  | 1, 4 => some .div | 1, 5 => some .divu | 1, 6 => some .rem | 1, 7 => some .remu
  | _, _ => none

/-- The operations that have a 32-bit form. -/
def Alu.hasW : Alu → Bool
  | .add | .sub | .sll | .srl | .sra | .mul | .div | .divu | .rem | .remu => true
  | _ => false

def decodeOp (w : Bool) (i : Nat) : Option Rv :=
  match aluOf (bitsOf i 25 7) (bitsOf i 12 3) with
  | some k => if w && !k.hasW then none else some (.alu k w (rvReg i 7) (rvReg i 15) (rvReg i 20))
  | none => none

/-- LR, SC and the AMOs, of 4 and 8 bytes. -/
def decodeAmo (i : Nat) : Option Rv :=
  let rd := rvReg i 7; let a := rvReg i 15; let b := rvReg i 20
  let f3 := bitsOf i 12 3
  if f3 ≠ 2 ∧ f3 ≠ 3 then none
  else
    let z := 2 ^ f3
    match bitsOf i 27 5 with
    | 2 => if b = 0 then some (.lr z rd a) else none
    | 3 => some (.sc z rd a b)
    | 0 => some (.amo .add z rd a b) | 1 => some (.amo .swap z rd a b) | 4 => some (.amo .xor z rd a b)
    | 8 => some (.amo .or z rd a b) | 0xC => some (.amo .and z rd a b) | 0x10 => some (.amo .min z rd a b)
    | 0x14 => some (.amo .max z rd a b) | 0x18 => some (.amo .minu z rd a b) | 0x1C => some (.amo .maxu z rd a b)
    | _ => none

/-- FENCE, FENCE.I and the cache-block operations. -/
def decodeFence (i : Nat) : Option Rv :=
  match bitsOf i 12 3 with
  | 0 => some .fence
  | 1 => some .fenceI
  | 2 =>
    if bitsOf i 7 5 ≠ 0 then none
    else match bitsOf i 20 12 with
      | 0 => some (.cbo .inval (rvReg i 15)) | 1 => some (.cbo .clean (rvReg i 15)) | 2 => some (.cbo .flush (rvReg i 15))
      | _ => none
  | _ => none

/-- SYSTEM. -/
def decodeSystem (i : Nat) : Option Rv :=
  let f3 := bitsOf i 12 3
  let csr := fun (k : CsrDo) => some (Rv.csr k (decide (4 ≤ f3)) (rvReg i 7) (rvReg i 15) (bitsOf i 20 12))
  match f3 with
  | 0 => match i with
    | 0x00000073 => some .ecall | 0x00100073 => some .ebreak | 0x30200073 => some .mret | 0x10500073 => some .wfi
    | _ => none
  | 1 | 5 => csr .write
  | 2 | 6 => csr .set
  | 3 | 7 => csr .clear
  | _ => none

/-- The instruction of a 32-bit word; none is illegal. -/
def decode32 (i : Nat) : Option Rv :=
  let rd := rvReg i 7; let a := rvReg i 15; let b := rvReg i 20
  let f3 := bitsOf i 12 3
  match bitsOf i 0 7 with
  | 0x37 => some (.lui rd (immU i))
  | 0x17 => some (.auipc rd (immU i))
  | 0x6F => some (.jal rd (immJ i))
  | 0x67 => if f3 = 0 then some (.jalr rd a (immI i)) else none
  | 0x63 => match f3 with
    | 0 => some (.branch .eq a b (immB i)) | 1 => some (.branch .ne a b (immB i)) | 4 => some (.branch .lt a b (immB i))
    | 5 => some (.branch .ge a b (immB i)) | 6 => some (.branch .ltu a b (immB i)) | 7 => some (.branch .geu a b (immB i))
    | _ => none
  | 0x03 => if f3 = 7 then none else some (.load (2 ^ (f3 % 4)) (decide (f3 < 4)) rd a (immI i))
  | 0x23 => if 4 ≤ f3 then none else some (.store (2 ^ f3) a b (immS i))
  | 0x13 => decodeImm false i
  | 0x1B => decodeImm true i
  | 0x33 => decodeOp false i
  | 0x3B => decodeOp true i
  | 0x2F => decodeAmo i
  | 0x0F => decodeFence i
  | 0x73 => decodeSystem i
  | _ => none

/-! ## Decoding 16-bit instructions -/

/-- The register that a 3-bit field names: x8 to x15. -/
def rvRegC (w lo : Nat) : Fin 32 := Fin.ofNat 32 (8 + bitsOf w lo 3)

/-- Quadrant 0. -/
def decodeC0 (h : Nat) : Option Rv :=
  let a := rvRegC h 7; let d := rvRegC h 2
  let offW := BitVec.ofNat 64 (bitsOf h 10 3 * 8 + bitsOf h 6 1 * 4 + bitsOf h 5 1 * 64)
  let offD := BitVec.ofNat 64 (bitsOf h 10 3 * 8 + bitsOf h 5 2 * 64)
  match bitsOf h 13 3 with
  | 0 =>
    let n := bitsOf h 11 2 * 16 + bitsOf h 7 4 * 64 + bitsOf h 6 1 * 4 + bitsOf h 5 1 * 8
    if n = 0 then none else some (.aluImm .add false d 2 (BitVec.ofNat 64 n))
  | 2 => some (.load 4 true d a offW)
  | 3 => some (.load 8 true d a offD)
  | 6 => some (.store 4 a d offW)
  | 7 => some (.store 8 a d offD)
  | _ => none

/-- Quadrant 1. -/
def decodeC1 (h : Nat) : Option Rv :=
  let rd := rvReg h 7; let c := rvRegC h 7; let d := rvRegC h 2
  let six := bitsOf h 12 1 * 32 + bitsOf h 2 5
  let imm := sext six 6
  let offB := sext (bitsOf h 12 1 * 256 + bitsOf h 10 2 * 8 + bitsOf h 5 2 * 64 + bitsOf h 3 2 * 2 + bitsOf h 2 1 * 32) 9
  match bitsOf h 13 3 with
  | 0 => some (.aluImm .add false rd rd imm)
  | 1 => if rd = 0 then none else some (.aluImm .add true rd rd imm)
  | 2 => some (.aluImm .add false rd 0 imm)
  | 3 =>
    if six = 0 then none
    else if rd = 2 then
      some (.aluImm .add false 2 2 (sext (bitsOf h 12 1 * 512 + bitsOf h 6 1 * 16 + bitsOf h 5 1 * 64 + bitsOf h 3 2 * 128 + bitsOf h 2 1 * 32) 10))
    else some (.lui rd (sext (six * 2 ^ 12) 18))
  | 4 => match bitsOf h 10 2 with
    | 0 => some (.aluImm .srl false c c (BitVec.ofNat 64 six))
    | 1 => some (.aluImm .sra false c c (BitVec.ofNat 64 six))
    | 2 => some (.aluImm .and false c c imm)
    | _ => match bitsOf h 12 1, bitsOf h 5 2 with
      | 0, 0 => some (.alu .sub false c c d) | 0, 1 => some (.alu .xor false c c d)
      | 0, 2 => some (.alu .or false c c d) | 0, 3 => some (.alu .and false c c d)
      | 1, 0 => some (.alu .sub true c c d) | 1, 1 => some (.alu .add true c c d)
      | _, _ => none
  | 5 =>
    some (.jal 0 (sext (bitsOf h 12 1 * 2048 + bitsOf h 11 1 * 16 + bitsOf h 9 2 * 256 + bitsOf h 8 1 * 1024 + bitsOf h 7 1 * 64 +
      bitsOf h 6 1 * 128 + bitsOf h 3 3 * 2 + bitsOf h 2 1 * 32) 12))
  | 6 => some (.branch .eq c 0 offB)
  | _ => some (.branch .ne c 0 offB)

/-- Quadrant 2. -/
def decodeC2 (h : Nat) : Option Rv :=
  let rd := rvReg h 7; let b := rvReg h 2
  match bitsOf h 13 3 with
  | 0 => some (.aluImm .sll false rd rd (BitVec.ofNat 64 (bitsOf h 12 1 * 32 + bitsOf h 2 5)))
  | 2 =>
    if rd = 0 then none
    else some (.load 4 true rd 2 (BitVec.ofNat 64 (bitsOf h 12 1 * 32 + bitsOf h 4 3 * 4 + bitsOf h 2 2 * 64)))
  | 3 =>
    if rd = 0 then none
    else some (.load 8 true rd 2 (BitVec.ofNat 64 (bitsOf h 12 1 * 32 + bitsOf h 5 2 * 8 + bitsOf h 2 3 * 64)))
  | 4 =>
    if bitsOf h 12 1 = 0 then
      (if b = 0 then (if rd = 0 then none else some (.jalr 0 rd 0)) else some (.alu .add false rd 0 b))
    else if b = 0 then (if rd = 0 then some .ebreak else some (.jalr 1 rd 0))
    else some (.alu .add false rd rd b)
  | 6 => some (.store 4 2 b (BitVec.ofNat 64 (bitsOf h 9 4 * 4 + bitsOf h 7 2 * 64)))
  | 7 => some (.store 8 2 b (BitVec.ofNat 64 (bitsOf h 10 3 * 8 + bitsOf h 7 3 * 64)))
  | _ => none

/-- The instruction of a 16-bit parcel; the compressed floating-point encodings are illegal (R396). -/
def decode16 (h : Nat) : Option Rv :=
  match bitsOf h 0 2 with
  | 0 => decodeC0 h
  | 1 => decodeC1 h
  | 2 => decodeC2 h
  | _ => none

/-! ## Arithmetic -/

/-- The result of an operation on w-bit operands as integers, narrowed to w bits and sign-extended. -/
def aluInt (k : Alu) (w a b : Nat) : Int :=
  let sa := signed a w; let sb := signed b w
  let sh := b % w
  let least : Int := -(2 ^ (w - 1) : Nat)
  match k with
  | .add => sa + sb
  | .sub => sa - sb
  | .sll => (a * 2 ^ sh : Nat)
  | .slt => if sa < sb then 1 else 0
  | .sltu => if a < b then 1 else 0
  | .xor => (Nat.xor a b : Nat)
  | .srl => (a / 2 ^ sh : Nat)
  | .sra => Int.fdiv sa (2 ^ sh : Nat)
  | .or => (Nat.lor a b : Nat)
  | .and => (Nat.land a b : Nat)
  | .mul => sa * sb
  | .mulh => Int.fdiv (sa * sb) (2 ^ w : Nat)
  | .mulhsu => Int.fdiv (sa * b) (2 ^ w : Nat)
  | .mulhu => (a * b / 2 ^ w : Nat)
  | .div => if b = 0 then -1 else if sa = least ∧ sb = -1 then least else Int.tdiv sa sb
  | .divu => if b = 0 then -1 else (a / b : Nat)
  | .rem => if b = 0 then sa else if sa = least ∧ sb = -1 then 0 else Int.tmod sa sb
  | .remu => if b = 0 then sa else (a % b : Nat)

/-- The value an operation writes. -/
def aluVal (k : Alu) (w : Bool) (a b : DWord) : DWord :=
  if w then sext (unsignedOf (aluInt k 32 (bitsOf a.toNat 0 32) (bitsOf b.toNat 0 32)) 32) 32
  else BitVec.ofInt 64 (aluInt k 64 a.toNat b.toNat)

/-- Whether a branch is taken. -/
def Cond.holds (k : Cond) (a b : DWord) : Bool :=
  match k with
  | .eq => a == b | .ne => a != b
  | .lt => decide (a.toInt < b.toInt) | .ge => decide (b.toInt ≤ a.toInt)
  | .ltu => decide (a.toNat < b.toNat) | .geu => decide (b.toNat ≤ a.toNat)

/-- What an AMO of some bytes stores, from the word read and its operand. -/
def Amo.val (k : Amo) (size old b : Nat) : Nat :=
  let w := 8 * size
  let b := b % 2 ^ w
  match k with
  | .swap => b
  | .add => (old + b) % 2 ^ w
  | .xor => Nat.xor old b
  | .and => Nat.land old b
  | .or => Nat.lor old b
  | .min => if signed old w ≤ signed b w then old else b
  | .max => if signed b w ≤ signed old w then old else b
  | .minu => if old ≤ b then old else b
  | .maxu => if b ≤ old then old else b

/-! ## Registers, traps -/

/-- A register; x0 reads 0. -/
def CoreSt.get (x : CoreSt) (r : Fin 32) : DWord := if r = 0 then 0 else x.x[r]

/-- A register written; x0 discards. -/
def CoreSt.put (x : CoreSt) (r : Fin 32) (v : DWord) : CoreSt := if r = 0 then x else { x with x := x.x.set r v }

/-- Bits of mstatus. -/
def mstMie : Nat := 3
def mstMpie : Nat := 7
def mstMpp : Nat := 11
def mstMprv : Nat := 17
def mstTw : Nat := 21

/-- A field of mstatus, and one replaced. -/
def CoreSt.mst (x : CoreSt) (lo : Nat) : Bool := bitOf x.csr.mstatus.toNat lo
def CoreSt.setMst (x : CoreSt) (lo w v : Nat) : CoreSt :=
  { x with csr := { x.csr with mstatus := BitVec.ofNat 64 (withBits x.csr.mstatus.toNat lo w v) } }

/-- A trap taken: the pc, cause and value saved, interrupts off, machine mode, the pc at the handler. An interrupt goes to its
vector where mtvec says so. -/
def CoreSt.trap (x : CoreSt) (intr : Bool) (cause : Nat) (tval : DWord) : CoreSt :=
  let base := x.csr.mtvec.toNat / 4 * 4
  let target := base + if intr && bitOf x.csr.mtvec.toNat 0 then 4 * cause else 0
  let old := x.mst mstMie
  let x' := ((x.setMst mstMpie 1 (b2n old)).setMst mstMie 1 0).setMst mstMpp 2 (if x.machineMode then 3 else 0)
  { x' with
    csr := { x'.csr with mepc := x.pc, mcause := BitVec.ofNat 64 (cause + if intr then 2 ^ 63 else 0), mtval := tval }
    machineMode := true, pc := BitVec.ofNat 64 target }

/-- MRET: the mode and the interrupt enable come back, and the pc. -/
def CoreSt.mret (x : CoreSt) : CoreSt :=
  let m := x.mst mstMpp
  let x' := ((x.setMst mstMie 1 (b2n (x.mst mstMpie))).setMst mstMpie 1 1).setMst mstMpp 2 0
  { (if m then x' else x'.setMst mstMprv 1 0) with machineMode := m, pc := x.csr.mepc }

/-- Causes of exceptions. -/
inductive Exc where
  | fetchFault | illegal | breakpoint | loadMisaligned | loadFault | storeMisaligned | storeFault | ecallU | ecallM
deriving DecidableEq, Repr

/-- Their numbers. -/
def Exc.code : Exc → Nat
  | .fetchFault => 1 | .illegal => 2 | .breakpoint => 3 | .loadMisaligned => 4 | .loadFault => 5 | .storeMisaligned => 6
  | .storeFault => 7 | .ecallU => 8 | .ecallM => 11

/-- An exception taken. -/
def CoreSt.except (x : CoreSt) (e : Exc) (tval : DWord) : CoreSt := x.trap false e.code tval

/-- An access fault of a load or a store at a pattern memory address (R95, R381). -/
def CoreSt.memFault (x : CoreSt) (store : Bool) (a : Nat) : CoreSt :=
  x.except (if store then .storeFault else .loadFault) (BitVec.ofNat 64 (0x1000000000 + a))

/-! ## Physical memory protection -/

/-- What an access does. -/
inductive Reach where
  | fetch | load | store
deriving DecidableEq, Repr

/-- The range of entry i, in bytes: none where it is off; a granule is 4 KiB (R396), so a four-byte entry does not exist. -/
def Csrs.pmpRange (c : Csrs) (i : Fin 8) : Option (Nat × Nat) :=
  let a := c.pmpaddr[i].toNat % 2 ^ 54
  match bitsOf c.pmpcfg[i].toNat 3 2 with
  | 1 =>
    let lo := if h : i.val = 0 then 0 else c.pmpaddr[i.val - 1].toNat % 2 ^ 54 / 2 ^ 10
    some (lo * 2 ^ 12, a / 2 ^ 10 * 2 ^ 12)
  | 3 =>
    let a := Nat.lor a 0x1FF
    let ones := ((List.range 54).find? fun k => !bitOf a k).getD 54
    some (a / 2 ^ (ones + 1) * 2 ^ (ones + 3), (a / 2 ^ (ones + 1) + 1) * 2 ^ (ones + 3))
  | _ => none

/-- Whether an access of some bytes is permitted in a mode: the lowest entry that matches a byte decides and must match them
all; machine mode is bound by locked entries only, user mode needs an entry. -/
def Csrs.pmpOk (c : Csrs) (machine : Bool) (k : Reach) (a size : Nat) : Bool :=
  let hit := (List.finRange 8).find? fun i =>
    match c.pmpRange i with | some (lo, hi) => decide (a < hi) && decide (lo < a + size) | none => false
  match hit with
  | none => machine
  | some i =>
    let cfg := c.pmpcfg[i].toNat
    let all := match c.pmpRange i with | some (lo, hi) => decide (lo ≤ a) && decide (a + size ≤ hi) | none => false
    let may := match k with | .load => bitOf cfg 0 | .store => bitOf cfg 1 | .fetch => bitOf cfg 2
    all && (may || (machine && !bitOf cfg 7))

/-- The mode that loads and stores are checked in. -/
def CoreSt.dataMode (x : CoreSt) : Bool := if x.machineMode && x.mst mstMprv then x.mst mstMpp else x.machineMode

/-! ## Running (R403, R404, R409) -/

/-- Whether a core runs: RUN is 1, no error stopped it, STANDBY has not halted it in place (spec/17 R581), no full BIST
holds it (spec/16 R556). -/
def State.coreRuns (s : State) (c : Fin 8) : Bool :=
  s.on (fDpCoreCtrl_RUN c) && !s.cores[c].halted && s.power.st == .active && !s.tested [5] c

/-- mtime: the common timebase in units of 10 ns, frozen while READY.TIME is 0 (R401). -/
def State.mtime (s : State) : DWord := if s.isReady .time then s.time.tick >>> 7 else s.time.mtimeHeld

/-- The interrupts pending at a core: external (R404), software, timer, as the bits of mip. -/
def State.mip (s : State) (c : Fin 8) : Nat :=
  2 ^ 11 * b2n (Nat.land (s.rd (fDpCoreIrqpend_SRC c)) (s.rd (fDpCoreIrqen_EN c)) != 0) + 2 ^ 3 * s.rd (fDpCoreMsip_MSIP c) +
    2 ^ 7 * b2n s.cores[c].mtip

/-- The interrupt that is pending and enabled at the core's current privilege, the one taken first. -/
def State.irqDue (s : State) (c : Fin 8) : Option Nat :=
  let x := s.cores[c]
  let live := Nat.land (s.mip c) x.csr.mie.toNat
  if x.machineMode && !x.mst mstMie then none else [11, 3, 7].find? fun k => bitOf live k

/-- The timer interrupt of every core as mtime stands (R401). -/
def State.tickMtip (s : State) : State :=
  let t := s.mtime
  { s with cores := Vector.ofFn fun (c : Fin 8) => { s.cores[c] with mtip := decide (s.cores[c].mtimecmp ≤ t) } }

end Sys2Proof.Machine
end

