-- ==== Sys2Proof/Machine/Words.lean ====
section
/-! DEFINITION. The fields of a control word and which encodings the opcode map accepts (spec/04 R127 to R163). -/

namespace Sys2Proof.Machine

open Sys2Proof

/-! ## Fields -/

/-- OP, DELTA and OPND of a word (R127). -/
def wOp (w : DWord) : Nat := bitsOf w.toNat 56 8
def wDelta (w : DWord) : Nat := bitsOf w.toNat 40 16
def wOpnd (w : DWord) : Nat := bitsOf w.toNat 0 40

/-- Operand bits [lo + n - 1 : lo]. -/
def wField (w : DWord) (lo n : Nat) : Nat := bitsOf w.toNat lo n

/-- TARGET of a transfer. -/
def wTarget (w : DWord) : Nat := wField w 20 20

/-- Fields of the condition: SRC, ARG, NEG, CLR, K (R147). -/
def cSrc (w : DWord) : Nat := wField w 14 6
def cArg (w : DWord) : Nat := wField w 6 8
def cNeg (w : DWord) : Bool := bitOf w.toNat 5
def cClr (w : DWord) : Bool := bitOf w.toNat 4
def cK (w : DWord) : Nat := wField w 0 3

/-! ## The opcode map (R133) -/

/-- The opcodes. -/
inductive Op where
  | adv | rpt | jmp | brc | call | ret | loop | mwait | fseam | halt | ldc | tset | lvl | pmu | tdc | mkset | mkclr
  | smask | slatch | gsync
deriving DecidableEq, Repr

/-- The opcode of an OP value; none where the map does not list it (R128). -/
def opOf (n : Nat) : Option Op :=
  match n with
  | 0x01 => some .adv | 0x02 => some .rpt | 0x08 => some .jmp | 0x09 => some .brc | 0x0A => some .call
  | 0x0B => some .ret | 0x0C => some .loop | 0x0D => some .mwait | 0x0E => some .fseam | 0x0F => some .halt
  | 0x10 => some .ldc | 0x14 => some .tset | 0x18 => some .lvl | 0x1C => some .pmu | 0x1D => some .tdc
  | 0x20 => some .mkset | 0x21 => some .mkclr | 0x28 => some .smask | 0x29 => some .slatch | 0x30 => some .gsync
  | _ => none

/-- The transfer class (R130). -/
def Op.transfer : Op → Bool
  | .jmp | .fseam | .call | .ret | .brc | .loop | .mwait | .halt => true
  | .adv | .rpt | .ldc | .tset | .lvl | .pmu | .tdc | .mkset | .mkclr | .smask | .slatch | .gsync => false

/-- The range of ARG for each condition source: values below the bound; none for a SRC that is not listed (R150). -/
def argBound (src : Nat) : Option Nat :=
  match src with
  | 0x01 => some 32 | 0x02 => some 1 | 0x03 => some 256 | 0x04 => some 1 | 0x05 => some 1 | 0x06 => some 256
  | 0x07 => some 1 | 0x08 => some 1 | 0x10 => some 8 | 0x11 => some 8 | 0x12 => some 256 | 0x18 => some 8
  | 0x19 => some 1 | _ => none

/-- The compare sources (R150). -/
def compareSrc (src : Nat) : Bool := 1 ≤ src && src ≤ 5

/-- Whether a condition field is one that R147 and R150 list. -/
def condOk (w : DWord) : Bool :=
  wField w 3 1 == 0 && match argBound (cSrc w) with | some b => decide (cArg w < b) | none => false

/-- Whether the operand bits of a word are listed for its opcode, in a segment of period word pw (R128, R138 to R163). -/
def operandsOk (op : Op) (w : DWord) (pw : Nat) : Bool :=
  match op with
  | .adv => wField w 32 8 == 0
  | .rpt => wField w 32 8 == 0 && wField w 0 32 % 64 == 0 && wField w 0 32 != 0
  | .jmp => wField w 0 20 == 0
  | .fseam => wField w 7 13 == 0
  | .call => true
  | .ret => wField w 0 40 == 0
  | .halt => wField w 8 32 == 0
  | .ldc => wField w 35 5 == 0
  | .loop => wField w 3 17 == 0
  | .brc => condOk w && wField w 0 3 == 0
  | .mwait => condOk w
  | .tset => wField w 6 34 == 0
  | .lvl =>
    let scope := wField w 14 2
    wField w 5 6 == 0 && wField w 11 3 != 7 && scope != 3 && (scope == 2 || wField w 32 8 == 0) &&
      (scope == 0 || wField w 0 5 == 0)
  | .pmu | .tdc => wField w 8 32 == 0
  | .mkset | .mkclr => wField w 9 31 == 0 && decide (wField w 0 8 * 2 ^ 32 < pw)
  | .smask => wField w 34 6 == 0
  | .slatch => wField w 2 38 == 0
  | .gsync => wField w 9 31 == 0

/-- Whether a word is a window reader (R134). -/
def windowReader (op : Op) (w : DWord) : Bool :=
  match op with
  | .brc | .mwait => compareSrc (cSrc w)
  | .slatch => wField w 0 2 != 3
  | _ => false

/-- The word of a command: its opcode is the one the map gives the instruction, and its operands are listed, in a segment of
period word pw (R128, R133). -/
def wordIs (op : Op) (w : DWord) (pw : Nat) : Bool := opOf (wOp w) == some op && operandsOk op w pw

/-- The word of one of the operations that SMASK and SLATCH name in their OP operand (R159, R161). -/
def smaskIs (sub : Nat) (w : DWord) (pw : Nat) : Bool := wordIs .smask w pw && wField w 32 2 == sub
def slatchIs (sub : Nat) (w : DWord) (pw : Nat) : Bool := wordIs .slatch w pw && wField w 0 2 == sub

end Sys2Proof.Machine
end

