-- ==== Sys2Proof/Machine/Micro.lean ====
section
/-! DEFINITION. The microcode engine of a sequencer: microwords, traps, the next address, routines and their interrupts
(spec/15 R516 to R526). The architectural effect of a routine is that of its control word's command: the microcode carries out the
rules of the control words, and no patch changes them (R515, R523, assumption 56). -/

namespace Sys2Proof.Machine

open Sys2Proof

/-! ## Microwords (R519 to R523) -/

/-- Fields of a microword. -/
def mNext (w : BitVec 160) : Nat := bitsOf w.toNat 146 14
def mNsel (w : BitVec 160) : Nat := bitsOf w.toNat 143 3
def mCond (w : BitVec 160) : Nat := bitsOf w.toNat 137 6
def mPol (w : BitVec 160) : Bool := bitOf w.toNat 136
def mKsel (w : BitVec 160) : Bool := bitOf w.toNat 127
def mBru (w : BitVec 160) : Nat := bitsOf w.toNat 118 3
def mCommit (w : BitVec 160) : Bool := bitOf w.toNat 97

/-- The fields of which not every encoding is listed: place, width and the largest encoding. -/
def microFields : List (Nat × Nat × Nat) :=
  [(146, 14, 0x23FF), (143, 3, 6), (137, 6, 0x0E), (132, 4, 4), (128, 4, 4), (124, 3, 5), (121, 3, 3), (118, 3, 6),
    (114, 2, 1), (112, 2, 2), (109, 3, 2), (104, 3, 4), (102, 2, 2), (98, 4, 5), (96, 1, 0), (0, 80, 0)]

/-- Whether a microword holds listed encodings only, and commits exactly where it ends its routine (R519, R523). -/
def microListed (w : BitVec 160) : Bool :=
  (microFields.all fun f => decide (bitsOf w.toNat f.1 f.2.1 ≤ f.2.2)) && (mCommit w == (mNsel w == 3 || mNsel w == 6))

/-- The fields whose effects are staged, from LCU to EXC: place and width (R523). -/
def stagedFields : List (Nat × Nat) :=
  [(124, 4), (121, 3), (118, 3), (116, 2), (114, 2), (112, 2), (109, 3), (107, 2), (104, 3), (102, 2), (98, 4)]

/-- Whether the encoding of a field stages an effect: not NOP, and not EVAL, which acts at once. -/
def stages (place e : Nat) : Bool := !(if place = 124 then e % 8 == 0 else e == 0) && !(place == 118 && e == 1)

/-- The effects that the words of a routine have staged, in field order (R523). -/
def effectsOf (l : List (BitVec 160)) : List (Nat × Nat) :=
  stagedFields.flatMap fun f => (l.map fun w => (f.1, bitsOf w.toNat f.1 f.2)).filter fun e => stages e.1 e.2

/-- The dispatch-table entry of an OP value (R518). -/
def dispEntry (op : Nat) : Nat := Config.dispatch op % 0x2000

/-- Whether the ROM may hold a word at an address: a listed one (R519), no IF at the last address (R520), a wait only for the three
conditions of R522 to be true, at a dispatch entry a word that ends its routine or waits. -/
def romOk (a : Nat) (w : BitVec 160) : Bool :=
  microListed w && !(mNsel w == 1 && a == 0x1FFF) && (mNsel w != 2 || ([5, 6, 0xA].contains (mCond w) && !mPol w)) &&
    (mNsel w == 2 || mNsel w == 3 || !(List.range 256).any fun op => dispEntry op == a)

/-- The word that ends a routine at DISPATCH and does nothing else. -/
def microEnd : BitVec 160 := 3#160 <<< 143 ||| 1#160 <<< 97

/-- A word of the ROM. -/
def romWord (a : Nat) : BitVec 160 := if romOk a (Config.rom a) then Config.rom a else microEnd

/-- Fields of a trap entry. -/
def tEn (t : Word) : Bool := bitOf t.toNat 31
def tRom (t : Word) : Nat := bitsOf t.toNat 16 13
def tIndex (t : Word) : Nat := bitsOf t.toNat 0 10

/-- The address fetched in place of an address: an enabled trap entry that holds it names a patch word (R526). -/
def trapAddr (p : Option Patch) (a : Nat) : Nat :=
  match p with
  | some p => match p.traps.find? fun t => tEn t && tRom t == a with | some t => 0x2000 + tIndex t | none => a
  | none => a

/-- The microword at an address (R516). -/
def microWord (p : Option Patch) (a : Nat) : BitVec 160 :=
  if a < 0x2000 then romWord a else match p with | some p => p.words.getD (a - 0x2000) 0 | none => 0

/-- The check bits that a control store holds beside a word (R517). -/
def microCheck (p : Option Patch) (a : Nat) : BitVec 9 := Config.romCheck (microWord p a)

/-! ## Routines (R518, R520, R524, R525) -/

/-- The entries of the service routines. -/
def entIdle : Nat := 0
def entAccept : Nat := 0x10
def entHem : Nat := 0x40
def entExccap : Nat := 0x60
def entEnd : Nat := 0x80
def entCorrect : Nat := 0xA0

/-- The engine at the entry of a service routine, what was staged discarded; RESUME returns to `back`, after END to nothing. -/
def Micro.serve (m : Micro) (e : Nat) (back : Option Nat) : Micro :=
  { m with addr := some e, entry := if e = entEnd then none else back, service := some e, staged := [] }

/-- The engine at an entry of a routine that DISPATCH enters. -/
def Micro.start (m : Micro) (e : Nat) : Micro := { m with addr := some e, entry := some e, service := none, staged := [] }

/-- The engine at the dispatch-table entry of a control word, which begins. -/
def Micro.begin (m : Micro) (w : MWord) : Micro := { m with cur := w, begun := m.begun + 1 }.start (dispEntry (wOp w.word))

/-- What runs where a routine has ended: the interrupt that waits, the routine that RESUME restarts, what waits behind it in its
order; with none, the engine waits at DISPATCH. -/
def Micro.resume (m : Micro) (back : Option Nat) : Micro :=
  match m.pend, back, m.queue with
  | e :: l, _, _ => ({ m with pend := l }).serve e back
  | [], some e, _ => m.start e
  | [], none, .word w :: l => { m with queue := l }.begin w
  | [], none, .service e :: l => { m with queue := l }.serve e none
  | [], none, [] => { m with addr := none, entry := none, service := none, staged := [] }

/-- A control word presented, or a service routine that follows: it waits for the end of what runs and of what came before it. -/
def Micro.present (m : Micro) (i : MItem) : Micro :=
  let m := { m with queue := m.queue ++ [i] }
  if m.addr.isNone then m.resume none else m

/-- HEM or CORRECT: taken while a routine entered by DISPATCH runs, or at DISPATCH; it waits for the end of a service routine.
CORRECT goes before HEM where both are due. -/
def Micro.interrupt (m : Micro) (e : Nat) : Micro :=
  if m.service.isSome then
    if e = entCorrect && m.service == some entHem && m.addr == some entHem then
      ({ m with pend := entHem :: m.pend }).serve entCorrect m.entry
    else { m with pend := if e = entCorrect then e :: m.pend else m.pend ++ [e] }
  else m.serve e (if m.addr.isSome then m.entry else none)

/-- END at once: what runs is abandoned, and of what waits only a correction is left (R524). -/
def Micro.endNow (m : Micro) : Micro := ({ m with pend := m.pend.filter fun e => e == entCorrect, queue := [] }).serve entEnd none

/-- The engine after a word at an address whose condition is `c` (R520). A WAIT word stays where it is until its condition is true. -/
def Micro.next (m : Micro) (w : BitVec 160) (a : Nat) (c : Bool) : Micro :=
  match mNsel w with
  | 0 => { m with addr := some (mNext w) }
  | 1 => { m with addr := some (if c then mNext w else a + 1) }
  | 2 => { m with addr := some (if c then mNext w else a) }
  | 3 => m.resume none
  | 4 => { m with addr := some (mNext w), link := a + 1 }
  | 5 => { m with addr := some m.link }
  | 6 => m.resume m.entry
  | _ => m

/-- The unit fields of a word act: EVAL sets the branch flag, the other effects are staged, and the word that commits applies them
together (R523). -/
def Micro.act (m : Micro) (w : BitVec 160) (eval : Bool) : Micro :=
  { m with
    flag := if mBru w = 1 then eval else m.flag
    staged := if mCommit w then [] else m.staged ++ [w]
    applied := if mCommit w then effectsOf (m.staged ++ [w]) else m.applied }

/-- One SEQ cycle on a word at an address: a WAIT word whose condition is false repeats, and its unit fields do not act (R522). -/
def Micro.cycle (m : Micro) (w : BitVec 160) (a : Nat) (c eval : Bool) : Micro :=
  if mNsel w = 2 && !c then { m with addr := some a } else (m.act w eval).next w a c

end Sys2Proof.Machine
end

