-- ==== Sys2Proof/Machine/Slices.lean ====
section
/-! DEFINITION. What every unit of a slice shares: gangs, time on the vector grid, exceptions, rejections, the pin safe
state, the ends of a burst, contained faults (spec/02 R60, R76, spec/05 R181 to R192, spec/06 R204 to R206, spec/07
R243). -/

namespace Sys2Proof.Machine

open Sys2Proof

/-! ## Gangs (spec/05 R182) -/

/-- The slices that a slice's GANG register names with itself; itself alone where it is not ganged. -/
def State.members (s : State) (n : Fin 8) : List (Fin 8) :=
  let m := s.rd (fSlGang_MEMBERS n)
  if bitOf m n then slices.filter fun k => bitOf m k else [n]

/-- The gang of a slice: what its register names when every slice named holds the same value. -/
def State.gang (s : State) (n : Fin 8) : List (Fin 8) :=
  let g := s.members n
  if g.all fun m => s.members m == g then g else [n]

/-- The slices that a burst of this slice runs on; the slice alone where no burst is accepted. -/
def State.burstOf (s : State) (n : Fin 8) : List (Fin 8) :=
  if s.sl[n].accepted then slices.filter fun k => k == n || s.sl[n].gang.contains k else [n]

/-- The sequencers of a burst changed alike. -/
def State.modSeqs (s : State) (n : Fin 8) (f : Seq → Seq) : State := s.each (s.burstOf n) fun m s => s.modSeq m f

/-- The member that holds the shared state of the burst (spec/05 R184). -/
def State.leadOf (s : State) (n : Fin 8) : Fin 8 := if s.sl[n].accepted then s.sl[n].lead else n

/-! ## Time on the vector grid (spec/06 R204 to R206), in units of 2^-32 TROOT periods -/

/-- One TROOT period. -/
def unit32 : Nat := 2 ^ 32

/-- The period word of a frequency word: 2^64 / FREQ rounded, one half up (R205). -/
def pwOf (freq : Nat) : Nat := (2 ^ 65 + freq) / (2 * freq)

/-- The epoch a vector lies in: the newest change of period not after it. -/
def Seq.epoch (q : Seq) (v : Nat) : Nat × Nat × Nat :=
  (q.epochs.find? fun e => decide (e.1 ≤ v)).getD (0, 0, 0)

/-- The scheduled time of a vector (R206). -/
def Seq.sched (q : Seq) (v : Nat) : Nat := let e := q.epoch v; e.2.1 + (v - e.1) * e.2.2

/-- The period of a vector. -/
def Seq.period (q : Seq) (v : Nat) : Nat := (q.epoch v).2.2

/-- The sample instant of an evaluation at vector v with decision distance d (spec/04 R150). -/
def Seq.sampleAt (q : Seq) (v d : Nat) : Int :=
  if d ≤ v then q.sched (v - d) else (q.sched 0 : Int) - ((d - v) * q.period 0 : Nat)

/-- How many vectors of a burst are scheduled before an instant. -/
def Seq.before (q : Seq) (t : Nat) : Nat :=
  match q.epochs.find? fun e => decide (e.2.1 < t) with
  | some e => e.1 + ceilDiv (t - e.2.1) e.2.2
  | none => 0

/-- The present instant on the common timebase. -/
def State.now (s : State) : Nat := s.time.tick.toNat * unit32

/-! ## Segments and regions -/

/-- A slice's segment-table entry; EMPTY where none is listed (spec/03 R103). -/
def Slice.seg (x : Slice) (n : Nat) : SegEntry :=
  match x.segs.find? fun e => e.1 == n with
  | some e => e.2
  | none => ⟨.empty, 0, 0, false, false, 0, none⟩

/-- A segment-table entry replaced; an EMPTY entry with no error is not listed. -/
def Slice.setSeg (x : Slice) (n : Nat) (e : SegEntry) : Slice :=
  { x with segs := (n, e) :: x.segs.filter fun y => y.1 != n }

/-- The figures of a loaded segment. -/
def Slice.fig (x : Slice) (n : Nat) : Option Figures := (x.seg n).fig

/-- The region in force of a kind and owner: base and size in bytes (spec/03 R91). -/
def State.regionOf (s : State) (kind idx : Nat) : Option (Nat × Nat) :=
  (s.region.toList.find? fun r => r.kind == kind && r.index == idx && r.size != 0).map
    fun r => (r.base * 2 ^ 21, r.size * 2 ^ 21)

/-- The pattern memory address of a segment's image in its slice's PATTERN region (spec/03 R106). -/
def State.imageBase (s : State) (n : Fin 8) (seg : Nat) : Nat :=
  (match s.regionOf 1 n with | some (b, _) => b | none => 0) + (s.sl[n].seg seg).base * 4096

/-- LOCKED: in the reachable set of a burst that is not IDLE (spec/03 R103). -/
def Slice.locked (x : Slice) (n : Nat) : Bool := x.accepted && x.reach.contains n

/-! ## Sites (spec/05 R178, R180) -/

/-- Whether a slot is filled in some member of the gang. -/
def State.filled (s : State) (g : List (Fin 8)) (j : Nat) : Bool :=
  g.any fun m => match s.sl[m].mapSlot[j]? with | some (some _) => true | _ => false

/-- The filled slots of a gang as a mask. -/
def State.filledMask (s : State) (g : List (Fin 8)) : Nat := maskOf ((List.range 32).filter fun j => s.filled g j)

/-- The slot that carries a site ID in some member of the gang. -/
def State.slotOf (s : State) (g : List (Fin 8)) (site : Nat) : Option Nat :=
  (List.range 32).find? fun j => g.any fun m =>
    match s.sl[m].mapSlot[j]? with | some (some b) => b.toNat == site | _ => false

/-- The lanes of a slot in one slice. -/
def Slice.lanesOf (x : Slice) (j : Nat) : List (Fin 32) :=
  lanes32.filter fun l => match x.mapLane[l] with | some k => k.val == j | none => false

/-! ## Rejections (spec/02 R76) -/

/-- Reason codes of admission. -/
inductive Reason where
  | notReady | busy | calBusy | calStale | safeState | segInvalid | segNotLoaded | bwSlice | bobbin | fseamSpacing
  | ddist | qLevel | qPmu | qMarker | tstartLate | gang | aborted | fault | noSpool
deriving DecidableEq, Repr

/-- The code of a reason. -/
def Reason.code : Reason → Nat
  | .notReady => 1 | .busy => 2 | .calBusy => 3 | .calStale => 4 | .safeState => 5 | .segInvalid => 6
  | .segNotLoaded => 7 | .bwSlice => 8 | .bobbin => 9 | .fseamSpacing => 0xA | .ddist => 0xB | .qLevel => 0xC
  | .qPmu => 0xD | .qMarker => 0xE | .tstartLate => 0xF | .gang => 0x10 | .aborted => 0x11 | .fault => 0x12
  | .noSpool => 0x13

/-- The registers of a rejection, in the slice that received START, with its interrupts (R69, R76). -/
def State.rejectRegs (s : State) (n : Fin 8) (why : Reason) (m : Fin 8) (v : Nat) : State :=
  let s := s.wrs [(fSlAdmit_REASON n, why.code), (fSlAdmitd_SLICE n, m), (fSlAdmitd_VALUE n, v), (fSlAdmit_REJECTED n, 1)]
  (s.msix (s.ownerSl n) (2 + n)).irqAll (8 + n)

/-- Admission ended without acceptance: every slice it held in CHECKING leaves it. -/
def State.endCheck (s : State) (recv : Fin 8) : State :=
  s.each slices fun m s => s.modSl m fun x =>
    { x with chk := match x.chk with | some c => if c.recv = recv then none else some c | none => none }

/-- The admission that a slice is part of ends in a rejection (R79). ADMITD.SLICE names the slice on which the event fell (assumption
20). -/
def State.rejectCheck (s : State) (n : Fin 8) (why : Reason) : State :=
  match s.sl[n].chk with
  | some c => (s.endCheck c.recv).rejectRegs c.recv why n 0
  | none => s

/-- IDLE as software sees it: no burst, and no admission in progress (R67). -/
def Slice.isIdle (x : Slice) : Bool := !x.accepted && x.chk.isNone

/-- An instance re-initialised after a rinse step (spec/16 R558, R559): its buffers, which hold nothing while it is quiescent; of the
slice logic what lies behind its registers (assumption 59). -/
def State.rinsed (s : State) (kind inst : Nat) : State :=
  match kind with
  | 1 => s.modSl (Fin.ofNat 8 inst) fun x => { x with window := [], seq := { x.seq with micro := Micro.reset } }
  | 2 => s.modSl (Fin.ofNat 8 inst) fun x => { x with fifo := 0, stage := [] }
  | 4 => s.modScan (Fin.ofNat 4 inst) fun c => { c with lines := [] }
  | 7 => s.modPort (Fin.ofNat 4 inst) fun x => { x with sent := [], wait := [], sum := none }
  | _ => s

/-- The µs since an instant, as a duration that a test reports (spec/16 R572). -/
def State.usSince (s : State) (t : Nat) : Nat := min ((s.clock - t) / 12800) (2 ^ 32 - 1)

/-- A rinse step on an instance of one of the given kinds abandoned, with how long it ran (spec/16 R558, R559). -/
def State.abandonRinse (s : State) (kinds : List Nat) (inst : Nat) : State :=
  match s.bist.rinse with
  | some (k, i) =>
    if kinds.contains k && i == inst then
      ({ s with bist := { s.bist with rinse := none } }.wrs
        [(fPrBistRinseres_RESULT, 3), (fPrBistRinseres_COVERAGE, 0), (fPrBistRinsedur_US, s.usSince s.bist.rinseAt)]).rinsed k i
    else s
  | none => s

/-! ## Records of ADC and TDC (spec/07 R265, R267, R284, R291) -/

/-- An ADC record. -/
def adcRecord (preempt busy abandon : Bool) (entry : Nat) (tag : Nat) (src : Nat) (value : Nat) : DWord :=
  BitVec.ofNat 64 (2 ^ 63 + b2n preempt * 2 ^ 62 + b2n busy * 2 ^ 61 + b2n abandon * 2 ^ 60 + entry % 16 * 2 ^ 56 +
    tag % 256 * 2 ^ 48 + src % 4 * 2 ^ 40 + value % 2 ^ 26)

/-- A record posted to the ADC result queue, or dropped where it is full. -/
def State.postAdc (s : State) (n : Fin 8) (r : DWord) : State :=
  if s.sl[n].adcres.length < 32 then s.modSl n fun x => { x with adcres := x.adcres ++ [r] }
  else s.wr (fSlAdcstat_RESDROP n) 1

/-- A TDC record. -/
def tdcRecord (timeout nolock disc cancel : Bool) (tag : Nat) (time : Nat) : DWord :=
  BitVec.ofNat 64 (2 ^ 63 + b2n timeout * 2 ^ 62 + b2n nolock * 2 ^ 61 + b2n disc * 2 ^ 60 + b2n cancel * 2 ^ 59 +
    tag % 256 * 2 ^ 48 + time % 2 ^ 42)

/-- Whether the time base is disciplined (R269). -/
def State.disciplined (s : State) : Bool := s.on fXotb_DISC_EN && s.power.refOk

/-- The TDC's measurement ends, and its record is posted: also in the 30 ns between the take of an arm and ARMED (assumption 45). TIME of a measurement without a stop is a free value, and its DISC is 0 (assumption 45). -/
def State.endTdc (s : State) (n : Fin 8) (timeout cancel : Bool) (time : Nat) : State :=
  match s.sl[n].tdc with
  | none => s
  | some t =>
    let free := timeout || cancel
    let time := if free then s.freeVal.1.toNat else time
    let s := if free then s.freeVal.2 else s
    let r := tdcRecord timeout (!s.sl[n].tdcLock) (s.disciplined && !timeout && !cancel) cancel t.tag.toNat time
    let s := s.modSl n fun x => { x with tdc := none }
    if s.sl[n].tdcres.length < 8 then s.modSl n fun x => { x with tdcres := x.tdcres ++ [r] }
    else s.wr (fSlTdcstat_RESDROP n) 1

/-- A running sequence abandoned with its record, whose VALUE is a free value; a running sum stopped (R265). -/
def State.abandonAdc (s : State) (n : Fin 8) : State :=
  let s := match s.sl[n].adc with
    | some a => s.freeVal.2.postAdc n (adcRecord a.preempted false true a.entry a.tag.toNat a.src.toNat s.freeVal.1.toNat)
    | none => s
  s.modSl n fun x => { x with adc := none, sumRun := false, adcUrgent := false }

/-! ## The pin safe state (spec/07 R243) -/

/-- Whether a cause of the safe state is held (spec/07 R244); the interlock in OPEN is one (spec/14 R507). -/
def State.safeHeld (s : State) : Bool :=
  s.power.fatal || s.power.sbSafe || s.power.ilkHold || (!s.power.ilkA && s.power.ilkB) || s.on fIlk_FAULT

/-- Whether the scope engine is armed (spec/08 R310). -/
def Scope.armed (c : Scope) : Bool := c.st == .settle || c.st == .sampling

/-- A Press run of a slice abandoned, in its restore phase too: every previous value is kept (spec/16 R551). -/
def State.abandonPress (s : State) (n : Fin 8) : State :=
  if s.press[n].phase = .off then s
  else
    let s := { s with press := s.press.set n { s.press[n] with phase := .off, want := false, found := none } }
    s.wrs [(fPrStat_FAILCODE n, 6), (fPrStat_LASTFAIL n, 1)]

/-- One lane at the pin safe state: switch open, driver off, park over. -/
def Lane.safe (l : Lane) : Lane := { l with drive := .z, park := none, cut := true }

/-- The code that reaches a DAC: corrected and clipped (spec/07 R250). -/
def Corr.code (c : Corr) (code : Nat) : Nat := (min 65535 (max 0 (((code * c.gain / 65536 : Nat) : Int) + c.offset))).toNat

/-- The codes of a slice's DACs by its LEVEL registers and some corrections. -/
def State.dacCodesBy (s : State) (n : Fin 8) (corr : Vector (Vector Corr 7) 32) : Vector (Vector Nat 7) 32 :=
  Vector.ofFn fun k => Vector.ofFn fun d => corr[k][d].code (s.rd (fSlLevel_CODE n k d))

/-- The codes of a slice's DACs by the corrections in force. -/
def State.dacCodes (s : State) (n : Fin 8) : Vector (Vector Nat 7) 32 := s.dacCodesBy n s.sl[n].corr

/-- The levels, connections and PPMU registers of a slice at the pin safe state: every LEVEL code 0x8000, which is its
reset value, CONN = OPEN, MODE = OFF with FORCE = 0x8000. -/
def State.safeRegs (s : State) (n : Fin 8) : State :=
  let s := s.resetRegs (inSpan (aSlLevel n 0 0) 0x400)
  let s := s.mapRegs (inSpan (aSlPincfg n 0) 0x80) fun w => w &&& 8
  s.mapRegs (inSpan (aSlPmu n 0) 0x80) fun w => (w &&& 0x00070000) ||| 0x8000

/-- A slice takes the pin safe state: switches open, DACs at mid-scale, level queue flushed, PPMUs off, markers low; ADC
and TDC work ends as R265 and R267 state, a scope acquisition and a Press run are abandoned (R316, R551). -/
def State.takeSafe (s : State) (n : Fin 8) : State :=
  let s := s.safeRegs n
  let s := (s.abandonAdc n).endTdc n false true 0
  let s := s.abandonPress n
  let codes := s.dacCodes n
  s.modSl n fun x => { x with
    dac := codes
    lanes := Vector.ofFn fun k : Fin 32 => x.lanes[k].safe
    ppmu := Vector.ofFn fun k : Fin 32 => ⟨0, x.ppmu[k].range, 0x8000⟩
    ppmuStaged := 0, ppmuLimit := 0, lvlq := [], dacPipe := []
    inflight := x.inflight.filter fun e => match e.kind with | .lvl _ => false | _ => true
    mkq0 := [], mkq1 := [], mk0 := false, mk1 := false
    scope := if x.scope.armed then
        { x.scope with st := .abandoned, resume := x.seq.before (s.now + 1), muted := s.rd (fSlScpcfg_LANE n) }
      else x.scope }

/-! ## Ends of a burst (spec/02 R60, spec/05 R186) -/

/-- The code of a cause. -/
def Cause.code : Cause → Nat
  | .none => 0 | .halt => 1 | .exception => 2 | .spoolHalt => 3 | .abortHem => 4 | .abortNow => 5 | .withdrawn => 6
  | .safeState => 7 | .reset => 8 | .contained => 9 | .fatal => 10

/-- BENDVEC where no vector was delivered (spec/02 R87). -/
def noVec : Nat := 2 ^ 64 - 1

/-- The ACTIVE synthesizer becomes STANDBY (spec/06 R208). -/
def Synths.rest (y : Synths) : Synths :=
  { y with a := if y.a = .active then .standby else y.a, b := if y.b = .active then .standby else y.b }

/-- The synthesizers as a burst ends: the ACTIVE one becomes STANDBY at once. Where a hand-over waits, the outgoing one stays
ACTIVE until the pins park, and the hand-over is discarded if no vector of the segment entered is in the pipeline
(spec/06 R208, R211). -/
def Synths.endBurst (y : Synths) (next : Nat) : Synths :=
  match y.seam with
  | none => y.rest
  | some (v, _) => if next ≤ v then { y with seam := none } else y

/-- The ends that take effect at once, with the vectors that have not reached the pins yet not delivered (R60, R61). -/
def Cause.early : Cause → Bool
  | .safeState | .reset | .contained | .fatal => true
  | .none | .halt | .exception | .spoolHalt | .abortHem | .abortNow | .withdrawn => false

/-- How many vectors a burst delivers that ends now: every vector the formatter took, but at an early end those scheduled
before the present instant only. -/
def State.delivers (s : State) (n : Fin 8) (cause : Cause) : Nat :=
  let q := s.sl[s.sl[n].lead].seq
  if cause.early then min q.vec (q.before s.now) else q.vec

/-- Whether an end finds vectors of an ending burst that have not reached the pins. -/
def State.cutsShort (s : State) (n : Fin 8) (cause : Cause) : Bool :=
  let x := s.sl[n]
  !x.parked && decide (s.delivers n cause < s.sl[x.lead].seq.vec)

/-- Whether an end changes nothing: no burst, or one that is ending with every vector delivered; a fatal fault ends every
burst that is not IDLE (spec/16 R539). -/
def State.overFor (s : State) (n : Fin 8) (cause : Cause) : Bool :=
  let x := s.sl[n]
  x.st == .idle || (x.st == .ending && cause != .fatal && !s.cutsShort n cause)

/-- The CAUSE that an end leaves: an ending in progress keeps its own when the pins are made safe (spec/05, the table of
meeting events). -/
def State.causeOf (s : State) (n : Fin 8) (cause : Cause) : Nat :=
  if s.sl[n].st = .ending ∧ cause = .safeState then s.rd (fSlAdmit_CAUSE n) else cause.code

/-- The microcode engine as a burst ends: END runs at once, or after what the boundary or the HALT has running, and not at all after
a reset or a fatal fault (spec/15 R518, R524). -/
def Cause.engine (c : Cause) (m : Micro) : Micro :=
  match c with
  | .reset | .fatal => Micro.reset
  | .halt | .exception | .spoolHalt | .abortHem => m.present (.service entEnd)
  | .none | .abortNow | .withdrawn | .safeState | .contained => m.endNow

/-- Every slice of a burst leaves it: PREFILL and ARMED for IDLE with nothing delivered, RUNNING for ENDING after the
last vector delivered (assumption 10). Of an ending in progress, an early end can still take vectors that have not reached
the pins. -/
def State.finish (s : State) (n : Fin 8) (cause : Cause) : State :=
  let x := s.sl[n]
  if s.overFor n cause then s
  else
    let code := s.causeOf n cause
    let parked := x.parked
    let played := x.st == .running || x.st == .ending
    let next := s.delivers n cause
    let last := if played && next != 0 then next - 1 else noVec
    let taken := s.sl[x.lead].seq.vec
    let idleAt := s.clock
    s.each (s.burstOf n) fun m s =>
      let s := s.wr (fSlAdmit_CAUSE m) code
      let s := if played && parked then s else s.wr (fSlBendvec_VEC m) last
      let s := s.modSl m fun y => { y with
        st := if played then .ending else .idle
        parked := !played || y.parked
        fifo := 0
        ahead := Ahead.reset
        trigArmed := []
        played := if played then y.played else []
        units := if played then y.units else []
        inflight := if played && parked then y.inflight else y.inflight.filter fun e => decide (e.vec < next) && played
        synth := y.synth.endBurst taken
        seq := { y.seq with micro := cause.engine y.seq.micro }
        reach := if played then y.reach else [] }
      if played then s
      else
        let s := { s with press := s.press.set m { s.press[m] with idleSince := idleAt } }
        (s.msix (s.ownerSl m) (2 + m)).irqAll m

/-- An ending that takes the pins of the slice, and of the gang of its burst, to the safe state (R186, R187). The synthesizer that is
ACTIVE then becomes STANDBY at once, also where a hand-over is discarded (spec/06 R208, assumption 68). -/
def State.finishSafe (s : State) (n : Fin 8) (cause : Cause) (why : Reason) : State :=
  let g := s.burstOf n
  let s := (s.rejectCheck n why).finish n cause
  s.each g fun m s => (s.takeSafe m).modSl m fun x => { x with parked := true, synth := x.synth.rest }

/-- A contained fault of the slice's own path (spec/02 R61). -/
def State.containedSl (s : State) (n : Fin 8) : State := s.finishSafe n .contained .fault

/-- The stacks that a loss takes. -/
def lostStacks : MemLoss → List (Fin 2)
  | .none => [] | .hb k => [k] | .drc | .fab => List.finRange 2

/-- The contents of a stack undefined; where both stacks have lost theirs boot firmware is going to write zeros (spec/17 R585). -/
def Drc.lose (d : Drc) (k : Fin 2) : Drc :=
  let l := d.lost.set k true
  { d with lost := l, fill := d.fill || (l[(0 : Fin 2)] && l[(1 : Fin 2)]) }

/-- A stack's domains lost: it is out of service, its contents are undefined afterwards, and it owes no refresh (spec/16 R539,
spec/17 R589). -/
def State.stackLost (s : State) (k : Fin 2) : State :=
  ((s.dropReady (.hb k)).modDrc fun d => d.lose k).modPower fun p =>
    { p with saved := p.saved &&& ~~~BitVec.ofNat 32 (2 ^ (4 + k.val)) }

/-- Both stacks in self-refresh, with every row closed and every owed refresh issued before (spec/10 R365, R384). -/
def Drc.rest (d : Drc) : Drc :=
  { d with
    selfRefresh := Vector.replicate 2 true, openRows := [], owed := Vector.replicate 64 0, forced := Vector.replicate 64 0 }

/-- A fatal fault of the device: safe state on every slice, records still in the Spool stages lost, every owed refresh issued
and both stacks in self-refresh (spec/10 R384), AER (spec/16 R539, spec/08 R308). Where the fault is the loss of memory domains
itself, the stacks that lose them go out of service; with FAB the Dispatcher stops too (spec/01 R41, R56). -/
def State.fatalNow (s : State) (lost : MemLoss) : State :=
  let s := s.each slices fun n s => (s.finishSafe n .fatal .fault).modSl n fun x => { x with stage := [], fails := [] }
  let s := (s.modDrc Drc.rest).each (lostStacks lost) fun k s => s.stackLost k
  let s := if lost = .fab then s.setReady .dispatch false else s
  (s.modPower fun p => { p with fatal := true }).emit .aerFatal

/-! ## Exceptions (spec/04 R164, spec/05 R189 to R192) -/

/-- An exception raised by a burst: captured in every member the first time, else counted as lost. -/
def State.raiseExc (s : State) (n origin : Fin 8) (exc sub seg off vec : Nat) (word : DWord) : State :=
  let l := s.leadOf n
  let sp := s.sl[l].seq.sp
  let s := s.modSeqs n fun q => { q with excRaised := true, micro := q.micro.present (.service entExccap) }
  s.each (s.burstOf n) fun m s =>
    if s.on (fSlExc_VALID m) then s.addSat (fSlExc_LOST m) 1
    else s.wrs [(fSlExc_VALID m, 1), (fSlExc_EXC m, exc), (fSlExc_SUB m, sub), (fSlExc_ORIGIN m, origin), (fSlExc_SP m, sp),
      (fSlExcpos_SEG m, seg), (fSlExcpos_OFFSET m, off), (fSlExcvec_VEC m, vec), (fSlExcword_WORD m, word.toNat)]

/-- Whether the formatter input of a slice is open: it takes groups while RUNNING, and from one outbound latency before T0
(spec/02 R67). -/
def Slice.fed (x : Slice) : Bool := x.st == .running || (x.st == .armed && x.seq.epochs != [])

/-- Whether the formatter input stands at a boundary whose command has come and whose next group has not: the boundary is
not passed yet (spec/02 R78). -/
def Seq.atBoundary (q : Seq) : Bool := !q.hemDue && q.vec % 64 == 0 && q.vec != 0

/-- A stream error put before those of a later vector, and at one vector the lead's words before data, data in ascending
slice number (spec/05 R192). -/
def addEcc (e : EccPend) : List EccPend → List EccPend
  | [] => [e]
  | f :: l =>
    if e.vec < f.vec || (e.vec == f.vec && (decide (e.rank < f.rank))) then e :: f :: l else f :: addEcc e l

/-- The offset of the vector k vectors ahead of the formatter input. -/
def Seq.offAt (q : Seq) (k : Nat) : Nat :=
  if q.rptLeft = 0 then q.off + k else if k < q.rptLeft then q.off else q.off + 1 + (k - q.rptLeft)

/-- Stream errors whose vectors the hem after the boundary at the formatter input holds, on the path that plays (spec/04 R166). -/
def Seq.eccDue (q : Seq) : List EccPend :=
  if q.vec % 64 ≠ 0 then []
  else q.ecc.filter fun e => decide (q.vec ≤ e.vec) && decide (e.vec < q.vec + 64) && e.seg == q.seg && q.offAt (e.vec - q.vec) == e.off

/-- The stream errors due at the formatter input raised in their order, each marked in its segment's entry, and those whose data
is discarded dropped (spec/04 R166, R167, spec/05 R189 to R192, spec/10, the table of meeting events). -/
def State.dueEcc (s : State) (l : Fin 8) : State :=
  let due := s.sl[l].seq.eccDue
  let s := s.modSeqs l fun q => { q with ecc := q.ecc.filter fun e => decide (q.vec + 64 ≤ e.vec) }
  s.each due fun e s =>
    let s := s.modSl (if e.data then e.origin else l) fun x => x.setSeg e.seg { x.seg e.seg with eccSeen := true }
    s.raiseExc l (if e.data then e.origin else l) 5 (if e.data then 2 else 1) e.seg e.off e.vec e.word

/-- An end that a boundary not passed yet takes at once. Stream errors due after the boundary are exceptions that reach it too, and
go before every other cause (spec/02, the table of meeting events). -/
def State.endHere (s : State) (l : Fin 8) (cause : Cause) : State :=
  if s.sl[l].st = .running ∧ s.sl[l].seq.atBoundary then
    if cause ≠ .exception ∧ s.sl[l].seq.eccDue ≠ [] then (s.dueEcc l).finish l .exception else s.finish l cause
  else s

/-! ## Readiness of a slice (spec/17 R585, R588, R579, R583) -/

/-- Whether the life cycle lets slices become ready (spec/16 R554). -/
def State.lifeCycle (s : State) : Nat :=
  if s.bist.fieldDiag then 4 else (s.bist.lcBlown.getD Config.lifeCycle).toNat

/-- Whether nothing but the synthesizers holds a slice's READY bit at 0: the bits it needs, its Press run, the patch where
the facility is present (spec/00 R33), the power state, service, tests, the life cycle. -/
def State.slMayReady (s : State) (n : Fin 8) : Bool :=
  s.isReady (.hb 0) && s.isReady (.hb 1) && s.isReady .troot && s.isReady .press && !s.press[n].firstRun &&
    (!s.hasCap 12 || s.rd fUpstat_STATE == 2 || s.rd fUpstat_STATE == 3) && s.power.st == .active && !s.power.peOff && !s.power.fatal &&
    !s.on ⟨aPwrctl, n, 1⟩ && !s.on ⟨aSvcoff, n, 1⟩ && !s.heldReady (.sl n) && !s.tested [1, 2, 3] n && !s.sl[n].csDead &&
    s.lifeCycle != 0 && s.lifeCycle != 6

/-- The slice's READY bit set where both synthesizers are STANDBY and nothing else holds it. -/
def State.trySlReady (s : State) (n : Fin 8) : State :=
  let y := s.sl[n].synth
  if y.a = .standby && y.b = .standby && s.slMayReady n then s.setReady (.sl n) true else s

/-- Whether a SCAN unit may be ready (spec/17 R585): a unit that the fuses do not name is not present (spec/00 R33). -/
def State.scanMayReady (s : State) (u : Fin 4) : Bool :=
  s.hasCap u && s.isReady (.hb 0) && s.isReady (.hb 1) && s.isReady .troot && s.power.st == .active &&
    !s.on ⟨aSvcoff, 8 + u, 1⟩ && !s.heldReady (.scan u) && !s.tested [4] u

end Sys2Proof.Machine
end

