-- ==== Sys2Proof/Machine/Escalation.lean ====
section
/-! DEFINITION. Escalation of the real-time ports of the pattern memory controller, and what it holds back (spec/10 R367 to
R370, spec/01 R53). -/

namespace Sys2Proof.Machine

open Sys2Proof

/-- The stacks in order. -/
def stackList : List (Fin 2) := List.finRange 2

/-- The SCAN units in order. -/
def scans : List (Fin 4) := List.finRange 4

/-- Records that the on-die stage of a Spool holds (spec/08 R302). -/
def stageSize : Nat := 8192

/-- The level of a stream port: bytes in the FIFO and the unplayed part of the lead-in and carry in play. -/
def Slice.streamLevel (x : Slice) : Nat := x.fifo + 16 * x.ahead.bobbin

/-- Whether a stream port's level lies below k quarters of 1 MiB, where it escalates (R368). -/
def State.streamBelow (s : State) (n : Fin 8) (k : Nat) : Bool :=
  s.sl[n].st == .running && decide (s.sl[n].streamLevel < k * 0x40000)

/-- Whether the free space of a Spool's stage lies below k quarters, where it escalates. -/
def State.spoolBelow (s : State) (n : Fin 8) (k : Nat) : Bool :=
  s.on (fSlBurst_CAPTURE n) && (s.sl[n].st == .running || s.sl[n].st == .ending) &&
    decide (stageSize - s.sl[n].stage.length < k * 2048)

/-- Whether a SCAN unit's port escalates: in WAIT, PRIMED and RUN. -/
def Scan.escalates (x : Scan) : Bool := x.st == .wait || x.st == .primed || x.st == .run

/-- Ports that hold urgency. -/
def State.urgentPorts (s : State) : Nat :=
  maskOf ((slices.filter fun n => s.streamBelow n 2).map (·.val) ++ (slices.filter fun n => s.spoolBelow n 2).map (8 + ·.val) ++
    (scans.filter fun u => s.scan[u].escalates && s.scan[u].urgent).map (16 + ·.val))

/-- Ports that hold panic. -/
def State.panicPorts (s : State) : Nat :=
  maskOf ((slices.filter fun n => s.streamBelow n 1).map (·.val) ++ (slices.filter fun n => s.spoolBelow n 1).map (8 + ·.val) ++
    (scans.filter fun u => s.scan[u].escalates && s.scan[u].panic).map (16 + ·.val))

/-- Whether any port holds panic. -/
def State.panicNow (s : State) : Bool := s.panicPorts != 0

/-- Whether the stacks serve requests that are not real-time (spec/01 R53, spec/10 R369). -/
def State.memServed (s : State) : Bool :=
  !s.panicNow && stackList.all fun (k : Fin 2) => s.isReady (.hb k) && !s.drc.selfRefresh[k]

/-- 100 µs in TROOT periods. -/
def longPanic : Nat := 1280000

/-- A period of panic that has lasted more than 100 µs is reported as a corrected fault, once (R370). -/
def State.judgePanic (s : State) : State :=
  match s.drc.panicSince with
  | some t =>
    if longPanic < s.clock - t && !s.drc.panicTold then
      ((s.modDrc fun d => { d with panicTold := true }).wr fDrcPanlog_LONG 1).reportUnit .panicLong 0
    else s
  | none => s

/-- The schedulers' sample of escalation: a period of panic begins, or ends and is measured. -/
def State.samplePanic (s : State) : State :=
  match s.drc.panicSince with
  | none =>
    if s.panicNow then
      let t := s.clock
      (s.addSat fDrcPancnt_COUNT 1).modDrc fun d => { d with panicSince := some t, panicTold := false }
    else s
  | some t =>
    let s := s.judgePanic
    if s.panicNow then s
    else
      let us := min (ceilDiv (s.clock - t) 12800) (2 ^ 24 - 1)
      (s.wr fDrcPanlog_MAXUS (max (s.rd fDrcPanlog_MAXUS) us)).modDrc fun d => { d with panicSince := none }

end Sys2Proof.Machine
end

