-- ==== Sys2Proof/Machine/Admission.lean ====
section
/-! DEFINITION. Admission of a burst, from START to T0 (spec/02 R58 to R77, spec/04 R168). -/

namespace Sys2Proof.Machine

open Sys2Proof

/-! ## The reachable set (R68, R69) -/

/-- A number put into a rising list without repeats. -/
def addSorted (v : Nat) : List Nat → List Nat
  | [] => [v]
  | a :: l => if v < a then v :: a :: l else if v = a then a :: l else a :: addSorted v l

/-- Several numbers put into a rising list. -/
def addAll (l vs : List Nat) : List Nat := vs.foldl (fun l v => addSorted v l) l

/-- The successors of a loaded segment. -/
def Slice.succ (x : Slice) (s : Nat) : List Nat := match x.fig s with | some f => f.succ | none => []

/-- Length in vectors. -/
def Slice.len (x : Slice) (s : Nat) : Nat := match x.fig s with | some f => f.hems * 64 | none => 0

/-- Period word of a segment. -/
def Slice.pw (x : Slice) (s : Nat) : Nat := match x.fig s with | some f => pwOf f.freq | none => 0

/-- Frequency word of a segment. -/
def Slice.freqOf (x : Slice) (s : Nat) : Nat := match x.fig s with | some f => f.freq | none => 0

/-- The closure of a set of segments under successors. -/
def Slice.closure (x : Slice) : Nat → List Nat → List Nat
  | 0, r => r
  | k + 1, r =>
    let r' := addAll r (r.flatMap x.succ)
    if r'.length = r.length then r else x.closure k r'

/-- The reachable set of a start segment, rising. -/
def Slice.reachOf (x : Slice) (start : Nat) : List Nat :=
  x.closure ((x.segs.map fun e => (x.succ e.1).length).sum + 1) [start]

/-- The continuations of every call in a set. -/
def Slice.contsOf (x : Slice) (r : List Nat) : List Nat :=
  addAll [] (r.flatMap fun s => match x.fig s with | some f => f.conts | none => [])

/-- The edges out of a segment, a return leading to every continuation of the set (R68). -/
def Slice.edges (x : Slice) (r : List Nat) (s : Nat) : List Nat :=
  match x.fig s with
  | some f => addAll (addAll [] f.succ) (if f.hasRet then x.contsOf r else [])
  | none => []

/-! ## Distances along the reachable graph (R69, R74) -/

/-- The lesser of two distances; none is infinite. -/
def minO : Option Nat → Option Nat → Option Nat
  | none, b => b
  | some a, none => some a
  | some a, some b => some (min a b)

/-- One round of relaxation: the time from the entry of each segment to the next change of period. -/
def Slice.relax (x : Slice) (r : List Nat) (d : Nat → Option Nat) (v : Nat) : Option Nat :=
  match x.fig v with
  | none => none
  | some f =>
    match f.exitMin with
    | none => none
    | some e =>
      let w := e * pwOf f.freq
      (x.edges r v).foldl (fun best u =>
        minO best (if x.pw u = x.pw v then (d u).map (· + w) else some w)) none

/-- The distances after some rounds, as a list over the reachable set. -/
def Slice.fdist (x : Slice) (r : List Nat) : Nat → List (Nat × Option Nat)
  | 0 => []
  | k + 1 =>
    let prev := x.fdist r k
    r.map fun v => (v, x.relax r (fun u => ((prev.find? fun e => e.1 == u).map (·.2)).getD none) v)

/-- The segments that a change of period can begin from: the start segment and each segment entered by one. -/
def Slice.fseamOrigins (x : Slice) (r : List Nat) (start : Nat) : List Nat :=
  r.filter fun v => v == start || r.any fun u => (x.edges r u).contains v && x.pw u != x.pw v

/-- Segments whose next change of period can come sooner than 20 µs after their entry. -/
def Slice.fseamBad (x : Slice) (r : List Nat) (start : Nat) : Option Nat :=
  let d := x.fdist r r.length
  (x.fseamOrigins r start).find? fun v =>
    match ((d.find? fun e => e.1 == v).map (·.2)).getD none with
    | some t => decide (t < 256000 * unit32)
    | none => false

/-! ## Lead-ins and prefill (R65, R73) -/

/-- The lead-in of a target in vectors. -/
def Slice.leadIn (x : Slice) (t : Nat) : Nat :=
  min (x.len t) (ceilDiv (ceilDiv (25600 * unit32) (x.pw t)) 64 * 64)

/-- Bytes of all lead-ins of a reachable set. -/
def Slice.leadBytes (x : Slice) (r : List Nat) : Nat :=
  ((addAll [] (r.flatMap fun s => match x.fig s with | some f => f.cond | none => [])).map fun t => 16 * x.leadIn t).sum

/-- Bytes that fill the stream FIFO at the start of a burst. -/
def Slice.fifoFill (x : Slice) (start : Nat) : Nat := min 0x100000 (16 * x.len start)

/-- The prefill bound of a slice in ns, rounded up. -/
def State.prefillNs (s : State) (m : Fin 8) (bytes : Nat) : Nat := 2000 + ceilDiv (bytes * 100) (s.rd (fSlResv_BW m))

/-! ## Queue intervals (R75) -/

/-- Whether the slice's ADC is set for sum mode (spec/07 R261). -/
def State.adcSumMode (s : State) (m : Fin 8) : Bool :=
  s.rd (fSlAdcctl_LEN m) == 0 && s.on (fSlAdcseq_SUM m 0)

/-- The samples of one sequence (spec/07 R263). -/
def State.adcSamples (s : State) (m : Fin 8) : Nat :=
  if s.adcSumMode m then 0
  else ((List.range (s.rd (fSlAdcctl_LEN m) + 1)).map fun i => 2 ^ s.rd (fSlAdcseq_LOG2N m i)).sum

/-- The service interval of the PMU-trigger queue. -/
def State.tqPmu (s : State) (m : Fin 8) : Nat :=
  (s.rd (fSlAdcdly_STEPS m) * 128 + (s.adcSamples m + 3) * 12800) * unit32

/-- The figures of the queues that admission checks, with their codes: the PMU-trigger queue by the ADC settings at START, a
marker's interval four periods. -/
def Check.queues (c : Check) (m : Fin 8) : List (Reason × (Figures → List QFig) × (Nat → Nat)) :=
  [(.qLevel, fun f => [f.level], fun _ => 1280 * unit32), (.qPmu, fun f => [f.pmu], fun _ => c.tqPmu[m]),
   (.qMarker, fun f => [f.mk0, f.mk1], fun p => 4 * p)]

/-- Whether a queue's entries lie too close within a segment. -/
def gapBad (q : QFig) (p tq : Nat) : Bool := match q.gap with | some g => decide (g * p < tq) | none => false

/-- Whether a queue's entries lie too close across a seam. -/
def seamBad (a : QFig) (pa : Nat) (b : QFig) (pb tq : Nat) : Bool :=
  match a.tail, b.head with | some t, some h => decide (t * pa + h * pb < tq) | _, _ => false

/-- The first segment of the reachable set that breaks a queue's interval, in the order of R69. -/
def Slice.queueBad (x : Slice) (r : List Nat) (qs : Figures → List QFig) (tq : Nat → Nat) : Option Nat :=
  r.findSome? fun u =>
    match x.fig u with
    | none => none
    | some f =>
      let pu := pwOf f.freq
      if (qs f).any fun q => gapBad q pu (tq pu) then some u
      else (x.edges r u).find? fun v =>
        match x.fig v with
        | none => false
        | some g =>
          let pv := pwOf g.freq
          ((qs f).zip (qs g)).any fun e => seamBad e.1 pu e.2 pv (tq (max pu pv))

/-! ## The algorithm (R69) -/

/-- A rejection: reason, slice and detail. -/
abbrev Verdict := Option (Reason × Fin 8 × Nat)

/-- The lowest-numbered member for which a check fails. -/
def firstBad (g : List (Fin 8)) (why : Reason) (bad : Fin 8 → Bool) : Verdict := (g.find? bad).map fun m => (why, m, 0)

/-- Whether a member's entry counts as loaded (R102, R105, spec/05 R183). -/
def State.segLoaded (s : State) (lead m : Fin 8) (t : Nat) : Bool :=
  let e := s.sl[m].seg t
  if m = lead then e.st == .loaded && !e.dataOnly
  else e.st == .loaded && s.sl[m].len t == s.sl[lead].len t && s.sl[m].pw t == s.sl[lead].pw t

/-- Bytes that one vector needs of the reservation (R71). -/
def State.vecBytes (s : State) (m : Fin 8) : Nat := if s.on (fSlBurst_CAPTURE m) then 24 else 16

/-- The checks that need no segment: gang, readiness, state, calibration, safe state. -/
def State.admitSlices (s : State) (g : List (Fin 8)) (c : Check) : Verdict :=
  ((g.find? fun (m : Fin 8) => s.members m != g).map fun m => (Reason.gang, m, m.val)) <|>
  firstBad g .notReady (fun m => !s.isReady (.sl m)) <|>
  (c.busy.map fun m => (Reason.busy, m, 0)) <|>
  firstBad g .calBusy (fun m => s.press[m].phase != .off) <|>
  firstBad g .safeState (fun _ => s.safeHeld) <|>
  firstBad g .calStale (fun m => s.on (fPrStat_CAL_STALE m) && !c.ovrCal)

/-- The checks of the segments, of bandwidth at the shortest period, Bobbin, decision distance, seam spacing and queues. The period
is the exact one of R205, which the worked example of ADMITD.VALUE does not use (assumption 63). -/
def State.admitSegs (s : State) (g : List (Fin 8)) (lead : Fin 8) (start : Nat) (c : Check) : Verdict :=
  let x := s.sl[lead]
  let e := x.seg start
  if e.st = .empty || e.dataOnly then some (.segInvalid, lead, start)
  else
    let r := x.reachOf start
    let pmin := (r.map x.pw).foldl min (2 ^ 40)
    let lb := x.leadBytes r
    (r.findSome? fun t => (g.find? fun (m : Fin 8) => !s.segLoaded lead m t).map fun m => (Reason.segNotLoaded, m, t)) <|>
    firstBad g .noSpool (fun m => s.on (fSlBurst_CAPTURE m) && (s.regionOf 2 m).isNone) <|>
    ((g.find? fun (m : Fin 8) => decide (s.rd (fSlResv_BW m) * pmin < s.vecBytes m * 1280 * unit32)).map fun m =>
      (Reason.bwSlice, m, ceilDiv (s.vecBytes m * 1280 * unit32) pmin)) <|>
    (if 0x200000 < lb then some (.bobbin, lead, ceilDiv lb 1024) else none) <|>
    ((r.find? fun t => (match x.fig t with | some f => f.cmpBranch | none => false) &&
        decide (s.rd (fSlDdist_D lead) * x.pw t * 10 < 3584 * unit32)).map fun t => (Reason.ddist, lead, t)) <|>
    ((x.fseamBad r start).map fun t => (Reason.fseamSpacing, lead, t)) <|>
    (if c.ovrQueue then none
     else g.findSome? fun (m : Fin 8) => (c.queues m).findSome? fun q => (x.queueBad r q.2.1 q.2.2).map fun t => (q.1, m, t))

/-- The check of a TIMED start: TSTART against the end of checking, the greatest prefill bound and 40 ns (R66). -/
def State.admitTime (s : State) (g : List (Fin 8)) (lead recv : Fin 8) (start : Nat) : Verdict :=
  if s.rd (fSlBurst_MODE recv) = 1 then
    let bytes := s.sl[lead].leadBytes (s.sl[lead].reachOf start) + s.sl[lead].fifoFill start
    let resv := (g.map fun (m : Fin 8) => s.rd (fSlResv_BW m)).foldl min (2 ^ 20)
    let pb := 2000 + ceilDiv (bytes * 100) resv
    if s.rd (fSlTstart_TICK recv) * 5 * resv < s.time.tick.toNat * 5 * resv + 64 * (2040 * resv + bytes * 100) then
      some (.tstartLate, recv, pb)
    else none
  else none

/-- What admission decides: none accepts. -/
def State.verdict (s : State) (c : Check) : Verdict :=
  let g := s.members c.recv
  let lead := g.headD c.recv
  let start := s.rd (fSlBurst_START_SEG c.recv)
  s.admitSlices g c <|> s.admitSegs g lead start c <|> s.admitTime g lead c.recv start

/-! ## Acceptance (R70, R168, R191, R295, R296, R303) -/

/-- The registers of a member as its burst is accepted. -/
def State.acceptRegs (s : State) (m : Fin 8) (bytes : Nat) (ovr : Bool) : State :=
  let s := s.wrs [(fSlPrefill_BOUND m, s.prefillNs m bytes), (fSlAdmit_OVR_USED m, b2n ovr), (fSlSeqstat_HALT_CODE m, 0),
    (fSlFfvec_VEC m, noVec)]
  let s := s.resetRegs (inSpan (aSlExc m) 0x20)
  let s := if s.on (fSlSpcfg_CNTAUTO m) then s.resetRegs (inSpan (aSlFailcnt m 0) 0x84) else s
  if s.on (fSlBurst_CAPTURE m) then
    (s.resetRegs (inSpan (aSlSpwr m) 0x0C)).resetRegs (inSpan (aSlSpstat m) 4)
  else s

/-- The state of a member as its burst is accepted. -/
def Slice.accept (x : Slice) (g : List (Fin 8)) (lead recv : Fin 8) (r : List Nat) (start t0 mask : Nat) (ovr : Bool) : Slice :=
  { x with
    st := .prefill, chk := none, gang := g, lead := lead, recv := recv, reach := r, t0 := t0, trigArmed := []
    ovrUsed := ovr, fifo := 0, ahead := { Ahead.reset with seg := start }, parked := false
    seq := { Seq.reset with seg := start, mask := BitVec.ofNat 32 mask, micro := Micro.reset.serve entAccept none }
    window := [], played := [], units := [], fails := [], inflight := [], mk0 := false, mk1 := false
    bursts := x.bursts + 1, scope := { x.scope with resume := 0 } }

/-- A burst accepted on every member. -/
def State.accept (s : State) (c : Check) : State :=
  let g := s.members c.recv
  let lead := g.headD c.recv
  let start := s.rd (fSlBurst_START_SEG c.recv)
  let r := s.sl[lead].reachOf start
  let bytes := s.sl[lead].leadBytes r + s.sl[lead].fifoFill start
  let t0 := if s.rd (fSlBurst_MODE c.recv) = 1 then s.rd (fSlTstart_TICK c.recv) else 0
  let mask := s.filledMask g
  s.each g fun m s =>
    let full := s.on (fSlBurst_CAPTURE m)
    (s.acceptRegs m bytes (c.ovrQueue || c.ovrCal)).modSl m fun x =>
      let y := x.accept g lead c.recv r start t0 mask (c.ovrQueue || c.ovrCal)
      if full then { y with spSeq := 0 } else y

/-! ## The commands -/

/-- Whether a START finds its own gang's admission, asked for in the same cycle through another member (spec/05, the table
of meeting events). -/
def State.sameStart (s : State) (n m : Fin 8) : Bool :=
  match s.sl[m].chk with
  | some c => c.taken == s.clock && c.recv != n && (s.members n).contains c.recv
  | none => false

/-- START taken: every member of the gang reads CHECKING; while one does already, the START is one with the START of its own cycle, or is
rejected by the first of the checks of R69 that fails, which comes no later than BUSY (R67). -/
def State.opStart (s : State) (n : Fin 8) (ovrQueue ovrCal : Bool) : State :=
  let g := s.members n
  let tq := Vector.ofFn fun m => s.tqPmu m
  match g.find? fun (m : Fin 8) => s.sl[m].chk.isSome with
  | some m =>
    if (g.all fun k => s.members k == g) && s.sameStart n m then s
    else match s.admitSlices g ⟨n, ovrQueue, ovrCal, g.find? fun (k : Fin 8) => !s.sl[k].isIdle, s.clock, tq⟩ with
      | some (why, k, v) => s.rejectRegs n why k v
      | none => s
  | none =>
    let busy := g.find? fun (m : Fin 8) => s.sl[m].accepted
    let now := s.clock
    s.each g fun m s =>
      (s.abandonRinse [1, 2] m).modSl m fun x => { x with chk := some ⟨n, ovrQueue, ovrCal, busy, now, tq⟩ }

/-- ADMISSION_RESULT (R69, R76). -/
def execAdmissionResult (n : Fin 8) (s : State) : Host.Outcome State Fault Refusal :=
  .next <| match s.sl[n].chk with
    | none => s
    | some c =>
      match s.verdict c with
      | some (why, m, v) => (s.endCheck c.recv).rejectRegs c.recv why m v
      | none => (s.endCheck c.recv).accept c

/-- A lane as T0 comes: a lane not in DRIVER leaves its park state and its switch takes its connection (spec/05 R188). -/
def Lane.atT0 (l : Lane) (conn : Nat) : Lane :=
  let l := { l with lastEvent := none, judged := none }
  if conn = 1 then l else { l with park := none, cut := false }

/-- The synthesizer that takes over at T0 becomes ACTIVE at the start frequency (spec/06 R209). -/
def Synths.start (y : Synths) (freq : Nat) : Synths :=
  if y.useB then { y with b := .active, fb := freq } else { y with a := .active, fa := freq }

/-- Whether T0 of a burst is known: every member is ARMED, and in TRIGGER mode a trigger has come (R66). -/
def State.knowsT0 (s : State) (l : Fin 8) : Bool :=
  s.sl[l].st == .armed && (s.burstOf l).all (fun m => s.sl[m].st == .armed) &&
    (s.rd (fSlBurst_MODE s.sl[l].recv) != 2 || s.sl[l].trigArmed != [])

/-- The formatter input of a burst opens once T0 is known: vector 0 is scheduled at T0, and its group can be presented one
outbound latency before it (R58, R67). -/
def State.openInput (s : State) (l : Fin 8) : State :=
  if s.knowsT0 l && s.sl[l].seq.vec == 0 then
    let x := s.sl[l]
    let t0 := x.trigArmed.headD x.t0
    s.modSeqs l fun q => { q with epochs := [(0, t0 * unit32, pwOf (x.freqOf x.seq.seg))] }
  else s

/-- The burst of a lead becomes RUNNING at T0. -/
def State.startBurst (s : State) (l : Fin 8) : State :=
  let s := s.openInput l
  let x := s.sl[l]
  let t0 := x.trigArmed.headD x.t0
  let freq := x.freqOf x.seq.seg
  s.each (s.burstOf l) fun m s =>
    let s' := s
    s.modSl m fun y => { y with
      st := .running, t0 := t0, synth := y.synth.start freq
      lanes := Vector.ofFn fun k : Fin 32 => y.lanes[k].atT0 (s'.rd (fSlPincfg_CONN m k)) }

/-- BURST_T0 (R58, R66). -/
def execBurstT0 (n : Fin 8) (s : State) : Host.Outcome State Fault Refusal :=
  .next <|
    let l := s.leadOf n
    if s.knowsT0 l then s.startBurst l else s

/-- RESV_WRITE's effect (R70, R71): refused while the slice is not IDLE, or where the sum would rise above 98,304. -/
def State.opResv (s : State) (ini : Initiator) (n : Fin 8) (v : Nat) : State :=
  let old := s.rd (fSlResv_BW n)
  let sum := (slices.map fun (m : Fin 8) => s.rd (fSlResv_BW m)).sum + ((List.range 4).map fun u => s.rd (fScResv_BW u)).sum
  if !s.sl[n].isIdle then s.accErr ini .busy (aSlResv n)
  else if old < v && 98304 < sum - old + v then s.accErr ini .budget (aSlResv n)
  else s.wr (fSlResv_BW n) v

/-- DDIST_WRITE's effect (R70, R81, R185): every member of the gang takes the value. The written slice alone is looked at for
IDLE, whatever another member does (assumption 44). -/
def State.opDdist (s : State) (ini : Initiator) (n : Fin 8) (v : Nat) : State :=
  if !s.sl[n].isIdle then s.accErr ini .busy (aSlDdist n)
  else
    let d := v % 2048
    let ok := 8 ≤ d ∧ d ≤ 1024
    let s := if ok then s else s.accErr ini .rsvd (aSlDdist n)
    s.each (s.gang n) fun m s => s.wr (fSlDdist_D m) (if ok then d else 90)

end Sys2Proof.Machine
end

