-- ==== Sys2Proof/Machine/Operands.lean ====
section
/-! DEFINITION. What an operand of a control word names in a slice (spec/04 R155), and when a word is one of its
instruction's (R128, R133). -/

namespace Sys2Proof.Machine

open Sys2Proof

/-- The lanes of a level entry's scope in a slice (R155): one lane, all, or those the site map in force gives to the
site. -/
def Slice.lvlLanes (x : Slice) (opnd : BitVec 40) (slot : Option Nat) : Word :=
  match bitsOf opnd.toNat 14 2 with
  | 0 => BitVec.ofNat 32 (2 ^ bitsOf opnd.toNat 0 5)
  | 1 => 0xFFFFFFFF
  | _ => match slot with | some j => BitVec.ofNat 32 (maskOf ((x.lanesOf j).map Fin.val)) | none => 0

/-- The period word of the segment that plays: the bound of a marker word's COARSE (R157). -/
def Slice.pwNow (x : Slice) : Nat := x.pw x.seq.seg

end Sys2Proof.Machine
end

