-- ==== Sys2Proof/Machine/LoadUnit.lean ====
section
/-! DEFINITION. The load unit: segment commands, seals, verification of an image and the figures it derives (spec/03 R96
to R126, spec/04 R128 to R137). -/

namespace Sys2Proof.Machine

open Sys2Proof

/-! ## CRC-32C (spec/03 R98) -/

/-- One bit of the CRC-32C register, reflected polynomial 0x82F63B78. -/
def crcBit (c : Word) : Word := if c.getLsbD 0 then (c >>> 1) ^^^ 0x82F63B78 else c >>> 1

/-- One byte of the CRC-32C register. -/
def crcByte (c : Word) (b : Byte) : Word :=
  crcBit (crcBit (crcBit (crcBit (crcBit (crcBit (crcBit (crcBit (c ^^^ b.setWidth 32))))))))

/-- CRC-32C of a list of bytes. -/
def crc32c (bs : List Byte) : Word := ~~~bs.foldl crcByte 0xFFFFFFFF

/-! ## The image (R96 to R98) -/

/-- The header fields of the image at an address. -/
structure Image where
  base : Nat
  magic : Nat
  version : Nat
  type : Nat
  segno : Nat
  hems : Nat
  freq : Nat
  words : Nat
deriving DecidableEq, Repr

/-- The header of an image in pattern memory. -/
def State.image (s : State) (a : Nat) : Image :=
  ⟨a, s.num a 4, s.num (a + 4) 2, s.num (a + 6) 1, s.num (a + 8) 4, s.num (a + 0x0C) 4, s.num (a + 0x10) 4, s.num (a + 0x14) 4⟩

/-- Bytes of the control stream, padded to 64. -/
def Image.ctlBytes (i : Image) : Nat := ceilDiv (i.words * 8) 64 * 64

/-- Bytes before the trailer. -/
def Image.body (i : Image) : Nat := 64 + i.hems * 1024 + i.ctlBytes

/-- Bytes of the image. -/
def Image.size (i : Image) : Nat := i.body + 64

/-- The control words, in stream order. -/
def State.ctlWords (s : State) (i : Image) : List DWord :=
  (List.range i.words).map fun k => BitVec.ofNat 64 (s.num (i.base + 64 + i.hems * 1024 + 8 * k) 8)

/-! ## Placement (spec/04 R129 to R131) -/

/-- Words with their placement points. -/
def placeFrom : Nat → List DWord → List (Nat × DWord)
  | _, [] => []
  | p, w :: ws =>
    let p := p + wDelta w
    let p := if wOp w = 1 then p + wField w 0 32 else p
    (p, w) :: placeFrom p ws

/-- Whether a word is in the transfer class. -/
def isTransfer (w : DWord) : Bool := match opOf (wOp w) with | some o => o.transfer | none => false

/-- The rule of words at one offset: after a transfer-class word only ADV, and one RPT at most. -/
def orderOk : List (Nat × DWord) → Bool
  | [] => true
  | (p, w) :: r =>
    (if isTransfer w then r.all fun e => e.1 != p || wOp e.2 == 1 else true) &&
    (if wOp w = 2 then r.all fun e => e.1 != p || wOp e.2 != 2 else true) && orderOk r

/-- The density limit of a hem (R131): floor of 1.6 GHz times 64 over f, with f as 12.8 GHz times FREQ times 2^-32. -/
def densityMax (freq : Nat) : Nat := 8 * 2 ^ 32 / freq

/-- Whether no hem holds more words than the limit. -/
def densityOk (l : List (Nat × DWord)) (freq : Nat) : Bool :=
  l.all fun e => decide ((l.filter fun x => x.1 / 64 == e.1 / 64).length ≤ densityMax freq)

/-- Whether a segment can fall through from its last vector (R135): its last vector holds no transfer-class word, or one
that need not transfer. -/
def fallsThrough (l : List (Nat × DWord)) (len : Nat) : Bool :=
  l.all fun e => e.1 + 1 != len || match opOf (wOp e.2) with
    | some .jmp | some .fseam | some .call | some .ret | some .halt => false
    | _ => true

/-- Whether the placement rules hold (R130). -/
def placementOk (l : List (Nat × DWord)) (len freq segno : Nat) : Bool :=
  l.all (fun e => decide (e.1 < len)) && l.all (fun e => !isTransfer e.2 || e.1 % 64 == 63) && orderOk l &&
    densityOk l freq && !(fallsThrough l len && segno == 1048575)

/-! ## Figures (R104, spec/04 R133 to R137) -/

/-- The played vector of the first play of an offset: repeats before it counted. -/
def playedAt (l : List (Nat × DWord)) (p : Nat) : Nat :=
  p + ((l.filter fun e => wOp e.2 == 2 && decide (e.1 < p)).map fun e => wField e.2 0 32).sum

/-- The played vector of the last play of an offset. -/
def lastPlay (l : List (Nat × DWord)) (p : Nat) : Nat :=
  playedAt l p + ((l.filter fun e => wOp e.2 == 2 && e.1 == p).map fun e => wField e.2 0 32).sum

/-- The exit points in played vectors: of each transfer-class word but HALT, and of the end where it falls through. -/
def exits (l : List (Nat × DWord)) (len : Nat) : List Nat :=
  ((l.filter fun e => isTransfer e.2 && wOp e.2 != 0x0F).map fun e => lastPlay l e.1) ++
    (if fallsThrough l len then [lastPlay l (len - 1)] else [])

/-- The least of a list. -/
def least (l : List Nat) : Option Nat := l.foldl (fun m v => minO m (some v)) none

/-- The least difference between neighbours. -/
def leastGap : List Nat → Option Nat
  | a :: b :: l => minO (some (b - a)) (leastGap (b :: l))
  | _ => none

/-- Head, gap and tail of the entries at some played vectors. -/
def qFig (at_ ex : List Nat) : QFig :=
  ⟨at_.head?, leastGap at_, least (at_.flatMap fun a => (ex.filter fun e => decide (a ≤ e)).map fun e => e + 1 - a)⟩

/-- The queue of a word: 0 level, 1 PMU trigger, 2 and 3 the markers. -/
def wQueue (w : DWord) : Option Nat :=
  match opOf (wOp w) with
  | some .lvl => some 0 | some .pmu | some .tdc => some 1
  | some .mkset | some .mkclr => some (2 + wField w 8 1)
  | _ => none

/-- The played vectors at which entries of a queue are raised. -/
def entriesOf (l : List (Nat × DWord)) (q : Nat) : List Nat :=
  (l.filter fun e => wQueue e.2 == some q).map fun e => playedAt l e.1

/-- The segments that a word names as successors, as conditional targets and as call continuations. -/
def wSucc (w : DWord) : List Nat :=
  match opOf (wOp w) with
  | some .jmp | some .fseam | some .brc | some .loop | some .mwait => [wTarget w]
  | some .call => [wTarget w, wField w 0 20]
  | _ => []
def wCond (w : DWord) : List Nat :=
  match opOf (wOp w) with | some .brc | some .loop | some .mwait => [wTarget w] | _ => []
def wCont (w : DWord) : List Nat := if wOp w = 0x0A then [wField w 0 20] else []

/-- The figures of a FULL image. -/
def figuresOf (l : List (Nat × DWord)) (hems freq segno : Nat) : Figures :=
  let len := hems * 64
  let ex := exits l len
  { hems := hems, freq := freq
    succ := addAll [] ((l.flatMap fun e => wSucc e.2) ++ if fallsThrough l len then [segno + 1] else [])
    cond := addAll [] (l.flatMap fun e => wCond e.2)
    conts := addAll [] (l.flatMap fun e => wCont e.2)
    hasRet := l.any fun e => wOp e.2 == 0x0B
    exitMin := (least ex).map (· + 1)
    cmpBranch := l.any fun e => match opOf (wOp e.2) with | some o => windowReader o e.2 | none => false
    level := qFig (entriesOf l 0) ex, pmu := qFig (entriesOf l 1) ex
    mk0 := qFig (entriesOf l 2) ex, mk1 := qFig (entriesOf l 3) ex }

/-- The figures of a DATA image: length and period only (R104). -/
def dataFigures (hems freq : Nat) : Figures :=
  ⟨hems, freq, [], [], [], false, none, false, ⟨none, none, none⟩, ⟨none, none, none⟩, ⟨none, none, none⟩, ⟨none, none, none⟩⟩

/-- Edge-pool records in use by the other entries of a slice (R90, R104). -/
def Slice.edgesUsed (x : Slice) (but : Nat) : Nat :=
  (x.segs.map fun e => if e.1 = but then 0 else match e.2.fig with | some f => f.succ.length | none => 0).sum

/-! ## Verification (R110) -/

/-- The header checks, 0x5 to 0x9, for a sealed segment number and an OPEN range of some 4 KiB units. -/
def Image.headErr (i : Image) (seg units imageBytes : Nat) : Nat :=
  if i.magic != 0x54485347 then 5
  else if i.version != 1 || (i.type != 1 && i.type != 2) then 6
  else if i.segno != seg then 7
  else if i.hems < 4 || 67108864 < i.hems || (if i.type = 1 then 16777216 < i.words else i.words != 0) ||
      units * 4096 < i.size || imageBytes != i.size then 8
  else if i.freq < 0x02000000 || 0x40000000 < i.freq then 9
  else 0

/-- Whether the reserved bytes of header and trailer are 0 and the CRC matches (R97, R98). -/
def State.crcOk (s : State) (i : Image) : Bool :=
  s.num (i.base + 7) 1 == 0 && s.num (i.base + 0x18) 40 == 0 && s.num (i.base + i.body + 12) 52 == 0 &&
    s.num (i.base + i.body) 4 == (crc32c (s.bytes i.base i.body)).toNat

/-- Whether every control word is one that spec/04 lists. -/
def encodingOk (ws : List DWord) (freq : Nat) : Bool :=
  ws.all fun w => match opOf (wOp w) with | some o => operandsOk o w (pwOf freq) | none => false

/-- The outcome of a verification of entry `seg` of slice n: an error code, or the type and the figures. IMAGE_BYTES is
looked at where the header's own size fits the range. -/
def State.verify (s : State) (n : Fin 8) (seg : Nat) (ecc : EccWhere) : Nat × Bool × Option Figures :=
  let x := s.sl[n]
  let e := x.seg seg
  let i := s.image (s.imageBase n seg)
  if ecc = .header then (0xE, false, none)
  else
    let h := i.headErr seg e.size i.size
    if h != 0 then (h, false, none)
    else if ecc = .body then (0xE, false, none)
    else if i.headErr seg e.size (s.num (i.base + i.body + 4) 8) != 0 then (8, false, none)
    else if !s.crcOk i then (0xA, false, none)
    else if i.type = 2 then (0, true, some (dataFigures i.hems i.freq))
    else
      let ws := s.ctlWords i
      if !encodingOk ws i.freq then (0xB, false, none)
      else
        let l := placeFrom 0 ws
        if !placementOk l (i.hems * 64) i.freq seg then (0xC, false, none)
        else
          let f := figuresOf l i.hems i.freq seg
          if 4194304 < x.edgesUsed seg + f.succ.length then (0xD, false, none) else (0, false, some f)

/-! ## Seals and completion records (R107, R108, R126) -/

/-- A completion record. -/
def doneRecord (err seg : Nat) (token : Word) : DWord :=
  BitVec.ofNat 64 (2 ^ 63 + err % 16 * 2 ^ 56 + seg % 2 ^ 20 * 2 ^ 32 + token.toNat)

/-- Pending seals that meet a test get an ABANDONED record in their turn (R108). -/
def abandonSeals (p : Seal → Bool) (l : List Seal) : List Seal :=
  l.map fun q => match q.st with
    | .ready _ => q
    | _ => if p q then { q with st := .ready 0xF } else q

/-- Whether a seal awaits its own verification, and not only the record that its entry was not OPEN. -/
def Seal.verifies (q : Seal) : Bool := match q.st with | .noEntry _ => false | _ => true

/-- The segment of a seal dropped: its seals that await verification are ABANDONED. -/
def Slice.abandonSeg (x : Slice) (seg : Nat) : Slice :=
  { x with sealq := abandonSeals (fun q => q.seg == seg && q.verifies) x.sealq }

/-- Verification and pending seals at a slice or partition reset: entries OPEN again, every pending seal ABANDONED (R114). -/
def Slice.resetLoads (x : Slice) : Slice :=
  { x with
    sealq := abandonSeals (fun _ => true) x.sealq
    segs := x.segs.map fun e => if e.2.st = .verifying then (e.1, { e.2 with st := .opened, err := 0xF }) else e }

/-- A refused segment command (R106, R121). -/
def State.segRefuse (s : State) (n : Fin 8) (err : Nat) : State :=
  s.wrs [(fSlSegstat_REFUSED n, 1), (fSlSegstat_ERR n, err)]

/-- Whether two ranges of units overlap. -/
def overlaps (a la b lb : Nat) : Bool := decide (a < b + lb) && decide (b < a + la)

/-- OPEN (R106): range inside the PATTERN region, not overlapping another entry's. -/
def State.segOpen (s : State) (n : Fin 8) (seg : Nat) : State :=
  let x := s.sl[n]
  let b := s.rd (fSlSegargBase_BASE n)
  let z := s.rd (fSlSegargSize_SIZE n)
  if (x.seg seg).st != .empty then s.segRefuse n 1
  else
    let inside := match s.regionOf 1 n with | some (_, size) => decide ((b + z) * 4096 ≤ size) | none => false
    if z = 0 || !inside then s.segRefuse n 2
    else if x.segs.any fun e => e.2.st != .empty && overlaps b z e.2.base e.2.size then s.segRefuse n 3
    else s.modSl n fun x => x.setSeg seg ⟨.opened, b, z, false, false, (x.seg seg).err, none⟩

/-- A seal takes a place of the queue (R106 to R108). -/
def State.takeSeal (s : State) (n : Fin 8) (seg : Nat) (token : Word) : State :=
  s.modSl n fun x => { x.setSeg seg { x.seg seg with st := .verifying } with sealq := x.sealq ++ [⟨seg, token, .waiting⟩] }

/-- SEAL (R106). -/
def State.segSeal (s : State) (n : Fin 8) (seg : Nat) : State :=
  let x := s.sl[n]
  if (x.seg seg).st != .opened || 64 ≤ x.sealq.length then s.segRefuse n 1
  else s.takeSeal n seg (BitVec.ofNat 32 (s.rd (fSlSegargToken_TOKEN n)))

/-- An entry dropped: EMPTY, with the result of its last verification, ABANDONED where that was under way (R110, R123). -/
def Slice.emptySeg (x : Slice) (seg : Nat) : Slice :=
  let e := x.seg seg
  let err := if e.st = .verifying then 0xF else e.err
  let x := { x.abandonSeg seg with segs := x.segs.filter fun y => y.1 != seg }
  if err = 0 then x else x.setSeg seg ⟨.empty, 0, 0, false, false, err, none⟩

/-- DROP (R106): a LOCKED entry is kept; an EMPTY one stays as it is. -/
def State.segDrop (s : State) (n : Fin 8) (seg : Nat) : State :=
  let x := s.sl[n]
  if x.locked seg then s.segRefuse n 4
  else if (x.seg seg).st = .empty then s
  else s.modSl n fun x => x.emptySeg seg

/-- A write of SEGCMD (R120): a command, or an OP that is not accepted. -/
def State.opSegcmd (s : State) (ini : Initiator) (n : Fin 8) (v : Nat) : State :=
  let seg := bitsOf v 0 20
  match bitsOf v 28 4 with
  | 1 => s.segOpen n seg
  | 2 => s.segSeal n seg
  | 3 => s.segDrop n seg
  | _ => s.accErr ini .rsvd (aSlSegcmd n)

/-- A seal presented by a DMA channel (R107): true where the queue had room. A seal of an entry that is not OPEN takes a
place for its record. -/
def State.dmaSeal (s : State) (n : Fin 8) (seg : Nat) (token : Word) : State × Bool :=
  let x := s.sl[n]
  if 64 ≤ x.sealq.length then (s, false)
  else if (x.seg seg).st = .opened then (s.takeSeal n seg token, true)
  else (s.modSl n fun x => { x with sealq := x.sealq ++ [⟨seg, token, .noEntry 1⟩] }, true)

/-- The first seal that has no record yet. -/
def firstUndone : List Seal → Option Seal
  | [] => none
  | q :: l => match q.st with | .ready _ => firstUndone l | _ => some q

/-- The first seal that has no record yet replaced. -/
def mapUndone (f : Seal → Seal) : List Seal → List Seal
  | [] => []
  | q :: l => match q.st with | .ready _ => q :: mapUndone f l | _ => f q :: l

/-- VERIFY_BEGIN (R108): with room in LOADDONE, the oldest waiting seal goes under verification; a seal of an entry that
is not OPEN, for which nothing is read, gets its record in its turn. Under panic the load unit reads nothing (R111). -/
def execVerifyBegin (n : Fin 8) (s : State) : Host.Outcome State Fault Refusal :=
  let panic := s.panicNow
  .next <| s.modSl n fun x =>
    if 16 ≤ x.loaddone.length then x
    else match firstUndone x.sealq with
      | some q => match q.st with
        | .waiting => if panic then x else { x with sealq := mapUndone (fun q => { q with st := .verifying }) x.sealq }
        | .noEntry e => { x with sealq := mapUndone (fun q => { q with st := .ready e }) x.sealq }
        | _ => x
      | none => x

/-- LOADDONE_POST (R108): the oldest place's ready record enters LOADDONE where it has room. -/
def execLoaddonePost (n : Fin 8) (s : State) : Host.Outcome State Fault Refusal :=
  .next <| s.modSl n fun x => match x.sealq with
    | q :: rest => match q.st with
      | .ready e =>
        if x.loaddone.length < 16 then { x with sealq := rest, loaddone := x.loaddone ++ [doneRecord e q.seg q.token] } else x
      | _ => x
    | [] => x

end Sys2Proof.Machine
end

