-- ==== Sys2Proof/Machine/ReadAhead.lean ====
section
/-! DEFINITION. Prefill, and the path that the stream port reads ahead of play: the hems of the FIFO, the lead-in and the
carry of a taken transfer, its restart (spec/02 R65, R66, spec/05 R174, R175). Places count in hems of 64 vectors. -/

namespace Sys2Proof.Machine

open Sys2Proof

/-- The control words of a segment with their placement points, from the lead's image. -/
def State.words (s : State) (l : Fin 8) (seg : Nat) : List (Nat × DWord) :=
  placeFrom 0 (s.ctlWords (s.image (s.imageBase l seg)))

/-- The transfer-class word at an offset of a segment. -/
def State.transferAt (s : State) (l : Fin 8) (seg off : Nat) : Option DWord :=
  ((s.words l seg).find? fun e => e.1 == off && isTransfer e.2).map (·.2)

/-- The position after the hem at a position: along every unconditional transfer, a return to what the copy of the stack names;
past a conditional transfer on the fall-through path; nowhere after a HALT, a return from an empty stack or a call on a full
one (R174). -/
def State.aheadNext (s : State) (l : Fin 8) (a : Ahead) : Ahead :=
  let e := a.off + 64
  let fall : Ahead := if e < s.sl[l].len a.seg then { a with off := e } else { a with seg := a.seg + 1, off := 0 }
  match s.transferAt l a.seg (e - 1) with
  | none => fall
  | some w => match opOf (wOp w) with
    | some .jmp | some .fseam => { a with seg := wTarget w, off := 0 }
    | some .call =>
      if 16 ≤ a.stack.length then { a with done := true }
      else { a with seg := wTarget w, off := 0, stack := wField w 0 20 :: a.stack }
    | some .ret => match a.stack with
      | c :: r => { a with seg := c, off := 0, stack := r }
      | [] => { a with done := true }
    | some .halt => { a with done := true }
    | _ => fall

/-- The position some hems on, and the places of those hems. -/
def State.aheadWalk (s : State) (l : Fin 8) : Nat → Ahead → Ahead × List (Nat × Nat)
  | 0, a => (a, [])
  | k + 1, a =>
    if a.done then (a, [])
    else
      let r := s.aheadWalk l k (s.aheadNext l a)
      (r.1, (a.seg, a.off) :: r.2)

/-- Plays of the hem at a position: its 64 vectors and their repeats. -/
def State.hemPlays (s : State) (l : Fin 8) (a : Ahead) : Nat :=
  64 + (((s.words l a.seg).filter fun e => wOp e.2 == 2 && decide (a.off ≤ e.1) && decide (e.1 < a.off + 64)).map
    fun e => wField e.2 0 32).sum

/-- The horizon of a lead-in and its carry: 2.0 µs. -/
def horizon : Nat := 25600 * unit32

/-- The stack of the burst at its next vector, top first. -/
def State.stackNow (s : State) (l : Fin 8) : List Nat :=
  (List.range s.sl[l].seq.sp).reverse.map fun k => s.rd (fSlStack_SEG l k)

/-- The hems of the lead-in of target t along the path that plays and, after a target shorter than the horizon, those of its
carry: their vectors and the position after them. The lead-in is met once, as the target is entered: `walked` vectors of it are
behind. The carry ends at the horizon, at the end of the path and at a hem of `held`. -/
def State.leadWalk (s : State) (l : Fin 8) (t : Nat) (held : List (Nat × Nat)) : Nat → Nat → Nat → Ahead → Nat × Ahead
  | 0, _, _, a => (0, a)
  | k + 1, walked, tm, a =>
    let x := s.sl[l]
    let lead := a.seg == t && a.off == walked && decide (walked < x.leadIn t)
    let carry := decide (x.len t * x.pw t < horizon) && decide (tm < horizon) && !held.contains (a.seg, a.off)
    if !a.done && (lead || carry) then
      let r := s.leadWalk l t held k (walked + 64) (tm + s.hemPlays l a * x.pw a.seg) (s.aheadNext l a)
      (r.1 + 64, r.2)
    else (0, a)

/-- Hems that a lead-in with its carry can hold at the shortest period. -/
def leadHems : Nat := 256

/-- The position on the fall-through path after the vector last played. -/
def State.fallFrom (s : State) (l : Fin 8) : Ahead :=
  let q := s.sl[l].seq
  if q.off < s.sl[l].len q.seg then { Ahead.reset with seg := q.seg, off := q.off, stack := s.stackNow l }
  else { Ahead.reset with seg := q.seg + 1, stack := s.stackNow l }

/-- The stream of a member as a conditional transfer to t is taken (R175): the lead-in and its carry play from the Bobbin. The
FIFO's fall-through data is discarded; what the play after the carry meets of it stays (the worked example of R176, assumption
47). Otherwise the port restarts after the carry, and a restart still pending is cancelled. -/
def State.branchStream (s : State) (l m : Fin 8) (t : Nat) : Slice :=
  let x := s.sl[m]
  let held := ((s.aheadWalk l (x.ahead.bobbin / 64 + x.fifo / 1024) (s.fallFrom l)).2).drop (x.ahead.bobbin / 64)
  let r := s.leadWalk l t held leadHems 0 0 { Ahead.reset with seg := t, stack := s.stackNow l }
  let i := held.idxOf (r.2.seg, r.2.off)
  if i < held.length && decide (s.sl[l].len t * s.sl[l].pw t < horizon) then
    { x with fifo := x.fifo - 1024 * i, ahead := { x.ahead with bobbin := r.1, restart := false } }
  else { x with fifo := 0, ahead := { r.2 with bobbin := r.1, restart := !r.2.done } }

/-- The hems of a path from a position on: segment, offset, first vector and plays, where the first hem begins at vector v. -/
def State.pathHems (s : State) (l : Fin 8) : Nat → Nat → Ahead → List (Nat × Nat × Nat × Nat)
  | 0, _, _ => []
  | k + 1, v, a =>
    if a.done then []
    else
      let p := s.hemPlays l a
      (a.seg, a.off, v, p) :: s.pathHems l k (v + p) (s.aheadNext l a)

/-- Whether a stream error lies in a hem of a path. -/
def EccPend.on (e : EccPend) (h : Nat × Nat × Nat × Nat) : Bool :=
  e.seg == h.1 && decide (h.2.1 ≤ e.off) && decide (e.off < h.2.1 + 64) && decide (h.2.2.1 ≤ e.vec) && decide (e.vec < h.2.2.1 + h.2.2.2)

/-- The plays of some hems of a path. -/
def playsOf (l : List (Nat × Nat × Nat × Nat)) : Nat := (l.map (·.2.2.2)).sum

/-- A stream error found before a conditional transfer to t, as the transfer is taken (spec/04 R166): one in the lead-in or the carry
stays; one in the fall-through data that the FIFO keeps comes when that data plays; one in the data discarded goes with it. -/
def State.eccBranch (s : State) (l : Fin 8) (t : Nat) (e : EccPend) : Option EccPend :=
  let m := if e.data then e.origin else l
  let x := s.sl[m]
  let y := s.branchStream l m t
  let v := s.sl[l].seq.vec
  let lead := s.pathHems l (y.ahead.bobbin / 64) v { Ahead.reset with seg := t, stack := s.stackNow l }
  let fall := s.pathHems l (x.ahead.bobbin / 64 + x.fifo / 1024) v (s.fallFrom l)
  let gone := x.ahead.bobbin / 64 + (x.fifo - y.fifo) / 1024
  if lead.any e.on then some e
  else if (fall.drop gone).any e.on then some { e with vec := e.vec - playsOf (fall.take gone) + playsOf lead }
  else if fall.any e.on then none
  else some e

/-- The data of the hem at the read-ahead position put into the FIFO, where it has room (R174); the first data of a restart
ends it. -/
def State.streamRead (s : State) (n : Fin 8) : State :=
  let x := s.sl[n]
  if x.ahead.done || decide (0x100000 < x.fifo + 1024) then s
  else
    let a := s.aheadNext x.lead x.ahead
    s.modSl n fun x => { x with fifo := x.fifo + 1024, ahead := { a with restart := false } }

/-- The address of the hem at the read-ahead position of a slice (spec/03 R99). -/
def State.aheadAddr (s : State) (n : Fin 8) : Nat := s.imageBase n s.sl[n].ahead.seg + 64 + 16 * s.sl[n].ahead.off

/-- One vector's data taken: from the Bobbin while a lead-in and its carry play, else from the FIFO. -/
def Slice.takeVector (x : Slice) : Slice :=
  if x.ahead.bobbin = 0 then { x with fifo := x.fifo - 16 } else { x with ahead := { x.ahead with bobbin := x.ahead.bobbin - 1 } }

/-- PREFILL_DONE (R65, R66): the FIFO holds its fill, the read-ahead stands behind it and the slice becomes ARMED; an IMMEDIATE
start lies 40 ns or more after the last member's. -/
def execPrefillDone (n : Fin 8) (s : State) : Host.Outcome State Fault Refusal :=
  .next <|
    if s.sl[n].st = .prefill then
      let l := s.sl[n].lead
      let seg := s.sl[l].seq.seg
      let fill := s.sl[l].fifoFill seg
      let a := (s.aheadWalk l (fill / 1024) { Ahead.reset with seg := seg }).1
      let s' := s.modSl n fun x => { x with st := .armed, fifo := fill, ahead := a }
      let s' := if s.rd (fSlBurst_MODE s.sl[n].recv) = 0 then
          s'.modSl l fun x => { x with t0 := max x.t0 (s.time.tick.toNat + 512) }
        else s'
      s'.openInput l
    else s

end Sys2Proof.Machine
end

