-- ==== Sys2Proof/Machine/Sequencer.lean ====
section
/-! DEFINITION. The control words of a burst, its seams and its run-time hem boundaries (spec/04, spec/05). A vector-class
word is a command before the group that holds its vector, a transfer-class word one at the hem boundary after its vector;
each acts on the burst of the slice it names: the gang's lead decides, and every member's sequencer follows the same stream
(assumptions 12, 46). -/

namespace Sys2Proof.Machine

open Sys2Proof

/-! ## Places -/

/-- Whether vector-class words act now. -/
def Slice.takesWords (x : Slice) : Bool := x.fed && !x.seq.hemDue && !x.seq.excRaised

/-- Whether a transfer-class word acts now: at a hem boundary, at the last play of its vector. -/
def Slice.takesTransfer (x : Slice) : Bool :=
  x.fed && x.seq.hemDue && !x.seq.excRaised && !x.seq.taken && !x.seq.halted && x.seq.rptLeft == 0

/-- A control word of a vector as it is presented, with the stack and the loop counters of the lead as they then are. -/
def State.presented (s : State) (l : Fin 8) (w : DWord) (v : Nat) : MWord :=
  ⟨w, v, s.sl[l].seq.sp, (List.range 8).map fun k => s.rd (fSlLc_VALUE l k)⟩

/-- A control word of a vector presented to the microcode engine of every member (spec/15 R520). -/
def State.dispatch (s : State) (l : Fin 8) (w : DWord) (v : Nat) : State :=
  s.modSeqs l fun q => { q with micro := q.micro.present (.word (s.presented l w v)) }

/-- A vector-class word: the effect at the lead, with its vector and offset, where words act and the word is its
instruction's. -/
def State.vecWord (s : State) (n : Fin 8) (k : Fin 4) (w : DWord) (is_ : Nat → Bool) (f : Fin 8 → Nat → Nat → State → State) : State :=
  let l := s.leadOf n
  if s.sl[l].takesWords && is_ s.sl[l].pwNow then f l (s.sl[l].seq.vec + k) (s.sl[l].seq.offAt k) (s.dispatch l w (s.sl[l].seq.vec + k)) else s

/-- A transfer-class word: the effect at the lead, where it acts and is its instruction's. -/
def State.xferWord (s : State) (n : Fin 8) (op : Op) (w : DWord) (f : Fin 8 → State → State) : State :=
  let l := s.leadOf n
  if s.sl[l].takesTransfer && wordIs op w s.sl[l].pwNow then f l (s.dispatch l w (s.sl[l].seq.vec - 1)) else s

/-- An exception raised by a transfer-class word at its vector (R164). -/
def State.xferExc (s : State) (l : Fin 8) (exc sub : Nat) (w : DWord) : State :=
  let q := s.sl[l].seq
  s.raiseExc l l exc sub q.seg (q.off - 1) (q.vec - 1) w

/-- An exception raised by a vector-class word. -/
def State.vecExc (s : State) (l : Fin 8) (exc sub off v : Nat) (w : DWord) : State :=
  s.raiseExc l l exc sub s.sl[l].seq.seg off v w

/-! ## Seams (spec/05 R171 to R173, spec/06 R210) -/

/-- Control passes to offset 0 of a segment after the vector last played. A taken conditional transfer plays from its
lead-in (R175), and errors in what was read go with the data that they lie in (spec/04 R166); every other transfer is where the read-ahead
already went. -/
def State.seam (s : State) (l : Fin 8) (t : Nat) (cond : Bool) (ts : Option Nat) : State :=
  let q := s.sl[l].seq
  let freq := s.sl[l].freqOf t
  let changes := freq != s.sl[l].freqOf q.seg
  let s0 := s
  let s := s.each (s.burstOf l) fun m s => s.modSl m fun y =>
    let z := s0.branchStream l m t
    { y with
      fifo := if cond then z.fifo else y.fifo
      ahead := if cond then z.ahead else y.ahead
      synth := if changes then { y.synth with seam := some (q.vec, freq) } else y.synth }
  s.modSeqs l fun q => { q with
    seg := t, off := 0, plays := 0, taken := true
    ts := ts.getD q.ts
    ecc := if cond then (q.ecc.filterMap (s0.eccBranch l t)).foldr addEcc [] else q.ecc
    epochs := if changes then (q.vec, q.sched q.vec, pwOf freq) :: q.epochs else q.epochs }

/-- A transfer to a segment: ILLEGAL where the reachable set does not hold it (R68), else `before` and the seam. -/
def State.transfer (s : State) (l : Fin 8) (t : Nat) (w : DWord) (cond : Bool) (ts : Option Nat)
    (before : State → State) : State :=
  if s.sl[l].reach.contains t then (before s).seam l t cond ts else s.xferExc l 3 1 w

/-! ## The compare window and the conditions (R148 to R151) -/

/-- Whether an evaluation at v sees a failing strobe on a lane of a member. -/
def Slice.sees (x : Slice) (d v : Nat) (lane : Fin 32) : Bool :=
  x.window.any fun e => e.2 == lane && decide (e.1 + d ≤ v)

/-- The decision distance of a burst (spec/05 R185). -/
def State.dist (s : State) (l : Fin 8) : Nat := s.rd (fSlDdist_D l)

/-- The site flag of a slot at vector v (R149). -/
def State.siteFlag (s : State) (l : Fin 8) (v j : Nat) : Bool :=
  (s.burstOf l).any fun m => (s.sl[m].lanesOf j).any fun k => s.sl[m].sees (s.dist l) v k

/-- A window clear at vector c in every member (R148). -/
def State.clearWindow (s : State) (l : Fin 8) (c : Nat) : State :=
  let d := s.dist l
  s.each (s.burstOf l) fun m s => s.modSl m fun x => { x with window := x.window.filter fun e => decide (c < e.1 + d) }

/-- Whether the latch of a slot shows fail. -/
def State.latched (s : State) (l : Fin 8) (j : Nat) : Bool :=
  (s.burstOf l).any fun m => s.filled [m] j && s.on ⟨aSlSitelat m, j, 1⟩

/-- The latch of a slot set in every member that fills it (R161, R180). -/
def State.setLatch (s : State) (l : Fin 8) (j : Nat) (fail : Bool) : State :=
  s.each (s.burstOf l) fun m s => if s.filled [m] j then s.wr ⟨aSlSitelat m, j, 1⟩ (b2n fail) else s

/-- The active slots of a burst: filled slots of the site mask (R149, R159). -/
def State.active (s : State) (l : Fin 8) : List Nat := bitList s.sl[l].seq.mask.toNat 32

/-- The value of a condition source at vector v before NEG; none where it names a site that the map gives to no member. -/
def State.source (s : State) (l : Fin 8) (v : Nat) (w : DWord) (level : Bool) : Option Bool :=
  let q := s.sl[l].seq
  let d := s.dist l
  let at_ := q.sampleAt v d
  let arg := cArg w
  match cSrc w with
  | 0x01 => some ((List.finRange 32).any fun k => k.val == arg && s.sl[l].sees d v k)
  | 0x02 => some ((s.active l).any fun j => s.siteFlag l v j)
  | 0x03 => (s.slotOf (s.burstOf l) arg).map fun j => s.siteFlag l v j
  | 0x04 => some ((s.active l).any fun j => s.siteFlag l v j)
  | 0x05 => some (s.active l != [] && (s.active l).all fun j => s.siteFlag l v j)
  | 0x06 => (s.slotOf (s.burstOf l) arg).map fun j => s.latched l j
  | 0x07 => some ((s.active l).any fun j => s.latched l j)
  | 0x08 => some (s.active l != [] && (s.active l).all fun j => s.latched l j)
  | 0x10 => some level
  | 0x11 => some (q.evts.any fun e => e.1 == arg && decide (((e.2 * unit32 : Nat) : Int) ≤ at_))
  | 0x12 => some (q.clEvents.any fun e => e.1 == arg && decide (((e.2 * unit32 : Nat) : Int) ≤ at_))
  | 0x18 => some (s.rd (fSlLc_VALUE l arg) == 0)
  | 0x19 => some q.mwTimeout
  | _ => some false

/-- The effect of CLR after an evaluation at vector v (R147, R150). -/
def State.condClear (s : State) (l : Fin 8) (v : Nat) (w : DWord) : State :=
  if cClr w then
    let at_ := s.sl[l].seq.sampleAt v (s.dist l)
    let later := fun (e : Nat × Nat) => e.1 != cArg w || decide (at_ < ((e.2 * unit32 : Nat) : Int))
    match cSrc w with
    | 0x01 | 0x02 | 0x03 | 0x04 | 0x05 => s.clearWindow l v
    | 0x11 => s.modSeqs l fun q => { q with evts := q.evts.filter later }
    | 0x12 => s.modSeqs l fun q => { q with clEvents := q.clEvents.filter later }
    | 0x19 => s.modSeqs l fun q => { q with mwTimeout := false }
    | _ => s
  else s

/-! ## Words of the transfer class -/

/-- JMP (R140). -/
def execJmp (n : Fin 8) (word : DWord) (s : State) : Host.Outcome State Fault Refusal :=
  .next <| s.xferWord n .jmp word fun l s => s.transfer l (wTarget word) word false none id

/-- FSEAM (R141): a jump that with TSV = 1 makes TS current from the target's first vector on. -/
def execFseam (n : Fin 8) (word : DWord) (s : State) : Host.Outcome State Fault Refusal :=
  .next <| s.xferWord n .fseam word fun l s =>
    s.transfer l (wTarget word) word false (if bitOf word.toNat 6 then some (wField word 0 6) else none) id

/-- CALL (R142). The stack is the lead's; STACK of another member stays as it is (assumption 46). -/
def execCall (n : Fin 8) (word : DWord) (s : State) : Host.Outcome State Fault Refusal :=
  .next <| s.xferWord n .call word fun l s =>
    let sp := s.sl[l].seq.sp
    if 16 ≤ sp then s.xferExc l 1 0 word
    else s.transfer l (wTarget word) word false none fun s =>
      (s.wr (fSlStack_SEG l sp) (wField word 0 20)).modSeqs l fun q => { q with sp := sp + 1 }

/-- RET (R142). -/
def execRet (n : Fin 8) (word : DWord) (s : State) : Host.Outcome State Fault Refusal :=
  .next <| s.xferWord n .ret word fun l s =>
    let sp := s.sl[l].seq.sp
    if sp = 0 then s.xferExc l 2 0 word
    else s.transfer l (s.rd (fSlStack_SEG l (sp - 1))) word false none fun s =>
      s.modSeqs l fun q => { q with sp := sp - 1 }

/-- HALT (R144): the code is the burst's, and every member shows it. -/
def execHalt (n : Fin 8) (word : DWord) (s : State) : Host.Outcome State Fault Refusal :=
  .next <| s.xferWord n .halt word fun l s =>
    (s.each (s.burstOf l) fun m s => s.wr (fSlSeqstat_HALT_CODE m) (wField word 0 8)).modSeqs l fun q => { q with halted := true }

/-- LOOP (R146). The counter is the lead's; the register of another member stays as it is (assumption 46). -/
def execLoop (n : Fin 8) (word : DWord) (s : State) : Host.Outcome State Fault Refusal :=
  .next <| s.xferWord n .loop word fun l s =>
    let c := fSlLc_VALUE l (wField word 0 3)
    let v := s.rd c
    if 1 < v then s.transfer l (wTarget word) word true none fun s => s.wr c (v - 1)
    else s.wr c 0

/-- BRC (R152): the condition is evaluated at the vector last played. -/
def execBrc (n : Fin 8) (word : DWord) (evt : Bool) (s : State) : Host.Outcome State Fault Refusal :=
  .next <| s.xferWord n .brc word fun l s =>
    let v := s.sl[l].seq.vec - 1
    match s.source l v word evt with
    | none => s.xferExc l 3 2 word
    | some b =>
      if b != cNeg word then s.transfer l (wTarget word) word true none fun s => s.condClear l v word
      else s.condClear l v word

/-- MWAIT (R153). -/
def execMwait (n : Fin 8) (word : DWord) (evt : Bool) (s : State) : Host.Outcome State Fault Refusal :=
  .next <| s.xferWord n .mwait word fun l s =>
    let v := s.sl[l].seq.vec - 1
    let c := fSlLc_VALUE l (cK word)
    let k := s.rd c
    match s.source l v word evt with
    | none => s.xferExc l 3 2 word
    | some b =>
      if b != cNeg word then (s.condClear l v word).modSeqs l fun q => { q with mwTimeout := false }
      else if 1 < k then s.transfer l (wTarget word) word true none fun s => (s.condClear l v word).wr c (k - 1)
      else ((s.condClear l v word).wr c 0).modSeqs l fun q => { q with mwTimeout := true }

/-! ## Words of the vector class -/

/-- ADV moves the placement point and does nothing at run time (R138). -/
def execAdv (_n : Fin 8) (_word : DWord) (s : State) : Host.Outcome State Fault Refusal := .next s

/-- RPT (R139): the repeat waits for the first play of its vector. -/
def execRpt (n : Fin 8) (k : Fin 4) (word : DWord) (s : State) : Host.Outcome State Fault Refusal :=
  .next <| s.vecWord n k word (wordIs .rpt word) fun l v _ s => s.modSeqs l fun q => { q with rptSet := wField word 0 32, rptOff := v }

/-- LDC (R145). -/
def execLdc (n : Fin 8) (k : Fin 4) (word : DWord) (s : State) : Host.Outcome State Fault Refusal :=
  .next <| s.vecWord n k word (wordIs .ldc word) fun l _ _ s => s.wr (fSlLc_VALUE l (wField word 32 3)) (wField word 0 32)

/-- TSET (R154): the later of two at one vector governs it. -/
def execTset (n : Fin 8) (k : Fin 4) (word : DWord) (s : State) : Host.Outcome State Fault Refusal :=
  .next <| s.vecWord n k word (wordIs .tset word) fun l v _ s => s.modSeqs l fun q => { q with tsets := q.tsets ++ [(v, wField word 0 6)] }

/-- An entry on its way to a queue of every member (R184). -/
def State.sendEntry (s : State) (l : Fin 8) (kind : QKind) (v off : Nat) (word : DWord) : State :=
  let seg := s.sl[l].seq.seg
  s.each (s.burstOf l) fun m s => s.modSl m fun x => { x with inflight := x.inflight ++ [⟨kind, v, seg, off, word⟩] }

/-- LVL (R155): ILLEGAL where SCOPE = SITE names a site that the map gives to no member. -/
def execLvl (n : Fin 8) (k : Fin 4) (word : DWord) (s : State) : Host.Outcome State Fault Refusal :=
  .next <| s.vecWord n k word (wordIs .lvl word) fun l v off s =>
    if wField word 14 2 = 2 && (s.slotOf (s.burstOf l) (wField word 32 8)).isNone then s.vecExc l 3 2 off v word
    else s.sendEntry l (.lvl (BitVec.ofNat 40 (wOpnd word))) v off word

/-- PMU (R156). -/
def execPmu (n : Fin 8) (k : Fin 4) (word : DWord) (s : State) : Host.Outcome State Fault Refusal :=
  .next <| s.vecWord n k word (wordIs .pmu word) fun l v off s => s.sendEntry l (.pmu (BitVec.ofNat 8 (wField word 0 8))) v off word

/-- TDC (R156). -/
def execTdc (n : Fin 8) (k : Fin 4) (word : DWord) (s : State) : Host.Outcome State Fault Refusal :=
  .next <| s.vecWord n k word (wordIs .tdc word) fun l v off s => s.sendEntry l (.tdc (BitVec.ofNat 8 (wField word 0 8))) v off word

/-- MKSET (R157). -/
def execMkset (n : Fin 8) (k : Fin 4) (word : DWord) (s : State) : Host.Outcome State Fault Refusal :=
  .next <| s.vecWord n k word (wordIs .mkset word) fun l v off s => s.sendEntry l (.mk (bitOf word.toNat 8) true (wField word 0 8)) v off word

/-- MKCLR (R157). -/
def execMkclr (n : Fin 8) (k : Fin 4) (word : DWord) (s : State) : Host.Outcome State Fault Refusal :=
  .next <| s.vecWord n k word (wordIs .mkclr word) fun l v off s => s.sendEntry l (.mk (bitOf word.toNat 8) false (wField word 0 8)) v off word

/-- The site mask of a burst replaced (R159). -/
def State.setMask (s : State) (l : Fin 8) (f : Word → Word → Word) : State :=
  let filled := BitVec.ofNat 32 (s.filledMask (s.burstOf l))
  s.modSeqs l fun q => { q with mask := f q.mask filled }

/-- MASK of an SMASK word. -/
def wMask (w : DWord) : Word := BitVec.ofNat 32 (wField w 0 32)

/-- SMASK LOAD (R159). -/
def execSmaskLoad (n : Fin 8) (k : Fin 4) (word : DWord) (s : State) : Host.Outcome State Fault Refusal :=
  .next <| s.vecWord n k word (smaskIs 0 word) fun l _ _ s => s.setMask l fun _ filled => wMask word &&& filled

/-- SMASK ENABLE (R159). -/
def execSmaskEnable (n : Fin 8) (k : Fin 4) (word : DWord) (s : State) : Host.Outcome State Fault Refusal :=
  .next <| s.vecWord n k word (smaskIs 1 word) fun l _ _ s => s.setMask l fun mask filled => mask ||| (wMask word &&& filled)

/-- SMASK DISABLE (R159). -/
def execSmaskDisable (n : Fin 8) (k : Fin 4) (word : DWord) (s : State) : Host.Outcome State Fault Refusal :=
  .next <| s.vecWord n k word (smaskIs 2 word) fun l _ _ s => s.setMask l fun mask _ => mask &&& ~~~wMask word

/-- SMASK DROP_FAILED (R159). -/
def execSmaskDropFailed (n : Fin 8) (k : Fin 4) (word : DWord) (s : State) : Host.Outcome State Fault Refusal :=
  .next <| s.vecWord n k word (smaskIs 3 word) fun l _ _ s =>
    let bad := BitVec.ofNat 32 (maskOf ((List.range 32).filter fun j => s.latched l j))
    s.setMask l fun mask _ => mask &&& ~~~(wMask word &&& bad)

/-- The latches of active sites whose site flag is set at vector v become fail (R161). -/
def State.accum (s : State) (l : Fin 8) (v : Nat) : State :=
  ((s.active l).filter fun j => s.siteFlag l v j).foldl (fun s j => s.setLatch l j true) s

/-- SLATCH ACCUM (R161). -/
def execSlatchAccum (n : Fin 8) (k : Fin 4) (word : DWord) (s : State) : Host.Outcome State Fault Refusal :=
  .next <| s.vecWord n k word (slatchIs 0 word) fun l v _ s => s.accum l v

/-- SLATCH ACCUM_CLRW (R161). -/
def execSlatchAccumClrw (n : Fin 8) (k : Fin 4) (word : DWord) (s : State) : Host.Outcome State Fault Refusal :=
  .next <| s.vecWord n k word (slatchIs 1 word) fun l v _ s => (s.accum l v).clearWindow l v

/-- SLATCH CLRW (R161). -/
def execSlatchClrw (n : Fin 8) (k : Fin 4) (word : DWord) (s : State) : Host.Outcome State Fault Refusal :=
  .next <| s.vecWord n k word (slatchIs 2 word) fun l v _ s => s.clearWindow l v

/-- SLATCH RESET (R161). -/
def execSlatchReset (n : Fin 8) (k : Fin 4) (word : DWord) (s : State) : Host.Outcome State Fault Refusal :=
  .next <| s.vecWord n k word (slatchIs 3 word) fun l _ _ s => (s.active l).foldl (fun s j => s.setLatch l j false) s

/-! ## Queue entries (R617) and markers -/

/-- An entry that meets a full queue: dropped, with QUEUE_BREACH of the slice's own queue (R164, R192). The first exception
ends the burst at a boundary that is not passed yet; after an earlier one, the boundary is the one that it set (R617). -/
def State.breach (s : State) (n : Fin 8) (sub : Nat) (e : InFlight) : State :=
  let l := s.leadOf n
  let t := s.raiseExc n n 4 sub e.seg e.off e.vec e.word
  if s.sl[l].seq.excRaised then t else t.endHere l .exception

/-- QUEUE_ENTRY_ARRIVAL: the oldest entry on its way meets its queue (R617). -/
def execQueueEntryArrival (n : Fin 8) (s : State) : Host.Outcome State Fault Refusal :=
  .next <| match s.sl[n].inflight with
    | [] => s
    | e :: rest =>
      let x := s.sl[n]
      let l := s.leadOf n
      let s := s.modSl n fun x => { x with inflight := rest }
      match e.kind with
      | .lvl o =>
        if 64 ≤ x.lvlq.length then s.breach n 1 e
        else
          let slot := s.slotOf (s.burstOf n) (bitsOf o.toNat 32 8)
          s.modSl n fun x => { x with
            lvlq := x.lvlq ++ [⟨bitsOf o.toNat 11 3, bitsOf o.toNat 16 16, x.lvlLanes o slot⟩] }
      | .pmu tag =>
        if 16 ≤ x.pmuq.length then s.breach n 2 e else s.modSl n fun x => { x with pmuq := x.pmuq ++ [⟨false, tag⟩] }
      | .tdc tag =>
        if 16 ≤ x.pmuq.length then s.breach n 2 e else s.modSl n fun x => { x with pmuq := x.pmuq ++ [⟨true, tag⟩] }
      | .mk m level coarse =>
        let q := if m then x.mkq1 else x.mkq0
        let entry : MkEntry := ⟨level, s.sl[l].seq.sched e.vec + coarse * unit32⟩
        if 16 ≤ q.length then s.breach n (if m then 4 else 3) e
        else if m then s.modSl n fun x => { x with mkq1 := x.mkq1 ++ [entry] }
        else s.modSl n fun x => { x with mkq0 := x.mkq0 ++ [entry] }

/-- The entries of a marker queue at its earliest edge instant leave; the last of them in stream order sets the level. -/
def markerStep (q : List MkEntry) (level : Bool) : List MkEntry × Bool :=
  match q with
  | [] => ([], level)
  | e :: r =>
    let first := r.foldl (fun t x => min t x.instant) e.instant
    let leave := q.filter fun x => x.instant == first
    (q.filter fun x => x.instant != first, (leave.getLast?.map (·.level)).getD level)

/-- MARKER_EDGE (R157, R158). -/
def execMarkerEdge (n : Fin 8) (m : Bool) (s : State) : Host.Outcome State Fault Refusal :=
  .next <| s.modSl n fun x =>
    if m then let p := markerStep x.mkq1 x.mk1; { x with mkq1 := p.1, mk1 := p.2 }
    else let p := markerStep x.mkq0 x.mk0; { x with mkq0 := p.1, mk0 := p.2 }

/-! ## Events -/

/-- EVT_INPUT_EDGE (R151): a rising edge at an instant becomes pending in every accepted burst. -/
def execEvtInputEdge (e : Fin 8) (tm : Nat) (s : State) : Host.Outcome State Fault Refusal :=
  .next <| s.each slices fun n s =>
    if s.sl[n].accepted then s.modSeq n fun q => { q with evts := q.evts ++ [(e.val, tm)] } else s

/-- STREAM_UNDERRUN (R61): a contained fault of the slice. -/
def execStreamUnderrun (n : Fin 8) (s : State) : Host.Outcome State Fault Refusal :=
  .next <|
    if s.sl[n].st = .running then (s.reportUnit (.underrun n) 0).containedSl n else s

/-- Whether a vector of the hem at the formatter input or of an earlier one lies at a place: as it was taken, else in the segment
that plays. -/
def Seq.playedOn (q : Seq) (x : Slice) (seg off vec : Nat) : Bool :=
  match x.played.find? fun p => p.vec == vec with
  | some p => p.seg == seg && p.off == off
  | none => q.seg == seg

/-- STREAM_ECC_ERROR (R166): kept until the hem boundary before its vector, where it is raised and its segment's entry records
it; where the group that follows that boundary has been taken already, and on the path that plays, an underrun. Data on a path
that a taken transfer left raises nothing (spec/10, the table of meeting events). -/
def execStreamEccError (n : Fin 8) (data : Bool) (seg off vec : Nat) (word : DWord) (s : State) :
    Host.Outcome State Fault Refusal :=
  .next <|
    let l := s.leadOf n
    let m := if data then n else l
    let q := s.sl[l].seq
    if s.sl[l].st != .running && s.sl[l].st != .prefill && s.sl[l].st != .armed then s
    else if vec / 64 * 64 < q.vec then
      if q.playedOn s.sl[l] seg off vec then
        ((s.modSl m fun x => x.setSeg seg { x.seg seg with eccSeen := true }).reportUnit (.underrun n) 0).containedSl n
      else s
    else s.modSeqs l fun q => { q with ecc := addEcc ⟨data, n, seg, off, vec, if data then 0 else word⟩ q.ecc }

/-! ## Run-time hem boundaries (R136) -/

/-- HEM entered by every member's engine (spec/15 R518). -/
def State.hem (s : State) (l : Fin 8) : State := s.modSeqs l fun q => { q with micro := q.micro.interrupt entHem }

/-- Play continues after a boundary: at the next offset, or by fall-through at the end of a segment (R135, R171). -/
def State.goOn (s : State) (l : Fin 8) : State :=
  let x := s.sl[l]
  let s := if !x.seq.taken && x.seq.off = x.len x.seq.seg then s.seam l (x.seq.seg + 1) false none else s
  (s.modSeqs l fun q => { q with hemDue := false, taken := false }).hem l

/-- What the boundary does once HALT is ruled out: an exception raised before it, a stream error due in the hem that would
play next, SPOOL_HALT and ABORT_HEM end the burst, in this order (R60, R164, R166, spec/02 and spec/08, the tables of meeting
events); otherwise play goes on. A stream error due after a boundary that an earlier exception ends is not raised, nor counted in
LOST (assumption 20). -/
def State.takeBoundary (s : State) (l : Fin 8) : State :=
  let next := s.goOn l
  if s.sl[l].seq.excRaised then (s.hem l).finish l .exception
  else if next.sl[l].seq.eccDue ≠ [] then (next.dueEcc l).finish l .exception
  else if s.sl[l].seq.spoolStop then (s.hem l).finish l .spoolHalt
  else if s.sl[l].seq.abortHem then (s.hem l).finish l .abortHem
  else next

/-- HEM_BOUNDARY: the end that is due is taken, HALT first; otherwise play goes on. A boundary that comes before T0 ends nothing
until the burst is RUNNING. -/
def execHemBoundary (n : Fin 8) (s : State) : Host.Outcome State Fault Refusal :=
  .next <|
    let l := s.leadOf n
    if s.sl[l].fed && s.sl[l].seq.hemDue then
      let t := if s.sl[l].seq.halted then (s.hem l).finish l .halt else s.takeBoundary l
      if s.sl[l].st = .running then t
      else
        let q := s.sl[l].seq
        if q.halted || q.excRaised || (s.goOn l).sl[l].seq.eccDue != [] || q.spoolStop || q.abortHem then s else s.goOn l
    else s

/-! ## Aborts (spec/02 R78, R79, R83) -/

/-- ABORT_NOW of a running burst. At a boundary where the burst stands, a HALT or an exception, a stream error due after it among
them, goes first (spec/02, the table of meeting events), SPOOL_HALT and ABORT_HEM do not (assumption 20). -/
def State.abortNow (s : State) (l : Fin 8) : State :=
  let q := s.sl[l].seq
  let next := if q.hemDue then s.goOn l else s
  if q.hemDue && q.halted then (s.hem l).finish l .halt
  else if q.hemDue && q.excRaised then (s.hem l).finish l .exception
  else if next.sl[l].seq.eccDue ≠ [] ∧ (q.hemDue || q.atBoundary) then (next.dueEcc l).finish l .exception
  else s.finish l .abortNow

/-- An abort of either kind (R78, R79). ABORT_HEM takes a boundary not passed yet at once. A second START in CHECKING on a slice
whose burst runs is rejected with ABORTED, and the burst ends too (assumption 20). -/
def State.opAbort (s : State) (n : Fin 8) (now : Bool) : State :=
  let s := s.rejectCheck n .aborted
  match s.sl[n].st with
  | .prefill | .armed => s.finish n .withdrawn
  | .running =>
    let l := s.sl[n].lead
    if now then s.abortNow l
    else (s.modSeqs l fun q => { q with abortHem := true }).endHere l .abortHem
  | _ => s

/-- A write of BCMD (R79, R83): the overrides are stored, ABORT_NOW wins over ABORT_HEM and either over START. While the slice
is not ready only a START gets through, to be refused by admission (spec/01 R56). -/
def State.opBcmd (s : State) (ini : Initiator) (n : Fin 8) (v : Nat) : State :=
  if !s.isReady (.sl n) && (bitOf v 2 || bitOf v 1 || !bitOf v 0) then s.accErr ini .notready (aSlBcmd n)
  else
    let s := s.wrs [(fSlBcmd_OVR_QUEUE n, bitsOf v 5 1), (fSlBcmd_OVR_CAL n, bitsOf v 4 1)]
    if bitOf v 2 then s.opAbort n true
    else if bitOf v 1 then s.opAbort n false
    else if bitOf v 0 then s.opStart n (bitOf v 5) (bitOf v 4)
    else s

end Sys2Proof.Machine
end

