-- ==== Sys2Proof/Machine/Formatter.lean ====
section
/-! DEFINITION. Synthesizers, drive events and strobes (spec/06, spec/08 R293 to R296). -/

namespace Sys2Proof.Machine

open Sys2Proof

/-! ## Synthesizers (R207 to R213) -/

/-- The frequency word after a reset or a synthesizer fault: 100 MHz (R213). -/
def resetFreq : Nat := 0x02000000

/-- After a reset or a synthesizer fault both synthesizers recover, A takes over next, and they run at 100 MHz (R209, R212,
R213). -/
def Synths.recover (_y : Synths) : Synths := ⟨.recovering, .recovering, false, resetFreq, resetFreq, none⟩

/-- After SLICE_PARK, STANDBY, service or a loss of TROOT lock both synthesizers recover; the one that was ACTIVE last takes over
next, at its frequency word (R209, R213). -/
def Synths.relock (y : Synths) : Synths := { y with a := .recovering, b := .recovering, seam := none }

/-- The fault of a slice's synthesizers (R212). -/
def State.synthFault (s : State) (n : Fin 8) : State :=
  let s := (s.reportUnit (.synth n) 0).containedSl n
  let s := s.wr (fSlVclk_FAULT n) 1
  (s.modSl n fun x => { x with synth := x.synth.recover }).setReady (.sl n) false

/-- The hand-over of a slice: the outgoing synthesizer recovers, the incoming one drives VCLK at the segment's frequency word,
until the pins park where the burst is ending, and is STANDBY where they have (R208, R210, R211). -/
def Synths.handOver (y : Synths) (freq : Nat) (plays : Bool) : Synths :=
  let now := if plays then SynthRole.active else .standby
  if y.useB then { y with a := now, b := .recovering, useB := false, fa := freq, seam := none }
  else { y with a := .recovering, b := now, useB := true, fb := freq, seam := none }

/-- Whether the vectors of a slice still reach its pins. -/
def Slice.playing (x : Slice) : Bool := x.st == .running || (x.st == .ending && !x.parked)

/-- FSEAM_HANDOVER (R210); an incoming synthesizer that is not STANDBY is a synthesizer fault (R212). -/
def execFseamHandover (n : Fin 8) (s : State) : Host.Outcome State Fault Refusal :=
  .next <| match s.sl[n].synth.seam with
    | none => s
    | some (_, f) =>
      let y := s.sl[n].synth
      if (if y.useB then y.a else y.b) = .standby then
        let plays := s.sl[n].playing
        (s.wr (fSlHandover_COUNT n) (s.rd (fSlHandover_COUNT n) + 1)).modSl n fun x =>
          { x with synth := x.synth.handOver f plays }
      else s.synthFault n

/-- SYNTH_RECOVERED (R208, R212, R213). -/
def execSynthRecovered (n : Fin 8) (b : Bool) (s : State) : Host.Outcome State Fault Refusal :=
  .next <|
    (s.modSl n fun x =>
      let y := x.synth
      { x with synth :=
        if b then { y with b := if y.b = .recovering then .standby else y.b }
        else { y with a := if y.a = .recovering then .standby else y.a } }).trySlReady n

/-- SYNTH_FAULT (R212): an ACTIVE synthesizer loses lock. -/
def execSynthFault (n : Fin 8) (s : State) : Host.Outcome State Fault Refusal :=
  .next (if s.awake = true ∧ (s.sl[n].synth.a = .active ∨ s.sl[n].synth.b = .active) then s.synthFault n else s)

/-- DLL_LOCK_LOST (R230). -/
def execDllLockLost (n : Fin 8) (s : State) : Host.Outcome State Fault Refusal :=
  .next (s.whenAwake fun s => (s.reportUnit (.dll n) 0).wr (fPrStat_CAL_STALE n) 1)

/-! ## Waveform entries (R214 to R221) -/

/-- The vector number, offset and the rest of a vector that the formatter took. -/
def Slice.find (x : Slice) (vec : Nat) : Option Played := x.played.find? fun p => p.vec == vec

/-- The 4-bit symbol of a lane (R5). -/
def Played.symbol (p : Played) (lane : Fin 32) : Nat := bitsOf p.sym.toNat (4 * lane) 4

/-- The waveform entry that a vector selects for a lane (R220). -/
def State.entry (s : State) (n : Fin 8) (p : Played) (lane : Fin 32) : Nat :=
  s.rd ⟨aSlWent n p.ts lane (p.symbol lane), 0, 64⟩

/-- BASE + Ei in taps (R221). -/
def State.taps (s : State) (n : Fin 8) (ts : Nat) (lane : Fin 32) (i : Nat) : Nat :=
  s.rd (fSlWft_BASE n ts) + s.rd ⟨aSlWtime n ts lane (i / 2), 16 * (i % 2), 16⟩

/-- One tap in units of 2^-32 TROOT periods. -/
def tap : Nat := 2 ^ 24

/-- The nominal instant of a time in taps after a vector (R221). -/
def State.nominal (s : State) (n : Fin 8) (lane : Fin 32) (p : Played) (t : Nat) : Int :=
  (p.sched : Int) + ((t : Int) + signed (s.rd (fSlPinadj_ADJ n lane)) 12) * (tap : Int)

/-- A drop counted: 0 range, 1 drive collision, 2 strobe collision; the lane of the first drop since all flags were 0
(R239, R240). -/
def State.drop (s : State) (n : Fin 8) (lane : Fin 32) (kind : Nat) : State :=
  let s := if s.rd ⟨aSlWferr n, 0, 3⟩ = 0 then s.wr (fSlWferr_LANE n) lane else s
  (s.wr ⟨aSlWferr n, kind, 1⟩ 1).addSat (fSlWfcnt_COUNT n kind) 1

/-- Whether a drive event at an instant lies less than one TROOT period after the last one taken (R223). -/
def Lane.tooSoon (l : Lane) (t : Int) : Bool :=
  match l.lastEvent with | some u => decide (t < u + (unit32 : Int)) | none => false

/-- The drive state of an action (R218). -/
def driveOf (act : Nat) : Option Drive :=
  match act with | 1 => some .d0 | 2 => some .d1 | 3 => some .z | 4 => some .term | _ => none

/-- Whether a drive time lies two periods or more after its vector (R221). -/
def Played.beyond (p : Played) (t : Nat) : Bool := decide (2 * p.pw ≤ t * tap)

/-- An instant rounded to the tap, one half up (R228). -/
def roundTap (t : Int) : Int := (2 * t + tap) / (2 * tap) * tap

/-- The Press deskew of a drive state's path in taps: D0, D1, and OFF for high impedance and termination (R228). -/
def State.deskewOf (s : State) (n : Fin 8) (lane : Fin 32) (d : Drive) : Int :=
  match d with
  | .d0 => signed (s.rd (fSlDeskew_D0 n lane)) 8
  | .d1 => signed (s.rd (fSlDeskew_D1 n lane)) 8
  | .z | .term => signed (s.rd (fSlDeskew_OFF n lane)) 8

/-- The placed instant of a nominal instant under a deskew, as the edge generator counts it: whole TROOT periods and vernier
tap (R228). -/
def placed (t deskew : Int) : Int × Nat :=
  let p := roundTap (t + deskew * (tap : Int))
  (p / (unit32 : Int), (p % (unit32 : Int) / (tap : Int)).toNat)

/-- A drive event at a time in taps after its vector: dropped where it lies beyond two periods or too soon after the last
one, else taken. -/
def State.driveAt (s : State) (n : Fin 8) (lane : Fin 32) (p : Played) (d : Drive) (t : Nat) : State :=
  if p.beyond t then s.drop n lane 0
  else if s.sl[n].lanes[lane].tooSoon (s.nominal n lane p t) then s.drop n lane 1
  else s.modSl n fun x => x.modLane lane fun l =>
    { l with
      drive := d, park := none, cut := false, lastEvent := some (s.nominal n lane p t)
      edge := some (placed (s.nominal n lane p t) (s.deskewOf n lane d)) }

/-- The drive event of a slot of a vector's entry for a lane: what it sets and its time in taps; none where the slot holds
none. -/
def State.driveSlot (s : State) (n : Fin 8) (lane : Fin 32) (p : Played) (slot : Nat) : Option (Drive × Nat) :=
  let e := s.entry n p lane
  (driveOf (bitsOf e (7 * slot + 4) 3)).map fun d => (d, s.taps n p.ts lane (bitsOf e (7 * slot) 4))

/-- The order in which a pin's events are taken: nominal instant, vector, slot (R223). -/
abbrev DriveKey := Int × Nat × Nat
def keyBefore (a b : DriveKey) : Bool :=
  decide (a.1 < b.1) || (a.1 == b.1 && (decide (a.2.1 < b.2.1) || (a.2.1 == b.2.1 && decide (a.2.2 < b.2.2))))

/-- An event put into a list in the order of R223. -/
def insertKey (e : DriveKey) : List DriveKey → List DriveKey
  | [] => [e]
  | f :: l => if keyBefore e f then e :: f :: l else f :: insertKey e l

/-- The key of the drive event of a slot of a vector. -/
def State.driveKey (s : State) (n : Fin 8) (lane : Fin 32) (p : Played) (slot : Nat) : Option DriveKey :=
  (s.driveSlot n lane p slot).map fun e => (s.nominal n lane p e.2, p.vec, slot)

/-- The drive events of a lane in the vectors that the formatter took, not judged yet and up to a key, in order. -/
def State.driveDue (s : State) (n : Fin 8) (lane : Fin 32) (upTo : DriveKey) : List DriveKey :=
  let all := s.sl[n].played.flatMap fun p => (List.range 4).filterMap fun i => s.driveKey n lane p i
  let new := all.filter fun k => !keyBefore upTo k && match s.sl[n].lanes[lane].judged with | some j => keyBefore j k | none => true
  new.foldl (fun l k => insertKey k l) []

/-- The drive event that a key names: its vector, what it sets, its time in taps. -/
def State.driveNamed (s : State) (n : Fin 8) (lane : Fin 32) (k : DriveKey) : Option (Played × Drive × Nat) :=
  (s.sl[n].find k.2.1).bind fun p => (s.driveSlot n lane p k.2.2).map fun e => (p, e)

/-- An event put on its lane, taken or dropped. -/
def State.drivePut (s : State) (n : Fin 8) (lane : Fin 32) : Option (Played × Drive × Nat) → State
  | none => s
  | some e => s.driveAt n lane e.1 e.2.1 e.2.2

/-- One event judged. -/
def State.driveJudge (s : State) (n : Fin 8) (lane : Fin 32) (k : DriveKey) : State :=
  (s.drivePut n lane (s.driveNamed n lane k)).modSl n fun x => x.modLane lane fun l => { l with judged := some k }

/-- Every event that is not judged yet, up to one: none where the vector's entry holds none in that slot. -/
def State.driveUpTo (s : State) (n : Fin 8) (lane : Fin 32) : Option DriveKey → State
  | none => s
  | some k => s.each (s.driveDue n lane k) fun k s => s.driveJudge n lane k

/-- Whether a lane takes drive events: its vectors play, it is connected to its driver and its switch is not held open. -/
def State.drives (s : State) (n : Fin 8) (lane : Fin 32) : Bool :=
  s.sl[n].playing && s.rd (fSlPincfg_CONN n lane) == 1 && !(s.sl[n].lanes[lane].cut && s.sl[n].lanes[lane].park.isNone)

/-- DRIVE_EVENT (R218, R221 to R223): drive event `slot` of a lane's entry of a vector comes, with every event that comes before
it in the order of nominal instants; ignored where the lane is not connected to its driver (R242). -/
def execDriveEvent (n : Fin 8) (lane : Fin 32) (vec : Nat) (slot : Fin 4) (s : State) : Host.Outcome State Fault Refusal :=
  .next <|
    if s.drives n lane then s.driveUpTo n lane ((s.sl[n].find vec).bind fun p => s.driveKey n lane p slot) else s

/-! ## Strobes (R219, R224, R225, spec/08 R293 to R296) -/

/-- Whether the two thresholds of a lane are out of order, VOL not below VOH (spec/07 R246). -/
def State.crossed (s : State) (n : Fin 8) (lane : Fin 32) : Bool :=
  decide (s.rd (fSlLevel_CODE n lane 2) ≤ s.rd (fSlLevel_CODE n lane 3))

/-- Whether a strobe of an expectation fails on what the ball does; none where the spec leaves the result open or the
observation is not one of its kind. -/
def strobeFails (exp : Nat) (crossed : Bool) (edge : Bool) (obs : BallObs) : Option Bool :=
  if crossed && exp == 2 then some true
  else if crossed && exp == 3 then some false
  else match edge, obs with
    | true, .edge above below => some (match exp with
        | 0 => !below | 1 => !above | 2 => above || below | _ => !(above || below))
    | false, .windowClean => some false
    | false, .windowLong => some true
    | _, _ => none

/-- A strobe of an entry (R219): its kind, expectation, open and close in taps (an edge strobe has no close). -/
structure StrobeOf where
  kind : Nat
  exp : Nat
  open_ : Nat
  close : Nat
deriving DecidableEq, Repr

/-- The strobe of a unit in a vector's entry for a lane. -/
def State.strobeOf (s : State) (n : Fin 8) (lane : Fin 32) (p : Played) (unit : Fin 2) : StrobeOf :=
  let e := s.entry n p lane
  let b := 28 + 12 * unit.val
  ⟨bitsOf e (b + 10) 2, bitsOf e (b + 8) 2, s.taps n p.ts lane (bitsOf e b 4), s.taps n p.ts lane (bitsOf e (b + 4) 4)⟩

/-- Whether an entry holds a strobe: an edge or a window. -/
def StrobeOf.on (o : StrobeOf) : Bool := o.kind == 1 || o.kind == 2

/-- Whether a strobe breaks a range rule of R221. -/
def StrobeOf.bad (o : StrobeOf) (p : Played) : Bool :=
  p.beyond o.open_ || (o.kind == 2 && (p.beyond o.close || decide (o.close < o.open_ + 256)))

/-- The span in which a strobe holds its unit: up to the close, or 78.125 ps after an edge strobe (R224). -/
def State.strobeSpan (s : State) (n : Fin 8) (lane : Fin 32) (p : Played) (o : StrobeOf) : Int × Int :=
  let a := s.nominal n lane p o.open_
  (a, if o.kind = 1 then a + (unit32 : Int) else s.nominal n lane p o.close)

/-- Whether an instant lies in one of some spans. -/
def inSpans (l : List (Int × Int)) (t : Int) : Bool := l.any fun e => decide (e.1 ≤ t) && decide (t < e.2)

/-- The spans in which a unit is held, with that of a vector's strobe: one that breaks a range rule or finds the unit busy with an
earlier vector's holds nothing. -/
def State.takeSpan (s : State) (n : Fin 8) (lane : Fin 32) (unit : Fin 2) (spans : List (Int × Int)) (p : Played) :
    List (Int × Int) :=
  let o := s.strobeOf n lane p unit
  let e := s.strobeSpan n lane p o
  if o.on && !o.bad p && !inSpans spans e.1 then spans ++ [e] else spans

/-- The spans of a unit that strobes of vectors older than those of `played` hold. -/
def Slice.heldSpans (x : Slice) (lane : Fin 32) (unit : Fin 2) : List (Int × Int) :=
  (x.units.filter fun e => e.lane == lane && e.unit == unit).map fun e => (e.start, e.close)

/-- The spans in which a unit is held after the strobes of some vectors, oldest first. -/
def State.unitSpans (s : State) (n : Fin 8) (lane : Fin 32) (unit : Fin 2) (l : List Played) : List (Int × Int) :=
  l.foldl (s.takeSpan n lane unit) (s.sl[n].heldSpans lane unit)

/-- The spans kept as the oldest vector taken leaves `played`: those that can still hold a strobe of a later vector, whose PINADJ
moves it by less than eight TROOT periods. -/
def State.retire (s : State) (n : Fin 8) (p : Played) : List UnitSpan :=
  (List.finRange 32).flatMap fun k => (List.finRange 2).flatMap fun u =>
    ((s.takeSpan n k u (s.sl[n].heldSpans k u) p).filter fun e => decide ((p.sched : Int) < e.2 + 8 * (unit32 : Int))).map fun e =>
      ⟨k, u, e.1, e.2⟩

/-- The vectors before one that the formatter took, oldest first. -/
def Slice.earlier (x : Slice) (vec : Nat) : List Played := (x.played.filter fun p => decide (p.vec < vec)).reverse

/-- Whether the unit of a strobe is busy with a strobe of an earlier vector (R224). -/
def State.unitBusy (s : State) (n : Fin 8) (lane : Fin 32) (unit : Fin 2) (p : Played) : Bool :=
  inSpans (s.unitSpans n lane unit (s.sl[n].earlier p.vec)) (s.strobeSpan n lane p (s.strobeOf n lane p unit)).1

/-- The failing strobes of a vector kept for its Spool record, in vector order. -/
def addFail (f : FailVec) : List FailVec → List FailVec
  | [] => [f]
  | g :: l =>
    if f.vec < g.vec then f :: g :: l
    else if f.vec = g.vec then
      { g with lanes := g.lanes ||| f.lanes, s0 := g.s0 || f.s0, s1 := g.s1 || f.s1, spill := g.spill || f.spill } :: l
    else g :: addFail f l

/-- A failing strobe delivered: compare window, fail counter, FFVEC, and the Spool under full capture (R293 to R296). -/
def State.failStrobe (s : State) (n : Fin 8) (lane : Fin 32) (p : Played) (unit : Fin 2) (spill : Bool) : State :=
  let c := fSlFailcnt_COUNT n lane
  let s := s.addSat c 1
  let s := if s.rd c = 0xFFFFFFFF then s.wr ⟨aSlFcsat n, lane, 1⟩ 1 else s
  let s := s.wr (fSlFfvec_VEC n) (min (s.rd (fSlFfvec_VEC n)) p.vec)
  let full := s.on (fSlBurst_CAPTURE n)
  s.modSl n fun x => { x with
    window := if x.window.contains (p.vec, lane) then x.window else x.window ++ [(p.vec, lane)]
    fails := if full then addFail ⟨p.vec, p.off, p.seg, p.ts, BitVec.ofNat 32 (2 ^ lane.val), unit == 0, unit == 1, spill, p.again⟩ x.fails
      else x.fails }

/-- Whether the pattern's strobes of a lane give no result: the scope engine is armed on it, or the vector began before the
acquisition ended (spec/08 R311, R316). -/
def State.scopeMutes (s : State) (n : Fin 8) (lane : Fin 32) (vec : Nat) : Bool :=
  let c := s.sl[n].scope
  if c.armed then s.rd (fSlScpcfg_LANE n) == lane.val else c.muted == lane.val && decide (vec < c.resume)

/-- STROBE (R219, R221, R224, R225, R293): strobe `unit` of a lane's entry of a vector. A lane in the OPEN connection and
an excursion shorter than 50 ps give a free result (R225, R242). A strobe that the scope mutes counts in neither WFCNT nor WFERR, and
holds its unit all the same (assumption 68). -/
def execStrobe (n : Fin 8) (lane : Fin 32) (vec : Nat) (unit : Fin 2) (obs : BallObs) (s : State) :
    Host.Outcome State Fault Refusal :=
  .next <|
    let x := s.sl[n]
    if !x.playing || s.scopeMutes n lane vec then s
    else match x.find vec with
      | none => s
      | some p =>
        let o := s.strobeOf n lane p unit
        if !o.on then s
        else if o.bad p then s.drop n lane 0
        else if s.unitBusy n lane unit p then s.drop n lane 2
        else
          let e := s.strobeSpan n lane p o
          let cmp := signed (s.rd (fSlDeskew_CMP n lane)) 8
          let s := s.modSl n fun x => x.modLane lane fun l =>
            { l with sampled := some (placed e.1 cmp), closed := if o.kind = 2 then some (placed e.2 cmp) else l.closed }
          let open_ := s.rd (fSlPincfg_CONN n lane) == 0 || x.lanes[lane].cut
          let known := if open_ then none else strobeFails o.exp (s.crossed n lane) (o.kind = 1) obs
          let r := match known with
            | some f => (f, s)
            | none => (s.freeVal.1.getLsbD 0, s.freeVal.2)
          let end_ := if o.kind = 1 then e.1 else e.2
          if r.1 then r.2.failStrobe n lane p unit (decide ((p.sched : Int) + (p.pw : Int) ≤ end_)) else r.2

end Sys2Proof.Machine
end

