-- ==== Sys2Proof/Machine/Fields.lean ====
section
/-! DEFINITION. A write acting on a register's fields by access type (spec/00 R18 to R22). -/

namespace Sys2Proof.Machine

open Sys2Proof

/-- Which words of a register a write touches. -/
inductive Part where
  | lo | hi | all
deriving DecidableEq, Repr

/-- The bits of a register that a write touches. -/
def Part.mask : Part → DWord
  | .lo => 0x00000000FFFFFFFF | .hi => 0xFFFFFFFF00000000 | .all => 0xFFFFFFFFFFFFFFFF

/-- The bits of a field. -/
def FieldD.mask (f : FieldD) : DWord := BitVec.ofNat 64 ((2 ^ f.w - 1) * 2 ^ f.lo)

/-- Whether a field accepts a value (R22). -/
def FieldD.accepts (f : FieldD) (v : Nat) : Bool := f.ok.isEmpty || f.ok.any fun r => r.1 ≤ v && v ≤ r.2

/-- One field of a register under a write of the bits v where m is set: the new register and whether an encoding that
the field does not list was written. -/
def FieldD.write (f : FieldD) (cur v m : DWord) : DWord × Bool :=
  let k := f.mask &&& m
  if k = 0 then (cur, false)
  else match f.acc with
    | .rw =>
      let n := (cur &&& ~~~k) ||| (v &&& k)
      if f.accepts (bitsOf n.toNat f.lo f.w) then (n, false)
      else ((cur &&& ~~~f.mask) ||| (BitVec.ofNat 64 (f.reset * 2 ^ f.lo) &&& f.mask), true)
    | .rw1c => (cur &&& ~~~(v &&& k), false)
    | .ro | .wo | .rw1s => (cur, false)

/-- Every field of a list under a write. -/
def writeFields (fs : List FieldD) (cur v m : DWord) : DWord × Bool :=
  fs.foldl (fun a f => let r := f.write a.1 v m; (r.1, a.2 || r.2)) (cur, false)

/-- The address of an instance. -/
def Reg.addr (r : Reg) (ix : List Nat) : Nat := r.desc.base + ((r.desc.dims.zip ix).map fun e => e.1.2 * e.2).sum

/-- The stored value of a register instance. -/
def State.regVal (s : State) (r : Reg) (ix : List Nat) : DWord :=
  let a := r.addr ix
  let lo := (s.reg a).setWidth 64
  if r.desc.wide then lo ||| ((s.reg (a + 4)).setWidth 64 <<< 32) else lo

/-- The stored value of a register instance replaced. -/
def State.setVal (s : State) (r : Reg) (ix : List Nat) (v : DWord) : State :=
  let a := r.addr ix
  let s := s.setReg a (v.setWidth 32)
  if r.desc.wide then s.setReg (a + 4) ((v >>> 32).setWidth 32) else s

/-- The address that ACCERR captures for a write of some part. -/
def Reg.at (r : Reg) (ix : List Nat) (p : Part) : Nat := if p = .hi then r.addr ix + 4 else r.addr ix

/-- A write acting on some of a register's fields: RW sets, RW1C clears, RSVD where an encoding is not listed. -/
def State.writeSome (s : State) (ini : Initiator) (r : Reg) (ix : List Nat) (p : Part) (v : DWord) (f : FieldD → Bool) :
    State :=
  let x := writeFields (r.desc.fields.filter f) (s.regVal r ix) v p.mask
  let s := s.setVal r ix x.1
  if x.2 then s.accErr ini .rsvd (r.at ix p) else s

/-- A write acting on all of a register's fields (R18). -/
def State.writeReg (s : State) (ini : Initiator) (r : Reg) (ix : List Nat) (p : Part) (v : DWord) : State :=
  s.writeSome ini r ix p v fun _ => true

/-- A write that is refused while a condition holds: the register keeps its value, and BUSY is set. -/
def State.writeUnless (s : State) (busy : Bool) (ini : Initiator) (r : Reg) (ix : List Nat) (p : Part) (v : DWord) : State :=
  if busy then s.accErr ini .busy (r.at ix p) else s.writeReg ini r ix p v

end Sys2Proof.Machine
end

