-- ==== Sys2Proof/Machine/Pins.lean ====
section
/-! DEFINITION. Pin connections, level DACs and the DAC tick, PPMUs, parking (spec/07 R241 to R258, spec/05 R187, R188). -/

namespace Sys2Proof.Machine

open Sys2Proof

/-- Whether a Press run is in progress on a slice. -/
def State.pressing (s : State) (n : Fin 8) : Bool := s.press[n].phase != .off

/-! ## Connections (R241, R244, R549) -/

/-- A lane as its PINCFG is written: a park state ends with the driver off, and the switch takes its connection (spec/05
R188). -/
def Lane.configured (l : Lane) : Lane :=
  { l with drive := if l.park.isSome then .z else l.drive, park := none, cut := false }

/-- A write of PINCFG[k]: refused while the slice is not IDLE or a Press run is in progress, and for CONN = DRIVER or PPMU
while a cause of the safe state is held. -/
def State.opPincfg (s : State) (ini : Initiator) (n : Fin 8) (k : Fin 32) (v : DWord) : State :=
  let conn := bitsOf v.toNat 0 2
  if !s.sl[n].isIdle || s.pressing n || (s.safeHeld && (conn == 1 || conn == 2)) then s.accErr ini .busy (aSlPincfg n k)
  else (s.writeReg ini .slPincfg [n, k] .lo v).modSl n fun x => x.modLane k Lane.configured

/-! ## Levels (R252, R253) -/

/-- A level entry pushed by software, as an LVL word with the same operand bits (R253). One whose SITE the map gives to no member
is queued and changes no lane (assumption 45). -/
def State.pushLevel (s : State) (ini : Initiator) (n : Fin 8) (opnd : DWord) : State :=
  if s.pressing n then s.accErr ini .busy (aSlLvlpush n + 4)
  else if !operandsOk .lvl (BitVec.ofNat 64 (wOpnd opnd)) 0 then s.accErr ini .rsvd (aSlLvlpush n + 4)
  else if 64 ≤ s.sl[n].lvlq.length then s.wr (fSlLvlstat_FULLDROP n) 1
  else
    let o := BitVec.ofNat 40 (wOpnd opnd)
    let slot := s.slotOf (s.gang n) (bitsOf o.toNat 32 8)
    s.modSl n fun x => { x with lvlq := x.lvlq ++ [⟨bitsOf o.toNat 11 3, bitsOf o.toNat 16 16, x.lvlLanes o slot⟩] }

/-- A write of LVLPUSH (R274): the low word is stored; the high word or a 64-bit write pushes. During a Press run every write is refused
(spec/16 R549). -/
def State.opLvlpush (s : State) (ini : Initiator) (n : Fin 8) (p : Part) (v : DWord) : State :=
  match p with
  | .lo => if s.pressing n then s.accErr ini .busy (aSlLvlpush n) else s.setReg (aSlLvlpush n) (v.setWidth 32)
  | .all => (if s.pressing n then s else s.setReg (aSlLvlpush n) (v.setWidth 32)).pushLevel ini n v
  | .hi => s.pushLevel ini n ((v &&& 0xFFFFFFFF00000000) ||| (s.reg (aSlLvlpush n)).setWidth 64)

/-- Whether a level change meets the VOH of the scope lane (spec/08 R311). -/
def State.scopeClash (s : State) (n : Fin 8) (dac : Nat) (lanes : Word) : Bool :=
  s.sl[n].scope.armed && dac == 2 && bitOf lanes.toNat (s.rd (fSlScpcfg_LANE n))

/-- A code that reaches a DAC, corrected (R250). -/
def State.driveDac (s : State) (n : Fin 8) (k : Fin 32) (d : Fin 7) (code : Nat) : State :=
  s.modSl n fun x => { x with dac := x.dac.set k (x.dac[k].set d (x.corr[k][d].code code)) }

/-- A level entry applied: LEVEL shows the nominal code, the DAC takes the corrected one (R250, R252); the scope lane's VOH
stays. -/
def State.applyLevel (s : State) (n : Fin 8) (dac code : Nat) (lanes : Word) : State :=
  let clash := s.scopeClash n dac lanes
  let spare := s.rd (fSlScpcfg_LANE n)
  let s := s.each ((bitList lanes.toNat 32).filter fun k => !(clash && k == spare)) fun k s =>
    (s.wr (fSlLevel_CODE n k dac) code).driveDac n (Fin.ofNat 32 k) (Fin.ofNat 7 dac) code
  if clash then s.wr (fSlScpstat_LVLCLASH n) 1 else s

/-- A PPMU takes the settings of its register: its force code corrected in its range (spec/16 R546). -/
def State.applyPpmu (s : State) (n : Fin 8) (corr : Vector (Vector PmuCorr 5) 32) (k : Fin 32) : State :=
  let range := s.rd (fSlPmu_RANGE n k)
  let set : PpmuSet := ⟨BitVec.ofNat 2 (s.rd (fSlPmu_MODE n k)), BitVec.ofNat 3 range,
    BitVec.ofNat 16 (corr[k][(Fin.ofNat 5 range : Fin 5)].force.code (s.rd (fSlPmu_FORCE n k)))⟩
  s.modSl n fun x => { x with
    ppmu := x.ppmu.set k set
    ppmuLimit := if set.mode = 0 || set.mode = 3 then x.ppmuLimit &&& ~~~BitVec.ofNat 32 (2 ^ k.val) else x.ppmuLimit }

/-- The corrections with which a Press run restores its slice: the new ones where its checks passed (spec/16 R549). -/
def State.restoreWith (s : State) (n : Fin 8) : Vector (Vector Corr 7) 32 × Vector (Vector PmuCorr 5) 32 :=
  match s.press[n].found with
  | some (.pass _ l _ p) => (l, p)
  | _ => (s.sl[n].corr, s.sl[n].ppmuCorr)

/-- What the pipe's entries do as they are applied; a level entry names one of the seven DACs (R250). -/
def State.applyItem (s : State) (n : Fin 8) (i : DacItem) : State :=
  match i with
  | .level d c l => if d < 7 then s.applyLevel n d c l else s
  | .ppmu k => s.applyPpmu n s.sl[n].ppmuCorr k
  | .scopeVoh k c => (s.wr (fSlLevel_CODE n k 2) c).driveDac n k 2 c
  | .restore =>
    let p := s.press[n]
    let s := { s with press := s.press.set n { p with phase := if p.phase = PressPhase.restore then .restored else p.phase } }
    let c := s.restoreWith n
    (s.modSl n fun x => { x with dac := s.dacCodesBy n c.1 }).each lanes32 fun k s => s.applyPpmu n c.2 k

/-- One slice at a DAC tick: what was taken two ticks ago is applied, then the head level entry, the staged PPMU changes
and the restore of a Press run are taken (R252, R258, R549). -/
def State.tickSlice (s : State) (n : Fin 8) : State :=
  let due := (s.sl[n].dacPipe.filter fun e => e.1 == 1).map (·.2)
  let s := s.modSl n fun x => { x with dacPipe := (x.dacPipe.filter fun e => e.1 != 1).map fun e => (e.1 - 1, e.2) }
  let s := due.foldl (fun s i => s.applyItem n i) s
  let restore := s.press[n].phase == .restore && !(s.sl[n].dacPipe.any fun e => e.2 == .restore)
  s.modSl n fun x =>
    let head := match x.lvlq with | e :: _ => [(2, DacItem.level e.dac e.code e.lanes)] | [] => []
    let pmu := (lanes32.filter fun (k : Fin 32) => bitOf x.ppmuStaged.toNat k).map fun (k : Fin 32) => (2, DacItem.ppmu k)
    { x with
      lvlq := x.lvlq.tail, ppmuStaged := 0
      dacPipe := x.dacPipe ++ head ++ pmu ++ if restore then [(2, .restore)] else [] }

/-- The restore of a STANDBY exit at a DAC tick: taken, then applied two ticks later; where a cause of the safe state is
held as the codes would be taken, every slice takes the pin safe state instead (spec/17 R582). -/
def State.tickExit (s : State) : State :=
  match s.power.exitStep with
  | 1 => (if s.safeHeld then s.each slices fun n s => s.takeSafe n else s).modPower fun p => { p with exitStep := 2 }
  | 2 => s.modPower fun p => { p with exitStep := 3 }
  | 3 =>
    if s.power.peOff then s.modPower fun p => { p with exitStep := 4 }
    else
      (s.each slices fun n s =>
        let s := s.each lanes32 fun k s => s.applyItem n (.ppmu k)
        s.modSl n fun x => { x with dac := s.dacCodes n }).modPower fun p => { p with exitStep := 4 }
  | _ => s

/-- DAC_TICK (R252): the PE die of a parked slice holds its levels and PPMU settings (spec/17 R579), but for what its level queue
holds as STANDBY is entered: each level queue drains then (spec/17 R581, assumption 45). -/
def execDacTick (s : State) : Host.Outcome State Fault Refusal :=
  .next (s.each slices fun n s => if s.on ⟨aPwrctl, n, 1⟩ && s.power.st ≠ .entering then s else s.tickSlice n).tickExit

/-! ## PPMUs (R255 to R258) -/

/-- A write of PMU[k]: staged for the next DAC tick; a change that is not yet applied is replaced (R258). -/
def State.opPmuReg (s : State) (ini : Initiator) (n : Fin 8) (k : Fin 32) (v : DWord) : State :=
  if s.pressing n then s.accErr ini .busy (aSlPmu n k)
  else (s.writeReg ini .slPmu [n, k] .lo v).modSl n fun x => { x with
    ppmuStaged := x.ppmuStaged ||| BitVec.ofNat 32 (2 ^ k.val)
    dacPipe := x.dacPipe.filter fun e => e.2 != .ppmu k }

/-- PPMU_AT_LIMIT (R257). -/
def execPpmuAtLimit (n : Fin 8) (lane : Fin 32) (atLimit : Bool) (s : State) : Host.Outcome State Fault Refusal :=
  .next <| s.modSl n fun x =>
    let b := BitVec.ofNat 32 (2 ^ lane.val)
    let m := x.ppmu[lane].mode
    { x with ppmuLimit := if atLimit && (m == 1 || m == 2) then x.ppmuLimit ||| b else x.ppmuLimit &&& ~~~b }

/-! ## Parking (spec/05 R187, R188) -/

/-- A park mode's code. -/
def parkOf (m : Nat) : ParkMode :=
  match m with | 1 => .hiz | 2 => .low | 3 => .high | 4 => .hold | 5 => .term | _ => .open

/-- A lane parked. -/
def Lane.parkAs (l : Lane) (m : ParkMode) : Lane :=
  { l with
    park := some m
    drive := match m with | .open => l.drive | .hiz => .z | .low => .d0 | .high => .d1 | .hold => l.drive | .term => .term
    cut := m == .open || (m == .hold && l.cut) }

/-- A burst's trigger whose sample instant has not come as its pins park: the point waits for a later trigger (spec/08 R313). -/
def Scope.dropLate (c : Scope) (now : Nat) : Scope :=
  match c.trig with
  | some t => if !c.forced && decide ((now : Int) < t) then { c with trig := none } else c
  | none => c

/-- PINS_PARK: every pin of the slice takes the park state of PARK.MODE, the markers go low, and the synthesizer that drove the
last vectors is STANDBY (spec/06 R211). -/
def execPinsPark (n : Fin 8) (s : State) : Host.Outcome State Fault Refusal :=
  .next <|
    if s.sl[n].st = .ending && !s.sl[n].parked then
      let m := parkOf (s.rd (fSlPark_MODE n))
      s.modSl n fun x => { x with
        parked := true, mkq0 := [], mkq1 := [], mk0 := false, mk1 := false, synth := x.synth.rest
        scope := x.scope.dropLate s.now
        lanes := Vector.ofFn fun k : Fin 32 => x.lanes[k].parkAs m }
    else s

/-- BURST_IDLE: parked, and the Spool drained: the slice leaves ENDING for IDLE (R188, spec/08 R307). -/
def execBurstIdle (n : Fin 8) (s : State) : Host.Outcome State Fault Refusal :=
  .next <|
    let x := s.sl[n]
    if x.st = .ending && x.parked && x.stage.isEmpty && x.fails.isEmpty then
      let s := s.modSl n fun x => { x with st := .idle, reach := [] }
      let s := { s with press := s.press.set n { s.press[n] with idleSince := s.clock } }
      (s.msix (s.ownerSl n) (2 + n)).irqAll n
    else s

end Sys2Proof.Machine
end

