-- ==== Sys2Proof/Machine/Measure.lean ====
section
/-! DEFINITION. The slice's ADC and TDC, and the time base that corrects the TDC (spec/07 R259 to R270). -/

namespace Sys2Proof.Machine

open Sys2Proof

/-! ## Starting a sequence or a sum (R261, R262) -/

/-- Whether the TDC is armed: 30 ns after it took an arm (R267). -/
def Slice.tdcArmed (x : Slice) : Bool := match x.tdc with | some t => t.armed | none => false

/-- Whether a sequence or a sum runs. -/
def Slice.adcBusy (x : Slice) : Bool := x.adc.isSome || x.sumRun

/-- An averaging sequence starts: source 0 software, 1 timer, 2 pattern. -/
def State.startAdc (s : State) (n : Fin 8) (src : BitVec 2) (tag : Byte) : State :=
  s.modSl n fun x => { x with adc := some ⟨src, tag, 0, 0, 0, false, false, false⟩ }

/-- A sum starts: accumulator, count and OVF at 0. -/
def State.startSum (s : State) (n : Fin 8) : State :=
  (s.wrs [(fSlAdcsum_OVF n, 0), (fSlAdcsum_SUM n, 0), (fSlAdcsumn_COUNT n, 0)]).modSl n fun x => { x with sumRun := true }

/-- A software start, skipped while a sequence or a sum runs. -/
def State.adcStart (s : State) (n : Fin 8) : State :=
  if s.sl[n].adcBusy then s.wr (fSlAdcstat_SKIP n) 1
  else if s.adcSumMode n then s.startSum n
  else s.startAdc n 0 (BitVec.ofNat 8 (s.rd (fSlAdccmd_TAG n)))

/-- A write of ADCCMD (R282): TAG is stored, then STOP and START act in this order. -/
def State.opAdccmd (s : State) (n : Fin 8) (v : Nat) : State :=
  let s := s.wr (fSlAdccmd_TAG n) (bitsOf v 8 8)
  let s := if bitOf v 1 then s.modSl n fun x => { x with sumRun := false } else s
  if bitOf v 0 then s.adcStart n else s

/-- ADC_TIMER (R262): skipped while a sequence or a sum runs; a sum is started by software alone (R261). -/
def execAdcTimer (n : Fin 8) (s : State) : Host.Outcome State Fault Refusal :=
  .next <|
    if s.rd (fSlAdcctl_TRIGSRC n) != 1 || s.rd (fSlAdctmr_PERIOD n) == 0 then s
    else if s.sl[n].adcBusy then s.wr (fSlAdcstat_SKIP n) 1
    else if s.adcSumMode n then s
    else s.startAdc n 1 0

/-- ADC_DELAY_EXPIRY (R262). -/
def execAdcDelayExpiry (n : Fin 8) (s : State) : Host.Outcome State Fault Refusal :=
  .next <| s.modSl n fun x => { x with adc := x.adc.map fun a => { a with started := true } }

/-! ## Samples (R260, R261, R264, R265) -/

/-- A sample of a sequence: an entry's last one posts its record, and the last entry's ends the sequence. -/
def State.seqSample (s : State) (n : Fin 8) (a : AdcRun) (sample : Nat) : State :=
  let acc := a.acc + sample
  if a.taken + 1 < 2 ^ s.rd (fSlAdcseq_LOG2N n a.entry) then
    s.modSl n fun x => { x with adc := some { a with acc := acc, taken := a.taken + 1 } }
  else
    let value := acc / 2 ^ s.rd (fSlAdcseq_SHIFT n a.entry)
    let s := s.postAdc n (adcRecord a.preempted false false a.entry a.tag.toNat a.src.toNat value)
    if a.entry < s.rd (fSlAdcctl_LEN n) then
      s.modSl n fun x => { x with adc := some { a with entry := a.entry + 1, taken := 0, acc := 0, preempted := false } }
    else s.modSl n fun x => { x with adc := none, adcUrgent := false }

/-- A sample of a sum: saturating at 2^48 - 1 with OVF, ended at the limit. -/
def State.sumSample (s : State) (n : Fin 8) (sample : Nat) : State :=
  let sum := s.rd (fSlAdcsum_SUM n) + sample
  let s := if 2 ^ 48 ≤ sum then s.wr (fSlAdcsum_OVF n) 1 else s
  let s := (s.wr (fSlAdcsum_SUM n) (min sum (2 ^ 48 - 1))).addSat (fSlAdcsumn_COUNT n) 1
  if s.on (fSlAdcsumn_SUMN n) && s.rd (fSlAdcsumn_COUNT n) == s.rd (fSlAdcsumn_SUMN n) then
    s.modSl n fun x => { x with sumRun := false }
  else s

/-- ADC_SAMPLE_DONE. -/
def execAdcSampleDone (n : Fin 8) (sample : BitVec 18) (s : State) : Host.Outcome State Fault Refusal :=
  .next <| match s.sl[n].adc with
    | some a => if a.started then s.seqSample n a sample.toNat else s
    | none => if s.sl[n].sumRun then s.sumSample n sample.toNat else s

/-- An urgent request (R264): the sample in progress is discarded; a second request waits until the sequence ends.
One that falls in a sequence's start delay changes nothing: no conversion is in progress (assumption 68). -/
def Slice.adcUrge (x : Slice) : Slice :=
  match x.adc with
  | none => x
  | some a =>
    if a.urgentSpent then { x with adcUrgent := true }
    else if a.started then { x with adc := some { a with preempted := true, urgentSpent := true } }
    else x

/-- ADC_URGENT_REQUEST. -/
def execAdcUrgentRequest (n : Fin 8) (s : State) : Host.Outcome State Fault Refusal := .next <| s.modSl n Slice.adcUrge

/-! ## The PMU-trigger queue (R263) -/

/-- A PMU entry at the head of the queue: discarded, answered by a BUSY record, started, or waiting. -/
def State.takePmu (s : State) (n : Fin 8) (tag : Byte) : State :=
  let pop := s.modSl n fun x => { x with pmuq := x.pmuq.tail }
  if s.rd (fSlAdcctl_TRIGSRC n) != 2 then pop
  else if s.adcSumMode n then pop.freeVal.2.postAdc n (adcRecord false true false 0 tag.toNat 2 pop.freeVal.1.toNat)
  else if s.sl[n].adcBusy then s
  else pop.startAdc n 2 tag

/-- The TDC takes an arm; ignored from the take of another on, until its measurement ends (R267, assumption 45). -/
def State.armTdc (s : State) (n : Fin 8) (tag : Byte) : State :=
  if s.sl[n].tdc.isSome || s.power.st != .active then s
  else s.modSl n fun x => { x with tdc := some ⟨tag, false, false, 0⟩ }

/-- PMU_QUEUE_TAKE: while the PE dies are powered down for STANDBY, ADC and TDC take nothing (spec/17 R581). A TDC entry at the head
waits from the take of another arm on, before that arm's 30 ns are over too (assumption 45: R263 speaks of an armed TDC). -/
def execPmuQueueTake (n : Fin 8) (s : State) : Host.Outcome State Fault Refusal :=
  .next <| if s.power.st != .active then s else match s.sl[n].pmuq with
    | [] => s
    | e :: _ =>
      if e.tdc then
        if s.sl[n].tdc.isSome then s else (s.modSl n fun x => { x with pmuq := x.pmuq.tail }).armTdc n e.tag
      else s.takePmu n e.tag

/-! ## The TDC (R266 to R270) -/

/-- A write of TDCCMD (R289): TAG is stored, then CANCEL and ARM act in this order. -/
def State.opTdccmd (s : State) (n : Fin 8) (v : Nat) : State :=
  let s := s.wr (fSlTdccmd_TAG n) (bitsOf v 8 8)
  let s := if bitOf v 1 then s.endTdc n false true 0 else s
  if bitOf v 0 then s.armTdc n (BitVec.ofNat 8 (bitsOf v 8 8)) else s

/-- A write of TDCCFG (R266, R287): a marker beyond 1 is not accepted. -/
def State.opTdccfg (s : State) (ini : Initiator) (n : Fin 8) (v : DWord) : State :=
  if s.sl[n].tdcArmed then s.accErr ini .busy (aSlTdccfg n)
  else
    let s := s.writeReg ini .slTdccfg [n] .lo v
    let stop := s.rd (fSlTdccfg_STOP_KIND n) == 3 && decide (1 < s.rd (fSlTdccfg_STOP_SEL n))
    let start := s.rd (fSlTdccfg_START_KIND n) == 3 && decide (1 < s.rd (fSlTdccfg_START_SEL n))
    let s := if stop then s.wr (fSlTdccfg_STOP_SEL n) 0 else s
    let s := if start then s.wr (fSlTdccfg_START_SEL n) 0 else s
    if stop || start then s.accErr ini .rsvd (aSlTdccfg n) else s

/-- TDC_ARMED: edges are seen from here on. -/
def execTdcArmed (n : Fin 8) (s : State) : Host.Outcome State Fault Refusal :=
  .next <| s.modSl n fun x => { x with tdc := x.tdc.map fun t => { t with armed := true } }

/-- TDC_START_EDGE. -/
def execTdcStartEdge (n : Fin 8) (s : State) : Host.Outcome State Fault Refusal :=
  .next <| s.modSl n fun x => { x with tdc := x.tdc.map fun t => { t with started := t.started || t.armed } }

/-- The raw interval corrected for the XO, rounded to the nearest unit, halfway up (R268, assumption 45). -/
def State.xoCorrect (s : State) (raw : Nat) : Nat :=
  let d := (1000000000 + signed (s.rd fXotb_PPB) 18).toNat
  (2 * raw * 1000000000 + d) / (2 * d)

/-- TDC_STOP: a qualifying stop edge after the start; the first STOPSKIP of them are passed over. -/
def execTdcStop (n : Fin 8) (raw : Nat) (s : State) : Host.Outcome State Fault Refusal :=
  .next <| match s.sl[n].tdc with
    | none => s
    | some t =>
      if !t.started then s
      else if t.stops < s.rd (fSlTdccfg_STOPSKIP n) then
        s.modSl n fun x => { x with tdc := some { t with stops := t.stops + 1 } }
      else s.endTdc n false false (s.xoCorrect raw)

/-- TDC_TIMEOUT. -/
def execTdcTimeout (n : Fin 8) (s : State) : Host.Outcome State Fault Refusal :=
  .next <| match s.sl[n].tdc with
    | some t => if t.armed then s.endTdc n true false 0 else s
    | none => s

/-- TDC_LOCK_LOST (R270). -/
def execTdcLockLost (n : Fin 8) (s : State) : Host.Outcome State Fault Refusal :=
  .next <| s.modSl n fun x => { x with tdcLock := false }

/-! ## The time base (R269) -/

/-- The run of agreeing estimates ended. -/
def State.dropDisc (s : State) : State := (s.wr fXotb_DISC_LOCK 0).modTime fun t => { t with discCount := 0 }

/-- XO_DISCIPLINE_UPDATE (R269): PPB takes the estimate; ten estimates in a row, each within 1 ppb of the one before it, set
DISC_LOCK, and one that is not clears it (assumption 45). -/
def execXoDisciplineUpdate (ppb : Int) (s : State) : Host.Outcome State Fault Refusal :=
  .next <|
    if s.disciplined then
      let near := s.time.discCount != 0 && decide ((ppb - s.time.discLast).natAbs ≤ 1)
      let k := if near then s.time.discCount + 1 else 1
      let s := s.wrs [(fXotb_PPB, unsignedOf ppb 18), (fXotb_DISC_LOCK, b2n (decide (10 ≤ k)))]
      s.modTime fun t => { t with discCount := min k 10, discLast := ppb }
    else s

/-- A write of XOTB: PPB is dropped with BUSY while the time base is disciplined. A write that leaves it undisciplined clears DISC_LOCK
and the run of agreeing estimates (assumption 68). -/
def State.opXotb (s : State) (ini : Initiator) (v : DWord) : State :=
  let disc := s.disciplined
  let s := s.writeSome ini .xotb [] .lo v fun f => f.lo != 0 || !disc
  let s := if disc then s.accErr ini .busy aXotb else s
  if s.disciplined then s else s.dropDisc

end Sys2Proof.Machine
end

