-- ==== Sys2Proof/Machine/Spool.lean ====
section
/-! DEFINITION. The Spool, the fail counters and the site latches (spec/08 R294 to R308). -/

namespace Sys2Proof.Machine

open Sys2Proof

/-! ## Records (R300, R301, R305) -/

/-- The record of a failing vector. -/
def Slice.recordOf (x : Slice) (n : Fin 8) (f : FailVec) : SpoolRec where
  vec := f.vec
  off := f.off
  segts := BitVec.ofNat 32 (f.seg % 2 ^ 20 + f.ts % 64 * 2 ^ 20)
  fail := f.lanes
  flags := BitVec.ofNat 32 (b2n f.s0 + 2 * b2n f.s1 + 4 * b2n f.spill + 8 * b2n f.again)
  seq := BitVec.ofNat 32 x.spSeq
  id := BitVec.ofNat 32 (n.val + x.bursts % 65536 * 65536)

/-- The 32 bytes of a record, little-endian. -/
def SpoolRec.bytes (r : SpoolRec) : List Byte :=
  leBytes 8 r.vec ++ leBytes 4 r.off ++ leBytes 4 r.segts.toNat ++ leBytes 4 r.fail.toNat ++ leBytes 4 r.flags.toNat ++
    leBytes 4 r.seq.toNat ++ leBytes 4 r.id.toNat

/-- A record put at the end of the stage. -/
def Slice.stagePut (x : Slice) (r : SpoolRec) : Slice := { x with stage := x.stage ++ [r] }

/-- A record that meets the stage, under the policy in force. HALT ends the burst at the next boundary not passed yet (spec/02
R78). -/
def State.spoolStore (s : State) (n : Fin 8) (r : SpoolRec) : State :=
  if s.on (fSlSpstat_STOPPED n) || s.on (fSlSpstat_HALTED n) then s.addSat (fSlSpdrop_COUNT n) 1
  else if s.sl[n].stage.length < stageSize then s.modSl n fun x => x.stagePut r
  else
    let s := s.addSat (fSlSpdrop_COUNT n) 1
    match s.rd (fSlSpcfg_POLICY n) with
    | 0 => s.wr (fSlSpstat_STOPPED n) 1
    | 1 => ((s.wr (fSlSpstat_HALTED n) 1).modSeqs n fun q => { q with spoolStop := true }).endHere (s.leadOf n) .spoolHalt
    | _ => s.modSl n fun x => { x with stage := x.stage.tail }.stagePut r

/-- SPOOL_RECORD: the record of the oldest failing vector, every strobe of which has completed. -/
def execSpoolRecord (n : Fin 8) (s : State) : Host.Outcome State Fault Refusal :=
  .next <| match s.sl[n].fails with
    | [] => s
    | f :: rest =>
      let r := s.sl[n].recordOf n f
      (s.modSl n fun x => { x with fails := rest, spSeq := x.spSeq + 1 }).spoolStore n r

/-! ## The ring (R302 to R306) -/

/-- Records in the ring. -/
def State.ringDepth (s : State) (n : Fin 8) : Nat :=
  (s.rd (fSlSpwr_COUNT n) + 2 ^ 32 - s.rd (fSlSprd_COUNT n)) % 2 ^ 32

/-- A write of SPRD: accepted from the old SPRD up to SPWR (R304). -/
def State.opSprd (s : State) (n : Fin 8) (v : Nat) : State :=
  let left := (s.rd (fSlSpwr_COUNT n) + 2 ^ 32 - v % 2 ^ 32) % 2 ^ 32
  if left ≤ s.ringDepth n then s.wr (fSlSprd_COUNT n) v else s.wr (fSlSpstat_RDERR n) 1

/-! ## Commands (R295, R307) -/

/-- The records of the stage discarded and counted. -/
def State.dropStage (s : State) (n : Fin 8) : State :=
  (s.addSat (fSlSpdrop_COUNT n) s.sl[n].stage.length).modSl n fun x => { x with stage := [] }

/-- A write of SPCMD: DISCARD acts in ENDING only; CNTCLR is refused while the slice is not IDLE. -/
def State.opSpcmd (s : State) (ini : Initiator) (n : Fin 8) (v : Nat) : State :=
  let s := if bitOf v 1 && s.sl[n].st == .ending then s.dropStage n else s
  if !bitOf v 0 then s
  else if !s.sl[n].isIdle then s.accErr ini .busy (aSlSpcmd n)
  else s.resetRegs (inSpan (aSlFailcnt n 0) 0x84)

/-! ## Site latches (R297, R298) -/

/-- A write of SITELAT (to pass) or SITESET (to fail): each slot in every member of the gang that fills it. -/
def State.opLatch (s : State) (ini : Initiator) (n : Fin 8) (v : Nat) (fail : Bool) : State :=
  let g := s.gang n
  if !(g.all fun m => s.sl[m].isIdle) then s.accErr ini .busy (if fail then aSlSiteset n else aSlSitelat n)
  else s.each g fun m s =>
    s.each ((bitList v 32).filter fun j => s.filled [m] j) fun j s => s.wr ⟨aSlSitelat m, j, 1⟩ (b2n fail)

/-! ## The site map (spec/05 R178 to R182) -/

/-- The staged entry of a slot: its site ID where it is filled. -/
def State.stagedSlot (s : State) (n : Fin 8) (j : Nat) : Option Byte :=
  if s.on (fSlSmapSlot_EN n j) then some (BitVec.ofNat 8 (s.rd (fSlSmapSlot_SITE n j))) else none

/-- The staged entry of a lane: its slot where it belongs to a site. -/
def State.stagedLane (s : State) (n : Fin 8) (k : Fin 32) : Option (Fin 32) :=
  if s.on (fSlSmapLane_EN n k) then some (Fin.ofNat 32 (s.rd (fSlSmapLane_SLOT n k))) else none

/-- The site ID of a slot of the map in force. -/
def Slice.siteAt (x : Slice) (j : Nat) : Option Byte := (x.mapSlot[j]?).getD none

/-- Whether a slice has a site ID in force. -/
def Slice.hasSite (x : Slice) (site : Byte) : Bool := (List.range 32).any fun j => x.siteAt j == some site

/-- Whether two slices are ganged with each other (R179). -/
def State.ganged (s : State) (a b : Fin 8) : Bool :=
  [a, b].all fun m => bitOf (s.rd (fSlGang_MEMBERS m)) a && bitOf (s.rd (fSlGang_MEMBERS m)) b

/-- Whether the slot of a new map clashes with another member's: one slot with two site IDs, or one site ID in two
slots. -/
def State.slotClash (s : State) (n : Fin 8) (j : Nat) : Bool :=
  match s.stagedSlot n j with
  | none => false
  | some b => (s.gang n).any fun m => m != n && (List.range 32).any fun i =>
      match s.sl[m].siteAt i with
      | some c => (i == j && c != b) || (i != j && c == b)
      | none => false

/-- The first check that a commit fails, with its detail. -/
def State.smapCheck (s : State) (n : Fin 8) : Option (Nat × Nat) :=
  let sites := (List.range 32).filterMap fun j => s.stagedSlot n j
  (((s.gang n).find? fun (m : Fin 8) => !s.sl[m].isIdle).map fun m => (1, m.val)) <|>
  ((lanes32.find? fun (k : Fin 32) =>
      match s.stagedLane n k with | some j => (s.stagedSlot n j).isNone | none => false).map fun k => (2, k.val)) <|>
  (((List.range 32).find? fun j =>
      match s.stagedSlot n j with
      | some b => (List.range j).any fun i => s.stagedSlot n i == some b
      | none => false).map fun j => (3, j)) <|>
  ((slices.find? fun (m : Fin 8) => m != n && !s.ganged n m && sites.any fun b => s.sl[m].hasSite b).map fun m => (4, m.val)) <|>
  (((List.range 32).find? fun j => s.slotClash n j).map fun j => (5, j))

/-- The staged map in force; the latch of each slot whose entry changes goes to pass (R298), in every member of the gang that
fills the slot: a site has one latch (R180). -/
def State.smapApply (s : State) (n : Fin 8) : State :=
  let changed := (List.range 32).filter fun j => s.stagedSlot n j != s.sl[n].siteAt j
  let t := s.modSl n fun x => { x with
    mapLane := Vector.ofFn fun k : Fin 32 => s.stagedLane n k
    mapSlot := Vector.ofFn fun j : Fin 32 => s.stagedSlot n j }
  t.each changed fun j s => s.each (s.gang n) fun m s => if m = n ∨ s.filled [m] j then s.wr ⟨aSlSitelat m, j, 1⟩ 0 else s

/-- A commit. -/
def State.smapCommit (s : State) (ini : Initiator) (n : Fin 8) : State :=
  match s.smapCheck n with
  | none => s.smapApply n
  | some (e, d) =>
    let s := s.wrs [(fSlSmapstat_REFUSED n, 1), (fSlSmapstat_ERR n, e), (fSlSmapstat_DETAIL n, d)]
    if e = 1 then s.accErr ini .busy (aSlSmapcmd n) else s

/-- The map in force copied into staging; what it does not hold, a disabled lane's SLOT and an unfilled slot's SITE, reads 0
(assumption 65). -/
def State.smapRevert (s : State) (n : Fin 8) : State :=
  let x := s.sl[n]
  let s := s.each lanes32 fun k s => s.setReg (aSlSmapLane n k) (match x.mapLane[k] with | some j => BitVec.ofNat 32 (32 + j.val) | none => 0)
  s.each lanes32 fun j s => s.setReg (aSlSmapSlot n j) (match x.mapSlot[j] with | some b => BitVec.ofNat 32 (256 + b.toNat) | none => 0)

/-- A write of SMAPCMD: COMMIT first, then REVERT. -/
def State.opSmapcmd (s : State) (ini : Initiator) (n : Fin 8) (v : Nat) : State :=
  let s := if bitOf v 0 then s.smapCommit ini n else s
  if bitOf v 1 then s.smapRevert n else s

/-- A write of GANG (R181, R182, R185): a value that names other slices but not this one is not accepted; an accepted one
copies the lead's D to every member of the gang it makes. A value that is not accepted sets RSVD and is judged as its field's reset
value, 0, also where GANG_BREAK then refuses the write (assumption 66). -/
def State.opGang (s : State) (ini : Initiator) (n : Fin 8) (v : Nat) : State :=
  let v := v % 256
  let odd := v != 0 && !bitOf v n
  let new := if odd then 0 else v
  let old := s.rd (fSlGang_MEMBERS n)
  if !(slices.all fun m => !(m == n || bitOf old m || bitOf v m) || s.sl[m].isIdle) then s.accErr ini .busy (aSlGang n)
  else
    let broken := slices.find? fun (m : Fin 8) => m != n && !bitOf new m &&
      (List.range 32).any fun j => match s.sl[n].siteAt j with | some b => s.sl[m].hasSite b | none => false
    let s := if odd then s.accErr ini .rsvd (aSlGang n) else s
    match broken with
    | some m => s.wrs [(fSlSmapstat_REFUSED n, 1), (fSlSmapstat_ERR n, 6), (fSlSmapstat_DETAIL n, m)]
    | none =>
      let s := s.wr (fSlGang_MEMBERS n) new
      let g := s.gang n
      let d := s.rd (fSlDdist_D (g.headD n))
      s.each g fun m s => s.wr (fSlDdist_D m) d

end Sys2Proof.Machine
end

