-- ==== Sys2Proof/Machine/Scope.lean ====
section
/-! DEFINITION. Scope mode: equivalent-time sampling of one lane (spec/08 R310 to R316). -/

namespace Sys2Proof.Machine

open Sys2Proof

/-- The scope lane of a slice. -/
def State.scopeLane (s : State) (n : Fin 8) : Fin 32 := Fin.ofNat 32 (s.rd (fSlScpcfg_LANE n))

/-- The engine of a slice changed. -/
def State.modScope (s : State) (n : Fin 8) (f : Scope → Scope) : State :=
  s.modSl n fun x => { x with scope := f x.scope }

/-- A code for the scope lane's VOH DAC, to be taken at the next DAC tick and applied two ticks later. -/
def State.stageVoh (s : State) (n : Fin 8) (code : Nat) : State :=
  let k := s.scopeLane n
  s.modSl n fun x => { x with dacPipe := x.dacPipe ++ [(3, .scopeVoh k code)] }

/-- The VOH code of a threshold row. -/
def State.rowCode (s : State) (n : Fin 8) (row : Nat) : Int :=
  (s.rd (fSlScplev_VSTART n) : Int) + (row : Int) * signed (s.rd (fSlScplev_VSTEP n)) 16

/-- Whether ARM breaks one of its range checks (R310). -/
def State.armRange (s : State) (n : Fin 8) : Bool :=
  decide (s.rd (fSlScpcfg_NLEV n) ≤ s.rd (fSlScpcfg_TRIGROW n)) ||
  decide (2 ^ 24 ≤ s.rd (fSlScptime_TSTART n) + (s.rd (fSlScppts_NPTS n) - 1) * s.rd (fSlScppts_STEP n)) ||
  (List.range (s.rd (fSlScpcfg_NLEV n))).any fun l => decide (s.rowCode n l < 0) || decide (65535 < s.rowCode n l)

/-- ARM (R310, R312); where the engine is armed already, the acquisition starts anew (assumption 68). -/
def State.scopeArm (s : State) (ini : Initiator) (n : Fin 8) : State :=
  if !s.sl[n].isIdle || s.on (fSlBurst_CAPTURE n) then s.accErr ini .busy (aSlScpcmd n)
  else if s.armRange n then s.accErr ini .rsvd (aSlScpcmd n)
  else
    let voh := s.rd (fSlLevel_CODE n (s.scopeLane n) 2)
    let s := (s.setReg (aSlScptrig n) 0).wr (fSlScpstat_FORCED n) 0
    (s.modScope n fun _ => { Scope.reset with st := .settle, savedVoh := voh }).stageVoh n (s.rowCode n 0).toNat

/-- The engine ends, and the lane's VOH returns to its code at ARM; the lane's strobes give results again from the next vector. -/
def State.scopeEnd (s : State) (n : Fin 8) (st : ScopeState) : State :=
  let next := s.sl[n].seq.before (s.now + 1)
  let lane := s.rd (fSlScpcfg_LANE n)
  (s.modScope n fun c => { c with st := st, trig := none, resume := next, muted := lane }).stageVoh n s.sl[n].scope.savedVoh

/-- A write of SCPCMD (R332): CANCEL, then ARM. -/
def State.opScpcmd (s : State) (ini : Initiator) (n : Fin 8) (v : Nat) : State :=
  let s := if bitOf v 1 && s.sl[n].scope.armed then s.scopeEnd n .cancelled else s
  if bitOf v 0 then s.scopeArm ini n else s

/-- SCOPE_SETTLED (R312). -/
def execScopeSettled (n : Fin 8) (s : State) : Host.Outcome State Fault Refusal :=
  .next <| s.modScope n fun c => if c.st = .settle then { c with st := .sampling } else c

/-- The sample instant of a trigger at an instant (R313). -/
def State.sampleInstant (s : State) (n : Fin 8) (t : Int) : Int :=
  let k := s.scopeLane n
  let off := (s.rd (fSlScptime_TSTART n) + s.sl[n].scope.point * s.rd (fSlScppts_STEP n) : Nat)
  let adj := signed (s.rd (fSlPinadj_ADJ n k)) 12 + signed (s.rd (fSlDeskew_CMP n k)) 8
  roundTap (t + (off + adj) * (tap : Int))

/-- SCOPE_TRIGGER (R313): a play, in a burst of the slice, of the vector at SCPREF, skipped while a sample is outstanding and during
settling. -/
def execScopeTrigger (n : Fin 8) (vec : Nat) (s : State) : Host.Outcome State Fault Refusal :=
  .next <| match s.sl[n].find vec with
    | none => s
    | some p =>
      let c := s.sl[n].scope
      let mine := p.seg == s.rd (fSlScpref_SEG n) && p.off == s.rd (fSlScpref_OFFSET n)
      if mine && s.sl[n].playing && c.st == .sampling && c.trig.isNone then
        let t := s.sampleInstant n p.sched
        s.modScope n fun c => { c with trig := some t, forced := false }
      else s

/-- SCOPE_FORCED_TRIGGER (R314): at the next TROOT boundary. -/
def execScopeForcedTrigger (n : Fin 8) (s : State) : Host.Outcome State Fault Refusal :=
  .next <|
    let c := s.sl[n].scope
    if s.on (fSlScpcfg_AUTO n) && c.st == .sampling && c.trig.isNone then
      let t := s.sampleInstant n ((s.now + unit32 : Nat) : Int)
      (s.addSat (fSlScpstat_FORCED n) 1).modScope n fun c => { c with trig := some t, forced := true }
    else s

/-- The trigger point of a row of counts from its point i - 1 on (R315). -/
def triggerPoint (hits : Nat) (fall : Bool) : Nat → List Nat → Option Nat
  | i, a :: b :: rest =>
    let lo := if fall then hits - a else a
    let hi := if fall then hits - b else b
    if 2 * lo < hits ∧ hits ≤ 2 * hi then
      some (64 * (i - 1) + (2 * (64 * (hits - 2 * lo)) + 2 * (hi - lo)) / (2 * (2 * (hi - lo))))
    else triggerPoint hits fall (i + 1) (b :: rest)
  | _, _ => none

end Sys2Proof.Machine
end

