-- ==== Sys2Proof/Machine/Scan.lean ====
section
/-! DEFINITION. SCAN raster units (spec/09), and the vectors that the formatter takes with the symbols of owned lanes
replaced. -/

namespace Sys2Proof.Machine

open Sys2Proof

/-- Enabled: EN = 1. -/
def Scan.enabled (c : Scan) : Bool := c.st != .off

/-- The slices that a unit is attached to (R335). -/
def State.attached (s : State) (u : Fin 4) : List (Fin 8) :=
  let b := s.rd (fScCtrl_SLB u)
  Fin.ofNat 8 (s.rd (fScCtrl_SLA u)) :: if b < 8 then [Fin.ofNat 8 b] else []

/-- The slice and lane of a unit lane; none where no second slice is attached. -/
def State.laneAt (s : State) (u : Fin 4) (j : Nat) : Option (Nat × Nat) :=
  if j < 32 then some (s.rd (fScCtrl_SLA u), j)
  else if s.rd (fScCtrl_SLB u) < 8 then some (s.rd (fScCtrl_SLB u), j - 32) else none

/-- Whether a unit owns its unit lane j. -/
def State.owns (s : State) (u : Fin 4) (j : Nat) : Bool := s.on (fScRole_ROLE u j)

/-- The unit lane by which a unit owns a lane of a slice. -/
def State.unitLane (s : State) (u : Fin 4) (n : Fin 8) (k : Nat) : Option Nat :=
  (List.range 64).find? fun j => s.owns u j && s.laneAt u j == some (n.val, k)

/-! ## Frame registers -/

/-- The shadows of the frame registers, in the order of `Scan.live`. -/
def State.shadows (s : State) (u : Fin 4) : Vector Word 8 :=
  Vector.ofFn fun i : Fin 8 => s.reg (aScFcfg u + 4 * i.val)

/-- Fields of the frame registers. -/
def fStretch (f : Vector Word 8) : Bool := bitOf f[0].toNat 17
def fOvlMiss (f : Vector Word 8) : Bool := bitOf f[0].toNat 16
def fOvlMode (f : Vector Word 8) : Nat := bitsOf f[0].toNat 14 2
def fVmax (f : Vector Word 8) : Nat := bitsOf f[1].toNat 0 16
def fBaseOff (f : Vector Word 8) : Nat := f[2].toNat * 64
def fBaseStride (f : Vector Word 8) : Nat := bitsOf f[3].toNat 0 16 * 64
def fOvlOff (f : Vector Word 8) : Nat := f[4].toNat * 64
def fOvlStride (f : Vector Word 8) : Nat := bitsOf f[5].toNat 0 16 * 64
def fOvlX (f : Vector Word 8) : Nat := bitsOf f[6].toNat 0 16
def fOvlY (f : Vector Word 8) : Nat := bitsOf f[6].toNat 16 16
def fOvlW (f : Vector Word 8) : Nat := bitsOf f[7].toNat 0 16
def fOvlH (f : Vector Word 8) : Nat := bitsOf f[7].toNat 16 16

/-- DATA lanes below unit lane j, in unit-lane order (R337). -/
def State.dataBelow (s : State) (u : Fin 4) (j : Nat) : Nat :=
  ((List.range j).filter fun i => s.rd (fScRole_ROLE u i) == 1).length

/-- Bits per slot (R337). -/
def State.slotBits (s : State) (u : Fin 4) : Nat := 2 ^ s.rd (fScCtrl_NB u)

/-- Bytes of a pixel. -/
def State.pixelBytes (s : State) (u : Fin 4) : Nat := s.dataBelow u 64 * s.slotBits u / 8

/-- TROOT periods of a line. -/
def State.lineTicks (s : State) (u : Fin 4) : Nat := s.rd (fScHtim_HTOTAL u) * s.rd (fScCtrl_PPER u)

/-! ## The lead of the line buffer (R338, R345) -/

/-- T0 of a slice's burst once it is known: while it runs, and while it is ARMED with its formatter input open (spec/02 R67). -/
def Slice.knownT0 (x : Slice) : Option Nat :=
  if x.st = .running then some x.t0 else if x.fed then some (x.seq.sched 0 / unit32) else none

/-- Where the raster of a primed unit starts: TSTART, or T0 of a burst on SLA that follows PRIMED. -/
def State.rasterStart (s : State) (u : Fin 4) : Option Nat :=
  let c := s.scan[u]
  if c.st != .primed then none
  else if s.on (fScCtrl_SMODE u) then some (s.rd (fScTstart_TICK u))
  else match s.sl[s.rd (fScCtrl_SLA u)]? with
    | some x => x.knownT0.filter fun t => decide (c.primedAt < t)
    | none => none

/-- Where the raster of a primed unit starts now: in BURST mode with a burst on SLA that runs. -/
def State.rasterNow (s : State) (u : Fin 4) : Option Nat :=
  let runs := match s.sl[s.rd (fScCtrl_SLA u)]? with | some x => x.st == .running | none => false
  if s.on (fScCtrl_SMODE u) || runs then s.rasterStart u else none

/-- The first of a number of lines, from one on, that is not in the buffer. -/
def Scan.missing (c : Scan) (first count : Nat) : Option Nat :=
  (Config.numbers first count).find? fun y => !c.lines.any fun e => e.1 == y

/-- The tick at which the next frame starts at the earliest: after the line that plays where it is F, else after the first
line that may be F (assumption 49). -/
def State.nextFrame (s : State) (u : Fin 4) : Nat :=
  let c := s.scan[u]
  let last := if c.lastLine then c.line else max (s.rd (fScVtim_VTOTAL u) - 1) (c.line + 1)
  c.lineStart + (last + 1 - c.line) * s.lineTicks u

/-- The tick at which the first pixel that is not in the buffer is needed; none where the start of the raster is not known. -/
def State.neededAt (s : State) (u : Fin 4) : Option Nat :=
  let c := s.scan[u]
  let va := s.rd (fScVtim_VACT u)
  let lt := s.lineTicks u
  let after := fun (start : Nat) => start + (c.missing 0 va).getD (s.rd (fScVtim_VTOTAL u)) * lt
  match c.st with
  | .wait => if s.on (fScCtrl_SMODE u) then some (s.rd (fScTstart_TICK u)) else none
  | .primed => (s.rasterStart u).map after
  | .run =>
    match c.missing c.line (va - c.line) with
    | some y => some (c.lineStart + (y - c.line) * lt)
    | none => some (if c.line = 0 then s.nextFrame u else after (s.nextFrame u))
  | _ => none

/-- The lead in TROOT periods (R345). -/
def State.scanLead (s : State) (u : Fin 4) : Option Nat := (s.neededAt u).map fun t => t - s.time.tick.toNat

/-- Whether the lead lies below a watermark of 10 ns units. -/
def State.leadBelow (s : State) (u : Fin 4) (mark : Nat) : Bool :=
  match s.scanLead u with | some d => decide (d < 128 * mark) | none => false

/-- Urgency and panic of a unit's port by its lead now (R345). -/
def State.markLead (s : State) (u : Fin 4) : State :=
  let urg := s.leadBelow u (s.rd (fScWmark_URG u))
  let pan := s.leadBelow u (s.rd (fScWmark_PANIC u))
  s.modScan u fun c => { c with urgent := urg, panic := pan }

/-! ## Admission (R347, R348) -/

/-- The geometry of a set of frame registers. -/
def State.geometryOk (s : State) (u : Fin 4) (f : Vector Word 8) : Bool :=
  let ht := s.rd (fScHtim_HTOTAL u); let ha := s.rd (fScHtim_HACT u)
  let hw := s.rd (fScHsync_HSW u); let hs := s.rd (fScHsync_HSS u)
  let vt := s.rd (fScVtim_VTOTAL u); let va := s.rd (fScVtim_VACT u)
  let vw := s.rd (fScVsync_VSW u); let vs := s.rd (fScVsync_VSS u)
  ha != 0 && hw != 0 && decide (ha ≤ hs) && decide (hs + hw ≤ ht) && va != 0 && vw != 0 && decide (va ≤ vs) &&
    decide (vs + vw + 1 ≤ vt) && decide (va + 2 ≤ vt) && (!fStretch f || decide (vt ≤ fVmax f)) &&
    s.dataBelow u 64 * s.slotBits u % 8 == 0 &&
    (fOvlMode f == 0 || (fOvlW f != 0 && fOvlH f != 0 && decide (fOvlX f + fOvlW f ≤ ha) && decide (fOvlY f + fOvlH f ≤ va)))

/-- The largest line bytes (R344). -/
def State.maxLineBytes (s : State) (u : Fin 4) (f : Vector Word 8) : Nat :=
  (s.rd (fScHtim_HACT u) + if fOvlMode f == 0 then 0 else fOvlW f) * s.pixelBytes u

/-- Whether both layers lie in the FRAME region. -/
def State.layersFit (s : State) (u : Fin 4) (f : Vector Word 8) (size : Nat) : Bool :=
  decide (fBaseOff f + fBaseStride f * (s.rd (fScVtim_VACT u) - 1) + s.rd (fScHtim_HACT u) * s.pixelBytes u ≤ size) &&
    (fOvlMode f == 0 || decide (fOvlOff f + fOvlStride f * (fOvlH f - 1) + fOvlW f * s.pixelBytes u ≤ size))

/-- The bandwidth that a line needs, in 0.01 GB/s. -/
def State.lineNeed (s : State) (u : Fin 4) (lb : Nat) : Nat :=
  let t := s.lineTicks u * 625
  if 16000000 < t then ceilDiv (lb * 800000) (t - 16000000) else 0xFFFFFFFF

/-- The first unit lane that clashes. -/
def State.laneClash (s : State) (u : Fin 4) : Option Nat :=
  let two := s.rd (fScCtrl_SLB u) < 8 && s.rd (fScCtrl_SLB u) != s.rd (fScCtrl_SLA u)
  (List.range 64).find? fun j => s.owns u j && ((decide (32 ≤ j) && !two) ||
    scans.any fun w => w != u && s.scan[w].enabled &&
      (List.range 64).any fun i => s.owns w i && s.laneAt w i == s.laneAt u j)

/-- The checks that a request meets too. -/
def State.scanFits (s : State) (u : Fin 4) (f : Vector Word 8) : Option (Nat × Nat) :=
  let lb := s.maxLineBytes u f
  let size := match s.regionOf 3 u with | some (_, z) => z | none => 0
  if !s.geometryOk u f then some (4, 0)
  else if 16384 < lb then some (5, lb)
  else if !s.layersFit u f size then some (6, 0)
  else if s.rd (fScResv_BW u) < s.lineNeed u lb then some (7, s.lineNeed u lb)
  else none

/-- A refusal with its reason. -/
def State.scanRefuse (s : State) (u : Fin 4) (why value : Nat) : State :=
  s.wrs [(fScAdmit_REASON u, why), (fScAdmit_REFUSED u, 1), (fScAdmitd_VALUE u, value)]

/-- EN = 1 accepted (R349). -/
def State.scanAccept (s : State) (u : Fin 4) : State :=
  let f := s.shadows u
  let s := s.wr (fScCtrl_EN u) 1
  (s.modScan u fun c => { Scan.reset with
    st := .wait, live := f, frameLive := f, showOvl := fOvlMode f == 1, fetch := [0]
    commit := c.commit, base := c.base, ovl := c.ovl }).markLead u

/-- EN written from 0 to 1: a rinse step on the unit is abandoned whatever the answer (spec/16 R559). Where SLB equals SLA and no lane of the second slice is owned, no unit lane is named: the detail
is one of the 64 (R348). -/
def State.scanAdmit (s : State) (u : Fin 4) : State :=
  let s := s.abandonRinse [4] u
  let f := s.shadows u
  let lb := s.maxLineBytes u f
  let resv := s.rd (fScResv_BW u)
  if !s.isReady (.scan u) || (s.regionOf 3 u).isNone then s.scanRefuse u 1 0
  else match (s.attached u).find? fun (n : Fin 8) => !s.sl[n].isIdle with
    | some n => s.scanRefuse u 2 n
    | none =>
      match s.laneClash u with
      | some j => s.scanRefuse u 3 j
      | none =>
        if s.rd (fScCtrl_SLB u) = s.rd (fScCtrl_SLA u) then s.freeVal.2.scanRefuse u 3 (s.freeVal.1.toNat % 64)
        else match s.scanFits u f with
          | some (w, v) => s.scanRefuse u w v
          | none =>
            if s.on (fScCtrl_SMODE u) &&
                decide (s.rd (fScTstart_TICK u) * resv < (s.time.tick.toNat + 25600) * resv + lb * 1280) then s.scanRefuse u 8 0
            else s.scanAccept u

/-! ## Register writes (R350, R352) -/

/-- EN written to 0: the unit stops at once; its registers stay. -/
def State.scanStop (s : State) (u : Fin 4) : State := (s.wr (fScCtrl_EN u) 0).modScan u fun _ => Scan.reset

/-- A write of CTRL. While EN = 1 its other bits keep their values, with BUSY where one would change. While the unit is not
ready the write is dropped (spec/01 R56), but a request for EN is still refused with its reason (R347). -/
def State.opScanCtrl (s : State) (ini : Initiator) (u : Fin 4) (v : DWord) : State :=
  let en := bitOf v.toNat 31
  if !s.isReady (.scan u) then
    let s := s.accErr ini .notready (aScCtrl u)
    if en && !s.scan[u].enabled then s.scanRefuse u 1 0 else s
  else if s.scan[u].enabled then
    let other := (v.toNat % 2 ^ 32) % 2 ^ 31 != (s.reg (aScCtrl u)).toNat % 2 ^ 31
    let s := if other then s.accErr ini .busy (aScCtrl u) else s
    if en then s
    else if (s.attached u).any fun n => !s.sl[n].isIdle then s.accErr ini .busy (aScCtrl u)
    else s.scanStop u
  else
    let s := s.writeSome ini .scCtrl [u] .lo v fun f => f.lo != 31
    if en then s.scanAdmit u else s

/-- A write of RESV: values above 400 are not accepted, then the budget rule (spec/02 R71). -/
def State.opScanResv (s : State) (ini : Initiator) (u : Fin 4) (v : Nat) : State :=
  if s.scan[u].enabled then s.accErr ini .busy (aScResv u)
  else
    let old := s.rd (fScResv_BW u)
    let sum := (slices.map fun (m : Fin 8) => s.rd (fSlResv_BW m)).sum + ((List.range 4).map fun w => s.rd (fScResv_BW w)).sum
    let x := bitsOf v 0 9
    let new := if x ≤ 400 then x else 400
    let s := if x ≤ 400 then s else s.accErr ini .rsvd (aScResv u)
    if old < new && 98304 < sum - old + new then s.accErr ini .budget (aScResv u) else s.wr (fScResv_BW u) new

/-- A write of WMARK: a PANIC above URG is not accepted. -/
def State.opScanWmark (s : State) (ini : Initiator) (u : Fin 4) (v : DWord) : State :=
  if s.scan[u].enabled then s.accErr ini .busy (aScWmark u)
  else
    let s := s.writeReg ini .scWmark [u] .lo v
    if s.rd (fScWmark_URG u) < s.rd (fScWmark_PANIC u) then (s.wr (fScWmark_PANIC u) 200).accErr ini .rsvd (aScWmark u) else s

/-- A flag of STAT set: vector 10 + u goes to the unit's function (spec/14 R487). -/
def State.scanFlag (s : State) (u : Fin 4) (f : Fld) : State := (s.wr f 1).msix (s.ownerScan u) (10 + u)

/-- Whether a COMMIT requested now is taken only in the next frame (R351). -/
def State.commitLate (s : State) (u : Fin 4) : Bool :=
  let c := s.scan[u]
  c.st == .run && decide (s.rd (fScVtim_VACT u) ≤ c.line) && (c.lastLine || s.on (fScCtrl_COMPAT u))

/-- A write of CMD: a request waits until it is taken; one made while the unit is disabled waits for the raster (assumption
49). -/
def State.opScanCmd (s : State) (u : Fin 4) (v : Nat) : State :=
  let c := s.scan[u]
  let late := bitOf v 0 && !c.commit && s.commitLate u
  let s := if late then (s.scanFlag u (fScStat_LATE u)).addSat (fScCnt_LATE u) 1 else s
  s.modScan u fun c => { c with commit := c.commit || bitOf v 0, base := c.base || bitOf v 1, ovl := c.ovl || bitOf v 2 }

/-! ## Fetches (R344, R349) -/

/-- The bytes of line y of the layers of a set of frame registers. -/
def State.lineData (s : State) (u : Fin 4) (f : Vector Word 8) (ovl : Bool) (y : Nat) : List Byte :=
  match s.regionOf 3 u with
  | none => []
  | some (base, _) =>
    let pb := s.pixelBytes u
    let row := s.bytes (base + fBaseOff f + fBaseStride f * y) (s.rd (fScHtim_HACT u) * pb)
    if ovl && decide (fOvlY f ≤ y) && decide (y < fOvlY f + fOvlH f) then
      row.take (fOvlX f * pb) ++ s.bytes (base + fOvlOff f + fOvlStride f * (y - fOvlY f)) (fOvlW f * pb) ++
        row.drop ((fOvlX f + fOvlW f) * pb)
    else row

/-- SCAN_LEAD_WATERMARK (R345). -/
def execScanLeadWatermark (u : Fin 4) (_urgent _panic : Bool) (s : State) : Host.Outcome State Fault Refusal :=
  .next (s.markLead u).samplePanic

/-! ## The raster (R338 to R343) -/

/-- The fetch that begins at the start of a line. -/
def State.lineFetch (s : State) (u : Fin 4) (y : Nat) : State :=
  if y + 1 < s.rd (fScVtim_VACT u) then s.modScan u fun c => { c with fetch := c.fetch ++ [y + 1] } else s

/-- SCAN_RASTER_START. -/
def execScanRasterStart (u : Fin 4) (s : State) : Host.Outcome State Fault Refusal :=
  .next <| match s.rasterNow u with
    | none => s
    | some t =>
      let s := s.setReg (aScFrames u) 0
      ((s.modScan u fun c => { c with st := .run, origin := t, lineStart := t, line := 0, frameLive := c.live }).lineFetch u 0).markLead u

/-- The frame registers that the taken requests would put in force. -/
def State.taken (s : State) (u : Fin 4) (commit base ovl : Bool) : Vector Word 8 :=
  let c := s.scan[u]
  let sh := s.shadows u
  Vector.ofFn fun i : Fin 8 =>
    if commit || (base && (i == 2 || i == 3)) || (ovl && (i == 4 || i == 5)) then sh[i] else c.live[i]

/-- The requests taken at a line start from C to F, checked and applied together. -/
def State.takeRequests (s : State) (u : Fin 4) (atC : Bool) : State :=
  let c := s.scan[u]
  let commit := c.commit && (atC || !s.on (fScCtrl_COMPAT u))
  if !(commit || c.base || c.ovl) then s
  else
    let f := s.taken u commit c.base c.ovl
    let s := s.modScan u fun c => { c with commit := c.commit && !commit, base := false, ovl := false }
    match s.scanFits u f with
    | some (w, v) => s.scanRefuse u w v
    | none => s.modScan u fun x => { x with
        live := f, newContent := true, ovlTaken := x.ovlTaken || c.ovl, ovlEver := x.ovlEver || c.ovl }

/-- The line is F: the overlay of the next frame is decided, and the fetch of its line 0 begins. -/
def State.fetchPoint (s : State) (u : Fin 4) : State :=
  let c := s.scan[u]
  let mode := fOvlMode c.live
  let miss := mode == 2 && !c.ovlTaken
  let show_ := mode == 1 || (mode == 2 && (c.ovlTaken || (!fOvlMiss c.live && c.ovlEver)))
  let s := if miss then (s.scanFlag u (fScStat_OVLMISSED u)).addSat (fScCnt_MISS u) 1 else s
  s.modScan u fun c => { c with
    lastLine := true, newContent := false, ovlTaken := false, showOvl := show_, fetch := c.fetch ++ [0] }

/-- Whether the line that starts is F (R340, R341). -/
def State.isF (s : State) (u : Fin 4) : Bool :=
  let c := s.scan[u]
  let last := s.rd (fScVtim_VTOTAL u) - 1
  if fStretch c.frameLive then decide (last ≤ c.line) && (c.newContent || decide (fVmax c.frameLive - 1 ≤ c.line))
  else decide (last ≤ c.line)

/-- The place of the raster one line on; after F the frame is complete. -/
def State.nextLine (s : State) (u : Fin 4) : State :=
  let c := s.scan[u]
  let step := s.lineTicks u
  let s := if c.lastLine then (s.wr (fScFlen_LINES u) (c.line + 1)).wr (fScFrames_COUNT u) (s.rd (fScFrames_COUNT u) + 1) else s
  s.modScan u fun c => { c with
    lineStart := c.lineStart + step, lastLine := false
    lines := c.lines.filter fun e => e.1 != c.line
    line := if c.lastLine then 0 else c.line + 1
    frameLive := if c.lastLine then c.live else c.frameLive }

/-- SCAN_LINE_START. -/
def execScanLineStart (u : Fin 4) (s : State) : Host.Outcome State Fault Refusal :=
  .next <|
    if s.scan[u].st != .run then s
    else
      let s := s.nextLine u
      let va := s.rd (fScVtim_VACT u)
      let y := s.scan[u].line
      (if y < va then s.lineFetch u y
      else
        let s := s.takeRequests u (y == va)
        if s.isF u then s.fetchPoint u else s).markLead u

/-- A contained fault of a unit: running bursts of the attached slices meet a stream underrun. -/
def State.scanFault (s : State) (u : Fin 4) : State :=
  if !s.scan[u].enabled || s.scan[u].st == .fault then s
  else
    let s := s.scanFlag u (fScStat_UNDERRUN u)
    let s := s.modScan u fun c => { c with st := .fault, urgent := false, panic := false, fetch := [], lines := [] }
    s.each (s.attached u) fun n s => if s.sl[n].st = .running then s.containedSl n else s

/-- An underrun of a unit (R346). -/
def State.scanUnderrun (s : State) (u : Fin 4) : State :=
  if !s.scan[u].enabled || s.scan[u].st == .fault then s else (s.reportUnit (.scan u) 0).scanFault u

/-- SCAN_UNDERRUN (R346). -/
def execScanUnderrun (u : Fin 4) (s : State) : Host.Outcome State Fault Refusal := .next (s.scanUnderrun u)

/-! ## The symbols of owned lanes (R335 to R339) -/

/-- The line and slot at a scheduled time in units of 2^-32 TROOT periods; none before the raster starts. -/
def State.place (s : State) (u : Fin 4) (t : Nat) : Option (Nat × Nat) :=
  let c := s.scan[u]
  let start := if c.st = .run then some (c.origin, c.lineStart, c.line, c.lastLine)
    else (s.rasterStart u).map fun o => (o, o, 0, false)
  match start with
  | none => none
  | some (o, ls, line, last) =>
    let t := t / unit32
    let lt := s.lineTicks u
    if t < o || lt = 0 then none
    else
      let k := (t - ls) / lt
      some (if k = 0 then line else if last then k - 1 else line + k, (t - ls) % lt / s.rd (fScCtrl_PPER u))

/-- The bits of a pixel that a DATA lane takes. -/
def State.pixelBits (s : State) (u : Fin 4) (j line slot : Nat) : Option Nat :=
  let pb := s.pixelBytes u
  (s.scan[u].lines.find? fun e => e.1 == line).map fun e =>
    bitsOf (leNat ((e.2.drop (slot * pb)).take pb)) (s.slotBits u * s.dataBelow u j) (s.slotBits u)

/-- The symbol that a unit gives its lane j for a vector scheduled at t (R336). -/
def State.scanSymbol (s : State) (u : Fin 4) (j : Nat) (t : Nat) : Nat :=
  let a := s.rd (fScRole_SYMA u j)
  let b := s.rd (fScRole_SYMB u j)
  let role := s.rd (fScRole_ROLE u j)
  if role = 2 then a
  else match s.place u t with
    | none => b
    | some (line, slot) =>
      let active := decide (line < s.rd (fScVtim_VACT u)) && decide (slot < s.rd (fScHtim_HACT u))
      let hs := s.rd (fScHsync_HSS u)
      let vs := s.rd (fScVsync_VSS u)
      match role with
      | 1 => if active then match s.pixelBits u j line slot with
          | some p => withBits a 0 (s.slotBits u) p
          | none => b
        else b
      | 3 => if decide (hs ≤ slot) && decide (slot < hs + s.rd (fScHsync_HSW u)) then a else b
      | 4 => if !active && decide (vs ≤ line) && decide (line < vs + s.rd (fScVsync_VSW u)) then a else b
      | _ => if active then a else b

/-- The symbol of a lane of a slice for a vector scheduled at t, where an enabled unit owns the lane. -/
def State.ownedSymbol (s : State) (n : Fin 8) (k : Nat) (t : Nat) : Option Nat :=
  scans.findSome? fun (u : Fin 4) =>
    if s.scan[u].enabled then (s.unitLane u n k).map fun j => s.scanSymbol u j t else none

/-- A vector's symbols with those of owned lanes replaced (R335). -/
def State.withScan (s : State) (n : Fin 8) (sym t : Nat) : Nat :=
  if scans.all fun u => !s.scan[u].enabled then sym
  else (List.range 32).foldl (fun v k => match s.ownedSymbol n k t with | some x => withBits v (4 * k) 4 x | none => v) sym

/-! ## Vector groups (spec/01 R37, spec/04 R139, R154) -/

/-- The timing set in force at vector v. -/
def Seq.tsAt (q : Seq) (v : Nat) : Nat := (((q.tsets.filter fun e => e.1 == v).getLast?).map (·.2)).getD q.ts

/-- The place of the stream after a play of its vector: it stays while the vector repeats. -/
def Seq.advance (q : Seq) : Seq :=
  let q := { q with ts := q.tsAt q.vec, tsPlayed := q.tsAt q.vec, tsets := q.tsets.filter fun e => decide (q.vec < e.1) }
  if q.rptLeft = 1 then { q with vec := q.vec + 1, plays := q.plays + 1, rptLeft := 0, off := q.off + 1 }
  else if q.rptLeft != 0 then { q with vec := q.vec + 1, plays := q.plays + 1, rptLeft := q.rptLeft - 1 }
  else if q.rptSet != 0 && q.rptOff == q.vec then
    { q with vec := q.vec + 1, plays := q.plays + 1, rptLeft := q.rptSet, rptSet := 0 }
  else { q with vec := q.vec + 1, plays := q.plays + 1, off := q.off + 1 }

/-- One vector taken by the formatter of every member. -/
def State.playOne (s : State) (l : Fin 8) : State :=
  let q := s.sl[l].seq
  let t := q.sched q.vec
  let again := q.rptLeft != 0
  let s := s.each (s.burstOf l) fun m s =>
    let own := s.num (s.imageBase m q.seg + 64 + 16 * q.off) 16
    let sym := BitVec.ofNat 128 (s.withScan m own t)
    let held := if s.sl[m].played.length < 256 then s.sl[m].units else (s.sl[m].played.getLast?.map (s.retire m)).getD []
    s.modSl m fun x => { (if again then x else x.takeVector) with
      played := ⟨q.vec, q.seg, q.off, q.tsAt q.vec, t, q.period q.vec, sym, again⟩ :: x.played.take 255, units := held }
  s.modSeqs l Seq.advance

/-- VECTOR_GROUP: four vectors of the burst that the slice leads or belongs to; after 64 plays a run-time hem boundary is
due (spec/04 R136). The first groups enter one outbound latency before T0 (spec/02 R67). A stream error due in the hem that would
begin ends the burst instead (spec/04 R166); before T0 it holds the group back. -/
def execVectorGroup (n : Fin 8) (s : State) : Host.Outcome State Fault Refusal :=
  .next <|
    let l := s.leadOf n
    if !s.sl[l].fed || s.sl[l].seq.hemDue then s
    else if s.sl[l].seq.eccDue ≠ [] then if s.sl[l].st = .running then (s.dueEcc l).finish l .exception else s
    else
      let s := (((s.playOne l).playOne l).playOne l).playOne l
      s.modSeqs l fun q => { q with hemDue := q.plays % 64 == 0 }

end Sys2Proof.Machine
end

