-- ==== Sys2Proof/Machine/Drc.lean ====
section
/-! DEFINITION. The pattern memory controller: access rights, escalation, refresh, rowhammer defence, ECC, repair
(spec/03 R94, R95, spec/10). -/

namespace Sys2Proof.Machine

open Sys2Proof

/-! ## Address map (R362) -/

/-- The channel of a pseudo-channel number in its stack, and the pseudo-channel in that channel. -/
def channelOf (p : Nat) : Nat := p / 2 % 16
def pseudoOf (p : Nat) : Nat := p % 2

/-- The column chunk, bank, stack ID and row of an address. -/
def columnOf (a : Nat) : Nat := a / 2 ^ 14 % 4
def bankOf (a : Nat) : Nat := a / 2 ^ 16 % 16
def sidOf (a : Nat) : Nat := a / 2 ^ 20 % 3
def rowOf (a : Nat) : Nat := a / 2 ^ 20 / 3

/-- The bank and row of an address. -/
def placeOf (a : Nat) : Fin 64 × Fin 3 × Fin 16 × Nat := (Fin.ofNat 64 (pcOf a), Fin.ofNat 3 (sidOf a), Fin.ofNat 16 (bankOf a), rowOf a)

/-- The stack of a pseudo-channel. -/
def stackOfPc (p : Fin 64) : Fin 2 := Fin.ofNat 2 (p.val / 32)

/-! ## Access rights (R94) -/

/-- Whether a range lies within [base, base + size). -/
def within (base size a len : Nat) : Bool := decide (base ≤ a) && decide (a + len ≤ base + size)

/-- Whether a range lies within a region in force of a kind whose owner meets a test. -/
def State.inRegion (s : State) (kind : Nat) (own : Nat → Bool) (a len : Nat) : Bool :=
  s.region.toList.any fun r => r.kind == kind && own r.index && r.size != 0 && within (r.base * 2 ^ 21) (r.size * 2 ^ 21) a len

/-- Whether a range lies within the image range of an OPEN entry of a slice that meets a test, in its PATTERN region. -/
def State.inOpenImage (s : State) (own : Fin 8 → Bool) (a len : Nat) : Bool :=
  slices.any fun n => own n && (s.regionOf 1 n).isSome && s.inRegion 1 (· == n.val) a len &&
    s.sl[n].segs.any fun e => e.2.st == .opened && within (s.imageBase n e.1) (e.2.size * 4096) a len

/-- Whether a range lies within a slice's segment table or edge pool (R90). -/
def ownTables (n : Nat) (a len : Nat) : Bool :=
  within (0xBC0000000 + n * 0x4000000) 0x4000000 a len || within (0xBE0000000 + n * 0x2000000) 0x2000000 a len

/-- Whether a range lies within the firmware-private area (R90). -/
def inPrivate (a len : Nat) : Bool := within 0xBF0000000 0x10000000 a len

/-- Whether a range meets the image range of a sealed entry, VERIFYING or LOADED, which is read-only for every initiator (R103,
R109). -/
def State.sealed (s : State) (a len : Nat) : Bool :=
  slices.any fun n => (s.regionOf 1 n).isSome && s.sl[n].segs.any fun e =>
    (e.2.st == .verifying || e.2.st == .loaded) && overlaps (s.imageBase n e.1) (e.2.size * 4096) a len

/-- Whether an initiator may read a range. -/
def State.mayRead (s : State) (who : HbmBy) (a len : Nat) : Bool :=
  match who with
  | .stream n => s.inRegion 1 (· == n.val) a len
  | .load n => s.inRegion 1 (· == n.val) a len || ownTables n a len
  | .admission n | .sequencer n => ownTables n a len
  | .spool _ => false
  | .scan u => s.inRegion 3 (· == u.val) a len
  | .core c => s.inRegion 4 (· == c.val) a len || s.inRegion 5 (fun _ => true) a len ||
      s.inRegion 1 (fun _ => true) a len || s.inRegion 2 (fun _ => true) a len
  | .dma c =>
    let p := s.ownerDma c
    let mine := fun i => decide (i < 8) && s.ownerSl (Fin.ofNat 8 i) == p
    s.inRegion 5 (· == p.val) a len || s.inRegion 1 mine a len || s.inRegion 2 mine a len ||
      s.inRegion 3 (fun i => decide (i < 4) && s.ownerScan (Fin.ofNat 4 i) == p) a len
  | .patch | .eth _ => inPrivate a len
  | .mgmt => decide (a + len ≤ memBytes)

/-- Whether an initiator may write a range. -/
def State.mayWrite (s : State) (who : HbmBy) (a len : Nat) : Bool :=
  match who with
  | .stream _ | .admission _ | .sequencer _ | .scan _ | .patch => false
  | .load n => ownTables n a len
  | .spool n => s.inRegion 2 (· == n.val) a len
  | .core c => s.inRegion 4 (· == c.val) a len || s.inRegion 5 (fun _ => true) a len || s.inOpenImage (fun _ => true) a len
  | .dma c =>
    let p := s.ownerDma c
    s.inRegion 5 (· == p.val) a len || s.inOpenImage (fun n => s.ownerSl n == p) a len ||
      s.inRegion 3 (fun i => decide (i < 4) && s.ownerScan (Fin.ofNat 4 i) == p) a len
  | .eth _ => inPrivate a len
  | .mgmt => decide (a + len ≤ memBytes) && !s.sealed a len

/-! ## Escalation (R370) -/

/-- PANIC_LONG (R370): a period of panic has lasted more than 100 µs. -/
def execPanicLong (s : State) : Host.Outcome State Fault Refusal := .next s.samplePanic


/-! ## Rowhammer defence (R374 to R377) -/

/-- The start of a refresh window clears the rowhammer tables of the stack (R374): 32 ms, or 16 ms above 85 °C. -/
def State.refreshWindow (s : State) (k : Fin 2) : State :=
  let len := if s.drc.hot[k] then 16 * msTicks else 32 * msTicks
  let now := s.clock
  if now - s.drc.window[k] < len then s
  else s.modDrc fun d => { d with window := d.window.set k now, banks := d.banks.filter fun b => stackOfPc b.pc != k }

/-- The least count of a table. -/
def leastCount (rows : List (Nat × Nat)) : Nat := rows.foldl (fun m e => min m e.2) (rows.headD (0, 0)).2

/-- The first entry with a count replaced. -/
def replaceFirst (c : Nat) (e : Nat × Nat) : List (Nat × Nat) → List (Nat × Nat)
  | [] => []
  | x :: xs => if x.2 = c then e :: xs else x :: replaceFirst c e xs

/-- An activate of a row in its bank's table. -/
def activateRows (rows : List (Nat × Nat)) (row : Nat) : List (Nat × Nat) :=
  if rows.any fun e => e.1 == row then rows.map fun e => if e.1 = row then (row, e.2 + 1) else e
  else if rows.length < 32 then rows ++ [(row, 1)]
  else replaceFirst (leastCount rows) (row, leastCount rows + 1) rows

/-- The table of a bank. -/
def Drc.rows (d : Drc) (pc : Fin 64) (sid : Fin 3) (bank : Fin 16) : List (Nat × Nat) :=
  match d.banks.find? fun b => b.pc == pc && b.sid == sid && b.bank == bank with | some b => b.rows | none => []

/-- The table of a bank replaced. -/
def Drc.setRows (d : Drc) (pc : Fin 64) (sid : Fin 3) (bank : Fin 16) (rows : List (Nat × Nat)) : Drc :=
  { d with banks := ⟨pc, sid, bank, rows⟩ :: d.banks.filter fun b => !(b.pc == pc && b.sid == sid && b.bank == bank) }

/-- The count of a row. -/
def Drc.countOf (d : Drc) (pc : Fin 64) (sid : Fin 3) (bank : Fin 16) (row : Nat) : Nat :=
  ((d.rows pc sid bank).find? fun e => e.1 == row).elim 0 (·.2)

/-- A bank with no row open (R365). -/
def Drc.closeBank (d : Drc) (pc : Fin 64) (sid : Fin 3) (bank : Fin 16) : Drc :=
  { d with openRows := d.openRows.filter fun e => !(e.1 == pc && e.2.1 == sid && e.2.2.1 == bank) }

/-- A row opened, which stays open until another row of the bank or a refresh needs the bank (R365). -/
def Drc.openRow (d : Drc) (pc : Fin 64) (sid : Fin 3) (bank : Fin 16) (row : Nat) : Drc :=
  let d := d.closeBank pc sid bank
  { d with openRows := (pc, sid, bank, row) :: d.openRows }

/-- A row activated: counted in its bank's table, which may queue a targeted refresh, and followed by the draw of a probabilistic
one from the LFSR (R374, R375, R377). -/
def State.activate (s : State) (pc : Fin 64) (sid : Fin 3) (bank : Fin 16) (row : Nat) : State :=
  let s := s.refreshWindow (stackOfPc pc)
  let thresh := s.rd fDrcRhcfg_THRESH
  let prob := s.on fDrcRhcfg_PROB
  s.modDrc fun d =>
    let d := (d.setRows pc sid bank (activateRows (d.rows pc sid bank) row)).openRow pc sid bank row
    let d := if thresh ≤ d.countOf pc sid bank row && !d.targeted.contains (pc, sid, bank, row) then
      { d with targeted := d.targeted ++ [(pc, sid, bank, row)] } else d
    { d with
      lfsr := Config.lfsrNext d.lfsr
      prob := if prob && Config.lfsrHit d.lfsr then d.prob ++ [(pc, sid, bank, row)] else d.prob }

/-- The rows at some physical distances from a row, in the row order loaded for the stack. -/
def Drc.beside (d : Drc) (pc : Fin 64) (row : Nat) (l : List Int) : List Nat :=
  match d.order[stackOfPc pc] with | some o => l.filterMap fun k => Config.rowBeside o row k | none => []

/-- Rows of a bank refreshed: each activated and precharged. -/
def State.refreshRows (s : State) (pc : Fin 64) (sid : Fin 3) (bank : Fin 16) (rows : List Nat) : State :=
  (s.each rows fun r s => s.activate pc sid bank r).modDrc fun d => d.closeBank pc sid bank

/-- Whether a row lies in the bank of another. -/
def sameBank (e x : Fin 64 × Fin 3 × Fin 16 × Nat) : Bool := x.1 == e.1 && x.2.1 == e.2.1 && x.2.2.1 == e.2.2.1

/-- The count of a row set to 0. -/
def Drc.clearCount (d : Drc) (e : Fin 64 × Fin 3 × Fin 16 × Nat) : Drc :=
  d.setRows e.1 e.2.1 e.2.2.1 ((d.rows e.1 e.2.1 e.2.2.1).map fun (x : Nat × Nat) => if x.1 = e.2.2.2 then (x.1, 0) else x)

/-- A queued targeted refresh issued: the row's neighbours at ±1 and ±2 are refreshed, and its count is then set to 0 (R375). -/
def State.targetedRefresh (s : State) (e : Fin 64 × Fin 3 × Fin 16 × Nat) : State :=
  let rows := s.drc.beside e.1 e.2.2.2 [-2, -1, 1, 2]
  let s := (s.addSat fDrcRhcntT_COUNT 1).modDrc fun d =>
    { d with
      targeted := d.targeted.filter fun x => x != e
      covered := if d.prob.any (sameBank e) then d.covered ++ rows.map fun r => (e.1, e.2.1, e.2.2.1, r) else d.covered }
  (s.refreshRows e.1 e.2.1 e.2.2.1 rows).modDrc fun d => d.clearCount e

/-- The rows that targeted refreshes of a bank cover: of those queued, and of those issued while the probabilistic one waited. -/
def Drc.coveredRows (d : Drc) (e : Fin 64 × Fin 3 × Fin 16 × Nat) : List Nat :=
  (d.targeted.filter (sameBank e)).flatMap (fun t => d.beside e.1 t.2.2.2 [-2, -1, 1, 2]) ++
    (d.covered.filter (sameBank e)).map (·.2.2.2)

/-- A queued probabilistic refresh issued: the neighbours at ±1, but for those that a targeted refresh of the bank covers
(R377). -/
def State.probRefresh (s : State) (e : Fin 64 × Fin 3 × Fin 16 × Nat) : State :=
  let rows := (s.drc.beside e.1 e.2.2.2 [-1, 1]).filter fun r => !(s.drc.coveredRows e).contains r
  let s := (s.addSat fDrcRhcntP_COUNT 1).modDrc fun d =>
    let d := { d with prob := d.prob.erase e }
    if d.prob.any (sameBank e) then d else { d with covered := d.covered.filter fun x => !sameBank e x }
  s.refreshRows e.1 e.2.1 e.2.2.1 rows

/-- Whether a targeted refresh is issued whatever the ports hold: its row's count has reached twice THRESH (R376). -/
def State.ripe (s : State) (e : Fin 64 × Fin 3 × Fin 16 × Nat) : Bool :=
  decide (2 * s.rd fDrcRhcfg_THRESH ≤ s.drc.countOf e.1 e.2.1 e.2.2.1 e.2.2.2)

/-- The maintenance of a pseudo-channel that goes before its next request (R364): ripe targeted refreshes and, where no port holds
panic, every queued one. -/
def State.maintain (s : State) (pc : Fin 64) : State :=
  let calm := !s.panicNow
  let s := s.each (s.drc.targeted.filter fun e => e.1 == pc && (calm || s.ripe e)) fun e s => s.targetedRefresh e
  if calm then s.each (s.drc.prob.filter fun e => e.1 == pc) fun e s => s.probRefresh e else s

/-- ROW_ACTIVATE (R374), behind the maintenance that goes first (R364, R376). -/
def execRowActivate (pc : Fin 64) (sid : Fin 3) (bank : Fin 16) (row : Nat) (_draw : Bool) (s : State) :
    Host.Outcome State Fault Refusal :=
  .next ((s.maintain pc).activate pc sid bank row)

/-- TARGETED_REFRESH (R375, R376): held back by panic until the count reaches twice THRESH. -/
def execTargetedRefresh (pc : Fin 64) (sid : Fin 3) (bank : Fin 16) (row : Nat) (s : State) :
    Host.Outcome State Fault Refusal :=
  let e := (pc, sid, bank, row)
  .next <| if s.drc.targeted.contains e && (!s.panicNow || s.ripe e) then s.targetedRefresh e else s

/-- PROB_REFRESH (R377): held back by panic. -/
def execProbRefresh (pc : Fin 64) (sid : Fin 3) (bank : Fin 16) (row : Nat) (s : State) : Host.Outcome State Fault Refusal :=
  let e := (pc, sid, bank, row)
  .next <| if s.drc.prob.contains e && !s.panicNow then s.probRefresh e else s

/-! ## Errors (R380 to R382) -/

/-- The check bits that protect the 64-bit word of an address: every write writes those of its data (R380). -/
def State.checkBits (s : State) (a : Nat) : Byte := Config.secded (BitVec.ofNat 64 (s.num (a / 8 * 8) 8))

/-- The error record of a stack: an uncorrectable error replaces a corrected one, never the other way about. -/
def State.recordEcc (s : State) (a : Nat) (ue : Bool) : State :=
  let k := stackOf a
  if !ue && s.on (fDrcEccaddr_VALID k) && s.on (fDrcEccaddr_UE k) then s
  else s.wrs [(fDrcEccaddr_ADDR k, a / 8 * 8), (fDrcEccaddr_UE k, b2n ue), (fDrcEccaddr_VALID k, 1)]

/-- HBM_CORRECTED_ERROR. -/
def execHbmCorrectedError (addr : Nat) (s : State) : Host.Outcome State Fault Refusal :=
  .next <| s.whenAwake fun s =>
    let s := (s.addSat (fDrcEcccnt_CE (stackOf addr)) 1).recordEcc addr false
    s.reportUnit (.hbmCorrected (stackOf addr)) (BitVec.ofNat 64 addr)

/-- An uncorrectable error in a request of an initiator: counted, recorded and reported. A SCAN unit meets an underrun, a site
core a load access fault, the management controller a bus error; what the others do is part of their own commands (R381). -/
def State.hbmUe (s : State) (who : HbmBy) (addr : Nat) : State :=
  let s := (s.addSat (fDrcEcccnt_UE (stackOf addr)) 1).recordEcc addr true
  let s := s.reportUnit (.hbmUe (stackOf addr)) (BitVec.ofNat 64 addr)
  match who with
  | .scan u => s.scanUnderrun u
  | .core c => s.modCore c fun x => x.memFault false addr
  | .mgmt => { s with busErr := true }
  | _ => s

/-- HBM_UNCORRECTABLE_ERROR. -/
def execHbmUncorrectableError (addr : Nat) (who : HbmBy) (s : State) : Host.Outcome State Fault Refusal :=
  .next (s.whenAwake fun s => s.hbmUe who addr)

/-! ## Requests (R94, R95, R363 to R366) -/

/-- A range cut at the multiples of a size. -/
def cuts (unit : Nat) : Nat → Nat → Nat → List (Nat × Nat)
  | 0, _, _ => []
  | k + 1, a, len =>
    if len = 0 then []
    else
      let n := min len (unit - a % unit)
      (a, n) :: cuts unit k (a + n) (len - n)

/-- The requests that carry an access: of 32 B to 1 KiB, none across a 1 KiB boundary (R363). Of the first and the last 32 B the
access may use a part. -/
def requestsOf (a len : Nat) : List (Nat × Nat) :=
  if len = 0 then [] else cuts 1024 (len / 1024 + 3) (a / 32 * 32) ((a + len + 31) / 32 * 32 - a / 32 * 32)

/-- The part of a range that an access uses. -/
def clip (a len : Nat) (g : Nat × Nat) : Nat × Nat := (max g.1 a, min (g.1 + g.2) (a + len) - max g.1 a)

/-- What an access uses of each granule of its requests. -/
def granulesOf (a len : Nat) : List (Nat × Nat) :=
  ((requestsOf a len).flatMap fun r => cuts 256 (r.2 / 256 + 2) r.1 r.2).map (clip a len)

/-- The real-time port of an initiator (R367). -/
def rtPort : HbmBy → Option Nat
  | .stream n => some n.val | .spool n => some (8 + n.val) | .scan u => some (16 + u.val) | _ => none

/-- The class of an initiator's requests (R364). -/
def State.classOf (s : State) (who : HbmBy) : Nat :=
  match rtPort who with
  | some p => if bitOf s.panicPorts p then 2 else if bitOf s.urgentPorts p then 4 else 5
  | none => 6

/-- The place of an initiator in the round robin of class 6: load units with the admission units and sequencers of their slices,
site cores, host DMA partitions; none for the management controller, for which the patch engine and the Ethernet ports count
(assumption 50). -/
def State.turnOf (s : State) (who : HbmBy) : Option Nat :=
  match who with
  | .load n | .admission n | .sequencer n => some n.val
  | .core c => some (8 + c.val)
  | .dma c => some (16 + (s.ownerDma c).val)
  | _ => none

/-- Whether a stack serves requests: ready, and out of self-refresh. -/
def State.stackUp (s : State) (k : Fin 2) : Bool := s.isReady (.hb k) && !s.drc.selfRefresh[k]

/-- Whether a granule may be served now: class 6 waits for panic (R369) and for a forced burst of its pseudo-channel (R372). -/
def State.servable (s : State) (who : HbmBy) (a : Nat) : Bool :=
  let pc := Fin.ofNat 64 (pcOf a)
  s.stackUp (stackOf a) && (decide (s.classOf who < 6) || (!s.panicNow && s.drc.forced[pc] == 0))

/-- Whether a row is open at the place of an address. -/
def Drc.hits (d : Drc) (a : Nat) : Bool := d.openRows.contains (placeOf a)

/-- 1 µs in TROOT periods. -/
def agedTicks : Nat := 12800

/-- The place of a waiting granule in the order of service: by class; aged ones first, oldest first; then the management
controller, the round robin, open rows, the oldest (R364, R365). -/
def State.keyOf (s : State) (r : HbmReq) : List Nat :=
  let c := s.classOf r.who
  if agedTicks ≤ s.clock - r.since then [c, 0, r.since]
  else
    let t := match s.turnOf r.who with | some i => 1 + (i + 24 - s.drc.turn[(placeOf r.addr).1]) % 24 | none => 0
    [c, 1, t, if s.drc.hits r.addr then 0 else 1, r.since]

/-- Whether a list of numbers comes strictly before another. -/
def comesBefore : List Nat → List Nat → Bool
  | [], _ => false
  | _, [] => false
  | a :: l, b :: m => decide (a < b) || (a == b && comesBefore l m)

/-- Whether an older request of the same initiator to overlapping bytes waits before a granule (R366). -/
def behind (r : HbmReq) (older : List HbmReq) : Bool :=
  older.any fun o => o.who == r.who && overlaps o.addr o.len r.addr r.len

/-- The waiting granules that may be served now, oldest first, each with its place in the order. -/
def State.candidates (s : State) : List HbmReq → List HbmReq → List (List Nat × HbmReq)
  | _, [] => []
  | older, r :: l =>
    if s.servable r.who r.addr && !behind r older then (s.keyOf r, r) :: s.candidates (older ++ [r]) l
    else s.candidates (older ++ [r]) l

/-- The granule served next. -/
def State.pick (s : State) : Option HbmReq :=
  match s.candidates [] s.drc.waiting with
  | [] => none
  | e :: l => some (l.foldl (fun b x => if comesBefore x.1 b.1 then x else b) e).2

/-- Bytes of pattern memory as a reader gets them: those of a stack whose contents were lost with its domains, and
that is not back, are undefined. -/
def State.readBytes (s : State) (a len : Nat) : List Byte × State :=
  let gone := fun i => s.drc.lost[stackOf (a + i)]
  if (List.range len).any gone then
    ((List.range len).map fun i => if gone i then (Config.freeWord (s.free + i)).setWidth 8 else s.byte (a + i),
      { s with free := s.free + len })
  else (s.bytes a len, s)

/-- A number of pattern memory as a reader gets it. -/
def State.readMem (s : State) (a len : Nat) : Nat × State := (leNat (s.readBytes a len).1, (s.readBytes a len).2)

/-- The data of a read at its initiator: a core's load, what a bus read returns, without a bus error. -/
def State.deliver (s : State) (who : HbmBy) (v : Nat) : State :=
  let s := { s with busData := BitVec.ofNat 64 v }
  match who with
  | .core c => s.modCore c fun x => { x with loadData := BitVec.ofNat 64 v }
  | .mgmt => { s with busErr := false }
  | _ => s

/-- A refused access (R95): a read returns zeros, a write is dropped, a site core meets an access fault. -/
def State.hbmDeny (s : State) (who : HbmBy) (a : Nat) (write : Bool) : State :=
  let s := (if write then s else s.deliver who 0).hbmRefuse who a
  match who with
  | .core c => s.modCore c fun x => x.memFault write a
  | _ => s

/-- The lines of a core's data cache after its own store of bytes, which is written through (spec/11 R399). -/
def State.ownStore (s : State) (c : Fin 8) (a : Nat) (bs : List Byte) : State :=
  s.modCore c fun x => { x with dcache := x.dcache.map fun e =>
    (e.1, (List.range e.2.length).map fun i =>
      if decide (a ≤ e.1 + i) && decide (e.1 + i < a + bs.length) then bs.getD (e.1 + i - a) 0 else e.2.getD i 0) }

/-- The data cache of the core that issues a store, as the store enters it. -/
def State.issueStore (s : State) (who : HbmBy) (a : Nat) (bs : List Byte) : State :=
  match who with
  | .core c => s.ownStore c a bs
  | _ => s

/-- The lines of a core's data cache that a store of its own meets which was not carried out dropped: they hold what memory does not. -/
def State.undoStore (s : State) (who : HbmBy) (a len : Nat) : State :=
  match who with
  | .core c => s.modCore c fun x => { x with dcache := x.dcache.filter fun e => !overlaps e.1 e.2.length a len }
  | _ => s

/-- The data of a granule written, but for the part of a 64-bit word whose read-modify-write meets an uncorrectable error (R380,
R381). A write that still waited as its range was sealed is refused (spec/03 R109). -/
def State.storeGranule (s : State) (r : HbmReq) (bs : List Byte) : State :=
  if s.sealed r.addr bs.length then (s.undoStore r.who r.addr bs.length).hbmDeny r.who r.addr true
  else match r.ue with
  | some w =>
    let whole := decide (r.addr ≤ w) && decide (w + 8 ≤ r.addr + bs.length)
    if overlaps w 8 r.addr bs.length && !whole then
      (((s.store r.addr (bs.take (w - r.addr))).store (w + 8) (bs.drop (w + 8 - r.addr))).undoStore r.who r.addr bs.length).hbmUe r.who w
    else s.store r.addr bs
  | none => s.store r.addr bs

/-- The last granule of the hem at a stream's read-ahead position puts the hem into its FIFO, a marked word in it too (R381). -/
def State.streamGranule (s : State) (r : HbmReq) : State :=
  match r.who with
  | .stream n => if r.last && r.addr + r.len == s.aheadAddr n + 1024 then s.streamRead n else s
  | _ => s

/-- The data of a granule read; one that meets an uncorrectable error goes by its initiator (R381). -/
def State.readGranule (s : State) (r : HbmReq) : State :=
  match r.ue with
  | some w => (if overlaps w 8 r.addr r.len then s.hbmUe r.who w else s).streamGranule r
  | none =>
    let v := s.readMem r.addr (min r.len 8)
    (if r.first then v.2.deliver r.who v.1 else v.2).streamGranule r

/-- The row of an address made open: the maintenance that goes first, and an activate where the row is not open. -/
def State.openFor (s : State) (a : Nat) : State :=
  let p := placeOf a
  let s := s.maintain p.1
  if s.drc.hits a then s else s.activate p.1 p.2.1 p.2.2.1 p.2.2.2

/-- The round robin of class 6 moved on by a granule of an initiator, in the granule's pseudo-channel. -/
def State.tookTurn (s : State) (who : HbmBy) (a : Nat) : State :=
  match s.turnOf who with
  | some i => s.modDrc fun d => { d with turn := d.turn.set (placeOf a).1 ((i + 1) % 24) }
  | none => s

/-- A granule served: its row open, its data. -/
def State.serve (s : State) (r : HbmReq) : State :=
  let s := s.modDrc fun d => { d with waiting := d.waiting.erase r }
  let s := (s.tookTurn r.who r.addr).openFor r.addr
  match r.wr with | some bs => s.storeGranule r bs | none => s.readGranule r

/-- Granules served in the order of the scheduler while one may be. -/
def State.serveAll (s : State) : Nat → State
  | 0 => s
  | k + 1 => match s.pick with | some r => (s.serve r).serveAll k | none => s

/-- The schedulers of one DRC cycle: escalation sampled, then every granule served that may be. -/
def State.drcCycle (s : State) : State :=
  let s := s.samplePanic
  s.serveAll s.drc.waiting.length

/-- The granules of an accepted access, as they wait. -/
def State.asks (s : State) (who : HbmBy) (a len : Nat) (wr : Option (List Byte)) (ue : Option Nat) : List HbmReq :=
  (granulesOf a len).map fun g =>
    ⟨who, g.1, g.2, wr.map fun bs => (bs.drop (g.1 - a)).take g.2, ue, s.clock, g.1 == a, g.1 + g.2 == a + len⟩

/-- Whether a transfer that a command makes at once may be served now: every granule, and none of the initiator's own requests to its
bytes waits (R364, R366, R369, R372). What waits and may be served has been served before it, as `State.drcCycle` leaves nothing that
may be. -/
def State.bulkServed (s : State) (who : HbmBy) (a len : Nat) : Bool :=
  (granulesOf a len).all fun g => s.servable who g.1 && !behind ⟨who, g.1, g.2, none, none, 0, true, true⟩ s.drc.waiting

/-- The turns of a transfer that a command makes at once, each behind the maintenance of its pseudo-channel that goes first (R364,
R376). -/
def State.tookTurns (s : State) (who : HbmBy) (a len : Nat) : State :=
  s.each (granulesOf a len) fun g s => (s.tookTurn who g.1).maintain (placeOf g.1).1

/-- Whether the load unit's reads of an image are served: class 6 waits for panic and for a forced burst of a pseudo-channel that the
image uses; its first 32 KiB use each that the whole uses (R362, R369, R372). -/
def State.imageServed (s : State) (n : Fin 8) (seg : Nat) : Bool :=
  s.bulkServed (.load n) (s.imageBase n seg) (min ((s.sl[n].seg seg).size * 4096) 32768)

/-- VERIFY_DONE (spec/03 R110): the entry becomes LOADED with its figures, or OPEN again with an error code. While its reads are not
served the load unit ends nothing (spec/03 R111). -/
def execVerifyDone (n : Fin 8) (ecc : EccWhere) (s : State) : Host.Outcome State Fault Refusal :=
  .next <|
    let s := s.drcCycle
    match firstUndone s.sl[n].sealq with
    | some q =>
      if q.st = .verifying && s.imageServed n q.seg then
        let s := s.tookTurns (.load n) (s.imageBase n q.seg) ((s.sl[n].seg q.seg).size * 4096)
        let r := s.verify n q.seg ecc
        s.modSl n fun x =>
          let e := x.seg q.seg
          let x := { x with sealq := mapUndone (fun q => { q with st := .ready r.1 }) x.sealq }
          x.setSeg q.seg (if r.1 = 0 then { e with st := .loaded, dataOnly := r.2.1, err := 0, fig := r.2.2 }
            else { e with st := .opened, err := r.1, fig := none })
      else s
    | none => s

/-- Whether an initiator acts at all: a site core only while it runs (R403). -/
def State.actsOn (s : State) (who : HbmBy) : Bool := match who with | .core c => s.coreRuns c | _ => true

/-- HBM_ACCESS: a read (no data) or a write of the bytes given. -/
def execHbmAccess (who : HbmBy) (addr len : Nat) (op : HbmOp) (s : State) : Host.Outcome State Fault Refusal :=
  .next <|
    if !s.actsOn who then s
    else if (match op.wr with | some bs => s.mayWrite who addr bs.length | none => s.mayRead who addr len) then
      let s := match op.wr with | some bs => s.issueStore who addr bs | none => s
      (s.modDrc fun d => { d with
        waiting := d.waiting ++ s.asks who addr (match op.wr with | some bs => bs.length | none => len) op.wr op.ue }).drcCycle
    else (s.hbmDeny who addr op.wr.isSome).samplePanic

/-! ## Refresh (R371 to R373) -/

/-- An all-bank refresh of a pseudo-channel closes its rows (R365). -/
def Drc.closeAll (d : Drc) (p : Fin 64) : Drc := { d with openRows := d.openRows.filter fun e => e.1 != p }

/-- A refresh of a forced burst issued. -/
def Drc.issueForced (d : Drc) (p : Fin 64) : Drc :=
  { d.closeAll p with forced := d.forced.set p (d.forced[p] - 1), owed := d.owed.set p (d.owed[p] - 1) }

/-- REFRESH_DUE (R369, R371, R372): issued, with any owed, where no port holds panic; else owed; at 8 a forced burst
begins and its first refresh is issued. -/
def execRefreshDue (pc : Fin 64) (s : State) : Host.Outcome State Fault Refusal :=
  .next <|
    let k := stackOfPc pc
    let s := s.drcCycle.refreshWindow k
    if s.drc.selfRefresh[k] then s
    else if s.drc.forced[pc] = 0 && !s.panicNow then s.modDrc fun d => { d.closeAll pc with owed := d.owed.set pc 0 }
    else
      let owed := min (s.drc.owed[pc] + 1) 8
      let s := s.wr (fDrcRefstat_MAXOWED k) (max (s.rd (fDrcRefstat_MAXOWED k)) owed)
      let s := s.modDrc fun d => { d with owed := d.owed.set pc owed }
      if s.drc.forced[pc] = 0 && owed == 8 then
        (s.addSat (fDrcRefstat_FORCED k) 1).modDrc fun d => { d with forced := d.forced.set pc 8 }.issueForced pc
      else s

/-- FORCED_BURST_REFRESH (R372): after the last one class 6 is served again. -/
def execForcedBurstRefresh (pc : Fin 64) (s : State) : Host.Outcome State Fault Refusal :=
  .next <| if s.drc.forced[pc] = 0 then s else (s.modDrc fun d => d.issueForced pc).drcCycle

/-- HBM_TEMP_READ (R371, spec/18 R615): above 95 °C is a fatal fault of the DRC. -/
def execHbmTempRead (k : Fin 2) (temp : Int) (s : State) : Host.Outcome State Fault Refusal :=
  .next <|
    if !s.awake then s
    else
    let s := s.modDrc fun d => { d with hot := d.hot.set k (decide (85 < temp)) }
    if 95 < temp then (s.reportUnit (.hbmHot k) 0).fatalNow .none else s

/-! ## Training and repair (R378, R379, R383, R394) -/

/-- The gate of R379: none lets the write through, else the flag it sets. -/
def State.drcGate (s : State) (ini : Initiator) (k : Fin 2) : Option AccBit :=
  if s.isReady (.hb k) then some .busy else if ini = .mgmt then none else some .rsvd

/-- A write of HBCMD; a stack whose tables are under a full BIST takes none (spec/16 R556). Boot firmware has loaded the stack's row order and seeded the LFSR with it (R375, R377, assumption 51). -/
def State.opHbcmd (s : State) (ini : Initiator) (v : Nat) : State :=
  s.each (stackList.filter fun (k : Fin 2) => bitOf v k) fun k s =>
    match s.drcGate ini k with
    | some b => s.accErr ini b aDrcHbcmd
    | none => if s.tested [8] k then s else s.modDrc fun d => { d with
        initBusy := d.initBusy.set k true, lfsr := Config.lfsrSeed s.free, order := d.order.set k (some (Config.stackOrder k)) }

/-- A write of TRN. -/
def State.opTrn (s : State) (ini : Initiator) (k : Fin 2) (c : Fin 16) (w : Fin 64) (v : DWord) : State :=
  match s.drcGate ini k with
  | some b => s.accErr ini b (aDrcTrn k c w)
  | none => s.writeReg ini .drcTrn [k, c, w] .lo v

/-- A write of PPR. A command while a repair is in progress is refused as busy. -/
def State.opPpr (s : State) (ini : Initiator) (v : Nat) : State :=
  let op := bitsOf v 30 2
  if (op != 1 && op != 2) || bitsOf v 22 2 == 3 then s.accErr ini .rsvd aDrcPpr
  else match s.drcGate ini (Fin.ofNat 2 (bitsOf v 29 1)) with
    | some .busy => (s.accErr ini .busy aDrcPpr).wr fDrcPprstat_RESULT 2
    | some b => s.accErr ini b aDrcPpr
    | none =>
      if s.drc.ppr.isSome then s.accErr ini .busy aDrcPpr
      else if op == 2 && s.lifeCycle != 1 && s.lifeCycle != 5 then s.wr fDrcPprstat_RESULT 3
      else s.modDrc fun d => { d with ppr := some (BitVec.ofNat 32 v) }

/-- The repair that a command of PPR names: its place and whether it is hard. -/
def repairOf (w : Word) : Repaired := ⟨BitVec.ofNat 32 (bitsOf w.toNat 0 30), bitsOf w.toNat 30 2 == 2⟩

/-- PPR_DONE: the row is repaired where the stack reports so, and the repair is kept in the log (spec/16 R561). -/
def execPprDone (res : PprEnd) (s : State) : Host.Outcome State Fault Refusal :=
  .next <|
    match s.drc.ppr with
    | some w =>
      let s := (s.wr fDrcPprstat_RESULT (match res with | .ok => 0 | .noResource => 1 | .fail => 4)).modDrc fun d =>
        { d with ppr := none, repaired := if res = .ok then d.repaired ++ [repairOf w] else d.repaired }
      if res = .ok then { s with bist := { s.bist with log := s.bist.log ++ [.hbm (repairOf w) s.time.phcSec] } } else s
    | none => s

end Sys2Proof.Machine
end

