-- ==== Sys2Proof/Machine/Cores.lean ====
section
/-! DEFINITION. Site cores and the Dispatcher (spec/11). -/

namespace Sys2Proof.Machine

open Sys2Proof

/-- The site cores in order. -/
def coreList : List (Fin 8) := List.finRange 8

/-- The FAB cycle count: 1.25 ns each. -/
def State.fab (s : State) : Nat := s.clock / 16

/-! ## Running (R401 to R404) -/

/-- READY.DISPATCH set where Hamper collects, MGMT is 1, the store is good, no test runs on the Dispatcher and nothing holds the bit
(spec/17 R585, spec/16 R545, R556, R560, R563). -/
def State.dispReady (s : State) : State :=
  if s.isReady .hamper && s.isReady .mgmt && !s.disp.down && !s.tested [6] 0 && !s.heldReady .dispatch then s.setReady .dispatch true
  else s

/-- READY.CORES is 1 while all eight cores run on TROOT's period; it sets where MGMT is 1 and no exhausted repair holds it (spec/17
R585, spec/16 R563). -/
def State.coresReady (s : State) : State :=
  s.setReady .cores ((coreList.all fun c => s.coreRuns c) && s.isReady .troot && !s.heldReady .cores &&
    (s.isReady .cores || s.isReady .mgmt))

/-- The task in service on a core abandoned (R413). -/
def State.abandonTask (s : State) (c : Fin 8) : State :=
  if s.cores[c].hold.isSome then (s.wr (fDpCoreStat_ABANDON c) 1).modCore c fun x => { x with hold := none } else s

/-- A blocked GET ended with a value: the register of the load takes it, and the load retires. -/
def CoreSt.endGet (x : CoreSt) (v : DWord) : CoreSt :=
  let x' := { x with waiting := none, waitRd := none, loadData := v }
  match x.waitRd with
  | some (rd, len) => { x'.put rd v with
      pc := x.pc + BitVec.ofNat 64 len
      csr := { x.csr with minstret := if bitOf x.csr.mcountinhibit.toNat 2 then x.csr.minstret else x.csr.minstret + 1 } }
  | none => x'

/-- A blocked GET released: it returns 0. -/
def State.releaseGet (s : State) (c : Fin 8) : State :=
  s.modCore c fun x => if x.waiting.isSome then x.endGet 0 else x

/-- A blocked GET released where an interrupt is pending and enabled at the core's privilege, or GETEN is 0 (R409). -/
def State.getRelease (s : State) (c : Fin 8) : State :=
  if (s.irqDue c).isSome || !s.on (fDpCoreCtrl_GETEN c) then s.releaseGet c else s

/-- RESET: the core stops, its architectural state is reset, its local SRAM is kept. -/
def State.coreReset (s : State) (c : Fin 8) : State :=
  let s := (s.abandonTask c).wr (fDpCoreCtrl_RUN c) 0
  (s.modCore c fun x => { CoreSt.reset with sram := x.sram }).coresReady

/-- RUN written: a core that starts does so in machine mode at address 0, whatever stopped it or it waited for. -/
def State.coreRun (s : State) (c : Fin 8) (run : Bool) : State :=
  let starts := run && !s.on (fDpCoreCtrl_RUN c)
  let s := s.wr (fDpCoreCtrl_RUN c) (b2n run)
  (if starts then s.modCore c fun x => { x with
    pc := 0, machineMode := true, halted := false, waiting := none, waitRd := none } else s).coresReady

/-- A write of CORE[c].CTRL: GROUPS and GETEN by any initiator, RUN and RESET by the management controller only. -/
def State.opCoreCtrl (s : State) (ini : Initiator) (c : Fin 8) (v : DWord) : State :=
  let s := s.writeSome ini .dpCoreCtrl [c] .lo v fun f => f.lo == 8 || f.lo == 2
  let s := if s.on (fDpCoreCtrl_GETEN c) then s else s.releaseGet c
  if ini = .mgmt then
    if bitOf v.toNat 1 then s.coreReset c else s.coreRun c (bitOf v.toNat 0)
  else s

/-- A contained fault of a core: it stops, RUN reads 0, and its task is abandoned (R402, R403, R413). -/
def State.coreFault (s : State) (c : Fin 8) : State :=
  (((s.abandonTask c).wr (fDpCoreCtrl_RUN c) 0).modCore c fun x =>
    { x with halted := true, waiting := none, waitRd := none }).coresReady

/-- CORE_UE (R402). -/
def execCoreUe (c : Fin 8) (s : State) : Host.Outcome State Fault Refusal :=
  .next (s.whenAwake fun s => (s.reportUnit (.core c) 0).coreFault c)

/-- CORE_TIMER_INTERRUPT: pending while mtime ≥ mtimecmp. -/
def execCoreTimerInterrupt (c : Fin 8) (s : State) : Host.Outcome State Fault Refusal :=
  let t := s.mtime
  .next (s.modCore c fun x => { x with mtip := decide (x.mtimecmp ≤ t) })

/-- A write of IRQPEND (R423): bit 16 from the host sets DOORBELL, every other 1 clears its bit. -/
def State.opIrqpend (s : State) (ini : Initiator) (c : Fin 8) (v : Nat) : State :=
  let host := match ini with | .pcie _ => true | _ => false
  let set := host && bitOf v 16
  let clear := BitVec.ofNat 32 (if host then withBits (bitsOf v 0 18) 16 1 0 else bitsOf v 0 18)
  let s := s.setReg (aDpCoreIrqpend c) (s.reg (aDpCoreIrqpend c) &&& ~~~clear)
  if set then s.wr ⟨aDpCoreIrqpend c, 16, 1⟩ 1 else s

/-! ## Tasks (R405 to R407) -/

/-- Fields of a descriptor. -/
def dLevel (d : DWord) : Nat := bitsOf d.toNat 60 4
def dGroup (d : DWord) : Nat := bitsOf d.toNat 57 3
def dFlow (d : DWord) : Nat := bitsOf d.toNat 44 12

/-- Tasks that the Dispatcher holds waiting. -/
def dispSize : Nat := 4096

/-- A push (R406). -/
def State.opPush (s : State) (ini : Initiator) (desc : DWord) : State :=
  if !bitOf desc.toNat 56 then s.accErr ini .rsvd aDpPush
  else if dispSize ≤ s.disp.waiting.length then (s.wr fDpStat_FULL 1).addSat fDpDropcnt_COUNT 1
  else { s with disp := { s.disp with waiting := s.disp.waiting ++ [⟨desc, ini, s.fab⟩] } }

/-- Waiting tasks that meet a test discarded and counted. -/
def State.dropTasks (s : State) (p : Task → Bool) : State :=
  let gone := (s.disp.waiting.filter p).length
  let s := s.addSat fDpDropcnt_COUNT gone
  { s with disp := { s.disp with waiting := s.disp.waiting.filter fun t => !p t } }

/-- A write of CTRL: FLUSH (R412). -/
def State.opFlush (s : State) (v : Nat) : State := if bitOf v 0 then s.dropTasks fun _ => true else s

/-- Whether a flow has a task in service. -/
def State.inService (s : State) (flow : Nat) : Bool :=
  s.cores.toList.any fun c => match c.hold with | some d => dFlow d == flow | none => false

/-- The oldest task of each flow that is not among the flows passed, in push order. -/
def flowHeads : List Nat → List Task → List Task
  | _, [] => []
  | passed, t :: l =>
    if passed.contains (dFlow t.desc) then flowHeads passed l else t :: flowHeads (dFlow t.desc :: passed) l

/-- The eligible tasks of a level and group, oldest first. A task is never eligible before an earlier one of its flow is granted. -/
def State.eligible (s : State) (lvl g : Nat) : List Task :=
  (flowHeads [] s.disp.waiting).filter fun t => dLevel t.desc == lvl && dGroup t.desc == g && !s.inService (dFlow t.desc)

/-- Whether a level and group hold no waiting task. -/
def State.emptyAt (s : State) (lvl g : Nat) : Bool :=
  !(s.disp.waiting.any fun t => dLevel t.desc == lvl && dGroup t.desc == g)

/-! ## Grants (R408) -/

/-- The deficit of a group replaced, saturating. -/
def Disp.setDeficit (d : Disp) (lvl : Fin 16) (g : Fin 8) (v : Nat) : Disp :=
  { d with deficit := d.deficit.set lvl (d.deficit[lvl].set g (min v 65535)) }

/-- The pointer of a level moved on, and the group's weight added. -/
def State.nextGroup (s : State) (lvl : Fin 16) : State :=
  let g : Fin 8 := Fin.ofNat 8 (s.disp.ptr[lvl] + 1)
  let w := s.rd (fDpWeight_WEIGHT g)
  { s with disp := { s.disp with ptr := s.disp.ptr.set lvl g.val }.setDeficit lvl g (s.disp.deficit[lvl][g] + w) }

/-- The deficit round robin of a level: the task chosen for a core. -/
def State.drr (s : State) (groups : Nat) (lvl : Fin 16) : Nat → State × Option Task
  | 0 => (s, none)
  | k + 1 =>
    let g : Fin 8 := Fin.ofNat 8 s.disp.ptr[lvl]
    if s.eligible lvl g == [] || !bitOf groups g then
      (if s.emptyAt lvl g then { s with disp := s.disp.setDeficit lvl g 0 } else s).nextGroup lvl |>.drr groups lvl k
    else if s.disp.deficit[lvl][g] < 1 then (s.nextGroup lvl).drr groups lvl k
    else ({ s with disp := s.disp.setDeficit lvl g (s.disp.deficit[lvl][g] - 1) }, (s.eligible lvl g).head?)

/-- The highest level that holds an eligible task for a core's groups. -/
def State.bestLevel (s : State) (groups : Nat) : Option (Fin 16) :=
  (List.finRange 16).reverse.find? fun (l : Fin 16) => (List.range 8).any fun g => bitOf groups g && s.eligible l g != []

/-- The bin of a waiting time in FAB cycles (R414). -/
def waitBin (cycles : Nat) : Nat :=
  let ns := cycles * 5 / 4
  ((List.range 15).filter fun b => decide (10 * 2 ^ (b + 1) ≤ ns)).length

/-- A task granted to a core. -/
def State.grant (s : State) (c : Fin 8) (t : Task) : State :=
  let s := s.addSat (fDpHist_COUNT (dLevel t.desc) (waitBin (s.fab - t.fab))) 1
  let s := s.wr (fDpCoreTask_VALUE c) t.desc.toNat
  let s := { s with disp := { s.disp with waiting := s.disp.waiting.erase t } }
  s.modCore c fun x => { x.endGet t.desc with hold := some t.desc }

/-- The cores blocked in GET that may be granted, the one that waits longest first. -/
def State.waitingCores (s : State) : List (Fin 8) :=
  let l := coreList.filterMap fun (c : Fin 8) =>
    match s.cores[c].waiting with
    | some t => bif s.on (fDpCoreCtrl_GETEN c) && s.coreRuns c then some (t, c) else none
    | none => none
  (l.mergeSort fun a b => decide (a.1 < b.1) || (a.1 == b.1 && decide (a.2 ≤ b.2))).map (·.2)

/-- DISPATCH_GRANT: at most one grant. -/
def execDispatchGrant (s : State) : Host.Outcome State Fault Refusal :=
  .next <|
    if !s.isReady .dispatch then s
    else match s.waitingCores.find? fun (c : Fin 8) => (s.bestLevel (s.rd (fDpCoreCtrl_GROUPS c))).isSome with
      | none => s
      | some c =>
        let groups := s.rd (fDpCoreCtrl_GROUPS c)
        match s.bestLevel groups with
        | none => s
        | some l => match s.drr groups l 10 with
          | (s, some t) => s.grant c t
          | (s, none) => s

/-! ## GET and DONE (R409, R410) -/

/-- A load at the GET port of a running core. -/
def State.coreGet (s : State) (c : Fin 8) : State :=
  if s.cores[c].hold.isSome then (s.wr (fDpCoreStat_NESTED c) 1).modCore c fun x => { x with loadData := 0 }
  else if !s.on (fDpCoreCtrl_GETEN c) then s.modCore c fun x => { x with loadData := 0 }
  else
    let t := s.fab
    s.modCore c fun x => if x.waiting.isSome then x else { x with waiting := some t }

/-- A store at the DONE port of a running core: the task held ends, and TASK names none (R422, assumption 52). -/
def State.coreDone (s : State) (c : Fin 8) : State :=
  if s.cores[c].hold.isSome then
    ((s.wr (fDpCoreDonecnt_VALUE c) (s.rd (fDpCoreDonecnt_VALUE c) + 1)).wr (fDpCoreTask_VALUE c) 0).modCore c fun x =>
      { x with hold := none }
  else s.wr (fDpCoreStat_NODONE c) 1

/-- GET. -/
def execGet (c : Fin 8) (s : State) : Host.Outcome State Fault Refusal := .next <| if s.coreRuns c then s.coreGet c else s

/-- GET_RELEASE. -/
def execGetRelease (c : Fin 8) (s : State) : Host.Outcome State Fault Refusal := .next (s.getRelease c)

/-- DONE. -/
def execDone (c : Fin 8) (s : State) : Host.Outcome State Fault Refusal := .next <| if s.coreRuns c then s.coreDone c else s

end Sys2Proof.Machine
end

