-- ==== Sys2Proof/Machine/Wire.lean ====
section
/-! DEFINITION. What a Clothesline port puts on its lanes: block types, frame layout, checks (spec/12 R432 to R434, R439, R443,
R445; spec/13 R462, R468). -/

namespace Sys2Proof.Machine

open Sys2Proof

/-! ## Checks (assumption 54) -/

/-- One bit of a CRC with the polynomial 0x07, most significant bit first. -/
def crc8Bit (c : Nat) : Nat := if 128 ≤ c then Nat.xor (2 * c % 256) 7 else 2 * c

/-- The CRC-8 over some bytes. -/
def crc8 (l : List Byte) : Nat := l.foldl (fun c b => (List.range 8).foldl (fun c _ => crc8Bit c) (Nat.xor c b.toNat)) 0

/-! ## Control blocks (R433) -/

/-- The types of control blocks. -/
inductive BlockType where
  | idle | train | align | ack | nak | recover | sof
deriving DecidableEq, Repr

/-- Their codes. -/
def BlockType.code : BlockType → Nat
  | .idle => 0x1E | .train => 0x33 | .align => 0x4B | .ack => 0x2D | .nak => 0x66 | .recover => 0x55 | .sof => 0x78

/-- The type of a code. -/
def blockType (b : Byte) : Option BlockType :=
  [BlockType.idle, .train, .align, .ack, .nak, .recover, .sof].find? fun t => t.code == b.toNat

/-- The block of an IDLE. -/
def idleBlock : List Byte := BitVec.ofNat 8 BlockType.idle.code :: List.replicate 7 0

/-- STAT.STATE of a port that sends TRAIN blocks: PROBE (R430). -/
def probeCode : Nat := 1

/-- The block of a TRAIN on a lane: the lane and the state. -/
def trainBlock (lane : Nat) : List Byte :=
  BitVec.ofNat 8 BlockType.train.code :: (leBytes 1 lane ++ leBytes 1 probeCode ++ List.replicate 5 0)

/-- The block of an ALIGN on a lane. -/
def alignBlock (lane : Nat) : List Byte := BitVec.ofNat 8 BlockType.align.code :: (leBytes 1 lane ++ List.replicate 6 0)

/-- The block of a RECOVER: RDY and SWDLY. -/
def recoverBlock (rdy : Bool) (swdly : Nat) : List Byte :=
  BitVec.ofNat 8 BlockType.recover.code :: (leBytes 1 (b2n rdy) ++ leBytes 3 swdly ++ List.replicate 3 0)

/-- The block of an ACK or NAK: the sequence number and its CRC-8. -/
def ackBlock (t : BlockType) (seq : BitVec 12) : List Byte :=
  let n := leBytes 2 seq.toNat
  [BitVec.ofNat 8 t.code] ++ n ++ [BitVec.ofNat 8 (crc8 n)] ++ List.replicate 4 0

/-- Whether the check of a received ACK or NAK holds: over its bytes 1 and 2. -/
def ackGood (body : BitVec 16) (crc : Byte) : Bool := crc8 (leBytes 2 body.toNat) == crc.toNat

/-- The sequence number of a received ACK or NAK. -/
def ackSeq (body : BitVec 16) : BitVec 12 := body.setWidth 12

/-! ## Frames (R434) -/

/-- The sub-type of an ENUM frame and its DEPTH, bytes 2 and 3, GEN and SERIAL (R445); the top bit of COUNT tells an overflow
(assumption 54). -/
def enumBytes (sub depth two : Nat) (gen : Word) (serial : DWord) : List Byte :=
  leBytes 1 sub ++ leBytes 1 depth ++ leBytes 2 two ++ leBytes 4 gen.toNat ++ leBytes 8 serial.toNat

/-- The first word of a register frame (R443). -/
def regHead (tag : BitVec 6) (off low : Nat) : List Byte := leBytes 4 (tag.toNat * 2 ^ 26 + off / 4 % 2 ^ 24 * 4 + low)

/-- The payload of a frame. -/
def Payload.bytes : Payload → List Byte
  | .hello version trusted rxok drive swdly serial =>
    leBytes 1 version.toNat ++ leBytes 1 (b2n trusted + 2 * b2n rxok + 4 * b2n drive) ++ leBytes 4 swdly ++ leBytes 2 0 ++
      leBytes 8 serial.toNat
  | .discover gen depth => enumBytes 1 depth 0 gen 0
  | .join gen => enumBytes 2 0 0 gen 0
  | .alt gen => enumBytes 3 0 0 gen 0
  | .report gen serial hint => enumBytes 4 0 hint.toNat gen serial
  | .fin gen count overflow => enumBytes 5 0 (count % 2 ^ 15 + 2 ^ 15 * b2n overflow) gen 0
  | .assign gen serial index => enumBytes 6 0 index.toNat gen serial
  | .done gen => enumBytes 7 0 0 gen 0
  | .change gen => enumBytes 8 0 0 gen 0
  | .adopt gen => enumBytes 9 0 0 gen 0
  | .trig num tm => leBytes 8 num.toNat ++ leBytes 8 tm.toNat
  | .sync prio hops sseq serial tick tap =>
    leBytes 1 1 ++ leBytes 1 prio.toNat ++ leBytes 2 hops ++ leBytes 4 sseq.toNat ++ leBytes 8 tick.toNat ++ leBytes 8 tap.toNat ++
      leBytes 8 serial.toNat
  | .dreq num => leBytes 1 2 ++ leBytes 15 num.toNat
  | .dresp num _ turn => leBytes 1 3 ++ leBytes 7 num.toNat ++ leBytes 8 turn
  | .late num index behind => leBytes 1 4 ++ leBytes 1 num.toNat ++ leBytes 2 index.toNat ++ leBytes 4 (unsignedOf behind 32)
  | .summary vec map tag slices =>
    leBytes 8 vec.toNat ++ leBytes 32 map.toNat ++ leBytes 1 tag.toNat ++ leBytes 7 slices.toNat
  | .regrd tag off => regHead tag off 0 ++ leBytes 4 0
  | .regwr tag off data => regHead tag off 0 ++ leBytes 4 data.toNat
  | .regrsp tag off status data => regHead tag off status.toNat ++ leBytes 4 data.toNat

/-- KIND. -/
def Payload.kind : Payload → Nat
  | .hello .. => 0x01
  | .discover .. | .join .. | .alt .. | .report .. | .fin .. | .assign .. | .done .. | .change .. | .adopt .. => 0x02
  | .trig .. => 0x10
  | .sync .. | .dreq .. | .dresp .. | .late .. => 0x11
  | .summary .. => 0x20
  | .regrd .. => 0x30
  | .regwr .. => 0x31
  | .regrsp .. => 0x32

/-- Whether a frame is of kind ENUM. -/
def Payload.isEnum (l : Payload) : Bool := l.kind == 0x02

/-- LEN: payload blocks of 8 bytes. -/
def Payload.len (l : Payload) : Nat := l.bytes.length / 8

/-- Bytes 1 to 7 of the SOF block. -/
def Frame.head (f : Frame) : List Byte :=
  leBytes 1 f.load.kind ++ leBytes 2 (f.seq.toNat + 2 ^ 12 * f.load.len) ++ leBytes 2 f.dst.toNat ++
    leBytes 2 (f.src.toNat + 2 ^ 12 * b2n f.bcast + 2 ^ 13 * b2n f.urg)

/-- The blocks of a frame, each with its lane and whether it is a control block: SOF, payload, and the tail with the check. -/
def Frame.blocks (f : Frame) : List (Nat × Bool × List Byte) :=
  let body := f.load.bytes
  let sof := (true, BitVec.ofNat 8 BlockType.sof.code :: f.head)
  let data := (List.range f.load.len).map fun i => (false, (body.drop (8 * i)).take 8)
  let tail := (false, leBytes 4 (crc32c (f.head ++ body)).toNat ++ List.replicate 4 0)
  ([sof] ++ data ++ [tail]).zipIdx.map fun e => (e.2 % 2, e.1.1, e.1.2)

/-! ## What an event of a port puts on its lanes -/

/-- A control block on both lanes. -/
def onBoth (block : Nat → List Byte) : List (Option Nat × Bool × List Byte) := [(some 0, true, block 0), (some 1, true, block 1)]

/-- The blocks of an event of a port, each with its lane, where the spec names one, and whether it is a control block: TRAIN, ALIGN
and RECOVER leave on both lanes (R429, R430, R433, R436), a frame on alternate ones (R434). -/
def OutEvent.blocks (e : OutEvent) : List (Option Nat × Bool × List Byte) :=
  match e with
  | .clFrame _ f => f.blocks.map fun b => (some b.1, b.2)
  | .clTrain _ => onBoth trainBlock
  | .clAlign _ => onBoth alignBlock
  | .clRecover _ rdy swdly => onBoth fun _ => recoverBlock rdy swdly
  | .clIdle _ => onBoth fun _ => idleBlock
  | .clAck _ seq => [(none, true, ackBlock .ack seq)]
  | .clNak _ seq => [(none, true, ackBlock .nak seq)]
  | .msix .. | .aerFatal | .aerHost _ | .hostWrite .. | .ethFrame .. | .smbus _ => []

end Sys2Proof.Machine
end

