-- ==== Sys2Proof/Machine/Ports.lean ====
section
/-! DEFINITION. Clothesline ports: detectors, training, recovery, replay (spec/12 R424 to R437, R448). -/

namespace Sys2Proof.Machine

open Sys2Proof

/-- Whether a port is TRUSTED (R440). -/
def State.trusted (s : State) (p : Fin 4) : Bool := s.on (fClCtrl_MODE p)

/-- Whether a port is the end of its link that drives FCK (R425). -/
def State.drivesFck (s : State) (p : Fin 4) : Bool := s.on (fClCtrl_FCKDIR p)

/-- Whether a port's FCK driver is on: at the DRIVE end in PROBE, ALIGN, HANDSHAKE and, until its transmitter changes, RECOVER
(R425, R436). -/
def State.fckOn (s : State) (p : Fin 4) : Bool :=
  s.drivesFck p && match s.port[p].st with
    | .probe | .align | .handshake => true
    | .recover => !s.port[p].txEmb
    | _ => false

/-! ## Changes of state (R430, R431, R435, R436) -/

/-- The replay buffer and every waiting frame discarded and counted. -/
def State.dropFrames (s : State) (p : Fin 4) : State :=
  let x := s.port[p]
  let k := x.sent.length + x.wait.length + if x.sum.isSome then 1 else 0
  (s.addSat (fClDropcnt_TXDROP p) k).modPort p fun x => { x with sent := [], wait := [], sum := none }

/-- A port that starts a state of training anew: sequence numbers 0, lanes out of lock. -/
def Port.anew (x : Port) (st : PortState) (single drive : Bool) : Port :=
  { Port.reset with
    st := st, single := single, fckOk := drive
    lane := Vector.ofFn fun l : Fin 2 => { RxLane.reset with los := x.lane[l].los }
    tokens := x.tokens, exchNum := x.exchNum, role := x.role, roleGen := x.roleGen, wasActive := x.wasActive }

/-- The port out of service in a state. -/
def State.enter (s : State) (p : Fin 4) (st : PortState) (single : Bool) : State :=
  let s := (s.dropFrames p).setReady (.cl p) false
  let drive := s.drivesFck p
  s.modPort p fun x => x.anew st single drive

/-- An attempt begins: TRAIN blocks leave on both lanes. A port that the fuses do not name is not present (spec/00 R33), and one
under a full BIST takes no work (spec/16 R556). -/
def State.enterProbe (s : State) (p : Fin 4) (single : Bool) : State :=
  if s.hasCap (4 + p.val) && !s.tested [7] p then ((s.abandonRinse [7] p).enter p .probe single).emit (.clTrain p) else s

/-- Attempt 1 of a series. -/
def State.attempt1 (s : State) (p : Fin 4) : State := (s.wr (fClStat_ATTEMPT p) 0).enterProbe p false

/-- An attempt fails for a reason: the next one, or DOWN after the third or after a single one. -/
def State.failAttempt (s : State) (p : Fin 4) (reason : Nat) : State :=
  let a := min (s.rd (fClStat_ATTEMPT p) + 1) 3
  let s := s.wrs [(fClStat_REASON p, reason), (fClStat_ATTEMPT p, a)]
  if s.port[p].single || a = 3 then (s.enter p .down false).wr (fClStat_DOWNEV p) 1 else s.enterProbe p false

/-- Whether a state runs in EMBEDDED clock mode (R426). -/
def PortState.embedded (st : PortState) : Bool := match st with | .switch | .measure | .active => true | _ => false

/-- Whether an attempt is in progress. -/
def PortState.trying (st : PortState) : Bool :=
  match st with | .probe | .align | .handshake | .switch | .measure => true | _ => false

/-- Whether a port's READY bit may set: the bits that R585 names, and no failed test or exhausted repair that holds it (spec/16 R560,
R563). -/
def State.clMayReady (s : State) (p : Fin 4) : Bool := s.isReady .mgmt && s.isReady .troot && !s.heldReady (.cl p)

/-- In service. -/
def State.linkActive (s : State) (p : Fin 4) : State :=
  let s := s.wr (fClStat_ATTEMPT p) 0
  (if s.clMayReady p then s.setReady (.cl p) true else s).modPort p fun x => { x with st := .active, single := false }

/-! ## Stamps (spec/13 R459, R461, R462), in taps -/

/-- A departure and an arrival as seen at the ball. -/
def State.departed (s : State) (p : Fin 4) (t : Nat) : Int := (t + s.rd (fTmLinkLat_TXLAT p) : Nat)
def State.arrived (s : State) (p : Fin 4) (t : Nat) : Int := (t : Int) - (s.rd (fTmLinkLat_RXLAT p) : Nat)

/-- A frame's timestamps written as it leaves the ball at an instant. -/
def Frame.stamped (f : Frame) (ball : Int) : Frame :=
  match f.load with
  | .sync prio hops sseq serial _ _ =>
    { f with load := .sync prio hops sseq serial (BitVec.ofInt 64 (ball / 256)) (BitVec.ofInt 8 (ball % 256)) }
  | .dresp num t2 _ => { f with load := .dresp num t2 (ball - t2).toNat }
  | _ => f

/-- An exchange's t1 is that of the last departure of its DREQ. -/
def Port.departs (x : Port) (f : Frame) (ball : Int) : Port :=
  match f.load with
  | .dreq num => { x with exch := x.exch.map fun e => if e.1 = num then (num, ball) else e }
  | _ => x

/-- A frame sent at an instant. -/
def State.sendAt (s : State) (p : Fin 4) (f : Frame) (departure : Nat) : State :=
  let ball := s.departed p departure
  (s.modPort p fun x => x.departs f ball).emit (.clFrame p (f.stamped ball))

/-- The instant at which a frame leaves in this TROOT period: its tap is open (assumption 55). -/
def State.departure (s : State) : Nat × State :=
  let v := s.freeVal
  (s.time.tick.toNat * 256 + v.1.toNat % 256, v.2)

/-- A frame sent now. -/
def State.sendNow (s : State) (p : Fin 4) (f : Frame) : State := s.departure.2.sendAt p f s.departure.1

/-- The outstanding frames sent again, oldest first; their stamps are those of this transmission (spec/13 R461). -/
def State.resend (s : State) (p : Fin 4) : State :=
  let x := s.port[p]
  if x.sent.isEmpty then s
  else x.sent.foldl (fun s f => s.sendNow p f) (s.addSat (fClLinkcnt_REPLAY p) 1)

/-- ACTIVE is left for RECOVER. -/
def State.enterRecover (s : State) (p : Fin 4) : State :=
  let s := (s.addSat (fClLinkcnt_RECOVER p) 1).setReady (.cl p) false
  (s.modPort p fun x => { x with
    st := .recover, txEmb := false, rxEmb := false, swTx := 0, swRx := 0, rdySent := false
    rdySeen := false, resends := 0
    lane := Vector.ofFn fun l : Fin 2 => { RxLane.reset with los := x.lane[l].los } }).emit (.clRecover p false 0)

/-- A block count to announce for the change to EMBEDDED: the port's own choice from 512 to 65,536 (R432). -/
def State.swdly (s : State) : Nat × State := (512 + s.freeVal.1.toNat % 65025, s.freeVal.2)

/-- The skew of two lanes in blocks: both send ALIGN every 16,384 blocks in one slot, so the difference of their slots is taken
modulo that, as a signed number (R429). -/
def laneSkew (a b : Nat) : Int := ((a : Int) - b + 8192) % 16384 - 8192

/-- Whether the lanes are deskewed: ALIGN came on both, with a skew that is absorbed (R429). -/
def Port.deskew (x : Port) : Bool :=
  match x.lane[0].alignAt, x.lane[1].alignAt with
  | some a, some b => decide ((laneSkew a b).natAbs ≤ 16)
  | _, _ => false

/-- In RECOVER: RDY sent once the lanes are locked and deskewed, SWDLY once RDY was both sent and received. -/
def State.recoverStep (s : State) (p : Fin 4) : State :=
  let x := s.port[p]
  let lock := x.lane[0].blk && x.lane[1].blk
  let s := if lock && x.deskew && !x.rdySent && !x.rxEmb then
      (s.modPort p fun x => { x with rdySent := true }).emit (.clRecover p true 0)
    else s
  let x := s.port[p]
  if x.rdySent && x.rdySeen && x.swTx = 0 then
    let d := s.swdly
    (d.2.modPort p fun x => { x with swTx := d.1 }).emit (.clRecover p true d.1)
  else if x.txEmb && x.rxEmb && lock && !x.lane[0].lol && !x.lane[1].lol then (s.linkActive p).resend p
  else s

/-- What a port's detectors let it do next. -/
def State.progress (s : State) (p : Fin 4) : State :=
  let x := s.port[p]
  let clean := !x.lane[0].los && !x.lane[1].los
  let cdr := !x.lane[0].lol && !x.lane[1].lol
  let lock := x.lane[0].blk && x.lane[1].blk
  match x.st with
  | .probe => if clean && x.fckOk then s.modPort p fun x => { x with st := .align } else s
  | .align => if lock && x.deskew then s.modPort p fun x => { x with st := .handshake } else s
  | .switch => if x.txEmb && x.rxEmb && cdr && lock then s.modPort p fun x => { x with st := .measure } else s
  | .active => if clean && cdr && lock then s else s.enterRecover p
  | .recover => s.recoverStep p
  | _ => s

/-! ## Register writes (R430, R448, R449) -/

/-- LOOPBACK entered by a port that the fuses name, once no full BIST tests it (spec/00 R33, spec/16 R556). -/
def State.loopBack (s : State) (p : Fin 4) : State :=
  if s.hasCap (4 + p.val) && !s.tested [7] p then s.enter p .loopback false else s

/-- A write of CTRL: one that would change MODE, FCKDIR or LOOPBACK is refused as a whole unless the port is DISABLED or DOWN;
LOOPBACK can be cleared in LOOPBACK. -/
def State.opClCtrl (s : State) (ini : Initiator) (p : Fin 4) (v : DWord) : State :=
  let x := s.port[p]
  let open_ := x.st == .disabled || x.st == .down
  let en := bitOf v.toNat 31
  let loopOff := x.st == .loopback && !bitOf v.toNat 29
  let old := (s.reg (aClCtrl p)).toNat
  let changes := fun (b : Nat) => bitOf v.toNat b != bitOf old b
  let refused := !open_ && (changes 24 || changes 25 || (changes 29 && !loopOff))
  let s := if refused then s.accErr ini .busy (aClCtrl p) else s.writeReg ini .clCtrl [p] .lo v
  if refused then s
  else if !en then
    if x.st == .disabled then s
    else
      let s := if x.st.trying || x.st == .recover then s.wr (fClStat_REASON p) 0xB else s
      s.enter p .disabled false
  else if loopOff then s.enter p .disabled false
  else if open_ && s.on (fClCtrl_LOOPBACK p) then s.loopBack p
  else if bitOf v.toNat 30 then
    let s := if x.st.trying then s.wr (fClStat_REASON p) 0xB else s
    s.attempt1 p
  else if x.st == .disabled then s.attempt1 p
  else s

/-! ## Detectors (R427 to R429) -/

/-- One receive lane changed. -/
def Port.modRx (x : Port) (l : Fin 2) (f : RxLane → RxLane) : Port := { x with lane := x.lane.set l (f x.lane[l]) }

/-- LOS_SET. -/
def execLosSet (p : Fin 4) (l : Fin 2) (s : State) : Host.Outcome State Fault Refusal :=
  .next ((s.modPort p fun x => x.modRx l fun r => { r with los := true }).progress p)

/-- LOS_CLEAR. -/
def execLosClear (p : Fin 4) (l : Fin 2) (s : State) : Host.Outcome State Fault Refusal :=
  .next ((s.modPort p fun x => x.modRx l fun r => { r with los := false }).progress p)

/-- LOL_SET: in EMBEDDED mode only. -/
def execLolSet (p : Fin 4) (l : Fin 2) (s : State) : Host.Outcome State Fault Refusal :=
  .next <| if s.port[p].rxEmb then (s.modPort p fun x => x.modRx l fun r => { r with lol := true }).progress p else s

/-- LOL_CLEAR. -/
def execLolClear (p : Fin 4) (l : Fin 2) (s : State) : Host.Outcome State Fault Refusal :=
  .next ((s.modPort p fun x => x.modRx l fun r => { r with lol := false }).progress p)

/-- FCK_DETECTOR: in PROBE, FCK present (SENSE) or free of contention (DRIVE). -/
def execFckDetector (p : Fin 4) (ok : Bool) (s : State) : Host.Outcome State Fault Refusal :=
  .next <| if s.port[p].st = .probe then (s.modPort p fun x => { x with fckOk := ok }).progress p else s

/-- A lane's block lock after a sync header: 64 valid ones in HUNT set it, 32 invalid ones of a window of 1,024 clear it. -/
def RxLane.header (r : RxLane) (valid : Bool) : RxLane :=
  if !r.blk then
    if !valid then { r with good := 0 }
    else if r.good + 1 = 64 then { r with blk := true, good := 0, blocks := 0, bad := 0 }
    else { r with good := r.good + 1 }
  else
    let bad := r.bad + if valid then 0 else 1
    if bad = 32 then { r with blk := false, good := 0, blocks := 0, bad := 0, alignAt := none }
    else if r.blocks + 1 = 1024 then { r with blocks := 0, bad := 0 }
    else { r with blocks := r.blocks + 1, bad := bad }

/-- A block received on lane 0 towards the receiver's change to EMBEDDED, at which both lanes lose their lock: counted from the SOF
block of the HELLO that announced it, in HANDSHAKE too (R432). -/
def Port.countRx (x : Port) : Port :=
  if (x.st == .handshake || x.st == .switch || x.st == .recover) && !x.rxEmb && x.swRx != 0 then
    if x.swRx = 1 then
      { x with swRx := 0, rxEmb := true
               lane := Vector.ofFn fun l : Fin 2 => { RxLane.reset with los := x.lane[l].los, lol := true } }
    else { x with swRx := x.swRx - 1 }
  else x

/-- RX_BLOCK (R428, R433): an invalid header counts, and so does a control block of a type that is not of the table. -/
def execRxBlock (p : Fin 4) (l : Fin 2) (hdr : BitVec 2) (btype : Byte) (s : State) : Host.Outcome State Fault Refusal :=
  .next <|
    let valid := hdr == 1 || hdr == 2
    let odd := hdr == 2 && (blockType btype).isNone
    let s := if valid && !odd then s else s.addSat (fClErrcnt_HDR p) 1
    let s := s.modPort p fun x => x.modRx l fun r => r.header valid
    (s.modPort p fun x => if l = 0 then x.countRx else x).progress p

/-- TRAIN (R435). -/
def execTrain (p : Fin 4) (_l : Fin 2) (s : State) : Host.Outcome State Fault Refusal :=
  .next <| if s.port[p].st = .active || s.port[p].st = .recover then s.attempt1 p else s

/-- ALIGN (R429): on a lane in lock, the slot at which its block came. -/
def execAlign (p : Fin 4) (l : Fin 2) (block : Nat) (s : State) : Host.Outcome State Fault Refusal :=
  .next <|
    let x := s.port[p]
    if x.st == .disabled || x.st == .down || x.st == .loopback || !x.lane[l].blk then s
    else (s.modPort p fun x => x.modRx l fun r => { r with alignAt := some block }).progress p

/-- ALIGN_TX (R429): both lanes send ALIGN in one slot, unless the transmitters idle; in LOOPBACK nothing leaves the port (R430). -/
def execAlignTx (p : Fin 4) (s : State) : Host.Outcome State Fault Refusal :=
  .next <|
    let x := s.port[p]
    if x.st == .disabled || x.st == .down || x.st == .loopback then s else s.emit (.clAlign p)

/-! ## HELLO (R430 to R432) -/

/-- A HELLO frame sent. -/
def State.sendHello (s : State) (p : Fin 4) (swdly : Nat) : State :=
  s.emit (.clFrame p ⟨0, 0, s.enum.index, false, false,
    .hello 1 (s.trusted p) s.port[p].helloAny (s.drivesFck p) swdly Config.serial⟩)

/-- HELLO_TIMER: in HANDSHAKE a HELLO; in SWITCH the one that announces the change. -/
def execHelloTimer (p : Fin 4) (s : State) : Host.Outcome State Fault Refusal :=
  .next <| match s.port[p].st with
    | .handshake => s.sendHello p 0
    | .switch =>
      if s.port[p].swTx = 0 then
        let d := s.swdly
        (d.2.modPort p fun x => { x with swTx := d.1 }).sendHello p d.1
      else s
    | _ => s

/-- HELLO: version, own serial number and FCK conflict fail the attempt at once. -/
def execHello (p : Fin 4) (version : Byte) (_trusted rxok drive : Bool) (swdly : Nat) (serial : DWord) (s : State) :
    Host.Outcome State Fault Refusal :=
  .next <|
    let x := s.port[p]
    if x.st == .active then s.addSat (fClErrcnt_HDR p) 1
    else if x.st != .handshake && x.st != .switch then s
    else if version != 1 then s.failAttempt p 7
    else if serial == Config.serial then s.failAttempt p 8
    else if drive && s.drivesFck p then s.failAttempt p 3
    else s.modPort p fun x =>
      let run := if rxok then x.helloRun + 1 else 0
      { x with
        helloAny := true, helloRun := min run 8
        swRx := if swdly = 0 then x.swRx else swdly
        st := if 8 ≤ run then .switch else x.st }

/-- TX_EMBEDDED_CHANGE (R432, R436). -/
def execTxEmbeddedChange (p : Fin 4) (s : State) : Host.Outcome State Fault Refusal :=
  .next <|
    let x := s.port[p]
    if (x.st == .switch || x.st == .recover) && x.swTx != 0 then
      (s.modPort p fun x => { x with txEmb := true }).progress p
    else s

/-- RECOVER (R436). -/
def execRecover (p : Fin 4) (rdy : Bool) (swdly : Nat) (s : State) : Host.Outcome State Fault Refusal :=
  .next <|
    let s := if s.port[p].st = .active then s.enterRecover p else s
    if s.port[p].st = .recover then
      (s.modPort p fun x => { x with rdySeen := x.rdySeen || rdy, swRx := if swdly = 0 then x.swRx else swdly }).progress p
    else s

/-! ## Timeouts (R430, R431, R436) -/

/-- The reason of an attempt that timed out. -/
def State.timeoutReason (s : State) (p : Fin 4) : Nat :=
  let x := s.port[p]
  match x.st with
  | .switch => 9
  | .measure => 0xA
  | st =>
    if x.lane[0].los || x.lane[1].los then 1
    else if st == .probe then (if s.drivesFck p then 3 else 2)
    else if !(x.lane[0].blk && x.lane[1].blk) then 4
    else if !x.deskew then 5
    else 6

/-- ATTEMPT_TIMEOUT. -/
def execAttemptTimeout (p : Fin 4) (s : State) : Host.Outcome State Fault Refusal :=
  .next <| if s.port[p].st.trying then s.failAttempt p (s.timeoutReason p) else s

/-- SWITCH_TIMEOUT. -/
def execSwitchTimeout (p : Fin 4) (s : State) : Host.Outcome State Fault Refusal :=
  .next <| if s.port[p].st = .switch then s.failAttempt p 9 else s

/-- DOWN_RETRY. -/
def execDownRetry (p : Fin 4) (s : State) : Host.Outcome State Fault Refusal :=
  .next <| if s.port[p].st = .down then s.enterProbe p true else s

/-- RECOVER_TIMEOUT. -/
def execRecoverTimeout (p : Fin 4) (s : State) : Host.Outcome State Fault Refusal :=
  .next <| if s.port[p].st = .recover then s.attempt1 p else s

/-! ## Sequence numbers and replay (R435) -/

/-- A frame that leaves at an instant with the next sequence number, and is kept. -/
def State.transmitAt (s : State) (p : Fin 4) (f : Frame) (departure : Nat) : State :=
  let f := { f with seq := s.port[p].txseq }
  (s.modPort p fun x => { x with txseq := x.txseq + 1, sent := x.sent ++ [f] }).sendAt p f departure

/-- A frame that leaves now. -/
def State.transmit (s : State) (p : Fin 4) (f : Frame) : State := s.departure.2.transmitAt p f s.departure.1

/-- Whether a port's role was last set in an older generation: it carries no frame other than ENUM (R447). The exchanges of MEASURE,
without which no port comes back into service, are not held back (assumption 62). -/
def State.roleStale (s : State) (p : Fin 4) : Bool :=
  s.port[p].st != .measure && s.port[p].roleGen.isSome && s.port[p].roleGen != some s.enum.gen

/-- Whether the sender may send a new frame. -/
def Port.mayTransmit (x : Port) : Bool := decide (x.sent.length < 256)

/-- TX_FRAME: the next waiting frame, urgent ones first, the summary last; with none that may leave, an IDLE block. -/
def execTxFrame (p : Fin 4) (s : State) : Host.Outcome State Fault Refusal :=
  .next <|
    let x := s.port[p]
    let may := x.wait.filter fun f => f.load.isEnum || !s.roleStale p
    if x.st != .active then s
    else if !x.mayTransmit then s.emit (.clIdle p)
    else match may.find? fun f => f.urg with
      | some f => (s.modPort p fun x => { x with wait := x.wait.erase f }).transmit p f
      | none => match may, x.sum with
        | f :: _, _ => (s.modPort p fun x => { x with wait := x.wait.erase f }).transmit p f
        | [], some f => if s.roleStale p then s.emit (.clIdle p) else (s.modPort p fun x => { x with sum := none }).transmit p f
        | [], none => s.emit (.clIdle p)

/-- Whether a port exchanges frames. -/
def PortState.exchanges (st : PortState) : Bool := st == .active || st == .measure

/-- Frames freed up to a place of the replay buffer. -/
def State.ackUpto (s : State) (p : Fin 4) (k : Nat) : State :=
  s.modPort p fun x => { x with sent := x.sent.drop k, resends := if k = 0 then x.resends else 0 }

/-- ACK: frees every outstanding frame up to and including the one named; one whose check fails is discarded. -/
def execAck (p : Fin 4) (body : BitVec 16) (crc : Byte) (s : State) : Host.Outcome State Fault Refusal :=
  .next <|
    if ackGood body crc && s.port[p].st.exchanges then
      match s.port[p].sent.findIdx? fun f => f.seq == ackSeq body with
      | some i => s.ackUpto p (i + 1)
      | none => s
    else s

/-- A resend, which counts as fruitless until something is freed; after four of them the port enters RECOVER. -/
def State.resendOrRecover (s : State) (p : Fin 4) : State :=
  if s.port[p].sent.isEmpty then s
  else if 4 ≤ s.port[p].resends then (if s.port[p].st = .active then s.enterRecover p else s)
  else (s.resend p).modPort p fun x => { x with resends := x.resends + 1 }

/-- NAK: frees every frame before the one named, and sends again from it; ignored where that frame is freed already. -/
def execNak (p : Fin 4) (body : BitVec 16) (crc : Byte) (s : State) : Host.Outcome State Fault Refusal :=
  .next <|
    if ackGood body crc && s.port[p].st.exchanges then
      if ackSeq body == s.port[p].txseq then s.ackUpto p s.port[p].sent.length
      else match s.port[p].sent.findIdx? fun f => f.seq == ackSeq body with
        | some i => (s.ackUpto p i).resendOrRecover p
        | none => s
    else s

/-- REPLAY_TIMEOUT. -/
def execReplayTimeout (p : Fin 4) (s : State) : Host.Outcome State Fault Refusal :=
  .next <| if s.port[p].st.exchanges then s.resendOrRecover p else s

/-- ACK_TIMER. -/
def execAckTimer (p : Fin 4) (s : State) : Host.Outcome State Fault Refusal :=
  .next <|
    let x := s.port[p]
    if x.st.exchanges && x.unacked != 0 then
      (s.modPort p fun x => { x with unacked := 0 }).emit (.clAck p (x.rxseq - 1))
    else s

/-- FRAME_CRC_ERROR: counted; one NAK until a good frame arrives. In HANDSHAKE it breaks the run of valid HELLOs (R430). -/
def execFrameCrcError (p : Fin 4) (s : State) : Host.Outcome State Fault Refusal :=
  .next <|
    let x := s.port[p]
    let s := s.addSat (fClErrcnt_CRC p) 1
    if x.st = .handshake then s.modPort p fun x => { x with helloRun := 0 }
    else if !x.st.exchanges || x.nakSent then s
    else (s.modPort p fun x => { x with nakSent := true }).emit (.clNak p x.rxseq)

/-- A good frame arrives: whether it is accepted, and the state with what the receiver answers. -/
def State.takeFrame (s : State) (p : Fin 4) (h : Hdr) : Bool × State :=
  let x := s.port[p]
  let d := (h.seq - x.rxseq).toNat
  if !x.st.exchanges then (false, s)
  else
    let s := s.modPort p fun x => { x with nakSent := false }
    if d = 0 then
      let s := s.modPort p fun x => { x with rxseq := x.rxseq + 1, unacked := x.unacked + 1 }
      if 32 ≤ s.port[p].unacked then
        (true, (s.modPort p fun x => { x with unacked := 0 }).emit (.clAck p (s.port[p].rxseq - 1)))
      else (true, s)
    else if d ≤ 2047 then (false, s.emit (.clNak p x.rxseq))
    else (false, s.emit (.clAck p (x.rxseq - 1)))

/-! ## TRUSTED and PEER (R440, R441) -/

/-- Kinds of frames. -/
inductive FrameKind where
  | enum | trig | time | summary | reg
deriving DecidableEq, Repr

/-- The bucket of a kind on a PEER port; none where a PEER port does not accept the kind. -/
def FrameKind.bucket : FrameKind → Option (Fin 3)
  | .trig => some 0 | .time => some 1 | .summary => some 2 | .enum | .reg => none

/-- The size of a bucket. -/
def State.burst (s : State) (p : Fin 4) (k : Fin 3) : Nat :=
  match k with | 0 => s.rd (fClPeerlim0_BURST p) | 1 => s.rd (fClPeerlim1_BURST p) | 2 => s.rd (fClPeerlim2_BURST p)

/-- PEER_BUCKET_REFILL. -/
def execPeerBucketRefill (p : Fin 4) (k : Fin 3) (s : State) : Host.Outcome State Fault Refusal :=
  let b := s.burst p k
  .next (s.modPort p fun x => { x with tokens := x.tokens.set k (min (x.tokens[k] + 1) b) })

/-- Whether a port accepts a frame of a kind, with the token taken or the drop counted. -/
def State.gate (s : State) (p : Fin 4) (k : FrameKind) : Bool × State :=
  if s.trusted p then (true, s)
  else match k.bucket with
    | none =>
      let s := (s.wr (fClStat_VIOL p) 1).addSat (fClDropcnt_PEERDROP p) 1
      (false, s.reportUnit (.port p) 0)
    | some b =>
      if min s.port[p].tokens[b] (s.burst p b) = 0 then (false, s.addSat (fClDropcnt_PEERDROP p) 1)
      else
        let full := s.burst p b
        (true, s.modPort p fun x => { x with tokens := x.tokens.set b (min x.tokens[b] full - 1) })

/-- Whether a port's state lets a kind of frame act: enumeration runs over ports in ACTIVE (R444), and a port whose role is of an
older generation carries nothing else (R447). -/
def State.kindActs (s : State) (p : Fin 4) (k : FrameKind) : Bool :=
  if k = .enum then s.port[p].st == .active else !s.roleStale p

/-- A received frame: its sequence number, its kind, then what it does. -/
def State.onFrame (s : State) (p : Fin 4) (h : Hdr) (k : FrameKind) (f : State → State) : State :=
  match s.takeFrame p h with
  | (false, s) => s
  | (true, s) => match s.gate p k with
    | (false, s) => s
    | (true, s) => if s.kindActs p k then f s else s

end Sys2Proof.Machine
end

