-- ==== Sys2Proof/Machine/Links.lean ====
section
/-! DEFINITION. Clothesline frames above the link: routing, fail summaries, enumeration (spec/12 R438 to R447), and the
GSYNC word that posts a summary (spec/04 R162, R163). -/

namespace Sys2Proof.Machine

open Sys2Proof

/-! ## Routing (R437, R447) -/

/-- A frame of this device. -/
def State.frame (s : State) (dst : BitVec 12) (bcast urg : Bool) (load : Payload) : Frame :=
  ⟨0, dst, s.enum.index, bcast, urg, load⟩

/-- A frame offered to a port: it waits in ACTIVE and RECOVER, else it is discarded and counted. -/
def State.offer (s : State) (p : Fin 4) (f : Frame) : State :=
  if s.port[p].st = .active || s.port[p].st = .recover then s.modPort p fun x => { x with wait := x.wait ++ [f] }
  else s.addSat (fClDropcnt_TXDROP p) 1

/-- Whether a port's role is one of the current generation. -/
def State.carries (s : State) (p : Fin 4) : Bool := s.enum.valid && s.port[p].roleGen == some s.enum.gen

/-- Ports of a role in the current generation. -/
def State.withRole (s : State) (r : Role) : List (Fin 4) := ports.filter fun p => s.carries p && s.port[p].role == r

/-- Whether this device is the root (R444). -/
def State.isRoot (s : State) : Bool := s.on fClEnumctl_ROOT

/-- Whether an index is this device's own. -/
def State.ownIndex (s : State) (i : BitVec 12) : Bool := s.enum.ivalid && s.enum.index == i

/-- The DOWN port whose subtree holds an index, as REPORTs and ASSIGNs told. -/
def State.downFor (s : State) (i : BitVec 12) : Option (Fin 4) :=
  match s.enum.assigned.find? fun e => e.2 == i with
  | some e => (s.enum.below.find? fun b => b.2.1 == e.1).map (·.1)
  | none => none

/-- A unicast frame sent on its way; one that cannot go on, or only back to the port it came from, is dropped and counted at the
port it would have taken. -/
def State.routeUni (s : State) (from_ : Option (Fin 4)) (f : Frame) : State :=
  match s.downFor f.dst <|> s.enum.up with
  | none => s
  | some q =>
    if s.carries q && from_ != some q && !(f.dst == s.enum.index && !s.enum.ivalid) then s.offer q f
    else s.addSat (fClDropcnt_TXDROP q) 1

/-- The ports that a broadcast frame is forwarded on: none names this device's own frame. -/
def State.bcastPorts (s : State) (from_ : Option (Fin 4)) : List (Fin 4) :=
  match from_ with
  | none => s.withRole .up ++ s.withRole .down
  | some p =>
    if (s.withRole .up).contains p then s.withRole .down
    else if (s.withRole .down).contains p then
      s.withRole .up ++ if s.isRoot then (s.withRole .down).filter fun q => q != p else []
    else []

/-- A broadcast frame forwarded. -/
def State.forward (s : State) (from_ : Option (Fin 4)) (f : Frame) : State :=
  s.each (s.bcastPorts from_) fun q s => s.offer q f

/-- A received frame to forward as it came. -/
def fwd (h : Hdr) (urg : Bool) (load : Payload) : Frame := ⟨0, h.dst, h.src, h.bcast, urg, load⟩

/-- A received frame taken where it goes (R447): the device that DST names acts on it; a broadcast one is forwarded besides, any other
routed on where DST is not this device. -/
def State.received (s : State) (p : Fin 4) (hdr : Hdr) (urg : Bool) (load : Payload) (act : State → State) : State :=
  let own := s.ownIndex hdr.dst
  if hdr.bcast then (if own then act s else s).forward (some p) (fwd hdr urg load)
  else if own then act s
  else s.routeUni (some p) (fwd hdr urg load)

/-! ## Fail summaries (R163, R438, R439) -/

/-- A record of CL.SUMRX as 16 words. -/
def sumRecord (vec : DWord) (map : BitVec 256) (tag slices : Byte) (src : BitVec 12) (p : Fin 4) : List Word :=
  let bytes := vec.toNat + map.toNat * 2 ^ 64 + tag.toNat * 2 ^ 320 + slices.toNat * 2 ^ 328 + src.toNat * 2 ^ 384 +
    p.val * 2 ^ 400 + 2 ^ 415
  (List.range 16).map fun i => BitVec.ofNat 32 (bytes / 2 ^ (32 * i))

/-- A summary posted to the receive queue, or dropped where it is full. -/
def State.postSummary (s : State) (r : List Word) : State :=
  if s.sumrx.length < 16 then { s with sumrx := s.sumrx ++ [r] } else s.wr fClSumrxstat_DROP 1

/-- SUMMARY. -/
def execSummary (p : Fin 4) (hdr : Hdr) (vec : DWord) (map : BitVec 256) (tag slices : Byte) (s : State) :
    Host.Outcome State Fault Refusal :=
  .next <| s.onFrame p hdr .summary fun s =>
    let post := fun (s : State) => s.postSummary (sumRecord vec map tag slices hdr.src p)
    if !s.trusted p then post s else s.received p hdr false (.summary vec map tag slices) post

/-- A write of SUMRXPOP (R456). -/
def State.opSumrxpop (s : State) (v : Nat) : State := if bitOf v 0 then { s with sumrx := s.sumrx.tail } else s

/-- A summary put in every port enabled for summaries; one that still waits is replaced and counted. -/
def State.sendSummary (s : State) (load : Payload) : State :=
  s.each (ports.filter fun (p : Fin 4) => s.on (fClCtrl_SUMEN p)) fun p s =>
    let f := s.frame (BitVec.ofNat 12 (s.rd (fClSumdst_DST p))) false false load
    let s := if s.port[p].sum.isSome then s.addSat (fClSumdrop_COUNT p) 1 else s
    s.modPort p fun x => { x with sum := some f }

/-- The map of sites of a burst whose latch shows fail. -/
def State.failMap (s : State) (l : Fin 8) : Nat :=
  maskOf ((s.burstOf l).flatMap fun m => (List.range 32).filterMap fun j =>
    match s.sl[m].siteAt j with
    | some b => bif s.on ⟨aSlSitelat m, j, 1⟩ then some b.toNat else none
    | none => none)

/-- Whether a member's position is the lead's: segment, offset and vector number. -/
def State.inStep (s : State) (l m : Fin 8) : Bool :=
  let a := s.sl[l].seq
  let b := s.sl[m].seq
  a.seg == b.seg && a.off == b.off && a.vec == b.vec

/-- GSYNC (R162, R163): in a gang a member out of position raises ILLEGAL; with SUM = 1 a summary is posted. -/
def execGsync (n : Fin 8) (k : Fin 4) (word : DWord) (_inStep : Bool) (s : State) : Host.Outcome State Fault Refusal :=
  .next <| s.vecWord n k word (wordIs .gsync word) fun l v off s =>
    let g := s.burstOf l
    if g.any fun m => !s.inStep l m then s.vecExc l 3 3 off v word
    else if bitOf word.toNat 8 then
      s.sendSummary (.summary (BitVec.ofNat 64 v) (BitVec.ofNat 256 (s.failMap l)) (BitVec.ofNat 8 (wField word 0 8))
        (BitVec.ofNat 8 (maskOf (g.map (·.val)))))
    else s

/-! ## Enumeration (R444 to R446) -/

/-- Serial-number arithmetic: g is newer than h. -/
def newer (g h : Word) : Bool := decide (1 ≤ (g - h).toNat) && decide ((g - h).toNat ≤ 2 ^ 31 - 1)

/-- TRUSTED ports in ACTIVE. -/
def State.treePorts (s : State) : List (Fin 4) := ports.filter fun p => s.trusted p && s.port[p].st == .active

/-- The role of a port in the current generation. -/
def State.setRole (s : State) (p : Fin 4) (r : Role) : State :=
  let g := s.enum.gen
  s.modPort p fun x => { x with role := r, roleGen := some g }

/-- An ENUM frame offered to a neighbour. -/
def State.sendEnum (s : State) (p : Fin 4) (bcast : Bool) (load : Payload) : State := s.offer p (s.frame 0 bcast false load)

/-- A generation begins: no role, no port heard from. -/
def State.newGen (s : State) (g : Word) (up : Option (Fin 4)) (depth : Nat) (root : Bool) : State :=
  let again := s.enum.valid && !s.enum.isDone
  let s := if again then s.wr fClEnumstat_RESTART 1 else s
  let s := s.addSat fClEnumcnt_SEARCHES 1
  let s := s.modEnum fun e => { Enum.reset with
    gen := g, valid := true, ivalid := root, depth := depth, up := up, devices := e.devices }
  ports.foldl (fun s p => s.modPort p fun x => { x with role := .none }) s

/-- The lowest free index from 1. -/
def freeIndex (used : List (BitVec 12)) : Option (BitVec 12) :=
  ((List.range 4096).drop 1).findSome? fun i => if used.contains (BitVec.ofNat 12 i) then none else some (BitVec.ofNat 12 i)

/-- Indices given to reports in order of arrival; whether one was left without. -/
def giveIndices : List (DWord × BitVec 12) → List (DWord × BitVec 12) → Bool → List (DWord × BitVec 12) × Bool
  | [], given, ovf => (given, ovf)
  | (serial, hint) :: rest, given, ovf =>
    let used := given.map (·.2)
    if hint != 0 && !used.contains hint then giveIndices rest (given ++ [(serial, hint)]) ovf
    else match freeIndex used with
      | some i => giveIndices rest (given ++ [(serial, i)]) ovf
      | none => giveIndices rest given true

/-- The root's search is complete: ASSIGN for each device, then DONE. -/
def State.assignAll (s : State) : State :=
  let e := s.enum
  let r := giveIndices (e.below.map fun b => (b.2.1, b.2.2)) [(Config.serial, 0)] e.ovf
  let s := if r.2 then s.wr fClEnumstat_OVERFLOW 1 else s
  let s := s.modEnum fun e => { e with assigned := r.1, isDone := true, finSent := true, devices := r.1.length }
  let s := s.each (r.1.drop 1) fun a s => s.each (s.withRole .down) fun q s => s.sendEnum q true (.assign e.gen a.1 a.2)
  s.each (s.withRole .down) fun q s => s.sendEnum q true (.done e.gen)

/-- The subtree is complete once no port owes an answer or a FIN: reported up, or indexed at the root. -/
def State.enumCheck (s : State) : State :=
  let e := s.enum
  if e.valid && e.pend.isEmpty && e.fin.isEmpty && !e.finSent then
    if s.isRoot then s.assignAll
    else match e.up with
      | none => s
      | some u =>
        let s := s.modEnum fun e => { e with finSent := true }
        let s := s.sendEnum u false (.report e.gen Config.serial (BitVec.ofNat 12 (s.rd fClEnumctl_HINT)))
        s.sendEnum u false (.fin e.gen (e.count + 1) e.ovf)
  else s

/-- DISCOVER sent on ports, which then owe an answer. -/
def State.fanOut (s : State) (qs : List (Fin 4)) : State :=
  let e := s.enum
  let s := s.each qs fun q s => s.sendEnum q false (.discover e.gen e.depth)
  (s.modEnum fun e => { e with pend := qs }).enumCheck

/-- The root starts the next generation. -/
def State.search (s : State) : State := (s.newGen (s.enum.gen + 1) none 0 true).fanOut s.treePorts

/-- A write of ENUMCTL (R454). -/
def State.opEnumctl (s : State) (ini : Initiator) (v : DWord) : State :=
  let s := s.writeReg ini .clEnumctl [] .lo v
  if bitOf v.toNat 30 && s.isRoot then s.search else s

/-- Whether a frame of a generation is older than the device's own. -/
def State.stale (s : State) (g : Word) : Bool := s.enum.valid && newer s.enum.gen g

/-- Whether a frame is of the current generation. -/
def State.current (s : State) (g : Word) : Bool := s.enum.valid && s.enum.gen == g

/-- DISCOVER (R445): a root answers one of any generation, as each of two joined roots does. -/
def execDiscover (p : Fin 4) (hdr : Hdr) (gen : Word) (depth : Nat) (partnerRoot : Bool) (s : State) :
    Host.Outcome State Fault Refusal :=
  .next <| s.onFrame p hdr .enum fun s =>
    if s.isRoot then
      let s := if partnerRoot then s.wr fClEnumstat_CONFLICT 1 else s
      s.sendEnum p false (.alt gen)
    else if s.stale gen then s
    else if s.enum.valid && !newer gen s.enum.gen then s.sendEnum p false (.alt gen)
    else
      let s := (s.newGen gen (some p) (min (depth + 1) 63) false).setRole p .up
      let s := s.sendEnum p false (.join gen)
      if s.enum.depth < 63 then s.fanOut (s.treePorts.filter fun q => q != p)
      else (s.modEnum fun e => { e with ovf := true }).enumCheck

/-- JOIN (R445). -/
def execJoin (p : Fin 4) (hdr : Hdr) (gen : Word) (s : State) : Host.Outcome State Fault Refusal :=
  .next <| s.onFrame p hdr .enum fun s =>
    if s.current gen then
      let owes := s.enum.pend.contains p
      ((s.setRole p .down).modEnum fun e =>
        { e with pend := e.pend.filter (· != p), fin := if owes then e.fin ++ [p] else e.fin }).enumCheck
    else s

/-- ALT (R445). -/
def execAlt (p : Fin 4) (hdr : Hdr) (gen : Word) (s : State) : Host.Outcome State Fault Refusal :=
  .next <| s.onFrame p hdr .enum fun s =>
    if s.current gen then
      ((s.setRole p .alt).modEnum fun e => { e with pend := e.pend.filter (· != p) }).enumCheck
    else s

/-- REPORT (R445): noted with its port, and forwarded towards the root. -/
def execReport (p : Fin 4) (hdr : Hdr) (gen : Word) (serial : DWord) (hint : BitVec 12) (s : State) :
    Host.Outcome State Fault Refusal :=
  .next <| s.onFrame p hdr .enum fun s =>
    if s.current gen && (s.withRole .down).contains p then
      let s := s.modEnum fun e => { e with below := e.below ++ [(p, serial, hint)] }
      match s.enum.up with
      | some u => if s.isRoot then s else s.offer u (fwd hdr false (.report gen serial hint))
      | none => s
    else s

/-- FIN (R445). -/
def execFin (p : Fin 4) (hdr : Hdr) (gen : Word) (count : Nat) (overflow : Bool) (s : State) :
    Host.Outcome State Fault Refusal :=
  .next <| s.onFrame p hdr .enum fun s =>
    if s.current gen && s.enum.fin.contains p then
      (s.modEnum fun e =>
        { e with fin := e.fin.filter (· != p), count := e.count + count, ovf := e.ovf || overflow }).enumCheck
    else s

/-- ASSIGN (R445): taken from the UP port and passed down the tree. -/
def execAssign (p : Fin 4) (hdr : Hdr) (gen : Word) (serial : DWord) (index : BitVec 12) (s : State) :
    Host.Outcome State Fault Refusal :=
  .next <| s.onFrame p hdr .enum fun s =>
    if s.current gen && s.enum.up == some p then
      let s := s.modEnum fun e => { e with
        assigned := e.assigned ++ [(serial, index)]
        index := if serial = Config.serial then index else e.index
        ivalid := e.ivalid || serial == Config.serial }
      s.each (s.withRole .down) fun q s => s.offer q (fwd hdr false (.assign gen serial index))
    else s

/-- DONE (R445). -/
def execDoneEnum (p : Fin 4) (hdr : Hdr) (gen : Word) (s : State) : Host.Outcome State Fault Refusal :=
  .next <| s.onFrame p hdr .enum fun s =>
    if s.current gen && s.enum.up == some p then
      let s := s.modEnum fun e => { e with isDone := true }
      s.each (s.withRole .down) fun q s => s.offer q (fwd hdr false (.done gen))
    else s

/-- CHANGE (R446): passed up; at the root one of the current generation starts the next. -/
def execChange (p : Fin 4) (hdr : Hdr) (gen : Word) (s : State) : Host.Outcome State Fault Refusal :=
  .next <| s.onFrame p hdr .enum fun s =>
    if s.stale gen then s
    else if s.isRoot then (if s.current gen then s.search else s)
    else match s.enum.up with
      | some u => s.offer u (fwd hdr false (.change gen))
      | none => s

/-- ADOPT (R446). -/
def execAdopt (p : Fin 4) (hdr : Hdr) (gen : Word) (s : State) : Host.Outcome State Fault Refusal :=
  .next <| s.onFrame p hdr .enum fun s => if s.current gen then s.setRole p .down else s

/-- The UP port is lost: the lowest ACTIVE ALT port takes over with ADOPT and CHANGE, else the device leaves the tree. -/
def State.replaceUp (s : State) (p : Fin 4) : State :=
  let g := s.enum.gen
  let s := s.setRole p .none
  match (s.withRole .alt).find? fun q => s.port[q].st == .active with
  | some q =>
    let s := (s.setRole q .up).modEnum fun e => { e with up := some q }
    (s.sendEnum q false (.adopt g)).sendEnum q false (.change g)
  | none => s.modEnum fun e => { e with valid := false, ivalid := false, up := none }

/-- ENUM_PORT_CHANGE (R446): a port entered or left ACTIVE since its change was last announced. -/
def execEnumPortChange (p : Fin 4) (s : State) : Host.Outcome State Fault Refusal :=
  .next <|
    let now := s.port[p].st == .active
    if s.port[p].wasActive == now then s
    else
      let s := s.modPort p fun x => { x with wasActive := now }
      if !s.trusted p then s
      else if s.isRoot then s.search
      else if !s.enum.valid then s
      else if s.enum.up == some p && !now then s.replaceUp p
      else match s.enum.up with
        | some u => s.sendEnum u false (.change s.enum.gen)
        | none => s

end Sys2Proof.Machine
end

