-- ==== Sys2Proof/Machine/Time.lean ====
section
/-! DEFINITION. Array time, triggers and the PTP clock (spec/13). -/

namespace Sys2Proof.Machine

open Sys2Proof

/-! ## Link delay (R459 to R461), in taps -/

/-- RTT of a port as a number of taps. -/
def State.rtt (s : State) (p : Fin 4) : Int := signed (s.rd (fTmLinkRtt_RTT p)) 32

/-- DELAY = (RTT - ASYM) / 2, rounded to the nearest tap, one half up (R460). -/
def State.linkDelay (s : State) (p : Fin 4) : Int := (s.rtt p - signed (s.rd (fTmLinkAsym_ASYM p)) 16 + 1) / 2

/-- A TIME frame of this device. -/
def State.timeFrame (s : State) (load : Payload) : Frame := s.frame 0 false true load

/-- DELAY_EXCHANGE_TIMER: a DREQ leaves at once. In MEASURE 16 exchanges are started, each of which may wait for its answer; in
ACTIVE one that found none is skipped. -/
def execDelayExchangeTimer (p : Fin 4) (departure : Nat) (s : State) : Host.Outcome State Fault Refusal :=
  .next <|
    let x := s.port[p]
    if x.st.exchanges && x.mayTransmit && !s.roleStale p && !(x.st == .measure && decide (16 ≤ x.exchCount)) then
      let num := x.exchNum + 1
      (s.modPort p fun x => { x with
        exchNum := num, exchCount := x.exchCount + 1
        exch := (if x.st = .measure then x.exch else []) ++ [(num, s.departed p departure)] }).transmitAt p (s.timeFrame (.dreq num)) departure
    else s

/-- DREQ: answered with DRESP, which carries the turn-around. -/
def execDreq (p : Fin 4) (hdr : Hdr) (num : Byte) (arrival departure : Nat) (s : State) : Host.Outcome State Fault Refusal :=
  .next <| s.onFrame p hdr .time fun s =>
    if s.port[p].mayTransmit then s.transmitAt p (s.timeFrame (.dresp num (s.arrived p arrival) 0)) departure else s

/-- The 16 exchanges of MEASURE judged. -/
def State.judgeMeasure (s : State) (p : Fin 4) : State :=
  let l := s.port[p].rtts
  let hi := l.foldl max (l.headD 0)
  let lo := l.foldl min (l.headD 0)
  let sum := l.foldl (· + ·) 0
  let mean := (2 * sum + 16) / 32
  if 40 < hi - lo || 16 * 6553600 < sum then s.failAttempt p 0xA
  else ((s.wr (fTmLinkRtt_RTT p) (unsignedOf mean 32)).modPort p fun x => { x with rtts := [], exch := [] }).linkActive p

/-- DRESP: an exchange completes; in MEASURE the sixteenth ends the measurement, in ACTIVE RTT moves by one sixteenth. -/
def execDresp (p : Fin 4) (hdr : Hdr) (num : Byte) (turn arrival : Nat) (s : State) : Host.Outcome State Fault Refusal :=
  .next <| s.onFrame p hdr .time fun s =>
    match s.port[p].exch.find? fun e => e.1 == num with
    | none => s
    | some e =>
      let rtt := s.arrived p arrival - e.2 - (turn : Int)
      let s := s.modPort p fun x => { x with exch := x.exch.filter fun y => y.1 != num }
      if s.port[p].st = .measure then
        let s := s.modPort p fun x => { x with rtts := x.rtts ++ [rtt] }
        if s.port[p].rtts.length < 16 then s else s.judgeMeasure p
      else s.wr (fTmLinkRtt_RTT p) (unsignedOf (s.rtt p + (2 * (rtt - s.rtt p) + 16) / 32) 32)

/-- MEASURE_EXCHANGE_TIMEOUT. -/
def execMeasureExchangeTimeout (p : Fin 4) (s : State) : Host.Outcome State Fault Refusal :=
  .next <| if s.port[p].st = .measure && !s.port[p].exch.isEmpty then s.failAttempt p 0xA else s

/-! ## Triggers (R468 to R471) -/

/-- The report that a trigger was refused as late, to its issuer. -/
def State.sendLate (s : State) (num : Byte) (tm : DWord) (src : BitVec 12) (via : Option (Fin 4)) : State :=
  let behind : Int := ((s.time.tick.toNat : Int) - (tm.toNat : Int)) * 5 / 64
  let f := s.frame src false true (.late num s.enum.index behind)
  match via with
  | some p => s.offer p f
  | none =>
    if s.ownIndex src then s.wrs [(fTmTrigrep_REP, 1), (fTmTrigrep_FROM, s.enum.index.toNat), (fTmTrigrep_NUM, num.toNat)]
    else s.routeUni none f

/-- A trigger refused for lateness (R470). -/
def State.lateTrig (s : State) (num : Byte) (tm : DWord) (src : BitVec 12) (via : Option (Fin 4)) : State :=
  ((s.addSat fTmTrigstat_LATE 1).reportUnit .trigLate 0).sendLate num tm src via

/-- A number put into a rising list. -/
def insertUp (v : Nat) : List Nat → List Nat
  | [] => [v]
  | a :: l => if v ≤ a then v :: a :: l else a :: insertUp v l

/-- A trigger that arrives now: accepted into the pending table and at every slice ARMED for it, or refused. Of several with the
slice's number that arrive while it is ARMED, the one with the earliest action time is the first (assumption 44). -/
def State.acceptTrig (s : State) (num : Byte) (tm : DWord) (src : BitVec 12) (via : Option (Fin 4)) : State :=
  if tm.toNat < s.time.tick.toNat + 1280 then s.lateTrig num tm src via
  else if 16 ≤ s.time.pend.length then s.wr fTmTrigrep_FULL 1
  else
    let s := s.modTime fun t => { t with pend := t.pend ++ [⟨num, tm, src, via⟩] }
    s.each slices fun n s =>
      let x := s.sl[n]
      if x.st = .armed && x.lead = n && (s.burstOf n).all (fun m => s.sl[m].st == .armed) &&
          s.rd (fSlBurst_MODE x.recv) == 2 && s.rd (fSlBurst_TRIG x.recv) == num.toNat then
        (s.modSl n fun x => { x with trigArmed := insertUp tm.toNat x.trigArmed }).openInput n
      else s

/-- TRIG: on a TRUSTED port routed, on a PEER port acted on locally and never forwarded. -/
def execTrig (p : Fin 4) (hdr : Hdr) (num : Byte) (tm : DWord) (s : State) : Host.Outcome State Fault Refusal :=
  .next <| s.onFrame p hdr .trig fun s =>
    if !s.trusted p then s.acceptTrig num tm hdr.src (some p)
    else if hdr.bcast then (s.acceptTrig num tm hdr.src none).forward (some p) (fwd hdr true (.trig num tm))
    else if s.ownIndex hdr.dst then s.acceptTrig num tm hdr.src none
    else s.routeUni (some p) (fwd hdr true (.trig num tm))

/-- A write of TRIGCMD (R469): SEND refuses a lead that is too short; the issuer takes a trigger for its own INDEX itself,
whether IVALID or not. -/
def State.opTrigcmd (s : State) (ini : Initiator) (v : DWord) : State :=
  let s := s.writeReg ini .tmTrigcmd [] .lo v
  if !bitOf v.toNat 31 then s
  else
    let tm := BitVec.ofNat 64 (s.rd fTmTrigat_TICK)
    let num := BitVec.ofNat 8 (s.rd fTmTrigcmd_NUM)
    let dst := BitVec.ofNat 12 (s.rd fTmTrigcmd_DST)
    if tm.toNat < s.time.tick.toNat + s.rd fTmTrigctl_HOPS * 768 + 2560 then s.wr fTmTrigcmd_REFUSED 1
    else if s.on fTmTrigcmd_BCAST then
      (s.acceptTrig num tm s.enum.index none).forward none (s.frame dst true true (.trig num tm))
    else if s.enum.index == dst then s.acceptTrig num tm s.enum.index none
    else s.routeUni none (s.frame dst false true (.trig num tm))

/-- LATE: on a PEER port it is no delay measurement and has no use. -/
def execLate (p : Fin 4) (hdr : Hdr) (num : Byte) (index : BitVec 12) (behind : Int) (s : State) :
    Host.Outcome State Fault Refusal :=
  .next <| s.onFrame p hdr .time fun s =>
    if !s.trusted p then s
    else s.received p hdr true (.late num index behind) fun s =>
      s.wrs [(fTmTrigrep_REP, 1), (fTmTrigrep_FROM, index.toNat), (fTmTrigrep_NUM, num.toNat)]

/-- A slice that a trigger starts at its action time (R66, R471). -/
def State.trigStart (s : State) (n : Fin 8) (tm : Nat) : State :=
  let x := s.sl[n]
  if x.st = .armed && x.lead = n && x.trigArmed.contains tm && (s.burstOf n).all (fun m => s.sl[m].st == .armed) then
    (s.modSl n fun x => { x with trigArmed := [tm] }).startBurst n
  else s

/-- TRIGGER_ACTION: the pending triggers with the earliest action time act together; an abort wins over a start. -/
def execTriggerAction (s : State) : Host.Outcome State Fault Refusal :=
  .next <| match s.time.pend with
    | [] => s
    | e :: r =>
      let tm := r.foldl (fun t x => min t x.tm.toNat) e.tm.toNat
      let act := s.time.pend.filter fun x => x.tm.toNat == tm
      let s := s.modTime fun t => { t with pend := t.pend.filter fun x => x.tm.toNat != tm }
      let s := act.foldl (fun s x =>
        let s := (s.each slices fun n s =>
          if s.sl[n].accepted then s.modSeq n fun q => { q with clEvents := q.clEvents ++ [(x.num.toNat, tm)] } else s)
        let s := (slices.filter fun (n : Fin 8) => bitOf (s.rd (fTmTrigact_ABORT x.num.toNat)) n).foldl (fun s n => s.opAbort n true) s
        s.addSat fTmTrigstat_ACCEPTED 1) s
      s.each slices fun n s => s.trigStart n tm

/-! ## Following the master (R462 to R467) -/

/-- Whether master a ranks above master b: higher PRIO, then lower serial number. -/
def outranks (a b : Byte × DWord) : Bool := decide (b.1 < a.1) || (a.1 == b.1 && decide (a.2 < b.2))

/-- This device as a master. -/
def State.asMaster (s : State) : Byte × DWord := (BitVec.ofNat 8 (s.rd fTmCtrl_PRIO), Config.serial)

/-- Whether a port may be a time source (R463). -/
def State.maySource (s : State) (p : Fin 4) : Bool :=
  s.port[p].st == .active && (s.trusted p || bitOf (s.rd fTmCtrl_PEERSRC) p)

/-- Whether what port a heard is better than what port b heard: master, then hops. -/
def Heard.better (a b : Heard) : Bool :=
  outranks (a.prio, a.serial) (b.prio, b.serial) ||
    (a.prio == b.prio && a.serial == b.serial && decide (a.hops < b.hops))

/-- The silence after which a port offers no master: 50 µs. -/
def silence : Nat := 640000

/-- What a port offers now: what it last heard, where it may be a source and heard it in the last 50 µs (R463, R466). -/
def State.offers (s : State) (p : Fin 4) : Option Heard :=
  s.time.heard[p].filter fun h => s.maySource p && decide (s.clock < h.clock + silence)

/-- The best port heard, the lowest among equals. -/
def State.bestSource (s : State) : Option (Fin 4 × Heard) :=
  ports.foldl (fun best p =>
    match s.offers p, best with
    | none, _ => best
    | some h, some (_, b) => if h.better b then some (p, h) else best
    | some h, none => some (p, h)) none

/-- A source chosen; the master it brings replaces the last one, with MLOST where it is another. -/
def State.takeSource (s : State) (p : Fin 4) (h : Heard) : State :=
  let other := match s.time.master with | some m => m != (h.prio, h.serial) | none => false
  let s := if other then s.wr fTmStat_MLOST 1 else s
  s.modTime fun t => { t with
    role := .follower, src := p, srcValid := true, master := some (h.prio, h.serial), hops := min (h.hops + 1) 63 }

/-- What the source in use last heard, in the 50 µs after it, whatever its port's state has become since (R463). -/
def State.sourceHeard (s : State) : Option Heard :=
  s.time.heard[s.time.src].filter fun h => s.time.srcValid && decide (s.clock < h.clock + silence)

/-- The source after a SYNC: the one in use stays unless another is strictly better. -/
def State.chooseSource (s : State) : State :=
  match s.bestSource with
  | none => s
  | some (p, h) =>
    match s.sourceHeard with
    | some c => if h.better c then s.takeSource p h else s.takeSource s.time.src c
    | none => s.takeSource p h

/-- Whether nothing keeps TICK from a step: every slice IDLE and no SCAN unit enabled. -/
def State.mayStep (s : State) : Bool := (slices.all fun n => s.sl[n].isIdle) && scans.all fun u => !s.scan[u].enabled

/-- TICK stepped; pending triggers whose action time it passes are refused as late. -/
def State.stepTick (s : State) (back : Int) : State :=
  let whole := (back + 128) / 256
  let s := s.modTime fun t => { t with tick := t.tick - BitVec.ofInt 64 whole, slew := back - 256 * whole, diverged := false }
  let now := s.time.tick
  let late := s.time.pend.filter fun x => decide (x.tm < now)
  let s := s.modTime fun t => { t with pend := t.pend.filter fun x => !decide (x.tm < now) }
  late.foldl (fun s x => s.lateTrig x.num x.tm x.src x.via) s

/-- 1 µs in taps. -/
def usTaps : Int := 3276800

/-- The correction for an offset in taps (R464): beyond 1 µs on a busy device the time is kept, and a slew in progress ends. -/
def State.correct (s : State) (off : Int) : State :=
  let s := s.modTime fun t => { t with offsets := (off :: t.offsets).take 16 }
  if s.mayStep then s.stepTick off
  else if -usTaps ≤ off && off ≤ usTaps then s.modTime fun t => { t with slew := off, diverged := false }
  else s.modTime fun t => { t with slew := 0, diverged := true }

/-- A SYNC offered to every other ACTIVE port. -/
def State.sendSync (s : State) (not_ : Option (Fin 4)) (load : Payload) : State :=
  s.each (ports.filter fun (q : Fin 4) => some q != not_ && s.port[q].st == .active) fun q s => s.offer q (s.timeFrame load)

/-- A SYNC from the source forwarded where its SSEQ is new (R463). -/
def State.forwardSync (s : State) (p : Fin 4) (prio : Byte) (hops : Nat) (sseq : Word) (serial : DWord) : State :=
  let fresh := match s.time.fwd with | some k => newer sseq k | none => true
  if fresh && hops != 63 then
    (s.modTime fun t => { t with fwd := some sseq }).sendSync (some p) (.sync prio s.time.hops sseq serial 0 0)
  else s

/-- SYNC. -/
def execSync (p : Fin 4) (hdr : Hdr) (prio : Byte) (hops : Nat) (sseq : Word) (tick : DWord) (tap : Byte) (serial : DWord)
    (arrival : Nat) (s : State) : Host.Outcome State Fault Refusal :=
  .next <| s.onFrame p hdr .time fun s =>
    if !s.on fTmCtrl_EN || !s.maySource p || serial == Config.serial then s
    else
      let h : Heard := ⟨prio, serial, hops, sseq, s.clock⟩
      let s := s.modTime fun t => { t with heard := t.heard.set p (some h) }
      if s.time.role = .master && !outranks (prio, serial) s.asMaster then s
      else
        let s := if s.time.role = .master then s.takeSource p h else s.chooseSource
        if s.time.src != p then s
        else
          let off := s.arrived p arrival - ((tick.toNat * 256 + tap.toNat : Nat) + s.linkDelay p)
          (s.correct off).forwardSync p prio hops sseq serial

/-- SYNC_TIMER: the master's SYNC on every ACTIVE port, with its own SYNC count. -/
def execSyncTimer (s : State) : Host.Outcome State Fault Refusal :=
  .next <|
    if s.time.role = .master && s.on fTmCtrl_EN && s.isReady .time then
      let k := s.time.sseq.getD 0 + 1
      let m := s.asMaster
      (s.modTime fun t => { t with sseq := some k }).sendSync none (.sync m.1 0 k m.2 0 0)
    else s

/-- SOURCE_TIMEOUT: another port that offers a master, or holdover, in which TICK runs on the device's own root and nothing slews it
(R463, R466). -/
def execSourceTimeout (s : State) : Host.Outcome State Fault Refusal :=
  .next <|
    if s.time.role = .follower && s.time.srcValid then
      let s := s.modTime fun t => { t with heard := t.heard.set t.src none, srcValid := false }
      match s.bestSource with
      | some (p, h) => s.takeSource p h
      | none => (s.wr fTmStat_MLOST 1).modTime fun t => { t with role := .holdover, slew := 0 }
    else s

/-- MASTER_TAKEOVER (R467): the SSEQ series starts after the last one forwarded; a master that this device replaces is lost or
changed (R477). -/
def execMasterTakeover (s : State) : Host.Outcome State Fault Refusal :=
  .next <|
    if s.time.role != .master && s.on fTmCtrl_EN && s.on fTmCtrl_PRIO && s.isReady .time then
      let m := s.asMaster
      let other := match s.time.master with | some k => k != m | none => false
      let s := if other then s.wr fTmStat_MLOST 1 else s
      (s.wr fTmStat_TAKEOVER 1).modTime fun t => { t with
        role := .master, srcValid := false, hops := 0, master := some m, sseq := t.fwd, diverged := false, slew := 0
        heard := Vector.replicate 4 none }
    else s

/-- TIME.OFFSET: the mean of the last 16 offsets, saturating. -/
def Time.meanOffset (t : Time) : Int :=
  if t.offsets = [] then 0
  else max (-(2 ^ 31)) (min (2 ^ 31 - 1) ((t.offsets.foldl (· + ·) 0) / (t.offsets.length : Int)))

/-- 2 ps in whole taps: six are 1.83 ps, seven 2.14 ps. -/
def alignedTaps : Int := 6

/-- Whether the device is aligned: TIME.OFFSET within 2 ps and a valid source (R464). -/
def Time.aligned (t : Time) : Bool :=
  t.srcValid && t.offsets != [] && decide (-alignedTaps ≤ t.meanOffset) && decide (t.meanOffset ≤ alignedTaps)

/-! ## The PHC (R458, R472 to R476) -/

/-- One nanosecond in the PHC's fraction units of 2^-48 ns. -/
def nsUnit : Int := 2 ^ 48

/-- One second. -/
def secUnit : Int := 1000000000 * 2 ^ 48

/-- The PHC as one number. -/
def Time.phc (t : Time) : Int := (t.phcSec.toNat : Int) * secUnit + (t.phcNs : Int) * nsUnit + (t.phcFrac : Int)

/-- The PHC set to a number. -/
def Time.setPhc (t : Time) (v : Int) : Time :=
  { t with phcSec := BitVec.ofInt 64 (v / secUnit), phcNs := (v % secUnit / nsUnit).toNat, phcFrac := (v % nsUnit).toNat }

/-- The PHC as a time with 16 fraction bits. -/
def Time.phcTime (t : Time) : PhcTime := ⟨t.phcSec, t.phcNs, t.phcFrac / 2 ^ 32⟩

/-- A write of SNAPCMD (R458). -/
def State.opSnap (s : State) (v : Nat) : State :=
  if bitOf v 0 then
    let t := s.time
    s.wrs [(fTmSnaptick_VALUE, t.tick.toNat), (fTmSnapsec_VALUE, t.phcSec.toNat), (fTmSnapns_NS, t.phcNs),
      (fTmSnapfrac_FRAC, t.phcFrac / 2 ^ 32)]
  else s

/-- A write of PHCCMD (R481). -/
def State.opPhccmd (s : State) (v : Nat) : State :=
  if bitOf v 0 then s.modTime fun t => { t with setPending := true } else s

/-- The limit of the servo's clamp. -/
def clampMax : Int := 140737488355

/-- A value clamped, and whether the clamp acted. -/
def clamp (x : Int) : Int × Bool :=
  if x < -clampMax then (-clampMax, true) else if clampMax < x then (clampMax, true) else (x, false)

/-- One servo update (R475). -/
def State.servo (s : State) (off : Int) : State :=
  if (s.rd fTmSrvctl_STEPTHR * 1000 * 65536 : Nat) ≤ off.natAbs then
    (s.addSat fTmSrvcnt_STEPS 1).modTime fun t => t.setPhc (t.phc - off * 2 ^ 32)
  else
    let i := clamp (s.time.servoI + off * (s.rd fTmSrvki_KI : Int) / 65536)
    let a := clamp (-(off * (s.rd fTmSrvkp_KP : Int) / 65536 + i.1))
    (s.addSat fTmSrvcnt_CLAMPS (b2n i.2 + b2n a.2)).modTime fun t => { t with servoI := i.1, adj := a.1 }

/-- A write of SRVOFF: a low word is stored; the high word or a 64-bit write runs the update while EN = 1 (R482)
in a servo that the fuses name (spec/00 R33). -/
def State.opSrvoff (s : State) (p : Part) (v : DWord) : State :=
  match p with
  | .lo => s.setReg aTmSrvoff (v.setWidth 32)
  | _ =>
    let s := if p = .all then s.setReg aTmSrvoff (v.setWidth 32) else s
    let off := if p = .all then v else (v &&& 0xFFFFFFFF00000000) ||| (s.reg aTmSrvoff).setWidth 64
    if s.hasCap 11 && s.on fTmSrvctl_EN then s.servo off.toInt else s

/-- A write of SRVCTL: RESETI sets i and ADJ to 0. -/
def State.opSrvctl (s : State) (ini : Initiator) (v : DWord) : State :=
  let s := s.writeReg ini .tmSrvctl [] .lo v
  if bitOf v.toNat 30 then s.modTime fun t => { t with servoI := 0, adj := 0 } else s

/-- A write of TXTSPOP (R484). -/
def State.opTxtspop (s : State) (v : Nat) : State :=
  if bitOf v 0 then s.modTime fun t => { t with txts := t.txts.tail } else s

/-- A transmit stamp queued, or dropped where the queue is full (R476). -/
def State.pushStamp (s : State) (x : TxStamp) : State :=
  if s.time.txts.length < 16 then s.modTime fun t => { t with txts := t.txts ++ [x] }
  else (s.wr fTmTxtsstat_OVF 1).addSat fTmTxtsovf_COUNT 1

/-! ## Time passing: one TROOT period (assumption 2) -/

/-- The PHC's step every 10 ns: a time that waits is loaded, else it advances at its rate (R473). -/
def State.phcStep (s : State) : State :=
  if s.time.setPending then
    let sec := BitVec.ofNat 64 (s.rd fTmSetsec_VALUE)
    let ns := s.rd fTmSetns_NS
    s.modTime fun t => { t with phcSec := sec, phcNs := ns, phcFrac := 0, setPending := false }
  else s.modTime fun t => t.setPhc (t.phc + 10 * nsUnit + 10 * t.adj)

/-- The slew of the TROOT phase: one tap each 3,907 periods, which is less than 1 ps per µs (R464). -/
def Time.slewStep (t : Time) : Time :=
  if t.slew = 0 then t
  else
    let d : Int := if 0 < t.slew then 1 else -1
    let ph := t.phase + d
    let t := { t with slew := t.slew - d }
    if ph = 256 then { t with phase := 0, tick := t.tick - 1 }
    else if ph = -256 then { t with phase := 0, tick := t.tick + 1 }
    else { t with phase := ph }

/-- The counters of a site core in one FAB cycle (spec/11 R414). -/
def State.coreCount (s : State) (c : Fin 8) : State :=
  if s.cores[c].hold.isSome then s.wr (fDpCoreBusy_VALUE c) (s.rd (fDpCoreBusy_VALUE c) + 1)
  else if s.cores[c].waiting.isSome then s.wr (fDpCoreIdle_VALUE c) (s.rd (fDpCoreIdle_VALUE c) + 1)
  else s

/-- One TROOT period passes. Every unit here runs by a clock that derives from TROOT, and stands while it is lost (spec/01 R41, R56). -/
def State.tickOne (s : State) : State :=
  let s := { s with clock := s.clock + 1 }
  if !s.isReady .troot then s
  else
  let s := (if s.isReady .time then s.modTime fun t => { t with tick := t.tick + 1 } else s).tickMtip
  let s := if s.isReady .time && s.clock % 128 == 0 then s.phcStep else s
  let s := if s.clock % 3907 = 0 then s.modTime Time.slewStep else s
  let s := if s.clock % 16 = 0 then s.each coreList fun c s => s.coreCount c else s
  let s := (s.each scans fun u s => s.markLead u).modDrc fun d => { d with lfsr := Config.lfsrNext d.lfsr }
  s.drcCycle

end Sys2Proof.Machine
end

