-- ==== Sys2Proof/Machine/Reset.lean ====
section
/-! DEFINITION. Resets: of a slice, of the management controller, of the module; the root clock; boot (spec/01 R44 to R57,
spec/17 R575 to R577, R585 to R587). -/

namespace Sys2Proof.Machine

open Sys2Proof

/-! ## Slice reset (R575, R577) -/

/-- The registers of a slice that its reset returns to their reset values: the burst, the loop counters and SEQSTAT, ADC
and TDC control, the hand-over count. The count of a stopped sum stays (spec/07 R265). ADMIT.REJECTED and PREFILL.BOUND stay
beside what spec/02 R85 names: they report on the past as those do (assumption 44). -/
def sliceResetAddr (n : Fin 8) (a : Nat) : Bool :=
  [aSlBurst n, aSlDdist n, aSlTstart n, aSlTstart n + 4, aSlBcmd n, aSlSeqstat n, aSlHandover n, aSlAdcctl n, aSlAdccmd n,
    aSlAdcdly n, aSlAdctmr n, aSlAdcsumn n + 4, aSlTdccfg n, aSlTdccmd n, aSlTdcto n].contains a ||
    inSpan (aSlLc n 0) 0x20 a || inSpan (aSlAdcseq n 0) 0x40 a

/-- A slice reset: its burst, and its gang's, ends with RESET and the pins safe; an admission is rejected with ABORTED; the
sequencer, the queues, the Bobbin and the control registers of ADC and TDC are reset, waiting seals and staged records
are discarded, both synthesizers recover. Segment tables, waveform tables, site map, gang, fail counters, result queues and
the captured exception stay. -/
def State.sliceReset (s : State) (n : Fin 8) : State :=
  let s := ((s.finishSafe n .reset .aborted).dropStage n).resetRegs (sliceResetAddr n)
  (s.modSl n fun x => { x.resetLoads with
    seq := Seq.reset, window := [], played := [], units := [], fails := [], inflight := [], lvlq := [], pmuq := [], mkq0 := [], mkq1 := []
    fifo := 0, ahead := Ahead.reset, synth := x.synth.recover }).setReady (.sl n) false

/-! ## Resets of the module (R575 to R577, R596) -/

/-- Resets of the whole module. -/
inductive ModuleReset where
  | warm | perst | fullReset | powerOn (vaon : Bool)
deriving DecidableEq, Repr

/-- Fields held in the AON domain (spec/00 R19). -/
def aonAddr (a : Nat) : Bool := a == aRstcause || a == aIlk || a == aIlkcfg

/-- Registers that survive a warm reset besides: DRC.TRN, the rowhammer settings, the ECC records (spec/10 R384). -/
def drcKept (a : Nat) : Bool :=
  a == aDrcRhcfg || inSpan (aDrcTrn 0 0 0) 0x2000 a || inSpan (aDrcEcccnt 0) 0x10 a || inSpan (aDrcEccaddr 0) 0x10 a

/-- Whether a reset keeps a register. -/
def ModuleReset.keeps (k : ModuleReset) (a : Nat) : Bool :=
  match k with
  | .warm => aonAddr a || drcKept a
  | .perst | .fullReset | .powerOn false => aonAddr a
  | .powerOn true => false

/-- The bit of RSTCAUSE that a reset sets; a rise of VAON leaves the register at its reset value. -/
def ModuleReset.cause : ModuleReset → Option Fld
  | .warm => some fRstcause_WARM | .perst => some fRstcause_PERST | .fullReset => some fRstcause_FULLRST
  | .powerOn false => some fRstcause_PWRGOOD | .powerOn true => none

/-- Whether a reset is a power-on reset, and whether VAON rose with it. -/
def ModuleReset.power : ModuleReset → Bool
  | .powerOn _ => true | _ => false
def ModuleReset.vaon : ModuleReset → Bool
  | .powerOn v => v | _ => false

/-- The power unit after a reset: AON keeps its oscillator, the interlock and SAFE_PINS; the monitors of the references run
on; only a power-on reset leaves OFF (R584). -/
def ModuleReset.powerOf (k : ModuleReset) (p : Power) : Power :=
  if k.vaon then Power.reset
  else { Power.reset with
    on := p.on || k.power, vaon := p.vaon, rails := p.rails && !k.power, refOk := p.refOk, xoOk := p.xoOk, backupOsc := p.backupOsc, sbSafe := p.sbSafe
    ilkA := p.ilkA, ilkB := p.ilkB, ilkHold := p.ilkHold }

/-- Hamper after a reset: the AON copies stay unless VAON rose; the fault log lies in MRAM. -/
def ModuleReset.hamperOf (k : ModuleReset) (h : Hamper) : Hamper :=
  if k.vaon then { Hamper.reset with faultLog := h.faultLog }
  else { Hamper.reset with first := h.first, last := h.last, fatal1 := h.fatal1, fatal2 := h.fatal2, faultLog := h.faultLog }

/-- The DRC after a reset: self-refresh keeps the contents, power-on leaves them undefined and loses soft repairs (spec/10
R383, R384). -/
def ModuleReset.drcOf (k : ModuleReset) (d : Drc) : Drc :=
  { Drc.reset with
    selfRefresh := Vector.replicate 2 true, lost := if k.power then Vector.replicate 2 true else d.lost
    fill := d.fill || k.power, bare := d.bare, bareCount := d.bareCount, written := d.written
    repaired := if k.power then d.repaired.filter (·.hard) else d.repaired }

/-- The module reset: every unit at its reset state, but for what the table of R577 keeps; a Press run that it ends is shown as
abandoned (spec/16 R551). -/
def State.moduleReset (s : State) (k : ModuleReset) : State :=
  let fatal := s.power.fatal
  let runs := slices.filter fun (n : Fin 8) => s.press[n].phase != .off
  let s := { State.reset with
    pending := s.pending, clock := s.clock, free := s.free, out := s.out, mem := s.mem
    regs := s.regs.filter fun (e : Nat × Word) => k.keeps e.1
    ready := if k.power then 0 else s.ready &&& 1, wasReady := if k.power then 0 else s.ready &&& 1, caps := s.caps
    drc := k.drcOf s.drc
    slots := { s.slots with run := none, writing := none, written := 0, runSvn := 0 }
    hamper := k.hamperOf s.hamper
    bist := { Bist.reset with
      draws := s.bist.draws + 1, lcBlown := s.bist.lcBlown, log := s.bist.log, fused := s.bist.fused
      inForce := if k.power then s.bist.fused else s.bist.inForce
      exhausted := s.bist.exhausted }
    power := k.powerOf s.power }
  let s := match k.cause with | some f => s.wr f 1 | none => s
  let s := s.each runs fun n s => s.wrs [(fPrStat_LASTFAIL n, 1), (fPrStat_FAILCODE n, 6)]
  if fatal && !k.vaon then s.wr fRstcause_FATAL 1 else s

/-! ## The management controller (R576) -/

/-- READY.MGMT is 0: a mailbox command in progress ends with FAIL, its mailbox is idle, and an image that is being written stays
incomplete. -/
def State.mgmtStops (s : State) : State :=
  let busy := (List.finRange 8).filter fun (p : Fin 8) => s.mbox[p].op.isSome
  let s := s.each busy fun p s => s.wrs [(fMgStat_CODE p, 3), (fMgStat_BUSY p, 0)]
  { s with
    mbox := Vector.replicate 8 Mbox.reset, remote := none, slots := { s.slots with writing := none, written := 0 } }

/-- The management-only reset: the controller, the mailboxes and, while READY.MGMT is 0, the sensor sampling. -/
def State.mgmtReset (s : State) : State :=
  let busy := (List.finRange 8).filter fun (p : Fin 8) => s.mbox[p].op.isSome
  let s := s.mgmtStops.resetRegs (inSpan (aMgReq 0 0) 0x80000)
  let s := s.each busy fun p s => s.wr (fMgStat_CODE p) 3
  let s := (s.wr fRstcause_MGMT 1).setReady .mgmt false
  if s.power.fatal then s.wr fRstcause_FATAL 1 else s

/-! ## RST (R591) -/

/-- Whether a writer is the PF, the management controller or a remote request, which carries the PF's rights. -/
def isPf : Initiator → Bool
  | .pcie p => p == 0 | .remote => true | _ => false
def pfOrMgmt (i : Initiator) : Bool := isPf i || i == .mgmt

/-- A write of RST. WARM acts alone; a bit that its writer may not set is refused as unmapped. -/
def State.opRst (s : State) (ini : Initiator) (v : Nat) : State :=
  if !pfOrMgmt ini then s.accErr ini .unmapped aRst
  else if bitOf v 31 then s.moduleReset .warm
  else
    let s := s.each (slices.filter fun (n : Fin 8) => bitOf v n) fun n s => s.sliceReset n
    if !bitOf v 16 then s else if isPf ini then s.mgmtReset else s.accErr ini .unmapped aRst

/-- POWER_ON_RESET: PWRGOOD rises, with VAON or while VAON is applied. -/
def execPowerOnReset (vaon : Bool) (s : State) : Host.Outcome State Fault Refusal :=
  .next <| if vaon || s.power.vaon then s.moduleReset (.powerOn vaon) else s

/-- PERST_N: in OFF there is nothing that it resets (R584, assumption 58). -/
def execPerstN (s : State) : Host.Outcome State Fault Refusal := .next <| if s.power.on then s.moduleReset .perst else s

/-- FULL_RESET (spec/14 R506). -/
def execFullReset (data : Byte) (pec : Bool) (s : State) : Host.Outcome State Fault Refusal :=
  .next <| if pec && data == 0x5A && s.power.on then s.moduleReset .fullReset else s

/-! ## Power (R584, R604, R606) -/

/-- The units outside AON that would act on their own stand still: nothing of them runs in OFF, and the power-on reset that leaves it
resets them (R584). -/
def State.unpowered (s : State) : State :=
  { s with
    scan := Vector.replicate 4 Scan.reset, port := Vector.replicate 4 Port.reset, ethLink := Vector.replicate 2 false, ethHeld := []
    dma := Vector.replicate 16 none, dmaStalled := 0, mbox := Vector.replicate 8 Mbox.reset, remote := none, enum := Enum.reset
    time := { Time.reset with tick := s.time.tick, mtimeHeld := s.time.mtimeHeld }
    cores := s.cores.map fun (x : CoreSt) => { x with halted := true, waiting := none, waitRd := none }
    patchLoading := false, bist := { s.bist with full := none, rinse := none, token := none } }.modDrc
    fun d => { d with initBusy := Vector.replicate 2 false, ppr := none, waiting := [], panicSince := none,
                      lost := Vector.replicate 2 true, fill := true }

/-- PWRGOOD_FALL: the pin safe state, then only the AON domain runs; pattern memory is lost. -/
def execPwrgoodFall (s : State) : Host.Outcome State Fault Refusal :=
  .next <|
    let s := s.each slices fun n s => s.finishSafe n .safeState .safeState
    let s := { s with ready := s.ready &&& 1 }.unpowered
    s.modPower fun p => { p with on := false, rails := false, rootLock := false, rootSrc := 0, exitStep := 0, st := .active }

/-- VAON_LOSS: every function ends, the switches open by default, and what AON held is lost. -/
def execVaonLoss (s : State) : Host.Outcome State Fault Refusal :=
  .next <| (s.moduleReset (.powerOn true)).modPower fun p => { p with on := false, vaon := false }

/-- Whether the PE dies are powered (R581, R583, R604). -/
def State.pePowered (s : State) : Bool := s.awake && !s.power.peOff && s.power.st != .standby

/-- RAIL_FAULT: a fatal fault while PWRGOOD is high and power-on reset is released (R604); of VPE_HI, VPE_LO and VPE_AN only while the
PE dies are powered (R606). The command names no rail: where it makes a difference, bit 0 of a free value says whether it is one of
these three (assumption 3). -/
def execRailFault (s : State) : Host.Outcome State Fault Refusal :=
  .next <|
    if !s.awake then s
    else if s.pePowered then (s.reportUnit .rail 0).fatalNow .none
    else
      let (x, s) := s.freeVal
      if x.getLsbD 0 then s else (s.reportUnit .rail 0).fatalNow .none

/-- RAILS_IN_RANGE: power-on reset is released, and AON runs. -/
def execRailsInRange (s : State) : Host.Outcome State Fault Refusal :=
  .next <|
    if s.power.on then
      (s.modPower fun p => { p with rails := true, backupOsc := !p.xoOk }).setReady .aon true
    else s

/-! ## The root reference (spec/01 R44 to R50) -/

/-- The reference that SRC selects now: 1 REF, 2 XO, 0 none. In AUTO a valid reference in use is kept until REF may
return. -/
def State.wantRoot (s : State) : Nat :=
  match s.rd fClkctl_SRC with
  | 1 => if s.power.refOk then 1 else 0
  | 2 => if s.power.xoOk then 2 else 0
  | _ => if s.power.refOk then 1 else if s.power.xoOk then 2 else 0

/-- The root reference or the lock of TROOT is lost: a fatal fault, in which the DRC and HBM interface clocks go too (spec/17
R589). Every bit that needs TROOT clears, and with them those of the functions that its period drives: the site cores (assumption 22),
the Dispatcher in FAB, Hamper and Press in MGMT (spec/01 R41, R56). The time unit has stopped as the record is made (spec/16 R542); the
synthesizers have lost their lock (spec/06 R213). -/
def State.rootLost (s : State) : State :=
  let held := s.mtime
  let s := ((s.dropReady .troot).each [.cores, .dispatch, .hamper, .press] fun b s => s.setReady b false).mgmtStops.modPower
    fun p => { p with rootLock := false, rootSrc := 0 }
  let s := (s.reportUnit .rootLost 0).fatalNow .fab
  (s.each slices fun n s => s.modSl n fun x => { x with synth := x.synth.relock }).modTime fun t => { t with mtimeHeld := held }

/-- TROOT follows another reference without losing lock; `auto` where AUTO moved it. -/
def State.moveRoot (s : State) (r : Nat) (auto : Bool) : State :=
  let s := s.modPower fun p => { p with rootSrc := BitVec.ofNat 2 r }
  if auto then s.wr fClkstat_SWITCHED 1 else s

/-- TROOT runs and its reference fails. Where AUTO runs on the XO, the XO fails and REF is valid, TROOT moves to REF as it moves the
other way (assumption 22: R47 and R48 do not say). -/
def State.rootRefFails (s : State) : State :=
  match s.wantRoot with
  | 0 => s.rootLost
  | r => (s.reportUnit .rootRef 0).moveRoot r true

/-- REF_LOST. -/
def execRefLost (s : State) : Host.Outcome State Fault Refusal :=
  .next <|
    let s := (s.modPower fun p => { p with refOk := false }).dropDisc
    if s.power.rootLock && s.power.rootSrc == 1 then s.rootRefFails else s

/-- REF_VALID. -/
def execRefValid (s : State) : Host.Outcome State Fault Refusal := .next (s.modPower fun p => { p with refOk := true })

/-- ROOT_RETURN_TO_REF. -/
def execRootReturnToRef (s : State) : Host.Outcome State Fault Refusal :=
  .next <|
    if s.rd fClkctl_SRC == 0 && s.power.rootLock && s.power.rootSrc == 2 && s.power.refOk && !s.anyAccepted then s.moveRoot 1 true
    else s

/-- XO_LOST: AON runs on its backup oscillator, the delay lines of the TDCs lose their lock. -/
def execXoLost (s : State) : Host.Outcome State Fault Refusal :=
  .next <|
    let s := s.modPower fun p => { p with xoOk := false, backupOsc := true }
    let s := s.each slices fun n s => s.modSl n fun x => { x with tdcLock := false }
    if s.power.rootLock && s.power.rootSrc == 2 then s.rootRefFails else s

/-- XO_VALID: AON returns to the XO, and the delay lines lock to it again. -/
def execXoValid (s : State) : Host.Outcome State Fault Refusal :=
  .next <|
    let s := s.modPower fun p => { p with xoOk := true, backupOsc := false }
    s.each slices fun n s => s.modSl n fun x => { x with tdcLock := true }

/-- TROOT_LOCK_LOST. -/
def execTrootLockLost (s : State) : Host.Outcome State Fault Refusal := .next <| if s.power.rootLock then s.rootLost else s

/-- A write of CLKCTL. Selecting a reference that is not valid loses the root reference. -/
def State.opClkctl (s : State) (ini : Initiator) (v : DWord) : State :=
  if s.anyAccepted then s.accErr ini .busy aClkctl
  else
    let s := s.writeReg ini .clkctl [] .lo v
    if !s.power.rootLock then s
    else match s.wantRoot with
      | 0 => s.rootLost
      | r => if s.power.rootSrc.toNat == r then s else s.moveRoot r (s.rd fClkctl_SRC == 0)

/-- ROOT_PLL_LOCKED: TROOT runs on the reference selected, and TICK starts at 0 (spec/13 R457). -/
def execRootPllLocked (s : State) : Host.Outcome State Fault Refusal :=
  .next <|
    if s.power.on && s.isReady .aon && !s.power.rootLock && s.wantRoot != 0 then
      let r := s.wantRoot
      let s := s.modPower fun p => { p with rootLock := true, rootSrc := BitVec.ofNat 2 r }
      ((s.setReady .troot true).setReady .time true).modTime fun t => { t with tick := 0 }
    else s

/-! ## Boot (R585 to R587, R595) -/

/-- The number of a slot. -/
def slotIx (x : Bool) : Fin 2 := if x then 1 else 0

/-- The fuse counter in force (spec/14 R501). -/
def State.svn (s : State) : Nat := s.slots.svn.getD Config.svnFuses

/-- The status of an image as it is verified (R595): a mark that UPDATE_END left on it stands (spec/14 R501), and an image whose
SVN is below the fuse counter is not run. -/
def State.slotStatus (s : State) (x : Bool) (i : SlotImage) : Nat :=
  let mark := s.slots.invalid[slotIx x]
  match i with
  | .blank => 4
  | .readError => 5
  | .unsigned => 2
  | .signed v => if mark ≠ 0 then mark else if v < s.svn then 3 else 1

/-- The slot tried first, and the slot whose trial expires (R587). -/
def Slots.choose (l : Slots) : Bool × Option Bool :=
  match l.trial with
  | some t => if l.bootedOnce then (!t, some t) else (t, none)
  | none => (l.confirmed, none)

/-- BOOT_VERIFY_DONE: the slot that runs is the first one tried where it verifies, else the other one, which is tried once. A slot
that is not tried is not checked; one whose trial expired shows that, unless it is tried in its turn. -/
def execBootVerifyDone (a b : SlotImage) (ms : Nat) (s : State) : Host.Outcome State Fault Refusal :=
  .next <|
    if !s.power.on || !s.isReady .aon || s.isReady .fw then s
    else
      let first := s.slots.choose.1
      let expired := s.slots.choose.2
      let image := fun (x : Bool) => if x then b else a
      let found := fun (x : Bool) => s.slotStatus x (image x)
      let run := if found first = 1 then some first else if found (!first) = 1 then some (!first) else none
      let stat := fun (x : Bool) =>
        if x = first || run ≠ some first then found x else if expired == some x then 6 else 0
      let trial := if expired.isSome then none else s.slots.trial
      let svn := match run with | some x => (match image x with | .signed v => v | _ => 0) | none => 0
      let s := { s with slots := { s.slots with run := run, trial := trial, bootedOnce := run.isSome && run == trial, runSvn := svn } }
      let s := s.wrs [(fBoot_SLOT, match run with | some false => 1 | some true => 2 | none => 0),
        (fBoot_TRIAL, b2n (run.isSome && run == trial)), (fBoot_ASTAT, stat false), (fBoot_BSTAT, stat true),
        (fBoot_MS, min ms 65535)]
      if run.isSome then s.setReady .fw true else s.reportUnit (.bringUp 1) 0

/-- The default regions (spec/03 R93), in 2 MiB units. -/
def defaultRegions : List (Nat × Region) :=
  ((List.range 8).map fun n => (n, ⟨1, n, 0xA00 * n, 0xA00⟩)) ++
  ((List.range 8).map fun n => (8 + n, ⟨2, n, 0x5000 + 0x80 * n, 0x80⟩)) ++
  ((List.range 4).map fun n => (16 + n, ⟨3, n, 0x5400 + 0x80 * n, 0x80⟩)) ++
  ((List.range 8).map fun n => (20 + n, ⟨4, n, 0x5600 + 0x40 * n, 0x40⟩)) ++ [(28, ⟨5, 0, 0x5800, 0x600⟩)]

/-- A region in force. -/
def State.setRegion (s : State) (i : Fin 32) (r : Region) : State :=
  { s with region := s.region.set i r }.wrs
    [(fHregBase_BASE i, r.base), (fHregCtrl_KIND i, r.kind), (fHregCtrl_INDEX i, r.index), (fHregCtrl_SIZE i, r.size)]

/-- The factory values of a slice that MRAM holds, in force until its first run (spec/16 R552). -/
def State.factoryValues (s : State) (n : Fin 8) : State :=
  let s := s.each lanes32 fun k s => s.setReg (aSlDeskew n k) (Config.factoryDeskew n k)
  let c := fun (g : Nat × Int) => (⟨g.1, g.2⟩ : Corr)
  (s.wr (fPrStat_REFTEMP n) (Config.factoryTemp n).toNat).modSl n fun x => { x with
    corr := Vector.ofFn fun (k : Fin 32) => Vector.ofFn fun (d : Fin 7) => c (Config.factoryLevel n k d)
    tdcPath := Vector.ofFn fun (i : Fin 98) => Config.factoryTdc n i
    ppmuCorr := Vector.ofFn fun (k : Fin 32) => Vector.ofFn fun (r : Fin 5) =>
      ⟨c (Config.factoryPpmu n k r).1, c (Config.factoryPpmu n k r).2⟩ }

/-- What boot firmware writes whose value the spec gives: the region map and the temperature limits (spec/18 R615); what it
loads from MRAM: the factory Press values, the repairs applied softly, of which fuses in force make some needless (spec/16 R552,
R561, R562). -/
def State.bootWrites (s : State) : State :=
  let s := s.each defaultRegions fun e s => s.setRegion (Fin.ofNat 32 e.1) e.2
  let s := s.each (List.range 5) fun i s => s.wr (fSenswarn_LIMIT i) 1600
  let s := s.each (List.range 8) fun i s => s.wr (fSenswarn_LIMIT (9 + i)) 1680
  let s := s.each (slices.filter fun (n : Fin 8) => Config.factoryValid n) fun n s => s.factoryValues n
  let hbm := s.bist.log.filterMap fun (e : RepairEntry) => match e with | .hbm r _ => if r.hard then none else some r | .sram .. => none
  let s := s.modDrc fun d => { d with repaired := d.repaired ++ hbm.filter fun r => !d.repaired.contains r }
  s.wr fPrDarnStat_SOFTN (s.bist.log.filter fun (e : RepairEntry) =>
    match e with | .sram .. => !s.bist.inForce.contains e | .hbm .. => false).length

end Sys2Proof.Machine
end

