-- ==== Sys2Proof/Machine/Hamper.lean ====
section
/-! DEFINITION. Hamper: what a source's error does in its class, the record queue, injection (spec/01 R35, spec/16 R536 to
R545, R564 to R568). -/

namespace Sys2Proof.Machine

open Sys2Proof

/-! ## What an error does (R537 to R539, R545) -/

/-- A contained fault of the Dispatcher store: the waiting tasks are discarded, and the Dispatcher is out of service. -/
def State.dispFault (s : State) : State :=
  let s := s.dropTasks fun _ => true
  { s with disp := { s.disp with down := true } }.setReady .dispatch false

/-- A contained fault of a Clothesline port: as LRST (spec/12 R448). -/
def State.portFault (s : State) (p : Fin 4) : State :=
  if s.on (fClCtrl_EN p) then s.attempt1 p else s.dropFrames p

/-- An Ethernet port's link lost, with the frames in flight; `fault` discards its queued transmit stamps too, which count as
dropped. -/
def State.ethDown (s : State) (e : Fin 2) (fault : Bool) : State :=
  let gone := if fault then (s.time.txts.filter fun (x : TxStamp) => x.port == e).length else 0
  let s := { s with
    ethLink := s.ethLink.set e false, ethHeld := s.ethHeld.filter fun (f : EthFrame) => f.port != e }.setReady (.eth e) false
  if gone = 0 then s
  else
    ((s.wr fTmTxtsstat_OVF 1).addSat fTmTxtsovf_COUNT gone).modTime fun t =>
      { t with txts := t.txts.filter fun (x : TxStamp) => x.port != e }

/-- A contained fault stops the unit of its source, by the ranges of R537. -/
def State.actContained (s : State) (src : Nat) : State :=
  if src < 128 then s.containedSl (Fin.ofNat 8 (src / 16))
  else if src < 192 then s.each (peSlices (Fin.ofNat 2 ((src - 128) / 32))) fun n s => s.containedSl n
  else if src < 256 then s
  else if src < 272 then s.scanFault (Fin.ofNat 4 ((src - 256) / 4))
  else if src < 336 then s.coreFault (Fin.ofNat 8 ((src - 272) / 8))
  else if src < 344 then s.dispFault
  else if src < 376 then s.portFault (Fin.ofNat 4 ((src - 344) / 8))
  else if src < 384 then s.ethDown (Fin.ofNat 2 ((src - 376) / 4)) true
  else if src < 400 then { s with dmaStalled := s.dmaStalled ||| BitVec.ofNat 32 (2 ^ (src - 384)) }
  else s

/-- What a source's class does: a corrected fault stops nothing, a fatal one takes the device to its safe state. -/
def State.act (s : State) (src : Nat) : State :=
  match hamperClass src with
  | 2 => s.actContained src
  | 3 => s.fatalNow .none
  | _ => s

/-- HAMPER_ERROR_EVENT. -/
def execHamperErrorEvent (src : Fin 512) (detail : DWord) (s : State) : Host.Outcome State Fault Refusal :=
  .next (s.whenAwake fun s => (s.report src detail true false).act src)

/-- HAMPER_WIRE_FAULT. -/
def execHamperWireFault (src : Fin 512) (s : State) : Host.Outcome State Fault Refusal :=
  .next (s.whenAwake fun s => (s.report src 0 true true).act src)

/-- HAMPER_SOURCE_CLEARED. -/
def execHamperSourceCleared (src : Fin 512) (s : State) : Host.Outcome State Fault Refusal :=
  .next { s with hamper := s.hamper.put { s.hamper.find src with active := false, wire := false } }

/-- FATAL_FAULT of a fatal source; `lost` where it is the loss of the DRC, FAB or an HBMPHY domain. A source of another class
raises none. -/
def execFatalFault (src : Fin 512) (lost : MemLoss) (s : State) : Host.Outcome State Fault Refusal :=
  .next <| s.whenAwake fun s => if hamperClass src = 3 then (s.report src 0 true false).fatalNow lost else s

/-- EVENT_PATH_DBE: the burst ends at once, the pins safe. -/
def execEventPathDbe (n : Fin 8) (s : State) : Host.Outcome State Fault Refusal :=
  .next (s.whenAwake fun s => (s.reportUnit (.eventPath n) 0).containedSl n)

/-- CONTROL_PATH_DBE: a contained fault of the four slices of the die. -/
def execControlPathDbe (pe : Fin 2) (s : State) : Host.Outcome State Fault Refusal :=
  .next (s.whenAwake fun s => (s.reportUnit (.controlPath pe) 0).each (peSlices pe) fun n s => s.containedSl n)

/-- DISPATCHER_STORE_RECOVERED. -/
def execDispatcherStoreRecovered (s : State) : Host.Outcome State Fault Refusal :=
  .next { s with disp := { s.disp with down := false } }.dispReady

/-! ## Records (R540, R542) -/

/-- A record as 8 words. -/
def HRec.words (r : HRec) : List Word :=
  let flags := b2n r.wire + 2 * b2n r.injected + 4 * b2n r.lostBefore + 8 * b2n r.noTime
  [r.tick.setWidth 32, (r.tick >>> 32).setWidth 32, BitVec.ofNat 32 (r.source + r.cls * 2 ^ 16 + flags * 2 ^ 24), r.count,
    r.detail.setWidth 32, (r.detail >>> 32).setWidth 32, r.seq, 0]

/-- The words of a copy; an empty one reads as zeros. -/
def recWords (r : Option HRec) : List Word := match r with | some r => r.words | none => List.replicate 8 0

/-- Bytes of a list of words. -/
def wordBytes (l : List Word) : List Byte := l.flatMap fun w => leBytes 4 w.toNat

/-- Records that the fault log in MRAM holds (spec/14 R496). -/
def faultLogSize : Nat := 262144

/-- A write of POP: the oldest record leaves the queue; the management firmware writes it into the fault log with the PHC
time (R543). -/
def State.opPop (s : State) (ini : Initiator) (v : Nat) : State :=
  if !bitOf v 0 then s
  else match s.hamper.queue with
    | [] => s
    | r :: q =>
      let log := if ini == .mgmt then (s.hamper.faultLog ++ [(r, s.time.phcTime)]) else s.hamper.faultLog
      { s with hamper := { s.hamper with queue := q, faultLog := log.drop (log.length - faultLogSize) } }

/-- A write of AONCLR. -/
def State.opAonclr (s : State) (v : Nat) : State :=
  let h := s.hamper
  { s with hamper := { h with
    first := if bitOf v 0 then none else h.first, last := if bitOf v 1 then none else h.last
    fatal1 := if bitOf v 2 then none else h.fatal1, fatal2 := if bitOf v 3 then none else h.fatal2 } }

/-! ## Injection (R544, R567) -/

/-- The next check of the checker that INJ has armed: the error shows, its record carries INJECTED, and it acts in its class. In
the model a check comes at each MGMT cycle, in which the rails are sampled (assumption 58). -/
def State.injectDue (s : State) : State :=
  match s.hamper.inject with
  | some (_, src) => (s.report src 0 false false).act src
  | none => s

/-- A write of INJ. ARM of a contained or fatal source is accepted only where the life cycle allows it; else it is dropped
with RSVD. -/
def State.opInj (s : State) (ini : Initiator) (v : DWord) : State :=
  let s := s.writeReg ini .hmInj [] .lo v
  if !bitOf v.toNat 31 then s
  else
    let src := s.rd fHmInj_SRC
    let lc := s.lifeCycle
    if hamperClass src == 1 || lc == 1 || lc == 4 || lc == 5 then
      { s with hamper := { s.hamper with inject := some (BitVec.ofNat 2 (s.rd fHmInj_MODE), src) } }
    else s.accErr ini .rsvd aHmInj

/-- A write of SRC[i]: LATCHED is not cleared while the error is present. -/
def State.opHmSrc (s : State) (ini : Initiator) (i : Nat) (v : DWord) : State :=
  let active := (s.hamper.find i).active
  s.writeSome ini .hmSrc [i] .lo v fun f => !(f.lo == 31 && active)

end Sys2Proof.Machine
end

