-- ==== Sys2Proof/Machine/Press.lean ====
section
/-! DEFINITION. Press, self-test and Darning (spec/16 R546 to R563, R569 to R574). -/

namespace Sys2Proof.Machine

open Sys2Proof

/-! ## Press (R547 to R552) -/

/-- One slice's Press state changed. -/
def State.modPress (s : State) (n : Fin 8) (f : PressSl → PressSl) : State := { s with press := s.press.set n (f s.press[n]) }

/-- Whether the slice has been IDLE for HOLDOFF µs without a break. -/
def State.heldOff (s : State) (n : Fin 8) : Bool :=
  decide (s.press[n].idleSince + s.rd fPrCfg_HOLDOFF * 12800 ≤ s.clock)

/-- The conditions of R548 but for the holdoff. -/
def State.pressFree (s : State) (n : Fin 8) : Bool :=
  s.isReady .press && s.press[n].phase == .off && s.sl[n].isIdle && !s.sl[n].adcBusy && s.sl[n].tdc.isNone &&
    !(s.bist.rinse == some (1, n.val) || s.bist.rinse == some (2, n.val)) && !s.tested [1, 2, 3] n && !s.safeHeld &&
    !s.on ⟨aPwrctl, n, 1⟩ && s.power.st == .active && !s.power.peOff

/-- Whether a run is asked for: by RUN, by DUE with AUTO, or as the first run since boot, which waits for no holdoff (R548, R552). -/
def State.pressDue (s : State) (n : Fin 8) : Bool :=
  s.press[n].untried || ((s.press[n].want || (s.on (fPrCtrl_AUTO n) && s.on (fPrStat_DUE n))) && s.heldOff n)

/-- A run starts: every switch opens, the temperature is kept, and the ADC meets the urgent request of the reference's first
conversion (spec/07 R264). -/
def State.pressStart (s : State) (n : Fin 8) : State :=
  let t := BitVec.ofNat 16 (s.rd (fSensor_VALUE (9 + n.val)))
  let s := s.modPress n fun p => { p with phase := .running, want := false, startTemp := t, found := none }
  s.modSl n fun x => { x with lanes := Vector.ofFn fun (k : Fin 32) => { x.lanes[k] with cut := true } }.adcUrge

/-- A run starts where one is asked for and may start. -/
def State.pressTry (s : State) (n : Fin 8) : State := if s.pressDue n && s.pressFree n then s.pressStart n else s

/-- A write of PRESS.SL[n].CTRL. -/
def State.opPressCtrl (s : State) (ini : Initiator) (n : Fin 8) (v : DWord) : State :=
  let s := s.writeReg ini .prCtrl [n] .lo v
  if bitOf v.toNat 1 then (s.modPress n fun p => { p with want := true }).pressTry n else s

/-- PRESS_AUTO_START. -/
def execPressAutoStart (n : Fin 8) (s : State) : Host.Outcome State Fault Refusal := .next (s.pressTry n)

/-- A correction as it was measured (spec/07 R250, assumption 48). -/
def corrOf (g : Nat × Int) : Corr := ⟨g.1, g.2⟩

/-- Whether gain and offset of a level DAC are accepted: within 1 % of nominal, within 10 mV (a code is 4 V ÷ 65,536). -/
def levelFits (g : Nat × Int) : Bool :=
  decide (((g.1 : Int) - 65536).natAbs * 100 ≤ 65536) && decide (g.2.natAbs * 4000 ≤ 10 * 65536)

/-- Whether gain and offset of a PPMU path are accepted: within 1 %, within 0.5 % of the range (a code is the range ÷ 32,768). -/
def ppmuFits (g : Nat × Int) : Bool :=
  decide (((g.1 : Int) - 65536).natAbs * 100 ≤ 65536) && decide (g.2.natAbs * 200 ≤ 32768)

/-- A TDC offset in its unit of 10 ns × 2^-15 within a limit in ps. -/
def tdcFits (d : Int) (ps : Nat) : Bool := decide (d.natAbs * 10000 ≤ ps * 32768)

/-- A deskew field of a word: 0 D0, 1 D1, 2 OFF, 3 CMP. -/
def deskewField (w : Word) (i : Nat) : Int := signed (bitsOf w.toNat (8 * i) 8) 8

/-- The checks of R550 in the order of their table: FAILCODE, lane, whether it passes. The limits on the change against the values in
force at the start of the run are left out of the first run where MRAM holds no valid factory record (R552). -/
def State.pressChecks (s : State) (n : Fin 8) (m : PressMeasured) : List (Nat × Nat × Bool) :=
  let near := !(s.press[n].untried && !Config.factoryValid n)
  [(1, 0, decide ((m.reference - 2500000).natAbs ≤ 2000) && decide (m.ground.natAbs ≤ 1000))] ++
  (List.range 128).map (fun i =>
    let v := m.deskew.getD i 0
    (2, i / 4, decide (-128 ≤ v) && decide (v ≤ 127) &&
      (!near || decide ((v - deskewField (s.reg (aSlDeskew n (i / 4))) (3 - i % 4)).natAbs ≤ 24)))) ++
  (List.range 98).map (fun i =>
    let v := m.tdc.getD i 0
    (3, if i < 96 then i % 32 else 0, tdcFits v 2000 && (!near || tdcFits (v - s.sl[n].tdcPath[(Fin.ofNat 98 i : Fin 98)]) 10))) ++
  (List.range 224).map (fun i => (4, i / 7, levelFits (m.levels.getD i (65536, 0)))) ++
  (List.range 160).map fun i =>
    let g := m.ppmu.getD i ((65536, 0), (65536, 0))
    (5, i / 5, ppmuFits g.1 && ppmuFits g.2)

/-- What the checks of a run find: the first one that fails, or the new values. -/
def State.pressFound (s : State) (n : Fin 8) (m : PressMeasured) : PressEnd :=
  match (s.pressChecks n m).find? fun c => !c.2.2 with
  | some c => .fail c.1 c.2.1
  | none => .pass
      (Vector.ofFn fun k : Fin 32 => BitVec.ofNat 32 (leNat ((List.range 4).map fun i => BitVec.ofInt 8 (m.deskew.getD (4 * k + 3 - i) 0))))
      (Vector.ofFn fun k : Fin 32 => Vector.ofFn fun d : Fin 7 => corrOf (m.levels.getD (7 * k + d) (65536, 0)))
      (Vector.ofFn fun i : Fin 98 => m.tdc.getD i 0)
      (Vector.ofFn fun k : Fin 32 => Vector.ofFn fun r : Fin 5 =>
        let g := m.ppmu.getD (5 * k + r) ((65536, 0), (65536, 0))
        ⟨corrOf g.1, corrOf g.2⟩)

/-- A run that passed ends: every new value in one transaction, and the TDC's loop is in lock again (assumption 45). -/
def State.pressPass (s : State) (n : Fin 8) (deskew : Vector Word 32) (levels : Vector (Vector Corr 7) 32) (tdc : Vector Int 98)
    (ppmu : Vector (Vector PmuCorr 5) 32) : State :=
  let s := s.each lanes32 fun k s => s.setReg (aSlDeskew n k) deskew[k]
  let s := s.modSl n fun x => { x with corr := levels, tdcPath := tdc, ppmuCorr := ppmu, tdcLock := s.power.xoOk }
  s.wrs [(fPrStat_REFTEMP n, s.press[n].startTemp.toNat), (fPrStat_DUE n, 0), (fPrStat_CAL_STALE n, 0),
    (fPrStat_LASTFAIL n, 0), (fPrStat_FAILCODE n, 0), (fPrStat_FAILLANE n, 0),
    (fPrCount_COUNT n, s.rd (fPrCount_COUNT n) + 1), (fPrTsec_SEC n, s.time.phcSec.toNat), (fPrTns_NS n, s.time.phcNs)]

/-- A run that failed ends; the first run since boot that fails leaves the calibration stale (R550, R552). -/
def State.pressFail (s : State) (n : Fin 8) (code : Nat) (lane : Nat) : State :=
  let s := (s.addSat (fPrFails_FAILS n) 1).wrs [(fPrStat_LASTFAIL n, 1), (fPrStat_FAILCODE n, code), (fPrStat_FAILLANE n, lane)]
  if s.press[n].untried then s.wr (fPrStat_CAL_STALE n) 1 else s

/-- PRESS_RUN_DONE: the checks of a run are over, and the restore follows with the values then in force. -/
def execPressRunDone (n : Fin 8) (m : PressMeasured) (s : State) : Host.Outcome State Fault Refusal :=
  .next <|
    if s.press[n].phase ≠ .running then s
    else s.modPress n fun p => { p with phase := .restore, found := some (s.pressFound n m) }

/-- The end of a run by what its checks found. -/
def State.pressEnd (s : State) (n : Fin 8) : State :=
  match s.press[n].found with
  | some (.pass d l t p) => s.pressPass n d l t p
  | some (.fail c k) => s.pressFail n c k
  | none => s

/-- PRESS_SWITCH_RESTORE: the run ends, and each switch returns to its connection, a lane parked OPEN too (assumption 45).
A bit that cleared for want of HB0, HB1 or TROOT waits for a run that ends while all three are 1 (spec/01 R57); before its first run
since boot a slice's bit has not been 1. -/
def execPressSwitchRestore (n : Fin 8) (s : State) : Host.Outcome State Fault Refusal :=
  .next <|
    if s.press[n].phase ≠ .restored then s
    else
      let all := s.isReady (.hb 0) && s.isReady (.hb 1) && s.isReady .troot
      let s := (s.pressEnd n).modPress n fun p =>
        { p with phase := .off, found := none, firstRun := p.firstRun && !(all || p.untried), untried := false, idleSince := s.clock }
      (s.modSl n fun x => { x with lanes := Vector.ofFn fun (k : Fin 32) => { x.lanes[k] with cut := false } }).trySlReady n

/-- DUE and CAL_STALE judged on a reading (R547). -/
def State.pressJudge (s : State) (n : Fin 8) (reading : BitVec 16) : State :=
  let d := (reading.toInt - signed (s.rd (fPrStat_REFTEMP n)) 16).natAbs
  let s := if s.rd fPrCfg_DRIFT < d then s.wr (fPrStat_DUE n) 1 else s
  if s.rd fPrCfg_HARD < d then s.wr (fPrStat_CAL_STALE n) 1 else s

/-- A write of PRESS.CFG: a pair with HARD not greater than DRIFT is not accepted, and both fields take their reset
values. -/
def State.opPressCfg (s : State) (ini : Initiator) (v : DWord) : State :=
  let s := s.writeReg ini .prCfg [] .lo v
  if s.rd fPrCfg_HARD ≤ s.rd fPrCfg_DRIFT then
    (s.wrs [(fPrCfg_HARD, 96), (fPrCfg_DRIFT, 32)]).accErr ini .rsvd aPrCfg
  else s

/-! ## Full BIST (R556, R557) -/

/-- Instances of a kind of target; none for a kind that is not listed. -/
def bistInsts (kind : Nat) : Nat :=
  match kind with
  | 1 | 2 | 3 | 5 => 8 | 4 | 7 => 4 | 6 => 1 | 8 => 2 | _ => 0

/-- The READY bit of a target. -/
def bistReady (kind inst : Nat) : ReadyBit :=
  match kind with
  | 4 => .scan (Fin.ofNat 4 inst) | 5 => .cores | 6 => .dispatch | 7 => .cl (Fin.ofNat 4 inst) | 8 => .hb (Fin.ofNat 2 inst)
  | _ => .sl (Fin.ofNat 8 inst)

/-- Whether a target is quiescent. -/
def State.quiescent (s : State) (kind inst : Nat) : Bool :=
  let n : Fin 8 := Fin.ofNat 8 inst
  match kind with
  | 1 => (s.gang n).all (fun m => s.sl[m].isIdle) && !s.pressing n
  | 2 | 3 => s.sl[n].isIdle
  | 4 => s.scan[(Fin.ofNat 4 inst : Fin 4)].st == .off
  | 5 => !s.on (fDpCoreCtrl_RUN n)
  | 6 => s.disp.waiting.isEmpty && coreList.all fun (c : Fin 8) => s.cores[c].hold.isNone
  | 7 => s.port[(Fin.ofNat 4 inst : Fin 4)].st == .disabled || s.port[(Fin.ofNat 4 inst : Fin 4)].st == .down
  | _ => !s.isReady (.hb (Fin.ofNat 2 inst))

/-- Whether the life cycle allows a full BIST or the rinse cycle (R554). -/
def State.fullAllowed (s : State) : Bool := s.lifeCycle == 1 || s.lifeCycle == 4 || s.lifeCycle == 5
def State.rinseAllowed (s : State) : Bool := decide (1 ≤ s.lifeCycle) && decide (s.lifeCycle ≤ 5)

/-- The Bist state changed. -/
def State.modBist (s : State) (f : Bist → Bist) : State := { s with bist := f s.bist }

/-- The target of a full BIST with memories zeroed and registers at their reset values. -/
def State.reinit (s : State) (kind inst : Nat) : State :=
  let n : Fin 8 := Fin.ofNat 8 inst
  match kind with
  | 1 => (s.resetRegs fun a => inSpan (aSlSeqstat n) 0x200 a || inSpan (aSlFailcnt n 0) 0x108 a).modSl n fun x =>
      { x with seq := Seq.reset, window := [] }
  | 3 => (s.resetRegs fun a => inSpan (aSlWtime n 0 0 0) 0x50000 a || inSpan (aSlWft n 0) 0x100 a).modSl n fun x =>
      { x with patched := false }
  | 5 => (s.coreReset n).modCore n fun c => { c with sram := [] }
  | 6 => { s with disp := Disp.reset }
  | 8 => s.modDrc fun d => { d with banks := d.banks.filter fun (b : RhBank) => b.pc.val / 32 != inst }
  | _ => s.rinsed kind inst

/-- Work that a target could not take while it was tested: a READY bit set again where nothing holds it, an enabled port's attempt. -/
def State.reReady (s : State) (kind inst : Nat) (was : Bool) : State :=
  let u : Fin 4 := Fin.ofNat 4 inst
  match kind with
  | 1 | 2 | 3 => s.trySlReady (Fin.ofNat 8 inst)
  | 4 => if s.scanMayReady u then s.setReady (.scan u) true else s
  | 5 => s.coresReady
  | 6 => if was then s.dispReady else s
  | 7 =>
    if (s.port[u].st == .disabled || s.port[u].st == .down) && s.on (fClCtrl_EN u) && s.on (fClCtrl_LOOPBACK u) then s.loopBack u
    else if s.port[u].st == .disabled && s.on (fClCtrl_EN u) then s.attempt1 u
    else s
  | _ => s

/-- The test ends: the target is re-initialised, and its READY bit returns. -/
def State.endFull (s : State) : State :=
  match s.bist.full with
  | none => s
  | some (k, i, was) => ((s.reinit k i).modBist fun b => { b with full := none }).reReady k i was

/-- A write of BIST.CMD (R572). A KIND or INST that R557 does not list takes its reset value (spec/00 R22), and START
starts nothing then (assumption 25). ABORT acts before START; it reports how long the test ran, and no failing element (assumption 59). -/
def State.opBistCmd (s : State) (ini : Initiator) (v : Nat) : State :=
  let k := bitsOf v 8 8
  let i := bitsOf v 0 8
  let s := if bitOf v 30 && s.bist.full.isSome then
      s.endFull.wrs [(fPrBistRes_RESULT, 3), (fPrBistDur_US, s.usSince s.bist.fullAt), (fPrBistFails_COUNT, 0), (fPrBistFirst_ELEMENT, 0)]
    else s
  let k' := if bistInsts k = 0 then 1 else k
  let s := s.wrs [(fPrBistCmd_KIND, k'), (fPrBistCmd_INST, if i < bistInsts k' then i else 0)]
  if bistInsts k ≤ i then s.accErr ini .rsvd aPrBistCmd
  else
    if !bitOf v 31 then s
    else if !s.fullAllowed || !s.quiescent k i || s.bist.full.isSome then s.wr fPrBistRes_RESULT 4
    else
      let was := s.isReady (bistReady k i)
      let s := (s.abandonRinse (if k ≤ 3 then [1, 2] else [k]) i).wrs
        [(fPrBistRes_RESULT, 5), (fPrBistRes_COVERAGE, 0)]
      ((s.modBist fun b => { b with full := some (k, i, was), fullAt := s.clock }).setReady (bistReady k i) false)

/-- The spares of a kind that each macro has: 4 rows, 2 columns (R561). -/
def spareCount (column : Bool) : Nat := if column then 2 else 4

/-- Whether an entry repairs an element of a macro. -/
def RepairEntry.repairs (e : RepairEntry) (m : Nat) (column : Bool) (el : Nat) : Bool :=
  match e with | .sram a c _ x _ _ => a == m && c == column && x == el | .hbm _ _ => false

/-- Whether an entry uses a spare of a kind of a macro. -/
def RepairEntry.uses (e : RepairEntry) (m : Nat) (column : Bool) : Bool :=
  match e with | .sram a c _ _ _ _ => a == m && c == column | .hbm _ _ => false

/-- The first spare of a kind of a macro that no fuse and no entry uses. -/
def State.nextSpare (s : State) (m : Nat) (column : Bool) : Nat :=
  Config.fuseSpares m column + (s.bist.log.filter fun e => e.uses m column).length

/-- The macro and the row or column of a failing element, as BIST.FIRST names them (R572). -/
def macroOf (rep : TestReport) : Nat := bitsOf rep.first.toNat 16 16
def elementOf (rep : TestReport) : Nat := bitsOf rep.first.toNat 0 16

/-- The failing element of a test: a spare for it put into the repair log (R561), or, where its macro has none left, a contained
record and a unit that stays unready (R563). An element that the log repairs at the next boot stands. -/
def State.repair (s : State) (kind inst source : Nat) (rep : TestReport) : State :=
  if rep.pass || s.bist.log.any (fun e => e.repairs (macroOf rep) rep.column (elementOf rep)) then s
  else
    let spare := s.nextSpare (macroOf rep) rep.column
    if spare < spareCount rep.column then s.modBist fun b =>
      { b with log := b.log ++ [.sram (macroOf rep) rep.column spare (elementOf rep) source s.time.phcSec] }
    else ((s.wr fPrDarnStat_EXHAUST 1).reportUnit (.darning kind inst) (rep.first.setWidth 64)).modBist fun b =>
      { b with exhausted := b.exhausted ||| BitVec.ofNat 32 (2 ^ (bistReady kind inst).pos) }

/-- BIST_DONE. -/
def execBistDone (rep : TestReport) (s : State) : Host.Outcome State Fault Refusal :=
  .next <| match s.bist.full with
    | none => s
    | some (k, i, _) =>
      let s := s.wrs [(fPrBistRes_RESULT, if rep.pass then 1 else 2), (fPrBistRes_COVERAGE, rep.coverage),
        (fPrBistDur_US, rep.us.toNat), (fPrBistFails_COUNT, rep.fails.toNat), (fPrBistFirst_ELEMENT, rep.first.toNat)]
      (s.repair k i 1 rep).endFull

/-! ## The rinse cycle (R558 to R560) -/

/-- The 24 instances of a round. -/
def rinseList : List (Nat × Nat) :=
  ((List.range 8).map fun i => (1, i)) ++ ((List.range 8).map fun i => (2, i)) ++ ((List.range 4).map fun i => (4, i)) ++
    ((List.range 4).map fun i => (7, i))

/-- Whether a step may test an instance. -/
def State.mayRinse (s : State) (k i : Nat) : Bool :=
  s.quiescent k i && !s.tested (if k ≤ 2 then [1, 2, 3] else [k]) i &&
    (decide (2 < k) || (!s.pressing (Fin.ofNat 8 i) && !s.on ⟨aPwrctl, i, 1⟩))

/-- RINSE_STEP: the next quiescent instance of the round. -/
def execRinseStep (s : State) : Host.Outcome State Fault Refusal :=
  .next <|
    if !s.on fPrBistRinse_EN || !s.rinseAllowed || s.bist.rinse.isSome || !s.isReady .hamper then s
    else
      let order := (List.range 24).map fun j => (s.bist.next + j) % 24
      match order.find? fun (j : Nat) => (match rinseList[j]? with | some (k, i) => s.mayRinse k i | none => false) with
      | none => s
      | some j => match rinseList[j]? with
        | none => s
        | some (k, i) =>
          (s.modBist fun b => { b with rinse := some (k, i), rinseAt := s.clock, next := (j + 1) % 24 }).wrs
            [(fPrBistRinseres_RESULT, 5), (fPrBistRinseinst_KIND, k), (fPrBistRinseinst_INST, i)]

/-- RINSE_STEP_DONE: the instance is re-initialised; a failure is a contained fault of its unit, whose READY bit stays 0. -/
def execRinseStepDone (rep : TestReport) (s : State) : Host.Outcome State Fault Refusal :=
  .next <| match s.bist.rinse with
    | none => s
    | some (k, i) =>
      let s := ((s.wrs [(fPrBistRinseres_RESULT, if rep.pass then 1 else 2), (fPrBistRinseres_COVERAGE, rep.coverage),
        (fPrBistRinsedur_US, rep.us.toNat)]).modBist fun b => { b with rinse := none }).rinsed k i
      if rep.pass then s
      else
        let s := s.reportUnit (.bist k i) (rep.first.setWidth 64)
        let s := if k ≤ 2 then s.containedSl (Fin.ofNat 8 i) else s
        let b := bistReady k i
        ((s.modBist fun x => { x with held := x.held ||| BitVec.ofNat 32 (2 ^ b.pos) }).setReady b false).repair k i 2 rep

/-! ## Life cycle (R555) -/

/-- The transitions that a token may ask for. -/
def transitionOk (a b : Nat) : Bool :=
  b == 6 || (a == 0 && b == 1) || (a == 1 && b == 2) || (a == 2 && b == 3) || (a == 3 && (b == 4 || b == 5))

/-- The token in the TOKEN registers as one number. -/
def State.tokenBits (s : State) : BitVec 1024 :=
  BitVec.ofNat 1024 (leNat (wordBytes ((List.range 32).map fun i => s.reg (aPrBistToken i))))

/-- A write of TOKCMD: SUBMIT hands the token over, and the nonce takes a new value. -/
def State.opTokcmd (s : State) (ini : Initiator) (v : Nat) : State :=
  if !pfOrMgmt ini then s.accErr ini .unmapped aPrBistTokcmd
  else if bitOf v 0 then
    let t := s.tokenBits
    s.modBist fun b => { b with token := some (t, b.draws), draws := b.draws + 1 }
  else s

/-- TOKEN_VERIFY_DONE: the signature, then serial number and nonce, then the transition. -/
def execTokenVerifyDone (sig : Bool) (s : State) : Host.Outcome State Fault Refusal :=
  .next <| match s.bist.token with
    | none => s
    | some (t, draw) =>
      let s := s.modBist fun b => { b with token := none }
      let dest := bitsOf t.toNat 128 8
      if !sig then s.wr fPrBistTokcmd_RESULT 2
      else if BitVec.ofNat 64 t.toNat != Config.serial || BitVec.ofNat 64 (t.toNat / 2 ^ 64) != Config.nonce draw then
        s.wr fPrBistTokcmd_RESULT 3
      else if !transitionOk s.lifeCycle dest then s.wr fPrBistTokcmd_RESULT 4
      else
        let s := (if dest = 4 then s.modBist fun b => { b with fieldDiag := true }
          else s.modBist fun b => { b with fieldDiag := false, lcBlown := some (BitVec.ofNat 3 dest) }).wr fPrBistTokcmd_RESULT 1
        if dest = 6 then s.each slices fun n s => s.setReady (.sl n) false else s

/-! ## Darning (R562) -/

/-- Entries that a table of 2,048 still takes. -/
def State.fuseRoom (s : State) : Nat := 2048 - Config.fuseRepairs - s.bist.fused.length

/-- A write of DARN.CMD: FUSE blows the soft repairs of the log into fuses, as many as the table takes. -/
def State.opDarnCmd (s : State) (ini : Initiator) (v : Nat) : State :=
  if !bitOf v 0 then s
  else if ini == .mgmt && (s.lifeCycle == 1 || s.lifeCycle == 5) then
    s.modBist fun b =>
      { b with fused := b.fused ++ (b.log.filter fun (e : RepairEntry) =>
        (match e with | .sram .. => true | .hbm .. => false) && !b.fused.contains e).take s.fuseRoom }
  else s.accErr ini .rsvd aPrDarnCmd

end Sys2Proof.Machine
end

