-- ==== Sys2Proof/Machine/HostIf.lean ====
section
/-! DEFINITION. The host interface: DMA, partitions, mailboxes, remote requests (spec/14 R485 to R501, R509 to R514; spec/12
R443). -/

namespace Sys2Proof.Machine

open Sys2Proof

/-! ## DMA (R491 to R494, R511) -/

/-- Fields of a descriptor's CTRL. -/
def dDir (d : DmaDesc) : Bool := bitOf d.ctrl.toNat 0
def dSeal (d : DmaDesc) : Bool := bitOf d.ctrl.toNat 1
def dIrq (d : DmaDesc) : Bool := bitOf d.ctrl.toNat 2
def dSlice (d : DmaDesc) : Fin 8 := Fin.ofNat 8 (bitsOf d.ctrl.toNat 4 3)
def dSeg (d : DmaDesc) : Nat := bitsOf d.ctrl.toNat 8 20

/-- Entries of a channel's ring. -/
def State.ringSize (s : State) (c : Fin 16) : Nat := 2 ^ s.rd (fDmaRingsz_LOG2 c)

/-- Whether a descriptor breaks R492, asks for a seal with DIR = 1 or names in SLICE a slice that is not of the partition. A partition
that has no slice can name none of its own, and uses its channels all the same (R488): SLICE counts there with SEAL only (assumption
60). -/
def State.badDesc (s : State) (c : Fin 16) (d : DmaDesc) : Bool :=
  d.haddr.toNat % 4 != 0 || d.maddr.toNat % 64 != 0 || d.len.toNat % 64 != 0 || decide (d.len.toNat < 64) ||
    decide (0x40000000 < d.len.toNat) || bitOf d.ctrl.toNat 3 || bitOf d.ctrl.toNat 7 || bitsOf d.ctrl.toNat 28 4 != 0 ||
    (dSeal d && dDir d) || (s.ownerSl (dSlice d) != s.ownerDma c && (dSeal d || slices.any fun n => s.ownerSl n == s.ownerDma c))

/-- Whether a channel has a descriptor to begin. -/
def State.dmaWaits (s : State) (c : Fin 16) : Bool :=
  s.dma[c].isNone && s.on (fDmaCtrl_EN c) && s.rd (fDmaHead_INDEX c) != s.rd (fDmaTail_INDEX c) &&
    s.power.st == .active

/-- Whether a channel has a chunk to move. -/
def State.dmaMoves (s : State) (c : Fin 16) : Bool :=
  !bitOf s.dmaStalled.toNat c && (s.dmaWaits c || match s.dma[c] with | some r => !r.finished | none => false)

/-- The channel that the round robin serves next. -/
def State.dmaTurn (s : State) : Option (Fin 16) :=
  ((List.range 16).map fun i => (Fin.ofNat 16 (s.dmaNext + i) : Fin 16)).find? fun (c : Fin 16) => s.dmaMoves c

/-- A channel's progress replaced. -/
def State.setDma (s : State) (c : Fin 16) (r : Option DmaRun) : State := { s with dma := s.dma.set c r }

/-- A descriptor begins; one that is not well formed is finished with BADDESC at once. -/
def State.dmaBegin (s : State) (c : Fin 16) (d : DmaDesc) : State :=
  if s.dmaWaits c then
    if s.badDesc c d then s.setDma c (some ⟨d, 0, 0, 5, false, true⟩) else s.setDma c (some ⟨d, 0, 0, 0, false, false⟩)
  else s

/-- The first address and the length of a transfer's next chunk: up to a 4 KiB boundary (R493). -/
def DmaRun.chunk (r : DmaRun) : Nat × Nat :=
  let m := r.desc.maddr.toNat + r.moved
  (m, min (4096 - m % 4096) (r.desc.len.toNat - r.moved))

/-- One chunk of a descriptor: checked against the region map, then moved. AER of the channel's function records what the host
answers wrongly (R494). -/
def State.dmaMove (s : State) (c : Fin 16) (r : DmaRun) (data : List Byte) (how : DmaEnd) : State :=
  let m := r.chunk.1
  let len := r.chunk.2
  let stop := fun (s : State) (code : Nat) => s.setDma c (some { r with code := code, finished := true })
  let all := r.moved + len == r.desc.len.toNat
  let done := fun (s : State) => s.setDma c (some { r with
    moved := r.moved + len, chunks := r.chunks + 1, finished := all, sealDue := all && dSeal r.desc })
  if dDir r.desc then
    if !s.mayRead (.dma c) m len then stop (s.hbmRefuse (.dma c) m) 1
    else match how with
      | .ecc => stop s 2
      | .hostErr => stop (s.emit (.aerHost (s.ownerDma c))) 4
      | .ok =>
        let x := s.readBytes m len
        done (x.2.emit (.hostWrite (r.desc.haddr.toNat + r.moved) x.1))
  else if !s.mayWrite (.dma c) m len then stop (s.hbmRefuse (.dma c) m) 1
  else if how = .hostErr then stop (s.emit (.aerHost (s.ownerDma c))) 4
  else done (s.store m ((List.range len).map fun i => data.getD i 0))

/-- DMA_CHUNK: the channel whose turn it is begins its next descriptor where it has none in progress, and moves a chunk where the
DRC serves it: after what waits and may be served, not while a port holds panic, nor in a forced burst of its pseudo-channel
(spec/01 R53, spec/10 R364, R366, R369, R372). -/
def execDmaChunk (c : Fin 16) (desc : DmaDesc) (data : List Byte) (end_ : DmaEnd) (s : State) :
    Host.Outcome State Fault Refusal :=
  .next <|
    let s := s.drcCycle
    if s.dmaTurn ≠ some c || !s.memServed then s
    else
      let s := { s.dmaBegin c desc with dmaNext := (c + 1) % 16 }
      match s.dma[c] with
      | some r =>
        if r.finished || !s.bulkServed (.dma c) r.chunk.1 r.chunk.2 then s
        else (s.tookTurns (.dma c) r.chunk.1 r.chunk.2).dmaMove c r data end_
      | none => s

/-- DMA_SEAL: the seal is presented once the transfer is committed; a full queue holds it (spec/03 R107). -/
def execDmaSeal (c : Fin 16) (s : State) : Host.Outcome State Fault Refusal :=
  .next <| match s.dma[c] with
    | none => s
    | some r =>
      if r.finished && r.sealDue && !bitOf s.dmaStalled.toNat c then
        let x := s.dmaSeal (dSlice r.desc) (dSeg r.desc) r.desc.token
        if x.2 then x.1.setDma c (some { r with sealDue := false }) else x.1
      else s

/-- The STATUS word of the descriptor at HEAD written to the host, and HEAD advanced. -/
def State.dmaStatus (s : State) (c : Fin 16) (chunks code : Nat) : State :=
  let head := s.rd (fDmaHead_INDEX c)
  let a := s.rd (fDmaRing_BASE c) * 4096 + 32 * head + 0x1C
  let s := s.emit (.hostWrite a (leBytes 4 (2 ^ 31 + chunks % 2 ^ 19 * 16 + code)))
  s.wr (fDmaHead_INDEX c) ((head + 1) % s.ringSize c)

/-- DMA_STATUS_WRITE. -/
def execDmaStatusWrite (c : Fin 16) (s : State) : Host.Outcome State Fault Refusal :=
  .next <| match s.dma[c] with
    | none => s
    | some r =>
      if r.finished && !r.sealDue && !bitOf s.dmaStalled.toNat c then
        let s := ((s.dmaStatus c r.chunks r.code).wr (fDmaStat_CODE c) r.code).setDma c none
        if dIrq r.desc then s.msix (s.ownerDma c) (16 + c) else s
      else s

/-- ABORTED written for each descriptor from HEAD up to TAIL. -/
def State.dmaAbortFrom (s : State) (c : Fin 16) : Nat → State
  | 0 => s
  | k + 1 =>
    if s.rd (fDmaHead_INDEX c) = s.rd (fDmaTail_INDEX c) then s else (s.dmaStatus c 0 3).dmaAbortFrom c k

/-- A channel at a partition reset (R495): the descriptor in progress and every one up to TAIL end with ABORTED, then the
channel's registers return to their reset values. -/
def State.dmaCancel (s : State) (c : Fin 16) : State :=
  let s := match s.dma[c] with | some r => s.dmaStatus c r.chunks 3 | none => s
  let s := s.dmaAbortFrom c 4096
  let s := { s.setDma c none with dmaStalled := s.dmaStalled &&& ~~~BitVec.ofNat 32 (2 ^ c.val) }
  s.resetRegs (inSpan (aDmaRing c) 0x20)

/-- A write of TAIL: a value outside the ring is not accepted (R22). -/
def State.opDmaTail (s : State) (ini : Initiator) (c : Fin 16) (v : Nat) : State :=
  let i := bitsOf v 0 12
  if i < s.ringSize c then s.wr (fDmaTail_INDEX c) i else (s.wr (fDmaTail_INDEX c) 0).accErr ini .rsvd (aDmaTail c)

/-! ## Partitions (R488, R489) -/

/-- A mailbox command as a partition reset takes it: one that waits behind another keeps its request. -/
def State.orphan (s : State) (p : Fin 8) (o : Nat × Nat) : Orphan :=
  ⟨o.1, o.2, if s.mbox[p].orphans.isEmpty then none else some ((List.range (3 + ceilDiv o.2 4)).map fun i => s.reg (aMgReq p i))⟩

/-- A partition reset. A mailbox command in progress leaves its mailbox idle and runs to its end in the controller. -/
def State.partReset (s : State) (p : Fin 8) : State :=
  let sls := slices.filter fun (n : Fin 8) => s.ownerSl n == p
  let scs := scans.filter fun (u : Fin 4) => s.ownerScan u == p
  let s := s.each ((List.finRange 16).filter fun (c : Fin 16) => s.ownerDma c == p) fun c s => s.dmaCancel c
  let s := s.each sls fun n s => s.sliceReset n
  let s := s.each scs fun u s => s.scanStop u
  let s := s.dropTasks fun t => t.by_ == .pcie p
  let s := { s with mbox := s.mbox.set p ⟨none, s.mbox[p].orphans ++ (s.mbox[p].op.map (s.orphan p)).toList⟩ }
  s.resetRegs fun a => inSpan (aMgReq p 0) 0x2008 a || inSpan (aAccerrx p) 0x10 a

/-- Whether the function of a partition is present: a virtual function only with SR-IOV (spec/00 R33). -/
def State.hasFunction (s : State) (p : Fin 8) : Bool := p == 0 || s.hasCap 10

/-- FLR. -/
def execFlr (p : Fin 8) (s : State) : Host.Outcome State Fault Refusal := .next <| if s.hasFunction p then s.partReset p else s

/-- PCIE_LINK_DOWN: no burst ends; the standard's own handling of a link that is down lies outside the registers. -/
def execPcieLinkDown (s : State) : Host.Outcome State Fault Refusal := .next s

/-- A write of PRST. -/
def State.opPrst (s : State) (ini : Initiator) (v : Nat) : State :=
  if !pfOrMgmt ini then s.accErr ini .unmapped aPrst
  else s.each ((List.finRange 8).filter fun (p : Fin 8) => bitOf v p && s.hasFunction p) fun p s => s.partReset p

/-- Whether every gang and every SCAN unit lies within one partition. -/
def State.partsWhole (s : State) : Bool :=
  (slices.all fun n => (s.gang n).all fun m => s.ownerSl m == s.ownerSl n) &&
    scans.all fun u => (s.attached u).all fun n => s.ownerSl n == s.ownerScan u

/-- A write of PART[p]; PART[0] is read-only, and a function that is not present owns nothing. -/
def State.opPart (s : State) (ini : Initiator) (p : Fin 8) (v : DWord) : State :=
  if !pfOrMgmt ini then s.accErr ini .unmapped (aPart p)
  else if p = 0 || !s.hasFunction p then s
  else
    let new := v.toNat % 2 ^ 32
    let old := (s.reg (aPart p)).toNat
    let changed := fun i => bitOf new i != bitOf old i
    if (slices.any fun n => changed n && !s.sl[n].isIdle) || (scans.any fun u => changed (8 + u) && s.scan[u].enabled) ||
        ((List.finRange 16).any fun c => changed (16 + c) && s.dma[c].isSome) then s.accErr ini .busy (aPart p)
    else
      let taken := (List.finRange 8).any fun q => q != p && q != 0 &&
        ((s.reg (aPart q)).toNat &&& (new &&& 0xFFFF0FFF)) != 0
      let t := s.writeReg ini .part [p] .lo v
      if taken || !t.partsWhole then s.accErr ini .overlap (aPart p) else t

/-! ## Mailboxes (R499 to R501) -/

/-- Whether a command's code is one of R499, and whether partition p may give it. -/
def mboxKnown (op : Nat) : Bool := [1, 2, 3, 0x10, 0x11, 0x20, 0x21, 0x22, 0x23, 0x24].contains op
def mboxAllowed (op : Nat) (p : Fin 8) : Bool := op ≤ 2 || p == 0

/-- Word i of the request. -/
def State.req (s : State) (p : Fin 8) (i : Nat) : Nat := (s.reg (aMgReq p i)).toNat

/-- The port that a request for an index leaves by; none where there is no route. -/
def State.remotePort (s : State) (dst : BitVec 12) : Option (Fin 4) :=
  if s.ownIndex dst then none
  else match s.downFor dst <|> s.enum.up with
    | some q => if s.carries q && s.trusted q && (s.port[q].st == .active || s.port[q].st == .recover) then some q else none
    | none => none

/-- REMOTE_RD and REMOTE_WR of a request, by its words: the frame leaves, or the command ends with NOROUTE at once. -/
def State.sendRemote (s : State) (req : Nat → Nat) (wr : Bool) : State :=
  let dst := BitVec.ofNat 12 (req 0)
  let off := req 1 % 2 ^ 26 / 4 * 4
  let tag := s.remoteTag
  match s.remotePort dst with
  | none => { s with remote := some ⟨dst, tag, off, some (5, 0)⟩ }
  | some q =>
    let load := if wr then Payload.regwr tag off (BitVec.ofNat 32 (req 2)) else .regrd tag off
    { s with remote := some ⟨dst, tag, off, none⟩, remoteTag := tag + 1 }.offer q (s.frame dst false false load)

/-- Bytes of a firmware slot. -/
def slotBytes : Nat := 0x1000000

/-- The slot that is not running, and its first byte. -/
def Slots.other (l : Slots) : Bool := match l.run with | some true => false | _ => true
def Slots.otherBase (l : Slots) : Nat := if l.other then slotBytes else 0

/-- The slots as an update ends: an image that passes is the trial one; one that fails takes its mark, and is no trial image
(R501). -/
def Slots.updated (l : Slots) (ok : Bool) (mark : Nat) : Slots :=
  { l with
    writing := none, written := 0, invalid := l.invalid.set (slotIx l.other) mark
    trial := if ok then some l.other else if l.trial == some l.other then none else l.trial
    bootedOnce := l.bootedOnce && !ok && l.trial != some l.other }

/-- Bytes of the request after its first word. -/
def reqData (req : Nat → Nat) (len : Nat) : List Byte :=
  ((List.range (ceilDiv len 4)).flatMap fun i => leBytes 4 (req (1 + i))).take len

/-- What a command does as it is taken, by the words of its request: the request to another device, the writes to the slot that is
not running. -/
def State.mboxBegin (s : State) (req : Nat → Nat) (op len : Nat) : State :=
  match op with
  | 0x10 => s.sendRemote req false
  | 0x11 => s.sendRemote req true
  | 0x20 =>
    let size := req 0
    if size = 0 || slotBytes < size then { s with slots := { s.slots with writing := none } }
    else { s with slots := { s.slots with writing := some size, written := 0 } }
  | 0x21 =>
    match s.slots.writing with
    | none => s
    | some size =>
      let off := req 0
      if len = 0 || size < off + len then s
      else { s with slots := { s.slots with
        written := s.slots.written + len, nor := Memory.putAll s.slots.nor (s.slots.otherBase + off) (reqData req len) } }
  | _ => s

/-- The controller takes the next command of a mailbox: those that a reset took from it first, each with its request (R489). -/
def State.mboxTake (s : State) (p : Fin 8) : State :=
  let begin := fun (s : State) (req : Nat → Nat) (op len : Nat) =>
    if mboxKnown op && mboxAllowed op p then s.mboxBegin req op len else s
  match s.mbox[p] with
  | ⟨some (op, len), []⟩ => begin s (s.req p) op len
  | ⟨o, ⟨op, len, some w⟩ :: l⟩ => begin { s with mbox := s.mbox.set p ⟨o, ⟨op, len, none⟩ :: l⟩ } (fun i => (w.getD i 0).toNat) op len
  | _ => s

/-- A write of CMD (R499): dropped while the mailbox is busy; a length that R514 does not list is not accepted (assumption 25). -/
def State.opMgCmd (s : State) (ini : Initiator) (p : Fin 8) (v : Nat) : State :=
  if s.mbox[p].op.isSome then s.accErr ini .busy (aMgCmd p)
  else if 4064 < bitsOf v 0 12 then s.accErr ini .rsvd (aMgCmd p)
  else
    let b := s.mbox[p]
    ({ s with mbox := s.mbox.set p { b with op := some (bitsOf v 24 8, bitsOf v 0 12) } }.wr (fMgStat_BUSY p) 1).mboxTake p

/-- The words of a fault-log record: the Hamper record, the PHC time, zeros up to 64 bytes. -/
def logWords (e : HRec × PhcTime) : List Word :=
  e.1.words ++ [e.2.sec.setWidth 32, (e.2.sec >>> 32).setWidth 32, BitVec.ofNat 32 e.2.ns, BitVec.ofNat 32 e.2.frac, 0, 0, 0, 0]

/-- Records of the fault log from a first one on. -/
def State.logRange (s : State) (first count : Nat) : List Word :=
  ((s.hamper.faultLog.drop first).take count).flatMap logWords

/-- GET_INFO: the firmware's own version as it comes, the SVN of the running image, the running slot, the fuse counter. -/
def State.infoWords (s : State) (info : List Word) : List Word :=
  [info.getD 0 0, BitVec.ofNat 32 s.slots.runSvn, match s.slots.run with | some false => 1 | some true => 2 | none => 0, BitVec.ofNat 32 s.svn]

/-- The 17 sensor words. -/
def State.sensorWords (s : State) : List Word := (List.range 17).map fun i => s.reg (aSensor i)

/-- A command's status code, response words and effect as the controller answers it. -/
def State.mboxAnswer (s : State) (p : Fin 8) (op len : Nat) (check : ImageCheck) (info : List Word) :
    Nat × List Word × State :=
  if !mboxKnown op then (2, [], s)
  else if !mboxAllowed op p then (1, [], s)
  else match op with
    | 1 => (0, s.infoWords info, s)
    | 2 => (0, s.sensorWords, s)
    | 3 => if 1 ≤ s.req p 1 && s.req p 1 ≤ 63 then (0, s.logRange (s.req p 0) (s.req p 1), s) else (3, [], s)
    | 0x10 | 0x11 =>
      match s.remote with
      | some ⟨_, _, _, some (code, data)⟩ => (code, if op = 0x10 then [BitVec.ofNat 32 code, data] else [BitVec.ofNat 32 code],
          { s with remote := none })
      | _ => (4, [4], s)
    | 0x20 => (if s.slots.writing.isSome then 0 else 3, [], s)
    | 0x21 =>
      match s.slots.writing with
      | some size => (if len = 0 || size < s.req p 0 + len then 3 else 0, [], s)
      | none => (3, [], s)
    | 0x22 =>
      if s.slots.writing.isNone then (3, [], s)
      else
        let end_ := fun (ok : Bool) (mark : Nat) => { s with slots := s.slots.updated ok mark }
        match check with
        | .signed v => if v < s.svn then (8, [], end_ false 3) else (0, [], end_ true 0)
        | .unsigned => (9, [], end_ false 2)
        | .unread => (3, [], end_ false s.slots.invalid[slotIx s.slots.other])
    | 0x23 =>
      if s.slots.run.isSome && s.slots.run == s.slots.trial then
        (0, [], { s with slots := { s.slots with confirmed := s.slots.run.getD false, trial := none, bootedOnce := false } })
      else (3, [], s)
    | _ =>
      if s.slots.run == some s.slots.confirmed && s.slots.trial != s.slots.run then
        let v := min 64 (max s.svn s.slots.runSvn)
        (0, [BitVec.ofNat 32 v], { s with slots := { s.slots with svn := some v } })
      else (3, [], s)

/-- Whether the controller can answer: a remote request waits for its end. -/
def State.mboxReady (s : State) (p : Fin 8) (op : Nat) : Bool :=
  (op != 0x10 && op != 0x11) || p != 0 || match s.remote with | some r => r.res.isSome | none => true

/-- A command that a partition reset took from its mailbox ends: its effect stands, its response is discarded (R489). -/
def State.mboxOrphan (s : State) (p : Fin 8) (op len : Nat) (check : ImageCheck) (info : List Word) : State :=
  let s := (s.mboxAnswer p op len check info).2.2
  { s with mbox := s.mbox.set p { s.mbox[p] with orphans := s.mbox[p].orphans.tail } }.mboxTake p

/-- The response of a command written into its mailbox. -/
def State.mboxRespond (s : State) (p : Fin 8) (op len : Nat) (check : ImageCheck) (info : List Word) : State :=
  let x := s.mboxAnswer p op len check info
  let s := { x.2.2 with mbox := x.2.2.mbox.set p Mbox.reset }
  let s := s.each (List.range x.2.1.length) fun i s => s.setReg (aMgRsp p i) (x.2.1.getD i 0)
  (s.wrs [(fMgStat_CODE p, x.1), (fMgStat_RLEN p, 4 * x.2.1.length), (fMgStat_DONE p, 1), (fMgStat_BUSY p, 0)]).msix p 0

/-- MAILBOX_RESPONSE: the controller ends the oldest command that it has of a mailbox. -/
def execMailboxResponse (p : Fin 8) (check : ImageCheck) (info : List Word) (s : State) : Host.Outcome State Fault Refusal :=
  .next <| match s.mbox[p].orphans, s.mbox[p].op with
    | ⟨op, len, _⟩ :: _, _ => if s.isReady .mgmt && s.mboxReady p op then s.mboxOrphan p op len check info else s
    | [], some (op, len) => if s.isReady .mgmt && s.mboxReady p op then s.mboxRespond p op len check info else s
    | [], none => s

/-- REMOTE_TIMEOUT: no REGRSP came within 100 µs. -/
def execRemoteTimeout (s : State) : Host.Outcome State Fault Refusal :=
  .next { s with remote := s.remote.map fun r => if r.res.isNone then { r with res := some (4, 0) } else r }

/-- REGRSP (spec/12 R443): taken where it answers the outstanding request, else discarded or passed on. -/
def execRegrsp (p : Fin 4) (hdr : Hdr) (tag : BitVec 6) (off : Nat) (status : BitVec 2) (data : Word) (s : State) :
    Host.Outcome State Fault Refusal :=
  .next <| s.onFrame p hdr .reg fun s =>
    s.received p hdr false (.regrsp tag off status data) fun s =>
      let code := match status.toNat with | 0 => 0 | 1 => 6 | _ => 7
      { s with remote := s.remote.map fun r =>
          if r.res.isNone && r.dst == hdr.src && r.tag == tag && r.off == off then { r with res := some (code, data) } else r }

end Sys2Proof.Machine
end

