-- ==== Sys2Proof/Machine/Mgmt.lean ====
section
/-! DEFINITION. Sensors, the SMBus sideband, the safety interlock, the management Ethernet ports (spec/14 R497, R498, R502 to
R508, R512, R513; spec/18 R615). -/

namespace Sys2Proof.Machine

open Sys2Proof

/-! ## Sensors (R497) -/

/-- Whether a sensor reads a temperature: signed, with a junction limit. -/
def isTemp (i : Nat) : Bool := decide (i ≤ 4) || decide (9 ≤ i)

/-- The junction limit of a die in 1/16 °C: 105 °C for the logic die, 110 °C for the PE dies. -/
def junctionLimit (i : Nat) : Int := if i ≤ 4 then 1680 else 1760

/-- A reading as a number of its unit. -/
def readingOf (i : Nat) (r : Nat) : Int := if isTemp i then signed r 16 else (r : Int)

/-- Whether a reading has reached its warning limit. -/
def State.reached (s : State) (i : Nat) (r : Nat) : Bool :=
  decide (readingOf i (s.rd (fSenswarn_LIMIT i)) ≤ readingOf i r)

/-- The reading of a measured quantity, in 2^-16 of the sensor's unit: the nearest unit, an exact half up, within the field. -/
def sensorReading (i : Nat) (m : Int) : BitVec 16 :=
  let u := (m + 32768) / 65536
  BitVec.ofInt 16 (if isTemp i then max (-32768) (min u 32767) else max 0 (min u 65535))

/-- One reading written: its warning as it reaches its limit. -/
def State.sample (s : State) (e : Fin 17 × BitVec 16) : State :=
  let t := s.wr (fSensor_VALUE e.1) e.2.toNat
  if s.reached e.1 e.2.toNat then t.wr (fSensor_WARN e.1) 1 else t

/-- What a reading reports: the warning as it is reached, a junction above its limit. -/
def State.sampleErrors (s : State) (e : Fin 17 × BitVec 16) : List ErrUnit :=
  let was := s.reached e.1 (s.rd (fSensor_VALUE e.1)) && s.on (fSensor_WARN e.1)
  (if s.reached e.1 e.2.toNat && !was then [.sensor e.1] else []) ++
    if isTemp e.1 && decide (junctionLimit e.1 < readingOf e.1 e.2.toNat) then [.junction e.1] else []

/-- Errors of one cycle in the order of their records: by ascending source number (spec/16 R541). -/
def addError (u : ErrUnit) : List ErrUnit → List ErrUnit
  | [] => [u]
  | v :: l => if Config.sourceOf u ≤ Config.sourceOf v then u :: v :: l else v :: addError u l

/-- Readings taken in one cycle: the values, the records of what they report, the fatal fault of a junction, Press for the slices' own
sensors. -/
def State.samples (s : State) (l : List (Fin 17 × BitVec 16)) : State :=
  let errs := l.flatMap s.sampleErrors
  let s := (s.each l fun e s => s.sample e).each (errs.foldr addError []) fun u s => s.reportUnit u 0
  let s := if errs.any fun u => match u with | .junction _ => true | _ => false then s.fatalNow .none else s
  s.each (l.filter fun e => 9 ≤ e.1.val && s.isReady .press) fun e s => s.pressJudge (Fin.ofNat 8 (e.1.val - 9)) e.2

/-- SENSOR_SAMPLE: the measured quantities in order, while the management controller samples (spec/17 R575); the PE dies' own
sensors cannot be reached while these are unpowered (spec/18 R604). -/
def execSensorSample (measured : List Int) (s : State) : Host.Outcome State Fault Refusal :=
  .next <|
    if !s.awake || !s.isReady .mgmt then s
    else
      let pe := s.pePowered
      s.samples ((List.finRange 17).filterMap fun i =>
        if i.val < 9 || pe then (measured[i.val]?).map fun m => (i, sensorReading i m) else none)

/-- A write of SENSOR[i]: WARN is not cleared while the reading is at or above the limit. -/
def State.opSensor (s : State) (ini : Initiator) (i : Nat) (v : DWord) : State :=
  if s.reached i (s.rd (fSensor_VALUE i)) then s else s.writeReg ini .sensor [i] .lo v

/-- Whether ALERT_N is asserted (R498). -/
def State.alert (s : State) : Bool :=
  s.power.fatal || s.on fIlk_FAULT || (List.range 17).any fun i => s.on (fSensor_WARN i)

/-! ## The SMBus sideband (R506) -/

/-- Whether AON serves the sideband, and a write that has its effect: its PEC right, its byte 0x5A. -/
def State.smbTakes (s : State) (data : Byte) (pec : Bool) : Bool := s.power.vaon && pec && data == 0x5A

/-- SAFE_PINS. -/
def execSafePins (data : Byte) (pec : Bool) (s : State) : Host.Outcome State Fault Refusal :=
  .next <|
    if s.smbTakes data pec then
      (s.modPower fun p => { p with sbSafe := true }).each slices fun n s => s.finishSafe n .safeState .safeState
    else s

/-- SAFE_RELEASE. -/
def execSafeRelease (data : Byte) (pec : Bool) (s : State) : Host.Outcome State Fault Refusal :=
  .next <| if s.smbTakes data pec then s.modPower fun p => { p with sbSafe := false } else s

/-- What the target answers to a read whose PEC is right. -/
def State.smbRead (s : State) (pec : Bool) (bytes : List Byte) : State :=
  if s.power.vaon && pec then s.emit (.smbus bytes) else s

/-- READ_HAMPER_LOG. -/
def execReadHamperLog (pec : Bool) (s : State) : Host.Outcome State Fault Refusal :=
  let h := s.hamper
  .next (s.smbRead pec (wordBytes (recWords h.first ++ recWords h.last ++ recWords h.fatal1 ++ recWords h.fatal2)))

/-- The 13 temperature sensors. -/
def tempSensors : List Nat := [0, 1, 2, 3, 4, 9, 10, 11, 12, 13, 14, 15, 16]

/-- READ_TEMPS; `reach` tells which sensors can be reached. -/
def execReadTemps (pec : Bool) (age : Nat) (reach : BitVec 13) (s : State) : Host.Outcome State Fault Refusal :=
  let temps := (List.range 13).flatMap fun k =>
    leBytes 2 (if bitOf reach.toNat k then s.rd (fSensor_VALUE (tempSensors.getD k 0)) else 0x8000)
  .next (s.smbRead pec (temps ++ [BitVec.ofNat 8 (min age 255)]))

/-- POWER_DOWN_PE (spec/17 R583): in STANDBY it waits for the exit. -/
def execPowerDownPe (data : Byte) (pec : Bool) (s : State) : Host.Outcome State Fault Refusal :=
  .next <|
    if !s.smbTakes data pec then s
    else if s.power.st = .standby then s.modPower fun p => { p with peAsk := true }
    else
      let s := s.each slices fun n s => (s.finishSafe n .safeState .safeState).setReady (.sl n) false
      s.modPower fun p => { p with peOff := true }

/-- SMBus codes 0x01 to 0x03, through the management controller. -/
def execSmbGetInfo (pec : Bool) (info : List Word) (s : State) : Host.Outcome State Fault Refusal :=
  .next <| if s.isReady .mgmt then s.smbRead pec (wordBytes (s.infoWords info)) else s
def execSmbReadSensors (pec : Bool) (s : State) : Host.Outcome State Fault Refusal :=
  .next <| if s.isReady .mgmt then s.smbRead pec (wordBytes s.sensorWords) else s
def execSmbReadLog (pec : Bool) (first count : Nat) (s : State) : Host.Outcome State Fault Refusal :=
  .next <| if s.isReady .mgmt then s.smbRead pec (wordBytes (s.logRange first (min count 63))) else s

/-- ALERT_RESPONSE (R498): answered with the sideband address while ALERT_N is asserted. -/
def execAlertResponse (s : State) : Host.Outcome State Fault Refusal :=
  .next <| if s.power.vaon && s.alert then s.emit (.smbus [Config.smbAddr.setWidth 8]) else s

/-! ## The safety interlock (R507, R508, R513) -/

/-- The combined state: 0 CLOSED, 1 OPEN, 2 DISAGREE. -/
def ilkState (a b : Bool) : Nat := match a, b with | true, false => 0 | false, true => 1 | _, _ => 2

/-- INTERLOCK_CHANGE: OPEN takes every slice to the pin safe state and holds it; CLOSED releases it unless a fault is
latched. AON samples the inputs while VAON is applied. -/
def execInterlockChange (a b : Bool) (s : State) : Host.Outcome State Fault Refusal :=
  .next <|
    if !s.power.vaon then s
    else
    let was := ilkState s.power.ilkA s.power.ilkB
    let s := s.modPower fun p => { p with ilkA := a, ilkB := b }
    match ilkState a b with
    | 0 => if s.on fIlk_FAULT then s else s.modPower fun p => { p with ilkHold := false }
    | 1 =>
      let s := s.modPower fun p => { p with ilkHold := true }
      if was = 1 then s else s.each slices fun n s => s.finishSafe n .safeState .safeState
    | _ => if was = 1 then s.modPower fun p => { p with ilkHold := true } else s

/-- INTERLOCK_FAULT: DISC ms of DISAGREE have been counted by AON, while VAON is applied. Hamper makes its record where more than AON
runs (assumption 58). -/
def execInterlockFault (s : State) : Host.Outcome State Fault Refusal :=
  .next <|
    if !s.power.vaon || ilkState s.power.ilkA s.power.ilkB ≠ 2 then s
    else
      let s := s.wr fIlk_FAULT 1
      let s := if s.awake then s.reportUnit .interlock 0 else s
      s.each slices fun n s => s.finishSafe n .safeState .safeState

/-- A write of ILK: FAULT is cleared while the state is CLOSED, which releases the pins too. -/
def State.opIlk (s : State) (ini : Initiator) (v : Nat) : State :=
  if !pfOrMgmt ini then s.accErr ini .unmapped aIlk
  else if !bitOf v 31 then s
  else if ilkState s.power.ilkA s.power.ilkB = 0 then (s.wr fIlk_FAULT 0).modPower fun p => { p with ilkHold := false }
  else s.accErr ini .busy aIlk

/-! ## Management Ethernet (R502 to R505) -/

/-- The address of a descriptor of a ring. -/
def ringAddr (base64 index : Nat) : Nat := base64 * 64 + 16 * index

/-- The descriptor of a ring at an address: BUF, LEN, ID, FLAGS. One outside the firmware-private area is refused and reads as
zeros (spec/03 R94, R95). -/
def State.ringGet (s : State) (e : Fin 2) (d : Nat) : (Nat × Nat × Nat × Nat) × State :=
  if s.mayRead (.eth e) d 16 then ((s.num d 8, s.num (d + 8) 2, s.num (d + 10) 2, s.num (d + 12) 4), s)
  else ((0, 0, 0, 0), s.hbmRefuse (.eth e) d)

/-- Bytes of a descriptor written by its port, or refused. -/
def State.ringPut (s : State) (e : Fin 2) (d off : Nat) (bs : List Byte) : State :=
  if s.mayWrite (.eth e) d 16 then s.store (d + off) bs else s.hbmRefuse (.eth e) d

/-- A stamp less a latency in ps, rounded down to the PHC's 2^-16 ns; not below the PHC's zero (spec/13 R472, assumption 61). -/
def lessPs (t : PhcTime) (ps : Nat) : PhcTime :=
  let all := (((t.sec.toNat * 1000000000 + t.ns) * 65536 + t.frac) * 1000 - ps * 65536) / 1000
  ⟨BitVec.ofNat 64 (all / 65536 / 1000000000), all / 65536 % 1000000000, all % 65536⟩

/-- The stamp of a frame: the time at the stamp point less the latency of its direction and the frame's gearbox position (spec/13 R472). -/
def State.stampAt (s : State) (r : RawStamp) (lat : Fld) : PhcTime := lessPs r.time (s.rd lat + r.gearbox)

/-- Two bytes of a frame, most significant first. -/
def be16 (b : List Byte) (i : Nat) : Nat := (b.getD i 0).toNat * 256 + (b.getD (i + 1) 0).toNat

/-- Whether an IPv6 packet carries UDP to port 319, in its first fragment, behind the extension headers from a place in the frame on
(assumption 61): hop by hop, routing, destination options, authentication, fragment. -/
def udp319 (b : List Byte) : Nat → Nat → Nat → Bool
  | 0, _, _ => false
  | k + 1, hdr, at_ =>
    let next := (b.getD at_ 0).toNat
    let len := (b.getD (at_ + 1) 0).toNat
    if hdr = 17 then be16 b (at_ + 2) == 319
    else if hdr = 0 ∨ hdr = 43 ∨ hdr = 60 then udp319 b k next (at_ + 8 * (len + 1))
    else if hdr = 51 then udp319 b k next (at_ + 4 * (len + 2))
    else if hdr = 44 ∧ be16 b (at_ + 2) / 8 = 0 then udp319 b k next (at_ + 8)
    else false

/-- Whether R472 stamps a received frame: EtherType 0x88F7, or UDP to port 319 over IPv4, in the first fragment, or IPv6. -/
def ptpEvent (b : List Byte) : Bool :=
  match be16 b 12 with
  | 0x88F7 => true
  | 0x0800 => (b.getD 23 0) == 17 && be16 b 20 % 8192 == 0 && be16 b (14 + 4 * ((b.getD 14 0).toNat % 16) + 2) == 319
  | 0x86DD => udp319 b b.length (b.getD 20 0).toNat 54
  | _ => false

/-- Whether the requests of a port for a descriptor and for its frame are served (spec/01 R53, spec/10 R366, R369, R372). -/
def State.ethServed (s : State) (e : Fin 2) (d buf len : Nat) : Bool :=
  s.memServed && s.bulkServed (.eth e) d 16 && s.bulkServed (.eth e) buf len

/-- ETH_TX_FRAME: the descriptor at HEAD is processed. -/
def execEthTxFrame (e : Fin 2) (stamp : RawStamp) (ecc : Bool) (s : State) : Host.Outcome State Fault Refusal :=
  .next <|
    let s := s.drcCycle
    let head := s.rd (fEtTxhead_INDEX e)
    let d := ringAddr (s.rd (fEtTxring_BASE e)) head
    let x := s.ringGet e d
    let buf := x.1.1
    let len := x.1.2.1
    let id := x.1.2.2.1
    let flags := x.1.2.2.2
    if !s.on (fEtCtrl_EN e) || !s.ethLink[e] || head == s.rd (fEtTxtail_INDEX e) || !s.ethServed e d buf (min len 2032) then s
    else
      let s := (x.2.tookTurns (.eth e) d 16).tookTurns (.eth e) buf (min len 2032)
      let bad := ecc || buf % 8 != 0 || len < 60 || 2032 < len || !inPrivate buf len
      let s := s.ringPut e d 12 (leBytes 4 (flags % 2 ^ 30 + 2 ^ 31 + if bad then 2 ^ 30 else 0))
      let s := s.wr (fEtTxhead_INDEX e) ((head + 1) % 2 ^ s.rd (fEtTxsz_LOG2 e))
      if bad then s
      else
        let y := s.readBytes buf len
        let s := y.2.emit (.ethFrame e y.1)
        if bitOf flags 0 then s.pushStamp ⟨BitVec.ofNat 16 id, e, s.stampAt stamp (fTmEthlat_TX e)⟩ else s

/-- The stamp header of a received frame. -/
def stampHeader (t : Option PhcTime) : List Byte :=
  match t with
  | some t => leBytes 8 t.sec.toNat ++ leBytes 4 t.ns ++ leBytes 2 t.frac ++ [0, 0]
  | none => List.replicate 16 0

/-- A frame that finds no free descriptor: dropped and counted. -/
def State.ethNoBuf (s : State) (e : Fin 2) : State := (s.addSat (fEtRxdrop_COUNT e) 1).wr (fEtStat_NOBUF e) 1

/-- The address of a port's next receive descriptor. -/
def State.rxDesc (s : State) (e : Fin 2) : Nat := ringAddr (s.rd (fEtRxring_BASE e)) (s.rd (fEtRxhead_INDEX e))

/-- A frame delivered into the buffer of the descriptor at HEAD, its header first. With no free descriptor it is dropped. -/
def State.ethDeliver (s : State) (f : EthFrame) : State :=
  let e := f.port
  let head := s.rd (fEtRxhead_INDEX e)
  if head == s.rd (fEtRxtail_INDEX e) then s.ethNoBuf e
  else
    let d := s.rxDesc e
    let x := s.ringGet e d
    let buf := x.1.1
    let x := (x.1, (x.2.tookTurns (.eth e) d 16).tookTurns (.eth e) buf (16 + min f.bytes.length 2032))
    let held := f.bytes.take 2032
    let long := decide (2032 < f.bytes.length)
    let flags := b2n f.stamp.isSome + 2 * b2n long + b2n f.ecc * 2 ^ 30 + 2 ^ 31
    let body := stampHeader f.stamp ++ held
    let s := if x.2.mayWrite (.eth e) buf body.length then x.2.store buf body else x.2.hbmRefuse (.eth e) buf
    let s := (s.ringPut e d 8 (leBytes 2 f.bytes.length)).ringPut e d 12 (leBytes 4 flags)
    s.wr (fEtRxhead_INDEX e) ((head + 1) % 2 ^ s.rd (fEtRxsz_LOG2 e))

/-- Whether the stacks serve the delivery of a frame. -/
def State.rxServed (s : State) (f : EthFrame) : Bool :=
  let d := s.rxDesc f.port
  s.ethServed f.port d (s.ringGet f.port d).1.1 (16 + min f.bytes.length 2032)

/-- The oldest frame that waits for the stacks is delivered once they serve its port (spec/01 R53). -/
def State.ethDrain (s : State) : State :=
  match s.ethHeld with
  | [] => s
  | f :: l => if s.rxServed f then { s with ethHeld := l }.ethDeliver f else s

/-- ETH_RX_FRAME: `stamp` is the time at the stamp point, to which R472's latency is subtracted. A frame that arrives while the stacks
do not serve the port waits, and so do those after it (spec/01 R53). A ring that is not processed has no free descriptor for a
frame (assumption 61). -/
def execEthRxFrame (e : Fin 2) (frame : List Byte) (fcs : Bool) (stamp : RawStamp) (ecc : Bool) (s : State) :
    Host.Outcome State Fault Refusal :=
  .next <|
    let s := s.drcCycle
    let f : EthFrame := ⟨e, frame, if ptpEvent frame then some (s.stampAt stamp (fTmEthlat_RX e)) else none, ecc⟩
    if !s.ethLink[e] then s
    else if !fcs then s.addSat (fEtRxerr_COUNT e) 1
    else if !s.on (fEtCtrl_EN e) || s.rd (fEtRxhead_INDEX e) == s.rd (fEtRxtail_INDEX e) then s.ethNoBuf e
    else if s.ethHeld != [] || !s.rxServed f then { s with ethHeld := s.ethHeld ++ [f] }
    else s.ethDeliver f

/-- The frames that wait without those of a port after its first, the one that the port has in hand. -/
def keepCurrent (e : Fin 2) : List EthFrame → List EthFrame
  | [] => []
  | f :: l => if f.port = e then f :: l.filter fun g => g.port != e else f :: keepCurrent e l

/-- A write of CTRL: EN = 0 stops each ring after its current frame; frames behind it find no descriptor (assumption 61). -/
def State.opEthCtrl (s : State) (ini : Initiator) (e : Fin 2) (p : Part) (v : DWord) : State :=
  let s := s.writeReg ini .etCtrl [e] p v
  if s.on (fEtCtrl_EN e) then s
  else
    let left := keepCurrent e s.ethHeld
    let gone := s.ethHeld.length - left.length
    { s with ethHeld := left }.each (List.range gone) fun _ s => s.ethNoBuf e

/-- The management Ethernet ports in order. -/
def ethPorts : List (Fin 2) := List.finRange 2

/-- The READY bit of a port whose link is up, set where MGMT lets it (spec/17 R585). -/
def State.ethReady (s : State) (e : Fin 2) : State := if s.ethLink[e] && s.isReady .mgmt then s.setReady (.eth e) true else s

/-- ETH_LINK_UP: of a port that the fuses name (spec/00 R33). -/
def execEthLinkUp (e : Fin 2) (s : State) : Host.Outcome State Fault Refusal :=
  .next <| if s.awake && s.hasCap (8 + e) then { s with ethLink := s.ethLink.set e true }.ethReady e else s

/-- ETH_LINK_DOWN. -/
def execEthLinkDown (e : Fin 2) (s : State) : Host.Outcome State Fault Refusal := .next (s.ethDown e false)

/-- A write of TXRING or RXRING: an address outside the firmware-private area is not accepted, and BASE takes its reset
value. -/
def State.opEthRing (s : State) (ini : Initiator) (r : Reg) (e : Fin 2) (p : Part) (v : DWord) : State :=
  if s.on (fEtCtrl_EN e) then s.accErr ini .busy (r.at [e] p)
  else
    let s := s.writeReg ini r [e] p v
    let base := bitsOf (s.regVal r [e]).toNat 6 30 * 64
    if inPrivate base 64 then s else (s.setVal r [e] 0).accErr ini .rsvd (r.at [e] p)

/-- A write of TXTAIL or RXTAIL: an index outside the ring is not accepted. -/
def State.opEthTail (s : State) (ini : Initiator) (tail log2 : Fld) (v : Nat) : State :=
  let i := bitsOf v 0 12
  if i < 2 ^ s.rd log2 then s.wr tail i else (s.wr tail 0).accErr ini .rsvd tail.addr

end Sys2Proof.Machine
end

