-- ==== Sys2Proof/Machine/Patch.lean ====
section
/-! DEFINITION. Microcode patches and the control store (spec/15). -/

namespace Sys2Proof.Machine

open Sys2Proof

/-! ## Microwords (R519 to R523) -/

/-- Whether the patch word of index i, in a patch of n words, keeps R519, R520 and R523 and names no patch RAM address
beyond the patch. A routine's COMMIT word is the one that ends it. -/
def microOk (w : BitVec 160) (i n : Nat) : Bool :=
  microListed w && decide (mNext w < 0x2000 + n) && !(mNsel w == 1 && i == 0x3FF)

/-! ## Traps (R526, R527) -/

/-- Whether no two enabled entries hold one ROM address. -/
def trapsDistinct : List Word → Bool
  | [] => true
  | t :: l => !(tEn t && l.any fun u => tEn u && tRom u == tRom t) && trapsDistinct l

/-- Whether the trap entries of a patch of n words with m entries are well formed. An index is below the number of words in a disabled
entry too (R528). -/
def trapsOk (l : List Word) (n m : Nat) : Bool :=
  trapsDistinct l && (l.all fun t => decide (tIndex t < n)) && (l.all fun t => bitsOf t.toNat 29 2 == 0 && bitsOf t.toNat 10 6 == 0) &&
    (l.drop m).all fun t => t == 0

/-! ## Loading (R527 to R529) -/

/-- The parts of a decrypted image. -/
def plainTraps (b : List Byte) : List Word := (List.range 32).map fun i => BitVec.ofNat 32 (leNat ((b.drop (4 * i)).take 4))
def plainWords (b : List Byte) (n : Nat) : List (BitVec 160) :=
  (List.range n).map fun i => BitVec.ofNat 160 (leNat ((b.drop (128 + 20 * i)).take 20))

/-- What the engine finds in an image whose header bytes are h, of `len` bytes: ERR, or the patch. -/
def patchCheck (h : List Byte) (len : Nat) (tag ecc : Bool) (plain : List Byte) : Nat × Option Patch :=
  let byte := fun i => (h.getD i 0).toNat
  let magic := leNat (h.take 4)
  let nwords := byte 0x10 + 256 * byte 0x11
  let nmatch := byte 0x12
  let zeros := byte 7 == 0 && byte 0x13 == 0 && (h.drop 0x20).all fun b => b == 0
  let words := plainWords plain nwords
  let traps := plainTraps plain
  if magic != 0x54485550 || byte 4 + 256 * byte 5 != 1 || nwords == 0 || 1024 < nwords || 32 < nmatch || !zeros ||
      len != 304 + 20 * nwords then (1, none)
  else if byte 6 != Config.stepping.toNat then (2, none)
  else if !tag then (3, none)
  else if !((words.zip (List.range nwords)).all fun e => microOk e.1 e.2 nwords) then (4, none)
  else if !trapsOk traps nwords nmatch then (5, none)
  else if ecc then (6, none)
  else (0, some ⟨words, traps.take nmatch⟩)

/-- UPSTAT and UPID with no patch in force. -/
def State.noPatch (s : State) (st err : Nat) : State :=
  let s := s.wrs [(fUpstat_STATE, st), (fUpstat_ERR, err), (fUpstat_NMATCH, 0), (fUpstat_SVN, 0), (fUpstat_NWORDS, 0),
    (fUpid_PATCHID, 0)]
  (({ s with patch := none, patchLoading := false } : State)).each slices fun n s => s.modSl n fun x => { x with patched := false }

/-- A load that failed: a corrected record, and the slices become ready on ROM alone. -/
def State.patchFail (s : State) (err : Nat) : State :=
  ((s.noPatch 3 err).reportUnit .patch 0).each slices fun n s => s.trySlReady n

/-- A write of UPCMD: taken from the management controller while every SL bit is 0; REJECT wins over LOAD, no patch is in force from
LOAD on, and a patch facility that the fuses do not name does neither (spec/00 R33). -/
def State.opUpcmd (s : State) (ini : Initiator) (v : DWord) : State :=
  if ini ≠ .mgmt || slices.any (fun n => s.isReady (.sl n)) then s.accErr ini .busy aUpcmd
  else
    let s := s.writeReg ini .upcmd [] .lo v
    if !s.hasCap 12 then s
    else if bitOf v.toNat 1 then s.patchFail (s.rd fUpcmd_RCODE)
    else if bitOf v.toNat 0 then { s with patchLoading := true }.wrs [(fUpstat_STATE, 1), (fUpstat_ERR, 0), (fUpid_PATCHID, 0)]
    else s

/-- The end of a load, from the first 64 bytes of the image and what the checks gave. -/
def State.patchEnd (s : State) (head : List Byte) (r : Nat × Option Patch) : State :=
  match r with
  | (err, none) => s.patchFail err
  | (_, some p) =>
    let s := s.wrs [(fUpstat_STATE, 2), (fUpstat_ERR, 0), (fUpstat_NMATCH, p.traps.length),
      (fUpstat_SVN, leNat ((head.drop 12).take 4)), (fUpstat_NWORDS, p.words.length), (fUpid_PATCHID, leNat ((head.drop 8).take 4))]
    let s := { s with patch := some p, patchLoading := false }
    s.each slices fun n s => (s.modSl n fun x => { x with patched := true }).trySlReady n

/-- The parts of an image whose patch has n words (R527): header, IV, ciphertext, tag. -/
def imgHead (b : List Byte) : List Byte := b.take 64
def imgIv (b : List Byte) : List Byte := (b.drop 0x14).take 12
def imgCipher (b : List Byte) (n : Nat) : List Byte := (b.drop 64).take (128 + 20 * n)
def imgTag (b : List Byte) (n : Nat) : List Byte := (b.drop (192 + 20 * n)).take 16

/-- NWORDS of an image. -/
def imgWords (b : List Byte) : Nat := leNat ((b.drop 0x10).take 2)

/-- The image, UPLEN bytes at UPADDR; one outside the firmware-private area is refused by the region map and reads as zeros. -/
def State.patchImage (s : State) : List Byte :=
  let a := s.rd fUpaddr_ADDR
  let len := s.rd fUplen_BYTES
  if s.mayRead .patch a len then (s.readBytes a len).1 else List.replicate len 0

/-- What reading the image leaves. -/
def State.patchRead (s : State) : State :=
  let a := s.rd fUpaddr_ADDR
  let len := s.rd fUplen_BYTES
  if s.mayRead .patch a len then (s.readBytes a len).2 else s.hbmRefuse .patch a

/-- Whether the patch engine's reads are served: class 6 waits for panic and for a forced burst (spec/10 R369, R372). -/
def State.patchServed (s : State) : Bool := s.memServed && s.bulkServed .patch (s.rd fUpaddr_ADDR) (s.rd fUplen_BYTES)

/-- A load ends with what its image holds: decrypted with the device's key, its tag and its content checked. -/
def State.patchLoad (s : State) (ecc : Bool) : State :=
  let b := s.patchImage
  let n := imgWords b
  let tag := Config.patchTag (imgIv b) (imgHead b) (imgCipher b n) == imgTag b n
  s.patchRead.patchEnd (imgHead b) (patchCheck (imgHead b) (s.rd fUplen_BYTES) tag ecc (Config.patchPlain (imgIv b) (imgCipher b n)))

/-- PATCH_LOAD_DONE: `ecc` says that a read met an uncorrectable error. The tag and the plaintext that the command names are what the
device's key gives of the image in memory (assumption 57). -/
def execPatchLoadDone (_tag ecc : Bool) (_plain : List Byte) (s : State) : Host.Outcome State Fault Refusal :=
  .next <|
    let s := s.drcCycle
    if s.patchLoading && s.patchServed then
      (s.tookTurns .patch (s.rd fUpaddr_ADDR) (s.rd fUplen_BYTES)).patchLoad ecc
    else s

/-! ## The control store and sequencer state (R517, R524, R525) -/

/-- CS_CORRECTED_ERROR. -/
def execCsCorrectedError (n : Fin 8) (s : State) : Host.Outcome State Fault Refusal :=
  .next (s.whenAwake fun s => (s.addSat (fSlUcsce_COUNT n) 1).reportUnit (.controlStore n) 0)

/-- CS_UNCORRECTABLE_ERROR: the sequencer stops, and a burst meets a stream underrun; an admission is rejected with FAULT (spec/02
R79). -/
def execCsUncorrectableError (n : Fin 8) (s : State) : Host.Outcome State Fault Refusal :=
  .next <| s.whenAwake fun s =>
    let s := (s.wr (fSlUstat_CSUE n) 1).reportUnit (.storeUe n) 0
    let s := if s.sl[n].isIdle then s else s.containedSl n
    (s.modSl n fun x => { x with csDead := true }).setReady (.sl n) false

/-- SEQ_STATE_CORRECT: CORRECT is due; the engine counts the restart of a routine that it abandons (assumption 57: the entry that the
command names is the engine's own). -/
def execSeqStateCorrect (n : Fin 8) (_entry : BitVec 14) (s : State) : Host.Outcome State Fault Refusal :=
  .next <| s.whenAwake fun s => (s.reportUnit (.seqState n) 0).modSeq n fun q => { q with micro := q.micro.interrupt entCorrect }

end Sys2Proof.Machine
end

