-- ==== Sys2Proof/Machine/PowerStates.lean ====
section
/-! DEFINITION. SLICE_PARK, STANDBY, functions out of service, the stacks coming into service (spec/17 R578 to R588, spec/10
R378). -/

namespace Sys2Proof.Machine

open Sys2Proof

/-! ## SLICE_PARK (R579) -/

/-- Whether a slice may not be parked now. -/
def State.parkBusy (s : State) (n : Fin 8) : Bool :=
  !s.sl[n].isIdle || s.sl[n].adcBusy || s.sl[n].tdc.isSome || s.pressing n || s.tested [1, 2, 3] n

/-- A slice parked: its READY bit clears, and a rinse step on it is abandoned. -/
def State.parkSl (s : State) (n : Fin 8) : State := ((s.abandonRinse [1, 2] n).setReady (.sl n) false)

/-- Both synthesizers of a slice lock again, each as it was (spec/06 R209, R213). -/
def State.recoverSynths (s : State) (n : Fin 8) : State := s.modSl n fun x => { x with synth := x.synth.relock }

/-! ## STANDBY (R580 to R582) -/

/-- Whether a STANDBY request is refused. -/
def State.standbyBusy (s : State) : Bool :=
  (slices.any fun n => !s.sl[n].isIdle || s.pressing n) || (scans.any fun u => s.scan[u].enabled) ||
    s.dma.toList.any Option.isSome || s.bist.full.isSome || s.power.peOff

/-- The READY bits that an exit sets again: HB0, HB1 and PRESS as they were. SL, SCAN and CORES follow from what they need. -/
def savedBits : Word := BitVec.ofNat 32 (2 ^ 4 + 2 ^ 5 + 2 ^ 26)

/-- The request accepted: the READY bits clear in one cycle, the site cores halt in place, running ADC sequences are
abandoned. Bits that an earlier exit has not set again yet stay among those that the next one sets. -/
def State.standbyStart (s : State) : State :=
  let s := s.modPower fun p => { p with
    st := .entering, exitAsked := false, exitStep := 0, saved := (p.saved ||| s.ready) &&& savedBits }
  let s := s.each ([ReadyBit.cores, .press, .hb 0, .hb 1] ++ scans.map .scan ++ slices.map .sl) fun b s => s.setReady b false
  s.each slices fun n s => s.abandonAdc n

/-- A READY bit that waits among the saved ones set again. -/
def State.restoreBit (s : State) (b : ReadyBit) : State :=
  (s.setReady b true).modPower fun p => { p with saved := p.saved &&& ~~~BitVec.ofNat 32 (2 ^ b.pos) }

/-- The stacks that an exit brings back and whose bits MGMT and TROOT let set (R585). -/
def State.stacksBack (s : State) : State :=
  s.each (stackList.filter fun (k : Fin 2) => s.power.saved.getLsbD (4 + k) && s.isReady .mgmt && s.isReady .troot &&
      !s.tested [8] k && !s.on ⟨aSvcoff, 16 + k, 1⟩) fun k s =>
    (s.modDrc fun d => { d with selfRefresh := d.selfRefresh.set k false }).restoreBit (.hb k)

/-- The exit begins: the PE dies are powered, and the stacks leave self-refresh. -/
def State.standbyLeave (s : State) : State :=
  let s := s.stacksBack
  let s := if s.power.peAsk then (s.each slices fun n s => s.takeSafe n).modPower fun p => { p with peOff := true, peAsk := false } else s
  (s.each slices fun n s => s.recoverSynths n).modPower fun p => { p with st := .exiting, exitAsked := false, exitStep := 0 }

/-- STANDBY_ENTERED: the level queues have drained; the switches open, the DACs go to mid-scale with the registers kept, the
PE dies are unpowered, and both stacks are in self-refresh with every row closed and every owed refresh issued. -/
def execStandbyEntered (s : State) : Host.Outcome State Fault Refusal :=
  .next <|
    if s.power.st ≠ .entering || slices.any (fun n => !s.sl[n].lvlq.isEmpty || !s.sl[n].dacPipe.isEmpty) then s
    else
      let s := s.each slices fun n s => s.modSl n fun x => { x with
        lanes := Vector.ofFn fun (k : Fin 32) => { x.lanes[k] with cut := true }, dac := Slice.reset.dac
        ppmu := Vector.replicate 32 PpmuSet.reset, ppmuLimit := 0, ppmuStaged := 0 }
      let s := (s.modDrc Drc.rest).modPower fun p => { p with st := .standby }
      if s.power.exitAsked then s.standbyLeave else s

/-- PE_CORRECTIONS_RELOADED: the next DAC tick can take the codes. -/
def execPeCorrectionsReloaded (s : State) : Host.Outcome State Fault Refusal :=
  .next <| if s.power.st = .exiting && s.power.exitStep = 0 then s.modPower fun p => { p with exitStep := 1 } else s

/-- The bits that an exit sets again at its end, and those that the stacks bring with them. -/
def State.standbyReady (s : State) : State :=
  let s := if s.power.saved.getLsbD ReadyBit.press.pos && s.isReady .mgmt then s.restoreBit .press else s
  let s := s.each (scans.filter fun (u : Fin 4) => s.scanMayReady u) fun u s => s.setReady (.scan u) true
  s.coresReady.each slices fun n s => s.trySlReady n

/-- STANDBY_SWITCH_CLOSE: every switch moves to its connection, that of a lane parked OPEN too (assumption 45), unless the PE dies are
off; the module is ACTIVE. -/
def execStandbySwitchClose (s : State) : Host.Outcome State Fault Refusal :=
  .next <|
    if s.power.st ≠ .exiting || s.power.exitStep ≠ 4 then s
    else
      let s := if s.power.peOff then s
        else s.each slices fun n s => s.modSl n fun x =>
          { x with lanes := Vector.ofFn fun (k : Fin 32) => { x.lanes[k] with cut := false } }
      (s.modPower fun p => { p with st := .active, exitStep := 0 }).standbyReady

/-! ## PWRCTL (R578) -/

/-- A request refused: PWRCTL keeps its value. -/
def State.pwrRefuse (s : State) (ini : Initiator) : State := (s.wr fPwrstat_REFUSED 1).accErr ini .busy aPwrctl

/-- A write of PWRCTL: refused as a whole where one of its requests is. -/
def State.opPwrctl (s : State) (ini : Initiator) (v : DWord) : State :=
  if !pfOrMgmt ini then s.accErr ini .unmapped aPwrctl
  else
    let old := (s.reg aPwrctl).toNat
    let sets := fun (n : Fin 8) => bitOf v.toNat n && !bitOf old n
    let clears := fun (n : Fin 8) => !bitOf v.toNat n && bitOf old n
    let enter := bitOf v.toNat 31 && !bitOf old 31
    let leave := !bitOf v.toNat 31 && bitOf old 31
    if (slices.any fun n => sets n && s.parkBusy n) || (enter && s.standbyBusy) then s.pwrRefuse ini
    else
      let s := s.writeReg ini .pwrctl [] .lo v
      let s := s.each (slices.filter sets) fun n s => s.parkSl n
      let s := s.each (slices.filter clears) fun n s => s.recoverSynths n
      let s := if enter then s.standbyStart else s
      if !leave then s
      else if s.power.st = .standby then s.standbyLeave
      else s.modPower fun p => { p with exitAsked := p.st == .entering }

/-! ## Out of service (R588, R594) -/

/-- A running burst ended as ABORT_NOW, gang-wide, where it is in progress. -/
def State.forceOff (s : State) (n : Fin 8) : State := s.opAbort n true

/-- A SCAN unit forced out: its attached slices end first. -/
def State.forceScan (s : State) (u : Fin 4) : State :=
  if s.scan[u].enabled then (s.each (s.attached u) fun n s => s.forceOff n).scanStop u else s

/-- Whether a newly set bit finds work in flight. -/
def State.svcBusy (s : State) (sets : Nat → Bool) : Bool :=
  (slices.any fun n => sets n && (s.gang n).any fun m => !s.sl[m].isIdle) || (scans.any fun u => sets (8 + u) && s.scan[u].enabled) ||
    ((sets 16 || sets 17) && ((slices.any fun n => !s.sl[n].isIdle) || scans.any fun u => s.scan[u].enabled))

/-- A stack out of service: its bit and every SL and SCAN bit clear, and the stack is in self-refresh with its rows closed and every
owed refresh issued. -/
def State.hbOff (s : State) (k : Fin 2) : State :=
  (s.dropReady (.hb k)).modDrc fun d => { d with
    selfRefresh := d.selfRefresh.set k true, openRows := d.openRows.filter fun e => stackOfPc e.1 != k
    owed := Vector.ofFn fun (p : Fin 64) => if stackOfPc p = k then 0 else d.owed[p]
    forced := Vector.ofFn fun (p : Fin 64) => if stackOfPc p = k then 0 else d.forced[p] }

/-- A write of SVCOFF: FORCE is sampled with it; HB bits are taken from the management controller only. -/
def State.opSvcoff (s : State) (ini : Initiator) (v : DWord) : State :=
  if !pfOrMgmt ini then s.accErr ini .unmapped aSvcoff
  else
    let old := (s.reg aSvcoff).toNat
    let hb := fun (b : Nat) => b == 16 || b == 17
    let sets := fun (b : Nat) => bitOf v.toNat b && !bitOf old b && (!hb b || ini == .mgmt)
    let clears := fun (b : Nat) => !bitOf v.toNat b && bitOf old b
    let force := bitOf v.toNat 31
    if !force && s.svcBusy sets then s.accErr ini .busy aSvcoff
    else
      let all := sets 16 || sets 17
      let s := s.each (slices.filter fun (n : Fin 8) => sets n.val || all) fun n s => s.forceOff n
      let s := s.each (scans.filter fun (u : Fin 4) => sets (8 + u.val) || all) fun u s => s.forceScan u
      let s := s.writeSome ini .svcoff [] .lo v fun f => f.lo != 16 || ini == .mgmt
      let s := s.each (slices.filter fun (n : Fin 8) => sets n.val) fun n s => s.setReady (.sl n) false
      let s := s.each (scans.filter fun (u : Fin 4) => sets (8 + u.val)) fun u s => s.setReady (.scan u) false
      let s := s.each (stackList.filter fun (k : Fin 2) => sets (16 + k.val)) fun k s => s.hbOff k
      let s := s.each (slices.filter fun (n : Fin 8) => clears n.val) fun n s => s.recoverSynths n
      s.each (scans.filter fun (u : Fin 4) => clears (8 + u.val)) fun u s => if s.scanMayReady u then s.setReady (.scan u) true else s

/-! ## A stack comes into service (spec/10 R378, R585) -/

/-- A stack whose contents were lost comes back: written with zeros where both stacks had lost theirs (R585), else with undefined
contents until it is written (R589, spec/16 R539). -/
def State.zeroLost (s : State) (k : Fin 2) : State :=
  if !s.drc.lost[k] then s
  else
    { s with mem := s.mem.filter fun (c : Host.Cell) => stackOf c.1 != k }.modDrc fun d =>
      let l := d.lost.set k false
      { d with
        lost := l, bare := d.bare.set k (!d.fill), bareCount := d.bareCount.set k (d.bareCount[k] + 1)
        written := d.written.filter fun a => stackOf a != k
        fill := d.fill && (l[(0 : Fin 2)] || l[(1 : Fin 2)]) }

/-- HB_INIT_DONE: on a pass the stack leaves self-refresh and is ready; contents that were lost are what `State.zeroLost` says; with both
stacks ready, the SCAN units are. -/
def execHbInitDone (k : Fin 2) (pass : Bool) (s : State) : Host.Outcome State Fault Refusal :=
  .next <|
    if !s.drc.initBusy[k] then s
    else
      let s := s.modDrc fun d => { d with initBusy := d.initBusy.set k false }
      if !pass then s.reportUnit (.bringUp (4 + k)) 0
      else if !s.isReady .mgmt || !s.isReady .troot || s.on ⟨aSvcoff, 16 + k, 1⟩ || s.heldReady (.hb k) || s.tested [8] k then s
      else
        let s := ((s.zeroLost k).modDrc fun d => { d with selfRefresh := d.selfRefresh.set k false }).setReady (.hb k) true
        s.each (scans.filter fun (u : Fin 4) => s.scanMayReady u) fun u s => s.setReady (.scan u) true

/-! ## The management firmware runs (R585) -/

/-- READY bits that waited for MGMT: the Dispatcher, ports in ACTIVE, Ethernet links that are up, images that run on every core, what
a STANDBY exit could not set. -/
def State.mgmtBack (s : State) : State :=
  let s := s.dispReady.each (ports.filter fun (p : Fin 4) => s.port[p].st == .active && s.clMayReady p) fun p s => s.setReady (.cl p) true
  let s := s.each ethPorts fun e s => s.ethReady e
  let s := if s.power.st = .active || s.power.st = .exiting then s.stacksBack else s
  if s.power.st = .active then s.standbyReady else s

/-- MGMT_FIRMWARE_RUNNING: the firmware also brings up Hamper, the Dispatcher and Press; after a management-only reset these have gone
on running, after a loss of the root they run again, Press once the module is ACTIVE (R581). After a reset of the module it first writes the boot fields (spec/00 R20). A bit
that an exhausted repair holds stays 0 (spec/16 R563). -/
def execMgmtFirmwareRunning (s : State) : Host.Outcome State Fault Refusal :=
  .next <|
    if !s.isReady .fw || !s.isReady .troot || s.isReady .mgmt then s
    else
      let s := if s.wasReady.getLsbD ReadyBit.hamper.pos then s else s.bootWrites
      let s := s.each [.mgmt, .hamper] fun b s => s.setReady b true
      let s := if s.power.st = .active then s.setReady .press true
        else s.modPower fun p => { p with saved := p.saved ||| BitVec.ofNat 32 (2 ^ ReadyBit.press.pos) }
      s.mgmtBack

end Sys2Proof.Machine
end

