-- ==== Sys2Proof/Machine/Flags.lean ====
section
/-! DEFINITION. The status and flag fields that show typed state: what a read finds in a field that no write stores, with
the chapter's encoding of each (the register tables of spec/01 to spec/17), and the capability list (spec/14 R490). -/

namespace Sys2Proof.Machine

open Sys2Proof

/-- Fields of a register that are computed: low bit, width, value. -/
abbrev Live := List (Nat × Nat × Nat)

/-! ## Encodings of states -/

/-- STATE of ADMIT (spec/02 R85): CHECKING in every member of a gang that is under admission (R67). -/
def Slice.stateCode (x : Slice) : Nat :=
  if x.chk.isSome then 1
  else match x.st with
  | .idle => 0
  | .prefill => 2 | .armed => 3 | .running => 4 | .ending => 5

/-- STATE of SEGINFO (spec/03 R123). -/
def SegState.code : SegState → Nat
  | .empty => 0 | .opened => 1 | .verifying => 2 | .loaded => 3

/-- STATE of SCPSTAT (spec/08 R333). -/
def ScopeState.code : ScopeState → Nat
  | .idle => 0 | .settle => 1 | .sampling => 2 | .done => 3 | .cancelled => 4 | .abandoned => 5

/-- STATE of SCANn.ADMIT (spec/09 R360). -/
def ScanState.code : ScanState → Nat
  | .off => 0 | .wait => 1 | .primed => 2 | .run => 3 | .fault => 4

/-- STATE of CL.PORT.STAT (spec/12 R430). -/
def PortState.code : PortState → Nat
  | .disabled => 0 | .probe => 1 | .align => 2 | .handshake => 3 | .switch => 4 | .measure => 5 | .active => 6
  | .recover => 7 | .down => 8 | .loopback => 9

/-- ROLE of CL.PORT.STAT (spec/12 R450). -/
def Role.code : Role → Nat
  | .none => 0 | .up => 1 | .down => 2 | .alt => 3

/-- ROLE of TIME.STAT (spec/13 R477). -/
def TimeRole.code : TimeRole → Nat
  | .none => 0 | .master => 1 | .follower => 2 | .holdover => 3

/-- STATE of PWRSTAT (spec/17 R593). -/
def PwrState.code : PwrState → Nat
  | .active => 0 | .entering => 1 | .standby => 2 | .exiting => 3

/-! ## Slices -/

/-- Lanes whose clamps are enabled and held off, since CLAMP_LO is not below CLAMP_HI (spec/07 R248). -/
def State.clampInv (s : State) (n : Fin 8) : Nat :=
  maskOf ((List.range 32).filter fun k => s.on (fSlPincfg_CLAMPEN n k) &&
    decide (s.rd (fSlLevel_CODE n k 5) ≤ s.rd (fSlLevel_CODE n k 6)))

/-- Places of the seal queue in use, by fours (spec/03 R121). -/
def Slice.sealCode (x : Slice) : Nat := min 15 (x.sealq.length / 4)

/-- The computed fields of a slice's registers. SEQSTAT and LC of a member that is not the lead show the sequencer state that the
gang shares and the member's own LC words (spec/04 R143, R170, assumption 46). -/
def State.liveSl (s : State) (r : Reg) (n : Fin 8) : Live :=
  let x := s.sl[n]
  let sel := s.rd (fSlSegsel_SEG n)
  let e := x.seg sel
  match r with
  | .slAdmit => [(10, 1, b2n x.accepted), (0, 4, x.stateCode)]
  | .slSegstat => [(9, 1, b2n (x.loaddone != [])), (4, 4, x.sealCode)]
  | .slSeginfo => [(30, 2, e.st.code), (29, 1, b2n (x.locked sel)), (28, 1, b2n (e.st == .loaded && e.dataOnly)),
      (27, 1, b2n e.eccSeen), (20, 4, e.err), (0, 20, sel)]
  | .slSegbase => [(0, 24, if e.st = .empty then 0 else e.base)]
  | .slSeglen => [(0, 27, if e.st = .loaded then (match e.fig with | some f => f.hems | none => 0) else 0)]
  | .slLoaddone => [(0, 64, (x.loaddone.headD 0).toNat)]
  | .slSeqstat => [(16, 5, x.seq.sp), (15, 1, b2n x.seq.mwTimeout), (0, 6, x.seq.tsPlayed)]
  | .slVclk => [(4, 1, b2n x.synth.useB), (1, 1, b2n (x.synth.b != .recovering)), (0, 1, b2n (x.synth.a != .recovering))]
  | .slFreqnow => [(0, 32, x.synth.freq)]
  | .slPeriodw => [(0, 40, pwOf x.synth.freq)]
  | .slLvlstat => [(0, 7, x.lvlq.length)]
  | .slPpmuclp => [(0, 32, x.ppmuLimit.toNat)]
  | .slClampinv => [(0, 32, s.clampInv n)]
  | .slAdcstat => [(31, 1, b2n x.adc.isSome), (30, 1, b2n x.sumRun), (0, 6, x.adcres.length)]
  | .slAdcres => [(0, 64, (x.adcres.headD 0).toNat)]
  | .slTdcstat => [(8, 4, x.tdcres.length), (2, 1, b2n x.tdcLock), (1, 1, b2n x.tdcArmed)]
  | .slTdcres => [(0, 64, (x.tdcres.headD 0).toNat)]
  | .slSpstat => [(0, 14, x.stage.length)]
  | .slScpstat => [(28, 4, x.scope.st.code)]
  | .slUstat => [(30, 1, b2n x.patched)]
  | _ => []

/-! ## The other units -/

/-- SCAN units (spec/09 R359 to R361). -/
def State.liveScan (s : State) (r : Reg) (u : Fin 4) : Live :=
  let c := s.scan[u]
  match r with
  | .scCmd => [(2, 1, b2n c.ovl), (1, 1, b2n c.base), (0, 1, b2n c.commit)]
  | .scAdmit => [(0, 4, c.st.code)]
  | .scStat => [(28, 1, b2n c.panic), (27, 1, b2n c.urgent),
      (26, 1, b2n (c.st == .run && decide (s.rd (fScVtim_VTOTAL u) ≤ c.line + 1) && !c.lastLine)), (0, 16, c.line)]
  | _ => []

/-- The DRC (spec/10 R385 to R394). -/
def State.liveDrc (s : State) (r : Reg) (i : Nat) : Live :=
  match r with
  | .drcPanic => [(20, 2, if s.panicPorts != 0 then 2 else if s.urgentPorts != 0 then 1 else 0), (0, 20, s.panicPorts)]
  | .drcUrgent => [(0, 20, s.urgentPorts)]
  | .drcRefstat => [(4, 1, b2n s.drc.hot[Fin.ofNat 2 i])]
  | .drcPprstat => [(31, 1, b2n s.drc.ppr.isSome)]
  | _ => []

/-- The Dispatcher and the site cores (spec/11 R416 to R421). -/
def State.liveDisp (s : State) (r : Reg) (i : Nat) : Live :=
  let c := s.cores[Fin.ofNat 8 i]
  match r with
  | .dpStat => [(0, 13, s.disp.waiting.length)]
  | .dpLvldepth => [(0, 13, (s.disp.waiting.filter fun t => dLevel t.desc == i).length)]
  | .dpGrpdepth => [(0, 13, (s.disp.waiting.filter fun t => dGroup t.desc == i).length)]
  | .dpCoreStat => [(1, 1, b2n c.hold.isSome), (0, 1, b2n c.waiting.isSome)]
  | _ => []

/-- Clothesline (spec/12 R450 to R456). -/
def State.liveCl (s : State) (r : Reg) (i : Nat) : Live :=
  let x := s.port[Fin.ofNat 4 i]
  let e := s.enum
  match r with
  | .clStat => [(28, 4, x.st.code), (20, 2, if s.carries (Fin.ofNat 4 i) then x.role.code else 0), (19, 1, b2n x.st.embedded),
      (18, 1, b2n x.lane[1].los), (17, 1, b2n x.lane[0].los), (16, 1, b2n x.lane[1].lol), (15, 1, b2n x.lane[0].lol),
      (14, 1, b2n x.lane[1].blk), (13, 1, b2n x.lane[0].blk), (0, 9, x.sent.length)]
  | .clSeq => [(16, 12, x.rxseq.toNat), (0, 12, x.txseq.toNat)]
  | .clEnumgen => [(0, 32, e.gen.toNat)]
  | .clEnumstat => [(31, 1, b2n e.valid), (30, 1, b2n e.isDone), (29, 1, b2n e.ivalid), (20, 6, e.depth), (0, 12, e.index.toNat)]
  | .clEnumcnt => [(0, 13, e.devices)]
  | .clSumrxw => [(0, 32, ((s.sumrx.headD []).getD i 0).toNat)]
  | .clSumrxstat => [(0, 5, s.sumrx.length)]
  | _ => []

/-- A word of the oldest transmit stamp (spec/13 R484). -/
def stampWord (t : Option TxStamp) (i : Nat) : Nat :=
  match t with
  | none => 0
  | some t =>
    match i with
    | 0 => t.id.toNat * 2 ^ 16 + t.stamp.frac % 2 ^ 16
    | 1 => 2 ^ 31 + t.port.val * 2 ^ 30 + t.stamp.ns % 2 ^ 30
    | 2 => t.stamp.sec.toNat % 2 ^ 32
    | _ => t.stamp.sec.toNat / 2 ^ 32

/-- The time unit (spec/13 R477 to R484). -/
def State.liveTime (s : State) (r : Reg) (i : Nat) : Live :=
  let t := s.time
  match r with
  | .tmStat => [(30, 2, t.role.code), (28, 2, t.src), (27, 1, b2n t.srcValid), (26, 1, b2n t.aligned),
      (25, 1, b2n (s.power.rootLock && s.power.rootSrc == 2)), (24, 1, b2n t.diverged), (0, 6, t.hops)]
  | .tmNow => [(0, 64, t.tick.toNat)]
  | .tmOffset => [(0, 32, unsignedOf t.meanOffset 32)]
  | .tmMserial => [(0, 64, match t.master with | some m => m.2.toNat | none => 0)]
  | .tmLinkDelay => [(0, 32, unsignedOf (s.linkDelay (Fin.ofNat 4 i)) 32)]
  | .tmPhccmd => [(0, 1, b2n t.setPending)]
  | .tmSrvadj => [(0, 64, unsignedOf t.adj 64)]
  | .tmTxtsw => [(0, 32, stampWord t.txts.head? i)]
  | .tmTxtsstat => [(0, 5, t.txts.length)]
  | _ => []

/-- Hamper (spec/16 R564 to R568). -/
def State.liveHamper (s : State) (r : Reg) (i : Nat) : Live :=
  let h := s.hamper
  let word := fun (l : List Word) => [(0, 32, (l.getD i 0).toNat)]
  match r with
  | .hmStat => [(31, 1, b2n s.power.fatal), (0, 7, h.queue.length)]
  | .hmRec => word (recWords h.queue.head?)
  | .hmFirst => word (recWords h.first)
  | .hmLast => word (recWords h.last)
  | .hmFatal1 => word (recWords h.fatal1)
  | .hmFatal2 => word (recWords h.fatal2)
  | .hmInj => [(31, 1, b2n h.inject.isSome)]
  | .hmSrc => [(30, 1, b2n (h.find i).active), (29, 1, b2n (h.find i).wire), (27, 2, hamperClass i)]
  | _ => []

/-- Press, self-test, Darning (spec/16 R570 to R574). -/
def State.livePress (s : State) (r : Reg) (i : Nat) : Live :=
  let n : Fin 8 := Fin.ofNat 8 i
  match r with
  | .prCtrl => [(1, 1, b2n s.press[n].want)]
  | .prStat => [(29, 1, b2n (s.pressing n))]
  | .prBistLc => [(0, 3, s.lifeCycle)]
  | .prBistNonce => [(0, 64, if s.isReady .mgmt then (Config.nonce s.bist.draws).toNat else 0)]
  | .prBistTokcmd => [(0, 1, b2n s.bist.token.isSome)]
  | .prDarnStat => [(16, 12, Config.fuseRepairs + s.bist.fused.length)]
  | _ => []

/-! ## ID and GLOBAL -/

/-- The features of the capability list: ID, INST, BASE, PARAM, and the place of its presence in the fuses. -/
def capFeatures : List (Nat × Nat × Nat × Nat × Nat) :=
  ((List.range 4).map fun n => (1, n, 0x2400000 + 0x10000 * n, 0, n)) ++
  ((List.range 4).map fun n => (2, n, aClCtrl n, 0, 4 + n)) ++
  ((List.range 2).map fun n => (3, n, aEtTxring n, 0, 8 + n)) ++
  [(4, 0, Config.capSriovBase.toNat, 7, 10), (5, 0, aTmSrvctl, 0, 11), (6, 0, aUpaddr, 1024, 12)]

/-- The entries that an initiator finds: all that are present, in a VF those it can reach (spec/14 R486). -/
def State.capList (s : State) (ini : Initiator) : List (Nat × Nat × Nat × Nat × Nat) :=
  capFeatures.filter fun e => s.hasCap e.2.2.2.2 &&
    match ini with
    | .pcie p => p == 0 || (e.1 == 1 && s.ownerScan (Fin.ofNat 4 e.2.1) == p)
    | _ => true

/-- Word w of entry i of a capability list. The words past the last entry are mapped and read 0, so that the entry CAPPTR names reads
as ID 0 and NEXT 0 in a function that reaches no feature: the spec does not say whether they hold a register (assumption 43). -/
def capWord (l : List (Nat × Nat × Nat × Nat × Nat)) (i w : Nat) : Nat :=
  match l[i]? with
  | none => 0
  | some e =>
    match w with
    | 0 => (Config.capVersion e.2.2.2.2).toNat * 2 ^ 24 + e.2.1 * 2 ^ 16 + e.1
    | 1 => if i + 1 < l.length then 0x100 + 0x10 * (i + 1) else 0
    | 2 => e.2.2.1
    | _ => e.2.2.2.1

/-- The resources that no VF partition holds (spec/14 R488). -/
def State.part0 (s : State) : Nat :=
  maskOf ((List.range 32).filter fun i => (decide (i < 12) || decide (16 ≤ i)) &&
    !((List.range 7).any fun p => bitOf (s.reg (aPart (p + 1))).toNat i))

/-- The computed fields of the ID and GLOBAL blocks (spec/01 R45, R55; spec/14 R509 to R513; spec/17 R593). -/
def State.liveGlobal (s : State) (ini : Initiator) (r : Reg) (ix : List Nat) : Live :=
  let p := s.power
  let i := ix.headD 0
  match r with
  | .idRev => [(0, 8, Config.stepping.toNat)]
  | .idSerial => [(0, 64, Config.serial.toNat)]
  | .idCap => [(0, 32, capWord (s.capList ini) i (ix.getD 1 0))]
  | .ready => [(0, 32, s.ready.toNat)]
  | .clkstat => [(4, 2, if p.rootLock then p.rootSrc.toNat else 0), (2, 1, b2n p.rootLock), (1, 1, b2n p.xoOk), (0, 1, b2n p.refOk)]
  | .pwrstat => [(29, 3, p.st.code), (28, 1, b2n p.peOff), (0, 8, s.rd fPwrctl_PARK)]
  | .ilk => [(30, 1, b2n (p.ilkHold || s.on fIlk_FAULT)), (28, 2, ilkState p.ilkA p.ilkB), (27, 1, b2n p.ilkA), (26, 1, b2n p.ilkB),
      (25, 1, b2n p.sbSafe)]
  | .part => if i = 0 then [(0, 32, s.part0)] else []
  | .dmaStat => [(31, 1, b2n s.dma[Fin.ofNat 16 i].isSome)]
  | .etStat => [(30, 1, b2n s.ethLink[Fin.ofNat 2 i])]
  | _ => []

/-- The computed fields of a register as an initiator sees them. -/
def State.live (s : State) (ini : Initiator) (r : Reg) (ix : List Nat) : Live :=
  let i := ix.headD 0
  let a := r.desc.base
  if a < 0x1000000 then s.liveGlobal ini r ix
  else if a < 0x2000000 then s.liveSl r (Fin.ofNat 8 i)
  else if a < 0x2400000 then s.liveDrc r i
  else if a < 0x2800000 then s.liveScan r (Fin.ofNat 4 i)
  else if a < 0x2C00000 then s.liveDisp r i
  else if a < 0x3000000 then s.liveCl r i
  else if a < 0x3400000 then s.liveTime r i
  else if a < 0x3800000 then s.liveHamper r i
  else if a < 0x3C00000 then s.livePress r i
  else s.liveGlobal ini r ix

end Sys2Proof.Machine
end

