-- ==== Sys2Proof/Machine/Bus.lean ====
section
/-! DEFINITION. Register accesses: who reaches a register, the checks of a write, what each register does when it is
written, reads with the shadow and the queues they pop (spec/00 R15 to R28, R616; spec/01 R56; spec/12 R442; spec/14
R486). -/

namespace Sys2Proof.Machine

open Sys2Proof

/-! ## Who reaches a register -/

/-- A VF's view (spec/14 R486). -/
def State.vfSees (s : State) (p : Fin 8) (r : Reg) (ix : List Nat) : Bool :=
  let i := ix.headD 0
  let a := r.desc.base
  if a < 0x100000 then true
  else if [Reg.ready, .clkstat, .accerr, .accerrAddr, .dpPush, .tmNow, .tmSnapcmd, .tmSnaptick, .tmSnapsec, .tmSnapns,
      .tmSnapfrac].contains r then true
  else if inSpan 0x103000 0x400 a then s.ownerDma (Fin.ofNat 16 i) == p
  else if inSpan 0x1000000 0x1000000 a then s.ownerSl (Fin.ofNat 8 i) == p
  else if inSpan 0x2400000 0x400000 a then s.ownerScan (Fin.ofNat 4 i) == p
  else if inSpan 0x3C00000 0x80000 a then i == p.val
  else false

/-- Whether an initiator reaches a register (R28, R398, R442, R486, R505). -/
def State.sees (s : State) (ini : Initiator) (r : Reg) (ix : List Nat) : Bool :=
  let a := r.desc.base
  match ini with
  | .mgmt => true
  | .remote => decide (a < 0x3C00000)
  | .core _ => decide (a < 0x3C00000) && r != .accerrx && r != .accerrxAddr
  | .pcie p => decide (a < 0x3C80000) && (p == 0 || (s.hasCap 10 && s.vfSees p r ix))

/-- An initiator's own copy of ACCERR and ACCERR_ADDR stands at their addresses (R25). -/
def ownCopy (ini : Initiator) (r : Reg) (ix : List Nat) : Reg × List Nat :=
  match r with
  | .accerr => (.accerrx, [copyOf ini]) | .accerrAddr => (.accerrxAddr, [copyOf ini]) | _ => (r, ix)

/-! ## READY (R20, R56) -/

/-- Whether the READY bits in w say that the function of a gate is ready, for a register instance. The spec names no port
for the device-wide registers of Clothesline: any port stands for them (assumption 43). -/
def Gate.readyIn (g : Gate) (w : Word) (ix : List Nat) : Bool :=
  let i := ix.headD 0
  let has := fun (b : ReadyBit) => w.getLsbD b.pos
  match g with
  | .none => true
  | .sl => has (.sl (Fin.ofNat 8 i))
  | .scan => has (.scan (Fin.ofNat 4 i))
  | .disp => has .dispatch
  | .cl => if ix.isEmpty then ports.any fun p => has (.cl p) else has (.cl (Fin.ofNat 4 i))
  | .time => has .time
  | .hamper => has .hamper
  | .press => has .press
  | .mgmt => has .mgmt
  | .hb => has (.hb (Fin.ofNat 2 i))
  | .hbs => has (.hb 0) && has (.hb 1)

/-- Whether the function of a gate is ready now (R56). -/
def State.gateReady (s : State) (g : Gate) (ix : List Nat) : Bool := g.readyIn s.ready ix

/-- Whether a boot field still reads 0: its function's READY bit has not set since the field was reset (R20). -/
def State.bootHidden (s : State) (r : Reg) (ix : List Nat) : Bool := !r.desc.bootGate.readyIn s.wasReady ix

/-! ## Region registers (spec/03 R91, R92) -/

/-- Owners of a kind of region. -/
def kindOwners (kind : Nat) : Nat := if kind = 3 then 4 else 8

/-- Whether a region is in use. -/
def State.regionBusy (s : State) (r : Region) : Bool :=
  match r.kind with
  | 1 => s.sl[Fin.ofNat 8 r.index].segs.any fun e => e.2.st != .empty
  | 2 => !s.sl[Fin.ofNat 8 r.index].isIdle
  | 3 => s.scan[Fin.ofNat 4 r.index].enabled
  | _ => false

/-- Whether region i overlaps another, passes the lower 47 GiB or breaks a limit of its kind. A region of SIZE 0 whose BASE lies inside
another counts as overlapping it (assumption 64). -/
def State.regionClash (s : State) (i : Fin 32) (r : Region) : Bool :=
  decide (24064 < r.base + r.size) ||
  (r.kind == 2 && !((List.range 10).any fun k => r.size == 2 ^ k)) ||
  (List.finRange 32).any fun (j : Fin 32) =>
    let q := s.region[j]
    j != i && q.kind != 0 && (overlaps r.base r.size q.base q.size ||
      (decide (r.kind ≤ 4) && q.kind == r.kind && q.index == r.index))

/-- A write of HREG[i].CTRL forms a region with the current BASE, or is refused as a whole. A refused write leaves BASE as
it stands. -/
def State.opHreg (s : State) (ini : Initiator) (i : Fin 32) (v : Nat) : State :=
  let r : Region := ⟨bitsOf v 28 4, bitsOf v 24 4, s.rd (fHregBase_BASE i), bitsOf v 0 15⟩
  if 5 < r.kind || 24064 < r.size || (r.kind != 0 && decide (kindOwners r.kind ≤ r.index)) then s.accErr ini .rsvd (aHregCtrl i)
  else if s.regionClash i r then s.accErr ini .overlap (aHregCtrl i)
  else if s.regionBusy s.region[i] || s.regionBusy r then s.accErr ini .busy (aHregCtrl i)
  else s.setRegion i r

/-! ## What a write does -/

/-- A write of an ACCERR copy: with every bit at 0, VALID clears (R27). -/
def State.opAccerr (s : State) (ini : Initiator) (c : Nat) (p : Part) (v : DWord) : State :=
  let s := s.writeReg ini .accerrx [c] p v
  if s.reg (aAccerrx c) = 0 then s.wr (fAccerrxAddr_VALID c) 0 else s

/-- A write that only the PF and the management controller may make; another's finds no register. -/
def State.pfWrite (s : State) (ini : Initiator) (r : Reg) (ix : List Nat) (p : Part) (v : DWord) : State :=
  if pfOrMgmt ini then s.writeReg ini r ix p v else s.accErr ini .unmapped (r.at ix p)

/-- Writes of the ID and GLOBAL blocks. -/
def State.writeGlobal (s : State) (ini : Initiator) (r : Reg) (ix : List Nat) (p : Part) (v : DWord) : State :=
  let i := ix.headD 0
  let c : Fin 16 := Fin.ofNat 16 i
  match r with
  | .accerrx => s.opAccerr ini i p v
  | .clkctl => s.opClkctl ini v
  | .xotb => s.opXotb ini v
  | .rst => s.opRst ini v.toNat
  | .pwrctl => s.opPwrctl ini v
  | .svcoff => s.opSvcoff ini v
  | .ilk => s.opIlk ini v.toNat
  | .ilkcfg => s.pfWrite ini r ix p v
  | .hregCtrl => s.opHreg ini (Fin.ofNat 32 i) v.toNat
  | .part => s.opPart ini (Fin.ofNat 8 i) v
  | .prst => s.opPrst ini v.toNat
  | .dmaRing | .dmaRingsz => s.writeUnless (s.on (fDmaCtrl_EN c) || s.dma[c].isSome) ini r ix p v
  | .dmaTail => s.opDmaTail ini c v.toNat
  | .sensor => s.opSensor ini i v
  | .upaddr => if ini = .mgmt then s.writeReg ini r ix p v else s.accErr ini .unmapped (r.at ix p)
  | .upcmd => s.opUpcmd ini v
  | _ => s.writeReg ini r ix p v

/-- Writes of a slice's registers. -/
def State.writeSl (s : State) (ini : Initiator) (r : Reg) (ix : List Nat) (p : Part) (v : DWord) : State :=
  let n : Fin 8 := Fin.ofNat 8 (ix.headD 0)
  let k := ix.getD 1 0
  let x := s.sl[n]
  match r with
  | .slBurst => s.writeUnless (!x.isIdle || (x.scope.armed && bitOf v.toNat 29)) ini r ix p v
  | .slDdist => s.opDdist ini n v.toNat
  | .slResv => s.opResv ini n (bitsOf v.toNat 0 20)
  | .slBcmd => s.opBcmd ini n v.toNat
  | .slSegcmd => s.opSegcmd ini n v.toNat
  | .slLc | .slPark | .slWtime | .slWent | .slWft | .slPinadj | .slSpcfg | .slFailcnt => s.writeUnless (!x.isIdle) ini r ix p v
  | .slSmapcmd => s.opSmapcmd ini n v.toNat
  | .slGang => s.opGang ini n v.toNat
  | .slPincfg => s.opPincfg ini n (Fin.ofNat 32 k) v
  | .slLvlpush => s.opLvlpush ini n p v
  | .slPmu => s.opPmuReg ini n (Fin.ofNat 32 k) v
  | .slAdcctl | .slAdcdly | .slAdcseq | .slAdcsumn => s.writeUnless (x.adc.isSome || x.sumRun) ini r ix p v
  | .slAdccmd => s.opAdccmd n v.toNat
  | .slTdccfg => s.opTdccfg ini n v
  | .slTdcto => s.writeUnless x.tdcArmed ini r ix p v
  | .slTdccmd => s.opTdccmd n v.toNat
  | .slSpcmd => s.opSpcmd ini n v.toNat
  | .slSprd => s.opSprd n v.toNat
  | .slSitelat => s.opLatch ini n v.toNat false
  | .slSiteset => s.opLatch ini n v.toNat true
  | .slScpcfg | .slScppts | .slScplev | .slScptime | .slScphits | .slScpto | .slScpref =>
    s.writeUnless x.scope.armed ini r ix p v
  | .slScpcmd => s.opScpcmd ini n v.toNat
  | _ => s.writeReg ini r ix p v

/-- Writes of the DRC and the SCAN units. -/
def State.writeScan (s : State) (ini : Initiator) (r : Reg) (ix : List Nat) (p : Part) (v : DWord) : State :=
  let i := ix.headD 0
  let u : Fin 4 := Fin.ofNat 4 i
  match r with
  | .drcHbcmd => s.opHbcmd ini v.toNat
  | .drcTrn => s.opTrn ini (Fin.ofNat 2 i) (Fin.ofNat 16 (ix.getD 1 0)) (Fin.ofNat 64 (ix.getD 2 0)) v
  | .drcPpr => s.opPpr ini v.toNat
  | .scCtrl => s.opScanCtrl ini u v
  | .scResv => s.opScanResv ini u v.toNat
  | .scWmark => s.opScanWmark ini u v
  | .scCmd => s.opScanCmd u v.toNat
  | .scHtim | .scHsync | .scVtim | .scVsync | .scTstart | .scRole => s.writeUnless s.scan[u].enabled ini r ix p v
  | _ => s.writeReg ini r ix p v

/-- Writes of the Dispatcher, Clothesline and the time unit. -/
def State.writeLink (s : State) (ini : Initiator) (r : Reg) (ix : List Nat) (p : Part) (v : DWord) : State :=
  let i := ix.headD 0
  match r with
  | .dpPush => if p = .all then s.opPush ini v else s.accErr ini .size (r.at ix p)
  | .dpCtrl => s.opFlush v.toNat
  | .dpCoreCtrl => s.opCoreCtrl ini (Fin.ofNat 8 i) v
  | .dpCoreIrqpend => s.opIrqpend ini (Fin.ofNat 8 i) v.toNat
  | .clCtrl => s.opClCtrl ini (Fin.ofNat 4 i) v
  | .clEnumctl => s.opEnumctl ini v
  | .clSumrxpop => s.opSumrxpop v.toNat
  | .tmTrigcmd => s.opTrigcmd ini v
  | .tmSnapcmd => s.opSnap v.toNat
  | .tmPhccmd => s.opPhccmd v.toNat
  | .tmSrvctl => s.opSrvctl ini v
  | .tmSrvoff => s.opSrvoff p v
  | .tmTxtspop => s.opTxtspop v.toNat
  | _ => s.writeReg ini r ix p v

/-- Writes of Hamper, Press, self-test and the MGMT block. -/
def State.writeMgmt (s : State) (ini : Initiator) (r : Reg) (ix : List Nat) (p : Part) (v : DWord) : State :=
  let i := ix.headD 0
  match r with
  | .hmPop => s.opPop ini v.toNat
  | .hmAonclr => s.opAonclr v.toNat
  | .hmInj => s.opInj ini v
  | .hmSrc => s.opHmSrc ini i v
  | .prCfg => s.opPressCfg ini v
  | .prCtrl => s.opPressCtrl ini (Fin.ofNat 8 i) v
  | .prBistToken => s.pfWrite ini r ix p v
  | .prBistTokcmd => s.opTokcmd ini v.toNat
  | .prBistCmd => s.opBistCmd ini v.toNat
  | .prDarnCmd => s.opDarnCmd ini v.toNat
  | .mgCmd => s.opMgCmd ini (Fin.ofNat 8 i) v.toNat
  | .etTxring | .etRxring => s.opEthRing ini r (Fin.ofNat 2 i) p v
  | .etTxsz | .etRxsz => s.writeUnless (s.on (fEtCtrl_EN i)) ini r ix p v
  | .etCtrl => s.opEthCtrl ini (Fin.ofNat 2 i) p v
  | .etTxtail => s.opEthTail ini (fEtTxtail_INDEX i) (fEtTxsz_LOG2 i) v.toNat
  | .etRxtail => s.opEthTail ini (fEtRxtail_INDEX i) (fEtRxsz_LOG2 i) v.toNat
  | _ => s.writeReg ini r ix p v

/-- What a register does when it is written. -/
def State.regAct (s : State) (ini : Initiator) (r : Reg) (ix : List Nat) (p : Part) (v : DWord) : State :=
  let a := r.desc.base
  if a < 0x1000000 then s.writeGlobal ini r ix p v
  else if a < 0x2000000 then s.writeSl ini r ix p v
  else if a < 0x2800000 then s.writeScan ini r ix p v
  else if a < 0x3400000 then s.writeLink ini r ix p v
  else s.writeMgmt ini r ix p v

/-- Whether an initiator's accesses reach the module: PWRGOOD is high, and a site core runs (spec/11 R403). -/
def State.busOn (s : State) (ini : Initiator) : Bool := s.power.on && match ini with | .core c => s.coreRuns c | _ => true

/-- A write that reaches a register: refused as not ready where its function is not (R56), but for the exempt registers
and for boot fields that the management controller writes. -/
def State.regWrite (s : State) (ini : Initiator) (r : Reg) (ix : List Nat) (p : Part) (v : DWord) : State :=
  if !s.busOn ini then s
  else if !s.sees ini r ix then s.accErr ini .unmapped (r.at ix p)
  else
    let d := r.desc
    if d.exempt || s.gateReady d.gate ix then
      let o := ownCopy ini r ix
      s.regAct ini o.1 o.2 p v
    else if ini = .mgmt && d.fields.any (·.boot) then s.writeSome ini r ix p v fun f => f.boot
    else s.accErr ini .notready (r.at ix p)

/-! ## Writes by address -/

/-- A naturally aligned 32-bit write. -/
def State.write32 (s : State) (ini : Initiator) (a : Nat) (v : Word) : State :=
  if !s.busOn ini then s
  else match Reg.find a with
    | none => s.accErr ini .unmapped a
    | some (r, ix, false) => s.regWrite ini r ix .lo (v.setWidth 64)
    | some (r, ix, true) => s.regWrite ini r ix .hi ((v.setWidth 64) <<< 32)

/-- A naturally aligned 64-bit write: to a 64-bit register as one, else as two 32-bit writes (R616). -/
def State.write64 (s : State) (ini : Initiator) (a : Nat) (v : DWord) : State :=
  let halves := (s.write32 ini a (v.setWidth 32)).write32 ini (a + 4) ((v >>> 32).setWidth 32)
  match Reg.find a with
  | some (r, ix, false) => if r.desc.wide then s.regWrite ini r ix .all v else halves
  | _ => halves

/-! ## The controller's way into the cores' local SRAM (spec/11 R403) -/

/-- The core and the place in its SRAM of an address of the window by which the management controller loads an image; the spec gives
the loads but not their addresses, which the model puts after BAR0 (assumption 53). -/
def sramAt (ini : Initiator) (a size : Nat) : Option (Fin 8 × Nat) :=
  if ini = .mgmt ∧ bar0 ≤ a ∧ a % 0x40000 + size ≤ 0x40000 ∧ a < bar0 + 8 * 0x40000 then
    some (Fin.ofNat 8 ((a - bar0) / 0x40000), a % 0x40000)
  else none

/-- A write of any size (R15). -/
def State.busWrite (s : State) (ini : Initiator) (a size : Nat) (v : DWord) : State :=
  match sramAt ini a size with
  | some (c, o) => if s.busOn ini then s.modCore c fun x => { x with sram := Memory.putAll x.sram o (leBytes size v.toNat) } else s
  | none =>
  if size = 4 ∧ a % 4 = 0 then s.write32 ini a (v.setWidth 32)
  else if size = 8 ∧ a % 8 = 0 then s.write64 ini a v
  else if s.busOn ini then s.accErr ini .size a
  else s

/-! ## Reads -/

/-- A register as an initiator reads it: stored fields, computed ones, WO fields and boot fields not yet written as 0. -/
def State.readVal (s : State) (ini : Initiator) (r : Reg) (ix : List Nat) : DWord :=
  let d := r.desc
  let o := ownCopy ini r ix
  let hide := fun (f : FieldD) => f.acc == .wo || (f.boot && s.bootHidden r ix)
  let stored := d.fields.foldl (fun (x : DWord) f => if hide f then x &&& ~~~f.mask else x) (s.regVal o.1 o.2)
  BitVec.ofNat 64 ((s.live ini o.1 o.2).foldl (fun x e => withBits x e.1 e.2.1 e.2.2) stored.toNat)

/-- The queues whose oldest record a read removes (R126, R284, R291). -/
def State.popRead (s : State) (r : Reg) (ix : List Nat) : State :=
  let n : Fin 8 := Fin.ofNat 8 (ix.headD 0)
  match r with
  | .slLoaddone => s.modSl n fun x => { x with loaddone := x.loaddone.tail }
  | .slAdcres => s.modSl n fun x => { x with adcres := x.adcres.tail }
  | .slTdcres => s.modSl n fun x => { x with tdcres := x.tdcres.tail }
  | _ => s

/-- A naturally aligned 32-bit read (R16, R17). -/
def State.read32 (s : State) (ini : Initiator) (a : Nat) : Word × State :=
  match Reg.find a with
  | none => (0, s.accErr ini .unmapped a)
  | some (r, ix, hi) =>
    if !s.sees ini r ix then (0, s.accErr ini .unmapped a)
    else
      let v := s.readVal ini r ix
      let sh := shadowOf ini
      if hi then
        match s.shadow[sh] with
        | some (tag, w) => if tag + 4 = a then (w, { s with shadow := s.shadow.set sh none }) else ((v >>> 32).setWidth 32, s)
        | none => ((v >>> 32).setWidth 32, s)
      else if r.desc.wide then
        (v.setWidth 32, { s with shadow := s.shadow.set sh (some (a, (v >>> 32).setWidth 32)) }.popRead r ix)
      else (v.setWidth 32, s)

/-- A naturally aligned 64-bit read. -/
def State.read64 (s : State) (ini : Initiator) (a : Nat) : DWord × State :=
  let lo := s.read32 ini a
  let hi := lo.2.read32 ini (a + 4)
  let halves := (lo.1.setWidth 64 ||| (hi.1.setWidth 64 <<< 32), hi.2)
  match Reg.find a with
  | some (r, ix, false) =>
    if !r.desc.wide then halves
    else if s.sees ini r ix then (s.readVal ini r ix, s.popRead r ix)
    else (0, s.accErr ini .unmapped a)
  | _ => halves

/-- A word as it stands, for a read of another size: no flag, no side effect (R15). -/
def State.peek (s : State) (ini : Initiator) (a : Nat) : Word :=
  match Reg.find a with
  | none => 0
  | some (r, ix, hi) =>
    if !s.sees ini r ix then 0
    else if hi then ((s.readVal ini r ix) >>> 32).setWidth 32 else (s.readVal ini r ix).setWidth 32

/-- The bytes a requester keeps of the words that hold them. -/
def State.readOther (s : State) (ini : Initiator) (a size : Nat) : DWord :=
  BitVec.ofNat 64 (leNat ((List.range size).map fun i =>
    let b := a + i
    BitVec.ofNat 8 ((s.peek ini (b / 4 * 4)).toNat / 2 ^ (8 * (b % 4)))))

/-- A read of any size, its value on the bus. -/
def State.busRead (s : State) (ini : Initiator) (a size : Nat) : State :=
  if !s.busOn ini then s
  else match sramAt ini a size with
  | some (c, o) =>
    { s with busData := BitVec.ofNat 64 (leNat ((List.range size).map fun i => Memory.get s.cores[c].sram (o + i))) }
  | none =>
  if size = 4 ∧ a % 4 = 0 then
    let x := s.read32 ini a
    { x.2 with busData := x.1.setWidth 64 }
  else if size = 8 ∧ a % 8 = 0 then
    let x := s.read64 ini a
    { x.2 with busData := x.1 }
  else { s with busData := s.readOther ini a size }

/-! ## Remote requests (spec/12 R442, R443) -/

/-- The status of a remote access: what copy 8 of ACCERR would record of it from empty. -/
def State.remoteStatus (s : State) (f : State → State) : Nat :=
  let t := f (s.setReg (aAccerrx 8) 0)
  if t.on ⟨aAccerrx 8, AccBit.unmapped.pos, 1⟩ then 2 else if t.reg (aAccerrx 8) ≠ 0 then 1 else 0

/-- The REGRSP sent back. -/
def State.answer (s : State) (h : Hdr) (tag : BitVec 6) (off status : Nat) (data : Word) : State :=
  s.routeUni none (s.frame h.src false false (.regrsp tag off (BitVec.ofNat 2 status) data))

/-- REGRD: executed for this device's own index, else routed on. -/
def execRegrd (p : Fin 4) (hdr : Hdr) (tag : BitVec 6) (off : Nat) (s : State) : Host.Outcome State Fault Refusal :=
  .next <| s.onFrame p hdr .reg fun s =>
    s.received p hdr false (.regrd tag off) fun s =>
      let a := off / 4 * 4 % 0x4000000
      let st := s.remoteStatus fun s => (s.read32 .remote a).2
      let x := s.read32 .remote a
      x.2.answer hdr tag off st (if st = 0 then x.1 else 0)

/-- REGWR: as REGRD, for a 32-bit write. -/
def execRegwr (p : Fin 4) (hdr : Hdr) (tag : BitVec 6) (off : Nat) (data : Word) (s : State) :
    Host.Outcome State Fault Refusal :=
  .next <| s.onFrame p hdr .reg fun s =>
    s.received p hdr false (.regwr tag off data) fun s =>
      let a := off / 4 * 4 % 0x4000000
      let st := s.remoteStatus fun s => s.write32 .remote a data
      (s.write32 .remote a data).answer hdr tag off st 0

end Sys2Proof.Machine
end

