-- ==== Sys2Proof/Machine/HartRun.lean ====
section
/-! DEFINITION. A site core executes: its address map, its caches, its CSRs, one instruction (spec/11 R396 to R410). -/

namespace Sys2Proof.Machine

open Sys2Proof

/-! ## The address map (R397) -/

/-- What a core address names for an access of some bytes: a target that the table allows for that size, or nothing. -/
inductive CoreAt where
  | sram | get | done | push | mtime | mtimecmp | bar (a : Nat) | mem (a : Nat) | nowhere
deriving DecidableEq, Repr

def coreAt (a size : Nat) : CoreAt :=
  if a + size ≤ 0x40000 then .sram
  else if a = 0x40000 ∧ size = 8 then .get
  else if a = 0x40008 ∧ size = 8 then .done
  else if a = 0x40010 ∧ size = 8 then .push
  else if 0x2000000 ≤ a ∧ a + size ≤ 0x2000008 ∧ 4 ≤ size then .mtime
  else if 0x2000008 ≤ a ∧ a + size ≤ 0x2000010 then .mtimecmp
  else if 0x40000000 ≤ a ∧ a + size ≤ 0x44000000 ∧ 4 ≤ size then .bar (a - 0x40000000)
  else if 0x1000000000 ≤ a ∧ a + size ≤ 0x1000000000 + memBytes then .mem (a - 0x1000000000)
  else .nowhere

/-- How an access of a core ends: with a value, with an access fault, or not yet. -/
inductive How where
  | done | fault | wait
deriving DecidableEq, Repr

/-- A number in local SRAM. -/
def CoreSt.sramNum (x : CoreSt) (a size : Nat) : Nat := leNat ((List.range size).map fun i => Memory.get x.sram (a + i))

/-! ## Pattern memory and the caches (R399, R400) -/

/-- Bytes of a cache line, and lines that a cache holds: 16 KiB (assumption 53). -/
def lineBytes : Nat := 64
def cacheLines : Nat := 256

/-- A line put into a cache. -/
def cachePut (l : List (Nat × List Byte)) (a : Nat) (bs : List Byte) : List (Nat × List Byte) :=
  ((a, bs) :: l.filter fun e => e.1 != a).take cacheLines

/-- Whether the DRC serves a core's access of a line or less now. What waits and may be served goes first: the DRC has served it in the
same period, before the cores act (`State.tick`). -/
def State.coreServed (s : State) (c : Fin 8) (a len : Nat) : Bool := s.bulkServed (.core c) a len

/-- The data of a line: what a cache holds of it, or fetched from the DRC. A cached line may have left its cache at any time: which
of the two a load meets is open (assumption 53). -/
def State.coreLine (s : State) (c : Fin 8) (inst : Bool) (a : Nat) : (How × List Byte) × State :=
  let l := a / lineBytes * lineBytes
  let x := s.cores[c]
  let held := (if inst then x.icache else x.dcache).find? fun e => e.1 == l
  let kept := match held with | some e => bif s.freeVal.1.getLsbD 0 then some e.2 else none | none => none
  let s := if held.isSome then s.freeVal.2 else s
  match kept with
  | some bs => ((.done, bs), s)
  | none =>
    if !s.mayRead (.core c) l lineBytes then ((.fault, []), s.hbmRefuse (.core c) a)
    else if !s.coreServed c l lineBytes then ((.wait, []), s)
    else
      let s := (s.tookTurns (.core c) l lineBytes).openFor l
      let bs := s.bytes l lineBytes
      ((.done, bs), s.modCore c fun x =>
        if inst then { x with icache := cachePut x.icache l bs } else { x with dcache := cachePut x.dcache l bs })

/-- A number read through a cache. -/
def State.cached (s : State) (c : Fin 8) (inst : Bool) (a size : Nat) : (How × Nat) × State :=
  let r := s.coreLine c inst a
  ((r.1.1, leNat ((r.1.2.drop (a % lineBytes)).take size)), r.2)

/-- Bytes stored by a core, in its data cache too where it holds the line. -/
def State.coreStoreMem (s : State) (c : Fin 8) (a : Nat) (bs : List Byte) : State :=
  (((s.tookTurns (.core c) a bs.length).openFor a).store a bs).ownStore c a bs

/-- Whether a store of a core waits at the DRC: a FENCE that comes after it waits for its commit (R399). -/
def State.storeWaits (s : State) (c : Fin 8) : Bool := s.drc.waiting.any fun r => r.who == .core c && r.wr.isSome

/-! ## Loads, stores, AMOs -/

/-- A load, but for one at the GET port. -/
def State.coreLoad (s : State) (c : Fin 8) (size a : Nat) : (How × Nat) × State :=
  let x := s.cores[c]
  match coreAt a size with
  | .sram => ((.done, x.sramNum a size), s)
  | .mtime => ((.done, bitsOf s.mtime.toNat (8 * (a - 0x2000000)) (8 * size)), s)
  | .mtimecmp => ((.done, bitsOf x.mtimecmp.toNat (8 * (a - 0x2000008)) (8 * size)), s)
  | .bar b => ((.done, (s.busRead (.core c) b size).busData.toNat), s.busRead (.core c) b size)
  | .mem m => s.cached c false m size
  | _ => ((.fault, 0), s)

/-- A store. -/
def State.coreStore (s : State) (c : Fin 8) (size a v : Nat) : How × State :=
  match coreAt a size with
  | .sram => (.done, s.modCore c fun x => { x with sram := Memory.putAll x.sram a (leBytes size v) })
  | .done => (.done, s.coreDone c)
  | .push => (.done, if s.isReady .dispatch then s.opPush (.core c) (BitVec.ofNat 64 v) else s.accErr (.core c) .notready aDpPush)
  | .mtimecmp =>
    (.done, (s.modCore c fun x =>
      { x with mtimecmp := BitVec.ofNat 64 (withBits x.mtimecmp.toNat (8 * (a - 0x2000008)) (8 * size) v) }).tickMtip)
  | .bar b => (.done, s.busWrite (.core c) b size (BitVec.ofNat 64 v))
  | .mem m =>
    if !s.mayWrite (.core c) m size then (.fault, s.hbmRefuse (.core c) m)
    else if !s.coreServed c m size then (.wait, s)
    else (.done, s.coreStoreMem c m (leBytes size v))
  | _ => (.fault, s)

/-- The word that an AMO reads, and the state with what it stores: in local SRAM or, atomically, at the DRC (R400). -/
def State.coreAmo (s : State) (c : Fin 8) (k : Amo) (size a b : Nat) : (How × Nat) × State :=
  match coreAt a size with
  | .sram =>
    let old := s.cores[c].sramNum a size
    ((.done, old), s.modCore c fun x => { x with sram := Memory.putAll x.sram a (leBytes size (k.val size old b)) })
  | .mem m =>
    if !(s.mayRead (.core c) m size && s.mayWrite (.core c) m size) then ((.fault, 0), s.hbmRefuse (.core c) m)
    else if !s.coreServed c m size then ((.wait, 0), s)
    else ((.done, s.num m size), s.coreStoreMem c m (leBytes size (k.val size (s.num m size) b)))
  | _ => ((.fault, 0), s)

/-! ## CSRs (assumption 29) -/

/-- What a CSR reads, in machine mode or user mode; none is illegal. -/
def State.csrRead (s : State) (c : Fin 8) (n : Nat) : Option DWord :=
  let x := s.cores[c]
  let r := x.csr
  let counter := fun (bit : Nat) (v : DWord) => if x.machineMode || bitOf r.mcounteren.toNat bit then some v else none
  if !x.machineMode && decide (0x100 ≤ n % 0x400) then none
  else match n with
    | 0xF11 | 0xF12 | 0xF13 | 0xF15 => some 0
    | 0xF14 => some (BitVec.ofNat 64 c.val)
    | 0x300 => some (r.mstatus ||| 0x200000000)
    | 0x301 => some 0x8000000000101105
    | 0x304 => some r.mie
    | 0x305 => some r.mtvec
    | 0x306 => some r.mcounteren
    | 0x30A => some r.menvcfg
    | 0x320 => some r.mcountinhibit
    | 0x340 => some r.mscratch
    | 0x341 => some r.mepc
    | 0x342 => some r.mcause
    | 0x343 => some r.mtval
    | 0x344 => some (BitVec.ofNat 64 (s.mip c))
    | 0x3A0 => some (BitVec.ofNat 64 (leNat r.pmpcfg.toList))
    | 0x3A2 => some 0
    | 0xB00 => some r.mcycle
    | 0xB02 => some r.minstret
    | 0xC00 => counter 0 r.mcycle
    | 0xC01 => counter 1 s.mtime
    | 0xC02 => counter 2 r.minstret
    | _ =>
      if inSpan 0x3B0 8 n then
        let i : Fin 8 := Fin.ofNat 8 (n - 0x3B0)
        let a := r.pmpaddr[i]
        some (if bitsOf r.pmpcfg[i].toNat 3 2 = 3 then a ||| 0x1FF else a &&& ~~~0x3FF)
      else if inSpan 0x3B8 8 n || inSpan 0x323 29 n || inSpan 0xB03 29 n then some 0
      else none

/-- A configuration byte of a PMP entry after a write: a locked one, a four-byte entry and W without R keep it. -/
def pmpWrite (old new : Byte) : Byte :=
  let n := new.toNat
  if bitOf old.toNat 7 || bitsOf n 3 2 == 2 || bitsOf n 0 2 == 2 then old else new &&& 0x9F

/-- The CSRs after a write of one; reserved and read-only fields keep their values. -/
def Csrs.put (r : Csrs) (n : Nat) (v : DWord) : Csrs :=
  match n with
  | 0x300 =>
    let mpp := if bitsOf v.toNat 11 2 = 3 then (0x1800 : DWord) else 0
    { r with mstatus := (v &&& 0x220088) ||| mpp }
  | 0x304 => { r with mie := v &&& 0x888 }
  | 0x305 => { r with mtvec := v &&& ~~~2 }
  | 0x306 => { r with mcounteren := v &&& 7 }
  | 0x30A => { r with menvcfg := if bitsOf v.toNat 4 2 = 2 then (v &&& 0x41) ||| (r.menvcfg &&& 0x30) else v &&& 0x71 }
  | 0x320 => { r with mcountinhibit := v &&& 5 }
  | 0x340 => { r with mscratch := v }
  | 0x341 => { r with mepc := v &&& ~~~1 }
  | 0x342 => { r with mcause := v }
  | 0x343 => { r with mtval := v }
  | 0x3A0 =>
    { r with pmpcfg := Vector.ofFn fun (i : Fin 8) => pmpWrite r.pmpcfg[i] (BitVec.ofNat 8 (bitsOf v.toNat (8 * i.val) 8)) }
  | 0xB00 => { r with mcycle := v }
  | 0xB02 => { r with minstret := v }
  | _ =>
    if inSpan 0x3B0 8 n then
      let i : Fin 8 := Fin.ofNat 8 (n - 0x3B0)
      let j : Fin 8 := Fin.ofNat 8 (i.val + 1)
      let locked := bitOf r.pmpcfg[i].toNat 7 ||
        (i.val != 7 && bitOf r.pmpcfg[j].toNat 7 && bitsOf r.pmpcfg[j].toNat 3 2 == 1)
      if locked then r else { r with pmpaddr := r.pmpaddr.set i (v &&& 0x3FFFFFFFFFFFFF) }
    else r

/-! ## One instruction -/

/-- The core at the instruction after one of some bytes, which retires. -/
def CoreSt.next (x : CoreSt) (len : Nat) : CoreSt :=
  { x with
    pc := x.pc + BitVec.ofNat 64 len
    csr := { x.csr with minstret := if bitOf x.csr.mcountinhibit.toNat 2 then x.csr.minstret else x.csr.minstret + 1 } }

/-- A register written and the instruction retired. -/
def CoreSt.write (x : CoreSt) (len : Nat) (rd : Fin 32) (v : DWord) : CoreSt := (x.put rd v).next len

/-- A jump, which retires. -/
def CoreSt.jump (x : CoreSt) (target : DWord) : CoreSt := { x.next 0 with pc := target &&& ~~~1 }

/-- An access that ended: its fault taken, or the core as the access leaves it; one that waits is tried again. -/
def State.coreEnd (s : State) (c : Fin 8) (h : How) (e : Exc) (a : DWord) (f : CoreSt → CoreSt) : State :=
  match h with
  | .done => s.modCore c f
  | .fault => s.modCore c fun x => x.except e a
  | .wait => s

/-- The load at the GET port (R409). -/
def State.getLoad (s : State) (c : Fin 8) (rd : Fin 32) (len : Nat) : State :=
  let s := s.coreGet c
  if s.cores[c].waiting.isSome then s.modCore c fun x => { x with waitRd := some (rd, len) }
  else s.modCore c fun x => x.write len rd x.loadData

/-- A load instruction. -/
def State.rvLoad (s : State) (c : Fin 8) (len size : Nat) (sx : Bool) (rd : Fin 32) (a : DWord) : State :=
  let x := s.cores[c]
  if a.toNat % size ≠ 0 then s.modCore c fun x => x.except .loadMisaligned a
  else if !x.csr.pmpOk x.dataMode .load a.toNat size then s.modCore c fun x => x.except .loadFault a
  else if coreAt a.toNat size = .get then s.getLoad c rd len
  else
    let r := s.coreLoad c size a.toNat
    r.2.coreEnd c r.1.1 .loadFault a fun x => x.write len rd (if sx then sext r.1.2 (8 * size) else BitVec.ofNat 64 r.1.2)

/-- A store instruction. -/
def State.rvStore (s : State) (c : Fin 8) (len size : Nat) (a v : DWord) : State :=
  let x := s.cores[c]
  if a.toNat % size ≠ 0 then s.modCore c fun x => x.except .storeMisaligned a
  else if !x.csr.pmpOk x.dataMode .store a.toNat size then s.modCore c fun x => x.except .storeFault a
  else
    let r := s.coreStore c size a.toNat (v.toNat % 2 ^ (8 * size))
    r.2.coreEnd c r.1 .storeFault a fun x => x.next len

/-- LR: on local SRAM only (R400). -/
def State.rvLr (s : State) (c : Fin 8) (len size : Nat) (rd : Fin 32) (a : DWord) : State :=
  let x := s.cores[c]
  if a.toNat % size ≠ 0 then s.modCore c fun x => x.except .loadMisaligned a
  else if !x.csr.pmpOk x.dataMode .load a.toNat size then s.modCore c fun x => x.except .loadFault a
  else if coreAt a.toNat size ≠ .sram then s.modCore c fun x => x.except .storeFault a
  else s.modCore c fun x => { x.write len rd (sext (x.sramNum a.toNat size) (8 * size)) with rsv := some (a.toNat, size) }

/-- SC: on local SRAM only; it stores where the reservation is held, which it ends. -/
def State.rvSc (s : State) (c : Fin 8) (len size : Nat) (rd : Fin 32) (a v : DWord) : State :=
  let x := s.cores[c]
  if a.toNat % size ≠ 0 then s.modCore c fun x => x.except .storeMisaligned a
  else if !x.csr.pmpOk x.dataMode .store a.toNat size then s.modCore c fun x => x.except .storeFault a
  else if coreAt a.toNat size ≠ .sram then s.modCore c fun x => x.except .storeFault a
  else
    s.modCore c fun x =>
      let x' := { x with rsv := none }
      if x.rsv = some (a.toNat, size) then
        { x'.write len rd 0 with sram := Memory.putAll x.sram a.toNat (leBytes size (v.toNat % 2 ^ (8 * size))) }
      else x'.write len rd 1

/-- An AMO. -/
def State.rvAmo (s : State) (c : Fin 8) (len : Nat) (k : Amo) (size : Nat) (rd : Fin 32) (a v : DWord) : State :=
  let x := s.cores[c]
  if a.toNat % size ≠ 0 then s.modCore c fun x => x.except .storeMisaligned a
  else if !(x.csr.pmpOk x.dataMode .load a.toNat size && x.csr.pmpOk x.dataMode .store a.toNat size) then
    s.modCore c fun x => x.except .storeFault a
  else
    let r := s.coreAmo c k size a.toNat v.toNat
    r.2.coreEnd c r.1.1 .storeFault a fun x => x.write len rd (sext r.1.2 (8 * size))

/-- A cache-block operation: the data cache is written through, so only the invalidation shows (R399). -/
def State.rvCbo (s : State) (c : Fin 8) (len raw : Nat) (k : Cbo) (a : DWord) : State :=
  let x := s.cores[c]
  let env := x.csr.menvcfg.toNat
  let may := x.machineMode || (match k with | .inval => bitsOf env 4 2 != 0 | _ => bitOf env 6)
  let l := a.toNat / lineBytes * lineBytes
  if !may then s.modCore c fun x => x.except .illegal (BitVec.ofNat 64 raw)
  else if !(x.csr.pmpOk x.dataMode .load l lineBytes || x.csr.pmpOk x.dataMode .store l lineBytes) then
    s.modCore c fun x => x.except .storeFault a
  else match coreAt l lineBytes with
    | .mem m => s.modCore c fun x =>
        if k = .clean then x.next len else { x.next len with dcache := x.dcache.filter fun e => e.1 != m }
    | .sram => s.modCore c fun x => x.next len
    | _ => s.modCore c fun x => x.except .storeFault a

/-- A CSR instruction: illegal where the CSR does not exist, is out of reach of the mode, or is read-only and written. -/
def State.rvCsr (s : State) (c : Fin 8) (len raw : Nat) (k : CsrDo) (imm : Bool) (rd src : Fin 32) (n : Nat) : State :=
  let x := s.cores[c]
  let v := if imm then BitVec.ofNat 64 src.val else x.get src
  let writes := k == .write || src != 0
  match s.csrRead c n with
  | none => s.modCore c fun x => x.except .illegal (BitVec.ofNat 64 raw)
  | some old =>
    if writes && decide (0xC00 ≤ n) then s.modCore c fun x => x.except .illegal (BitVec.ofNat 64 raw)
    else
      let new := match k with | .write => v | .set => old ||| v | .clear => old &&& ~~~v
      s.modCore c fun x =>
        let x' := x.write len rd old
        if writes then { x' with csr := x'.csr.put n new } else x'

/-- What an instruction of some bytes does. -/
def State.rvExec (s : State) (c : Fin 8) (len raw : Nat) (i : Rv) : State :=
  let x := s.cores[c]
  let bad := s.modCore c fun x => x.except .illegal (BitVec.ofNat 64 raw)
  match i with
  | .lui rd v => s.modCore c fun x => x.write len rd v
  | .auipc rd v => s.modCore c fun x => x.write len rd (x.pc + v)
  | .jal rd off => s.modCore c fun x => (x.put rd (x.pc + BitVec.ofNat 64 len)).jump (x.pc + off)
  | .jalr rd a off => s.modCore c fun x => (x.put rd (x.pc + BitVec.ofNat 64 len)).jump (x.get a + off)
  | .branch k a b off => s.modCore c fun x => if k.holds (x.get a) (x.get b) then x.jump (x.pc + off) else x.next len
  | .load size sx rd a off => s.rvLoad c len size sx rd (x.get a + off)
  | .store size a b off => s.rvStore c len size (x.get a + off) (x.get b)
  | .aluImm k w rd a imm => s.modCore c fun x => x.write len rd (aluVal k w (x.get a) imm)
  | .alu k w rd a b => s.modCore c fun x => x.write len rd (aluVal k w (x.get a) (x.get b))
  | .lr size rd a => s.rvLr c len size rd (x.get a)
  | .sc size rd a b => s.rvSc c len size rd (x.get a) (x.get b)
  | .amo k size rd a b => s.rvAmo c len k size rd (x.get a) (x.get b)
  | .fence => if s.storeWaits c then s else s.modCore c fun x => x.next len
  | .fenceI => s.modCore c fun x => { x.next len with icache := [] }
  | .cbo k a => s.rvCbo c len raw k (x.get a)
  | .csr k imm rd src n => s.rvCsr c len raw k imm rd src n
  | .ecall => s.modCore c fun x => x.except (if x.machineMode then .ecallM else .ecallU) 0
  | .ebreak => s.modCore c fun x => x.except .breakpoint x.pc
  | .mret => if x.machineMode then s.modCore c fun x => (x.next 0).mret else bad
  | .wfi => if x.machineMode || !x.mst mstTw then s.modCore c fun x => x.next len else bad

/-- A 16-bit parcel fetched: local SRAM, or pattern memory through the instruction cache. -/
def State.parcel (s : State) (c : Fin 8) (a : Nat) : (How × Nat) × State :=
  let x := s.cores[c]
  if !x.csr.pmpOk x.machineMode .fetch a 2 then ((.fault, 0), s)
  else match coreAt a 2 with
    | .sram => ((.done, x.sramNum a 2), s)
    | .mem m => s.cached c true m 2
    | _ => ((.fault, 0), s)

/-- The instruction at the pc runs: one parcel or two. -/
def State.rvStep (s : State) (c : Fin 8) : State :=
  let pc := s.cores[c].pc
  let lo := s.parcel c pc.toNat
  if lo.1.1 ≠ .done then lo.2.coreEnd c lo.1.1 .fetchFault pc id
  else if lo.1.2 % 4 ≠ 3 then
    match decode16 lo.1.2 with
    | some i => lo.2.rvExec c 2 lo.1.2 i
    | none => lo.2.modCore c fun x => x.except .illegal (BitVec.ofNat 64 lo.1.2)
  else
    let hi := lo.2.parcel c (pc + 2).toNat
    let raw := lo.1.2 + 65536 * hi.1.2
    if hi.1.1 ≠ .done then hi.2.coreEnd c hi.1.1 .fetchFault (pc + 2) id
    else match decode32 raw with
      | some i => hi.2.rvExec c 4 raw i
      | none => hi.2.modCore c fun x => x.except .illegal (BitVec.ofNat 64 raw)

/-- One CPU cycle of a core that runs: a blocked GET released, an interrupt taken, or one instruction (assumption 29). -/
def State.coreCycle (s : State) (c : Fin 8) : State :=
  if !s.coreRuns c then s
  else
    let s := s.modCore c fun x => { x with csr := { x.csr with
      mcycle := if bitOf x.csr.mcountinhibit.toNat 0 then x.csr.mcycle else x.csr.mcycle + 1 } }
    if s.cores[c].waiting.isSome then s.getRelease c
    else match s.irqDue c with
      | some k => s.modCore c fun x => x.trap true k 0
      | none => s.rvStep c

end Sys2Proof.Machine
end

