-- ==== Sys2Proof/Machine/MicroRun.lean ====
section
/-! DEFINITION. The cycles of the microcode engine: the conditions of a microword and one SEQ cycle (spec/15 R520 to R525). -/

namespace Sys2Proof.Machine

open Sys2Proof

/-- The site that the operand of a control word names: ARG of a condition, the site of an LVL. -/
def wSite (w : DWord) : Nat := match opOf (wOp w) with | some .brc | some .mwait => cArg w | _ => wField w 32 8

/-- Whether a member has presented its position for the control word that is the given one of its burst: it has begun that word, or
a later one. -/
def Slice.presents (x : Slice) (k : Nat) : Bool := !x.csDead && decide (k ≤ x.seq.micro.begun)

/-- The condition that COND selects at the engine of a slice, before CPOL (R521). The stack and the loop counters are those before
the control word, whose own effects are not committed while its routine runs (R523). WIN_READY holds once the sample instant of the
word's vector is past: by then the branch unit has the compare results up to it (spec/01 R39, assumption 56). -/
def State.microCond (s : State) (n : Fin 8) (w : BitVec 160) : Bool :=
  let x := s.sl[n]
  let l := s.leadOf n
  let q := x.seq
  let c := q.micro.cur
  let o := c.word
  match mCond w with
  | 0x01 => q.micro.flag
  | 0x02 => c.sp == 16
  | 0x03 => c.sp == 0
  | 0x04 => decide (1 < c.lc.getD (if mKsel w then wField o 32 3 else wField o 0 3) 0)
  | 0x05 => decide (s.sl[l].seq.sampleAt c.vec (s.dist l) ≤ (s.now : Int))
  | 0x06 => (s.burstOf n).all fun m => s.sl[m].presents q.micro.begun
  | 0x07 => decide (64 ≤ x.lvlq.length)
  | 0x08 => decide (16 ≤ x.pmuq.length)
  | 0x09 => decide (16 ≤ (if bitOf o.toNat 8 then x.mkq1 else x.mkq0).length)
  | 0x0A => (if x.synth.useB then x.synth.a else x.synth.b) == .standby
  | 0x0B => q.plays != 0 && q.plays % 64 == 0
  | 0x0C => q.rptLeft == 0 && match x.played with | p :: _ => p.again | [] => false
  | 0x0D => (s.slotOf (s.burstOf n) (wSite o)).isSome
  | 0x0E => x.reach.contains (wTarget o)
  | _ => true

/-- What EVAL gives: the condition field of the control word at its vector (R147). -/
def State.microEval (s : State) (n : Fin 8) : Bool :=
  let l := s.leadOf n
  let c := s.sl[n].seq.micro.cur
  match s.source l c.vec c.word false with | some b => b != cNeg c.word | none => false

/-- The engine of a slice as its next cycle finds it: IDLE is entered while the slice is IDLE and nothing runs (R518). -/
def Slice.engine (x : Slice) : Micro :=
  let m := x.seq.micro
  if x.isIdle && m.addr.isNone then m.serve entIdle none else m

/-- One SEQ cycle of the engine of a slice, while its control store works and its clock runs (spec/17 R579). A routine that RESUME
restarts after a service is counted (R525). -/
def State.microStep (s : State) (n : Fin 8) : State :=
  let x := s.sl[n]
  let m := x.engine
  match m.addr with
  | none => s
  | some at_ =>
    if x.csDead || s.on ⟨aPwrctl, n, 1⟩ then s
    else
      let p := if x.patched then s.patch else none
      let a := trapAddr p at_
      let w := microWord p a
      let r := m.cycle w a (s.microCond n w != mPol w) (s.microEval n)
      let t := s.modSeq n fun q => { q with micro := r }
      match m.entry with
      | some e =>
        if mNsel w = 6 ∧ m.service.isSome ∧ r.service = none then (t.addSat (fSlUstat_RESTARTS n) 1).wr (fSlUstat_LASTENTRY n) e
        else t
      | none => t

end Sys2Proof.Machine
end

