-- ==== Sys2Proof/Machine/Clock.lean ====
section
/-! DEFINITION. What a period of TROOT brings with no command: time, the units of the pattern memory controller, the sequencers'
microcode, the site cores (assumptions 2, 29, 56). -/

namespace Sys2Proof.Machine

open Sys2Proof

/-- A SEQ cycle of every sequencer: TROOT ÷ 8 (spec/01, the table of clocks). -/
def State.seqCycle (s : State) : State := s.each slices fun n s => s.microStep n

/-- A cycle of every site core. -/
def State.cpuCycle (s : State) : State := s.each coreList fun c s => s.coreCycle c

/-- What hardware does in one TROOT period. A MGMT cycle, in which Hamper samples the rails, is TROOT ÷ 32. -/
def State.hardCycle (s : State) : State :=
  let s := s.tickOne
  let s := if s.isReady .troot then s.ethDrain else s
  let s := if s.clock % 8 = 0 && s.isReady .troot then s.seqCycle else s
  if s.clock % 32 = 0 && s.isReady .troot then s.injectDue else s

/-- The RW1C fields of the register word at an address. -/
def w1cMask (a : Nat) : Word :=
  match Reg.find a with
  | some (r, _, hi) =>
    let m := r.desc.fields.foldl (fun (m : DWord) f => if f.acc == .rw1c then m ||| f.mask else m) 0
    if hi then (m >>> 32).setWidth 32 else m.setWidth 32
  | none => 0

/-- The RW1C bits that are 1 in the words of h and 0 in t, by address. -/
def State.clearedBits (h t : State) : List (Nat × Word) :=
  (h.regs.map fun e => (e.1, e.2 &&& ~~~t.reg e.1 &&& w1cMask e.1)).filter fun e => e.2 != 0

/-- The RW1C bits that software has cleared in a cycle, from h to s, and that hardware sets in that same cycle, from `start`: they stay
1, and the event is not lost (spec/00 R23). -/
def State.setsWin (s start h : State) : State :=
  let bits := State.clearedBits h s
  if bits.isEmpty then s
  else
    let again := (start.each bits fun e s => s.setReg e.1 (s.reg e.1 &&& ~~~e.2)).hardCycle
    s.each bits fun e s => s.setReg e.1 (s.reg e.1 ||| (again.reg e.1 &&& e.2))

/-- One TROOT period; the clocks that derive from TROOT run while it is locked. The site cores act after the hardware of the period: an
RW field keeps what a core wrote, and a request that a core makes by an RW1S field is recorded beside the one that hardware takes; a
bit that hardware sets in the period stays set whatever a core clears (spec/00 R23). -/
def State.tick (s : State) : State :=
  let h := s.hardCycle
  if h.clock % 8 = 0 && h.isReady .troot then h.cpuCycle.setsWin s h else h

end Sys2Proof.Machine
end

