-- ==== Sys2Proof/Machine/Commands.lean ====
section
/-! DEFINITION. The commands that are a register access: each writes or reads the register that its row names. A row that
names a bit of a register writes it as it says; every other bit of the word is the command's operand. -/

namespace Sys2Proof.Machine

open Sys2Proof

/-- A 32-bit write of a register's low word. -/
def State.command (s : State) (ini : Initiator) (r : Reg) (ix : List Nat) (v : Word) : State :=
  s.regWrite ini r ix .lo (v.setWidth 64)

/-! ## Any register (spec/00) -/

/-- REGISTER_WRITE (R15 to R28, R56): a write of a register, or a read of one where no value is given. -/
def execRegisterWrite (ini : Initiator) (addr size : Nat) (wr : Option DWord) (s : State) :
    Host.Outcome State Fault Refusal :=
  .next <| match wr with | some v => s.busWrite ini addr size v | none => s.busRead ini addr size

/-- SHADOW_LOW_WORD_READ (R16). -/
def execShadowLowWordRead (ini : Initiator) (addr : Nat) (s : State) : Host.Outcome State Fault Refusal :=
  .next (s.busRead ini addr 4)

/-- SHADOW_HIGH_WORD_READ (R16). -/
def execShadowHighWordRead (ini : Initiator) (addr : Nat) (s : State) : Host.Outcome State Fault Refusal :=
  .next (s.busRead ini addr 4)

/-! ## Clocks and bursts (spec/01, spec/02) -/

/-- CLKCTL_WRITE (R49). -/
def execClkctlWrite (ini : Initiator) (v : Word) (s : State) : Host.Outcome State Fault Refusal :=
  .next (s.command ini .clkctl [] v)

/-- START (R67): BCMD with START = 1. -/
def execStart (ini : Initiator) (n : Fin 8) (v : Word) (s : State) : Host.Outcome State Fault Refusal :=
  .next (s.command ini .slBcmd [n] (v ||| 0x1))

/-- ABORT_HEM (R78): BCMD with ABORT_HEM = 1. -/
def execAbortHem (ini : Initiator) (n : Fin 8) (v : Word) (s : State) : Host.Outcome State Fault Refusal :=
  .next (s.command ini .slBcmd [n] (v ||| 0x2))

/-- ABORT_NOW (R78): BCMD with ABORT_NOW = 1. -/
def execAbortNow (ini : Initiator) (n : Fin 8) (v : Word) (s : State) : Host.Outcome State Fault Refusal :=
  .next (s.command ini .slBcmd [n] (v ||| 0x4))

/-- RESV_WRITE (R71). -/
def execResvWrite (ini : Initiator) (n : Fin 8) (v : Word) (s : State) : Host.Outcome State Fault Refusal :=
  .next (s.command ini .slResv [n] v)

/-- DDIST_WRITE (R185). -/
def execDdistWrite (ini : Initiator) (n : Fin 8) (v : Word) (s : State) : Host.Outcome State Fault Refusal :=
  .next (s.command ini .slDdist [n] v)

/-! ## Segments and regions (spec/03) -/

/-- SEG_OPEN (R106): SEGCMD with its OP. -/
def execSegOpen (ini : Initiator) (n : Fin 8) (v : Word) (s : State) : Host.Outcome State Fault Refusal :=
  .next (s.command ini .slSegcmd [n] ((v &&& 0xFFFFFFF) ||| 0x10000000))

/-- SEG_SEAL (R106): SEGCMD with its OP. -/
def execSegSeal (ini : Initiator) (n : Fin 8) (v : Word) (s : State) : Host.Outcome State Fault Refusal :=
  .next (s.command ini .slSegcmd [n] ((v &&& 0xFFFFFFF) ||| 0x20000000))

/-- SEG_DROP (R106): SEGCMD with its OP. -/
def execSegDrop (ini : Initiator) (n : Fin 8) (v : Word) (s : State) : Host.Outcome State Fault Refusal :=
  .next (s.command ini .slSegcmd [n] ((v &&& 0xFFFFFFF) ||| 0x30000000))

/-- LOADDONE_READ (R126): a 64-bit read, or a read of the low word. -/
def execLoaddoneRead (ini : Initiator) (n : Fin 8) (wide : Bool) (s : State) : Host.Outcome State Fault Refusal :=
  .next (s.busRead ini (aSlLoaddone n) (if wide then 8 else 4))

/-- HREG_CTRL_WRITE (R92). -/
def execHregCtrlWrite (ini : Initiator) (i : Fin 32) (v : Word) (s : State) : Host.Outcome State Fault Refusal :=
  .next (s.command ini .hregCtrl [i] v)

/-! ## Sites and gangs (spec/05) -/

/-- SMAP_COMMIT (R179): SMAPCMD with COMMIT = 1. -/
def execSmapCommit (ini : Initiator) (n : Fin 8) (v : Word) (s : State) : Host.Outcome State Fault Refusal :=
  .next (s.command ini .slSmapcmd [n] (v ||| 0x1))

/-- SMAP_REVERT (R179): SMAPCMD with REVERT = 1. -/
def execSmapRevert (ini : Initiator) (n : Fin 8) (v : Word) (s : State) : Host.Outcome State Fault Refusal :=
  .next (s.command ini .slSmapcmd [n] (v ||| 0x2))

/-- GANG_WRITE (R181). -/
def execGangWrite (ini : Initiator) (n : Fin 8) (v : Word) (s : State) : Host.Outcome State Fault Refusal :=
  .next (s.command ini .slGang [n] v)

/-! ## Pin electronics (spec/07) -/

/-- PINCFG_WRITE (R241). -/
def execPincfgWrite (ini : Initiator) (n : Fin 8) (lane : Fin 32) (v : Word) (s : State) :
    Host.Outcome State Fault Refusal :=
  .next (s.command ini .slPincfg [n, lane] v)

/-- LVLPUSH (R253): a 64-bit write, or a write of v's low half to the high word. -/
def execLvlpush (ini : Initiator) (n : Fin 8) (wide : Bool) (v : DWord) (s : State) :
    Host.Outcome State Fault Refusal :=
  .next (s.regWrite ini .slLvlpush [n] (if wide then .all else .hi) (if wide then v else v <<< 32))

/-- PMU_WRITE (R258). -/
def execPmuWrite (ini : Initiator) (n : Fin 8) (lane : Fin 32) (v : Word) (s : State) :
    Host.Outcome State Fault Refusal :=
  .next (s.command ini .slPmu [n, lane] v)

/-- ADC_START (R262): ADCCMD with START = 1. -/
def execAdcStart (ini : Initiator) (n : Fin 8) (v : Word) (s : State) : Host.Outcome State Fault Refusal :=
  .next (s.command ini .slAdccmd [n] (v ||| 0x1))

/-- ADC_STOP (R261): ADCCMD with STOP = 1. -/
def execAdcStop (ini : Initiator) (n : Fin 8) (v : Word) (s : State) : Host.Outcome State Fault Refusal :=
  .next (s.command ini .slAdccmd [n] (v ||| 0x2))

/-- ADCRES_READ (R284). -/
def execAdcresRead (ini : Initiator) (n : Fin 8) (wide : Bool) (s : State) : Host.Outcome State Fault Refusal :=
  .next (s.busRead ini (aSlAdcres n) (if wide then 8 else 4))

/-- TDC_ARM (R267): TDCCMD with ARM = 1. -/
def execTdcArm (ini : Initiator) (n : Fin 8) (v : Word) (s : State) : Host.Outcome State Fault Refusal :=
  .next (s.command ini .slTdccmd [n] (v ||| 0x1))

/-- TDC_CANCEL (R267): TDCCMD with CANCEL = 1. -/
def execTdcCancel (ini : Initiator) (n : Fin 8) (v : Word) (s : State) : Host.Outcome State Fault Refusal :=
  .next (s.command ini .slTdccmd [n] (v ||| 0x2))

/-- TDCRES_READ (R291). -/
def execTdcresRead (ini : Initiator) (n : Fin 8) (wide : Bool) (s : State) : Host.Outcome State Fault Refusal :=
  .next (s.busRead ini (aSlTdcres n) (if wide then 8 else 4))

/-- XOTB_WRITE (R269). -/
def execXotbWrite (ini : Initiator) (v : Word) (s : State) : Host.Outcome State Fault Refusal :=
  .next (s.command ini .xotb [] v)

/-! ## Capture (spec/08) -/

/-- SPRD_WRITE (R304). -/
def execSprdWrite (ini : Initiator) (n : Fin 8) (v : Word) (s : State) : Host.Outcome State Fault Refusal :=
  .next (s.command ini .slSprd [n] v)

/-- DISCARD (R307): SPCMD with DISCARD = 1. -/
def execDiscard (ini : Initiator) (n : Fin 8) (v : Word) (s : State) : Host.Outcome State Fault Refusal :=
  .next (s.command ini .slSpcmd [n] (v ||| 0x2))

/-- CNTCLR (R295): SPCMD with CNTCLR = 1. -/
def execCntclr (ini : Initiator) (n : Fin 8) (v : Word) (s : State) : Host.Outcome State Fault Refusal :=
  .next (s.command ini .slSpcmd [n] (v ||| 0x1))

/-- SITELAT_WRITE (R297). -/
def execSitelatWrite (ini : Initiator) (n : Fin 8) (v : Word) (s : State) : Host.Outcome State Fault Refusal :=
  .next (s.command ini .slSitelat [n] v)

/-- SITESET_WRITE (R297). -/
def execSitesetWrite (ini : Initiator) (n : Fin 8) (v : Word) (s : State) : Host.Outcome State Fault Refusal :=
  .next (s.command ini .slSiteset [n] v)

/-- SCOPE_ARM (R310): SCPCMD with ARM = 1. -/
def execScopeArm (ini : Initiator) (n : Fin 8) (v : Word) (s : State) : Host.Outcome State Fault Refusal :=
  .next (s.command ini .slScpcmd [n] (v ||| 0x1))

/-- SCOPE_CANCEL (R316): SCPCMD with CANCEL = 1. -/
def execScopeCancel (ini : Initiator) (n : Fin 8) (v : Word) (s : State) : Host.Outcome State Fault Refusal :=
  .next (s.command ini .slScpcmd [n] (v ||| 0x2))

/-! ## SCAN units (spec/09) -/

/-- SCAN_ENABLE (R347): CTRL with EN = 1. -/
def execScanEnable (ini : Initiator) (u : Fin 4) (v : Word) (s : State) : Host.Outcome State Fault Refusal :=
  .next (s.command ini .scCtrl [u] (v ||| 0x80000000))

/-- SCAN_DISABLE (R352): CTRL with EN = 0. -/
def execScanDisable (ini : Initiator) (u : Fin 4) (v : Word) (s : State) : Host.Outcome State Fault Refusal :=
  .next (s.command ini .scCtrl [u] (v &&& 0x7FFFFFFF))

/-- SCAN_COMMIT (R351): CMD with COMMIT = 1. -/
def execScanCommit (ini : Initiator) (u : Fin 4) (v : Word) (s : State) : Host.Outcome State Fault Refusal :=
  .next (s.command ini .scCmd [u] (v ||| 0x1))

/-- SCAN_BASERDY (R351): CMD with BASERDY = 1. -/
def execScanBaserdy (ini : Initiator) (u : Fin 4) (v : Word) (s : State) : Host.Outcome State Fault Refusal :=
  .next (s.command ini .scCmd [u] (v ||| 0x2))

/-- SCAN_OVLRDY (R351): CMD with OVLRDY = 1. -/
def execScanOvlrdy (ini : Initiator) (u : Fin 4) (v : Word) (s : State) : Host.Outcome State Fault Refusal :=
  .next (s.command ini .scCmd [u] (v ||| 0x4))

/-! ## The DRC (spec/10) -/

/-- HB_INIT (R378): HBCMD with the INIT bits of v. -/
def execHbInit (ini : Initiator) (v : Word) (s : State) : Host.Outcome State Fault Refusal :=
  .next (s.command ini .drcHbcmd [] v)

/-- TRN_WRITE (R379). -/
def execTrnWrite (ini : Initiator) (k : Fin 2) (c : Fin 16) (w : Fin 64) (v : Word) (s : State) :
    Host.Outcome State Fault Refusal :=
  .next (s.command ini .drcTrn [k, c, w] v)

/-- PPR_SOFT (R383): PPR with OP = SOFT. -/
def execPprSoft (ini : Initiator) (v : Word) (s : State) : Host.Outcome State Fault Refusal :=
  .next (s.command ini .drcPpr [] ((v &&& 0x3FFFFFFF) ||| 0x40000000))

/-- PPR_HARD (R383): PPR with OP = HARD. -/
def execPprHard (ini : Initiator) (v : Word) (s : State) : Host.Outcome State Fault Refusal :=
  .next (s.command ini .drcPpr [] ((v &&& 0x3FFFFFFF) ||| 0x80000000))

/-! ## Site cores and the Dispatcher (spec/11) -/

/-- CORE_RUN (R403): CTRL with RUN as v has it. -/
def execCoreRun (ini : Initiator) (c : Fin 8) (v : Word) (s : State) : Host.Outcome State Fault Refusal :=
  .next (s.command ini .dpCoreCtrl [c] v)

/-- CORE_RESET (R403): CTRL with RESET = 1. -/
def execCoreReset (ini : Initiator) (c : Fin 8) (v : Word) (s : State) : Host.Outcome State Fault Refusal :=
  .next (s.command ini .dpCoreCtrl [c] (v ||| 0x2))

/-- MSIP_WRITE (R404). -/
def execMsipWrite (ini : Initiator) (c : Fin 8) (v : Word) (s : State) : Host.Outcome State Fault Refusal :=
  .next (s.command ini .dpCoreMsip [c] v)

/-- DOORBELL (R404): IRQPEND with a 1 at bit 16. -/
def execDoorbell (ini : Initiator) (c : Fin 8) (v : Word) (s : State) : Host.Outcome State Fault Refusal :=
  .next (s.command ini .dpCoreIrqpend [c] (v ||| 0x10000))

/-- PUSH (R406): a 64-bit write to PUSH, or a 64-bit store to a core's PUSH port. -/
def execPush (ini : Initiator) (desc : DWord) (s : State) : Host.Outcome State Fault Refusal :=
  .next (s.regWrite ini .dpPush [] .all desc)

/-- FLUSH (R412): CTRL with FLUSH = 1. -/
def execFlush (ini : Initiator) (v : Word) (s : State) : Host.Outcome State Fault Refusal :=
  .next (s.command ini .dpCtrl [] (v ||| 0x1))

/-! ## Clothesline (spec/12) -/

/-- CL_ENABLE (R430): CTRL with EN = 1. -/
def execClEnable (ini : Initiator) (p : Fin 4) (v : Word) (s : State) : Host.Outcome State Fault Refusal :=
  .next (s.command ini .clCtrl [p] (v ||| 0x80000000))

/-- CL_DISABLE (R430): CTRL with EN = 0. -/
def execClDisable (ini : Initiator) (p : Fin 4) (v : Word) (s : State) : Host.Outcome State Fault Refusal :=
  .next (s.command ini .clCtrl [p] (v &&& 0x7FFFFFFF))

/-- LRST (R448): CTRL with LRST = 1. -/
def execLrst (ini : Initiator) (p : Fin 4) (v : Word) (s : State) : Host.Outcome State Fault Refusal :=
  .next (s.command ini .clCtrl [p] (v ||| 0x40000000))

/-- SUMRX_POP (R456). -/
def execSumrxPop (ini : Initiator) (v : Word) (s : State) : Host.Outcome State Fault Refusal :=
  .next (s.command ini .clSumrxpop [] (v ||| 0x1))

/-- SEARCH (R445): ENUMCTL with SEARCH = 1. -/
def execSearch (ini : Initiator) (v : Word) (s : State) : Host.Outcome State Fault Refusal :=
  .next (s.command ini .clEnumctl [] (v ||| 0x40000000))

/-! ## Time (spec/13) -/

/-- SEND (R469): TRIGCMD with SEND = 1. -/
def execSend (ini : Initiator) (v : Word) (s : State) : Host.Outcome State Fault Refusal :=
  .next (s.command ini .tmTrigcmd [] (v ||| 0x80000000))

/-- SNAP (R458). -/
def execSnap (ini : Initiator) (v : Word) (s : State) : Host.Outcome State Fault Refusal :=
  .next (s.command ini .tmSnapcmd [] (v ||| 0x1))

/-- PHC_SET (R481). -/
def execPhcSet (ini : Initiator) (v : Word) (s : State) : Host.Outcome State Fault Refusal :=
  .next (s.command ini .tmPhccmd [] (v ||| 0x1))

/-- SERVO_UPDATE (R475): a 64-bit write of SRVOFF, or a write of v's low half to its high word. -/
def execServoUpdate (ini : Initiator) (wide : Bool) (v : DWord) (s : State) : Host.Outcome State Fault Refusal :=
  .next (s.regWrite ini .tmSrvoff [] (if wide then .all else .hi) (if wide then v else v <<< 32))

/-- RESETI (R475): SRVCTL with RESETI = 1. -/
def execReseti (ini : Initiator) (v : Word) (s : State) : Host.Outcome State Fault Refusal :=
  .next (s.command ini .tmSrvctl [] (v ||| 0x40000000))

/-- TXTS_POP (R484). -/
def execTxtsPop (ini : Initiator) (v : Word) (s : State) : Host.Outcome State Fault Refusal :=
  .next (s.command ini .tmTxtspop [] (v ||| 0x1))

/-! ## Partitions, mailboxes, the interlock (spec/14) -/

/-- PARTITION_RESET (R489): PRST with the bits of v. -/
def execPartitionReset (ini : Initiator) (v : Word) (s : State) : Host.Outcome State Fault Refusal :=
  .next (s.command ini .prst [] v)

/-- PART_WRITE (R488). -/
def execPartWrite (ini : Initiator) (p : Fin 8) (v : Word) (s : State) : Host.Outcome State Fault Refusal :=
  .next (s.command ini .part [p] v)

/-- GET_INFO (R499): CMD with its OP; the response comes with MAILBOX_RESPONSE. -/
def execGetInfo (ini : Initiator) (p : Fin 8) (v : Word) (s : State) : Host.Outcome State Fault Refusal :=
  .next (s.command ini .mgCmd [p] ((v &&& 0xFFFFFF) ||| 0x1000000))

/-- READ_SENSORS (R499): CMD with its OP; the response comes with MAILBOX_RESPONSE. -/
def execReadSensors (ini : Initiator) (p : Fin 8) (v : Word) (s : State) : Host.Outcome State Fault Refusal :=
  .next (s.command ini .mgCmd [p] ((v &&& 0xFFFFFF) ||| 0x2000000))

/-- READ_LOG (R499): CMD with its OP; the response comes with MAILBOX_RESPONSE. -/
def execReadLog (ini : Initiator) (p : Fin 8) (v : Word) (s : State) : Host.Outcome State Fault Refusal :=
  .next (s.command ini .mgCmd [p] ((v &&& 0xFFFFFF) ||| 0x3000000))

/-- REMOTE_RD (R499): CMD with its OP; the response comes with MAILBOX_RESPONSE. -/
def execRemoteRd (ini : Initiator) (p : Fin 8) (v : Word) (s : State) : Host.Outcome State Fault Refusal :=
  .next (s.command ini .mgCmd [p] ((v &&& 0xFFFFFF) ||| 0x10000000))

/-- REMOTE_WR (R499): CMD with its OP; the response comes with MAILBOX_RESPONSE. -/
def execRemoteWr (ini : Initiator) (p : Fin 8) (v : Word) (s : State) : Host.Outcome State Fault Refusal :=
  .next (s.command ini .mgCmd [p] ((v &&& 0xFFFFFF) ||| 0x11000000))

/-- UPDATE_BEGIN (R499): CMD with its OP; the response comes with MAILBOX_RESPONSE. -/
def execUpdateBegin (ini : Initiator) (p : Fin 8) (v : Word) (s : State) : Host.Outcome State Fault Refusal :=
  .next (s.command ini .mgCmd [p] ((v &&& 0xFFFFFF) ||| 0x20000000))

/-- UPDATE_DATA (R499): CMD with its OP; the response comes with MAILBOX_RESPONSE. -/
def execUpdateData (ini : Initiator) (p : Fin 8) (v : Word) (s : State) : Host.Outcome State Fault Refusal :=
  .next (s.command ini .mgCmd [p] ((v &&& 0xFFFFFF) ||| 0x21000000))

/-- UPDATE_END (R499): CMD with its OP; the response comes with MAILBOX_RESPONSE. -/
def execUpdateEnd (ini : Initiator) (p : Fin 8) (v : Word) (s : State) : Host.Outcome State Fault Refusal :=
  .next (s.command ini .mgCmd [p] ((v &&& 0xFFFFFF) ||| 0x22000000))

/-- CONFIRM (R499): CMD with its OP; the response comes with MAILBOX_RESPONSE. -/
def execConfirm (ini : Initiator) (p : Fin 8) (v : Word) (s : State) : Host.Outcome State Fault Refusal :=
  .next (s.command ini .mgCmd [p] ((v &&& 0xFFFFFF) ||| 0x23000000))

/-- COMMIT_SVN (R499): CMD with its OP; the response comes with MAILBOX_RESPONSE. -/
def execCommitSvn (ini : Initiator) (p : Fin 8) (v : Word) (s : State) : Host.Outcome State Fault Refusal :=
  .next (s.command ini .mgCmd [p] ((v &&& 0xFFFFFF) ||| 0x24000000))

/-- ILK_FAULT_CLEAR (R508): ILK with FAULT = 1. -/
def execIlkFaultClear (ini : Initiator) (v : Word) (s : State) : Host.Outcome State Fault Refusal :=
  .next (s.command ini .ilk [] (v ||| 0x80000000))

/-! ## Patches (spec/15) -/

/-- LOAD (R528): UPCMD with LOAD = 1. -/
def execLoad (ini : Initiator) (v : Word) (s : State) : Host.Outcome State Fault Refusal :=
  .next (s.command ini .upcmd [] (v ||| 0x1))

/-- REJECT (R528): UPCMD with REJECT = 1. -/
def execReject (ini : Initiator) (v : Word) (s : State) : Host.Outcome State Fault Refusal :=
  .next (s.command ini .upcmd [] (v ||| 0x2))

/-! ## Hamper, Press and self-test (spec/16) -/

/-- POP (R565). -/
def execPop (ini : Initiator) (v : Word) (s : State) : Host.Outcome State Fault Refusal :=
  .next (s.command ini .hmPop [] (v ||| 0x1))

/-- AONCLR (R566): the copies that v names. -/
def execAonclr (ini : Initiator) (v : Word) (s : State) : Host.Outcome State Fault Refusal :=
  .next (s.command ini .hmAonclr [] v)

/-- INJECT_SINGLE (R544): INJ with ARM = 1 and MODE = SINGLE. -/
def execInjectSingle (ini : Initiator) (v : Word) (s : State) : Host.Outcome State Fault Refusal :=
  .next (s.command ini .hmInj [] ((v &&& 0x7CFFFFFF) ||| 0x80000000))

/-- INJECT_DOUBLE (R544): INJ with ARM = 1 and MODE = DOUBLE. -/
def execInjectDouble (ini : Initiator) (v : Word) (s : State) : Host.Outcome State Fault Refusal :=
  .next (s.command ini .hmInj [] ((v &&& 0x7CFFFFFF) ||| 0x81000000))

/-- INJECT_WIRE (R544): INJ with ARM = 1 and MODE = WIRE. -/
def execInjectWire (ini : Initiator) (v : Word) (s : State) : Host.Outcome State Fault Refusal :=
  .next (s.command ini .hmInj [] ((v &&& 0x7CFFFFFF) ||| 0x82000000))

/-- PRESS_RUN (R548): CTRL with RUN = 1. -/
def execPressRun (ini : Initiator) (n : Fin 8) (v : Word) (s : State) : Host.Outcome State Fault Refusal :=
  .next (s.command ini .prCtrl [n] (v ||| 0x2))

/-- BIST_START (R556): CMD with START = 1. -/
def execBistStart (ini : Initiator) (v : Word) (s : State) : Host.Outcome State Fault Refusal :=
  .next (s.command ini .prBistCmd [] (v ||| 0x80000000))

/-- BIST_ABORT (R556): CMD with ABORT = 1. -/
def execBistAbort (ini : Initiator) (v : Word) (s : State) : Host.Outcome State Fault Refusal :=
  .next (s.command ini .prBistCmd [] (v ||| 0x40000000))

/-- SUBMIT (R555): TOKCMD with SUBMIT = 1. -/
def execSubmit (ini : Initiator) (v : Word) (s : State) : Host.Outcome State Fault Refusal :=
  .next (s.command ini .prBistTokcmd [] (v ||| 0x1))

/-- FUSE (R562): DARN.CMD with FUSE = 1. -/
def execFuse (ini : Initiator) (v : Word) (s : State) : Host.Outcome State Fault Refusal :=
  .next (s.command ini .prDarnCmd [] (v ||| 0x1))

/-! ## Resets and power (spec/17) -/

/-- WARM (R576): RST with WARM = 1. -/
def execWarm (ini : Initiator) (v : Word) (s : State) : Host.Outcome State Fault Refusal :=
  .next (s.command ini .rst [] (v ||| 0x80000000))

/-- SLICE (R575): RST with the SLICE bits of v. -/
def execSlice (ini : Initiator) (v : Word) (s : State) : Host.Outcome State Fault Refusal :=
  .next (s.command ini .rst [] v)

/-- MGMT (R576): RST with MGMT = 1. -/
def execMgmt (ini : Initiator) (v : Word) (s : State) : Host.Outcome State Fault Refusal :=
  .next (s.command ini .rst [] (v ||| 0x10000))

/-- STANDBY (R581): PWRCTL with STANDBY = 1. -/
def execStandby (ini : Initiator) (v : Word) (s : State) : Host.Outcome State Fault Refusal :=
  .next (s.command ini .pwrctl [] (v ||| 0x80000000))

/-- STANDBY_EXIT (R582): PWRCTL with STANDBY = 0. -/
def execStandbyExit (ini : Initiator) (v : Word) (s : State) : Host.Outcome State Fault Refusal :=
  .next (s.command ini .pwrctl [] (v &&& 0x7FFFFFFF))

/-- PARK (R579): PWRCTL with the PARK bits of v. -/
def execPark (ini : Initiator) (v : Word) (s : State) : Host.Outcome State Fault Refusal :=
  .next (s.command ini .pwrctl [] v)

/-- UNPARK (R579): PWRCTL with the PARK bits of v. -/
def execUnpark (ini : Initiator) (v : Word) (s : State) : Host.Outcome State Fault Refusal :=
  .next (s.command ini .pwrctl [] v)

/-- SVCOFF_SL (R588). -/
def execSvcoffSl (ini : Initiator) (v : Word) (s : State) : Host.Outcome State Fault Refusal :=
  .next (s.command ini .svcoff [] v)

/-- SVCOFF_SCAN (R588). -/
def execSvcoffScan (ini : Initiator) (v : Word) (s : State) : Host.Outcome State Fault Refusal :=
  .next (s.command ini .svcoff [] v)

/-- SVCOFF_HB (R588). -/
def execSvcoffHb (ini : Initiator) (v : Word) (s : State) : Host.Outcome State Fault Refusal :=
  .next (s.command ini .svcoff [] v)

end Sys2Proof.Machine
end

