-- ==== Sys2Proof/Machine/RtPorts.lean ====
section
/-! DEFINITION. What real-time ports move at commands of their own: Spool drains, the counts of the scope, SCAN lines (spec/08 R302 to
R306, R312 to R315, spec/09 R344, R349). -/

namespace Sys2Proof.Machine

open Sys2Proof

/-! ## The Spool's port -/

/-- SPOOL_DRAIN: the oldest record of the stage written to the ring, once the DRC takes it behind what the port wrote before (spec/10
R366); a full ring holds the drain, but under OVERWRITE SPRD advances first. -/
def execSpoolDrain (n : Fin 8) (s : State) : Host.Outcome State Fault Refusal :=
  .next <|
    let s := s.drcCycle
    match s.sl[n].stage, s.regionOf 2 n with
    | r :: rest, some (base, size) =>
      let c := size / 32
      let a := base + 32 * (s.rd (fSlSpwr_COUNT n) % c)
      let full := s.ringDepth n == c
      let ovf := s.rd (fSlSpcfg_POLICY n) == 2
      if (full && !ovf) || !s.bulkServed (.spool n) a 32 then s
      else
        let s := if full then s.wrs [(fSlSprd_COUNT n, s.rd (fSlSprd_COUNT n) + 1), (fSlSpstat_OVWR n, 1)] else s
        let s := (s.tookTurns (.spool n) a 32).store a r.bytes
        (s.wr (fSlSpwr_COUNT n) (s.rd (fSlSpwr_COUNT n) + 1)).modSl n fun x => { x with stage := rest }
    | _, _ => s

/-- A count stored at its place in the SPOOL region, or waiting where the DRC does not take it yet; with no region in force the write
is refused (spec/08 R312, spec/10 R366, spec/03 R95). -/
def State.storeCount (s : State) (n : Fin 8) (place count : Nat) : State :=
  match s.regionOf 2 n with
  | some (base, _) =>
    let a := base + 2 * place
    let bs := leBytes 2 count
    if s.bulkServed (.spool n) a 2 then (s.tookTurns (.spool n) a 2).store a bs
    else s.modDrc fun d => { d with waiting := d.waiting ++ s.asks (.spool n) a 2 (some bs) none }
  | none => s.hbmRefuse (.spool n) (2 * place)

/-- The acquisition is DONE: the trigger point is computed from the counts of row TRIGROW (spec/08 R315, assumption 68). -/
def State.scopeDone (s : State) (n : Fin 8) : State :=
  let s := match triggerPoint (s.rd (fSlScphits_HITS n)) (s.on (fSlScpcfg_FALL n)) 1 s.sl[n].scope.counts with
    | some p => s.wrs [(fSlScptrig_POINT n, p), (fSlScptrig_VALID n, 1)]
    | none => s.wr (fSlScptrig_NOCROSS n) 1
  s.scopeEnd n .done

/-- A count stored, and kept where it is of row TRIGROW; the engine goes on to the next point, the next row or the end (spec/08
R312). -/
def State.scopeStore (s : State) (n : Fin 8) (count : Nat) : State :=
  let row := s.sl[n].scope.row
  let point := s.sl[n].scope.point
  let np := s.rd (fSlScppts_NPTS n)
  let mine := row == s.rd (fSlScpcfg_TRIGROW n)
  let s := (s.storeCount n (row * np + point) count).modScope n fun c => { c with
    counts := if mine then c.counts ++ [count] else c.counts, hit := 0, count := 0, trig := none }
  if point + 1 < np then s.modScope n fun c => { c with point := point + 1 }
  else if row + 1 < s.rd (fSlScpcfg_NLEV n) then
    (s.modScope n fun c => { c with st := .settle, row := row + 1, point := 0 }).stageVoh n (s.rowCode n (row + 1)).toNat
  else s.scopeDone n

/-- SCOPE_SAMPLE (spec/08 R312, R313). A sample whose instant comes after its burst's pins are parked is not taken: the trigger went as
they parked. -/
def execScopeSample (n : Fin 8) (above : Bool) (s : State) : Host.Outcome State Fault Refusal :=
  .next <|
    let s := s.drcCycle
    let x := s.sl[n].scope
    if x.st != .sampling || x.trig.isNone then s
    else
      let count := x.count + b2n above
      if x.hit + 1 < s.rd (fSlScphits_HITS n) then
        s.modScope n fun c => { c with hit := x.hit + 1, count := count, trig := none }
      else s.scopeStore n count

/-! ## SCAN lines -/

/-- The ranges that line y of the layers of a set of frame registers is read from. -/
def State.lineRanges (s : State) (u : Fin 4) (f : Vector Word 8) (ovl : Bool) (y : Nat) : List (Nat × Nat) :=
  match s.regionOf 3 u with
  | none => []
  | some (base, _) =>
    let pb := s.pixelBytes u
    (base + fBaseOff f + fBaseStride f * y, s.rd (fScHtim_HACT u) * pb) ::
      if ovl && decide (fOvlY f ≤ y) && decide (y < fOvlY f + fOvlH f) then
        [(base + fOvlOff f + fOvlStride f * (y - fOvlY f), fOvlW f * pb)]
      else []

/-- SCAN_LINE_FETCHED: line 0 belongs to the next frame, every other line to the frame that plays. -/
def execScanLineFetched (u : Fin 4) (s : State) : Host.Outcome State Fault Refusal :=
  .next <|
    let s := s.drcCycle
    match s.scan[u].fetch with
    | [] => s
    | y :: rest =>
      let x := s.scan[u]
      let f := if y = 0 then x.live else x.frameLive
      let data := s.lineData u f x.showOvl y
      let tick := s.time.tick.toNat
      let s := s.each (s.lineRanges u f x.showOvl y) fun e s => s.tookTurns (.scan u) e.1 e.2
      (s.modScan u fun c =>
        let c := { c with fetch := rest, lines := c.lines ++ [(y, data)] }
        if c.st = .wait && y = 0 then { c with st := .primed, primedAt := tick } else c) |>.markLead u

end Sys2Proof.Machine
end

