-- ==== Sys2Proof/Machine/Dispatch.lean ====
section
/-! DEFINITION. One arm per command. -/

namespace Sys2Proof.Machine

open Sys2Proof

/-- The effect of a command on everything but the queue. -/
def exec (i : Instr) (s : State) : Host.Outcome State Fault Refusal :=
  match i with
  | .registerWrite ini addr size wr => Sys2Proof.Machine.execRegisterWrite ini addr size wr s
  | .shadowLowWordRead ini addr => Sys2Proof.Machine.execShadowLowWordRead ini addr s
  | .refLost => Sys2Proof.Machine.execRefLost s
  | .refValid => Sys2Proof.Machine.execRefValid s
  | .rootReturnToRef => Sys2Proof.Machine.execRootReturnToRef s
  | .xoLost => Sys2Proof.Machine.execXoLost s
  | .xoValid => Sys2Proof.Machine.execXoValid s
  | .trootLockLost => Sys2Proof.Machine.execTrootLockLost s
  | .clkctlWrite ini v => Sys2Proof.Machine.execClkctlWrite ini v s
  | .eventPathDbe n => Sys2Proof.Machine.execEventPathDbe n s
  | .controlPathDbe pe => Sys2Proof.Machine.execControlPathDbe pe s
  | .start ini n v => Sys2Proof.Machine.execStart ini n v s
  | .admissionResult n => Sys2Proof.Machine.execAdmissionResult n s
  | .prefillDone n => Sys2Proof.Machine.execPrefillDone n s
  | .burstT0 n => Sys2Proof.Machine.execBurstT0 n s
  | .abortHem ini n v => Sys2Proof.Machine.execAbortHem ini n v s
  | .abortNow ini n v => Sys2Proof.Machine.execAbortNow ini n v s
  | .pinsPark n => Sys2Proof.Machine.execPinsPark n s
  | .burstIdle n => Sys2Proof.Machine.execBurstIdle n s
  | .hemBoundary n => Sys2Proof.Machine.execHemBoundary n s
  | .fseamHandover n => Sys2Proof.Machine.execFseamHandover n s
  | .synthRecovered n b => Sys2Proof.Machine.execSynthRecovered n b s
  | .synthFault n => Sys2Proof.Machine.execSynthFault n s
  | .dllLockLost n => Sys2Proof.Machine.execDllLockLost n s
  | .driveEvent n lane vec slot => Sys2Proof.Machine.execDriveEvent n lane vec slot s
  | .strobe n lane vec unit obs => Sys2Proof.Machine.execStrobe n lane vec unit obs s
  | .evtInputEdge e tm => Sys2Proof.Machine.execEvtInputEdge e tm s
  | .streamUnderrun n => Sys2Proof.Machine.execStreamUnderrun n s
  | .streamEccError n data seg off vec word => Sys2Proof.Machine.execStreamEccError n data seg off vec word s
  | .adv n word => Sys2Proof.Machine.execAdv n word s
  | .rpt n k word => Sys2Proof.Machine.execRpt n k word s
  | .jmp n word => Sys2Proof.Machine.execJmp n word s
  | .fseam n word => Sys2Proof.Machine.execFseam n word s
  | .call n word => Sys2Proof.Machine.execCall n word s
  | .ret n word => Sys2Proof.Machine.execRet n word s
  | .halt n word => Sys2Proof.Machine.execHalt n word s
  | .ldc n k word => Sys2Proof.Machine.execLdc n k word s
  | .loop n word => Sys2Proof.Machine.execLoop n word s
  | .brc n word evt => Sys2Proof.Machine.execBrc n word evt s
  | .mwait n word evt => Sys2Proof.Machine.execMwait n word evt s
  | .tset n k word => Sys2Proof.Machine.execTset n k word s
  | .lvl n k word => Sys2Proof.Machine.execLvl n k word s
  | .pmu n k word => Sys2Proof.Machine.execPmu n k word s
  | .tdc n k word => Sys2Proof.Machine.execTdc n k word s
  | .mkset n k word => Sys2Proof.Machine.execMkset n k word s
  | .mkclr n k word => Sys2Proof.Machine.execMkclr n k word s
  | .smaskLoad n k word => Sys2Proof.Machine.execSmaskLoad n k word s
  | .smaskEnable n k word => Sys2Proof.Machine.execSmaskEnable n k word s
  | .smaskDisable n k word => Sys2Proof.Machine.execSmaskDisable n k word s
  | .smaskDropFailed n k word => Sys2Proof.Machine.execSmaskDropFailed n k word s
  | .slatchAccum n k word => Sys2Proof.Machine.execSlatchAccum n k word s
  | .slatchAccumClrw n k word => Sys2Proof.Machine.execSlatchAccumClrw n k word s
  | .slatchClrw n k word => Sys2Proof.Machine.execSlatchClrw n k word s
  | .slatchReset n k word => Sys2Proof.Machine.execSlatchReset n k word s
  | .gsync n k word inStep => Sys2Proof.Machine.execGsync n k word inStep s
  | .queueEntryArrival n => Sys2Proof.Machine.execQueueEntryArrival n s
  | .markerEdge n m => Sys2Proof.Machine.execMarkerEdge n m s
  | .dacTick => Sys2Proof.Machine.execDacTick s
  | .resvWrite ini n v => Sys2Proof.Machine.execResvWrite ini n v s
  | .ddistWrite ini n v => Sys2Proof.Machine.execDdistWrite ini n v s
  | .segOpen ini n v => Sys2Proof.Machine.execSegOpen ini n v s
  | .segSeal ini n v => Sys2Proof.Machine.execSegSeal ini n v s
  | .segDrop ini n v => Sys2Proof.Machine.execSegDrop ini n v s
  | .dmaSeal c => Sys2Proof.Machine.execDmaSeal c s
  | .verifyBegin n => Sys2Proof.Machine.execVerifyBegin n s
  | .verifyDone n ecc => Sys2Proof.Machine.execVerifyDone n ecc s
  | .loaddonePost n => Sys2Proof.Machine.execLoaddonePost n s
  | .loaddoneRead ini n wide => Sys2Proof.Machine.execLoaddoneRead ini n wide s
  | .hregCtrlWrite ini k v => Sys2Proof.Machine.execHregCtrlWrite ini k v s
  | .hbmAccess who addr len wr => Sys2Proof.Machine.execHbmAccess who addr len wr s
  | .smapCommit ini n v => Sys2Proof.Machine.execSmapCommit ini n v s
  | .smapRevert ini n v => Sys2Proof.Machine.execSmapRevert ini n v s
  | .gangWrite ini n v => Sys2Proof.Machine.execGangWrite ini n v s
  | .pincfgWrite ini n lane v => Sys2Proof.Machine.execPincfgWrite ini n lane v s
  | .lvlpush ini n wide v => Sys2Proof.Machine.execLvlpush ini n wide v s
  | .pmuWrite ini n lane v => Sys2Proof.Machine.execPmuWrite ini n lane v s
  | .pmuQueueTake n => Sys2Proof.Machine.execPmuQueueTake n s
  | .adcStart ini n v => Sys2Proof.Machine.execAdcStart ini n v s
  | .adcStop ini n v => Sys2Proof.Machine.execAdcStop ini n v s
  | .adcTimer n => Sys2Proof.Machine.execAdcTimer n s
  | .adcDelayExpiry n => Sys2Proof.Machine.execAdcDelayExpiry n s
  | .adcSampleDone n sample => Sys2Proof.Machine.execAdcSampleDone n sample s
  | .adcUrgentRequest n => Sys2Proof.Machine.execAdcUrgentRequest n s
  | .adcresRead ini n wide => Sys2Proof.Machine.execAdcresRead ini n wide s
  | .tdcArm ini n v => Sys2Proof.Machine.execTdcArm ini n v s
  | .tdcCancel ini n v => Sys2Proof.Machine.execTdcCancel ini n v s
  | .tdcArmed n => Sys2Proof.Machine.execTdcArmed n s
  | .tdcStop n raw => Sys2Proof.Machine.execTdcStop n raw s
  | .tdcTimeout n => Sys2Proof.Machine.execTdcTimeout n s
  | .tdcLockLost n => Sys2Proof.Machine.execTdcLockLost n s
  | .tdcresRead ini n wide => Sys2Proof.Machine.execTdcresRead ini n wide s
  | .xoDisciplineUpdate ppb => Sys2Proof.Machine.execXoDisciplineUpdate ppb s
  | .xotbWrite ini v => Sys2Proof.Machine.execXotbWrite ini v s
  | .spoolRecord n => Sys2Proof.Machine.execSpoolRecord n s
  | .spoolDrain n => Sys2Proof.Machine.execSpoolDrain n s
  | .sprdWrite ini n v => Sys2Proof.Machine.execSprdWrite ini n v s
  | .discard ini n v => Sys2Proof.Machine.execDiscard ini n v s
  | .cntclr ini n v => Sys2Proof.Machine.execCntclr ini n v s
  | .sitelatWrite ini n v => Sys2Proof.Machine.execSitelatWrite ini n v s
  | .sitesetWrite ini n v => Sys2Proof.Machine.execSitesetWrite ini n v s
  | .scopeArm ini n v => Sys2Proof.Machine.execScopeArm ini n v s
  | .scopeCancel ini n v => Sys2Proof.Machine.execScopeCancel ini n v s
  | .scopeSettled n => Sys2Proof.Machine.execScopeSettled n s
  | .scopeTrigger n vec => Sys2Proof.Machine.execScopeTrigger n vec s
  | .scopeForcedTrigger n => Sys2Proof.Machine.execScopeForcedTrigger n s
  | .scopeSample n above => Sys2Proof.Machine.execScopeSample n above s
  | .scanEnable ini u v => Sys2Proof.Machine.execScanEnable ini u v s
  | .scanDisable ini u v => Sys2Proof.Machine.execScanDisable ini u v s
  | .scanCommit ini u v => Sys2Proof.Machine.execScanCommit ini u v s
  | .scanBaserdy ini u v => Sys2Proof.Machine.execScanBaserdy ini u v s
  | .scanOvlrdy ini u v => Sys2Proof.Machine.execScanOvlrdy ini u v s
  | .scanLineFetched u => Sys2Proof.Machine.execScanLineFetched u s
  | .scanRasterStart u => Sys2Proof.Machine.execScanRasterStart u s
  | .scanLineStart u => Sys2Proof.Machine.execScanLineStart u s
  | .scanUnderrun u => Sys2Proof.Machine.execScanUnderrun u s
  | .refreshDue pc => Sys2Proof.Machine.execRefreshDue pc s
  | .forcedBurstRefresh pc => Sys2Proof.Machine.execForcedBurstRefresh pc s
  | .rowActivate pc sid bank row draw => Sys2Proof.Machine.execRowActivate pc sid bank row draw s
  | .targetedRefresh pc sid bank row => Sys2Proof.Machine.execTargetedRefresh pc sid bank row s
  | .probRefresh pc sid bank row => Sys2Proof.Machine.execProbRefresh pc sid bank row s
  | .hbmTempRead k temp => Sys2Proof.Machine.execHbmTempRead k temp s
  | .panicLong => Sys2Proof.Machine.execPanicLong s
  | .hbmCorrectedError addr => Sys2Proof.Machine.execHbmCorrectedError addr s
  | .hbmUncorrectableError addr who => Sys2Proof.Machine.execHbmUncorrectableError addr who s
  | .hbInit ini v => Sys2Proof.Machine.execHbInit ini v s
  | .hbInitDone k pass => Sys2Proof.Machine.execHbInitDone k pass s
  | .trnWrite ini k c w v => Sys2Proof.Machine.execTrnWrite ini k c w v s
  | .pprSoft ini v => Sys2Proof.Machine.execPprSoft ini v s
  | .pprHard ini v => Sys2Proof.Machine.execPprHard ini v s
  | .pprDone res => Sys2Proof.Machine.execPprDone res s
  | .coreRun ini c v => Sys2Proof.Machine.execCoreRun ini c v s
  | .coreReset ini c v => Sys2Proof.Machine.execCoreReset ini c v s
  | .coreUe c => Sys2Proof.Machine.execCoreUe c s
  | .coreTimerInterrupt c => Sys2Proof.Machine.execCoreTimerInterrupt c s
  | .msipWrite ini c v => Sys2Proof.Machine.execMsipWrite ini c v s
  | .doorbell ini c v => Sys2Proof.Machine.execDoorbell ini c v s
  | .push ini desc => Sys2Proof.Machine.execPush ini desc s
  | .dispatchGrant => Sys2Proof.Machine.execDispatchGrant s
  | .get c => Sys2Proof.Machine.execGet c s
  | .getRelease c => Sys2Proof.Machine.execGetRelease c s
  | .done c => Sys2Proof.Machine.execDone c s
  | .flush ini v => Sys2Proof.Machine.execFlush ini v s
  | .clEnable ini p v => Sys2Proof.Machine.execClEnable ini p v s
  | .clDisable ini p v => Sys2Proof.Machine.execClDisable ini p v s
  | .lrst ini p v => Sys2Proof.Machine.execLrst ini p v s
  | .losSet p l => Sys2Proof.Machine.execLosSet p l s
  | .losClear p l => Sys2Proof.Machine.execLosClear p l s
  | .lolSet p l => Sys2Proof.Machine.execLolSet p l s
  | .lolClear p l => Sys2Proof.Machine.execLolClear p l s
  | .rxBlock p l hdr btype => Sys2Proof.Machine.execRxBlock p l hdr btype s
  | .train p l => Sys2Proof.Machine.execTrain p l s
  | .align p l block => Sys2Proof.Machine.execAlign p l block s
  | .alignTx p => Sys2Proof.Machine.execAlignTx p s
  | .ack p body crc => Sys2Proof.Machine.execAck p body crc s
  | .nak p body crc => Sys2Proof.Machine.execNak p body crc s
  | .recover p rdy swdly => Sys2Proof.Machine.execRecover p rdy swdly s
  | .hello p version trusted rxok drive swdly serial => Sys2Proof.Machine.execHello p version trusted rxok drive swdly serial s
  | .helloTimer p => Sys2Proof.Machine.execHelloTimer p s
  | .frameCrcError p => Sys2Proof.Machine.execFrameCrcError p s
  | .txFrame p => Sys2Proof.Machine.execTxFrame p s
  | .ackTimer p => Sys2Proof.Machine.execAckTimer p s
  | .replayTimeout p => Sys2Proof.Machine.execReplayTimeout p s
  | .attemptTimeout p => Sys2Proof.Machine.execAttemptTimeout p s
  | .downRetry p => Sys2Proof.Machine.execDownRetry p s
  | .switchTimeout p => Sys2Proof.Machine.execSwitchTimeout p s
  | .recoverTimeout p => Sys2Proof.Machine.execRecoverTimeout p s
  | .peerBucketRefill p k => Sys2Proof.Machine.execPeerBucketRefill p k s
  | .summary p hdr vec map tag slices => Sys2Proof.Machine.execSummary p hdr vec map tag slices s
  | .sumrxPop ini v => Sys2Proof.Machine.execSumrxPop ini v s
  | .regrd p hdr tag off => Sys2Proof.Machine.execRegrd p hdr tag off s
  | .regwr p hdr tag off data => Sys2Proof.Machine.execRegwr p hdr tag off data s
  | .regrsp p hdr tag off status data => Sys2Proof.Machine.execRegrsp p hdr tag off status data s
  | .discover p hdr gen depth partnerRoot => Sys2Proof.Machine.execDiscover p hdr gen depth partnerRoot s
  | .join p hdr gen => Sys2Proof.Machine.execJoin p hdr gen s
  | .alt p hdr gen => Sys2Proof.Machine.execAlt p hdr gen s
  | .report p hdr gen serial hint => Sys2Proof.Machine.execReport p hdr gen serial hint s
  | .fin p hdr gen count overflow => Sys2Proof.Machine.execFin p hdr gen count overflow s
  | .assign p hdr gen serial index => Sys2Proof.Machine.execAssign p hdr gen serial index s
  | .doneEnum p hdr gen => Sys2Proof.Machine.execDoneEnum p hdr gen s
  | .change p hdr gen => Sys2Proof.Machine.execChange p hdr gen s
  | .adopt p hdr gen => Sys2Proof.Machine.execAdopt p hdr gen s
  | .search ini v => Sys2Proof.Machine.execSearch ini v s
  | .enumPortChange p => Sys2Proof.Machine.execEnumPortChange p s
  | .syncTimer => Sys2Proof.Machine.execSyncTimer s
  | .sync p hdr prio hops sseq tick tap serial arrival => Sys2Proof.Machine.execSync p hdr prio hops sseq tick tap serial arrival s
  | .sourceTimeout => Sys2Proof.Machine.execSourceTimeout s
  | .masterTakeover => Sys2Proof.Machine.execMasterTakeover s
  | .delayExchangeTimer p departure => Sys2Proof.Machine.execDelayExchangeTimer p departure s
  | .dreq p hdr num arrival departure => Sys2Proof.Machine.execDreq p hdr num arrival departure s
  | .dresp p hdr num turn arrival => Sys2Proof.Machine.execDresp p hdr num turn arrival s
  | .late p hdr num index behind => Sys2Proof.Machine.execLate p hdr num index behind s
  | .trig p hdr num tm => Sys2Proof.Machine.execTrig p hdr num tm s
  | .send ini v => Sys2Proof.Machine.execSend ini v s
  | .triggerAction => Sys2Proof.Machine.execTriggerAction s
  | .snap ini v => Sys2Proof.Machine.execSnap ini v s
  | .phcSet ini v => Sys2Proof.Machine.execPhcSet ini v s
  | .servoUpdate ini wide v => Sys2Proof.Machine.execServoUpdate ini wide v s
  | .reseti ini v => Sys2Proof.Machine.execReseti ini v s
  | .txtsPop ini v => Sys2Proof.Machine.execTxtsPop ini v s
  | .pcieLinkDown => Sys2Proof.Machine.execPcieLinkDown s
  | .flr p => Sys2Proof.Machine.execFlr p s
  | .partitionReset ini v => Sys2Proof.Machine.execPartitionReset ini v s
  | .partWrite ini p v => Sys2Proof.Machine.execPartWrite ini p v s
  | .dmaChunk c desc data end_ => Sys2Proof.Machine.execDmaChunk c desc data end_ s
  | .dmaStatusWrite c => Sys2Proof.Machine.execDmaStatusWrite c s
  | .getInfo ini p v => Sys2Proof.Machine.execGetInfo ini p v s
  | .readSensors ini p v => Sys2Proof.Machine.execReadSensors ini p v s
  | .readLog ini p v => Sys2Proof.Machine.execReadLog ini p v s
  | .remoteRd ini p v => Sys2Proof.Machine.execRemoteRd ini p v s
  | .remoteWr ini p v => Sys2Proof.Machine.execRemoteWr ini p v s
  | .remoteTimeout => Sys2Proof.Machine.execRemoteTimeout s
  | .updateBegin ini p v => Sys2Proof.Machine.execUpdateBegin ini p v s
  | .updateData ini p v => Sys2Proof.Machine.execUpdateData ini p v s
  | .updateEnd ini p v => Sys2Proof.Machine.execUpdateEnd ini p v s
  | .confirm ini p v => Sys2Proof.Machine.execConfirm ini p v s
  | .commitSvn ini p v => Sys2Proof.Machine.execCommitSvn ini p v s
  | .mailboxResponse p check info => Sys2Proof.Machine.execMailboxResponse p check info s
  | .sensorSample readings => Sys2Proof.Machine.execSensorSample readings s
  | .safePins data pec => Sys2Proof.Machine.execSafePins data pec s
  | .safeRelease data pec => Sys2Proof.Machine.execSafeRelease data pec s
  | .readHamperLog pec => Sys2Proof.Machine.execReadHamperLog pec s
  | .readTemps pec age reach => Sys2Proof.Machine.execReadTemps pec age reach s
  | .powerDownPe data pec => Sys2Proof.Machine.execPowerDownPe data pec s
  | .fullReset data pec => Sys2Proof.Machine.execFullReset data pec s
  | .smbGetInfo pec info => Sys2Proof.Machine.execSmbGetInfo pec info s
  | .smbReadSensors pec => Sys2Proof.Machine.execSmbReadSensors pec s
  | .smbReadLog pec first count => Sys2Proof.Machine.execSmbReadLog pec first count s
  | .alertResponse => Sys2Proof.Machine.execAlertResponse s
  | .interlockChange a b => Sys2Proof.Machine.execInterlockChange a b s
  | .interlockFault => Sys2Proof.Machine.execInterlockFault s
  | .ilkFaultClear ini v => Sys2Proof.Machine.execIlkFaultClear ini v s
  | .ethTxFrame e stamp ecc => Sys2Proof.Machine.execEthTxFrame e stamp ecc s
  | .ethRxFrame e frame fcs stamp ecc => Sys2Proof.Machine.execEthRxFrame e frame fcs stamp ecc s
  | .ethLinkDown e => Sys2Proof.Machine.execEthLinkDown e s
  | .load ini v => Sys2Proof.Machine.execLoad ini v s
  | .reject ini v => Sys2Proof.Machine.execReject ini v s
  | .patchLoadDone tag ecc plain => Sys2Proof.Machine.execPatchLoadDone tag ecc plain s
  | .csCorrectedError n => Sys2Proof.Machine.execCsCorrectedError n s
  | .csUncorrectableError n => Sys2Proof.Machine.execCsUncorrectableError n s
  | .seqStateCorrect n entry => Sys2Proof.Machine.execSeqStateCorrect n entry s
  | .hamperErrorEvent src detail => Sys2Proof.Machine.execHamperErrorEvent src detail s
  | .hamperWireFault src => Sys2Proof.Machine.execHamperWireFault src s
  | .fatalFault src domainLost => Sys2Proof.Machine.execFatalFault src domainLost s
  | .pop ini v => Sys2Proof.Machine.execPop ini v s
  | .aonclr ini v => Sys2Proof.Machine.execAonclr ini v s
  | .injectSingle ini v => Sys2Proof.Machine.execInjectSingle ini v s
  | .injectDouble ini v => Sys2Proof.Machine.execInjectDouble ini v s
  | .injectWire ini v => Sys2Proof.Machine.execInjectWire ini v s
  | .pressRun ini n v => Sys2Proof.Machine.execPressRun ini n v s
  | .pressAutoStart n => Sys2Proof.Machine.execPressAutoStart n s
  | .pressRunDone n res => Sys2Proof.Machine.execPressRunDone n res s
  | .pressSwitchRestore n => Sys2Proof.Machine.execPressSwitchRestore n s
  | .bistStart ini v => Sys2Proof.Machine.execBistStart ini v s
  | .bistAbort ini v => Sys2Proof.Machine.execBistAbort ini v s
  | .bistDone rep => Sys2Proof.Machine.execBistDone rep s
  | .rinseStep => Sys2Proof.Machine.execRinseStep s
  | .rinseStepDone rep => Sys2Proof.Machine.execRinseStepDone rep s
  | .submit ini v => Sys2Proof.Machine.execSubmit ini v s
  | .tokenVerifyDone sig => Sys2Proof.Machine.execTokenVerifyDone sig s
  | .fuse ini v => Sys2Proof.Machine.execFuse ini v s
  | .powerOnReset vaon => Sys2Proof.Machine.execPowerOnReset vaon s
  | .perstN => Sys2Proof.Machine.execPerstN s
  | .warm ini v => Sys2Proof.Machine.execWarm ini v s
  | .slice ini v => Sys2Proof.Machine.execSlice ini v s
  | .mgmt ini v => Sys2Proof.Machine.execMgmt ini v s
  | .bootVerifyDone a b ms => Sys2Proof.Machine.execBootVerifyDone a b ms s
  | .pwrgoodFall => Sys2Proof.Machine.execPwrgoodFall s
  | .railFault => Sys2Proof.Machine.execRailFault s
  | .vaonLoss => Sys2Proof.Machine.execVaonLoss s
  | .standby ini v => Sys2Proof.Machine.execStandby ini v s
  | .standbyExit ini v => Sys2Proof.Machine.execStandbyExit ini v s
  | .park ini v => Sys2Proof.Machine.execPark ini v s
  | .unpark ini v => Sys2Proof.Machine.execUnpark ini v s
  | .svcoffSl ini v => Sys2Proof.Machine.execSvcoffSl ini v s
  | .svcoffScan ini v => Sys2Proof.Machine.execSvcoffScan ini v s
  | .svcoffHb ini v => Sys2Proof.Machine.execSvcoffHb ini v s
  | .shadowHighWordRead ini addr => Sys2Proof.Machine.execShadowHighWordRead ini addr s
  | .rootPllLocked => Sys2Proof.Machine.execRootPllLocked s
  | .railsInRange => Sys2Proof.Machine.execRailsInRange s
  | .mgmtFirmwareRunning => Sys2Proof.Machine.execMgmtFirmwareRunning s
  | .ethLinkUp e => Sys2Proof.Machine.execEthLinkUp e s
  | .vectorGroup n => Sys2Proof.Machine.execVectorGroup n s
  | .scanLeadWatermark u urgent panic => Sys2Proof.Machine.execScanLeadWatermark u urgent panic s
  | .ppmuAtLimit n lane atLimit => Sys2Proof.Machine.execPpmuAtLimit n lane atLimit s
  | .tdcStartEdge n => Sys2Proof.Machine.execTdcStartEdge n s
  | .hamperSourceCleared src => Sys2Proof.Machine.execHamperSourceCleared src s
  | .txEmbeddedChange p => Sys2Proof.Machine.execTxEmbeddedChange p s
  | .fckDetector p ok => Sys2Proof.Machine.execFckDetector p ok s
  | .measureExchangeTimeout p => Sys2Proof.Machine.execMeasureExchangeTimeout p s
  | .dispatcherStoreRecovered => Sys2Proof.Machine.execDispatcherStoreRecovered s
  | .standbyEntered => Sys2Proof.Machine.execStandbyEntered s
  | .peCorrectionsReloaded => Sys2Proof.Machine.execPeCorrectionsReloaded s
  | .standbySwitchClose => Sys2Proof.Machine.execStandbySwitchClose s

end Sys2Proof.Machine
end

