-- ==== Sys2Proof/Safety.lean ====
section
/-! DEFINITION. What every state of a run keeps, and the terms in which the claims say what a command does and what it leaves
as it was. -/

namespace Sys2Proof.Machine

open Sys2Proof

/-! ## What every state keeps -/

/-- The canonical form of the register words: addresses rising, no word equal to its reset value. -/
abbrev RegFile.wf (m : RegFile) : Prop :=
  m.Pairwise (fun x y => x.1 < y.1) ∧ ∀ e ∈ m, e.2 ≠ resetWord e.1

/-- Pattern memory and the register words are in canonical form. -/
abbrev State.Inv (s : State) : Prop := Memory.wf s.mem ∧ RegFile.wf s.regs

/-! ## What a command does -/

/-- exec answers a next state, and it meets Q. -/
def Runs (c : Instr) (s : State) (Q : State → Prop) : Prop := ∃ t, exec c s = .next t ∧ Q t

/-- The initiator's accesses reach the module, and the register, and the register's function is ready or the register does not need it (spec/00 R17,
R28, spec/01 R56). -/
abbrev Reaches (s : State) (ini : Initiator) (r : Reg) (ix : List Nat) : Prop :=
  s.busOn ini = true ∧ s.sees ini r ix = true ∧ (r.desc.exempt || s.gateReady r.desc.gate ix) = true

/-! ## What a command leaves as it was -/

/-- The byte addresses of the words that hold a field. -/
def Fld.words (f : Fld) : List Nat :=
  if 32 ≤ f.lo then [f.addr + 4] else if f.lo + f.w ≤ 32 then [f.addr] else [f.addr, f.addr + 4]

/-- No bit of the one field is a bit of the other. -/
def Fld.Apart (f g : Fld) : Prop :=
  (∀ a ∈ g.words, a ∉ f.words) ∨ (g.addr = f.addr ∧ (f.lo + f.w ≤ g.lo ∨ g.lo + g.w ≤ f.lo))

/-- Every register field apart from the listed ones reads as before; with the empty list, every register. -/
def OnlyFlds (s t : State) (fs : List Fld) : Prop := ∀ g, (∀ f ∈ fs, f.Apart g) → t.rd g = s.rd g

/-- The whole word at a byte address as a field. -/
abbrev wordFld (a : Nat) : Fld := ⟨a, 0, 32⟩

end Sys2Proof.Machine
end

