-- ==== Sys2Proof/Certificates/Slice0/Obligations.lean ====
section
/-! DEFINITION. The statements about the block. A claim says of one command, under conditions on the state and the operands
alone, that exec answers a next state, what that state holds, and what it leaves as it was: `OnlyFlds` for the register
words, `t = { s with … }` for every other part of the state (pattern memory among them). -/

namespace Sys2Proof.Machine.Claim

open Sys2Proof

/-! ## Register accesses (spec/00) -/

/-- The fields of ACCERR and ACCERR_ADDR in copy i. -/
abbrev accFlds (i : Nat) : List Fld :=
  [⟨aAccerrx i, 0, 8⟩, fAccerrxAddr_ADDR i, fAccerrxAddr_SPACE i, fAccerrxAddr_VALID i]

/-- A broken rule recorded for an initiator: its bit, and the address where none was captured before (R25, R27). -/
abbrev Flagged (s t : State) (ini : Initiator) (b : AccBit) (addr : Nat) : Prop :=
  t.rd ⟨aAccerrx (copyOf ini), b.pos, 1⟩ = 1 ∧ t.rd (fAccerrxAddr_VALID (copyOf ini)) = 1 ∧
  (s.rd (fAccerrxAddr_VALID (copyOf ini)) = 0 →
    t.rd (fAccerrxAddr_ADDR (copyOf ini)) = bitsOf addr 0 36 ∧ t.rd (fAccerrxAddr_SPACE (copyOf ini)) = 0) ∧
  (s.rd (fAccerrxAddr_VALID (copyOf ini)) = 1 → OnlyFlds s t [⟨aAccerrx (copyOf ini), b.pos, 1⟩]) ∧
  OnlyFlds s t (⟨aAccerrx (copyOf ini), b.pos, 1⟩ :: (accFlds (copyOf ini)).tail) ∧ t = { s with regs := t.regs }

/-- More than AON runs: PWRGOOD is high and power-on reset is released (R584, R604). -/
abbrev Awake (s : State) : Prop := s.power.on = true ∧ s.power.rails = true

/-- Registers with no row of their own, whose write acts on their fields by access type alone. -/
def plainRegs : List Reg :=
  [.accerrxAddr, .clkstat, .pwrstat, .rstcause, .hregBase, .dmaCtrl, .senswarn, .uplen,
    .slTstart, .slAdmit, .slSegargBase, .slSegargSize, .slSegargToken, .slSegsel, .slSmapLane, .slSmapSlot, .slSegstat,
    .slSmapstat, .slWferr, .slWfcnt, .slVclk, .slLvlstat, .slAdcstat, .slAdctmr, .slTdcstat, .slSpstat, .slScpstat, .slFcsat,
    .slUstat, .slUcsce, .drcPanlog, .drcPancnt, .drcRefstat, .drcRhcfg, .drcRhcntT, .drcRhcntP, .drcEcccnt, .drcEccaddr,
    .scFcfg, .scFvmax, .scBaseoff, .scBstride, .scOvloff, .scOstride, .scOvlpos, .scOvlsize, .scStat, .scAdmit, .scCnt,
    .dpWeight, .dpStat, .dpDropcnt, .dpHist, .dpCoreStat, .dpCoreBusy, .dpCoreIdle, .dpCoreDonecnt, .dpCoreIrqen, .dpCoreMsip,
    .clStat, .clErrcnt, .clLinkcnt, .clDropcnt, .clSumdrop, .clPeerlim0, .clPeerlim1, .clPeerlim2, .clSumdst, .clEnumstat,
    .clEnumcnt, .clSumrxstat, .tmCtrl, .tmStat, .tmLinkAsym, .tmLinkLat, .tmTrigctl, .tmTrigat, .tmTrigstat, .tmTrigact,
    .tmTrigrep, .tmSetsec, .tmSetns, .tmSrvkp, .tmSrvki, .tmSrvcnt, .tmTxtsstat, .tmTxtsovf, .tmEthlat,
    .hmStat, .hmCnt, .prFails, .prBistRinse, .prDarnStat, .mgReq, .mgStat, .etStat, .etRxdrop, .etRxerr]

/-- What a write of the bits v where m is set gives a field of a register that holds cur (R18, R20, R22): RW takes the written bits where
the field lists what they make of it, and its reset value where not; RW1C clears the bits written as 1; RO, WO and RW1S keep what
they hold, and so does a field that the write does not touch. -/
def fieldAfter (cur v m : DWord) (f : FieldD) : Nat :=
  let k := f.mask &&& m
  let old := bitsOf cur.toNat f.lo f.w
  if k = 0 then old
  else match f.acc with
    | .rw =>
      let n := bitsOf ((cur &&& ~~~k) ||| (v &&& k)).toNat f.lo f.w
      if f.accepts n then n else f.reset % 2 ^ f.w
    | .rw1c => bitsOf (cur &&& ~~~(v &&& k)).toNat f.lo f.w
    | .ro | .wo | .rw1s => old

/-- Whether a write gives an RW field an encoding that it does not list (R22). -/
def fieldRejects (cur v m : DWord) (f : FieldD) : Bool :=
  let k := f.mask &&& m
  k != 0 && f.acc == .rw && !f.accepts (bitsOf ((cur &&& ~~~k) ||| (v &&& k)).toNat f.lo f.w)

/-- The register and part that an access of a size at an address names (R15, R16). -/
abbrev Names (a size : Nat) (r : Reg) (ix : List Nat) : Part → Prop
  | .lo => size = 4 ∧ a % 4 = 0 ∧ Reg.find a = some (r, ix, false)
  | .hi => size = 4 ∧ a % 4 = 0 ∧ Reg.find a = some (r, ix, true)
  | .all => size = 8 ∧ a % 8 = 0 ∧ Reg.find a = some (r, ix, false) ∧ r.desc.wide = true

/-- The bits that a value on the bus gives a part of a register. -/
abbrev partVal (p : Part) (v : DWord) : DWord :=
  match p with
  | .lo => (v.setWidth 32).setWidth 64 | .hi => ((v.setWidth 32).setWidth 64) <<< 32 | .all => v

/-- The words of a register. -/
abbrev regWords (r : Reg) (ix : List Nat) : List Fld :=
  wordFld (r.addr ix) :: if r.desc.wide then [wordFld (r.addr ix + 4)] else []

/-- Each of a register's fields that takes part in a write by its access type, RSVD for an encoding that one of them does not list,
and nothing else. -/
abbrev ByFields (s t : State) (ini : Initiator) (r : Reg) (ix : List Nat) (p : Part) (v : DWord) (part : FieldD → Bool) : Prop :=
  let bad := r.desc.fields.any fun f => part f && fieldRejects (s.regVal r ix) (partVal p v) p.mask f
  (∀ f ∈ r.desc.fields, bitsOf (t.regVal r ix).toNat f.lo f.w =
    if part f = true then fieldAfter (s.regVal r ix) (partVal p v) p.mask f else bitsOf (s.regVal r ix).toNat f.lo f.w) ∧
  (bad = true → t.rd ⟨aAccerrx (copyOf ini), AccBit.rsvd.pos, 1⟩ = 1) ∧
  OnlyFlds s t (regWords r ix ++ if bad = true then accFlds (copyOf ini) else []) ∧ t = { s with regs := t.regs }

/-- REGISTER_WRITE of a register with no row of its own, by its low word, its high word or, where it is 64 bits wide, whole (R16, R18,
R22): each field acts by its access type. A core's IRQEN and MSIP wait for READY.DISPATCH (log entry 67, the model's choice). -/
def registerWrite : Prop := ∀ (ini : Initiator) (a size : Nat) (r : Reg) (ix : List Nat) (p : Part) (v : DWord) (s : State),
  Names a size r ix p → r ∈ plainRegs → Reaches s ini r ix →
  Runs (.registerWrite ini a size (some v)) s fun t => ByFields s t ini r ix p v fun _ => true

/-- A write by the management controller before a function is ready (R20, R56): boot fields alone act. -/
def bootWrite : Prop := ∀ (a size : Nat) (r : Reg) (ix : List Nat) (p : Part) (v : DWord) (s : State),
  Names a size r ix p → s.busOn .mgmt = true → r.desc.exempt = false → s.gateReady r.desc.gate ix = false →
  r.desc.fields.any (·.boot) = true →
  Runs (.registerWrite .mgmt a size (some v)) s fun t => ByFields s t .mgmt r ix p v (·.boot)

/-- Registers that keep their values, with BUSY, while the work that uses them runs, and whether it does: a burst or an admission (R70),
an ADC sequence or sum (R262), an armed scope (R310) or TDC (R267), an enabled SCAN unit (R347), a DMA ring (R492) or an Ethernet ring
(R503) in use. -/
def inUse (s : State) (r : Reg) (ix : List Nat) (v : DWord) : Option Bool :=
  let n : Fin 8 := Fin.ofNat 8 (ix.headD 0)
  let c : Fin 16 := Fin.ofNat 16 (ix.headD 0)
  if r = .slBurst then some (!s.sl[n].isIdle || (s.sl[n].scope.armed && bitOf v.toNat 29))
  else if r ∈ [Reg.slLc, .slPark, .slWtime, .slWent, .slWft, .slPinadj, .slSpcfg, .slFailcnt] then some (!s.sl[n].isIdle)
  else if r ∈ [Reg.slAdcctl, .slAdcdly, .slAdcseq, .slAdcsumn] then some (s.sl[n].adc.isSome || s.sl[n].sumRun)
  else if r = .slTdcto then some s.sl[n].tdcArmed
  else if r ∈ [Reg.slScpcfg, .slScppts, .slScplev, .slScptime, .slScphits, .slScpto, .slScpref] then some s.sl[n].scope.armed
  else if r ∈ [Reg.scHtim, .scHsync, .scVtim, .scVsync, .scTstart, .scRole] then some s.scan[Fin.ofNat 4 (ix.headD 0)].enabled
  else if r ∈ [Reg.dmaRing, .dmaRingsz] then some (decide (s.rd (fDmaCtrl_EN c) = 1) || s.dma[c].isSome)
  else if r ∈ [Reg.etTxsz, .etRxsz] then some (decide (s.rd (fEtCtrl_EN (ix.headD 0)) = 1))
  else none

/-- A register that its rule guards: BUSY while its unit is in use, else by its fields. -/
def guardedWrite : Prop := ∀ (ini : Initiator) (a size : Nat) (r : Reg) (ix : List Nat) (p : Part) (v : DWord) (busy : Bool) (s : State),
  Names a size r ix p → Reaches s ini r ix → inUse s r ix (partVal p v) = some busy →
  Runs (.registerWrite ini a size (some v)) s fun t =>
    if busy = true then Flagged s t ini .busy (r.at ix p) else ByFields s t ini r ix p v fun _ => true

/-- A 64-bit access that names no 64-bit register acts as two 32-bit accesses, the low word first (R616). -/
def pairWrite : Prop := ∀ (ini : Initiator) (a : Nat) (v : DWord) (s : State), a % 8 = 0 → a < bar0 →
  (∀ r ix, Reg.find a = some (r, ix, false) → r.desc.wide = false) →
  Runs (.registerWrite ini a 8 (some v)) s fun t =>
    ∃ u, exec (.registerWrite ini a 4 (some ((v.setWidth 32).setWidth 64))) s = .next u ∧
      exec (.registerWrite ini (a + 4) 4 (some (((v >>> 32).setWidth 32).setWidth 64))) u = .next t

/-- A read of a register, by word or, where it is 64 bits wide, whole (R16, R24): its value is on the bus, the low word of a 64-bit one
fills the initiator's shadow, nothing else changes. -/
def registerRead : Prop := ∀ (ini : Initiator) (a size : Nat) (r : Reg) (ix : List Nat) (p : Part) (s : State), Names a size r ix p →
  s.busOn ini = true → s.sees ini r ix = true → r ≠ .slLoaddone → r ≠ .slAdcres → r ≠ .slTdcres →
  Runs (.registerWrite ini a size none) s fun t =>
    let x := s.readVal ini r ix
    match p with
    | .lo => t.busData = (x.setWidth 32).setWidth 64 ∧ t = { s with
        busData := t.busData
        shadow := if r.desc.wide then s.shadow.set (shadowOf ini) (some (a, (x >>> 32).setWidth 32)) else s.shadow }
    | .hi => (s.shadow[shadowOf ini].map (·.1 + 4) ≠ some a → t = { s with busData := ((x >>> 32).setWidth 32).setWidth 64 })
    | .all => t = { s with busData := x }

/-- What a read gives for a register with no computed field (R18, R20): its fields, 0 for a WO field and for a boot field whose function
was not ready since its reset. -/
def readStored : Prop := ∀ (ini : Initiator) (r : Reg) (ix : List Nat) (f : FieldD) (s : State), s.live ini r ix = [] →
  ownCopy ini r ix = (r, ix) → f ∈ r.desc.fields →
  bitsOf (s.readVal ini r ix).toNat f.lo f.w =
    if f.acc = .wo ∨ (f.boot = true ∧ s.bootHidden r ix = true) then 0 else bitsOf (s.regVal r ix).toNat f.lo f.w

/-- A write of an initiator's own ACCERR (R25, R26, R27): the bits written as 1 clear; with every bit 0 the captured address is not valid.
-/
def accerrWrite : Prop := ∀ (ini : Initiator) (v : Word) (s : State), s.busOn ini = true → s.sees ini .accerr [] = true →
  Runs (.registerWrite ini aAccerr 4 (some (v.setWidth 64))) s fun t =>
    let c := copyOf ini
    t.rd ⟨aAccerrx c, 0, 8⟩ = bitsOf (s.reg (aAccerrx c) &&& ~~~v).toNat 0 8 ∧
    t.rd (fAccerrxAddr_VALID c) = (if t.reg (aAccerrx c) = 0 then 0 else s.rd (fAccerrxAddr_VALID c)) ∧
    OnlyFlds s t [⟨aAccerrx c, 0, 8⟩, fAccerrxAddr_VALID c] ∧ t = { s with regs := t.regs }

/-- Writes of registers with a rule of their own: RESV and WMARK of a SCAN unit (R71, R355). -/
def scanRegWrite : Prop := ∀ (ini : Initiator) (u : Fin 4) (v : Word) (s : State),
  (Reaches s ini .scResv [u] → Runs (.registerWrite ini (aScResv u) 4 (some (v.setWidth 64))) s fun t =>
    let x := bitsOf v.toNat 0 9
    let new := min x 400
    let others := ((List.finRange 8).map fun (m : Fin 8) => s.rd (fSlResv_BW m)).sum +
      (((List.finRange 4).filter (· ≠ u)).map fun (w : Fin 4) => s.rd (fScResv_BW w)).sum
    if s.scan[u].enabled = true then Flagged s t ini .busy (aScResv u)
    else
      (x > 400 → t.rd ⟨aAccerrx (copyOf ini), AccBit.rsvd.pos, 1⟩ = 1) ∧
      (s.rd (fScResv_BW u) < new ∧ 98304 < others + new → t.rd (fScResv_BW u) = s.rd (fScResv_BW u) ∧
        t.rd ⟨aAccerrx (copyOf ini), AccBit.budget.pos, 1⟩ = 1) ∧
      (¬ (s.rd (fScResv_BW u) < new ∧ 98304 < others + new) → t.rd (fScResv_BW u) = new) ∧
      OnlyFlds s t (fScResv_BW u :: accFlds (copyOf ini)) ∧ t = { s with regs := t.regs }) ∧
  (Reaches s ini .scWmark [u] → Runs (.registerWrite ini (aScWmark u) 4 (some (v.setWidth 64))) s fun t =>
    if s.scan[u].enabled = true then Flagged s t ini .busy (aScWmark u)
    else t.rd (fScWmark_URG u) = bitsOf v.toNat 16 16 ∧
      t.rd (fScWmark_PANIC u) = (if bitsOf v.toNat 16 16 < bitsOf v.toNat 0 16 then 200 else bitsOf v.toNat 0 16) ∧
      (bitsOf v.toNat 16 16 < bitsOf v.toNat 0 16 → t.rd ⟨aAccerrx (copyOf ini), AccBit.rsvd.pos, 1⟩ = 1) ∧
      OnlyFlds s t (wordFld (aScWmark u) :: accFlds (copyOf ini)) ∧ t = { s with regs := t.regs })

/-- Indices of rings (R22, R492, R503): an index outside the ring gives 0 with RSVD. -/
def ringIndexWrite : Prop := ∀ (ini : Initiator) (v : Word) (s : State),
  let takes := fun (a : Nat) (f : Fld) (size : Nat) => Runs (.registerWrite ini a 4 (some (v.setWidth 64))) s fun t =>
    if bitsOf v.toNat 0 12 < size then t.rd f = bitsOf v.toNat 0 12 ∧ OnlyFlds s t [f] ∧ t = { s with regs := t.regs }
    else t.rd f = 0 ∧ t.rd ⟨aAccerrx (copyOf ini), AccBit.rsvd.pos, 1⟩ = 1 ∧
      OnlyFlds s t (f :: accFlds (copyOf ini)) ∧ t = { s with regs := t.regs }
  (∀ c : Fin 16, Reaches s ini .dmaTail [c] → takes (aDmaTail c) (fDmaTail_INDEX c) (s.ringSize c)) ∧
  (∀ e : Fin 2, Reaches s ini .etTxtail [e] → takes (aEtTxtail e) (fEtTxtail_INDEX e) (2 ^ s.rd (fEtTxsz_LOG2 e))) ∧
  (∀ e : Fin 2, Reaches s ini .etRxtail [e] → takes (aEtRxtail e) (fEtRxtail_INDEX e) (2 ^ s.rd (fEtRxsz_LOG2 e)))

/-- Latched errors and warnings stay while what set them is present (R541, R497). -/
def latchedWrite : Prop := ∀ (ini : Initiator) (v : Word) (s : State),
  (∀ i : Fin 512, Reaches s ini .hmSrc [i] → Runs (.registerWrite ini (aHmSrc i) 4 (some (v.setWidth 64))) s fun t =>
    t.rd (fHmSrc_LATCHED i) = (if v.getLsbD 31 = true ∧ (s.hamper.find i).active = false then 0 else s.rd (fHmSrc_LATCHED i)) ∧
    t.rd (fHmSrc_COUNT i) = bitsOf v.toNat 0 16 ∧ OnlyFlds s t [fHmSrc_LATCHED i, fHmSrc_COUNT i] ∧ t = { s with regs := t.regs }) ∧
  ∀ i : Fin 17, Reaches s ini .sensor [i] → Runs (.registerWrite ini (aSensor i) 4 (some (v.setWidth 64))) s fun t =>
    t.rd (fSensor_WARN i) = (if v.getLsbD 31 = true ∧ s.reached i (s.rd (fSensor_VALUE i)) = false then 0 else s.rd (fSensor_WARN i)) ∧
    OnlyFlds s t [fSensor_WARN i] ∧ t = { s with regs := t.regs }

/-- PRESS.CFG (R569): a pair with HARD not above DRIFT gives both their reset values, with RSVD. -/
def pressCfgWrite : Prop := ∀ (ini : Initiator) (v : Word) (s : State), Reaches s ini .prCfg [] →
  Runs (.registerWrite ini aPrCfg 4 (some (v.setWidth 64))) s fun t =>
    let hard := bitsOf v.toNat 8 8
    let drift := bitsOf v.toNat 0 8
    t.rd fPrCfg_HOLDOFF = bitsOf v.toNat 16 16 ∧
    t.rd fPrCfg_HARD = (if drift < hard then hard else 96) ∧ t.rd fPrCfg_DRIFT = (if drift < hard then drift else 32) ∧
    (hard ≤ drift → t.rd ⟨aAccerrx (copyOf ini), AccBit.rsvd.pos, 1⟩ = 1) ∧
    OnlyFlds s t (wordFld aPrCfg :: if drift < hard then [] else accFlds (copyOf ini)) ∧ t = { s with regs := t.regs }

/-- TDCCFG (R266, R287): refused while the TDC is armed; a marker beyond 1 gives that selection its reset value, with RSVD. -/
def tdccfgWrite : Prop := ∀ (ini : Initiator) (n : Fin 8) (v : Word) (s : State), Reaches s ini .slTdccfg [n] →
  Runs (.registerWrite ini (aSlTdccfg n) 4 (some (v.setWidth 64))) s fun t =>
    if s.sl[n].tdcArmed = true then Flagged s t ini .busy (aSlTdccfg n)
    else
      let stopBad := bitsOf v.toNat 14 2 = 3 ∧ 1 < bitsOf v.toNat 8 5
      let startBad := bitsOf v.toNat 6 2 = 3 ∧ 1 < bitsOf v.toNat 0 5
      t.rd (fSlTdccfg_STOPSKIP n) = bitsOf v.toNat 16 8 ∧
      t.rd (fSlTdccfg_STOP_KIND n) = bitsOf v.toNat 14 2 ∧ t.rd (fSlTdccfg_START_KIND n) = bitsOf v.toNat 6 2 ∧
      t.rd (fSlTdccfg_STOP_SEL n) = (if stopBad then 0 else bitsOf v.toNat 8 5) ∧
      t.rd (fSlTdccfg_START_SEL n) = (if startBad then 0 else bitsOf v.toNat 0 5) ∧
      (stopBad ∨ startBad → t.rd ⟨aAccerrx (copyOf ini), AccBit.rsvd.pos, 1⟩ = 1) ∧
      OnlyFlds s t (wordFld (aSlTdccfg n) :: accFlds (copyOf ini)) ∧ t = { s with regs := t.regs }

/-- Registers of one initiator (R28, R507, R531): ILKCFG and TOKEN of the PF and the management controller, UPADDR of the latter; UNMAPPED
to others is the model's choice (log entry 18). -/
def ownedWrite : Prop := ∀ (ini : Initiator) (a size : Nat) (r : Reg) (ix : List Nat) (p : Part) (v : DWord) (s : State),
  Names a size r ix p → Reaches s ini r ix →
  (r = .ilkcfg ∨ r = .prBistToken → Runs (.registerWrite ini a size (some v)) s fun t =>
    if pfOrMgmt ini = true then ByFields s t ini r ix p v fun _ => true else Flagged s t ini .unmapped (r.at ix p)) ∧
  (r = .upaddr → Runs (.registerWrite ini a size (some v)) s fun t =>
    if ini = .mgmt then ByFields s t ini r ix p v fun _ => true else Flagged s t ini .unmapped (r.at ix p))

/-- TXRING and RXRING (R94, R505): refused while the port is enabled; a base outside the firmware-private area, 0 among them, gives BASE
its reset value, with RSVD. -/
def ethRingWrite : Prop := ∀ (ini : Initiator) (a size : Nat) (e : Fin 2) (r : Reg) (p : Part) (v : DWord) (s : State),
  r = .etTxring ∨ r = .etRxring → Names a size r [e] p → Reaches s ini r [e] →
  Runs (.registerWrite ini a size (some v)) s fun t =>
    let new := ((s.regVal r [e] &&& ~~~p.mask) ||| (partVal p v &&& p.mask)).toNat
    let base := bitsOf new 6 30 * 64
    if s.rd (fEtCtrl_EN e) = 1 then Flagged s t ini .busy (r.at [e] p)
    else bitsOf (t.regVal r [e]).toNat 6 30 = (if inPrivate base 64 = true then bitsOf new 6 30 else 0) ∧
      (inPrivate base 64 = false → t.rd ⟨aAccerrx (copyOf ini), AccBit.rsvd.pos, 1⟩ = 1) ∧
      OnlyFlds s t (regWords r [e] ++ accFlds (copyOf ini)) ∧ t = { s with regs := t.regs }

/-- CTRL of an Ethernet port (R505): EN takes the written bit; where it is then 0, of the port's waiting frames those behind the first are
dropped and counted (entry 61). -/
def ethCtrlWrite : Prop := ∀ (ini : Initiator) (a size : Nat) (e : Fin 2) (p : Part) (v : DWord) (s : State),
  Names a size .etCtrl [e] p → Reaches s ini .etCtrl [e] →
  Runs (.registerWrite ini a size (some v)) s fun t =>
    let mine := s.ethHeld.filter fun x => x.port == e
    let new := bitsOf (((s.regVal .etCtrl [e] &&& ~~~p.mask) ||| (partVal p v &&& p.mask)).toNat) 31 1
    let gone := if new = 0 then mine.length - 1 else 0
    t.rd (fEtCtrl_EN e) = new ∧ t.ethHeld.Sublist s.ethHeld ∧
    (new = 1 → t.ethHeld = s.ethHeld) ∧
    (new = 0 → (t.ethHeld.filter fun x => x.port == e) = mine.take 1 ∧
      (t.ethHeld.filter fun x => x.port != e) = s.ethHeld.filter fun x => x.port != e) ∧
    (t.rd (fEtRxdrop_COUNT e) = min (s.rd (fEtRxdrop_COUNT e) + gone) (2 ^ (fEtRxdrop_COUNT e).w - 1)) ∧
    (t.rd (fEtStat_NOBUF e) = if gone = 0 then s.rd (fEtStat_NOBUF e) else 1) ∧
    OnlyFlds s t (regWords .etCtrl [e] ++ [fEtRxdrop_COUNT e, fEtStat_NOBUF e]) ∧ t = { s with regs := t.regs, ethHeld := t.ethHeld }

/-- An access of another size (R15): a write changes nothing but SIZE, a read changes nothing. -/
def otherSize : Prop := ∀ (ini : Initiator) (a size : Nat) (v : DWord) (s : State), s.busOn ini = true → a < bar0 →
  (Instr.registerWrite ini a size none).wf = true → ¬ (size = 4 ∧ a % 4 = 0) → ¬ (size = 8 ∧ a % 8 = 0) →
  Runs (.registerWrite ini a size (some v)) s (fun t => Flagged s t ini .size a) ∧
  Runs (.registerWrite ini a size none) s fun t => t = { s with busData := t.busData }

/-- An address that holds no register (R17): a write is ignored, a read gives 0, and either sets UNMAPPED. -/
def unmapped : Prop := ∀ (ini : Initiator) (a : Nat) (v : DWord) (s : State), s.busOn ini = true → a % 4 = 0 →
  a < bar0 → Reg.find a = none →
  Runs (.registerWrite ini a 4 (some v)) s (fun t => Flagged s t ini .unmapped a) ∧
  Runs (.registerWrite ini a 4 none) s fun t => t.busData = 0 ∧ Flagged { s with busData := 0 } t ini .unmapped a

/-- The window by which the management controller loads a site core's local SRAM (R403; where it lies is the model's choice, log entry
53): a write stores its bytes there and changes nothing else, and a read gives what stands there. -/
def sramWrite : Prop := ∀ (c : Fin 8) (o size : Nat) (v : DWord) (s : State), s.busOn .mgmt = true → o + size ≤ 0x40000 →
  Runs (.registerWrite .mgmt (bar0 + c * 0x40000 + o) size (some v)) s (fun t =>
    (∀ b, Memory.get t.cores[c].sram b =
      if o ≤ b ∧ b < o + size then BitVec.ofNat 8 (v.toNat / 2 ^ (8 * (b - o))) else Memory.get s.cores[c].sram b) ∧
    t = { s with cores := s.cores.set c { s.cores[c] with sram := t.cores[c].sram } }) ∧
  Runs (.registerWrite .mgmt (bar0 + c * 0x40000 + o) size none) s fun t =>
    (∀ i < min size 8, bitsOf t.busData.toNat (8 * i) 8 = (Memory.get s.cores[c].sram (o + i)).toNat) ∧
    t = { s with busData := t.busData }

/-- A write to a register whose function is not ready (R56): ignored, with NOTREADY; boot fields that the management
controller writes are not covered. -/
def notReady : Prop := ∀ (ini : Initiator) (r : Reg) (ix : List Nat) (a : Nat) (v : Word) (s : State), s.busOn ini = true →
  Reg.find a = some (r, ix, false) → a % 4 = 0 → s.sees ini r ix = true → r.desc.exempt = false →
  s.gateReady r.desc.gate ix = false → ini ≠ .mgmt →
  Runs (.registerWrite ini a 4 (some (v.setWidth 64))) s fun t => Flagged s t ini .notready a

/-- SHADOW_LOW_WORD_READ and SHADOW_HIGH_WORD_READ (R16): the low word of a 64-bit register comes with its high word kept in
the initiator's shadow; a read of the high word takes it from a shadow that names the register, and empties it. -/
def shadowLow : Prop := ∀ (ini : Initiator) (a : Nat) (r : Reg) (ix : List Nat) (s : State), s.busOn ini = true → a % 4 = 0 →
  Reg.find a = some (r, ix, false) → r.desc.wide = true → s.sees ini r ix = true →
  r ≠ .slLoaddone → r ≠ .slAdcres → r ≠ .slTdcres →
  Runs (.shadowLowWordRead ini a) s fun t =>
    t.busData = ((s.readVal ini r ix).setWidth 32).setWidth 64 ∧
    t = { s with
      shadow := s.shadow.set (shadowOf ini) (some (a, (s.readVal ini r ix >>> 32).setWidth 32)), busData := t.busData }

def shadowHigh : Prop := ∀ (ini : Initiator) (a : Nat) (r : Reg) (ix : List Nat) (w : Word) (s : State),
  s.busOn ini = true → a % 4 = 0 → Reg.find (a + 4) = some (r, ix, true) → s.sees ini r ix = true →
  s.shadow[shadowOf ini] = some (a, w) →
  Runs (.shadowHighWordRead ini (a + 4)) s fun t =>
    t = { s with shadow := s.shadow.set (shadowOf ini) none, busData := w.setWidth 64 }

/-! ## Faults (spec/01 R35, spec/02 R60, R61, spec/16 R536 to R545) -/

/-- The pin safe state of a slice (R243), with ADC, TDC and scope at rest (R265, R267, R316). -/
abbrev PinsSafe (x : Slice) : Prop :=
  (∀ k : Fin 32, x.lanes[k].cut = true ∧ x.lanes[k].drive = .z ∧ x.lanes[k].park = none ∧ x.ppmu[k].mode = 0 ∧
    x.ppmu[k].force = 0x8000) ∧
  x.mk0 = false ∧ x.mk1 = false ∧ x.lvlq = [] ∧ x.mkq0 = [] ∧ x.mkq1 = [] ∧ x.adc = none ∧ x.sumRun = false ∧ x.tdc = none ∧
  x.scope.armed = false

/-- The register side of the pin safe state (R243): every level code at mid-scale, every connection OPEN, every PPMU OFF. -/
abbrev RegsSafe (t : State) (m : Fin 8) : Prop :=
  ∀ k : Fin 32, (∀ e < 7, t.rd (fSlLevel_CODE m k e) = 0x8000) ∧ t.rd (fSlPincfg_CONN m k) = 0 ∧ t.rd (fSlPmu_MODE m k) = 0

/-- A burst that ends in a way that takes effect at once (R60, R61, R87). -/
abbrev EndsAtOnce (s t : State) (n m : Fin 8) (cause : Cause) : Prop :=
  ((s.sl[n].st = .prefill ∨ s.sl[n].st = .armed) →
    t.sl[m].st = .idle ∧ t.rd (fSlAdmit_CAUSE m) = cause.code ∧ t.rd (fSlBendvec_VEC m) = noVec) ∧
  (s.sl[n].st = .running → t.sl[m].st = .ending ∧ t.sl[m].parked = true ∧ t.rd (fSlAdmit_CAUSE m) = cause.code)

/-- Bit b of every core's IRQPEND. -/
abbrev irqFlds (b : Nat) : List Fld := (List.range 8).map fun c => ⟨aDpCoreIrqpend c, b, 1⟩

/-- The fields that a report of a Hamper source may write. -/
abbrev reportFlds (src : Nat) : List Fld :=
  [fHmSrc_COUNT src, fHmSrc_LATCHED src, fHmCnt_COUNT (hamperClass src - 1), fHmCnt_COUNT 3, fHmStat_LOST] ++ irqFlds 17

/-- The words that the pin safe state and the end of its burst may write for slice m. -/
abbrev stopFlds (m : Fin 8) : List Fld :=
  ((List.range 0x100).map fun i => wordFld (aSlLevel m 0 0 + 4 * i)) ++
  ((List.range 32).flatMap fun k => [wordFld (aSlPincfg m k), wordFld (aSlPmu m k)]) ++
  [wordFld (aSlAdmit m), wordFld (aSlAdmitd m), wordFld (aSlAdmitd m + 4), wordFld (aSlBendvec m), wordFld (aSlBendvec m + 4),
    wordFld (aSlAdcstat m), wordFld (aSlTdcstat m), wordFld (aPrStat m)] ++ irqFlds m ++ irqFlds (8 + m)

/-- The rejections an end of an admission may write, whichever slice received START. -/
abbrev rejectFlds : List Fld :=
  (List.range 8).flatMap fun m => [wordFld (aSlAdmit m), wordFld (aSlAdmitd m), wordFld (aSlAdmitd m + 4)] ++ irqFlds (8 + m)

/-- A contained fault of slice n's own path, after a report of source src: the burst that n runs, with its gang, ends at
once with the pins safe, an admission ends too; slices of other bursts, memory and every other unit stay as they were. -/
abbrev Contained (s t : State) (n : Fin 8) (src : Nat) : Prop :=
  (∀ m ∈ s.burstOf n, PinsSafe t.sl[m] ∧ RegsSafe t m ∧ EndsAtOnce s t n m .contained) ∧
  (∀ m, m ∉ s.burstOf n → t.sl[m] = { s.sl[m] with chk := t.sl[m].chk }) ∧
  OnlyFlds s t (reportFlds src ++ rejectFlds ++ (s.burstOf n).flatMap stopFlds) ∧
  t = { s with regs := t.regs, sl := t.sl, press := t.press, hamper := t.hamper, free := t.free, out := t.out }

/-- EVENT_PATH_DBE (R35): a contained fault of the slice. -/
def eventPathDbe : Prop := ∀ (n : Fin 8) (s : State),
  Awake s → Runs (.eventPathDbe n) s fun t => Contained s t n (Config.sourceOf (.eventPath n))

/-- STREAM_UNDERRUN (R61) while the burst runs: a contained fault of the slice. -/
def streamUnderrun : Prop := ∀ (n : Fin 8) (s : State), s.sl[n].st = .running →
  Runs (.streamUnderrun n) s fun t => Contained s t n (Config.sourceOf (.underrun n))

/-- CONTROL_PATH_DBE (R35): a contained fault of the four slices of the die, whose pins are safe; no other slice is touched but by
its gang. -/
def controlPathDbe : Prop := ∀ (pe : Fin 2) (s : State),
  Awake s → Runs (.controlPathDbe pe) s fun t =>
    (∀ n : Fin 8, n.val / 4 = pe.val → PinsSafe t.sl[n] ∧ t.sl[n].st ≠ .running ∧ t.sl[n].st ≠ .armed ∧ t.sl[n].st ≠ .prefill) ∧
    (∀ n : Fin 8, (∀ k : Fin 8, k.val / 4 = pe.val → n ≠ k ∧ n ∉ s.sl[k].gang) → t.sl[n] = { s.sl[n] with chk := t.sl[n].chk }) ∧
    t = { s with regs := t.regs, sl := t.sl, press := t.press, hamper := t.hamper, free := t.free, out := t.out }

/-- Every slice at the pin safe state, no burst left to play, the stacks in self-refresh with their rows closed and every owed refresh
issued, AER signalled (R384, R539). -/
abbrev Fatal (s t : State) : Prop :=
  (∀ n : Fin 8, PinsSafe t.sl[n] ∧ RegsSafe t n ∧ t.sl[n].stage = [] ∧ (t.sl[n].st = .idle ∨ t.sl[n].st = .ending)) ∧
  t.drc.selfRefresh = Vector.replicate 2 true ∧ t.drc.openRows = [] ∧ t.drc.owed = Vector.replicate 64 0 ∧
  t.power.fatal = true ∧ OutEvent.aerFatal ∈ t.out ∧ t.mem = s.mem

/-- Whether a loss takes stack k: of its HBMPHY domain, of the DRC's, of FAB's. -/
abbrev Takes (lost : MemLoss) (k : Fin 2) : Prop := lost = .hb k ∨ lost = .drc ∨ lost = .fab

/-- The stacks whose domains a fault takes (R539, R589): they leave service with every SL and SCAN bit, and their contents are lost; a
stack that is not taken keeps both; the Dispatcher leaves service with FAB (R41, R56). Once both stacks have lost their contents,
boot is going to write zeros to them (R585). -/
abbrev StacksGo (s t : State) (lost : MemLoss) : Prop :=
  (∀ k : Fin 2, t.drc.lost[k] = (s.drc.lost[k] || decide (Takes lost k)) ∧
    t.isReady (.hb k) = (s.isReady (.hb k) && !decide (Takes lost k))) ∧
  (∀ n : Fin 8, t.isReady (.sl n) = (s.isReady (.sl n) && decide (lost = .none)) ∧
    (lost ≠ .none → t.press[n].firstRun = true)) ∧
  (∀ u : Fin 4, t.isReady (.scan u) = (s.isReady (.scan u) && decide (lost = .none))) ∧
  (∀ i : Fin 32, (i < 4 ∨ i = 6 ∨ i = 7 ∨ 20 ≤ i) → t.ready.getLsbD i = (s.ready.getLsbD i && !decide (lost = .fab ∧ i = 24))) ∧
  t.drc.fill = (s.drc.fill || (decide (lost ≠ .none) && t.drc.lost[(0 : Fin 2)] && t.drc.lost[(1 : Fin 2)]))

/-- What a fatal fault may change. -/
abbrev FatalFrame (s t : State) : Prop :=
  t = { s with regs := t.regs, sl := t.sl, drc := t.drc, press := t.press, hamper := t.hamper, power := t.power, ready := t.ready
               wasReady := t.wasReady, free := t.free, out := t.out }

/-- FATAL_FAULT of a fatal source (R537, R539); a source of another class raises none. -/
def fatalFault : Prop := ∀ (src : Fin 512) (lost : MemLoss) (s : State),
  Awake s → Runs (.fatalFault src lost) s fun t => (hamperClass src ≠ 3 → t = s) ∧
    (hamperClass src = 3 → Fatal s t ∧ StacksGo s t lost ∧ FatalFrame s t)

/-- RAIL_FAULT (R604, R606): a fatal fault while PWRGOOD is high and power-on reset is released, whichever rail it is while the PE dies
are powered; while they are not, of a rail that is no VPE rail, and of one that is, none. The command names no rail: which it is, is a
free value (log entry 3), and the clause holds for each. -/
def railFault : Prop := ∀ s : State,
  Runs .railFault s fun t =>
    (¬ Awake s → t = s) ∧
    (Awake s → s.power.peOff = false → s.power.st ≠ .standby → Fatal s t ∧ StacksGo s t .none ∧ FatalFrame s t) ∧
    (Awake s → s.power.peOff = true ∨ s.power.st = .standby → ∃ f, f = { s with free := s.free + 1 } ∧
      if (Config.freeWord s.free).getLsbD 0 = true then t = f else Fatal f t ∧ StacksGo f t .none ∧ FatalFrame f t)

/-- While only AON runs (R584, R604) no unit outside it raises a fault. -/
def unpoweredFaults : Prop := ∀ (n : Fin 8) (pe : Fin 2) (src : Fin 512) (detail : DWord) (lost : MemLoss) (a : Nat) (who : HbmBy)
  (entry : BitVec 14) (s : State), ¬ Awake s →
  ∀ e ∈ [Instr.eventPathDbe n, .controlPathDbe pe, .hamperErrorEvent src detail, .hamperWireFault src, .fatalFault src lost,
    .synthFault n, .dllLockLost n, .hbmCorrectedError a, .hbmUncorrectableError a who, .coreUe n, .csCorrectedError n,
    .csUncorrectableError n, .seqStateCorrect n entry], Runs e s fun t => t = s

/-- Whether an injection of a mode is armed for a source (R544). -/
abbrev Injected (s : State) (src : Nat) : Bool := s.hamper.inject.any fun e => e.2 == src
abbrev InjectedWire (s : State) (src : Nat) : Bool := s.hamper.inject.any fun e => e.1 == 2 && e.2 == src

/-- What the record of a report holds (R540), its mark of records lost before it among them. -/
abbrev recordOf (s t : State) (src : Nat) (detail : DWord) (wire : Bool) (r : HRec) : Prop :=
  r.source = src ∧ r.cls = hamperClass src ∧ r.detail = detail ∧
  r.wire = ((s.hamper.find src).wire || wire || InjectedWire s src) ∧ r.injected = Injected s src ∧
  r.tick = (if s.isReady .time then s.time.tick else 0) ∧ r.noTime = !s.isReady .time ∧
  r.count = BitVec.ofNat 32 (t.rd (fHmSrc_COUNT src)) ∧ r.seq = BitVec.ofNat 32 s.hamper.seq ∧ r.lostBefore = s.hamper.lostBefore

/-- Counted, latched, and, where a record is due, put into the queue with its AON copies (R541, R542, R543). -/
abbrev Reported (s t : State) (src : Nat) (detail : DWord) (stays wire : Bool) : Prop :=
  t.rd (fHmSrc_COUNT src) = min (s.rd (fHmSrc_COUNT src) + 1) (2 ^ (fHmSrc_COUNT src).w - 1) ∧
  t.rd (fHmSrc_LATCHED src) = 1 ∧ (t.hamper.find src).active = ((s.hamper.find src).active || stays) ∧
  (t.hamper.find src).wire = ((s.hamper.find src).wire || wire) ∧
  ((hamperClass src ≠ 1 ∨ (s.hamper.find src).active = false ∧ (s.hamper.find src).lastRec = none) →
    s.hamper.queue.length < 64 →
    ∃ r ∈ t.hamper.queue, t.hamper.queue = s.hamper.queue ++ [r] ∧ recordOf s t src detail wire r ∧
      t.hamper.last = some r ∧ t.hamper.first = (match s.hamper.first with | some x => some x | none => some r))

/-- Each unit's error has the class that its rule names: contained in a slice, a SCAN unit and a site core (R35, R212, R402);
corrected for a lost reference, a delay line, a corrected error, a long panic, a peer's violation (R47, R230, R370, R381, R441);
fatal for the root, a stack too hot, a junction and a rail (R48). -/
def errorClasses : Prop :=
  let is := fun (u : ErrUnit) (k : Nat) => hamperClass (Config.sourceOf u) = k
  (∀ n : Fin 8, is (.eventPath n) 2 ∧ is (.underrun n) 2 ∧ is (.synth n) 2 ∧ is (.storeUe n) 2 ∧ is (.core n) 2 ∧
    is (.dll n) 1 ∧ is (.controlStore n) 1 ∧ is (.seqState n) 1) ∧
  (∀ pe : Fin 2, is (.controlPath pe) 2 ∧ is (.hbmCorrected pe) 1 ∧ is (.hbmUe pe) 1 ∧ is (.hbmHot pe) 3) ∧
  (∀ u : Fin 4, is (.scan u) 2 ∧ is (.port u) 1) ∧ is .rootRef 1 ∧ is .rootLost 3 ∧ is .panicLong 1 ∧ is .trigLate 1 ∧ is .rail 3 ∧
  ∀ i : Fin 17, is (.sensor i) 1 ∧ is (.junction i) 3

/-- Each error's source lies in its unit's block (R537). -/
def errorBlocks : Prop :=
  let num := fun (u : ErrUnit) => (Config.sourceOf u).val
  (∀ n : Fin 8, ∀ u ∈ [ErrUnit.eventPath n, .underrun n, .synth n, .storeUe n, .controlStore n, .seqState n], num u / 16 = n.val) ∧
  (∀ pe : Fin 2, num (.controlPath pe) / 32 = 4 + pe.val ∧ num (.hbmCorrected pe) / 64 = 3 ∧ num (.hbmUe pe) / 64 = 3 ∧
    num (.hbmHot pe) / 64 = 3) ∧ num .panicLong / 64 = 3 ∧
  (∀ u : Fin 4, num (.scan u) / 4 = 64 + u.val ∧ num (.port u) / 8 = 43 + u.val) ∧ (∀ c : Fin 8, num (.core c) / 8 = 34 + c.val) ∧
  (∀ u ∈ [ErrUnit.rootRef, .rootLost, .trigLate], 400 ≤ num u ∧ num u < 432) ∧
  ∀ i : Fin 17, ∀ u ∈ [ErrUnit.sensor i, .junction i, .interlock, .rail], 432 ≤ num u ∧ num u < 464

/-- HAMPER_ERROR_EVENT and HAMPER_WIRE_FAULT of a corrected source (R536, R541): it stops nothing. -/
def hamperErrorEvent : Prop := ∀ (src : Fin 512) (detail : DWord) (s : State), hamperClass src = 1 →
  Awake s → Runs (.hamperErrorEvent src detail) s fun t => Reported s t src detail true false ∧ OnlyFlds s t (reportFlds src) ∧
    t = { s with regs := t.regs, hamper := t.hamper, out := t.out }

def hamperWireFault : Prop := ∀ (src : Fin 512) (s : State), hamperClass src = 1 →
  Awake s → Runs (.hamperWireFault src) s fun t => Reported s t src 0 true true ∧ OnlyFlds s t (reportFlds src) ∧
    t = { s with regs := t.regs, hamper := t.hamper, out := t.out }

/-- HAMPER_ERROR_EVENT of a contained source of a slice (R538, R545): its burst ends with the pins safe. -/
def hamperContained : Prop := ∀ (src : Fin 512) (detail : DWord) (s : State), hamperClass src = 2 → src < 128 →
  Awake s → Runs (.hamperErrorEvent src detail) s fun t => Contained s t (Fin.ofNat 8 (src / 16)) src

/-- HAMPER_ERROR_EVENT of a DMA channel's source (R537, R545): the channel stalls, and nothing else stops. -/
def hamperDma : Prop := ∀ (c : Fin 16) (src : Fin 512) (detail : DWord) (s : State), src.val = 384 + c.val →
  Awake s → Runs (.hamperErrorEvent src detail) s fun t => Reported s t src detail true false ∧ OnlyFlds s t (reportFlds src) ∧
    (∀ i : Fin 16, t.dmaStalled.getLsbD i = (s.dmaStalled.getLsbD i || decide (i = c))) ∧
    t = { s with regs := t.regs, hamper := t.hamper, out := t.out, dmaStalled := t.dmaStalled }

/-- HAMPER_ERROR_EVENT of a fatal source (R538, R539): as FATAL_FAULT. -/
def hamperFatal : Prop := ∀ (src : Fin 512) (detail : DWord) (s : State), hamperClass src = 3 →
  Awake s → Runs (.hamperErrorEvent src detail) s fun t => Fatal s t ∧ StacksGo s t .none ∧ FatalFrame s t

/-- A contained fault of SCAN unit u (R346, R545): an enabled unit that is not at fault yet stops with UNDERRUN and its interrupt, the
running bursts of its slices meet a stream underrun, and nothing else stops. -/
abbrev ScanStops (s t : State) (u : Fin 4) : Prop :=
  if s.scan[u].enabled = true ∧ s.scan[u].st ≠ .fault then
    t.scan[u].st = .fault ∧ t.scan[u].urgent = false ∧ t.scan[u].panic = false ∧ t.scan[u].lines = [] ∧ t.rd (fScStat_UNDERRUN u) = 1 ∧
    OutEvent.msix 0 (10 + u) ∈ t.out ∧ (∀ w : Fin 4, w ≠ u → t.scan[w] = s.scan[w]) ∧
    (∀ n ∈ s.attached u, s.sl[n].st = .running → PinsSafe t.sl[n] ∧ t.sl[n].st = .ending ∧ t.sl[n].parked = true) ∧
    (∀ n : Fin 8, (∀ m ∈ s.attached u, s.sl[m].st = .running → n ∉ s.burstOf m) → t.sl[n] = { s.sl[n] with chk := t.sl[n].chk })
  else t.scan = s.scan ∧ t.sl = s.sl

/-- HAMPER_ERROR_EVENT of a contained source of a SCAN unit (R537, R545). -/
def hamperScan : Prop := ∀ (u : Fin 4) (src : Fin 512) (detail : DWord) (s : State), hamperClass src = 2 → 256 ≤ src.val → src.val / 4 = 64 + u.val →
  Awake s → Runs (.hamperErrorEvent src detail) s fun t => ScanStops s t u ∧ t.rd (fHmSrc_LATCHED src) = 1 ∧
    t = { s with regs := t.regs, sl := t.sl, scan := t.scan, press := t.press, hamper := t.hamper, free := t.free, out := t.out }

/-- HAMPER_ERROR_EVENT of a contained source of a site core (R402, R545): the core alone halts with RUN at 0, its task abandoned.
-/
def hamperCore : Prop := ∀ (c : Fin 8) (src : Fin 512) (detail : DWord) (s : State), hamperClass src = 2 → src.val / 8 = 34 + c.val →
  Awake s → Runs (.hamperErrorEvent src detail) s fun t => t.rd (fDpCoreCtrl_RUN c) = 0 ∧ t.cores[c].halted = true ∧ t.cores[c].hold = none ∧
    t.cores[c].waiting = none ∧ t.isReady .cores = false ∧ (∀ k : Fin 8, k ≠ c → t.cores[k] = s.cores[k]) ∧
    t.rd (fHmSrc_LATCHED src) = 1 ∧
    t = { s with regs := t.regs, ready := t.ready, wasReady := t.wasReady, cores := t.cores, hamper := t.hamper, out := t.out }

/-- HAMPER_ERROR_EVENT of a contained source of the Dispatcher (R545): its tasks are discarded and counted, and it is out of
service. -/
def hamperDisp : Prop := ∀ (src : Fin 512) (detail : DWord) (s : State), hamperClass src = 2 → 336 ≤ src.val → src.val < 344 →
  Awake s → Runs (.hamperErrorEvent src detail) s fun t => t.disp.waiting = [] ∧ t.disp.down = true ∧ t.isReady .dispatch = false ∧
    (∀ i : Fin 32, i ≠ 24 → t.ready.getLsbD i = s.ready.getLsbD i) ∧ t.rd (fHmSrc_LATCHED src) = 1 ∧
    t = { s with regs := t.regs, ready := t.ready, wasReady := t.wasReady, disp := t.disp, hamper := t.hamper, out := t.out }

/-- HAMPER_ERROR_EVENT of a contained source of a Clothesline port (R448, R545): its frames are discarded, and enabled it starts
attempt 1; no other port changes. -/
def hamperPort : Prop := ∀ (p : Fin 4) (src : Fin 512) (detail : DWord) (s : State), hamperClass src = 2 → src.val / 8 = 43 + p.val →
  Awake s → Runs (.hamperErrorEvent src detail) s fun t =>
    (s.rd (fClCtrl_EN p) = 1 → s.hasCap (4 + p.val) = true → s.tested [7] p = false →
      t.port[p].st = .probe ∧ t.rd (fClStat_ATTEMPT p) = 0 ∧ t.isReady (.cl p) = false) ∧
    (s.rd (fClCtrl_EN p) = 0 → t.port[p].st = s.port[p].st ∧ t.port[p].sent = [] ∧ t.port[p].wait = []) ∧
    (∀ q : Fin 4, q ≠ p → t.port[q] = s.port[q]) ∧ t.rd (fHmSrc_LATCHED src) = 1 ∧
    t = { s with
      regs := t.regs, ready := t.ready, wasReady := t.wasReady, port := t.port, hamper := t.hamper, bist := t.bist, out := t.out }

/-- HAMPER_ERROR_EVENT of a contained source of a management Ethernet port (R545): the link is down, its frames and queued
transmit stamps are discarded, the stamps counted. -/
def hamperEth : Prop := ∀ (e : Fin 2) (src : Fin 512) (detail : DWord) (s : State), hamperClass src = 2 → src.val / 4 = 94 + e.val →
  Awake s → Runs (.hamperErrorEvent src detail) s fun t => t.ethLink[e] = false ∧ t.isReady (.eth e) = false ∧
    t.ethHeld = s.ethHeld.filter (fun (x : EthFrame) => x.port ≠ e) ∧ t.time.txts = s.time.txts.filter (fun (x : TxStamp) => x.port ≠ e) ∧
    (∀ i : Fin 32, i.val ≠ 27 + e.val → t.ready.getLsbD i = s.ready.getLsbD i) ∧ t.rd (fHmSrc_LATCHED src) = 1 ∧
    t = { s with
      regs := t.regs, ready := t.ready, wasReady := t.wasReady, ethLink := s.ethLink.set e false, ethHeld := t.ethHeld
      time := { s.time with txts := t.time.txts }, hamper := t.hamper, out := t.out }

/-- HAMPER_WIRE_FAULT of any source (R536): it acts as that source's error, ACTIVE and WIRE stay, its records carry WIRE. -/
def hamperWireActs : Prop := ∀ (src : Fin 512) (s : State),
  Awake s → Runs (.hamperWireFault src) s fun t => (t.hamper.find src).active = true ∧ (t.hamper.find src).wire = true ∧
    (∀ r ∈ t.hamper.queue.drop s.hamper.queue.length, r.source = src → r.wire = true) ∧
    ∃ u, exec (.hamperErrorEvent src 0) s = .next u ∧ t = { u with hamper := t.hamper }

/-- HAMPER_SOURCE_CLEARED (R541): ACTIVE goes to 0, and nothing else changes. -/
def hamperSourceCleared : Prop := ∀ (src : Fin 512) (s : State),
  Runs (.hamperSourceCleared src) s fun t =>
    (t.hamper.find src).active = false ∧ (t.hamper.find src).lastRec = (s.hamper.find src).lastRec ∧
    (∀ i : Fin 512, i ≠ src → t.hamper.find i = s.hamper.find i) ∧
    t = { s with hamper := { s.hamper with srcs := t.hamper.srcs } }

/-- DISPATCHER_STORE_RECOVERED (R545, R556, R563, R585): READY.DISPATCH alone sets again, where HAMPER and MGMT are 1, nothing
holds it and no test runs on the Dispatcher. -/
def dispatcherStoreRecovered : Prop := ∀ (s : State),
  Runs .dispatcherStoreRecovered s fun t =>
    t.isReady .dispatch = (s.isReady .dispatch ||
      (s.isReady .hamper && s.isReady .mgmt && !s.heldReady .dispatch && !s.tested [6] 0)) ∧
    (∀ i : Fin 32, i ≠ 24 → t.ready.getLsbD i = s.ready.getLsbD i) ∧
    t = { s with ready := t.ready, wasReady := t.wasReady, disp := { s.disp with down := false } }

/-- POP (R565): the oldest record leaves the queue. -/
def pop : Prop := ∀ (ini : Initiator) (v : Word) (r : HRec) (q : List HRec) (s : State), Reaches s ini .hmPop [] →
  s.hamper.queue = r :: q →
  Runs (.pop ini v) s fun t => t.hamper.queue = q ∧
    (ini = .mgmt → s.hamper.faultLog.length < 262144 → t.hamper.faultLog = s.hamper.faultLog ++ [(r, s.time.phcTime)]) ∧
    t = { s with hamper := { s.hamper with queue := q, faultLog := t.hamper.faultLog } }

/-- AONCLR (R566): the named copies are emptied. -/
def aonclr : Prop := ∀ (ini : Initiator) (v : Word) (s : State), Reaches s ini .hmAonclr [] →
  Runs (.aonclr ini v) s fun t =>
    t.hamper.first = (if v.getLsbD 0 then none else s.hamper.first) ∧
    t.hamper.last = (if v.getLsbD 1 then none else s.hamper.last) ∧
    t.hamper.fatal1 = (if v.getLsbD 2 then none else s.hamper.fatal1) ∧
    t.hamper.fatal2 = (if v.getLsbD 3 then none else s.hamper.fatal2) ∧
    t = { s with hamper := { s.hamper with
      first := t.hamper.first, last := t.hamper.last, fatal1 := t.hamper.fatal1, fatal2 := t.hamper.fatal2 } }

/-- INJECT_SINGLE, INJECT_DOUBLE and INJECT_WIRE (R544, R567): the injection is armed for the source that SRC names, and
acts at its next check. -/
abbrev Armed (s t : State) (ini : Initiator) (mode : BitVec 2) (v : Word) : Prop :=
  t.hamper.inject = some (mode, bitsOf v.toNat 0 9) ∧ OnlyFlds s t (wordFld aHmInj :: accFlds (copyOf ini)) ∧
  t = { s with regs := t.regs, hamper := { s.hamper with inject := t.hamper.inject } }

/-- Whether the life cycle lets an error of the source be injected (R544). -/
abbrev mayInject (s : State) (v : Word) : Prop :=
  hamperClass (bitsOf v.toNat 0 9) = 1 ∨ s.lifeCycle = 1 ∨ s.lifeCycle = 4 ∨ s.lifeCycle = 5

/-- An injection that the life cycle does not allow (R544): it is dropped, with RSVD. -/
abbrev NotArmed (s t : State) (ini : Initiator) : Prop :=
  t.rd ⟨aAccerrx (copyOf ini), AccBit.rsvd.pos, 1⟩ = 1 ∧ OnlyFlds s t (wordFld aHmInj :: accFlds (copyOf ini)) ∧
  t = { s with regs := t.regs }

/-- INJECT_SINGLE, INJECT_DOUBLE and INJECT_WIRE (R544): the source is armed with its mode where class or life cycle allow it;
else RSVD. -/
def injectSingle : Prop := ∀ (ini : Initiator) (v : Word) (s : State), Reaches s ini .hmInj [] →
  Runs (.injectSingle ini v) s fun t => if mayInject s v then Armed s t ini 0 v else NotArmed s t ini
def injectDouble : Prop := ∀ (ini : Initiator) (v : Word) (s : State), Reaches s ini .hmInj [] →
  Runs (.injectDouble ini v) s fun t => if mayInject s v then Armed s t ini 1 v else NotArmed s t ini
def injectWire : Prop := ∀ (ini : Initiator) (v : Word) (s : State), Reaches s ini .hmInj [] →
  Runs (.injectWire ini v) s fun t => if mayInject s v then Armed s t ini 2 v else NotArmed s t ini

/-! ## The root clock and resets (spec/01 R44 to R57, spec/17 R575 to R606) -/

/-- The management controller stops (R576): a mailbox command in progress ends with FAIL, every mailbox is idle, and an image that was
being written stays incomplete. -/
abbrev MgmtStops (s t : State) : Prop :=
  t.mbox = Vector.replicate 8 Mbox.reset ∧ t.remote = none ∧ t.slots = { s.slots with writing := none, written := 0 } ∧
  ∀ p : Fin 8, s.mbox[p].op.isSome = true → t.rd (fMgStat_CODE p) = 3 ∧ t.rd (fMgStat_BUSY p) = 0

/-- TROOT lost (R41, R48, R56, R57, R401, R542, R576): a fatal fault in which READY.TROOT and every bit that needs it or a clock derived
from it clear, the site cores and the management controller stop, every synthesizer recovers, every slice needs a Press run before it is ready again, and mtime stands where
it was; its record carries no time. No other READY bit changes. -/
abbrev RootLost (s t : State) : Prop :=
  Fatal s t ∧ MgmtStops s t ∧ t.power = { s.power with
    rootLock := false, rootSrc := 0, fatal := true, saved := t.power.saved, refOk := t.power.refOk, xoOk := t.power.xoOk
    backupOsc := t.power.backupOsc } ∧
  t.drc.lost = Vector.replicate 2 true ∧ t.isReady .troot = false ∧ t.isReady .time = false ∧ t.isReady .mgmt = false ∧
  t.isReady .cores = false ∧
  (∀ n : Fin 8, t.isReady (.sl n) = false ∧ t.sl[n].synth.a = .recovering ∧ t.sl[n].synth.b = .recovering ∧
    t.press[n].firstRun = true) ∧
  (∀ u : Fin 4, t.isReady (.scan u) = false ∧ t.isReady (.cl u) = false) ∧ (∀ h : Fin 2, t.isReady (.hb h) = false) ∧
  (∀ b ∈ [ReadyBit.hamper, .dispatch, .press], t.isReady b = false) ∧ (∀ b ∈ [ReadyBit.aon, .fw], t.isReady b = s.isReady b) ∧
  t.mtime = s.mtime ∧
  (∀ r ∈ t.hamper.queue.drop s.hamper.queue.length, r.noTime = true ∧ r.tick = 0) ∧
  t = { s with
    regs := t.regs, sl := t.sl, drc := t.drc, ready := t.ready, wasReady := t.wasReady, press := t.press, hamper := t.hamper
    mbox := t.mbox, remote := none, slots := t.slots
    power := t.power, time := { s.time with mtimeHeld := s.mtime, discCount := t.time.discCount }, free := t.free, out := t.out }

/-- TROOT moves by itself to reference r without losing lock (R47): SWITCHED, and the loss is reported; bursts, slices, READY bits and
memory stay as they were. -/
abbrev RootMoved (s t : State) (r : BitVec 2) : Prop :=
  t.power.rootLock = true ∧ t.power.rootSrc = r ∧ t.rd fClkstat_SWITCHED = 1 ∧
  Reported s t (Config.sourceOf .rootRef) 0 false false ∧
  OnlyFlds s t ([fXotb_DISC_LOCK, fClkstat_SWITCHED] ++ reportFlds (Config.sourceOf .rootRef)) ∧
  t = { s with
    regs := t.regs, sl := t.sl, power := { s.power with refOk := t.power.refOk, xoOk := t.power.xoOk, backupOsc := t.power.backupOsc, rootSrc := r }
    time := { s.time with discCount := t.time.discCount }, hamper := t.hamper, out := t.out }

/-- REF_LOST (R46, R47, R48): in AUTO a valid XO takes over; with no reference left that SRC allows the root is lost; a root that does not
run on REF goes on as it was; what the loss clears, CORES among it, is the model's choice (log entry 22). -/
def refLost : Prop := ∀ (s : State),
  Runs .refLost s fun t => t.power.refOk = false ∧ t.power.xoOk = s.power.xoOk ∧ t.rd fXotb_DISC_LOCK = 0 ∧ t.time.discCount = 0 ∧
    (s.power.rootLock = true → s.power.rootSrc = 1 → s.rd fClkctl_SRC = 0 → s.power.xoOk = true → RootMoved s t 2 ∧ t.sl = s.sl) ∧
    (s.power.rootLock = true → s.power.rootSrc = 1 → (s.rd fClkctl_SRC = 1 ∨ s.power.xoOk = false) → RootLost s t) ∧
    (¬ (s.power.rootLock = true ∧ s.power.rootSrc = 1) →
      OnlyFlds s t [fXotb_DISC_LOCK] ∧
      t = { s with regs := t.regs, power := { s.power with refOk := false }, time := { s.time with discCount := 0 } })

/-- REF_VALID (R46): CLKSTAT.REF_OK is 1, and nothing else changes. -/
def refValid : Prop := ∀ (s : State),
  Runs .refValid s fun t => t = { s with power := { s.power with refOk := true } }

/-- ROOT_RETURN_TO_REF (R47): in AUTO a root on the XO returns to a valid REF once no slice has an accepted burst; else it stays. -/
def rootReturnToRef : Prop := ∀ (s : State),
  Runs .rootReturnToRef s fun t =>
    if s.rd fClkctl_SRC = 0 ∧ s.power.rootLock = true ∧ s.power.rootSrc = 2 ∧ s.power.refOk = true ∧ s.anyAccepted = false then
      t.rd fClkstat_SWITCHED = 1 ∧ OnlyFlds s t [fClkstat_SWITCHED] ∧
      t = { s with regs := t.regs, power := { s.power with rootSrc := 1 } }
    else t = s

/-- XO_LOST (R50, R47, R48): AON takes its backup oscillator, the delay lines leave lock; a root on the XO is lost unless AUTO finds REF
valid; a root that does not run on the XO goes on as it was. It moves at once, bursts or none (log entry 22). -/
def xoLost : Prop := ∀ (s : State),
  Runs .xoLost s fun t => t.power.xoOk = false ∧ t.power.refOk = s.power.refOk ∧ t.power.backupOsc = true ∧
    (∀ n : Fin 8, t.sl[n].tdcLock = false) ∧
    (s.power.rootLock = true → s.power.rootSrc = 2 → s.rd fClkctl_SRC = 0 → s.power.refOk = true →
      RootMoved s t 1 ∧ t.time = s.time ∧ ∀ n : Fin 8, t.sl[n] = { s.sl[n] with tdcLock := false }) ∧
    (s.power.rootLock = true → s.power.rootSrc = 2 → (s.rd fClkctl_SRC = 2 ∨ s.power.refOk = false) → RootLost s t) ∧
    (¬ (s.power.rootLock = true ∧ s.power.rootSrc = 2) →
      t = { s with sl := t.sl, power := { s.power with xoOk := false, backupOsc := true } } ∧
      ∀ n : Fin 8, t.sl[n] = { s.sl[n] with tdcLock := false })

/-- XO_VALID (R50): AON returns to the XO, and the delay lines lock to it (log entry 45). -/
def xoValid : Prop := ∀ (s : State),
  Runs .xoValid s fun t => t.power.xoOk = true ∧ t.power.backupOsc = false ∧
    (∀ n : Fin 8, t.sl[n] = { s.sl[n] with tdcLock := true }) ∧
    t = { s with sl := t.sl, power := { s.power with xoOk := true, backupOsc := false } }

/-- TROOT_LOCK_LOST (R48): the loss of the root, for whatever cause; with no lock held nothing changes. -/
def trootLockLost : Prop := ∀ (s : State),
  Runs .trootLockLost s fun t => if s.power.rootLock = true then RootLost s t else t = s

/-- The reference that SRC selects where it is valid (R44, R48): 1 REF, 2 XO, 0 none. -/
abbrev selected (src : Nat) (ref xo : Bool) : BitVec 2 :=
  if src = 1 then (if ref then 1 else 0) else if src = 2 then (if xo then 2 else 0) else if ref then 1 else if xo then 2 else 0

/-- ROOT_PLL_LOCKED (R45, R55, R457): TROOT runs on the reference that SRC selects, READY.TROOT and READY.TIME set, and TICK starts at 0;
in OFF, with AON not ready, a lock already held or no valid reference nothing changes; its conditions are the model's choice (log entry
22). -/
def rootPllLocked : Prop := ∀ (s : State),
  Runs .rootPllLocked s fun t =>
    let r := selected (s.rd fClkctl_SRC) s.power.refOk s.power.xoOk
    if s.power.on = true ∧ s.isReady .aon = true ∧ s.power.rootLock = false ∧ r ≠ 0 then
      t.isReady .troot = true ∧ t.isReady .time = true ∧
      (∀ i : Fin 32, i ≠ 6 → i ≠ 7 → t.ready.getLsbD i = s.ready.getLsbD i) ∧
      t = { s with ready := t.ready, wasReady := t.wasReady, power := { s.power with rootLock := true, rootSrc := r }, time := { s.time with tick := 0 } }
    else t = s

/-- CLKCTL_WRITE (R49, R48): refused with BUSY while a slice has an accepted burst; else SRC takes the value, or its reset value AUTO with
RSVD for 0b11, and a root that runs follows it to the reference selected, or is lost where that is not valid (log entry 22). -/
def clkctlWrite : Prop := ∀ (ini : Initiator) (v : Word) (s : State), Reaches s ini .clkctl [] →
  Runs (.clkctlWrite ini v) s fun t =>
    let src := if bitsOf v.toNat 0 2 < 3 then bitsOf v.toNat 0 2 else 0
    let r := selected src s.power.refOk s.power.xoOk
    if s.anyAccepted = true then Flagged s t ini .busy aClkctl
    else t.rd fClkctl_SRC = src ∧ (bitsOf v.toNat 0 2 = 3 → t.rd ⟨aAccerrx (copyOf ini), AccBit.rsvd.pos, 1⟩ = 1) ∧
      (s.power.rootLock = true → r = 0 → RootLost s t) ∧
      (s.power.rootLock = true → r ≠ 0 →
        t.rd fClkstat_SWITCHED = (if src = 0 ∧ s.power.rootSrc ≠ r then 1 else s.rd fClkstat_SWITCHED) ∧
        OnlyFlds s t (fClkctl_SRC :: fClkstat_SWITCHED :: if bitsOf v.toNat 0 2 < 3 then [] else accFlds (copyOf ini)) ∧
        t = { s with regs := t.regs, power := { s.power with rootSrc := r } }) ∧
      (s.power.rootLock = false →
        OnlyFlds s t (fClkctl_SRC :: if bitsOf v.toNat 0 2 < 3 then [] else accFlds (copyOf ini)) ∧ t = { s with regs := t.regs })

/-- Every register word but RSTCAUSE is kept where p says so, and else at its reset value; a Press run that the reset ends is shown as
abandoned (R551). -/
def KeptRegs (s t : State) (p : Nat → Bool) : Prop :=
  (∀ a, a ≠ aRstcause → (∀ n : Fin 8, s.press[n].phase ≠ .off → a ≠ aPrStat n) → t.reg a = if p a then s.reg a else resetWord a) ∧
  ∀ n : Fin 8, s.press[n].phase ≠ .off → t.rd (fPrStat_LASTFAIL n) = 1 ∧ t.rd (fPrStat_FAILCODE n) = 6

/-- A reset of the module (R575 to R577, R596): every register but those the reset keeps at its reset value, every unit as
after reset, the cause recorded; pattern memory cells, the fault log, the repair log and the SPI NOR stay. -/
abbrev ResetBy (s t : State) (k : ModuleReset) : Prop :=
  KeptRegs s t k.keeps ∧
  (∀ f, k.cause = some f → t.rd f = 1) ∧
  t.sl = State.reset.sl ∧ t.scan = State.reset.scan ∧ t.cores = State.reset.cores ∧ t.disp = State.reset.disp ∧
  t.port = State.reset.port ∧ t.enum = State.reset.enum ∧ t.time = State.reset.time ∧ t.dma = State.reset.dma ∧
  t.mbox = State.reset.mbox ∧ t.press = State.reset.press ∧ t.patch = none ∧ t.hamper.queue = [] ∧
  t.power.rootLock = false ∧ t.power.fatal = false ∧ t.drc.selfRefresh = Vector.replicate 2 true ∧
  t.mem = s.mem ∧ t.hamper.faultLog = s.hamper.faultLog ∧ t.slots.nor = s.slots.nor ∧ t.bist.log = s.bist.log ∧
  t.bist.fused = s.bist.fused ∧ t.slots.confirmed = s.slots.confirmed ∧ t.slots.trial = s.slots.trial ∧ t.slots.run = none ∧
  t.pending = s.pending

/-- POWER_ON_RESET (R577, R584): READY all 0, the memory's contents lost, the fused repairs in force; a rise of VAON empties the AON
copies too. Without VAON there is none; what AON keeps is the model's choice (log entry 21). -/
def powerOnReset : Prop := ∀ (vaon : Bool) (s : State),
  Runs (.powerOnReset vaon) s fun t =>
    if vaon = true ∨ s.power.vaon = true then ResetBy s t (.powerOn vaon) ∧ t.ready = 0 ∧ t.power.on = true ∧ t.power.rails = false ∧
      t.drc.lost = Vector.replicate 2 true ∧ t.bist.inForce = s.bist.fused ∧
      (vaon = true → t.hamper.first = none ∧ t.hamper.fatal1 = none) ∧
      (vaon = false → t.hamper.first = s.hamper.first ∧ t.hamper.last = s.hamper.last ∧ t.hamper.fatal1 = s.hamper.fatal1 ∧
        t.hamper.fatal2 = s.hamper.fatal2 ∧ t.power.ilkHold = s.power.ilkHold ∧ t.power.sbSafe = s.power.sbSafe)
    else t = s

/-- PERST_N (R575): AON runs on and keeps what it holds; self-refresh keeps the memory's contents. -/
abbrev KeepsAon (s t : State) : Prop :=
  t.ready = s.ready &&& 1 ∧ t.drc.lost = s.drc.lost ∧ t.hamper.first = s.hamper.first ∧ t.hamper.last = s.hamper.last ∧
  t.hamper.fatal1 = s.hamper.fatal1 ∧ t.hamper.fatal2 = s.hamper.fatal2 ∧ t.power.refOk = s.power.refOk ∧
  t.power.xoOk = s.power.xoOk ∧ t.power.sbSafe = s.power.sbSafe ∧ t.power.ilkA = s.power.ilkA ∧
  t.power.ilkB = s.power.ilkB ∧ t.power.ilkHold = s.power.ilkHold ∧ t.power.on = s.power.on ∧ t.power.vaon = s.power.vaon ∧
  (s.power.fatal = true → t.rd fRstcause_FATAL = 1)

/-- PERST_N (R575). In OFF it changes nothing, the model's choice (log entry 58). -/
def perstN : Prop := ∀ (s : State),
  Runs .perstN s fun t => if s.power.on = true then ResetBy s t .perst ∧ KeepsAon s t else t = s

/-- FULL_RESET (R506): with its data byte and a good PEC it acts as PERST_N; else it is ignored; so it is in OFF, the model's choice (log
entry 58). -/
def fullReset : Prop := ∀ (data : Byte) (pec : Bool) (s : State),
  Runs (.fullReset data pec) s fun t =>
    if data = 0x5A ∧ pec = true ∧ s.power.on = true then ResetBy s t .fullReset ∧ KeepsAon s t else t = s

/-- WARM (R576): from the PF or the management controller. -/
def warm : Prop := ∀ (ini : Initiator) (v : Word) (s : State), Reaches s ini .rst [] → pfOrMgmt ini = true →
  Runs (.warm ini v) s fun t => ResetBy s t .warm ∧ KeepsAon s t

/-- SLICE (R575): each slice that v names ends its burst with the pins safe and stays out of service until its
synthesizers are back; segments, site map, gang, captured exception and fail counters stay. -/
def slice : Prop := ∀ (ini : Initiator) (v : Word) (s : State), Reaches s ini .rst [] → pfOrMgmt ini = true →
  v.getLsbD 31 = false → v.getLsbD 16 = false →
  Runs (.slice ini v) s fun t =>
    (∀ n : Fin 8, v.getLsbD n = true → PinsSafe t.sl[n] ∧ RegsSafe t n ∧ t.isReady (.sl n) = false ∧ t.sl[n].stage = [] ∧
      t.sl[n].seq = Seq.reset ∧ t.sl[n].window = [] ∧ t.sl[n].synth.a = .recovering ∧ t.sl[n].synth.b = .recovering ∧
      t.sl[n].st ≠ .prefill ∧ t.sl[n].st ≠ .armed ∧ t.sl[n].st ≠ .running ∧ t.sl[n].mapLane = s.sl[n].mapLane ∧
      t.sl[n].mapSlot = s.sl[n].mapSlot ∧
      (∀ a ∈ [aSlBurst n, aSlDdist n, aSlAdcctl n, aSlAdccmd n, aSlTdccfg n, aSlTdccmd n], t.reg a = resetWord a) ∧
      t.reg (aSlGang n) = s.reg (aSlGang n) ∧ t.reg (aSlExc n) = s.reg (aSlExc n) ∧
      ∀ k : Fin 32, t.reg (aSlFailcnt n k) = s.reg (aSlFailcnt n k)) ∧
    (∀ n : Fin 8, v.getLsbD n = false → t.isReady (.sl n) = s.isReady (.sl n)) ∧
    t = { s with regs := t.regs, ready := t.ready, wasReady := t.wasReady, sl := t.sl, press := t.press, free := t.free, out := t.out }

/-- MGMT (R576, R596): a management-only reset by the PF; a fatal fault that is latched shows in RSTCAUSE. -/
def mgmt : Prop := ∀ (ini : Initiator) (v : Word) (s : State), Reaches s ini .rst [] → isPf ini = true →
  v.getLsbD 31 = false → (∀ n : Fin 8, v.getLsbD n = false) →
  Runs (.mgmt ini v) s fun t =>
    MgmtStops s t ∧ t.isReady .mgmt = false ∧ t.rd fRstcause_MGMT = 1 ∧ (s.power.fatal = true → t.rd fRstcause_FATAL = 1) ∧
    (∀ i : Fin 32, i ≠ 2 → t.ready.getLsbD i = s.ready.getLsbD i) ∧
    t = { s with regs := t.regs, ready := t.ready, wasReady := t.wasReady, mbox := t.mbox, remote := none, slots := t.slots }

/-- PWRGOOD_FALL (R584): the pin safe state, then only AON runs: links, transfers and cores stop; the memory's contents are lost. -/
def pwrgoodFall : Prop := ∀ (s : State),
  Runs .pwrgoodFall s fun t => (∀ n : Fin 8, PinsSafe t.sl[n] ∧ RegsSafe t n) ∧ t.power.on = false ∧ t.power.rails = false ∧
    t.power.rootLock = false ∧ t.drc.lost = Vector.replicate 2 true ∧ t.ready = s.ready &&& 1 ∧ t.mem = s.mem ∧
    t.port = State.reset.port ∧ t.ethLink = State.reset.ethLink ∧ t.dma = State.reset.dma ∧ t.mbox = State.reset.mbox ∧
    t.scan = State.reset.scan ∧ (∀ c : Fin 8, t.cores[c].halted = true) ∧ t.hamper = { s.hamper with queue := t.hamper.queue } ∧
    (∀ a < 0x1000000, t.reg a = s.reg a)

/-- VAON_LOSS (R606): every function ends, with the switches open; AON keeps nothing (log entry 21). -/
def vaonLoss : Prop := ∀ (s : State),
  Runs .vaonLoss s fun t => t.power.on = false ∧ t.power.vaon = false ∧ t.ready = 0 ∧ t.hamper.first = none ∧
    t.sl = State.reset.sl ∧ KeptRegs s t (fun _ => false) ∧ t.mem = s.mem ∧ t.drc.lost = Vector.replicate 2 true

/-- RAILS_IN_RANGE (R604): power-on reset is released, and READY.AON sets. -/
def railsInRange : Prop := ∀ (s : State), s.power.on = true →
  Runs .railsInRange s fun t => t.isReady .aon = true ∧ (∀ i : Fin 32, i ≠ 0 → t.ready.getLsbD i = s.ready.getLsbD i) ∧
    t = { s with ready := t.ready, wasReady := t.wasReady, power := { s.power with rails := true, backupOsc := !s.power.xoOk } }

/-- What an image shows as it is checked (R501, R595): 1 good, 2 signature bad, 3 its SVN below the fuse counter, 4 blank, 5 read error; a
mark that UPDATE_END left on it stands. -/
abbrev imageStatus (s : State) (mark : Nat) : SlotImage → Nat
  | .blank => 4
  | .readError => 5
  | .unsigned => 2
  | .signed v => if mark ≠ 0 then mark else if v < s.slots.svn.getD Config.svnFuses then 3 else 1

/-- BOOT_VERIFY_DONE (R501, R587, R595): the slot tried first is the trial, or once that was booted the other one, or with no trial the
confirmed one. The first slot runs where it is good, else the other one where that is good, and READY.FW sets; with neither good no
firmware runs, and that is reported. A slot that is not tried is not checked, and shows that its trial expired where it has. -/
def bootVerifyDone : Prop := ∀ (a b : SlotImage) (ms : Nat) (s : State), s.power.on = true → s.isReady .aon = true →
  s.isReady .fw = false →
  let l := s.slots
  let first := match l.trial with | some x => (if l.bootedOnce = true then !x else x) | none => l.confirmed
  let expired := fun (x : Bool) => decide (l.bootedOnce = true ∧ l.trial = some x)
  let kept := if l.trial.isSome = true ∧ l.bootedOnce = true then none else l.trial
  let found := fun (x : Bool) => imageStatus s (if x = true then l.invalid[1] else l.invalid[0]) (if x = true then b else a)
  let run := if found first = 1 then some first else if found (!first) = 1 then some (!first) else none
  let stat := fun (x : Bool) => if x = first ∨ run ≠ some first then found x else if expired x = true then 6 else 0
  Runs (.bootVerifyDone a b ms) s fun t =>
    t.slots = { l with run := run, trial := kept, bootedOnce := run.isSome && run == kept, runSvn := t.slots.runSvn } ∧
    (∀ x v, run = some x → (if x = true then b else a) = .signed v → t.slots.runSvn = v) ∧
    t.rd fBoot_SLOT = (match run with | some true => 2 | some false => 1 | none => 0) ∧
    t.rd fBoot_TRIAL = b2n (run.isSome && run == kept) ∧
    t.rd fBoot_ASTAT = stat false ∧ t.rd fBoot_BSTAT = stat true ∧
    (∀ i : Fin 32, i ≠ 1 → t.ready.getLsbD i = s.ready.getLsbD i) ∧ (t.isReady .fw = run.isSome) ∧
    (run.isSome = true → OnlyFlds s t [wordFld aBoot] ∧ t.hamper = s.hamper ∧ t.out = s.out) ∧
    OnlyFlds s t (wordFld aBoot :: reportFlds (Config.sourceOf (.bringUp 1))) ∧
    t = { s with
      regs := t.regs, ready := t.ready, wasReady := t.wasReady, slots := t.slots, hamper := t.hamper, out := t.out }

/-- The bits that wait for the controller (R585): links that are up, ports in ACTIVE and a good Dispatcher are ready with it. -/
abbrev ComeWithMgmt (s t : State) : Prop :=
  (∀ e : Fin 2, t.isReady (.eth e) = (s.isReady (.eth e) || s.ethLink[e])) ∧
  (∀ p : Fin 4, t.isReady (.cl p) = (s.isReady (.cl p) || (s.port[p].st == .active && !s.heldReady (.cl p)))) ∧
  t.isReady .dispatch = (s.isReady .dispatch || (!s.disp.down && !s.tested [6] 0 && !s.heldReady .dispatch)) ∧
  (∀ b ∈ [ReadyBit.aon, .fw, .troot, .time], t.isReady b = s.isReady b)

/-- MGMT_FIRMWARE_RUNNING (R93, R552, R585, R615): after a module reset the firmware writes the default regions and the limits, loads the
factory values of every slice that has them, and Hamper, the Dispatcher, Press and the controller are ready; after a management-only
reset, or the loss of the root, it writes none of these. Press waits for the end of STANDBY (R581); that all come with this one command is
the model's reading (log entry 31). -/
def mgmtFirmwareRunning : Prop := ∀ (s : State), s.isReady .fw = true → s.isReady .troot = true → s.isReady .mgmt = false →
  Runs .mgmtFirmwareRunning s fun t => t.isReady .mgmt = true ∧ t.isReady .hamper = true ∧ ComeWithMgmt s t ∧
    (s.power.st = .active → t.isReady .press = true) ∧
    (s.power.st ≠ .active → t.isReady .press = s.isReady .press ∧ t.power.saved.getLsbD 26 = true) ∧
    (s.wasReady.getLsbD 3 = false →
      (∀ n : Fin 8, t.region[n.val]'(by omega) = ⟨1, n, 0xA00 * n, 0xA00⟩) ∧ t.region[28] = ⟨5, 0, 0x5800, 0x600⟩ ∧
      t.rd (fSenswarn_LIMIT 0) = 1600 ∧ t.rd (fSenswarn_LIMIT 9) = 1680 ∧
      (∀ n : Fin 8, Config.factoryValid n = true → t.rd (fPrStat_REFTEMP n) = (Config.factoryTemp n).toNat ∧
        ∀ k : Fin 32, t.reg (aSlDeskew n k) = Config.factoryDeskew n k) ∧
      (∀ n : Fin 8, Config.factoryValid n = false → t.sl[n] = s.sl[n])) ∧
    (s.wasReady.getLsbD 3 = true → t.regs = s.regs ∧ t.sl = s.sl ∧ t.region = s.region) ∧
    t = { s with
      regs := t.regs, ready := t.ready, wasReady := t.wasReady, sl := t.sl, region := t.region
      drc := { s.drc with repaired := t.drc.repaired, selfRefresh := t.drc.selfRefresh }, power := { s.power with saved := t.power.saved } }

/-! ## Synthesizers and the formatter (spec/06) -/

/-- FSEAM_HANDOVER (R210): the incoming STANDBY synthesizer drives VCLK, the outgoing one recovers, HANDOVER counts. -/
def fseamHandover : Prop := ∀ (n : Fin 8) (v f : Nat) (s : State), s.sl[n].synth.seam = some (v, f) →
  (if s.sl[n].synth.useB then s.sl[n].synth.a else s.sl[n].synth.b) = .standby → s.sl[n].st = .running →
  Runs (.fseamHandover n) s fun t =>
    t.sl[n].synth.useB = (!s.sl[n].synth.useB) ∧ t.sl[n].synth.freq = f ∧ t.sl[n].synth.seam = none ∧
    (if s.sl[n].synth.useB then t.sl[n].synth.a = .active ∧ t.sl[n].synth.b = .recovering
      else t.sl[n].synth.b = .active ∧ t.sl[n].synth.a = .recovering) ∧
    t.rd (fSlHandover_COUNT n) = (s.rd (fSlHandover_COUNT n) + 1) % 2 ^ 32 ∧ OnlyFlds s t [fSlHandover_COUNT n] ∧
    t = { s.modSl n fun x => { x with synth := t.sl[n].synth } with regs := t.regs }

/-- What a slice's READY bit needs beside its synthesizers (R33, R57, R529, R552, R579, R585, R588): the bits of R585, a Press run, a patch
loaded or failed where the facility is present, an ACTIVE module with powered PE dies and no fatal fault, a slice that is not
parked, out of service, under test, held by a test or repair or of a dead control store, and a life cycle in which slices run. -/
abbrev SlNeeds (s : State) (n : Fin 8) : Prop :=
  s.isReady (.hb 0) = true ∧ s.isReady (.hb 1) = true ∧ s.isReady .troot = true ∧ s.isReady .press = true ∧
  s.press[n].firstRun = false ∧ (s.hasCap 12 = true → s.rd fUpstat_STATE = 2 ∨ s.rd fUpstat_STATE = 3) ∧
  s.power.st = .active ∧ s.power.peOff = false ∧ s.power.fatal = false ∧ s.rd ⟨aPwrctl, n, 1⟩ = 0 ∧ s.rd ⟨aSvcoff, n, 1⟩ = 0 ∧
  s.heldReady (.sl n) = false ∧ s.tested [1, 2, 3] n = false ∧ s.sl[n].csDead = false ∧ s.lifeCycle ≠ 0 ∧ s.lifeCycle ≠ 6

/-- What a SCAN unit's READY bit needs (R33, R585, R588). -/
abbrev ScanNeeds (s : State) (u : Fin 4) : Prop :=
  s.hasCap u = true ∧ s.isReady (.hb 0) = true ∧ s.isReady (.hb 1) = true ∧ s.isReady .troot = true ∧ s.power.st = .active ∧
  s.rd ⟨aSvcoff, 8 + u.val, 1⟩ = 0 ∧ s.heldReady (.scan u) = false ∧ s.tested [4] u = false

/-- SYNTH_RECOVERED (R208, R213): the named synthesizer is STANDBY; with both STANDBY and nothing else in the way the
slice becomes ready. -/
def synthRecovered : Prop := ∀ (n : Fin 8) (b : Bool) (s : State),
  (if b then s.sl[n].synth.b else s.sl[n].synth.a) = .recovering →
  Runs (.synthRecovered n b) s fun t =>
    (if b then t.sl[n].synth.b else t.sl[n].synth.a) = .standby ∧
    (if b then t.sl[n].synth.a = s.sl[n].synth.a else t.sl[n].synth.b = s.sl[n].synth.b) ∧
    ((if b then s.sl[n].synth.a else s.sl[n].synth.b) = .standby → SlNeeds s n → t.isReady (.sl n) = true) ∧
    (¬ SlNeeds s n → t.ready = s.ready) ∧
    t = { s.modSl n fun x => { x with synth := t.sl[n].synth } with ready := t.ready, wasReady := t.wasReady }

/-- SYNTH_FAULT (R212) of an ACTIVE synthesizer: a contained fault of the slice with VCLK.FAULT; both synthesizers recover, and
the slice leaves service. -/
def synthFault : Prop := ∀ (n : Fin 8) (s : State), (s.sl[n].synth.a = .active ∨ s.sl[n].synth.b = .active) →
  Awake s → Runs (.synthFault n) s fun t => t.rd (fSlVclk_FAULT n) = 1 ∧ t.isReady (.sl n) = false ∧
    t.sl[n].synth.a = .recovering ∧ t.sl[n].synth.b = .recovering ∧
    (∀ m ∈ s.burstOf n, PinsSafe t.sl[m] ∧ EndsAtOnce s t n m .contained) ∧
    OnlyFlds s t (fSlVclk_FAULT n :: reportFlds (Config.sourceOf (.synth n)) ++ rejectFlds ++ (s.burstOf n).flatMap stopFlds) ∧
    t = { s with regs := t.regs, ready := t.ready, wasReady := t.wasReady, sl := t.sl, press := t.press, hamper := t.hamper, free := t.free, out := t.out }

/-- DLL_LOCK_LOST (R230): a corrected fault with CAL_STALE; no burst ends. -/
def dllLockLost : Prop := ∀ (n : Fin 8) (s : State),
  Awake s → Runs (.dllLockLost n) s fun t => t.rd (fPrStat_CAL_STALE n) = 1 ∧
    OnlyFlds s t (fPrStat_CAL_STALE n :: reportFlds (Config.sourceOf (.dll n))) ∧
    t = { s with regs := t.regs, hamper := t.hamper, out := t.out }

/-- A dropped event counted and flagged (R239, R240): 0 range, 1 drive collision, 2 strobe collision. -/
abbrev Dropped (s t : State) (n : Fin 8) (lane : Fin 32) (kind : Nat) : Prop :=
  t.rd ⟨aSlWferr n, kind, 1⟩ = 1 ∧ t.rd (fSlWfcnt_COUNT n kind) = min (s.rd (fSlWfcnt_COUNT n kind) + 1) 0xFFFFFFFF ∧
  (s.rd ⟨aSlWferr n, 0, 3⟩ = 0 → t.rd (fSlWferr_LANE n) = lane) ∧
  OnlyFlds s t [⟨aSlWferr n, kind, 1⟩, fSlWferr_LANE n, fSlWfcnt_COUNT n kind] ∧ t = { s with regs := t.regs }

/-- The time in taps of a drive event, and its place in the order of R223. -/
abbrev driveTaps (s : State) (n : Fin 8) (lane : Fin 32) (p : Played) (slot : Fin 4) : Nat :=
  s.taps n p.ts lane (bitsOf (s.entry n p lane) (7 * slot) 4)
abbrev drivePlace (s : State) (n : Fin 8) (lane : Fin 32) (p : Played) (slot : Fin 4) : DriveKey :=
  (s.nominal n lane p (driveTaps s n lane p slot), p.vec, slot)

/-- The lane's newest judged event. -/
abbrev Judged (u : State) (n : Fin 8) (lane : Fin 32) (k : DriveKey) : State :=
  u.modSl n fun x => x.modLane lane fun l => { l with judged := some k }

/-- DRIVE_EVENT (R218, R221, R223, R228), where no other event of the pin is due before it: one less than two periods after its
vector and at least one TROOT period after the last one taken sets the pin, its edge placed under the path's deskew; else it is
dropped. -/
def driveEvent : Prop := ∀ (n : Fin 8) (lane : Fin 32) (vec : Nat) (slot : Fin 4) (p : Played) (d : Drive) (s : State),
  s.drives n lane = true → s.sl[n].find vec = some p → driveOf (bitsOf (s.entry n p lane) (7 * slot + 4) 3) = some d →
  s.driveDue n lane (drivePlace s n lane p slot) = [drivePlace s n lane p slot] →
  Runs (.driveEvent n lane vec slot) s fun t =>
    let T := driveTaps s n lane p slot
    let k := drivePlace s n lane p slot
    if 2 * p.pw ≤ T * 2 ^ 24 then ∃ u, Dropped s u n lane 0 ∧ t = Judged u n lane k
    else if s.sl[n].lanes[lane].lastEvent.any (fun u => s.nominal n lane p T < u + 2 ^ 32) then
      ∃ u, Dropped s u n lane 1 ∧ t = Judged u n lane k
    else t = s.modSl n fun x => x.modLane lane fun l =>
      { l with
        drive := d, park := none, cut := false, lastEvent := some (s.nominal n lane p T)
        edge := some (placed (s.nominal n lane p T) (s.deskewOf n lane d)), judged := some k }

/-- A strobe delivered on a lane (R228, R293 to R296): its placed instant is noted, a window's close too, and its result is the one
known, else a free one. A pass leaves no more behind; a fail enters the compare window, the counter and FFVEC, and with full capture the vector's
record. -/
abbrev Strobed (s t : State) (n : Fin 8) (lane : Fin 32) (p : Played) (instant : Int) (close : Option Int)
    (known : Option Bool) : Prop :=
  (∀ k : Fin 32, k ≠ lane → t.sl[n].lanes[k] = s.sl[n].lanes[k]) ∧
  t.sl[n].lanes[lane] = { s.sl[n].lanes[lane] with
    sampled := some (placed instant (signed (s.rd (fSlDeskew_CMP n lane)) 8))
    closed := match close with
      | some c => some (placed c (signed (s.rd (fSlDeskew_CMP n lane)) 8))
      | none => s.sl[n].lanes[lane].closed } ∧
  (∃ fails : Bool, known ≠ some (!fails) ∧ (known.isSome = true → t.free = s.free) ∧
    (fails = false → t.sl[n].window = s.sl[n].window ∧ t.sl[n].fails = s.sl[n].fails ∧ t.regs = s.regs) ∧
    (fails = true → (p.vec, lane) ∈ t.sl[n].window ∧
      t.rd (fSlFailcnt_COUNT n lane) = min (s.rd (fSlFailcnt_COUNT n lane) + 1) 0xFFFFFFFF ∧
      t.rd (fSlFfvec_VEC n) = min (s.rd (fSlFfvec_VEC n)) p.vec % 2 ^ 64)) ∧
  s.sl[n].window <+: t.sl[n].window ∧ (s.rd (fSlBurst_CAPTURE n) = 0 → t.sl[n].fails = s.sl[n].fails) ∧
  OnlyFlds s t [fSlFailcnt_COUNT n lane, ⟨aSlFcsat n, lane, 1⟩, fSlFfvec_VEC n] ∧
  t = { s.modSl n fun x => { x with lanes := t.sl[n].lanes, window := t.sl[n].window, fails := t.sl[n].fails }
        with regs := t.regs, free := t.free }

/-- STROBE of an edge or a window (R219, R221, R224, R225, R228, R242, R293): one that breaks a range rule, or finds its unit busy,
is dropped and counted; else it is delivered, with a free result on a lane in OPEN, on one whose switch is open, and where the
spec leaves open what the comparator sees. An entry without a strobe has no effect. -/
def strobe : Prop := ∀ (n : Fin 8) (lane : Fin 32) (vec : Nat) (unit : Fin 2) (obs : BallObs) (p : Played) (s : State),
  s.sl[n].playing = true → s.scopeMutes n lane vec = false → s.sl[n].find vec = some p →
  Runs (.strobe n lane vec unit obs) s fun t =>
    let e := s.entry n p lane
    let b := 28 + 12 * unit.val
    let kind := bitsOf e (b + 10) 2
    let o := s.taps n p.ts lane (bitsOf e b 4)
    let c := s.taps n p.ts lane (bitsOf e (b + 4) 4)
    if kind ≠ 1 ∧ kind ≠ 2 then t = s
    else if 2 * p.pw ≤ o * 2 ^ 24 ∨ kind = 2 ∧ (2 * p.pw ≤ c * 2 ^ 24 ∨ c < o + 256) then Dropped s t n lane 0
    else if s.unitBusy n lane unit p = true then Dropped s t n lane 2
    else Strobed s t n lane p (s.nominal n lane p o) (if kind = 2 then some (s.nominal n lane p c) else none)
      (if s.rd (fSlPincfg_CONN n lane) = 0 ∨ s.sl[n].lanes[lane].cut = true then none
        else strobeFails (bitsOf e (b + 8) 2) (s.crossed n lane) (kind == 1) obs)

/-- EVT_INPUT_EDGE (R151): the edge is pending in every accepted burst. -/
def evtInputEdge : Prop := ∀ (e : Fin 8) (tm : Nat) (s : State),
  Runs (.evtInputEdge e tm) s fun t =>
    (∀ n : Fin 8, t.sl[n].seq.evts = if s.sl[n].accepted then s.sl[n].seq.evts ++ [(e.val, tm)] else s.sl[n].seq.evts) ∧
    (∀ n : Fin 8, t.sl[n] = { s.sl[n] with seq := { s.sl[n].seq with evts := t.sl[n].seq.evts } }) ∧
    t = { s with sl := t.sl }

/-- The record of a stream error (R166). -/
abbrev eccOf (n : Fin 8) (data : Bool) (seg off vec : Nat) (word : DWord) : EccPend :=
  ⟨data, n, seg, off, vec, if data then 0 else word⟩

/-- STREAM_ECC_ERROR (R166, R192) of a hem that has not begun: kept for the boundary before its vector, in the order of vectors, at one
vector the lead's words before data; with no burst to play it changes nothing. -/
def streamEccError : Prop := ∀ (n : Fin 8) (data : Bool) (seg off vec : Nat) (word : DWord) (s : State),
  ((s.sl[s.leadOf n].st = .running ∨ s.sl[s.leadOf n].st = .prefill ∨ s.sl[s.leadOf n].st = .armed) →
    s.sl[s.leadOf n].seq.vec ≤ vec / 64 * 64 →
    Runs (.streamEccError n data seg off vec word) s fun t =>
      t = s.modSeqs (s.leadOf n) fun q => { q with ecc := addEcc (eccOf n data seg off vec word) q.ecc }) ∧
  ((s.sl[s.leadOf n].st = .idle ∨ s.sl[s.leadOf n].st = .ending) →
    Runs (.streamEccError n data seg off vec word) s fun t => t = s)

/-- Of a hem whose groups have begun to leave: on the path that plays its data is wanted and missing, an underrun (R61) with ECC_SEEN;
on a path that a taken transfer left it raises nothing. -/
def streamEccLate : Prop := ∀ (n : Fin 8) (data : Bool) (seg off vec : Nat) (word : DWord) (s : State),
  s.sl[s.leadOf n].st = .running → vec / 64 * 64 < s.sl[s.leadOf n].seq.vec →
  Runs (.streamEccError n data seg off vec word) s fun t =>
    let l := s.leadOf n
    let m := if data then n else l
    let on := match s.sl[l].played.find? (fun p => p.vec == vec) with
      | some p => p.seg = seg ∧ p.off = off
      | none => s.sl[l].seq.seg = seg
    (on → (t.sl[m].seg seg).eccSeen = true ∧
      Contained (s.modSl m fun x => x.setSeg seg { x.seg seg with eccSeen := true }) t n (Config.sourceOf (.underrun n))) ∧
    (¬ on → t = s)

/-- Stream errors put in order (R192): the new one is among them, and none is lost. -/
def eccOrder : Prop := ∀ (e : EccPend) (l : List EccPend),
  (addEcc e l).Perm (e :: l) ∧ (l.Pairwise (fun a b => a.vec < b.vec ∨ a.vec = b.vec ∧ a.rank ≤ b.rank) →
    (addEcc e l).Pairwise fun a b => a.vec < b.vec ∨ a.vec = b.vec ∧ a.rank ≤ b.rank)

/-! ## Control words (spec/04, spec/05). A vector-class word acts while vectors of its lead play between two hem boundaries,
a transfer-class word at the hem boundary after the last play of its vector. -/

/-- A transfer of control (R171 to R173): in every slice of the burst the next vector is offset 0 of the segment; its frequency,
where it differs, starts a new epoch and leaves a seam to the synthesizers of the gang. A conditional one drops the stream errors of
the path it leaves. -/
abbrev Entered (s t : State) (l : Fin 8) (seg ts : Nat) (cond : Bool) : Prop :=
  t.sl[l].seq.ts = ts ∧
  (∀ m ∈ s.burstOf l, t.sl[m].seq = { s.sl[m].seq with
    seg := seg, off := 0, plays := 0, taken := true, ts := t.sl[m].seq.ts, epochs := t.sl[m].seq.epochs, sp := t.sl[m].seq.sp
    mwTimeout := t.sl[m].seq.mwTimeout, micro := t.sl[m].seq.micro
    ecc := if cond then (s.sl[m].seq.ecc.filterMap (s.eccBranch l seg)).foldr addEcc [] else s.sl[m].seq.ecc }) ∧
  (∀ f, s.sl[l].fig seg = some f → ∀ g, s.sl[l].fig s.sl[l].seq.seg = some g →
    (f.freq = g.freq → t.sl[l].seq.epochs = s.sl[l].seq.epochs ∧ t.sl[l].synth = s.sl[l].synth) ∧
    (f.freq ≠ g.freq → t.sl[l].synth.seam = some (s.sl[l].seq.vec, f.freq) ∧
      t.sl[l].seq.epochs = (s.sl[l].seq.vec, s.sl[l].seq.sched s.sl[l].seq.vec, pwOf f.freq) :: s.sl[l].seq.epochs)) ∧
  (∀ m : Fin 8, m ∉ s.burstOf l → t.sl[m] = s.sl[m]) ∧
  ∀ m : Fin 8, t.sl[m] = { s.sl[m] with
    fifo := t.sl[m].fifo, ahead := t.sl[m].ahead, synth := t.sl[m].synth, seq := t.sl[m].seq }

/-- JMP (R140): control goes to TARGET after the vector, under the timing set in force. -/
def jmp : Prop := ∀ (n : Fin 8) (word : DWord) (s : State), s.sl[s.leadOf n].takesTransfer = true →
  wordIs .jmp word s.sl[s.leadOf n].pwNow = true →
  s.sl[s.leadOf n].reach.contains (wTarget word) = true →
  Runs (.jmp n word) s fun t => Entered s t (s.leadOf n) (wTarget word) s.sl[s.leadOf n].seq.ts false ∧ t = { s with sl := t.sl }

/-- FSEAM (R141): control goes to TARGET, whose first vector takes the timing set that the word names, if it names one. -/
def fseam : Prop := ∀ (n : Fin 8) (word : DWord) (s : State), s.sl[s.leadOf n].takesTransfer = true →
  wordIs .fseam word s.sl[s.leadOf n].pwNow = true →
  s.sl[s.leadOf n].reach.contains (wTarget word) = true →
  Runs (.fseam n word) s fun t =>
    Entered s t (s.leadOf n) (wTarget word) (if word.getLsbD 6 then bitsOf word.toNat 0 6 else s.sl[s.leadOf n].seq.ts) false ∧
    t = { s with sl := t.sl }

/-- The words of EXC, EXCPOS, EXCVEC and EXCWORD of a slice. -/
abbrev excFlds (m : Fin 8) : List Fld := [wordFld (aSlExc m), wordFld (aSlExcpos m), wordFld (aSlExcpos m + 4), wordFld (aSlExcvec m),
  wordFld (aSlExcvec m + 4), wordFld (aSlExcword m), wordFld (aSlExcword m + 4)]

/-- An exception raised at a word's vector (R164, R189, R192): captured in every slice of the burst that holds none. -/
abbrev Raised (s t : State) (l : Fin 8) (exc sub seg off vec : Nat) (word : DWord) : Prop :=
  (∀ m ∈ s.burstOf l, t.sl[m].seq.excRaised = true ∧ t.rd (fSlExc_VALID m) = 1 ∧
    (s.rd (fSlExc_VALID m) = 0 → t.rd (fSlExc_EXC m) = exc ∧ t.rd (fSlExc_SUB m) = sub ∧ t.rd (fSlExcpos_SEG m) = seg % 2 ^ 20 ∧
      t.rd (fSlExcpos_OFFSET m) = off % 2 ^ 32 ∧ t.rd (fSlExcvec_VEC m) = vec % 2 ^ 64 ∧
      t.rd (fSlExcword_WORD m) = word.toNat) ∧
    (s.rd (fSlExc_VALID m) = 1 → t.rd (fSlExc_EXC m) = s.rd (fSlExc_EXC m) ∧ t.rd (fSlExcvec_VEC m) = s.rd (fSlExcvec_VEC m))) ∧
  OnlyFlds s t ((s.burstOf l).flatMap fun (m : Fin 8) => excFlds m) ∧
  (∀ m : Fin 8, m ∉ s.burstOf l → t.sl[m] = s.sl[m]) ∧
  (∀ m : Fin 8, t.sl[m] = { s.sl[m] with seq := { s.sl[m].seq with
    excRaised := t.sl[m].seq.excRaised, micro := t.sl[m].seq.micro } }) ∧
  t = { s with regs := t.regs, sl := t.sl }

/-- CALL (R142): the continuation is pushed; with 16 entries on the stack STACK_OVF. -/
def call : Prop := ∀ (n : Fin 8) (word : DWord) (s : State), s.sl[s.leadOf n].takesTransfer = true →
  wordIs .call word s.sl[s.leadOf n].pwNow = true →
  Runs (.call n word) s fun t =>
    let l := s.leadOf n
    if 16 ≤ s.sl[l].seq.sp then Raised s t l 1 0 s.sl[l].seq.seg (s.sl[l].seq.off - 1) (s.sl[l].seq.vec - 1) word
    else s.sl[l].reach.contains (wTarget word) = true →
      Entered s t l (wTarget word) s.sl[l].seq.ts false ∧ t.sl[l].seq.sp = s.sl[l].seq.sp + 1 ∧
      t.rd (fSlStack_SEG l s.sl[l].seq.sp) = bitsOf word.toNat 0 20 ∧ OnlyFlds s t [fSlStack_SEG l s.sl[l].seq.sp] ∧
      t = { s with regs := t.regs, sl := t.sl }

/-- RET (R142): the newest continuation is popped; with none STACK_UNF. -/
def ret : Prop := ∀ (n : Fin 8) (word : DWord) (s : State), s.sl[s.leadOf n].takesTransfer = true →
  wordIs .ret word s.sl[s.leadOf n].pwNow = true →
  Runs (.ret n word) s fun t =>
    let l := s.leadOf n
    let sp := s.sl[l].seq.sp
    if sp = 0 then Raised s t l 2 0 s.sl[l].seq.seg (s.sl[l].seq.off - 1) (s.sl[l].seq.vec - 1) word
    else s.sl[l].reach.contains (s.rd (fSlStack_SEG l (sp - 1))) = true →
      Entered s t l (s.rd (fSlStack_SEG l (sp - 1))) s.sl[l].seq.ts false ∧ t.sl[l].seq.sp = sp - 1 ∧ t = { s with sl := t.sl }

/-- HALT (R144): its code is recorded, and the burst ends at this boundary. -/
def halt : Prop := ∀ (n : Fin 8) (word : DWord) (s : State), s.sl[s.leadOf n].takesTransfer = true →
  wordIs .halt word s.sl[s.leadOf n].pwNow = true →
  Runs (.halt n word) s fun t =>
    (∀ m ∈ s.burstOf (s.leadOf n), t.rd (fSlSeqstat_HALT_CODE m) = bitsOf word.toNat 0 8) ∧
    OnlyFlds s t ((s.burstOf (s.leadOf n)).map fun (m : Fin 8) => fSlSeqstat_HALT_CODE m) ∧
    t = { (s.modSeqs (s.leadOf n) fun q => { q with halted := true }).dispatch (s.leadOf n) word (s.sl[s.leadOf n].seq.vec - 1) with regs := t.regs }

/-- LOOP (R146): above 1 the counter goes down and control to the body, else the counter is 0 and play goes on. -/
def loop : Prop := ∀ (n : Fin 8) (word : DWord) (s : State), s.sl[s.leadOf n].takesTransfer = true →
  wordIs .loop word s.sl[s.leadOf n].pwNow = true →
  s.sl[s.leadOf n].reach.contains (wTarget word) = true →
  Runs (.loop n word) s fun t =>
    let l := s.leadOf n
    let c := fSlLc_VALUE l (bitsOf word.toNat 0 3)
    OnlyFlds s t [c] ∧ t = { s with regs := t.regs, sl := t.sl } ∧
    if 1 < s.rd c then Entered s t l (wTarget word) s.sl[l].seq.ts true ∧ t.rd c = s.rd c - 1
    else t.sl = (s.dispatch l word (s.sl[l].seq.vec - 1)).sl ∧ t.rd c = 0

/-- BRC (R152) on a condition that is not a compare: control goes to the target exactly where the source differs from NEG. -/
def brc : Prop := ∀ (n : Fin 8) (word : DWord) (evt b : Bool) (s : State), s.sl[s.leadOf n].takesTransfer = true →
  wordIs .brc word s.sl[s.leadOf n].pwNow = true →
  s.sl[s.leadOf n].reach.contains (wTarget word) = true → word.getLsbD 4 = false →
  s.source (s.leadOf n) (s.sl[s.leadOf n].seq.vec - 1) word evt = some b →
  Runs (.brc n word evt) s fun t => t = { s with sl := t.sl } ∧
    if b = word.getLsbD 5 then t.sl = (s.dispatch (s.leadOf n) word (s.sl[s.leadOf n].seq.vec - 1)).sl else Entered s t (s.leadOf n) (wTarget word) s.sl[s.leadOf n].seq.ts true

/-- CLR after an evaluation at vector v (R147, R150): a compare source clears the window in every slice of the burst, an
event source the edges of its input not later than the sample instant, MW_TIMEOUT itself. -/
abbrev CondCleared (s t : State) (l : Fin 8) (v : Nat) (word : DWord) : Prop :=
  (compareSrc (cSrc word) = true →
    ∀ m ∈ s.burstOf l, t.sl[m].window = s.sl[m].window.filter fun e => v < e.1 + s.rd (fSlDdist_D l)) ∧
  (cSrc word = 0x11 → t.sl[l].seq.evts = s.sl[l].seq.evts.filter fun e =>
    e.1 != cArg word || s.sl[l].seq.sampleAt v (s.rd (fSlDdist_D l)) < e.2 * 2 ^ 32) ∧
  (cSrc word = 0x12 → t.sl[l].seq.clEvents = s.sl[l].seq.clEvents.filter fun e =>
    e.1 != cArg word || s.sl[l].seq.sampleAt v (s.rd (fSlDdist_D l)) < e.2 * 2 ^ 32) ∧
  ∀ m : Fin 8, m ∉ s.burstOf l → t.sl[m] = s.sl[m]

/-- BRC with CLR = 1 (R147, R152): as without, and the source is cleared. -/
def brcClr : Prop := ∀ (n : Fin 8) (word : DWord) (evt b : Bool) (s : State), s.sl[s.leadOf n].takesTransfer = true →
  wordIs .brc word s.sl[s.leadOf n].pwNow = true →
  s.sl[s.leadOf n].reach.contains (wTarget word) = true → word.getLsbD 4 = true →
  s.source (s.leadOf n) (s.sl[s.leadOf n].seq.vec - 1) word evt = some b →
  Runs (.brc n word evt) s fun t => CondCleared s t (s.leadOf n) (s.sl[s.leadOf n].seq.vec - 1) word ∧
    (cSrc word = 0x19 → t.sl[s.leadOf n].seq.mwTimeout = false) ∧
    t.sl[s.leadOf n].seq.vec = s.sl[s.leadOf n].seq.vec ∧ t.sl[s.leadOf n].st = s.sl[s.leadOf n].st ∧
    t.sl[s.leadOf n].seq.taken = (b != word.getLsbD 5) ∧
    t.sl[s.leadOf n].seq.seg = (if b = word.getLsbD 5 then s.sl[s.leadOf n].seq.seg else wTarget word) ∧
    t.sl[s.leadOf n].seq.off = (if b = word.getLsbD 5 then s.sl[s.leadOf n].seq.off else 0) ∧ t = { s with sl := t.sl }

/-- MWAIT (R153): a match goes on with MW_TIMEOUT 0; else the body repeats while the counter is above 1; else the counter is
0 and MW_TIMEOUT 1. -/
def mwait : Prop := ∀ (n : Fin 8) (word : DWord) (evt b : Bool) (s : State), s.sl[s.leadOf n].takesTransfer = true →
  wordIs .mwait word s.sl[s.leadOf n].pwNow = true →
  s.sl[s.leadOf n].reach.contains (wTarget word) = true → word.getLsbD 4 = false →
  s.source (s.leadOf n) (s.sl[s.leadOf n].seq.vec - 1) word evt = some b →
  Runs (.mwait n word evt) s fun t =>
    let l := s.leadOf n
    let c := fSlLc_VALUE l (bitsOf word.toNat 0 3)
    OnlyFlds s t [c] ∧ t = { s with regs := t.regs, sl := t.sl } ∧
    if b ≠ word.getLsbD 5 then t.regs = s.regs ∧ t.sl = ((s.modSeqs l fun q => { q with mwTimeout := false }).dispatch l word (s.sl[l].seq.vec - 1)).sl
    else if 1 < s.rd c then
      Entered s t l (wTarget word) s.sl[l].seq.ts true ∧ t.rd c = s.rd c - 1 ∧ t.sl[l].seq.mwTimeout = s.sl[l].seq.mwTimeout
    else t.rd c = 0 ∧ t.sl = ((s.modSeqs l fun q => { q with mwTimeout := true }).dispatch l word (s.sl[l].seq.vec - 1)).sl

/-- MWAIT with CLR = 1 (R147, R153): as without, and the source is cleared. -/
def mwaitClr : Prop := ∀ (n : Fin 8) (word : DWord) (evt b : Bool) (s : State), s.sl[s.leadOf n].takesTransfer = true →
  wordIs .mwait word s.sl[s.leadOf n].pwNow = true →
  s.sl[s.leadOf n].reach.contains (wTarget word) = true → word.getLsbD 4 = true →
  s.source (s.leadOf n) (s.sl[s.leadOf n].seq.vec - 1) word evt = some b →
  Runs (.mwait n word evt) s fun t =>
    let l := s.leadOf n
    let c := fSlLc_VALUE l (bitsOf word.toNat 0 3)
    CondCleared s t l (s.sl[l].seq.vec - 1) word ∧ OnlyFlds s t [c] ∧ t = { s with regs := t.regs, sl := t.sl } ∧
    if b ≠ word.getLsbD 5 then t.regs = s.regs ∧ t.sl[l].seq.mwTimeout = false ∧ t.sl[l].seq.seg = s.sl[l].seq.seg
    else if 1 < s.rd c then t.rd c = s.rd c - 1 ∧ t.sl[l].seq.seg = wTarget word ∧ t.sl[l].seq.off = 0
    else t.rd c = 0 ∧ t.sl[l].seq.mwTimeout = true ∧ t.sl[l].seq.seg = s.sl[l].seq.seg

/-- A transfer out of the reachable set raises ILLEGAL (R68, R164). -/
def jmpOut : Prop := ∀ (n : Fin 8) (word : DWord) (s : State), s.sl[s.leadOf n].takesTransfer = true →
  wordIs .jmp word s.sl[s.leadOf n].pwNow = true →
  s.sl[s.leadOf n].reach.contains (wTarget word) = false →
  Runs (.jmp n word) s fun t => Raised s t (s.leadOf n) 3 1 s.sl[s.leadOf n].seq.seg (s.sl[s.leadOf n].seq.off - 1)
    (s.sl[s.leadOf n].seq.vec - 1) word

/-- A condition source that names a site in no member's map raises ILLEGAL (R150, R164). -/
def noSite : Prop := ∀ (n : Fin 8) (word : DWord) (evt : Bool) (s : State), s.sl[s.leadOf n].takesTransfer = true →
  wordIs .brc word s.sl[s.leadOf n].pwNow = true →
  s.source (s.leadOf n) (s.sl[s.leadOf n].seq.vec - 1) word evt = none →
  Runs (.brc n word evt) s fun t => Raised s t (s.leadOf n) 3 2 s.sl[s.leadOf n].seq.seg (s.sl[s.leadOf n].seq.off - 1)
    (s.sl[s.leadOf n].seq.vec - 1) word

/-- ADV (R138) has no effect at run time. -/
def adv : Prop := ∀ (n : Fin 8) (word : DWord) (s : State), Runs (.adv n word) s fun t => t = s

/-- A word of vector k of the group as it is presented to the engines: the stack and the loop counters are those before it (R521). -/
abbrev Begins (s : State) (n : Fin 8) (word : DWord) (k : Nat) : MWord :=
  ⟨word, s.sl[s.leadOf n].seq.vec + k, s.sl[s.leadOf n].seq.sp, (List.range 8).map fun i => s.rd (fSlLc_VALUE (s.leadOf n) i)⟩

/-- RPT (R139): the repeat is set for its vector. -/
def rpt : Prop := ∀ (n : Fin 8) (k : Fin 4) (word : DWord) (s : State), s.sl[s.leadOf n].takesWords = true →
  wordIs .rpt word s.sl[s.leadOf n].pwNow = true →
  Runs (.rpt n k word) s fun t =>
    t = (s.modSeqs (s.leadOf n) fun q => { q with
      rptSet := word.toNat % 2 ^ 32, rptOff := s.sl[s.leadOf n].seq.vec + k }).dispatch (s.leadOf n) word (s.sl[s.leadOf n].seq.vec + k)

/-- LDC (R145): the counter named takes the value, and nothing else changes. -/
def ldc : Prop := ∀ (n : Fin 8) (k : Fin 4) (word : DWord) (s : State), s.sl[s.leadOf n].takesWords = true →
  wordIs .ldc word s.sl[s.leadOf n].pwNow = true →
  Runs (.ldc n k word) s fun t =>
    t.rd (fSlLc_VALUE (s.leadOf n) (bitsOf word.toNat 32 3)) = word.toNat % 2 ^ 32 ∧
    OnlyFlds s t [fSlLc_VALUE (s.leadOf n) (bitsOf word.toNat 32 3)] ∧
    t = { s.dispatch (s.leadOf n) word (s.sl[s.leadOf n].seq.vec + k) with regs := t.regs }

/-- TSET (R154): its vector and the timing set wait in order. -/
def tset : Prop := ∀ (n : Fin 8) (k : Fin 4) (word : DWord) (s : State), s.sl[s.leadOf n].takesWords = true →
  wordIs .tset word s.sl[s.leadOf n].pwNow = true →
  Runs (.tset n k word) s fun t =>
    t = (s.modSeqs (s.leadOf n) fun q => { q with
      tsets := q.tsets ++ [(s.sl[s.leadOf n].seq.vec + k, word.toNat % 64)] }).dispatch (s.leadOf n) word (s.sl[s.leadOf n].seq.vec + k)

/-- An entry on its way to a queue of every slice of the burst (R155 to R157, R184). -/
abbrev Sent (s t : State) (n : Fin 8) (k : Fin 4) (kind : QKind) (word : DWord) : Prop :=
  let l := s.leadOf n
  (∀ m ∈ s.burstOf l, t.sl[m] = { s.sl[m] with
    inflight := s.sl[m].inflight ++ [⟨kind, s.sl[l].seq.vec + k, s.sl[l].seq.seg, s.sl[l].seq.offAt k, word⟩]
    seq := { s.sl[m].seq with micro := s.sl[m].seq.micro.present (.word (Begins s n word k)) } }) ∧
  (∀ m : Fin 8, m ∉ s.burstOf l → t.sl[m] = s.sl[m]) ∧ t = { s with sl := t.sl }

/-- LVL (R155); with SCOPE = SITE the site must be in some member's map. -/
def lvl : Prop := ∀ (n : Fin 8) (k : Fin 4) (word : DWord) (s : State), s.sl[s.leadOf n].takesWords = true →
  wordIs .lvl word s.sl[s.leadOf n].pwNow = true →
  (bitsOf word.toNat 14 2 = 2 → (s.slotOf (s.burstOf (s.leadOf n)) (bitsOf word.toNat 32 8)).isSome = true) →
  Runs (.lvl n k word) s fun t => Sent s t n k (.lvl (word.setWidth 40)) word

/-- PMU and TDC (R156): the entry with its tag is on its way to the PMU-trigger queue of every slice of the burst. -/
def pmu : Prop := ∀ (n : Fin 8) (k : Fin 4) (word : DWord) (s : State), s.sl[s.leadOf n].takesWords = true →
  wordIs .pmu word s.sl[s.leadOf n].pwNow = true →
  Runs (.pmu n k word) s fun t => Sent s t n k (.pmu (word.setWidth 8)) word
def tdc : Prop := ∀ (n : Fin 8) (k : Fin 4) (word : DWord) (s : State), s.sl[s.leadOf n].takesWords = true →
  wordIs .tdc word s.sl[s.leadOf n].pwNow = true →
  Runs (.tdc n k word) s fun t => Sent s t n k (.tdc (word.setWidth 8)) word

/-- MKSET and MKCLR (R157): bit 8 names the marker, the low byte its coarse delay. -/
def mkset : Prop := ∀ (n : Fin 8) (k : Fin 4) (word : DWord) (s : State), s.sl[s.leadOf n].takesWords = true →
  wordIs .mkset word s.sl[s.leadOf n].pwNow = true →
  Runs (.mkset n k word) s fun t => Sent s t n k (.mk (word.getLsbD 8) true (word.toNat % 256)) word
def mkclr : Prop := ∀ (n : Fin 8) (k : Fin 4) (word : DWord) (s : State), s.sl[s.leadOf n].takesWords = true →
  wordIs .mkclr word s.sl[s.leadOf n].pwNow = true →
  Runs (.mkclr n k word) s fun t => Sent s t n k (.mk (word.getLsbD 8) false (word.toNat % 256)) word

/-- The filled slots of a burst as a mask (R159). -/
abbrev filledBits (s : State) (l : Fin 8) : Word := BitVec.ofNat 32 (s.filledMask (s.burstOf l))

/-- SMASK (R159): LOAD sets the mask to MASK in the filled slots, ENABLE sets and DISABLE clears the bits that MASK names. -/
def smaskLoad : Prop := ∀ (n : Fin 8) (k : Fin 4) (word : DWord) (s : State), s.sl[s.leadOf n].takesWords = true →
  smaskIs 0 word s.sl[s.leadOf n].pwNow = true →
  Runs (.smaskLoad n k word) s fun t =>
    t = (s.modSeqs (s.leadOf n) fun q => { q with
      mask := word.setWidth 32 &&& filledBits s (s.leadOf n) }).dispatch (s.leadOf n) word (s.sl[s.leadOf n].seq.vec + k)
def smaskEnable : Prop := ∀ (n : Fin 8) (k : Fin 4) (word : DWord) (s : State), s.sl[s.leadOf n].takesWords = true →
  smaskIs 1 word s.sl[s.leadOf n].pwNow = true →
  Runs (.smaskEnable n k word) s fun t =>
    t = (s.modSeqs (s.leadOf n) fun q => { q with
      mask := q.mask ||| (word.setWidth 32 &&& filledBits s (s.leadOf n)) }).dispatch (s.leadOf n) word (s.sl[s.leadOf n].seq.vec + k)
def smaskDisable : Prop := ∀ (n : Fin 8) (k : Fin 4) (word : DWord) (s : State), s.sl[s.leadOf n].takesWords = true →
  smaskIs 2 word s.sl[s.leadOf n].pwNow = true →
  Runs (.smaskDisable n k word) s fun t =>
    t = (s.modSeqs (s.leadOf n) fun q => { q with
      mask := q.mask &&& ~~~word.setWidth 32 }).dispatch (s.leadOf n) word (s.sl[s.leadOf n].seq.vec + k)

/-- SMASK DROP_FAILED (R159): the named slots whose latch shows fail leave the mask. -/
def smaskDropFailed : Prop := ∀ (n : Fin 8) (k : Fin 4) (word : DWord) (s : State), s.sl[s.leadOf n].takesWords = true →
  smaskIs 3 word s.sl[s.leadOf n].pwNow = true →
  Runs (.smaskDropFailed n k word) s fun t =>
    (∀ m ∈ s.burstOf (s.leadOf n), (∀ j : Fin 32, t.sl[m].seq.mask.getLsbD j =
      (s.sl[m].seq.mask.getLsbD j && !(word.getLsbD j && s.latched (s.leadOf n) j))) ∧
      t.sl[m] = { s.sl[m] with seq := { s.sl[m].seq with
        mask := t.sl[m].seq.mask, micro := s.sl[m].seq.micro.present (.word (Begins s n word k)) } }) ∧
    (∀ m : Fin 8, m ∉ s.burstOf (s.leadOf n) → t.sl[m] = s.sl[m]) ∧ t = { s with sl := t.sl }

/-- The latch bit of slot j in slice m. -/
abbrev latchFld (m j : Nat) : Fld := ⟨aSlSitelat m, j, 1⟩

/-- The latches of the burst after an accumulation at vector v (R161): those of active sites whose flag is set show fail, the
others are as before. -/
abbrev Accumulated (s t : State) (l : Fin 8) (v : Nat) : Prop :=
  ∀ m ∈ s.burstOf l, ∀ j : Fin 32, t.rd (latchFld m j) =
    if s.sl[l].seq.mask.getLsbD j ∧ s.siteFlag l v j = true ∧ s.filled [m] j = true then 1 else s.rd (latchFld m j)

/-- The compare window of every slice of the burst cleared at vector v (R148): failing strobes decided by v are gone. -/
abbrev Cleared (s t : State) (l : Fin 8) (v : Nat) : Prop :=
  (∀ m ∈ s.burstOf l, t.sl[m] = { s.sl[m] with window := s.sl[m].window.filter fun e => v < e.1 + s.rd (fSlDdist_D l) }) ∧
  ∀ m : Fin 8, m ∉ s.burstOf l → t.sl[m] = s.sl[m]

/-- SLATCH (R161): ACCUM takes the window into the latches, CLRW empties the window, RESET clears the latches of the slots in the site mask.
-/
def slatchAccum : Prop := ∀ (n : Fin 8) (k : Fin 4) (word : DWord) (s : State), s.sl[s.leadOf n].takesWords = true →
  slatchIs 0 word s.sl[s.leadOf n].pwNow = true →
  Runs (.slatchAccum n k word) s fun t => Accumulated s t (s.leadOf n) (s.sl[s.leadOf n].seq.vec + k) ∧
    OnlyFlds s t ((s.burstOf (s.leadOf n)).map fun (m : Fin 8) => wordFld (aSlSitelat m)) ∧
    t = { s.dispatch (s.leadOf n) word (s.sl[s.leadOf n].seq.vec + k) with regs := t.regs }
def slatchAccumClrw : Prop := ∀ (n : Fin 8) (k : Fin 4) (word : DWord) (s : State), s.sl[s.leadOf n].takesWords = true →
  slatchIs 1 word s.sl[s.leadOf n].pwNow = true →
  Runs (.slatchAccumClrw n k word) s fun t => Accumulated s t (s.leadOf n) (s.sl[s.leadOf n].seq.vec + k) ∧
    Cleared (s.dispatch (s.leadOf n) word (s.sl[s.leadOf n].seq.vec + k)) t (s.leadOf n) (s.sl[s.leadOf n].seq.vec + k) ∧
    OnlyFlds s t ((s.burstOf (s.leadOf n)).map fun (m : Fin 8) => wordFld (aSlSitelat m)) ∧ t = { s with regs := t.regs, sl := t.sl }
def slatchClrw : Prop := ∀ (n : Fin 8) (k : Fin 4) (word : DWord) (s : State), s.sl[s.leadOf n].takesWords = true →
  slatchIs 2 word s.sl[s.leadOf n].pwNow = true →
  Runs (.slatchClrw n k word) s fun t =>
    Cleared (s.dispatch (s.leadOf n) word (s.sl[s.leadOf n].seq.vec + k)) t (s.leadOf n) (s.sl[s.leadOf n].seq.vec + k) ∧ t = { s with sl := t.sl }
def slatchReset : Prop := ∀ (n : Fin 8) (k : Fin 4) (word : DWord) (s : State), s.sl[s.leadOf n].takesWords = true →
  slatchIs 3 word s.sl[s.leadOf n].pwNow = true →
  Runs (.slatchReset n k word) s fun t =>
    (∀ m ∈ s.burstOf (s.leadOf n), ∀ j : Fin 32, t.rd (latchFld m j) =
      if s.sl[s.leadOf n].seq.mask.getLsbD j ∧ s.filled [m] j = true then 0 else s.rd (latchFld m j)) ∧
    OnlyFlds s t ((s.burstOf (s.leadOf n)).map fun (m : Fin 8) => wordFld (aSlSitelat m)) ∧
    t = { s.dispatch (s.leadOf n) word (s.sl[s.leadOf n].seq.vec + k) with regs := t.regs }

/-- GSYNC (R162, R163): with the members in step it ends no burst; with SUM = 1 a summary waits in every port that is
enabled for summaries, replacing one that still waits. -/
def gsync : Prop := ∀ (n : Fin 8) (k : Fin 4) (word : DWord) (inStep : Bool) (s : State),
  s.sl[s.leadOf n].takesWords = true →
  wordIs .gsync word s.sl[s.leadOf n].pwNow = true →
  (∀ m ∈ s.burstOf (s.leadOf n), s.inStep (s.leadOf n) m = true) →
  Runs (.gsync n k word inStep) s fun t =>
    (word.getLsbD 8 = false → t = s.dispatch (s.leadOf n) word (s.sl[s.leadOf n].seq.vec + k)) ∧
    (word.getLsbD 8 = true → ∀ p : Fin 4,
      (s.rd (fClCtrl_SUMEN p) = 0 → t.port[p] = s.port[p]) ∧
      (s.rd (fClCtrl_SUMEN p) = 1 → t.port[p].sum.map Frame.load = some (.summary
        (BitVec.ofNat 64 (s.sl[s.leadOf n].seq.vec + k)) (BitVec.ofNat 256 (s.failMap (s.leadOf n))) (word.setWidth 8)
        (BitVec.ofNat 8 (maskOf ((s.burstOf (s.leadOf n)).map Fin.val)))))) ∧
    OnlyFlds s t ((List.range 4).map fun p => fClSumdrop_COUNT p) ∧
    t = { s.dispatch (s.leadOf n) word (s.sl[s.leadOf n].seq.vec + k) with regs := t.regs, port := t.port }
def gsyncOut : Prop := ∀ (n : Fin 8) (k : Fin 4) (word : DWord) (inStep : Bool) (s : State),
  s.sl[s.leadOf n].takesWords = true →
  wordIs .gsync word s.sl[s.leadOf n].pwNow = true →
  (∃ m ∈ s.burstOf (s.leadOf n), s.inStep (s.leadOf n) m = false) →
  Runs (.gsync n k word inStep) s fun t => Raised s t (s.leadOf n) 3 3 s.sl[s.leadOf n].seq.seg (s.sl[s.leadOf n].seq.offAt k)
    (s.sl[s.leadOf n].seq.vec + k) word

/-- QUEUE_BREACH of an entry (R164, R192, R617): raised; the first exception at a boundary that is not passed yet ends the burst there
(R78), captured, and after an earlier one the boundary is the one that it set. -/
abbrev Breached (s t : State) (n : Fin 8) (sub : Nat) (e : InFlight) : Prop :=
  let l := s.leadOf n
  if s.sl[l].seq.excRaised = false ∧ s.sl[l].st = .running ∧ s.sl[l].seq.atBoundary = true then
    (∀ m ∈ s.burstOf l, t.sl[m].st = .ending ∧ t.rd (fSlAdmit_CAUSE m) = Cause.exception.code ∧
      (s.rd (fSlExc_VALID m) = 0 → t.rd (fSlExc_VALID m) = 1 ∧ t.rd (fSlExc_EXC m) = 4 ∧ t.rd (fSlExc_SUB m) = sub ∧
        t.rd (fSlExc_ORIGIN m) = n ∧ t.rd (fSlExcvec_VEC m) = e.vec % 2 ^ 64)) ∧
    (∀ m : Fin 8, m ∉ s.burstOf l → t.sl[m] = s.sl[m]) ∧
    OnlyFlds s t ((s.burstOf l).flatMap fun (m : Fin 8) => excFlds m ++ [fSlAdmit_CAUSE m, fSlBendvec_VEC m]) ∧
    t = { s with regs := t.regs, sl := t.sl }
  else Raised s t n 4 sub e.seg e.off e.vec e.word

/-- QUEUE_ENTRY_ARRIVAL (R617): the oldest entry on its way enters its queue, or, where the queue is full, is dropped with
QUEUE_BREACH. -/
def arrivalPmu : Prop := ∀ (n : Fin 8) (e : InFlight) (rest : List InFlight) (arm : Bool) (tag : Byte) (s : State),
  s.sl[n].inflight = e :: rest → e.kind = (if arm then .tdc tag else .pmu tag) →
  Runs (.queueEntryArrival n) s fun t =>
    if s.sl[n].pmuq.length < 16 then t = s.modSl n fun x => { x with inflight := rest, pmuq := x.pmuq ++ [⟨arm, tag⟩] }
    else Breached (s.modSl n fun x => { x with inflight := rest }) t n 2 e
def arrivalLvl : Prop := ∀ (n : Fin 8) (e : InFlight) (rest : List InFlight) (o : BitVec 40) (s : State),
  s.sl[n].inflight = e :: rest → e.kind = .lvl o →
  Runs (.queueEntryArrival n) s fun t =>
    let lanes := s.sl[n].lvlLanes o (s.slotOf (s.burstOf n) (bitsOf o.toNat 32 8))
    if s.sl[n].lvlq.length < 64 then t = s.modSl n fun x =>
      { x with inflight := rest, lvlq := x.lvlq ++ [⟨bitsOf o.toNat 11 3, bitsOf o.toNat 16 16, lanes⟩] }
    else Breached (s.modSl n fun x => { x with inflight := rest }) t n 1 e
def arrivalMarker : Prop := ∀ (n : Fin 8) (e : InFlight) (rest : List InFlight) (m level : Bool) (coarse : Nat) (s : State),
  s.sl[n].inflight = e :: rest → e.kind = .mk m level coarse →
  Runs (.queueEntryArrival n) s fun t =>
    let entry : MkEntry := ⟨level, s.sl[s.leadOf n].seq.sched e.vec + coarse * 2 ^ 32⟩
    if (if m then s.sl[n].mkq1 else s.sl[n].mkq0).length < 16 then t = s.modSl n fun x =>
      { x with inflight := rest, mkq0 := if m then x.mkq0 else x.mkq0 ++ [entry], mkq1 := if m then x.mkq1 ++ [entry] else x.mkq1 }
    else Breached (s.modSl n fun x => { x with inflight := rest }) t n (if m then 4 else 3) e

/-- MARKER_EDGE (R157, R158): the entries at the earliest edge instant leave, and the level is that of the one of them that
stands last in stream order. -/
def markerEdge : Prop := ∀ (n : Fin 8) (m : Bool) (a b : List MkEntry) (e : MkEntry) (s : State),
  (if m then s.sl[n].mkq1 else s.sl[n].mkq0) = a ++ e :: b → (∀ x ∈ a ++ b, e.instant ≤ x.instant) →
  (∀ x ∈ b, e.instant < x.instant) →
  Runs (.markerEdge n m) s fun t => t = s.modSl n fun x =>
    if m then { x with mk1 := e.level, mkq1 := (a ++ b).filter fun y => y.instant ≠ e.instant }
    else { x with mk0 := e.level, mkq0 := (a ++ b).filter fun y => y.instant ≠ e.instant }

/-- HEM_BOUNDARY (R136, R60, R135): the end that is due first ends the burst; with none due play goes on. -/
def hemBoundary : Prop := ∀ (n : Fin 8) (s : State), s.sl[s.leadOf n].st = .running →
  s.sl[s.leadOf n].seq.hemDue = true → s.sl[s.leadOf n].seq.ecc = [] → s.sl[s.leadOf n].parked = false →
  Runs (.hemBoundary n) s fun t =>
    let l := s.leadOf n
    let q := s.sl[l].seq
    let ends := fun (c : Cause) => (∀ m ∈ s.burstOf l, t.sl[m].st = .ending ∧ t.rd (fSlAdmit_CAUSE m) = c.code ∧
      (0 < (s.sl[s.sl[l].lead].seq.vec) → t.rd (fSlBendvec_VEC m) = (s.sl[s.sl[l].lead].seq.vec - 1) % 2 ^ 64)) ∧
      OnlyFlds s t ((s.burstOf l).flatMap fun (m : Fin 8) => [fSlAdmit_CAUSE m, fSlBendvec_VEC m])
    (if q.halted then ends .halt else if q.excRaised then ends .exception else if q.spoolStop then ends .spoolHalt
      else if q.abortHem then ends .abortHem
      else t.regs = s.regs ∧ t.sl[l].st = .running ∧ t.sl[l].seq.hemDue = false ∧ t.sl[l].seq.vec = q.vec ∧
        ((q.taken = true ∨ q.off ≠ s.sl[l].len q.seg) → t.sl = (s.modSeqs l fun q => { q with
          hemDue := false, taken := false, micro := q.micro.interrupt entHem }).sl) ∧
        (q.taken = false → q.off = s.sl[l].len q.seg → t.sl[l].seq.seg = q.seg + 1 ∧ t.sl[l].seq.off = 0)) ∧
    t = { s with regs := t.regs, sl := t.sl }

/-- HEM_BOUNDARY with a stream error due in the hem that would play next (R166, R167, R189, R191): the first is captured in every slice
of the burst, the others are counted, each marks its segment, and the burst ends with EXCEPTION. -/
def hemBoundaryEcc : Prop := ∀ (n : Fin 8) (e : EccPend) (r : List EccPend) (s : State), s.sl[s.leadOf n].st = .running →
  s.sl[s.leadOf n].seq.hemDue = true → s.sl[s.leadOf n].seq.halted = false → s.sl[s.leadOf n].seq.excRaised = false →
  (s.goOn (s.leadOf n)).sl[s.leadOf n].seq.eccDue = e :: r →
  Runs (.hemBoundary n) s fun t =>
    let l := s.leadOf n
    (∀ m ∈ s.burstOf l, t.sl[m].st = .ending ∧ t.rd (fSlAdmit_CAUSE m) = Cause.exception.code ∧ t.rd (fSlExc_VALID m) = 1 ∧
      (s.rd (fSlExc_VALID m) = 0 → t.rd (fSlExc_EXC m) = 5 ∧ t.rd (fSlExc_SUB m) = (if e.data then 2 else 1) ∧
        t.rd (fSlExc_ORIGIN m) = (if e.data then e.origin else l) ∧ t.rd (fSlExcpos_SEG m) = e.seg % 2 ^ 20 ∧
        t.rd (fSlExcpos_OFFSET m) = e.off % 2 ^ 32 ∧ t.rd (fSlExcvec_VEC m) = e.vec % 2 ^ 64 ∧
        t.rd (fSlExcword_WORD m) = e.word.toNat ∧ t.rd (fSlExc_LOST m) = min (s.rd (fSlExc_LOST m) + r.length) 255)) ∧
    (∀ d ∈ e :: r, (t.sl[if d.data then d.origin else l].seg d.seg).eccSeen = true) ∧
    OnlyFlds s t ((s.burstOf l).flatMap fun (m : Fin 8) => excFlds m ++ [fSlAdmit_CAUSE m, fSlBendvec_VEC m]) ∧
    (∀ m : Fin 8, m ∉ s.burstOf l → t.sl[m] = { s.sl[m] with segs := t.sl[m].segs }) ∧ t = { s with regs := t.regs, sl := t.sl }

/-! ## Admission and the ends of a burst (spec/02) -/

/-- A rejection of the START that slice c received (R69, R76): reason, slice and value, and the interrupt. -/
abbrev Rejected (t : State) (c : Fin 8) (why : Reason) (m : Fin 8) (v : Nat) : Prop :=
  t.rd (fSlAdmit_REASON c) = why.code ∧ t.rd (fSlAdmit_REJECTED c) = 1 ∧ t.rd (fSlAdmitd_SLICE c) = m ∧
  t.rd (fSlAdmitd_VALUE c) = v % 2 ^ (fSlAdmitd_VALUE c).w ∧ ∀ k : Fin 8, t.rd ⟨aDpCoreIrqpend k, 8 + c.val, 1⟩ = 1

/-- The fields of such a rejection. -/
abbrev rejFlds (c : Fin 8) : List Fld :=
  [fSlAdmit_REASON c, fSlAdmit_REJECTED c, fSlAdmitd_SLICE c, fSlAdmitd_VALUE c] ++ irqFlds (8 + c.val)

/-- Every slice that an admission holds in CHECKING leaves it; nothing else of a slice changes. -/
abbrev CheckOver (s t : State) (recv : Fin 8) : Prop :=
  ∀ k : Fin 8, t.sl[k] = { s.sl[k] with chk := s.sl[k].chk.filter fun c => c.recv != recv }

/-- START (R67): every member of the gang reads CHECKING, with the overrides and what it found when it was taken. -/
def start : Prop := ∀ (ini : Initiator) (n : Fin 8) (v : Word) (s : State), Reaches s ini .slBcmd [n] →
  v.getLsbD 1 = false → v.getLsbD 2 = false → (∀ m ∈ s.members n, s.sl[m].chk = none) →
  Runs (.start ini n v) s fun t =>
    (∀ m ∈ s.members n, t.sl[m] = { s.sl[m] with
      chk := some ⟨n, v.getLsbD 5, v.getLsbD 4, (s.members n).find? fun (k : Fin 8) => s.sl[k].accepted, s.clock,
        Vector.ofFn fun k => s.tqPmu k⟩ }) ∧
    (∀ m : Fin 8, m ∉ s.members n → t.sl[m] = s.sl[m]) ∧
    t.rd (fSlBcmd_OVR_QUEUE n) = b2n (v.getLsbD 5) ∧ t.rd (fSlBcmd_OVR_CAL n) = b2n (v.getLsbD 4) ∧
    OnlyFlds s t [fSlBcmd_OVR_QUEUE n, fSlBcmd_OVR_CAL n, fPrBistRinseres_RESULT, fPrBistRinseres_COVERAGE] ∧
    t = { s with regs := t.regs, sl := t.sl, bist := { s.bist with rinse := t.bist.rinse } }

/-- START while a member reads CHECKING, but for one that its own gang was sent in the same cycle (R67): the admission in progress goes
on, and this START is rejected with the first check of R69 that fails: GANG, NOT_READY, or BUSY with the lowest member that is not
IDLE. -/
def startBusy : Prop := ∀ (ini : Initiator) (n : Fin 8) (v : Word) (s : State), Reaches s ini .slBcmd [n] →
  v.getLsbD 1 = false → v.getLsbD 2 = false → (∃ m ∈ s.members n, s.sl[m].chk ≠ none) →
  let apart := (s.members n).find? fun (k : Fin 8) => s.members k != s.members n
  (∀ m, ((s.members n).find? fun (k : Fin 8) => s.sl[k].chk.isSome) = some m → apart = none → s.sameStart n m = false) →
  Runs (.start ini n v) s fun t =>
    (match apart, (s.members n).find? fun (k : Fin 8) => !s.isReady (.sl k), (s.members n).find? fun (k : Fin 8) =>
        s.sl[k].accepted || s.sl[k].chk.isSome with
      | some k, _, _ => Rejected t n .gang k k.val
      | none, some k, _ => Rejected t n .notReady k 0
      | none, none, some k => Rejected t n .busy k 0
      | none, none, none => False) ∧
    OnlyFlds s t ([fSlBcmd_OVR_QUEUE n, fSlBcmd_OVR_CAL n] ++ rejFlds n) ∧ t = { s with regs := t.regs, out := t.out }

/-- A rejection that ADMISSION_RESULT gives: the START's slice shows it, and every slice it held leaves CHECKING. -/
abbrev NotAdmitted (s t : State) (c : Check) (why : Reason) (m : Fin 8) (v : Nat) : Prop :=
  Rejected t c.recv why m v ∧ CheckOver s t c.recv ∧ OnlyFlds s t (rejFlds c.recv) ∧
  t = { s with regs := t.regs, sl := t.sl, out := t.out }

/-- The slices of the START's gang all name the same slices. -/
abbrev OneGang (s : State) (c : Check) : Prop := ∀ m ∈ s.members c.recv, s.members m = s.members c.recv

/-- ADMISSION_RESULT that rejects (R69): the first check that fails gives the reason. -/
def admissionRejects : Prop := ∀ (n m : Fin 8) (c : Check) (why : Reason) (v : Nat) (s : State), s.sl[n].chk = some c →
  s.verdict c = some (why, m, v) → Runs (.admissionResult n) s fun t => NotAdmitted s t c why m v

/-- The checks before the segments, in their order (R69): GANG, NOT_READY, BUSY, CAL_BUSY, SAFE_STATE, CAL_STALE; the lowest
member that fails is named. -/
def admissionChecks : Prop := ∀ (n m : Fin 8) (c : Check) (s : State), s.sl[n].chk = some c →
  let g := s.members c.recv
  let lowest := fun (bad : Fin 8 → Bool) => g.find? bad = some m
  let notReady := fun (k : Fin 8) => !s.isReady (.sl k)
  let calBusy := fun (k : Fin 8) => s.press[k].phase != .off
  let calStale := fun (k : Fin 8) => s.rd (fPrStat_CAL_STALE k) == 1 && !c.ovrCal
  (lowest (fun (k : Fin 8) => s.members k != g) → Runs (.admissionResult n) s fun t => NotAdmitted s t c .gang m m) ∧
  (OneGang s c → lowest notReady → Runs (.admissionResult n) s fun t => NotAdmitted s t c .notReady m 0) ∧
  (OneGang s c → (∀ k ∈ g, notReady k = false) →
    (c.busy = some m → Runs (.admissionResult n) s fun t => NotAdmitted s t c .busy m 0) ∧
    (c.busy = none →
      (lowest calBusy → Runs (.admissionResult n) s fun t => NotAdmitted s t c .calBusy m 0) ∧
      ((∀ k ∈ g, calBusy k = false) →
        (s.safeHeld = true → g.head? = some m → Runs (.admissionResult n) s fun t => NotAdmitted s t c .safeState m 0) ∧
        (s.safeHeld = false → lowest calStale →
          Runs (.admissionResult n) s fun t => NotAdmitted s t c .calStale m 0))))

/-- What an acceptance requires (R65, R69 to R72): every member ready, free and calibrated, no safe state held, the start
segment and all of its reachable set loaded in every member, the reservation enough for the shortest period, and the lead-ins within Bobbin. -/
def admissionRequires : Prop := ∀ (c : Check) (s : State), s.verdict c = none →
  let g := s.members c.recv
  let lead := g.headD c.recv
  let x := s.sl[lead]
  let r := x.reachOf (s.rd (fSlBurst_START_SEG c.recv))
  (∀ m ∈ g, s.members m = g ∧ s.isReady (.sl m) = true ∧ s.press[m].phase = .off ∧
    (s.rd (fPrStat_CAL_STALE m) = 0 ∨ c.ovrCal = true) ∧
    (∀ u ∈ r, s.segLoaded lead m u = true ∧ s.vecBytes m * 1280 * 2 ^ 32 ≤ s.rd (fSlResv_BW m) * x.pw u) ∧
    (s.rd (fSlBurst_CAPTURE m) = 0 ∨ (s.regionOf 2 m).isSome = true)) ∧
  c.busy = none ∧ (g ≠ [] → s.safeHeld = false) ∧ x.leadBytes r ≤ 2 * 2 ^ 20 ∧
  (∀ u ∈ r, ∀ f, x.fig u = some f → f.cmpBranch = true →
    3584 * 2 ^ 32 ≤ s.rd (fSlDdist_D lead) * x.pw u * 10)

/-- The checks of the algorithm of R69 in their order, each with whether it fails. -/
abbrev admissionSteps (s : State) (c : Check) : List (Reason × Bool) :=
  let g := s.members c.recv
  let lead := g.headD c.recv
  let x := s.sl[lead]
  let start := s.rd (fSlBurst_START_SEG c.recv)
  let r := x.reachOf start
  let pmin := (r.map x.pw).foldl min (2 ^ 40)
  [(.gang, g.any fun (m : Fin 8) => s.members m != g),
   (.notReady, g.any fun (m : Fin 8) => !s.isReady (.sl m)),
   (.busy, c.busy.isSome),
   (.calBusy, g.any fun (m : Fin 8) => s.press[m].phase != .off),
   (.safeState, s.safeHeld && !g.isEmpty),
   (.calStale, g.any fun (m : Fin 8) => s.rd (fPrStat_CAL_STALE m) == 1 && !c.ovrCal),
   (.segInvalid, (x.seg start).st == .empty || (x.seg start).dataOnly),
   (.segNotLoaded, r.any fun u => g.any fun (m : Fin 8) => !s.segLoaded lead m u),
   (.noSpool, g.any fun (m : Fin 8) => s.rd (fSlBurst_CAPTURE m) == 1 && (s.regionOf 2 m).isNone),
   (.bwSlice, g.any fun (m : Fin 8) => decide (s.rd (fSlResv_BW m) * pmin < s.vecBytes m * 1280 * 2 ^ 32)),
   (.bobbin, decide (2 * 2 ^ 20 < x.leadBytes r)),
   (.ddist, r.any fun u => (x.fig u).any (·.cmpBranch) && decide (s.rd (fSlDdist_D lead) * x.pw u * 10 < 3584 * 2 ^ 32)),
   (.fseamSpacing, (x.fseamBad r start).isSome)] ++
  (if c.ovrQueue then [] else g.flatMap fun (m : Fin 8) => (c.queues m).map fun q => (q.1, (x.queueBad r q.2.1 q.2.2).isSome)) ++
  [(.tstartLate, (s.admitTime g lead c.recv start).isSome)]

/-- ADMISSION_RESULT (R69): the first check in the order of the algorithm that fails gives REASON, and with none failing the burst is
accepted. -/
def admissionOrder : Prop := ∀ (n : Fin 8) (c : Check) (s : State), s.sl[n].chk = some c →
  Runs (.admissionResult n) s fun t =>
    match (admissionSteps s c).find? (·.2) with
    | some (why, _) => t.rd (fSlAdmit_REASON c.recv) = why.code ∧ t.rd (fSlAdmit_REJECTED c.recv) = 1 ∧ CheckOver s t c.recv
    | none => ∀ m ∈ s.members c.recv, t.sl[m].st = .prefill

/-- The reachable set (R68): the start segment with every successor of a segment in it. -/
def reachableSet : Prop := ∀ (x : Slice) (seg : Nat), seg ∈ x.reachOf seg ∧ ∀ u ∈ x.reachOf seg, ∀ v ∈ x.succ u, v ∈ x.reachOf seg

/-- The words that an acceptance writes in a member. -/
abbrev acceptFlds (m : Fin 8) : List Fld :=
  [fSlPrefill_BOUND m, fSlAdmit_OVR_USED m, fSlSeqstat_HALT_CODE m, fSlFfvec_VEC m] ++
  ((List.range 8).map fun i => wordFld (aSlExc m + 4 * i)) ++ ((List.range 33).map fun i => wordFld (aSlFailcnt m 0 + 4 * i)) ++
  [wordFld (aSlSpwr m), wordFld (aSlSpwr m + 4), wordFld (aSlSpwr m + 8), wordFld (aSlSpstat m)]

/-- ADMISSION_RESULT that accepts (R70, R77, R168): every member is in PREFILL with the gang, the reachable set and a new run
of vectors, its exception registers and HALT_CODE clear, FFVEC all ones. -/
def admissionAccepts : Prop := ∀ (n : Fin 8) (c : Check) (s : State), s.sl[n].chk = some c → s.verdict c = none →
  Runs (.admissionResult n) s fun t =>
    let g := s.members c.recv
    let seg := s.rd (fSlBurst_START_SEG c.recv)
    let y := s.sl[g.headD c.recv]
    (∀ m ∈ g, t.sl[m].st = .prefill ∧ t.sl[m].chk = none ∧ t.sl[m].gang = g ∧ t.sl[m].lead = g.headD c.recv ∧
      t.sl[m].recv = c.recv ∧ t.sl[m].reach = y.reachOf seg ∧ t.sl[m].window = [] ∧ t.sl[m].played = [] ∧
      t.sl[m].fails = [] ∧ t.sl[m].inflight = [] ∧ t.sl[m].mk0 = false ∧ t.sl[m].mk1 = false ∧
      t.sl[m].seq = { Seq.reset with
        seg := seg, mask := BitVec.ofNat 32 (s.filledMask g), micro := Micro.reset.serve entAccept none } ∧
      t.sl[m].segs = s.sl[m].segs ∧ t.sl[m].lanes = s.sl[m].lanes ∧
      t.rd (fSlAdmit_OVR_USED m) = b2n (c.ovrQueue || c.ovrCal) ∧ t.rd (fSlSeqstat_HALT_CODE m) = 0 ∧
      t.rd (fSlExc_VALID m) = 0 ∧ t.rd (fSlFfvec_VEC m) = 2 ^ 64 - 1 ∧
      (s.rd (fSlSpcfg_CNTAUTO m) = 1 → t.rd (fSlFcsat_LANES m) = 0 ∧ ∀ k < 32, t.rd (fSlFailcnt_COUNT m k) = 0) ∧
      (s.rd (fSlSpcfg_CNTAUTO m) = 0 → ∀ k < 32, t.rd (fSlFailcnt_COUNT m k) = s.rd (fSlFailcnt_COUNT m k)) ∧
      (s.rd (fSlBurst_CAPTURE m) = 1 → t.rd (fSlSpwr_COUNT m) = 0 ∧ t.rd (fSlSprd_COUNT m) = 0 ∧ t.sl[m].spSeq = 0)) ∧
    (∀ m : Fin 8, m ∉ g → t.sl[m] = { s.sl[m] with chk := s.sl[m].chk.filter fun d => d.recv != c.recv }) ∧
    OnlyFlds s t (g.flatMap fun (m : Fin 8) => acceptFlds m) ∧ t = { s with regs := t.regs, sl := t.sl }

/-- PREFILL_DONE (R65 to R67): the slice is ARMED with its FIFO filled; an IMMEDIATE start lies 40 ns or more after this end of
prefill; once T0 is known, vector 0 is scheduled at it. -/
def prefillDone : Prop := ∀ (n : Fin 8) (s : State), s.sl[n].st = .prefill →
  Runs (.prefillDone n) s fun t => t.sl[n].st = .armed ∧
    (s.rd (fSlBurst_MODE s.sl[n].recv) = 0 →
      t.sl[s.sl[n].lead].t0 = max s.sl[s.sl[n].lead].t0 (s.time.tick.toNat + 512)) ∧
    (s.rd (fSlBurst_MODE s.sl[n].recv) ≠ 0 → ∀ m : Fin 8, t.sl[m].t0 = s.sl[m].t0) ∧
    t.sl[n].fifo = s.sl[s.sl[n].lead].fifoFill s.sl[s.sl[n].lead].seq.seg ∧
    (t.knowsT0 s.sl[n].lead = true → s.sl[s.sl[n].lead].seq.vec = 0 → ∀ m ∈ t.burstOf s.sl[n].lead, t.sl[m].seq.epochs =
      [(0, t.sl[s.sl[n].lead].trigArmed.headD t.sl[s.sl[n].lead].t0 * 2 ^ 32,
        pwOf (s.sl[s.sl[n].lead].freqOf s.sl[s.sl[n].lead].seq.seg))]) ∧
    (t.knowsT0 s.sl[n].lead = false → ∀ m : Fin 8, t.sl[m].seq = s.sl[m].seq) ∧
    (∀ m : Fin 8, m ≠ n → t.sl[m] = { s.sl[m] with
      t0 := t.sl[m].t0, seq := { s.sl[m].seq with epochs := t.sl[m].seq.epochs } }) ∧
    t.sl[n] = { s.sl[n] with
      st := .armed, fifo := t.sl[n].fifo, ahead := t.sl[n].ahead, t0 := t.sl[n].t0
      seq := { s.sl[n].seq with epochs := t.sl[n].seq.epochs } } ∧ t = { s with sl := t.sl }

/-- BURST_T0 (R58, R66, R209): vector 0 is scheduled at T0 (where its group came before, as PREFILL_DONE says), every slice of the burst is RUNNING with its synthesizer ACTIVE
at the start frequency; a lane that is not in DRIVER leaves its park state. -/
def burstT0 : Prop := ∀ (n : Fin 8) (s : State), s.sl[s.leadOf n].st = .armed →
  (∀ m ∈ s.burstOf (s.leadOf n), s.sl[m].st = .armed) →
  (s.rd (fSlBurst_MODE s.sl[s.leadOf n].recv) = 2 → s.sl[s.leadOf n].trigArmed ≠ []) →
  Runs (.burstT0 n) s fun t =>
    let l := s.leadOf n
    let t0 := s.sl[l].trigArmed.headD s.sl[l].t0
    let freq := s.sl[l].freqOf s.sl[l].seq.seg
    (∀ m ∈ s.burstOf l, t.sl[m].st = .running ∧ t.sl[m].t0 = t0 ∧ t.sl[m].synth.freq = freq ∧
      (if s.sl[m].synth.useB then t.sl[m].synth.b else t.sl[m].synth.a) = .active ∧
      (∀ k : Fin 32, s.rd (fSlPincfg_CONN m k) ≠ 1 → t.sl[m].lanes[k].park = none ∧ t.sl[m].lanes[k].cut = false) ∧
      (∀ k : Fin 32, t.sl[m].lanes[k].drive = s.sl[m].lanes[k].drive) ∧
      t.sl[m] = { s.sl[m] with st := .running, t0 := t0, synth := t.sl[m].synth, lanes := t.sl[m].lanes, seq := t.sl[m].seq }) ∧
    (∀ m ∈ s.burstOf l, t.sl[m].seq =
      if s.sl[l].seq.vec = 0 then { s.sl[m].seq with epochs := [(0, t0 * 2 ^ 32, pwOf freq)] } else s.sl[m].seq) ∧
    (∀ m : Fin 8, m ∉ s.burstOf l → t.sl[m] = s.sl[m]) ∧ t = { s with sl := t.sl }

/-- A burst withdrawn before T0 (R60, R78): IDLE, nothing delivered. -/
abbrev Withdrawn (t : State) (m : Fin 8) : Prop :=
  t.sl[m].st = .idle ∧ t.rd (fSlAdmit_CAUSE m) = Cause.withdrawn.code ∧ t.rd (fSlBendvec_VEC m) = 2 ^ 64 - 1 ∧
  ∀ k : Fin 8, t.rd ⟨aDpCoreIrqpend k, m.val, 1⟩ = 1

/-- The fields that an abort may write. -/
abbrev abortFlds (s : State) (n : Fin 8) : List Fld :=
  [fSlBcmd_OVR_QUEUE n, fSlBcmd_OVR_CAL n] ++ ((List.finRange 8).flatMap fun (c : Fin 8) => rejFlds c) ++
  (s.burstOf n ++ s.burstOf s.sl[n].lead).flatMap fun (m : Fin 8) => [fSlAdmit_CAUSE m, fSlBendvec_VEC m] ++ excFlds m ++ irqFlds m

/-- Whether stream errors are due after the boundary where the formatter input of a lead stands, which end its burst there before any
other cause but HALT and an exception raised earlier (R166, R167). -/
abbrev EccEnds (s : State) (l : Fin 8) : Prop :=
  (s.sl[l].seq.hemDue = true ∧ (s.goOn l).sl[l].seq.eccDue ≠ []) ∨ (s.sl[l].seq.atBoundary = true ∧ s.sl[l].seq.eccDue ≠ [])

/-- ABORT_HEM (R78, R79): CHECKING is rejected with ABORTED, PREFILL and ARMED withdrawn; a running burst ends at its next hem boundary,
which is the one where the formatter input stands if that is not passed yet, with EXCEPTION where a stream error is due after it; an abort
in CHECKING names the slice where it fell (log entry 20, the model's choice). -/
def abortHem : Prop := ∀ (ini : Initiator) (n : Fin 8) (v : Word) (s : State), Reaches s ini .slBcmd [n] →
  s.isReady (.sl n) = true → v.getLsbD 2 = false →
  Runs (.abortHem ini n v) s fun t =>
    (∀ c, s.sl[n].chk = some c → Rejected t c.recv .aborted n 0 ∧ t.sl[n].chk = none) ∧
    ((s.sl[n].st = .prefill ∨ s.sl[n].st = .armed) → ∀ m ∈ s.burstOf n, Withdrawn t m) ∧
    (s.sl[n].st = .running →
      if s.sl[s.sl[n].lead].st = .running ∧ s.sl[s.sl[n].lead].seq.atBoundary = true then
        ∀ m ∈ s.burstOf s.sl[n].lead, t.sl[m].st = .ending ∧
          (s.sl[s.sl[n].lead].seq.eccDue = [] → t.rd (fSlAdmit_CAUSE m) = Cause.abortHem.code) ∧
          (s.sl[s.sl[n].lead].seq.eccDue ≠ [] → t.rd (fSlAdmit_CAUSE m) = Cause.exception.code ∧ t.rd (fSlExc_VALID m) = 1)
      else (∀ m ∈ s.burstOf s.sl[n].lead, t.sl[m].seq = { s.sl[m].seq with abortHem := true }) ∧
        ∀ m : Fin 8, t.sl[m] = { s.sl[m] with chk := t.sl[m].chk, seq := t.sl[m].seq }) ∧
    ((s.sl[n].st = .idle ∨ s.sl[n].st = .ending) → ∀ m : Fin 8, t.sl[m] = { s.sl[m] with chk := t.sl[m].chk }) ∧
    (s.sl[n].chk = none → ∀ m : Fin 8, t.sl[m].chk = s.sl[m].chk) ∧
    (∀ m : Fin 8, m ∉ s.burstOf n → m ∉ s.burstOf s.sl[n].lead →
      t.sl[m] = { s.sl[m] with chk := t.sl[m].chk, segs := t.sl[m].segs }) ∧
    (s.sl[s.sl[n].lead].seq.eccDue = [] → ∀ m : Fin 8, t.sl[m].segs = s.sl[m].segs) ∧
    OnlyFlds s t (abortFlds s n) ∧ t = { s with regs := t.regs, sl := t.sl, press := t.press, out := t.out }

/-- ABORT_NOW (R78): as ABORT_HEM, and a running burst is ENDING after the last vector that the formatter took; a HALT or an exception
that ends it at a boundary due stays its cause, and a stream error due after that boundary ends it with EXCEPTION; that it goes before
SPOOL_HALT and ABORT_HEM there is the model's choice (log entry 20). -/
def abortNow : Prop := ∀ (ini : Initiator) (n : Fin 8) (v : Word) (s : State), Reaches s ini .slBcmd [n] →
  s.isReady (.sl n) = true →
  Runs (.abortNow ini n v) s fun t =>
    (∀ c, s.sl[n].chk = some c → Rejected t c.recv .aborted n 0 ∧ t.sl[n].chk = none) ∧
    ((s.sl[n].st = .prefill ∨ s.sl[n].st = .armed) → ∀ m ∈ s.burstOf n, Withdrawn t m) ∧
    (s.sl[n].st = .running → ∀ m ∈ s.burstOf n, t.sl[m].st = .ending ∧ t.sl[m].parked = s.sl[m].parked ∧
      t.rd (fSlAdmit_CAUSE m) = (let q := s.sl[s.sl[n].lead].seq
        (if q.hemDue = true ∧ q.halted = true then Cause.halt
         else if q.hemDue = true ∧ q.excRaised = true then Cause.exception
         else if EccEnds s s.sl[n].lead then Cause.exception else Cause.abortNow).code) ∧
      (EccEnds s s.sl[n].lead → s.sl[s.sl[n].lead].seq.halted = false → s.sl[s.sl[n].lead].seq.excRaised = false →
        t.rd (fSlExc_VALID m) = 1) ∧
      (s.sl[n].parked = false → t.rd (fSlBendvec_VEC m) =
        if s.sl[s.sl[n].lead].seq.vec = 0 then 2 ^ 64 - 1 else (s.sl[s.sl[n].lead].seq.vec - 1) % 2 ^ 64)) ∧
    ((s.sl[n].st = .idle ∨ s.sl[n].st = .ending) → ∀ m : Fin 8, t.sl[m] = { s.sl[m] with chk := t.sl[m].chk }) ∧
    (s.sl[n].chk = none → ∀ m : Fin 8, t.sl[m].chk = s.sl[m].chk) ∧
    (∀ m : Fin 8, m ∉ s.burstOf n → t.sl[m] = { s.sl[m] with chk := t.sl[m].chk, segs := t.sl[m].segs }) ∧
    (¬ EccEnds s s.sl[n].lead → ∀ m : Fin 8, t.sl[m].segs = s.sl[m].segs) ∧
    OnlyFlds s t (abortFlds s n) ∧ t = { s with regs := t.regs, sl := t.sl, press := t.press, out := t.out }

/-- RESV_WRITE (R70, R71): BUSY while the slice is not IDLE, BUDGET where the sum would rise above 98,304. -/
def resvWrite : Prop := ∀ (ini : Initiator) (n : Fin 8) (v : Word) (s : State), Reaches s ini .slResv [n] →
  Runs (.resvWrite ini n v) s fun t =>
    let bw := bitsOf v.toNat 0 20
    let others := (((List.finRange 8).filter (· ≠ n)).map fun (m : Fin 8) => s.rd (fSlResv_BW m)).sum +
      ((List.range 4).map fun u => s.rd (fScResv_BW u)).sum
    if s.sl[n].isIdle = false then Flagged s t ini .busy (aSlResv n)
    else if s.rd (fSlResv_BW n) < bw ∧ 98304 < others + bw then Flagged s t ini .budget (aSlResv n)
    else t.rd (fSlResv_BW n) = bw ∧ OnlyFlds s t [fSlResv_BW n] ∧ t = { s with regs := t.regs }

/-- DDIST_WRITE (R70, R81, R185): D of every member of the gang takes the value, or its reset value with RSVD; the written slice alone is
checked (log entry 44, the model's choice). -/
def ddistWrite : Prop := ∀ (ini : Initiator) (n : Fin 8) (v : Word) (s : State), Reaches s ini .slDdist [n] →
  Runs (.ddistWrite ini n v) s fun t =>
    let d := bitsOf v.toNat 0 11
    if s.sl[n].isIdle = false then Flagged s t ini .busy (aSlDdist n)
    else
      (∀ m ∈ s.gang n, t.rd (fSlDdist_D m) = if 8 ≤ d ∧ d ≤ 1024 then d else 90) ∧
      ((d < 8 ∨ 1024 < d) → t.rd ⟨aAccerrx (copyOf ini), AccBit.rsvd.pos, 1⟩ = 1) ∧
      OnlyFlds s t (((s.gang n).map fun (m : Fin 8) => fSlDdist_D m) ++ if 8 ≤ d ∧ d ≤ 1024 then [] else accFlds (copyOf ini)) ∧
      t = { s with regs := t.regs }

/-- The park state of a pin (R188). -/
abbrev ParkedAs (s t : Lane) (mode : Nat) : Prop :=
  t = { s with park := some (parkOf mode), drive := t.drive, cut := t.cut } ∧
  (mode = 0 → t.cut = true ∧ t.drive = s.drive) ∧ (mode ≠ 0 → mode ≠ 4 → mode ≤ 5 → t.cut = false) ∧
  (mode = 4 → t.cut = s.cut) ∧
  (mode = 1 → t.drive = .z) ∧ (mode = 2 → t.drive = .d0) ∧ (mode = 3 → t.drive = .d1) ∧ (mode = 4 → t.drive = s.drive) ∧
  (mode = 5 → t.drive = .term)

/-- PINS_PARK (R187, R188, R211): the pins park, the markers go low, the synthesizer that played is STANDBY. -/
def pinsPark : Prop := ∀ (n : Fin 8) (s : State), s.sl[n].st = .ending → s.sl[n].parked = false →
  Runs (.pinsPark n) s fun t =>
    (∀ k : Fin 32, ParkedAs s.sl[n].lanes[k] t.sl[n].lanes[k] (s.rd (fSlPark_MODE n))) ∧
    t = s.modSl n fun x =>
      { x with
        parked := true, mkq0 := [], mkq1 := [], mk0 := false, mk1 := false, lanes := t.sl[n].lanes
        synth := x.synth.rest, scope := x.scope.dropLate s.now }

/-- BURST_IDLE (R188): IDLE, the reachable set unlocked, with the interrupt. -/
def burstIdle : Prop := ∀ (n : Fin 8) (s : State), s.sl[n].st = .ending → s.sl[n].parked = true → s.sl[n].stage = [] →
  s.sl[n].fails = [] →
  Runs (.burstIdle n) s fun t => t.sl[n].st = .idle ∧ t.sl[n].reach = [] ∧
    (∀ k : Fin 8, t.rd ⟨aDpCoreIrqpend k, n.val, 1⟩ = 1) ∧ .msix 0 (2 + n.val) ∈ t.out ∧ OnlyFlds s t (irqFlds n) ∧
    t = { s.modSl n fun x => { x with st := .idle, reach := [] } with regs := t.regs, press := t.press, out := t.out }

/-- VECTOR_GROUP (R37, R136, R139, R206): four vectors in order, each at its scheduled time with the data of its place in the
image of every slice of the burst; a hem boundary is due after a multiple of 64 plays. -/
def vectorGroup : Prop := ∀ (n : Fin 8) (s : State), s.sl[s.leadOf n].st = .running → s.sl[s.leadOf n].seq.hemDue = false →
  s.sl[s.leadOf n].seq.eccDue = [] →
  Runs (.vectorGroup n) s fun t =>
    let l := s.leadOf n
    let q := s.sl[l].seq
    t.sl[l].seq.vec = q.vec + 4 ∧ t.sl[l].seq.plays = q.plays + 4 ∧ t.sl[l].seq.seg = q.seg ∧
    t.sl[l].seq.hemDue = ((q.plays + 4) % 64 == 0) ∧
    (q.rptLeft = 0 → q.rptSet = 0 → t.sl[l].seq.off = q.off + 4 ∧ t.sl[l].seq.rptLeft = 0 ∧
      (q.tsets = [] → (∀ u : Fin 4, s.scan[u].enabled = false) → ∀ m ∈ s.burstOf l, t.sl[m].played =
        [3, 2, 1, 0].map (fun i => ⟨q.vec + i, q.seg, q.off + i, q.ts, q.sched (q.vec + i), q.period (q.vec + i),
          BitVec.ofNat 128 (s.num (s.imageBase m q.seg + 64 + 16 * (q.off + i)) 16), false⟩) ++ s.sl[m].played.take 252)) ∧
    (4 < q.rptLeft → t.sl[l].seq.off = q.off ∧ t.sl[l].seq.rptLeft = q.rptLeft - 4) ∧
    (q.rptLeft = 0 → 4 ≤ q.rptSet → q.rptOff = q.vec →
      t.sl[l].seq.off = q.off ∧ t.sl[l].seq.rptLeft = q.rptSet - 3 ∧ t.sl[l].seq.rptSet = 0) ∧
    (∀ m ∈ s.burstOf l, t.sl[m] = { s.sl[m] with
      fifo := t.sl[m].fifo, ahead := t.sl[m].ahead, played := t.sl[m].played, units := t.sl[m].units, seq := t.sl[m].seq }) ∧
    (∀ m ∈ s.burstOf l, t.sl[m].seq.vec = s.sl[m].seq.vec + 4) ∧ (∀ m : Fin 8, m ∉ s.burstOf l → t.sl[m] = s.sl[m]) ∧
    t = { s with sl := t.sl }

/-- VECTOR_GROUP with a stream error due in the hem that it would begin (R166): the burst ends with EXCEPTION and no vector of the group
is taken. -/
def vectorGroupEcc : Prop := ∀ (n : Fin 8) (s : State), s.sl[s.leadOf n].st = .running → s.sl[s.leadOf n].seq.hemDue = false →
  s.sl[s.leadOf n].seq.eccDue ≠ [] →
  Runs (.vectorGroup n) s fun t => ∀ m ∈ s.burstOf (s.leadOf n), t.sl[m].st = .ending ∧
    t.rd (fSlAdmit_CAUSE m) = Cause.exception.code ∧ t.rd (fSlExc_VALID m) = 1 ∧ t.sl[m].seq.vec = s.sl[m].seq.vec ∧
    t.sl[m].played = s.sl[m].played

/-! ## Segments, regions and pattern memory (spec/03) -/

/-- A refused segment command (R106, R121). -/
abbrev SegRefused (s t : State) (n : Fin 8) (err : Nat) : Prop :=
  t.rd (fSlSegstat_REFUSED n) = 1 ∧ t.rd (fSlSegstat_ERR n) = err ∧
  OnlyFlds s t [fSlSegstat_REFUSED n, fSlSegstat_ERR n] ∧ t = { s with regs := t.regs }

/-- Every entry but one reads as before. -/
abbrev OtherSegs (s t : State) (n : Fin 8) (g : Nat) : Prop := ∀ k, k ≠ g → t.sl[n].seg k = s.sl[n].seg k

/-- SEG_OPEN (R106): an EMPTY entry takes the range of SEGARG where it lies in the PATTERN region and meets no other entry's. -/
def segOpen : Prop := ∀ (ini : Initiator) (n : Fin 8) (v : Word) (s : State), Reaches s ini .slSegcmd [n] →
  Runs (.segOpen ini n v) s fun t =>
    let g := bitsOf v.toNat 0 20
    let b := s.rd (fSlSegargBase_BASE n)
    let z := s.rd (fSlSegargSize_SIZE n)
    if (s.sl[n].seg g).st ≠ .empty then SegRefused s t n 1
    else if z = 0 ∨ (s.regionOf 1 n).all (fun r => r.2 < (b + z) * 4096) = true then SegRefused s t n 2
    else if (s.sl[n].segs.any fun e => e.2.st != .empty && decide (b < e.2.base + e.2.size ∧ e.2.base < b + z)) = true then
      SegRefused s t n 3
    else t.sl[n].seg g = ⟨.opened, b, z, false, false, (s.sl[n].seg g).err, none⟩ ∧ OtherSegs s t n g ∧
      t = s.modSl n fun x => { x with segs := t.sl[n].segs }

/-- SEG_SEAL (R106, R108): an OPEN entry becomes VERIFYING and its token takes the last place of the seal queue. -/
def segSeal : Prop := ∀ (ini : Initiator) (n : Fin 8) (v : Word) (s : State), Reaches s ini .slSegcmd [n] →
  Runs (.segSeal ini n v) s fun t =>
    let g := bitsOf v.toNat 0 20
    if (s.sl[n].seg g).st ≠ .opened ∨ 64 ≤ s.sl[n].sealq.length then SegRefused s t n 1
    else t.sl[n].seg g = { s.sl[n].seg g with st := .verifying } ∧ OtherSegs s t n g ∧
      t.sl[n].sealq = s.sl[n].sealq ++ [⟨g, BitVec.ofNat 32 (s.rd (fSlSegargToken_TOKEN n)), .waiting⟩] ∧
      t = s.modSl n fun x => { x with segs := t.sl[n].segs, sealq := t.sl[n].sealq }

/-- SEG_DROP (R106, R123): an entry that is not LOCKED becomes EMPTY with the result of its last verification; its seals still to
be verified end as ABANDONED. -/
def segDrop : Prop := ∀ (ini : Initiator) (n : Fin 8) (v : Word) (s : State), Reaches s ini .slSegcmd [n] →
  Runs (.segDrop ini n v) s fun t =>
    let g := bitsOf v.toNat 0 20
    if s.sl[n].locked g = true then SegRefused s t n 4
    else if (s.sl[n].seg g).st = .empty then t = s
    else (t.sl[n].seg g).st = .empty ∧ (t.sl[n].seg g).eccSeen = false ∧
      (t.sl[n].seg g).err = (if (s.sl[n].seg g).st = .verifying then 0xF else (s.sl[n].seg g).err) ∧
      OtherSegs s t n g ∧ t.sl[n].sealq.length = s.sl[n].sealq.length ∧
      (∀ q ∈ t.sl[n].sealq, q.seg = g → q.st ≠ .waiting ∧ q.st ≠ .verifying) ∧
      (t.sl[n].sealq.filter (fun q => q.seg != g)) = s.sl[n].sealq.filter (fun q => q.seg != g) ∧
      t = s.modSl n fun x => { x with segs := t.sl[n].segs, sealq := t.sl[n].sealq }

/-- DMA_SEAL (R107): the seal of a finished descriptor waits while the queue is full; else it acts as SEAL. -/
def dmaSeal : Prop := ∀ (c : Fin 16) (r : DmaRun) (s : State), s.dma[c] = some r → r.finished = true → r.sealDue = true →
  s.dmaStalled.getLsbD c = false →
  Runs (.dmaSeal c) s fun t =>
    let n := dSlice r.desc
    let g := dSeg r.desc
    if 64 ≤ s.sl[n].sealq.length then t = s
    else t.dma = s.dma.set c (some { r with sealDue := false }) ∧ OtherSegs s t n g ∧
      ((s.sl[n].seg g).st = .opened → t.sl[n].seg g = { s.sl[n].seg g with st := .verifying } ∧
        t.sl[n].sealq = s.sl[n].sealq ++ [⟨g, r.desc.token, .waiting⟩]) ∧
      ((s.sl[n].seg g).st ≠ .opened → t.sl[n].segs = s.sl[n].segs ∧
        t.sl[n].sealq = s.sl[n].sealq ++ [⟨g, r.desc.token, .noEntry 1⟩]) ∧
      t = { s.modSl n fun x => { x with segs := t.sl[n].segs, sealq := t.sl[n].sealq } with dma := t.dma }

/-- Whether a seal has its record and waits for LOADDONE. -/
def sealDone (q : Seal) : Bool := match q.st with | .ready _ => true | .waiting | .noEntry _ | .verifying => false

/-- VERIFY_BEGIN (R108, R111) of the oldest seal without a record, where LOADDONE keeps room for one: it goes under verification,
which panic holds back; for an entry that was not OPEN nothing is read, and its STATE record is ready. -/
def verifyBegin : Prop := ∀ (n : Fin 8) (a b : List Seal) (q : Seal) (s : State), s.sl[n].sealq = a ++ q :: b →
  (∀ p ∈ a, sealDone p = true) → sealDone q = false →
  Runs (.verifyBegin n) s fun t =>
    if 16 ≤ s.sl[n].loaddone.length then t = s
    else match q.st with
      | .waiting => if s.panicNow then t = s else t = s.modSl n fun x => { x with sealq := a ++ { q with st := .verifying } :: b }
      | .noEntry e => t = s.modSl n fun x => { x with sealq := a ++ { q with st := .ready e } :: b }
      | _ => t = s

/-- No targeted or probabilistic refresh is queued (R375, R377): none goes before the next request. -/
abbrev Rested (s : State) : Prop := s.drc.targeted = [] ∧ s.drc.prob = []

/-- Whether the stacks serve the load unit (R53, R369, R372): both up, no port in panic, no forced burst, no refresh queued. -/
abbrev LoadServed (s : State) : Prop :=
  Rested s ∧ s.panicNow = false ∧ s.drc.panicSince = none ∧ (∀ k : Fin 2, s.stackUp k = true) ∧ (∀ p : Fin 64, s.drc.forced[p] = 0)

/-- The round robins behind the granules of an access (R364): that of each pseudo-channel it reaches goes on behind place i. -/
abbrev TurnsOn (s t : State) (i a len : Nat) : Prop := ∀ pc : Fin 64,
  t.drc.turn[pc] = if (∃ g ∈ granulesOf a len, (placeOf g.1).1 = pc) then (i + 1) % 24 else s.drc.turn[pc]

/-- VERIFY_DONE (R110): with no error the entry is LOADED with its figures; else it is OPEN again with the code. While a forced burst
or a stack out of service holds its reads back, it ends nothing. -/
def verifyDone : Prop := ∀ (n : Fin 8) (ecc : EccWhere) (a b : List Seal) (q : Seal) (s : State),
  s.sl[n].sealq = a ++ q :: b → (∀ p ∈ a, sealDone p = true) → q.st = .verifying → s.drc.waiting = [] →
  (LoadServed s → Runs (.verifyDone n ecc) s fun t =>
    let e := s.sl[n].seg q.seg
    let r := s.verify n q.seg ecc
    t.sl[n].sealq = a ++ { q with st := .ready r.1 } :: b ∧ OtherSegs s t n q.seg ∧
    (r.1 = 0 → t.sl[n].seg q.seg = { e with st := .loaded, dataOnly := r.2.1, err := 0, fig := r.2.2 }) ∧
    (r.1 ≠ 0 → t.sl[n].seg q.seg = { e with st := .opened, err := r.1, fig := none }) ∧
    TurnsOn s t n (s.imageBase n q.seg) (e.size * 4096) ∧
    t = { s.modSl n fun x => { x with segs := t.sl[n].segs, sealq := t.sl[n].sealq } with
      drc := { s.drc with turn := t.drc.turn } }) ∧
  (s.panicNow = false → s.drc.panicSince = none → s.imageServed n q.seg = false → Runs (.verifyDone n ecc) s fun t => t = s)

/-- The checks of an image in their order (R96 to R98, R110): ECC in the header, magic, version and type, segment number, lengths,
frequency, ECC after the header, IMAGE_BYTES, CRC; an image without error has passed them all. -/
def verifyOrder : Prop := ∀ (n : Fin 8) (g : Nat) (ecc : EccWhere) (s : State),
  let i := s.image (s.imageBase n g)
  let e := (s.verify n g ecc).1
  let named := ecc ≠ .header ∧ i.magic = 0x54485347 ∧ i.version = 1 ∧ (i.type = 1 ∨ i.type = 2) ∧ i.segno = g
  let lengths := 4 ≤ i.hems ∧ i.hems ≤ 67108864 ∧ (if i.type = 1 then i.words ≤ 16777216 else i.words = 0) ∧
    i.size ≤ (s.sl[n].seg g).size * 4096
  let head := named ∧ lengths ∧ 0x02000000 ≤ i.freq ∧ i.freq ≤ 0x40000000
  let crc := s.num (i.base + i.body) 4 = (crc32c (s.bytes i.base i.body)).toNat
  (ecc = .header → e = 0xE) ∧
  (ecc ≠ .header → i.magic ≠ 0x54485347 → e = 5) ∧
  (ecc ≠ .header → i.magic = 0x54485347 → (i.version ≠ 1 ∨ (i.type ≠ 1 ∧ i.type ≠ 2)) → e = 6) ∧
  (ecc ≠ .header → i.magic = 0x54485347 → i.version = 1 → (i.type = 1 ∨ i.type = 2) → i.segno ≠ g → e = 7) ∧
  (named → ¬ lengths → e = 8) ∧
  (named → lengths → (i.freq < 0x02000000 ∨ 0x40000000 < i.freq) → e = 9) ∧
  (head → ecc = .body → e = 0xE) ∧
  (head → ecc = .none → s.num (i.base + i.body + 4) 8 ≠ i.size → e = 8) ∧
  (head → ecc = .none → s.num (i.base + i.body + 4) 8 = i.size → ¬ crc → e = 0xA) ∧
  (e = 0 → head ∧ ecc = .none ∧ s.num (i.base + i.body + 4) 8 = i.size ∧ crc ∧
    (i.type = 1 → ∀ w ∈ s.ctlWords i, (opOf (wOp w)).any (fun o => operandsOk o w (pwOf i.freq)) = true))

/-- LOADDONE_POST (R108, R126): the record of the oldest place enters LOADDONE and frees the place. -/
def loaddonePost : Prop := ∀ (n : Fin 8) (q : Seal) (rest : List Seal) (e : Nat) (s : State), s.sl[n].sealq = q :: rest →
  q.st = .ready e →
  Runs (.loaddonePost n) s fun t =>
    if 16 ≤ s.sl[n].loaddone.length then t = s
    else t = s.modSl n fun x => { x with
      sealq := rest
      loaddone := x.loaddone ++ [BitVec.ofNat 64 (2 ^ 63 + e % 16 * 2 ^ 56 + q.seg % 2 ^ 20 * 2 ^ 32 + q.token.toNat)] }

/-- LOADDONE_READ (R126): the oldest record is read and removed; with the low word its high word goes to the shadow. -/
def loaddoneRead : Prop := ∀ (ini : Initiator) (n : Fin 8) (wide : Bool) (s : State), s.busOn ini = true →
  s.sees ini .slLoaddone [n] = true →
  Runs (.loaddoneRead ini n wide) s fun t =>
    let r := s.sl[n].loaddone.headD 0
    t.sl[n].loaddone = s.sl[n].loaddone.tail ∧ t.busData = (if wide then r else r &&& 0xFFFFFFFF) ∧
    t.shadow = (if wide then s.shadow else s.shadow.set (shadowOf ini) (some (aSlLoaddone n, (r >>> 32).setWidth 32))) ∧
    t = { s.modSl n fun x => { x with loaddone := x.loaddone.tail } with shadow := t.shadow, busData := t.busData }

/-- Whether a region may not be formed as number i (R92): beyond 47 GiB, a SPOOL ring that is no power of two up to 1 GiB,
an overlap, or a second region of its kind and owner. -/
abbrev RegionBars (s : State) (i : Fin 32) (r : Region) : Prop :=
  24064 < r.base + r.size ∨ (r.kind = 2 ∧ ∀ k < 10, r.size ≠ 2 ^ k) ∨
  ∃ j : Fin 32, j ≠ i ∧ s.region[j].kind ≠ 0 ∧
    ((r.base < s.region[j].base + s.region[j].size ∧ s.region[j].base < r.base + r.size) ∨
      (r.kind ≤ 4 ∧ s.region[j].kind = r.kind ∧ s.region[j].index = r.index))

/-- Whether a region is in use (R92): a PATTERN region with an entry that is not EMPTY, a SPOOL region of a slice that is not
IDLE, a FRAME region of an enabled unit. -/
abbrev RegionUsed (s : State) (r : Region) : Prop :=
  (r.kind = 1 ∧ s.sl[Fin.ofNat 8 r.index].segs.any (fun e => e.2.st != .empty) = true) ∨
  (r.kind = 2 ∧ s.sl[Fin.ofNat 8 r.index].isIdle = false) ∨
  (r.kind = 3 ∧ s.scan[Fin.ofNat 4 r.index].enabled = true)

/-- HREG_CTRL_WRITE (R92): the region is formed with BASE, or refused as a whole; so it is of SIZE 0 inside another (log entry 64, the
model's choice). -/
def hregCtrlWrite : Prop := ∀ (ini : Initiator) (i : Fin 32) (v : Word) (s : State), Reaches s ini .hregCtrl [i] →
  Runs (.hregCtrlWrite ini i v) s fun t =>
    let r : Region := ⟨bitsOf v.toNat 28 4, bitsOf v.toNat 24 4, s.rd (fHregBase_BASE i), bitsOf v.toNat 0 15⟩
    if 5 < r.kind ∨ 24064 < r.size ∨ (r.kind ≠ 0 ∧ (if r.kind = 3 then 4 else 8) ≤ r.index) then Flagged s t ini .rsvd (aHregCtrl i)
    else if RegionBars s i r then Flagged s t ini .overlap (aHregCtrl i)
    else if RegionUsed s s.region[i] ∨ RegionUsed s r then Flagged s t ini .busy (aHregCtrl i)
    else t.region = s.region.set i r ∧ t.rd (fHregCtrl_KIND i) = r.kind ∧ t.rd (fHregCtrl_INDEX i) = r.index ∧
      t.rd (fHregCtrl_SIZE i) = r.size ∧ OnlyFlds s t [fHregCtrl_KIND i, fHregCtrl_INDEX i, fHregCtrl_SIZE i] ∧
      t = { s with regs := t.regs, region := t.region }

/-- Pattern memory outside a range reads as before. -/
abbrev BytesApart (s t : State) (a len : Nat) : Prop := ∀ b, (b < a ∨ a + len ≤ b) → t.byte b = s.byte b

/-- No port holds panic, and no period of panic waits to be measured (R370). -/
abbrev Calm (s : State) : Prop := s.panicNow = false ∧ s.drc.panicSince = none

/-- An access whose granule is served at once (R363, R369, R372): one granule, no other waits, the stack serves it. -/
abbrev ServedNow (s : State) (who : HbmBy) (a len : Nat) : Prop :=
  s.actsOn who = true ∧ s.drc.waiting = [] ∧ 0 < len ∧ a % 256 + len ≤ 256 ∧ s.servable who a = true ∧ Calm s

/-- The counters of refreshes that an activate may bring forward (R375, R377). -/
abbrev rhFlds : List Fld := [fDrcRhcntT_COUNT, fDrcRhcntP_COUNT]

/-- HBM_ACCESS (R94, R365, R369, R399), a write: the bytes where the initiator may write them, and no others; their row is open. A site
core's data cache holds its own store at once. -/
def hbmWrite : Prop := ∀ (who : HbmBy) (a len : Nat) (bs : List Byte) (s : State), ServedNow s who a bs.length →
  s.mayWrite who a bs.length = true → s.sealed a bs.length = false →
  Runs (.hbmAccess who a len ⟨some bs, none⟩) s fun t =>
    (∀ k < bs.length, t.byte (a + k) = bs.getD k 0) ∧ BytesApart s t a bs.length ∧ t.drc.waiting = [] ∧ t.drc.hits a = true ∧
    (∀ c, who = .core c → t.cores = s.cores.set c { s.cores[c] with dcache := t.cores[c].dcache } ∧
      t.cores[c].dcache = s.cores[c].dcache.map fun e => (e.1, (List.range e.2.length).map fun i =>
        if a ≤ e.1 + i ∧ e.1 + i < a + bs.length then t.byte (e.1 + i) else e.2.getD i 0)) ∧
    ((∀ c, who ≠ .core c) → t.cores = s.cores) ∧
    OnlyFlds s t rhFlds ∧ t = { s with regs := t.regs, mem := t.mem, drc := t.drc, cores := t.cores }

/-- A write that meets a sealed range as it is served, though its initiator might write there as it asked, is refused (R109): at once
as it is asked, or a granule that waited as the seal was taken. -/
def hbmSealed : Prop :=
  (∀ (who : HbmBy) (a len : Nat) (bs : List Byte) (s : State), ServedNow s who a bs.length →
    s.mayWrite who a bs.length = true → s.sealed a bs.length = true →
    Runs (.hbmAccess who a len ⟨some bs, none⟩) s fun t => t.mem = s.mem ∧ t.drc.waiting = [] ∧
      t.rd ⟨aAccerrx (s.hbmCopy who), AccBit.hbm.pos, 1⟩ = 1 ∧ OnlyFlds s t (rhFlds ++ accFlds (s.hbmCopy who)) ∧
      t = { s with regs := t.regs, drc := t.drc, cores := t.cores }) ∧
  ∀ (r : HbmReq) (bs : List Byte) (s : State), r ∈ s.drc.waiting → r.wr = some bs → s.sealed r.addr bs.length = true →
    (s.serve r).mem = s.mem ∧ (s.serve r).rd ⟨aAccerrx (s.hbmCopy r.who), AccBit.hbm.pos, 1⟩ = 1 ∧
    (s.serve r).drc.waiting = s.drc.waiting.erase r

/-- HBM_ACCESS (R94), a read of up to 8 bytes by a site core: little-endian, to its load. -/
def hbmRead : Prop := ∀ (c : Fin 8) (a len : Nat) (s : State), ServedNow s (.core c) a len →
  s.drc.lost[stackOf a] = false → len ≤ 8 →
  s.mayRead (.core c) a len = true →
  Runs (.hbmAccess (.core c) a len ⟨none, none⟩) s fun t =>
    (∀ k < len, bitsOf t.busData.toNat (8 * k) 8 = (s.byte (a + k)).toNat) ∧ t.busData.toNat < 2 ^ (8 * len) ∧
    t.cores = s.cores.set c { s.cores[c] with loadData := t.busData } ∧ t.drc.waiting = [] ∧ OnlyFlds s t rhFlds ∧
    t = { s with regs := t.regs, cores := t.cores, busData := t.busData, drc := t.drc }

/-- HBM_ACCESS (R94), a read by any other initiator: the data at its initiator, memory as before; one of the management controller ends
without a bus error (R381). -/
def hbmReadOther : Prop := ∀ (who : HbmBy) (a len : Nat) (s : State), (∀ c, who ≠ .core c) → ServedNow s who a len →
  s.drc.lost[stackOf a] = false → s.mayRead who a len = true →
  Runs (.hbmAccess who a len ⟨none, none⟩) s fun t =>
    t.busData.toNat = s.num a (min len 8) ∧ t.drc.waiting = [] ∧ OnlyFlds s t rhFlds ∧
    t.busErr = (s.busErr && !decide (who = .mgmt)) ∧
    (∀ n : Fin 8, t.sl[n] = { s.sl[n] with fifo := t.sl[n].fifo, ahead := t.sl[n].ahead }) ∧
    ((∀ n, who ≠ .stream n) → t.sl = s.sl) ∧
    t = { s with regs := t.regs, sl := t.sl, busData := t.busData, busErr := t.busErr, drc := t.drc }

/-- An access that the initiator may not make (R94, R95, R381): memory as it was, a read gives zeros, the access is recorded, and
a site core meets a load or store access fault. -/
def hbmDenied : Prop := ∀ (who : HbmBy) (a len : Nat) (wr : Option (List Byte)) (ue : Option Nat) (s : State), s.actsOn who = true →
  (match wr with | some bs => s.mayWrite who a bs.length | none => s.mayRead who a len) = false → Calm s →
  Runs (.hbmAccess who a len ⟨wr, ue⟩) s fun t =>
    let c := s.hbmCopy who
    t.mem = s.mem ∧ (wr = none → t.busData = 0) ∧ t.rd ⟨aAccerrx c, AccBit.hbm.pos, 1⟩ = 1 ∧
    (s.rd (fAccerrxAddr_VALID c) = 0 → t.rd (fAccerrxAddr_ADDR c) = bitsOf a 0 36 ∧ t.rd (fAccerrxAddr_SPACE c) = 1) ∧
    (∀ k, who = .core k → t.cores = s.cores.set k
      ((if wr.isSome then s.cores[k] else { s.cores[k] with loadData := 0 }).memFault wr.isSome a)) ∧
    ((∀ k, who ≠ .core k) → t.cores = s.cores) ∧ OnlyFlds s t (accFlds c) ∧
    t.busErr = (s.busErr && !decide (who = .mgmt ∧ wr = none)) ∧
    t = { s with regs := t.regs, cores := t.cores, busData := t.busData, busErr := t.busErr }

/-- While a port holds panic an access of class 6 waits, as its granules (R53, R363, R369). -/
def hbmWaits : Prop := ∀ (who : HbmBy) (a len : Nat) (wr : Option (List Byte)) (ue : Option Nat) (since : Nat) (s : State),
  s.actsOn who = true → rtPort who = none → s.panicNow = true → s.drc.panicSince = some since → s.clock - since ≤ 1280000 →
  s.drc.waiting = [] → (match wr with | some bs => s.mayWrite who a bs.length | none => s.mayRead who a len) = true →
  Runs (.hbmAccess who a len ⟨wr, ue⟩) s fun t => t = s.modDrc fun d => { d with
    waiting := s.asks who a (match wr with | some bs => bs.length | none => len) wr ue }

/-- The granules of an access (R363): together they are the access, none crosses a 256 B boundary; a request has 32 B to 1 KiB, on 32 B,
and crosses no 1 KiB boundary. -/
def hbmGranules : Prop := ∀ (a len : Nat),
  ((granulesOf a len).map (·.2)).sum = len ∧
  (∀ g ∈ granulesOf a len, 0 < g.2 ∧ g.1 % 256 + g.2 ≤ 256 ∧ a ≤ g.1 ∧ g.1 + g.2 ≤ a + len) ∧
  ∀ r ∈ requestsOf a len, 32 ≤ r.2 ∧ r.1 % 32 = 0 ∧ r.2 % 32 = 0 ∧ r.1 % 1024 + r.2 ≤ 1024

/-- The granule served next (R364 to R366): one that waits and may be served, with no older one of its initiator to the same bytes before
it, and of the lowest class among those; of its class the oldest aged one goes first, else the management controller's, else that of the
initiator whose turn comes first in its pseudo-channel; whose turn an initiator is that R364 does not place is the model's choice (log
entry 50). -/
def hbmOrder : Prop := ∀ (r : HbmReq) (s : State), s.pick = some r →
  let turn := fun (e : HbmReq) => match s.turnOf e.who with
    | some i => 1 + (i + 24 - s.drc.turn[(placeOf e.addr).1]) % 24
    | none => 0
  r ∈ s.drc.waiting ∧ s.servable r.who r.addr = true ∧
  ∀ e ∈ s.candidates [] s.drc.waiting, s.classOf r.who ≤ s.classOf e.2.who ∧
    (s.classOf e.2.who = s.classOf r.who → 12800 ≤ s.clock - e.2.since →
      12800 ≤ s.clock - r.since ∧ r.since ≤ e.2.since) ∧
    (s.classOf e.2.who = s.classOf r.who → s.clock - r.since < 12800 → turn r ≤ turn e.2)

/-- A granule of class 6 served moves the round robin of its pseudo-channel past its initiator; one of the management controller moves
none (R364). -/
def hbmTurn : Prop := ∀ (who : HbmBy) (a len : Nat) (s : State), ServedNow s who a len → s.mayRead who a len = true →
  Runs (.hbmAccess who a len ⟨none, none⟩) s fun t =>
    t.drc.turn = match s.turnOf who with | some i => s.drc.turn.set (placeOf a).1 ((i + 1) % 24) | none => s.drc.turn

/-! ## Site maps, gangs, pins, levels, PPMUs (spec/05, spec/07) -/

/-- A refused map commit (R179). -/
abbrev MapRefused (t : State) (n : Fin 8) (err detail : Nat) : Prop :=
  t.rd (fSlSmapstat_REFUSED n) = 1 ∧ t.rd (fSlSmapstat_ERR n) = err ∧ t.rd (fSlSmapstat_DETAIL n) = detail

/-- The fields of SMAPSTAT. -/
abbrev mapFlds (n : Fin 8) : List Fld := [fSlSmapstat_REFUSED n, fSlSmapstat_ERR n, fSlSmapstat_DETAIL n]

/-- SMAP_COMMIT (R179, R180, R298): the staged map comes into force as a whole, and the latch of each slot whose site changes
goes to pass; or the map in force stays. -/
def smapCommit : Prop := ∀ (ini : Initiator) (n : Fin 8) (v : Word) (s : State), Reaches s ini .slSmapcmd [n] →
  v.getLsbD 1 = false →
  Runs (.smapCommit ini n v) s fun t =>
    (s.smapCheck n = none →
      (∀ k : Fin 32, t.sl[n].mapLane[k] =
        if s.rd (fSlSmapLane_EN n k) = 1 then some (Fin.ofNat 32 (s.rd (fSlSmapLane_SLOT n k))) else none) ∧
      (∀ j : Fin 32, t.sl[n].mapSlot[j] =
        if s.rd (fSlSmapSlot_EN n j) = 1 then some (BitVec.ofNat 8 (s.rd (fSlSmapSlot_SITE n j))) else none) ∧
      (∀ j : Fin 32, t.rd ⟨aSlSitelat n, j, 1⟩ =
        if t.sl[n].mapSlot[j] = s.sl[n].mapSlot[j] then s.rd ⟨aSlSitelat n, j, 1⟩ else 0) ∧
      t = { s.modSl n fun x => { x with mapLane := t.sl[n].mapLane, mapSlot := t.sl[n].mapSlot } with regs := t.regs }) ∧
    (∀ e, s.smapCheck n = some e → MapRefused t n e.1 e.2 ∧
      (e.1 = 1 → t.rd ⟨aAccerrx (copyOf ini), AccBit.busy.pos, 1⟩ = 1) ∧ t = { s with regs := t.regs }) ∧
    OnlyFlds s t (((s.gang n).map fun (m : Fin 8) => wordFld (aSlSitelat m)) ++ mapFlds n ++ accFlds (copyOf ini))

/-- The order of the checks of a commit (R179): a member that is not IDLE, then a lane whose slot has no site, then two slots
of one site. -/
def smapOrder : Prop := ∀ (n m : Fin 8) (k : Fin 32) (s : State),
  let noSlot := fun (k : Fin 32) => s.rd (fSlSmapLane_EN n k) == 1 && s.rd (fSlSmapSlot_EN n (s.rd (fSlSmapLane_SLOT n k))) == 0
  let site := fun (j : Nat) => if s.rd (fSlSmapSlot_EN n j) = 1 then some (s.rd (fSlSmapSlot_SITE n j)) else none
  let twice := fun (j : Fin 32) => (site j).isSome && (List.range j).any fun i => site i == site j
  ((s.gang n).find? (fun (m : Fin 8) => !s.sl[m].isIdle) = some m → s.smapCheck n = some (1, m.val)) ∧
  ((∀ q ∈ s.gang n, s.sl[q].isIdle = true) →
    ((List.finRange 32).find? noSlot = some k → s.smapCheck n = some (2, k.val)) ∧
    ((∀ q : Fin 32, noSlot q = false) → (List.finRange 32).find? twice = some k → s.smapCheck n = some (3, k.val)))

/-- SMAP_REVERT (R179): the staging registers take the map in force; 0 where that has no site is the model's choice (log entry 65). -/
def smapRevert : Prop := ∀ (ini : Initiator) (n : Fin 8) (v : Word) (s : State), Reaches s ini .slSmapcmd [n] →
  v.getLsbD 0 = false →
  Runs (.smapRevert ini n v) s fun t =>
    (∀ k : Fin 32, t.reg (aSlSmapLane n k) = s.sl[n].mapLane[k].elim 0 fun j => BitVec.ofNat 32 (32 + j.val)) ∧
    (∀ j : Fin 32, t.reg (aSlSmapSlot n j) = s.sl[n].mapSlot[j].elim 0 fun b => BitVec.ofNat 32 (256 + b.toNat)) ∧
    OnlyFlds s t ((List.range 32).flatMap fun k => [wordFld (aSlSmapLane n k), wordFld (aSlSmapSlot n k)]) ∧
    t = { s with regs := t.regs }

/-- Whether some slice outside a gang value has a site of slice n in force. -/
abbrev Breaks (s : State) (n : Fin 8) (members : Nat) (m : Fin 8) : Bool :=
  m != n && !bitOf members m && (List.finRange 32).any fun (j : Fin 32) => s.sl[n].mapSlot[j].any fun b => s.sl[m].hasSite b

/-- GANG_WRITE (R181, R182, R185): refused with BUSY while a slice concerned is not IDLE, and with SMAPSTAT where a site would be torn
apart; an accepted value copies the lead's D to every member of the gang; GANG judged as 0 with RSVD first is the model's choice (log
entry 66). -/
def gangWrite : Prop := ∀ (ini : Initiator) (n : Fin 8) (v : Word) (s : State), Reaches s ini .slGang [n] →
  Runs (.gangWrite ini n v) s fun t =>
    let new := bitsOf v.toNat 0 8
    let odd := new ≠ 0 ∧ bitOf new n = false
    let val := if odd then 0 else new
    let old := s.rd (fSlGang_MEMBERS n)
    if ∃ m : Fin 8, (m = n ∨ bitOf old m = true ∨ bitOf new m = true) ∧ s.sl[m].isIdle = false then Flagged s t ini .busy (aSlGang n)
    else
      (odd → t.rd ⟨aAccerrx (copyOf ini), AccBit.rsvd.pos, 1⟩ = 1) ∧
      (∀ m, (List.finRange 8).find? (Breaks s n val) = some m →
        MapRefused t n 6 m ∧ OnlyFlds s t (mapFlds n ++ accFlds (copyOf ini))) ∧
      ((List.finRange 8).find? (Breaks s n val) = none → t.rd (fSlGang_MEMBERS n) = val ∧
        (∀ m ∈ t.gang n, t.rd (fSlDdist_D m) = s.rd (fSlDdist_D ((t.gang n).headD n))) ∧
        OnlyFlds s t (fSlGang_MEMBERS n :: ((t.gang n).map fun (m : Fin 8) => fSlDdist_D m) ++ accFlds (copyOf ini))) ∧
      t = { s with regs := t.regs }

/-- PINCFG_WRITE (R241, R242, R244): refused with BUSY while the slice is not IDLE, a Press run is in progress, or, for a
connection, a cause of the safe state is held; else the connection changes and a park state ends with the driver off. -/
def pincfgWrite : Prop := ∀ (ini : Initiator) (n : Fin 8) (k : Fin 32) (v : Word) (s : State),
  Reaches s ini .slPincfg [n, k] →
  Runs (.pincfgWrite ini n k v) s fun t =>
    let conn := bitsOf v.toNat 0 2
    if s.sl[n].isIdle = false ∨ s.press[n].phase ≠ .off ∨ (s.safeHeld = true ∧ (conn = 1 ∨ conn = 2)) then
      Flagged s t ini .busy (aSlPincfg n k)
    else t.rd (fSlPincfg_CONN n k) = (if conn = 3 then 0 else conn) ∧ t.rd (fSlPincfg_CLAMPEN n k) = b2n (v.getLsbD 3) ∧
      (conn = 3 → t.rd ⟨aAccerrx (copyOf ini), AccBit.rsvd.pos, 1⟩ = 1) ∧
      OnlyFlds s t (wordFld (aSlPincfg n k) :: if conn = 3 then accFlds (copyOf ini) else []) ∧
      t = { s.modSl n fun x => x.modLane k fun l =>
        { l with drive := if l.park = none then l.drive else .z, park := none, cut := false } with regs := t.regs }

/-- LVLPUSH (R253, R274): the operand bits as of an LVL word; a 64-bit write is held as written; the entry waits in the level queue, is
dropped with FULLDROP where the queue is full, and refused during a Press run or where an LVL word would not be listed; that DAC 7 is not
listed and that a push to an unmapped site acts on no lane are the model's choices (log entries 25 and 45). -/
def lvlpush : Prop := ∀ (ini : Initiator) (n : Fin 8) (wide : Bool) (v : DWord) (s : State), Reaches s ini .slLvlpush [n] →
  Runs (.lvlpush ini n wide v) s fun t =>
    let w := (if wide then v else (v <<< 32) ||| (s.reg (aSlLvlpush n)).setWidth 64) &&& 0xFFFFFFFFFF
    let o : BitVec 40 := w.setWidth 40
    let u := if wide then s.setReg (aSlLvlpush n) (v.setWidth 32) else s
    if s.press[n].phase ≠ .off then Flagged s t ini .busy (aSlLvlpush n + 4)
    else if operandsOk .lvl w 0 = false then Flagged u t ini .rsvd (aSlLvlpush n + 4)
    else if 64 ≤ s.sl[n].lvlq.length then
      t.rd (fSlLvlstat_FULLDROP n) = 1 ∧ OnlyFlds u t [fSlLvlstat_FULLDROP n] ∧ t = { u with regs := t.regs }
    else t = u.modSl n fun x => { x with lvlq := x.lvlq ++
      [⟨bitsOf o.toNat 11 3, bitsOf o.toNat 16 16, x.lvlLanes o (u.slotOf (u.gang n) (bitsOf o.toNat 32 8))⟩] }

/-- PMU_WRITE (R258): staged for the next DAC tick, in place of a change not applied yet; refused during a Press run. -/
def pmuWrite : Prop := ∀ (ini : Initiator) (n : Fin 8) (k : Fin 32) (v : Word) (s : State), Reaches s ini .slPmu [n, k] →
  Runs (.pmuWrite ini n k v) s fun t =>
    if s.press[n].phase ≠ .off then Flagged s t ini .busy (aSlPmu n k)
    else t.rd (fSlPmu_MODE n k) = bitsOf v.toNat 20 2 ∧
      t.rd (fSlPmu_RANGE n k) = (if bitsOf v.toNat 16 3 ≤ 4 then bitsOf v.toNat 16 3 else 0) ∧
      t.rd (fSlPmu_FORCE n k) = bitsOf v.toNat 0 16 ∧
      OnlyFlds s t (wordFld (aSlPmu n k) :: if bitsOf v.toNat 16 3 ≤ 4 then [] else accFlds (copyOf ini)) ∧
      t = { s.modSl n fun x => { x with
        ppmuStaged := x.ppmuStaged ||| BitVec.ofNat 32 (2 ^ k.val), dacPipe := x.dacPipe.filter fun e => e.2 != .ppmu k }
        with regs := t.regs }

/-- What the DAC tick applies in a slice: what was taken two ticks before. -/
abbrev dueItems (s : State) (n : Fin 8) : List DacItem := (s.sl[n].dacPipe.filter fun e => e.1 == 1).map (·.2)

/-- The fields that the application of an item may write. -/
abbrev itemFlds (n : Fin 8) (i : DacItem) : List Fld :=
  match i with
  | .level d _ _ => fSlScpstat_LVLCLASH n :: (List.range 32).map fun k => fSlLevel_CODE n k d
  | .scopeVoh k _ => [fSlLevel_CODE n k 2]
  | .ppmu _ | .restore => []

/-- DAC_TICK (R252, R258, R579): in every slice that is not parked the head level entry and the staged PPMU changes are taken, and
what was taken two ticks before is applied and leaves. -/
def dacTick : Prop := ∀ (s : State), s.power.exitStep = 0 →
  Runs .dacTick s fun t =>
    (∀ n : Fin 8, if s.rd ⟨aPwrctl, n, 1⟩ = 1 then t.sl[n] = s.sl[n] else
      t.sl[n].lvlq = s.sl[n].lvlq.tail ∧ t.sl[n].ppmuStaged = 0 ∧
      (s.press[n].phase ≠ .restore → t.sl[n].dacPipe =
        ((s.sl[n].dacPipe.filter fun e => e.1 != 1).map fun e => (e.1 - 1, e.2)) ++
        (s.sl[n].lvlq.take 1).map (fun e => (2, .level e.dac e.code e.lanes)) ++
        (((List.finRange 32).filter fun (k : Fin 32) => s.sl[n].ppmuStaged.getLsbD k).map fun (k : Fin 32) => (2, .ppmu k))) ∧
      ((∀ k, .ppmu k ∉ dueItems s n) → t.sl[n].ppmu = s.sl[n].ppmu ∧ t.sl[n].ppmuLimit = s.sl[n].ppmuLimit) ∧
      t.sl[n] = { s.sl[n] with
        lvlq := t.sl[n].lvlq, ppmuStaged := t.sl[n].ppmuStaged, dacPipe := t.sl[n].dacPipe, ppmu := t.sl[n].ppmu
        ppmuLimit := t.sl[n].ppmuLimit, dac := t.sl[n].dac }) ∧
    OnlyFlds s t ((List.finRange 8).flatMap fun (n : Fin 8) =>
      if s.rd ⟨aPwrctl, n, 1⟩ = 1 then [] else (dueItems s n).flatMap (itemFlds n)) ∧
    t = { s with regs := t.regs, sl := t.sl, press := t.press }

/-- A level entry as the tick applies it (R250, R252): LEVEL shows its code on its lanes and no other, and their DACs take it corrected
and clipped; how codes are corrected and clipped is the model's (log entry 48). -/
def dacTickLevel : Prop := ∀ (n : Fin 8) (d c : Nat) (lanes : Word) (s : State), s.power.exitStep = 0 → s.rd ⟨aPwrctl, n, 1⟩ = 0 →
  dueItems s n = [.level d c lanes] → d < 7 → c < 65536 → s.sl[n].scope.armed = false →
  Runs .dacTick s fun t => ∀ k : Fin 32,
    t.rd (fSlLevel_CODE n k d) = (if lanes.getLsbD k then c else s.rd (fSlLevel_CODE n k d)) ∧
    t.sl[n].dac[k][Fin.ofNat 7 d] = if lanes.getLsbD k then (s.sl[n].corr[k][Fin.ofNat 7 d]).code c
      else s.sl[n].dac[k][Fin.ofNat 7 d]

/-- A PPMU change as the tick applies it (R258): the PPMU takes its registers. -/
def dacTickPpmu : Prop := ∀ (n : Fin 8) (k : Fin 32) (s : State), s.power.exitStep = 0 → s.rd ⟨aPwrctl, n, 1⟩ = 0 →
  dueItems s n = [.ppmu k] →
  Runs .dacTick s fun t => t.sl[n].ppmu = s.sl[n].ppmu.set k
    ⟨BitVec.ofNat 2 (s.rd (fSlPmu_MODE n k)), BitVec.ofNat 3 (s.rd (fSlPmu_RANGE n k)),
      BitVec.ofNat 16 (s.rd (fSlPmu_FORCE n k))⟩

/-- PPMU_AT_LIMIT (R257): PPMUCLP shows it for a forcing PPMU. -/
def ppmuAtLimit : Prop := ∀ (n : Fin 8) (lane : Fin 32) (b : Bool) (s : State),
  Runs (.ppmuAtLimit n lane b) s fun t =>
    (∀ k : Fin 32, t.sl[n].ppmuLimit.getLsbD k =
      if k = lane then b && (s.sl[n].ppmu[lane].mode == 1 || s.sl[n].ppmu[lane].mode == 2) else s.sl[n].ppmuLimit.getLsbD k) ∧
    t = s.modSl n fun x => { x with ppmuLimit := t.sl[n].ppmuLimit }

/-! ## ADC, TDC and the time base (spec/07) -/

/-- A record posted to the ADC result queue, or lost with RESDROP where it is full (R284); `hdr` is all of it but VALUE. -/
abbrev AdcPosted (s t : State) (n : Fin 8) (hdr : DWord) : Prop :=
  (s.sl[n].adcres.length < 32 → t.sl[n].adcres.length = s.sl[n].adcres.length + 1 ∧ s.sl[n].adcres <+: t.sl[n].adcres ∧
    t.sl[n].adcres.getD s.sl[n].adcres.length 0 &&& 0xFFFFFFFFFC000000 = hdr ∧ t.rd (fSlAdcstat_RESDROP n) = s.rd (fSlAdcstat_RESDROP n)) ∧
  (32 ≤ s.sl[n].adcres.length → t.sl[n].adcres = s.sl[n].adcres ∧ t.rd (fSlAdcstat_RESDROP n) = 1)

/-- A record of the TDC posted in the same way (R267, R291); `hdr` is all of it but TIME. -/
abbrev TdcPosted (s t : State) (n : Fin 8) (hdr : DWord) : Prop :=
  t.sl[n].tdc = none ∧
  (s.sl[n].tdcres.length < 8 → t.sl[n].tdcres.length = s.sl[n].tdcres.length + 1 ∧ s.sl[n].tdcres <+: t.sl[n].tdcres ∧
    t.sl[n].tdcres.getD s.sl[n].tdcres.length 0 &&& 0xFFFFFC0000000000 = hdr ∧ t.rd (fSlTdcstat_RESDROP n) = s.rd (fSlTdcstat_RESDROP n)) ∧
  (8 ≤ s.sl[n].tdcres.length → t.sl[n].tdcres = s.sl[n].tdcres ∧ t.rd (fSlTdcstat_RESDROP n) = 1)

/-- A sequence at its beginning. -/
abbrev freshAdc (src : BitVec 2) (tag : Byte) : AdcRun := ⟨src, tag, 0, 0, 0, false, false, false⟩

/-- The sum mode of the slice's ADC (R261). -/
abbrev SumMode (s : State) (n : Fin 8) : Prop := s.rd (fSlAdcctl_LEN n) = 0 ∧ s.rd (fSlAdcseq_SUM n 0) = 1

/-- PMU_QUEUE_TAKE (R263) of an ADC trigger: discarded with another trigger source, answered by a BUSY record in sum mode,
waiting while a sequence or sum runs, else a sequence of source PATTERN starts. From a STANDBY request to the end of the exit it
stays where it is (R581). -/
def pmuQueueTakeAdc : Prop := ∀ (n : Fin 8) (tag : Byte) (rest : List PmuEntry) (s : State), s.sl[n].pmuq = ⟨false, tag⟩ :: rest →
  Runs (.pmuQueueTake n) s fun t =>
    if s.power.st ≠ .active then t = s
    else if s.rd (fSlAdcctl_TRIGSRC n) ≠ 2 then t = s.modSl n fun x => { x with pmuq := rest }
    else if SumMode s n then AdcPosted s t n (adcRecord false true false 0 tag.toNat 2 0) ∧ t.sl[n].pmuq = rest ∧
      OnlyFlds s t [fSlAdcstat_RESDROP n] ∧
      t = { s.modSl n fun x => { x with pmuq := rest, adcres := t.sl[n].adcres } with regs := t.regs, free := t.free }
    else if s.sl[n].adc.isSome = true ∨ s.sl[n].sumRun = true then t = s
    else t = s.modSl n fun x => { x with pmuq := rest, adc := some (freshAdc 2 tag) }

/-- PMU_QUEUE_TAKE (R263, R581) of a TDC arm: it waits while a measurement is in progress, and from a STANDBY request to the end of the
exit (log entry 45, the model's choice). -/
def pmuQueueTakeTdc : Prop := ∀ (n : Fin 8) (tag : Byte) (rest : List PmuEntry) (s : State), s.sl[n].pmuq = ⟨true, tag⟩ :: rest →
  Runs (.pmuQueueTake n) s fun t =>
    if s.sl[n].tdc.isSome = true ∨ s.power.st ≠ .active then t = s
    else t = s.modSl n fun x => { x with pmuq := rest, tdc := some ⟨tag, false, false, 0⟩ }

/-- ADC_START (R261, R262): skipped with SKIP while a sequence or sum runs, else the sum or a sequence starts. -/
def adcStart : Prop := ∀ (ini : Initiator) (n : Fin 8) (v : Word) (s : State), Reaches s ini .slAdccmd [n] →
  v.getLsbD 1 = false →
  Runs (.adcStart ini n v) s fun t =>
    t.rd (fSlAdccmd_TAG n) = bitsOf v.toNat 8 8 ∧
    OnlyFlds s t [fSlAdccmd_TAG n, fSlAdcstat_SKIP n, fSlAdcsum_OVF n, fSlAdcsum_SUM n, fSlAdcsumn_COUNT n] ∧
    if s.sl[n].adc.isSome = true ∨ s.sl[n].sumRun = true then t.rd (fSlAdcstat_SKIP n) = 1 ∧ t = { s with regs := t.regs }
    else if SumMode s n then t.rd (fSlAdcsum_OVF n) = 0 ∧ t.rd (fSlAdcsum_SUM n) = 0 ∧ t.rd (fSlAdcsumn_COUNT n) = 0 ∧
      t = { s.modSl n fun x => { x with sumRun := true } with regs := t.regs }
    else t = { s.modSl n fun x => { x with adc := some (freshAdc 0 (BitVec.ofNat 8 (bitsOf v.toNat 8 8))) } with regs := t.regs }

/-- ADC_STOP (R261): a running sum stops and keeps its value; a sequence goes on. -/
def adcStop : Prop := ∀ (ini : Initiator) (n : Fin 8) (v : Word) (s : State), Reaches s ini .slAdccmd [n] →
  v.getLsbD 0 = false →
  Runs (.adcStop ini n v) s fun t => t.rd (fSlAdccmd_TAG n) = bitsOf v.toNat 8 8 ∧ OnlyFlds s t [fSlAdccmd_TAG n] ∧
    t = { s.modSl n fun x => { x with sumRun := false } with regs := t.regs }

/-- ADC_TIMER (R261, R262): with TRIGSRC = TIMER and a period, a start is skipped while a sequence or a sum runs; else a sequence
of source TIMER starts. A sum is started by software alone. -/
def adcTimer : Prop := ∀ (n : Fin 8) (s : State),
  Runs (.adcTimer n) s fun t =>
    if s.rd (fSlAdcctl_TRIGSRC n) = 1 ∧ s.rd (fSlAdctmr_PERIOD n) ≠ 0 then
      if s.sl[n].adc.isSome = true ∨ s.sl[n].sumRun = true then
        t.rd (fSlAdcstat_SKIP n) = 1 ∧ OnlyFlds s t [fSlAdcstat_SKIP n] ∧ t = { s with regs := t.regs }
      else if SumMode s n then t = s
      else t = s.modSl n fun x => { x with adc := some (freshAdc 1 0) }
    else t = s

/-- ADC_DELAY_EXPIRY (R262): the delay of the sequence is over, and its samples begin. -/
def adcDelayExpiry : Prop := ∀ (n : Fin 8) (a : AdcRun) (s : State), s.sl[n].adc = some a →
  Runs (.adcDelayExpiry n) s fun t => t = s.modSl n fun x => { x with adc := some { a with started := true } }

/-- ADC_SAMPLE_DONE (R260, R284) in a sequence: the sample is added; the entry's last one posts the accumulator shifted, and
the last entry ends the sequence. -/
def adcSampleSequence : Prop := ∀ (n : Fin 8) (sample : BitVec 18) (a : AdcRun) (s : State), s.sl[n].adc = some a →
  a.started = true →
  Runs (.adcSampleDone n sample) s fun t =>
    let acc := a.acc + sample.toNat
    if a.taken + 1 < 2 ^ s.rd (fSlAdcseq_LOG2N n a.entry) then
      t = s.modSl n fun x => { x with adc := some { a with acc := acc, taken := a.taken + 1 } }
    else
      AdcPosted s t n (adcRecord a.preempted false false a.entry a.tag.toNat a.src.toNat 0) ∧
      (s.sl[n].adcres.length < 32 → (t.sl[n].adcres.getD s.sl[n].adcres.length 0).toNat % 2 ^ 26 =
        acc / 2 ^ s.rd (fSlAdcseq_SHIFT n a.entry) % 2 ^ 26) ∧
      t.sl[n].adc = (if a.entry < s.rd (fSlAdcctl_LEN n) then
        some { a with entry := a.entry + 1, taken := 0, acc := 0, preempted := false } else none) ∧
      OnlyFlds s t [fSlAdcstat_RESDROP n] ∧
      t = { s.modSl n fun x => { x with adc := t.sl[n].adc, adcUrgent := t.sl[n].adcUrgent, adcres := t.sl[n].adcres }
            with regs := t.regs }

/-- ADC_SAMPLE_DONE (R261) in a sum: added with saturation at 2^48 - 1 and OVF, counted, ended at the limit. -/
def adcSampleSum : Prop := ∀ (n : Fin 8) (sample : BitVec 18) (s : State), s.sl[n].adc = none → s.sl[n].sumRun = true →
  Runs (.adcSampleDone n sample) s fun t =>
    let sum := s.rd (fSlAdcsum_SUM n) + sample.toNat
    let k := min (s.rd (fSlAdcsumn_COUNT n) + 1) (2 ^ (fSlAdcsumn_COUNT n).w - 1)
    t.rd (fSlAdcsum_SUM n) = min sum (2 ^ 48 - 1) ∧ t.rd (fSlAdcsumn_COUNT n) = k ∧
    t.rd (fSlAdcsum_OVF n) = (if 2 ^ 48 ≤ sum then 1 else s.rd (fSlAdcsum_OVF n)) ∧
    OnlyFlds s t [fSlAdcsum_OVF n, fSlAdcsum_SUM n, fSlAdcsumn_COUNT n] ∧
    t = { s.modSl n fun x => { x with sumRun := s.rd (fSlAdcsumn_SUMN n) == 0 || k != s.rd (fSlAdcsumn_SUMN n) } with regs := t.regs }

/-- ADC_URGENT_REQUEST (R264): the sample in progress of a sequence is discarded once; a second request waits; one in the start delay
changes nothing, the model's choice (log entry 68). -/
def adcUrgentRequest : Prop := ∀ (n : Fin 8) (a : AdcRun) (s : State), s.sl[n].adc = some a →
  Runs (.adcUrgentRequest n) s fun t =>
    if a.urgentSpent then t = s.modSl n fun x => { x with adcUrgent := true }
    else if a.started then t = s.modSl n fun x => { x with adc := some { a with preempted := true, urgentSpent := true } }
    else t = s

/-- ADCRES_READ and TDCRES_READ (R284, R291): the oldest record is read and removed. -/
def adcresRead : Prop := ∀ (ini : Initiator) (n : Fin 8) (wide : Bool) (s : State), s.busOn ini = true →
  s.sees ini .slAdcres [n] = true →
  Runs (.adcresRead ini n wide) s fun t =>
    let r := s.sl[n].adcres.headD 0
    t.busData = (if wide then r else r &&& 0xFFFFFFFF) ∧
    t.shadow = (if wide then s.shadow else s.shadow.set (shadowOf ini) (some (aSlAdcres n, (r >>> 32).setWidth 32))) ∧
    t = { s.modSl n fun x => { x with adcres := x.adcres.tail } with shadow := t.shadow, busData := t.busData }
def tdcresRead : Prop := ∀ (ini : Initiator) (n : Fin 8) (wide : Bool) (s : State), s.busOn ini = true →
  s.sees ini .slTdcres [n] = true →
  Runs (.tdcresRead ini n wide) s fun t =>
    let r := s.sl[n].tdcres.headD 0
    t.busData = (if wide then r else r &&& 0xFFFFFFFF) ∧
    t.shadow = (if wide then s.shadow else s.shadow.set (shadowOf ini) (some (aSlTdcres n, (r >>> 32).setWidth 32))) ∧
    t = { s.modSl n fun x => { x with tdcres := x.tdcres.tail } with shadow := t.shadow, busData := t.busData }

/-- TDC_ARM (R267, R581): ignored while a measurement is in progress, and from a STANDBY request to the end of the exit; a second one
before ARMED is ignored too (log entry 45, the model's choice). -/
def tdcArm : Prop := ∀ (ini : Initiator) (n : Fin 8) (v : Word) (s : State), Reaches s ini .slTdccmd [n] →
  v.getLsbD 1 = false →
  Runs (.tdcArm ini n v) s fun t => t.rd (fSlTdccmd_TAG n) = bitsOf v.toNat 8 8 ∧ OnlyFlds s t [fSlTdccmd_TAG n] ∧
    t = { s.modSl n fun x => { x with tdc :=
      if x.tdc.isSome || s.power.st != .active then x.tdc else some ⟨BitVec.ofNat 8 (bitsOf v.toNat 8 8), false, false, 0⟩ } with
        regs := t.regs }

/-- TDC_CANCEL (R267, R291): the measurement ends with a record whose CANCEL is 1; its TIME is left open. -/
def tdcCancel : Prop := ∀ (ini : Initiator) (n : Fin 8) (v : Word) (a : TdcRun) (s : State), Reaches s ini .slTdccmd [n] →
  v.getLsbD 0 = false → s.sl[n].tdc = some a →
  Runs (.tdcCancel ini n v) s fun t => t.rd (fSlTdccmd_TAG n) = bitsOf v.toNat 8 8 ∧
    TdcPosted s t n (tdcRecord false (!s.sl[n].tdcLock) false true a.tag.toNat 0) ∧
    OnlyFlds s t [fSlTdccmd_TAG n, fSlTdcstat_RESDROP n] ∧
    t = { s.modSl n fun x => { x with tdc := none, tdcres := t.sl[n].tdcres } with regs := t.regs, free := t.free }

/-- TDC_ARMED (R267): the measurement is armed. TDC_START_EDGE (R266): an armed one has its start. -/
def tdcArmed : Prop := ∀ (n : Fin 8) (a : TdcRun) (s : State), s.sl[n].tdc = some a →
  Runs (.tdcArmed n) s fun t => t = s.modSl n fun x => { x with tdc := some { a with armed := true } }
def tdcStartEdge : Prop := ∀ (n : Fin 8) (a : TdcRun) (s : State), s.sl[n].tdc = some a →
  Runs (.tdcStartEdge n) s fun t => t = s.modSl n fun x => { x with tdc := some { a with started := a.started || a.armed } }

/-- TDC_STOP (R266, R268, R269): the first STOPSKIP qualifying edges after the start are passed over; the next ends the measurement with
the interval corrected for the XO and rounded to the nearest unit; half a unit is rounded up (log entry 45, the model's choice). -/
def tdcStop : Prop := ∀ (n : Fin 8) (raw : Nat) (a : TdcRun) (s : State), s.sl[n].tdc = some a → a.started = true →
  Runs (.tdcStop n raw) s fun t =>
    let d := (1000000000 + signed (s.rd fXotb_PPB) 18).toNat
    if a.stops < s.rd (fSlTdccfg_STOPSKIP n) then
      t = s.modSl n fun x => { x with tdc := some { a with stops := a.stops + 1 } }
    else
      TdcPosted s t n (tdcRecord false (!s.sl[n].tdcLock) s.disciplined false a.tag.toNat 0) ∧
      (s.sl[n].tdcres.length < 8 → (t.sl[n].tdcres.getD s.sl[n].tdcres.length 0).toNat % 2 ^ 42 =
        (2 * raw * 1000000000 + d) / (2 * d) % 2 ^ 42) ∧
      OnlyFlds s t [fSlTdcstat_RESDROP n] ∧
      t = { s.modSl n fun x => { x with tdc := none, tdcres := t.sl[n].tdcres } with regs := t.regs }

/-- TDC_TIMEOUT (R267): a record with TIMEOUT = 1; its TIME is left open. -/
def tdcTimeout : Prop := ∀ (n : Fin 8) (a : TdcRun) (s : State), s.sl[n].tdc = some a → a.armed = true →
  Runs (.tdcTimeout n) s fun t =>
    TdcPosted s t n (tdcRecord true (!s.sl[n].tdcLock) false false a.tag.toNat 0) ∧ OnlyFlds s t [fSlTdcstat_RESDROP n] ∧
    t = { s.modSl n fun x => { x with tdc := none, tdcres := t.sl[n].tdcres } with regs := t.regs, free := t.free }

/-- TDC_LOCK_LOST (R270): LOCK is 0, and nothing else changes. -/
def tdcLockLost : Prop := ∀ (n : Fin 8) (s : State),
  Runs (.tdcLockLost n) s fun t => t = s.modSl n fun x => { x with tdcLock := false }

/-- XO_DISCIPLINE_UPDATE (R269): a disciplined time base takes the estimate; DISC_LOCK after ten in a row that agree with their
predecessor within 1 ppb; what it is compared with is the model's choice (log entry 45). -/
def xoDisciplineUpdate : Prop := ∀ (ppb : Int) (s : State), -100000 ≤ ppb → ppb ≤ 100000 → s.disciplined = true →
  Runs (.xoDisciplineUpdate ppb) s fun t =>
    let k := if s.time.discCount ≠ 0 ∧ (ppb - s.time.discLast).natAbs ≤ 1 then s.time.discCount + 1 else 1
    signed (t.rd fXotb_PPB) 18 = ppb ∧ t.rd fXotb_DISC_LOCK = (if 10 ≤ k then 1 else 0) ∧
    OnlyFlds s t [fXotb_PPB, fXotb_DISC_LOCK] ∧
    t = { s with regs := t.regs, time := { s.time with discCount := min k 10, discLast := ppb } }

/-- XOTB_WRITE (R269): DISC_EN is written; PPB takes the value but while the time base is disciplined, when BUSY is set. DISC_LOCK is 0
while it is not, and a value out of range leaves 0: the model's choices (log entry 68). -/
def xotbWrite : Prop := ∀ (ini : Initiator) (v : Word) (s : State), Reaches s ini .xotb [] →
  Runs (.xotbWrite ini v) s fun t =>
    let p := bitsOf v.toNat 0 18
    t.rd fXotb_DISC_EN = b2n (v.getLsbD 31) ∧
    (if s.disciplined then t.rd fXotb_PPB = s.rd fXotb_PPB ∧ t.rd ⟨aAccerrx (copyOf ini), AccBit.busy.pos, 1⟩ = 1
      else t.rd fXotb_PPB = if p ≤ 100000 ∨ 162144 ≤ p then p else 0) ∧
    (if t.disciplined then t.rd fXotb_DISC_LOCK = s.rd fXotb_DISC_LOCK ∧ t.time = s.time
      else t.rd fXotb_DISC_LOCK = 0 ∧ t.time = { s.time with discCount := 0 }) ∧
    OnlyFlds s t (wordFld aXotb :: accFlds (copyOf ini)) ∧ t = { s with regs := t.regs, time := t.time }

/-! ## The Spool, counters, latches and scope mode (spec/08) -/

/-- SPOOL_RECORD (R300, R301, R305): the record of the oldest failing vector enters the stage; a full stage, or a Spool that has
stopped, counts it in SPDROP under the policy in force; HALT ends the burst at the next boundary, or at one not passed yet (R78). -/
def spoolRecord : Prop := ∀ (n : Fin 8) (f : FailVec) (rest : List FailVec) (s : State), s.sl[n].fails = f :: rest →
  Runs (.spoolRecord n) s fun t =>
    let r := s.sl[n].recordOf n f
    let x := { s.sl[n] with fails := rest, spSeq := s.sl[n].spSeq + 1 }
    let drop := t.rd (fSlSpdrop_COUNT n) = min (s.rd (fSlSpdrop_COUNT n) + 1) 0xFFFFFFFF
    r.vec = f.vec ∧ r.off = f.off ∧ r.fail = f.lanes ∧ r.seq = BitVec.ofNat 32 s.sl[n].spSeq ∧
    let here := s.sl[s.leadOf n].st = .running ∧ s.sl[s.leadOf n].seq.atBoundary = true
    OnlyFlds s t ([fSlSpdrop_COUNT n, fSlSpstat_STOPPED n, fSlSpstat_HALTED n] ++
      if here then (s.burstOf (s.leadOf n)).flatMap fun (m : Fin 8) => [fSlAdmit_CAUSE m, fSlBendvec_VEC m] ++ excFlds m else []) ∧
    (if s.rd (fSlSpstat_STOPPED n) = 1 ∨ s.rd (fSlSpstat_HALTED n) = 1 then
        drop ∧ t = { s.modSl n fun _ => x with regs := t.regs }
      else if s.sl[n].stage.length < 8192 then t = s.modSl n fun _ => { x with stage := s.sl[n].stage ++ [r] }
      else if s.rd (fSlSpcfg_POLICY n) = 0 then
        drop ∧ t.rd (fSlSpstat_STOPPED n) = 1 ∧ t = { s.modSl n fun _ => x with regs := t.regs }
      else if s.rd (fSlSpcfg_POLICY n) = 1 then
        drop ∧ t.rd (fSlSpstat_HALTED n) = 1 ∧
        (if here then ∀ m ∈ s.burstOf (s.leadOf n), t.sl[m].st = .ending ∧ t.rd (fSlAdmit_CAUSE m) =
            (if s.sl[s.leadOf n].seq.eccDue = [] then Cause.spoolHalt else Cause.exception).code
          else t = { (s.modSl n fun _ => x).modSeqs n (fun q => { q with spoolStop := true }) with regs := t.regs })
      else drop ∧ t = { s.modSl n fun _ => { x with stage := s.sl[n].stage.tail ++ [r] } with regs := t.regs })

/-- The statistics of panic. -/
abbrev panFlds : List Fld := [fDrcPancnt_COUNT, fDrcPanlog_MAXUS]

/-- A period of panic that has lasted more than 100 µs, not yet reported. -/
abbrev PanicLasts (s : State) : Prop := s.drc.panicTold = false ∧ ∃ a, s.drc.panicSince = some a ∧ 1280000 < s.clock - a

/-- What the schedulers' sample makes of panic (R370): PANCNT counts a period that begins, MAXUS keeps the longest that ended, LONG is
set and a corrected fault reported, once, for a period of more than 100 µs; nothing else changes. -/
abbrev Sampled (s t : State) : Prop :=
  (s.panicNow = true → t.drc.panicSince = some (s.drc.panicSince.getD s.clock) ∧
    t.rd fDrcPancnt_COUNT = (if s.drc.panicSince = none then min (s.rd fDrcPancnt_COUNT + 1) (2 ^ fDrcPancnt_COUNT.w - 1)
      else s.rd fDrcPancnt_COUNT) ∧ t.rd fDrcPanlog_MAXUS = s.rd fDrcPanlog_MAXUS) ∧
  (s.panicNow = false → t.drc.panicSince = none ∧ t.rd fDrcPancnt_COUNT = s.rd fDrcPancnt_COUNT ∧
    t.rd fDrcPanlog_MAXUS = s.drc.panicSince.elim (s.rd fDrcPanlog_MAXUS) fun a =>
      max (s.rd fDrcPanlog_MAXUS) (min (ceilDiv (s.clock - a) 12800) (2 ^ 24 - 1))) ∧
  (PanicLasts s → t.rd fDrcPanlog_LONG = 1 ∧ t.drc.panicTold = true ∧
    OnlyFlds s t (fDrcPanlog_LONG :: panFlds ++ reportFlds (Config.sourceOf .panicLong))) ∧
  (¬ PanicLasts s → t.hamper = s.hamper ∧ t.out = s.out ∧ OnlyFlds s t panFlds ∧
    t.drc.panicTold = (s.drc.panicTold && !(s.drc.panicSince.isNone && s.panicNow))) ∧
  t = { s with
    regs := t.regs, drc := { s.drc with panicSince := t.drc.panicSince, panicTold := t.drc.panicTold }, hamper := t.hamper
    out := t.out }

/-- SPOOL_DRAIN (R302 to R306): the oldest record of the stage is stored at its place of the ring and SPWR advances; a full ring
holds the drain, but under OVERWRITE its oldest record goes; so does a stack that does not serve the record's bytes. -/
def spoolDrain : Prop := ∀ (n : Fin 8) (r : SpoolRec) (rest : List SpoolRec) (base size : Nat) (s : State),
  s.sl[n].stage = r :: rest → s.regionOf 2 n = some (base, size) → Rested s → s.drc.waiting = [] →
  let depth := (s.rd (fSlSpwr_COUNT n) + 2 ^ 32 - s.rd (fSlSprd_COUNT n)) % 2 ^ 32
  let at_ := base + 32 * (s.rd (fSlSpwr_COUNT n) % (size / 32))
  Runs (.spoolDrain n) s fun t => ∃ w, Sampled s w ∧
    if depth = size / 32 ∧ s.rd (fSlSpcfg_POLICY n) ≠ 2 ∨ s.stackUp (stackOf at_) = false then t = w
    else t.rd (fSlSpwr_COUNT n) = (s.rd (fSlSpwr_COUNT n) + 1) % 2 ^ 32 ∧
      (depth ≠ size / 32 → t.rd (fSlSprd_COUNT n) = s.rd (fSlSprd_COUNT n) ∧ t.rd (fSlSpstat_OVWR n) = s.rd (fSlSpstat_OVWR n)) ∧
      (depth = size / 32 → t.rd (fSlSprd_COUNT n) = (s.rd (fSlSprd_COUNT n) + 1) % 2 ^ 32 ∧ t.rd (fSlSpstat_OVWR n) = 1) ∧
      t.num at_ 8 = r.vec % 2 ^ 64 ∧ t.num (at_ + 8) 4 = r.off % 2 ^ 32 ∧ t.num (at_ + 12) 4 = r.segts.toNat ∧
      t.num (at_ + 16) 4 = r.fail.toNat ∧ t.num (at_ + 20) 4 = r.flags.toNat ∧ t.num (at_ + 24) 4 = r.seq.toNat ∧
      t.num (at_ + 28) 4 = r.id.toNat ∧ BytesApart s t at_ 32 ∧
      OnlyFlds w t [fSlSpwr_COUNT n, fSlSprd_COUNT n, fSlSpstat_OVWR n] ∧
      t = { w.modSl n fun x => { x with stage := rest } with
        regs := t.regs, mem := t.mem, drc := { w.drc with written := t.drc.written } }

/-- A request of a port for bytes that older requests of the port wait for stays behind them (R366): the drain stores nothing. -/
def spoolDrainBehind : Prop := ∀ (n : Fin 8) (o : HbmReq) (base size : Nat) (s : State),
  s.regionOf 2 n = some (base, size) → s.drc.waiting = [o] → o.who = .spool n → s.stackUp (stackOf o.addr) = false →
  overlaps o.addr o.len (base + 32 * (s.rd (fSlSpwr_COUNT n) % (size / 32))) 32 = true →
  Runs (.spoolDrain n) s fun t => ∃ w, Sampled s w ∧ t = w

/-- SPRD_WRITE (R304): accepted from SPRD up to SPWR, else RDERR. -/
def sprdWrite : Prop := ∀ (ini : Initiator) (n : Fin 8) (v : Word) (s : State), Reaches s ini .slSprd [n] →
  Runs (.sprdWrite ini n v) s fun t =>
    let wr := s.rd (fSlSpwr_COUNT n)
    (if (wr + 2 ^ 32 - v.toNat) % 2 ^ 32 ≤ (wr + 2 ^ 32 - s.rd (fSlSprd_COUNT n)) % 2 ^ 32 then
        t.rd (fSlSprd_COUNT n) = v.toNat ∧ OnlyFlds s t [fSlSprd_COUNT n]
      else t.rd (fSlSpstat_RDERR n) = 1 ∧ OnlyFlds s t [fSlSpstat_RDERR n]) ∧ t = { s with regs := t.regs }

/-- DISCARD (R307): in ENDING the records of the stage go and are counted; else nothing happens. -/
def discard : Prop := ∀ (ini : Initiator) (n : Fin 8) (v : Word) (s : State), Reaches s ini .slSpcmd [n] → v.getLsbD 0 = false →
  Runs (.discard ini n v) s fun t =>
    if s.sl[n].st = .ending then
      t.rd (fSlSpdrop_COUNT n) = min (s.rd (fSlSpdrop_COUNT n) + s.sl[n].stage.length) 0xFFFFFFFF ∧
      OnlyFlds s t [fSlSpdrop_COUNT n] ∧ t = { s.modSl n fun x => { x with stage := [] } with regs := t.regs }
    else t = s

/-- CNTCLR (R295): the counters and FCSAT are 0; refused while the slice is not IDLE. -/
def cntclr : Prop := ∀ (ini : Initiator) (n : Fin 8) (v : Word) (s : State), Reaches s ini .slSpcmd [n] → v.getLsbD 1 = false →
  Runs (.cntclr ini n v) s fun t =>
    if s.sl[n].isIdle = false then Flagged s t ini .busy (aSlSpcmd n)
    else (∀ k : Fin 32, t.rd (fSlFailcnt_COUNT n k) = 0) ∧ t.rd (fSlFcsat_LANES n) = 0 ∧
      OnlyFlds s t ((List.range 33).map fun k => wordFld (aSlFailcnt n 0 + 4 * k)) ∧ t = { s with regs := t.regs }

/-- The latches of a gang after a write of v (R297): the named slots, in every member that fills them, take the value. -/
abbrev Latched (s t : State) (n : Fin 8) (v : Word) (fail : Nat) : Prop :=
  (∀ m ∈ s.gang n, ∀ j : Fin 32, t.rd ⟨aSlSitelat m, j, 1⟩ =
    if v.getLsbD j ∧ s.sl[m].mapSlot[j].isSome = true then fail else s.rd ⟨aSlSitelat m, j, 1⟩) ∧
  OnlyFlds s t ((s.gang n).map fun (m : Fin 8) => wordFld (aSlSitelat m)) ∧ t = { s with regs := t.regs }

/-- SITELAT_WRITE sets latches to pass, SITESET_WRITE to fail (R297); refused while a member is not IDLE. -/
def sitelatWrite : Prop := ∀ (ini : Initiator) (n : Fin 8) (v : Word) (s : State), Reaches s ini .slSitelat [n] →
  Runs (.sitelatWrite ini n v) s fun t =>
    if ∃ m ∈ s.gang n, s.sl[m].isIdle = false then Flagged s t ini .busy (aSlSitelat n) else Latched s t n v 0
def sitesetWrite : Prop := ∀ (ini : Initiator) (n : Fin 8) (v : Word) (s : State), Reaches s ini .slSiteset [n] →
  Runs (.sitesetWrite ini n v) s fun t =>
    if ∃ m ∈ s.gang n, s.sl[m].isIdle = false then Flagged s t ini .busy (aSlSiteset n) else Latched s t n v 1

/-- The VOH code of threshold row l (R311). -/
abbrev vohCode (s : State) (n : Fin 8) (l : Nat) : Int :=
  (s.rd (fSlScplev_VSTART n) : Int) + (l : Int) * signed (s.rd (fSlScplev_VSTEP n)) 16

/-- The lane under the scope. -/
abbrev lane (s : State) (n : Fin 8) : Fin 32 := Fin.ofNat 32 (s.rd (fSlScpcfg_LANE n))

/-- SCOPE_ARM (R310): BUSY while the slice is not IDLE or under full capture, RSVD for a row, time or code out of range; else the
acquisition begins at row 0 with its VOH on the way; ARM while it is armed begins anew (log entry 68, the model's choice). -/
def scopeArm : Prop := ∀ (ini : Initiator) (n : Fin 8) (v : Word) (s : State), Reaches s ini .slScpcmd [n] →
  v.getLsbD 1 = false →
  Runs (.scopeArm ini n v) s fun t =>
    if s.sl[n].isIdle = false ∨ s.rd (fSlBurst_CAPTURE n) = 1 then Flagged s t ini .busy (aSlScpcmd n)
    else if s.rd (fSlScpcfg_NLEV n) ≤ s.rd (fSlScpcfg_TRIGROW n) ∨
        2 ^ 24 ≤ s.rd (fSlScptime_TSTART n) + (s.rd (fSlScppts_NPTS n) - 1) * s.rd (fSlScppts_STEP n) ∨
        (∃ l < s.rd (fSlScpcfg_NLEV n), vohCode s n l < 0 ∨ 65535 < vohCode s n l) then Flagged s t ini .rsvd (aSlScpcmd n)
    else t.reg (aSlScptrig n) = 0 ∧ t.rd (fSlScpstat_FORCED n) = 0 ∧
      OnlyFlds s t [wordFld (aSlScptrig n), fSlScpstat_FORCED n] ∧
      t = { s.modSl n fun x => { x with
        scope := ⟨.settle, 0, 0, 0, 0, none, false, s.rd (fSlLevel_CODE n (lane s n) 2), [], 0, 0⟩
        dacPipe := x.dacPipe ++ [(3, .scopeVoh (lane s n) (vohCode s n 0).toNat)] } with regs := t.regs }

/-- SCOPE_CANCEL (R316): the acquisition ends, VOH returns to its code at ARM, and the lane's strobes give results again from the
next vector. -/
def scopeCancel : Prop := ∀ (ini : Initiator) (n : Fin 8) (v : Word) (s : State), Reaches s ini .slScpcmd [n] →
  v.getLsbD 0 = false →
  Runs (.scopeCancel ini n v) s fun t =>
    if s.sl[n].scope.armed = true then t = s.modSl n fun x => { x with
      scope := { x.scope with
        st := .cancelled, trig := none, resume := x.seq.before (s.now + 1), muted := s.rd (fSlScpcfg_LANE n) }
      dacPipe := x.dacPipe ++ [(3, .scopeVoh (lane s n) x.scope.savedVoh)] }
    else t = s

/-- SCOPE_SETTLED (R312): the row's level has settled, and the engine samples. -/
def scopeSettled : Prop := ∀ (n : Fin 8) (s : State), s.sl[n].scope.st = .settle →
  Runs (.scopeSettled n) s fun t => t = s.modSl n fun x => { x with scope := { x.scope with st := .sampling } }

/-- The sample instant of a trigger at an instant (R313): TSTART plus the point's steps, PINADJ and the comparator deskew, to
the nearest tap. -/
abbrev sampleAt (s : State) (n : Fin 8) (tr : Int) : Int :=
  roundTap (tr + ((s.rd (fSlScptime_TSTART n) + s.sl[n].scope.point * s.rd (fSlScppts_STEP n) : Nat) +
    signed (s.rd (fSlPinadj_ADJ n (lane s n))) 12 + signed (s.rd (fSlDeskew_CMP n (lane s n))) 8) * 2 ^ 24)

/-- SCOPE_TRIGGER (R313): a play, in a burst of the slice, of the SCPREF vector while sampling and no sample is outstanding. -/
def scopeTrigger : Prop := ∀ (n : Fin 8) (vec : Nat) (p : Played) (s : State), s.sl[n].find vec = some p →
  Runs (.scopeTrigger n vec) s fun t =>
    if p.seg = s.rd (fSlScpref_SEG n) ∧ p.off = s.rd (fSlScpref_OFFSET n) ∧ s.sl[n].scope.st = .sampling ∧ s.sl[n].scope.trig = none ∧
      (s.sl[n].st = .running ∨ s.sl[n].st = .ending ∧ s.sl[n].parked = false)
    then t = s.modSl n fun x => { x with scope := { x.scope with trig := some (sampleAt s n p.sched), forced := false } }
    else t = s

/-- SCOPE_FORCED_TRIGGER (R314): with AUTO, at the next TROOT boundary, counted. -/
def scopeForcedTrigger : Prop := ∀ (n : Fin 8) (s : State), s.rd (fSlScpcfg_AUTO n) = 1 → s.sl[n].scope.st = .sampling →
  s.sl[n].scope.trig = none →
  Runs (.scopeForcedTrigger n) s fun t =>
    t.rd (fSlScpstat_FORCED n) = min (s.rd (fSlScpstat_FORCED n) + 1) (2 ^ (fSlScpstat_FORCED n).w - 1) ∧
    OnlyFlds s t [fSlScpstat_FORCED n] ∧
    t = { s.modSl n fun x => { x with scope := { x.scope with
      trig := some (sampleAt s n (((s.time.tick.toNat + 1) * 2 ^ 32 : Nat) : Int)), forced := true } } with regs := t.regs }

/-- SCOPE_SAMPLE (R312, R313): hits are counted; after the last hit the count is stored at its place, or waits while its stack serves
nothing, and the next point, the next row with its VOH, or the end follows. The engine keeps the counts of row TRIGROW (log entry 68). -/
def scopeSample : Prop := ∀ (n : Fin 8) (above : Bool) (base size : Nat) (s : State), s.sl[n].scope.st = .sampling →
  s.sl[n].scope.trig.isSome = true → s.regionOf 2 n = some (base, size) → Rested s → s.drc.waiting = [] →
  Runs (.scopeSample n above) s fun t => ∃ w, Sampled s w ∧
    let c := s.sl[n].scope
    let count := c.count + b2n above
    let np := s.rd (fSlScppts_NPTS n)
    let at_ := base + 2 * (c.row * np + c.point)
    let kept := if c.row = s.rd (fSlScpcfg_TRIGROW n) then c.counts ++ [count] else c.counts
    if c.hit + 1 < s.rd (fSlScphits_HITS n) then
      t = w.modSl n fun x => { x with scope := { c with hit := c.hit + 1, count := count, trig := none } }
    else (base < 0xC00000000 → if s.stackUp (stackOf at_) = true then t.num at_ 2 = count % 65536 ∧ BytesApart s t at_ 2 ∧
          t.drc = { w.drc with written := t.drc.written }
        else t.mem = w.mem ∧ t.drc = { w.drc with
          waiting := [⟨.spool n, at_, 2, some (leBytes 2 count), none, s.clock, true, true⟩] }) ∧
      t = { w.modSl n fun x => { x with scope := t.sl[n].scope, dacPipe := t.sl[n].dacPipe } with
        regs := t.regs, mem := t.mem, drc := t.drc } ∧
      if c.point + 1 < np then t.regs = w.regs ∧ t.sl[n].dacPipe = s.sl[n].dacPipe ∧
        t.sl[n].scope = { c with point := c.point + 1, hit := 0, count := 0, trig := none, counts := kept }
      else if c.row + 1 < s.rd (fSlScpcfg_NLEV n) then t.regs = w.regs ∧
        t.sl[n].scope = { c with
          st := .settle, row := c.row + 1, point := 0, hit := 0, count := 0, trig := none, counts := kept } ∧
        t.sl[n].dacPipe = s.sl[n].dacPipe ++ [(3, .scopeVoh (lane s n) (vohCode s n (c.row + 1)).toNat)]
      else t.sl[n].scope = { c with
          st := .done, hit := 0, count := 0, trig := none, counts := kept
          resume := s.sl[n].seq.before (s.now + 1), muted := s.rd (fSlScpcfg_LANE n) } ∧
        t.sl[n].dacPipe = s.sl[n].dacPipe ++ [(3, .scopeVoh (lane s n) c.savedVoh)] ∧
        (t.rd (fSlScptrig_VALID n) = 1 ∨ t.rd (fSlScptrig_NOCROSS n) = 1) ∧
        OnlyFlds w t [fSlScptrig_POINT n, fSlScptrig_VALID n, fSlScptrig_NOCROSS n]

/-- A count with no SPOOL region in force (R95, R312): the write is refused in the copy of the slice's owner, memory stays. -/
def scopeSampleRefused : Prop := ∀ (n : Fin 8) (above : Bool) (s : State), s.sl[n].scope.st = .sampling →
  s.sl[n].scope.trig.isSome = true → s.rd (fSlScphits_HITS n) ≤ s.sl[n].scope.hit + 1 → s.regionOf 2 n = none →
  Runs (.scopeSample n above) s fun t => t.mem = s.mem ∧ t.rd ⟨aAccerrx (s.ownerSl n), AccBit.hbm.pos, 1⟩ = 1

/-- A strobe of the scope's lane gives no result while the engine is armed, nor does one of a vector that began before the acquisition
ended, whatever lane is named since (R311, R316); nor does it count (log entry 68, the model's choice). -/
def strobeMuted : Prop := ∀ (n : Fin 8) (lane : Fin 32) (vec : Nat) (unit : Fin 2) (obs : BallObs) (s : State),
  (if s.sl[n].scope.st = .settle ∨ s.sl[n].scope.st = .sampling then s.rd (fSlScpcfg_LANE n) = lane
    else s.sl[n].scope.muted = lane ∧ vec < s.sl[n].scope.resume) →
  Runs (.strobe n lane vec unit obs) s fun t => t = s

/-! ## SCAN units (spec/09) -/

/-- Urgency and panic of a unit's port by its lead (R345). -/
abbrev Marked (t : State) (u : Fin 4) : Prop :=
  t.scan[u].urgent = t.leadBelow u (t.rd (fScWmark_URG u)) ∧ t.scan[u].panic = t.leadBelow u (t.rd (fScWmark_PANIC u))

/-- CTRL as SCAN_ENABLE writes it, but for EN (R347). -/
abbrev ctrlWritten (s : State) (ini : Initiator) (u : Fin 4) (v : Word) : State :=
  s.writeSome ini .scCtrl [u] .lo ((v ||| 0x80000000).setWidth 64) fun f => f.lo != 31

/-- A refused request of a unit (R348). -/
abbrev ScanRefused (s t : State) (u : Fin 4) (why value : Nat) : Prop :=
  t.rd (fScAdmit_REASON u) = why ∧ t.rd (fScAdmit_REFUSED u) = 1 ∧ t.rd (fScAdmitd_VALUE u) = value % 2 ^ (fScAdmitd_VALUE u).w ∧
  OnlyFlds s t [fScAdmit_REASON u, fScAdmit_REFUSED u, fScAdmitd_VALUE u]

/-- SCAN_ENABLE (R347, R348): the checks in their order, the first that fails gives the reason; else the unit waits with its
shadows in force and the fetch of line 0 begun. While the unit is not ready the write is dropped, and the request refused. -/
def scanEnable : Prop := ∀ (ini : Initiator) (u : Fin 4) (v : Word) (s : State), Reaches s ini .scCtrl [u] →
  s.scan[u].enabled = false →
  Runs (.scanEnable ini u v) s fun t =>
    let w := ctrlWritten s ini u v
    let f := w.shadows u
    let unready := s.regionOf 3 u = none
    let busy := (w.attached u).find? fun (n : Fin 8) => !s.sl[n].isIdle
    let clash := w.laneClash u
    let same := w.rd (fScCtrl_SLB u) = w.rd (fScCtrl_SLA u)
    let fits := w.scanFits u f
    let resv := w.rd (fScResv_BW u)
    let late := w.rd (fScCtrl_SMODE u) = 1 ∧
      w.rd (fScTstart_TICK u) * resv < (s.time.tick.toNat + 25600) * resv + w.maxLineBytes u f * 1280
    if s.isReady (.scan u) = false then t.rd (fScAdmit_REASON u) = 1 ∧ t.rd (fScAdmit_REFUSED u) = 1 ∧ t.rd (fScAdmitd_VALUE u) = 0 ∧
      t.rd ⟨aAccerrx (copyOf ini), AccBit.notready.pos, 1⟩ = 1 ∧
      OnlyFlds s t ([fScAdmit_REASON u, fScAdmit_REFUSED u, fScAdmitd_VALUE u] ++ accFlds (copyOf ini)) ∧ t = { s with regs := t.regs }
    else
    (unready → ScanRefused w t u 1 0) ∧
    (¬ unready → ∀ n, busy = some n → ScanRefused w t u 2 n) ∧
    (¬ unready → busy = none → ∀ j, clash = some j → ScanRefused w t u 3 j) ∧
    (¬ unready → busy = none → clash = none → same → t.rd (fScAdmit_REASON u) = 3 ∧ t.rd (fScAdmit_REFUSED u) = 1 ∧
      t.rd (fScAdmitd_VALUE u) < 64) ∧
    (¬ unready → busy = none → clash = none → ¬ same → ∀ e, fits = some e → ScanRefused w t u e.1 e.2) ∧
    (¬ unready → busy = none → clash = none → ¬ same → fits = none → late → ScanRefused w t u 8 0) ∧
    (if ¬ unready ∧ busy = none ∧ clash = none ∧ ¬ same ∧ fits = none ∧ ¬ late then t.rd (fScCtrl_EN u) = 1 ∧
        t.scan[u] = { Scan.reset with
          st := .wait, live := f, frameLive := f, showOvl := fOvlMode f == 1, fetch := [0], commit := s.scan[u].commit
          base := s.scan[u].base, ovl := s.scan[u].ovl, urgent := t.scan[u].urgent, panic := t.scan[u].panic } ∧ Marked t u ∧
        OnlyFlds w t [fScCtrl_EN u, fPrBistRinseres_RESULT, fPrBistRinseres_COVERAGE] ∧
        t = { w with regs := t.regs, scan := w.scan.set u t.scan[u], bist := { s.bist with rinse := t.bist.rinse } }
      else t = { w with regs := t.regs, free := t.free })

/-- What an accepted unit's registers meet (R347): the raster and its blanking, the pixel, the line within 16 KiB, the layers
within the FRAME region and the bandwidth of a line. -/
def scanFitsMeans : Prop := ∀ (u : Fin 4) (f : Vector Word 8) (s : State), s.scanFits u f = none →
  let ht := s.rd (fScHtim_HTOTAL u); let ha := s.rd (fScHtim_HACT u); let hs := s.rd (fScHsync_HSS u)
  let vt := s.rd (fScVtim_VTOTAL u); let va := s.rd (fScVtim_VACT u); let vs := s.rd (fScVsync_VSS u)
  let pb := s.pixelBytes u
  let size := (s.regionOf 3 u).elim 0 fun r => r.2
  1 ≤ ha ∧ ha ≤ hs ∧ 1 ≤ s.rd (fScHsync_HSW u) ∧ hs + s.rd (fScHsync_HSW u) ≤ ht ∧
  1 ≤ va ∧ va ≤ vs ∧ 1 ≤ s.rd (fScVsync_VSW u) ∧ vs + s.rd (fScVsync_VSW u) + 1 ≤ vt ∧ va + 2 ≤ vt ∧
  (fStretch f = true → vt ≤ fVmax f) ∧ s.dataBelow u 64 * s.slotBits u % 8 = 0 ∧
  (ha + if fOvlMode f = 0 then 0 else fOvlW f) * pb ≤ 16384 ∧
  fBaseOff f + fBaseStride f * (va - 1) + ha * pb ≤ size ∧
  (fOvlMode f ≠ 0 → 1 ≤ fOvlW f ∧ 1 ≤ fOvlH f ∧ fOvlX f + fOvlW f ≤ ha ∧ fOvlY f + fOvlH f ≤ va ∧
    fOvlOff f + fOvlStride f * (fOvlH f - 1) + fOvlW f * pb ≤ size) ∧
  s.lineNeed u (s.maxLineBytes u f) ≤ s.rd (fScResv_BW u)

/-- SCAN_DISABLE (R352): refused with BUSY while an attached slice is not IDLE; else the raster stops at once and EN is 0. -/
def scanDisable : Prop := ∀ (ini : Initiator) (u : Fin 4) (v : Word) (s : State), Reaches s ini .scCtrl [u] →
  s.isReady (.scan u) = true → s.scan[u].enabled = true →
  Runs (.scanDisable ini u v) s fun t =>
    let same := bitsOf v.toNat 0 31 = bitsOf (s.reg (aScCtrl u)).toNat 0 31
    if ∃ n ∈ s.attached u, s.sl[n].isIdle = false then Flagged s t ini .busy (aScCtrl u)
    else t.rd (fScCtrl_EN u) = 0 ∧ t.scan[u] = Scan.reset ∧
      OnlyFlds s t (fScCtrl_EN u :: if same then [] else accFlds (copyOf ini)) ∧
      (¬ same → t.rd ⟨aAccerrx (copyOf ini), AccBit.busy.pos, 1⟩ = 1) ∧
      t = { s with regs := t.regs, scan := s.scan.set u Scan.reset }

/-- A write of CMD (R351): the requests wait; a COMMIT that comes too late for this frame sets LATE. -/
abbrev Requested (s t : State) (u : Fin 4) (v : Word) : Prop :=
  let c := s.scan[u]
  let late := v.getLsbD 0 = true ∧ c.commit = false ∧ c.st = .run ∧ s.rd (fScVtim_VACT u) ≤ c.line ∧
    (c.lastLine = true ∨ s.rd (fScCtrl_COMPAT u) = 1)
  (if late then t.rd (fScStat_LATE u) = 1 ∧ t.rd (fScCnt_LATE u) = min (s.rd (fScCnt_LATE u) + 1) (2 ^ (fScCnt_LATE u).w - 1)
      else t.regs = s.regs) ∧ OnlyFlds s t [fScStat_LATE u, fScCnt_LATE u] ∧
    t = { s.modScan u fun c => { c with
      commit := c.commit || v.getLsbD 0, base := c.base || v.getLsbD 1, ovl := c.ovl || v.getLsbD 2 } with regs := t.regs }

/-- SCAN_COMMIT, SCAN_BASERDY and SCAN_OVLRDY (R351): the request waits for its line, and nothing else changes. -/
def scanCommit : Prop := ∀ (ini : Initiator) (u : Fin 4) (v : Word) (s : State), Reaches s ini .scCmd [u] →
  Runs (.scanCommit ini u v) s fun t => Requested s t u (v ||| 1)
def scanBaserdy : Prop := ∀ (ini : Initiator) (u : Fin 4) (v : Word) (s : State), Reaches s ini .scCmd [u] →
  Runs (.scanBaserdy ini u v) s fun t => Requested s t u (v ||| 2)
def scanOvlrdy : Prop := ∀ (ini : Initiator) (u : Fin 4) (v : Word) (s : State), Reaches s ini .scCmd [u] →
  Runs (.scanOvlrdy ini u v) s fun t => Requested s t u (v ||| 4)

/-- SCAN_LINE_FETCHED (R344, R349): the line's data enter the buffer; without an overlay they are the base layer's line. Line 0
makes a waiting unit PRIMED. -/
def scanLineFetched : Prop := ∀ (u : Fin 4) (y base size : Nat) (rest : List Nat) (s : State), s.scan[u].fetch = y :: rest →
  s.regionOf 3 u = some (base, size) → Rested s → s.drc.waiting = [] →
  Runs (.scanLineFetched u) s fun t => ∃ w, Sampled s w ∧
    let c := s.scan[u]
    let f := if y = 0 then c.live else c.frameLive
    let row := s.bytes (base + fBaseOff f + fBaseStride f * y) (s.rd (fScHtim_HACT u) * s.pixelBytes u)
    (c.showOvl = false → t.scan[u].lines = c.lines ++ [(y, row)]) ∧
    t.scan[u].lines.length = c.lines.length + 1 ∧ t.scan[u].fetch = rest ∧ Marked t u ∧
    t.scan[u].st = (if c.st = .wait ∧ y = 0 then .primed else c.st) ∧
    t.scan[u].primedAt = (if c.st = .wait ∧ y = 0 then s.time.tick.toNat else c.primedAt) ∧
    t = w.modScan u fun c => { c with
      fetch := t.scan[u].fetch, lines := t.scan[u].lines, st := t.scan[u].st, primedAt := t.scan[u].primedAt
      urgent := t.scan[u].urgent, panic := t.scan[u].panic }

/-- The line whose fetch begins at the start of line y (R344, R349). -/
abbrev nextFetch (s : State) (u : Fin 4) (y : Nat) : List Nat := if y + 1 < s.rd (fScVtim_VACT u) then [y + 1] else []

/-- SCAN_RASTER_START (R338): at TSTART, or at T0 of the first burst on SLA after PRIMED, the unit runs from line 0 and FRAMES
counts from 0. -/
def scanRasterStart : Prop := ∀ (u : Fin 4) (o : Nat) (s : State), s.scan[u].st = .primed →
  (if s.rd (fScCtrl_SMODE u) = 1 then o = s.rd (fScTstart_TICK u)
    else ∃ n : Fin 8, s.rd (fScCtrl_SLA u) = n ∧ s.sl[n].st = .running ∧ s.scan[u].primedAt < s.sl[n].t0 ∧ o = s.sl[n].t0) →
  Runs (.scanRasterStart u) s fun t => t.rd (fScFrames_COUNT u) = 0 ∧ Marked t u ∧ OnlyFlds s t [wordFld (aScFrames u)] ∧
    t = { s.modScan u fun c => { c with
      st := .run, origin := o, lineStart := o, line := 0, frameLive := c.live, fetch := c.fetch ++ nextFetch s u 0
      urgent := t.scan[u].urgent, panic := t.scan[u].panic } with regs := t.regs }

/-- The place of the raster one line on: the buffer of the line that ended is free (R338, R349). -/
abbrev lineOn (s : State) (u : Fin 4) (c : Scan) : Scan :=
  { c with
    lineStart := c.lineStart + s.rd (fScHtim_HTOTAL u) * s.rd (fScCtrl_PPER u), lastLine := false
    lines := c.lines.filter fun e => e.1 != c.line, line := c.line + 1 }

/-- SCAN_LINE_START of an active line (R338, R349): the fetch of the next line begins. -/
def scanLineStart : Prop := ∀ (u : Fin 4) (s : State), s.scan[u].st = .run → s.scan[u].lastLine = false →
  s.scan[u].line + 1 < s.rd (fScVtim_VACT u) →
  Runs (.scanLineStart u) s fun t => Marked t u ∧
    t = s.modScan u fun c => { lineOn s u c with
      fetch := c.fetch ++ nextFetch s u (c.line + 1), urgent := t.scan[u].urgent, panic := t.scan[u].panic }

/-- SCAN_LINE_START after F (R340): the frame is complete, FLEN and FRAMES show it, and the next frame begins with what is in
force. -/
def scanFrameEnd : Prop := ∀ (u : Fin 4) (s : State), s.scan[u].st = .run → s.scan[u].lastLine = true →
  0 < s.rd (fScVtim_VACT u) →
  Runs (.scanLineStart u) s fun t =>
    t.rd (fScFlen_LINES u) = (s.scan[u].line + 1) % 2 ^ (fScFlen_LINES u).w ∧
    t.rd (fScFrames_COUNT u) = (s.rd (fScFrames_COUNT u) + 1) % 2 ^ 32 ∧ OnlyFlds s t [fScFlen_LINES u, fScFrames_COUNT u] ∧
    Marked t u ∧ t = { s.modScan u fun c => { lineOn s u c with
      line := 0, frameLive := c.live, fetch := c.fetch ++ nextFetch s u 0, urgent := t.scan[u].urgent, panic := t.scan[u].panic } with regs := t.regs }

/-- Whether line y is F (R340, R341). -/
abbrev IsF (s : State) (u : Fin 4) (y : Nat) (newContent : Bool) : Prop :=
  let f := s.scan[u].frameLive
  s.rd (fScVtim_VTOTAL u) - 1 ≤ y ∧ (fStretch f = true → newContent = true ∨ fVmax f - 1 ≤ y)

/-- SCAN_LINE_START of a blanking line with no request (R341): the line before F, or an inserted one, changes nothing more; F
decides the overlay of the next frame and begins the fetch of its line 0. -/
def scanFetchPoint : Prop := ∀ (u : Fin 4) (s : State), s.scan[u].st = .run → s.scan[u].lastLine = false →
  s.rd (fScVtim_VACT u) ≤ s.scan[u].line + 1 → s.scan[u].commit = false → s.scan[u].base = false → s.scan[u].ovl = false →
  Runs (.scanLineStart u) s fun t =>
    let c := s.scan[u]
    let mode := fOvlMode c.live
    let miss := mode = 2 ∧ c.ovlTaken = false
    if IsF s u (c.line + 1) c.newContent then
      (if miss then t.rd (fScStat_OVLMISSED u) = 1 ∧ t.rd (fScCnt_MISS u) = min (s.rd (fScCnt_MISS u) + 1) (2 ^ (fScCnt_MISS u).w - 1)
        else t.regs = s.regs) ∧
      OnlyFlds s t [fScStat_OVLMISSED u, fScCnt_MISS u] ∧
      t = { s.modScan u fun c => { lineOn s u c with
        lastLine := true, newContent := false, ovlTaken := false, fetch := c.fetch ++ [0]
        showOvl := mode == 1 || (mode == 2 && (c.ovlTaken || (!fOvlMiss c.live && c.ovlEver)))
        urgent := t.scan[u].urgent, panic := t.scan[u].panic } with regs := t.regs } ∧ Marked t u
    else t = (s.modScan u fun c => { lineOn s u c with urgent := t.scan[u].urgent, panic := t.scan[u].panic }) ∧ Marked t u

/-- The frame registers that the requests taken put in force (R351). -/
abbrev takenRegs (s : State) (u : Fin 4) (commit : Bool) : Vector Word 8 :=
  Vector.ofFn fun i : Fin 8 =>
    if commit ∨ (s.scan[u].base = true ∧ (i = 2 ∨ i = 3)) ∨ (s.scan[u].ovl = true ∧ (i = 4 ∨ i = 5)) then (s.shadows u)[i]
    else s.scan[u].live[i]

/-- SCAN_LINE_START with requests (R350, R351): at a blanking line that is not F the requests are taken together, a COMMIT in
COMPAT mode only at line VACT; what they put in force is checked, and refused as a whole where it does not fit. -/
def scanRequests : Prop := ∀ (u : Fin 4) (s : State), s.scan[u].st = .run → s.scan[u].lastLine = false →
  s.rd (fScVtim_VACT u) ≤ s.scan[u].line + 1 → ¬ IsF s u (s.scan[u].line + 1) true →
  (s.scan[u].base = true ∨ s.scan[u].ovl = true ∨
    (s.scan[u].commit = true ∧ (s.rd (fScCtrl_COMPAT u) = 0 ∨ s.scan[u].line + 1 = s.rd (fScVtim_VACT u)))) →
  Runs (.scanLineStart u) s fun t =>
    let c := s.scan[u]
    let commit := c.commit && (decide (s.rd (fScCtrl_COMPAT u) = 0) || decide (c.line + 1 = s.rd (fScVtim_VACT u)))
    let f := takenRegs s u commit
    let rest : Scan → Scan := fun c => { lineOn s u c with
      commit := c.commit && !commit, base := false, ovl := false, urgent := t.scan[u].urgent, panic := t.scan[u].panic }
    Marked t u ∧
    (∀ e, s.scanFits u f = some e → ScanRefused s t u e.1 e.2 ∧ t = { s.modScan u rest with regs := t.regs }) ∧
    (s.scanFits u f = none → t = s.modScan u fun c => { rest c with
      live := f, newContent := true, ovlTaken := c.ovlTaken || c.ovl, ovlEver := c.ovlEver || c.ovl })

/-- SCAN_LINE_START at F with requests that fit (R341, R351): they are in force for the next frame, whose overlay they decide. -/
def scanRequestsAtF : Prop := ∀ (u : Fin 4) (s : State), s.scan[u].st = .run → s.scan[u].lastLine = false →
  s.rd (fScVtim_VACT u) ≤ s.scan[u].line + 1 → IsF s u (s.scan[u].line + 1) true →
  (s.scan[u].base = true ∨ s.scan[u].ovl = true ∨
    (s.scan[u].commit = true ∧ (s.rd (fScCtrl_COMPAT u) = 0 ∨ s.scan[u].line + 1 = s.rd (fScVtim_VACT u)))) →
  Runs (.scanLineStart u) s fun t =>
    let c := s.scan[u]
    let commit := c.commit && (decide (s.rd (fScCtrl_COMPAT u) = 0) || decide (c.line + 1 = s.rd (fScVtim_VACT u)))
    let f := takenRegs s u commit
    let new := c.ovlTaken || c.ovl
    s.scanFits u f = none →
      t.rd (fScCnt_MISS u) = (if fOvlMode f = 2 ∧ new = false then min (s.rd (fScCnt_MISS u) + 1) (2 ^ (fScCnt_MISS u).w - 1)
        else s.rd (fScCnt_MISS u)) ∧
      OnlyFlds s t [fScStat_OVLMISSED u, fScCnt_MISS u] ∧
      t = { s.modScan u fun c => { lineOn s u c with
        commit := c.commit && !commit, base := false, ovl := false, live := f, lastLine := true, newContent := false
        ovlTaken := false, ovlEver := c.ovlEver || c.ovl, fetch := c.fetch ++ [0]
        showOvl := fOvlMode f == 1 || (fOvlMode f == 2 && (new || (!fOvlMiss f && (c.ovlEver || c.ovl))))
        urgent := t.scan[u].urgent, panic := t.scan[u].panic } with regs := t.regs } ∧ Marked t u

/-- SCAN_UNDERRUN (R346): the unit is in FAULT with UNDERRUN set and escalates no more; a running burst of an attached slice
ends at once as contained. -/
def scanUnderrun : Prop := ∀ (u : Fin 4) (s : State), s.scan[u].enabled = true → s.scan[u].st ≠ .fault →
  Runs (.scanUnderrun u) s fun t =>
    let hit := (s.attached u).filter fun (n : Fin 8) => s.sl[n].st == .running
    t.rd (fScStat_UNDERRUN u) = 1 ∧
    t.scan = s.scan.set u { s.scan[u] with st := .fault, urgent := false, panic := false, fetch := [], lines := [] } ∧
    (∀ n ∈ hit, t.sl[n].st ≠ .running ∧ PinsSafe t.sl[n] ∧ t.rd (fSlAdmit_CAUSE n) = Cause.contained.code) ∧
    (∀ m : Fin 8, (∀ n ∈ hit, m ∉ s.burstOf n) → t.sl[m] = { s.sl[m] with chk := t.sl[m].chk }) ∧
    OnlyFlds s t (fScStat_UNDERRUN u :: reportFlds (Config.sourceOf (.scan u)) ++ rejectFlds ++
      hit.flatMap fun (n : Fin 8) => (s.burstOf n).flatMap stopFlds) ∧
    t = { s with
      regs := t.regs, sl := t.sl, scan := t.scan, press := t.press, hamper := t.hamper, free := t.free, out := t.out }

/-! ## The pattern memory controller (spec/10) -/

/-- SCAN_LEAD_WATERMARK (R345): the unit's port is marked by its lead, and the schedulers sample panic. -/
def scanLeadWatermark : Prop := ∀ (u : Fin 4) (urgent panic : Bool) (s : State),
  Runs (.scanLeadWatermark u urgent panic) s fun t => Sampled (s.modScan u fun c => { c with
    urgent := s.leadBelow u (s.rd (fScWmark_URG u)), panic := s.leadBelow u (s.rd (fScWmark_PANIC u)) }) t

/-- PANIC_LONG (R370): the panic is sampled; a period above 100 µs sets LONG and is reported once. -/
def panicLong : Prop := ∀ (s : State), Runs .panicLong s fun t => Sampled s t

/-- The tables of a stack at the start of a refresh window (R374). -/
abbrev windowBegins (s : State) (k : Fin 2) : Prop :=
  (if s.drc.hot[k] then 16 * 12800000 else 32 * 12800000) ≤ s.clock - s.drc.window[k]

/-- REFRESH_DUE (R365, R369, R371, R372): after the sample it is issued with all that is owed where no port panics, which closes the
rows of the pseudo-channel; else one more is owed, MAXOWED shows the most, and at 8 a forced burst begins with its first
refresh. A stack in self-refresh owes nothing. -/
def refreshDue : Prop := ∀ (pc : Fin 64) (s : State), s.drc.waiting = [] →
  Runs (.refreshDue pc) s fun t => ∃ w, Sampled s w ∧
    let k := stackOfPc pc
    let owed := min (w.drc.owed[pc] + 1) 8
    let closed := w.drc.openRows.filter fun e => e.1 != pc
    (windowBegins w k → t.drc.window = w.drc.window.set k w.clock ∧
      ∀ b, b ∈ t.drc.banks ↔ b ∈ w.drc.banks ∧ stackOfPc b.pc ≠ k) ∧
    (¬ windowBegins w k → t.drc.window = w.drc.window ∧ t.drc.banks = w.drc.banks) ∧
    (if w.drc.selfRefresh[k] then
        t.drc.owed = w.drc.owed ∧ t.drc.forced = w.drc.forced ∧ t.drc.openRows = w.drc.openRows ∧ t.regs = w.regs
      else if w.drc.forced[pc] = 0 ∧ w.panicNow = false then
        t.drc.owed = w.drc.owed.set pc 0 ∧ t.drc.forced = w.drc.forced ∧ t.drc.openRows = closed ∧ t.regs = w.regs
      else t.rd (fDrcRefstat_MAXOWED k) = max (w.rd (fDrcRefstat_MAXOWED k)) owed ∧
        OnlyFlds w t [fDrcRefstat_MAXOWED k, fDrcRefstat_FORCED k] ∧
        if w.drc.forced[pc] = 0 ∧ owed = 8 then t.drc.owed = w.drc.owed.set pc 7 ∧ t.drc.forced = w.drc.forced.set pc 7 ∧
          t.drc.openRows = closed ∧
          t.rd (fDrcRefstat_FORCED k) = min (w.rd (fDrcRefstat_FORCED k) + 1) (2 ^ (fDrcRefstat_FORCED k).w - 1)
        else t.drc.owed = w.drc.owed.set pc owed ∧ t.drc.forced = w.drc.forced ∧ t.drc.openRows = w.drc.openRows ∧
          t.rd (fDrcRefstat_FORCED k) = w.rd (fDrcRefstat_FORCED k)) ∧
    t = { w with regs := t.regs, drc := { w.drc with
      owed := t.drc.owed, forced := t.drc.forced, window := t.drc.window, banks := t.drc.banks, openRows := t.drc.openRows } }

/-- FORCED_BURST_REFRESH (R372): one refresh of the burst, and one owed, less, and the pseudo-channel's rows are closed. -/
def forcedBurstRefresh : Prop := ∀ (pc : Fin 64) (s : State), s.drc.forced[pc] ≠ 0 → s.drc.waiting = [] →
  Runs (.forcedBurstRefresh pc) s fun t => Sampled (s.modDrc fun d => { d with
    forced := d.forced.set pc (d.forced[pc] - 1), owed := d.owed.set pc (d.owed[pc] - 1)
    openRows := d.openRows.filter fun e => e.1 != pc }) t

/-- The rows of a bank stand as in another state, for every bank but one. -/
abbrev OtherBanks (s t : State) (pc : Fin 64) (sid : Fin 3) (bank : Fin 16) : Prop :=
  ∀ p : Fin 64, ∀ i : Fin 3, ∀ b : Fin 16, (p ≠ pc ∨ i ≠ sid ∨ b ≠ bank) → t.drc.rows p i b = s.drc.rows p i b ∧
    ∀ r, (p, i, b, r) ∈ t.drc.openRows ↔ (p, i, b, r) ∈ s.drc.openRows

/-- ROW_ACTIVATE (R365, R374, R375, R377): the row's count rises by one, or it takes a free place of the 32, or that of the least
count with one more; it is the bank's open row; at THRESH a targeted refresh is queued, on a draw of the LFSR a probabilistic
one. -/
def rowActivate : Prop := ∀ (pc : Fin 64) (sid : Fin 3) (bank : Fin 16) (row : Nat) (draw : Bool) (s : State),
  ¬ windowBegins s (stackOfPc pc) → Rested s →
  Runs (.rowActivate pc sid bank row draw) s fun t =>
    let old := s.drc.rows pc sid bank
    let new := t.drc.rows pc sid bank
    let known := old.any fun e => e.1 == row
    (known = true → new = old.map fun e => if e.1 = row then (row, e.2 + 1) else e) ∧
    (known = false → old.length < 32 → new = old ++ [(row, 1)]) ∧
    (known = false → 32 ≤ old.length → new.length = old.length ∧ (row, leastCount old + 1) ∈ new) ∧
    OtherBanks s t pc sid bank ∧ (∀ r, (pc, sid, bank, r) ∈ t.drc.openRows ↔ r = row) ∧
    t.drc.targeted = s.drc.targeted ++ (if s.rd fDrcRhcfg_THRESH ≤ t.drc.countOf pc sid bank row ∧
      (pc, sid, bank, row) ∉ s.drc.targeted then [(pc, sid, bank, row)] else []) ∧
    t.drc.prob = s.drc.prob ++
      (if Config.lfsrHit s.drc.lfsr = true ∧ s.rd fDrcRhcfg_PROB = 1 then [(pc, sid, bank, row)] else []) ∧
    t = s.modDrc fun d => { d with
      banks := t.drc.banks, openRows := t.drc.openRows, targeted := t.drc.targeted, prob := t.drc.prob, lfsr := Config.lfsrNext d.lfsr }

/-- A refresh window that begins (R374): its time is noted and the stack's tables are empty before the activate counts. -/
def rowActivateWindow : Prop := ∀ (pc : Fin 64) (sid : Fin 3) (bank : Fin 16) (row : Nat) (draw : Bool) (s : State),
  windowBegins s (stackOfPc pc) → Rested s →
  Runs (.rowActivate pc sid bank row draw) s fun t => t.drc.window = s.drc.window.set (stackOfPc pc) s.clock ∧
    t.drc.rows pc sid bank = [(row, 1)] ∧ (∀ r, (pc, sid, bank, r) ∈ t.drc.openRows ↔ r = row) ∧
    (∀ p : Fin 64, ∀ i : Fin 3, ∀ b : Fin 16, (p ≠ pc ∨ i ≠ sid ∨ b ≠ bank) →
      t.drc.rows p i b = if stackOfPc p = stackOfPc pc then [] else s.drc.rows p i b) ∧
    t = s.modDrc fun d => { d with
      window := t.drc.window, banks := t.drc.banks, openRows := t.drc.openRows, targeted := t.drc.targeted, prob := t.drc.prob
      lfsr := Config.lfsrNext d.lfsr }

/-- ROW_ACTIVATE behind a queued targeted refresh of its pseudo-channel (R364, R376): the refresh goes first, as TARGETED_REFRESH
makes it, but while a port holds panic and the row's count is below twice THRESH. -/
def rowActivateAfter : Prop := ∀ (pc : Fin 64) (sid : Fin 3) (bank : Fin 16) (row : Nat) (draw : Bool)
  (e : Fin 64 × Fin 3 × Fin 16 × Nat) (s : State), s.drc.targeted = [e] → s.drc.prob = [] → e.1 = pc →
  Runs (.rowActivate pc sid bank row draw) s fun t =>
    ∃ u, exec (.targetedRefresh pc e.2.1 e.2.2.1 e.2.2.2) s = .next u ∧ t = u.activate pc sid bank row ∧
      (s.panicNow = true → s.drc.countOf pc e.2.1 e.2.2.1 e.2.2.2 < 2 * s.rd fDrcRhcfg_THRESH → u = s)

/-- TARGETED_REFRESH (R375, R376): held back by panic until twice THRESH; else counted, the row's neighbours at ±1 and ±2 in the
physical row order are refreshed, no row of the bank open at the end, and its count is then 0. -/
def targetedRefresh : Prop := ∀ (pc : Fin 64) (sid : Fin 3) (bank : Fin 16) (row : Nat) (s : State),
  (pc, sid, bank, row) ∈ s.drc.targeted →
  Runs (.targetedRefresh pc sid bank row) s fun t =>
    if s.panicNow = true ∧ s.drc.countOf pc sid bank row < 2 * s.rd fDrcRhcfg_THRESH then t = s
    else ∃ w, w.rd fDrcRhcntT_COUNT = min (s.rd fDrcRhcntT_COUNT + 1) (2 ^ fDrcRhcntT_COUNT.w - 1) ∧
      (∀ e, e ∈ w.drc.targeted ↔ e ∈ s.drc.targeted ∧ e ≠ (pc, sid, bank, row)) ∧ OnlyFlds s w [fDrcRhcntT_COUNT] ∧
      w.drc.covered = s.drc.covered ++ (if ∃ e ∈ s.drc.prob, e.1 = pc ∧ e.2.1 = sid ∧ e.2.2.1 = bank then
        (s.drc.beside pc row [-2, -1, 1, 2]).map fun r => (pc, sid, bank, r) else []) ∧
      w = { s with regs := w.regs, drc := { s.drc with targeted := w.drc.targeted, covered := w.drc.covered } } ∧
      let u := w.refreshRows pc sid bank (s.drc.beside pc row [-2, -1, 1, 2])
      t.drc.countOf pc sid bank row = 0 ∧ (∀ r, r ≠ row → t.drc.countOf pc sid bank r = u.drc.countOf pc sid bank r) ∧
      OtherBanks u t pc sid bank ∧ (∀ r, (pc, sid, bank, r) ∉ t.drc.openRows) ∧
      t = { u with drc := { u.drc with banks := t.drc.banks } }

/-- PROB_REFRESH (R377): held back by panic; else counted, and the neighbours at ±1 refreshed, but for those that a targeted
refresh of the bank covers, one that is queued or was issued while this one waited. -/
def probRefresh : Prop := ∀ (pc : Fin 64) (sid : Fin 3) (bank : Fin 16) (row : Nat) (s : State),
  (pc, sid, bank, row) ∈ s.drc.prob →
  Runs (.probRefresh pc sid bank row) s fun t =>
    if s.panicNow = true then t = s
    else ∃ (w : State) (rows : List Nat), w.rd fDrcRhcntP_COUNT = min (s.rd fDrcRhcntP_COUNT + 1) (2 ^ fDrcRhcntP_COUNT.w - 1) ∧
      OnlyFlds s w [fDrcRhcntP_COUNT] ∧
      w = { s with regs := w.regs, drc := { s.drc with prob := s.drc.prob.erase (pc, sid, bank, row), covered := w.drc.covered } } ∧
      (∀ e, e ∈ w.drc.covered ↔ e ∈ s.drc.covered ∧ ((∃ x ∈ w.drc.prob, x.1 = pc ∧ x.2.1 = sid ∧ x.2.2.1 = bank) ∨
        ¬ (e.1 = pc ∧ e.2.1 = sid ∧ e.2.2.1 = bank))) ∧
      (∀ r, r ∈ rows ↔ r ∈ s.drc.beside pc row [-1, 1] ∧ (pc, sid, bank, r) ∉ s.drc.covered ∧
        ∀ e ∈ s.drc.targeted, e.1 = pc → e.2.1 = sid → e.2.2.1 = bank → r ∉ s.drc.beside pc e.2.2.2 [-2, -1, 1, 2]) ∧
      t = w.refreshRows pc sid bank rows ∧ (∀ r, (pc, sid, bank, r) ∉ t.drc.openRows) ∧ t = { w with drc := t.drc }

/-- HBM_TEMP_READ (R371): above 85 °C the stack refreshes at the short interval. -/
def hbmTempRead : Prop := ∀ (k : Fin 2) (temp : Int) (s : State), Awake s → temp ≤ 95 →
  Runs (.hbmTempRead k temp) s fun t => t = s.modDrc fun d => { d with hot := d.hot.set k (decide (85 < temp)) }

/-- Above 95 °C it is a fatal fault (spec/18 R615). -/
def hbmTooHot : Prop := ∀ (k : Fin 2) (temp : Int) (s : State), Awake s → 95 < temp →
  Runs (.hbmTempRead k temp) s fun t => Fatal s t ∧ t.drc.hot[k] = true ∧
    t = { s with regs := t.regs, sl := t.sl, drc := t.drc, press := t.press, hamper := t.hamper, power := t.power,
                 free := t.free, out := t.out }

/-- HBM_CORRECTED_ERROR (R381): counted; the error record takes its address unless it holds an uncorrectable one. -/
def hbmCorrectedError : Prop := ∀ (a : Nat) (s : State),
  Awake s → Runs (.hbmCorrectedError a) s fun t =>
    let k := stackOf a
    t.rd (fDrcEcccnt_CE k) = min (s.rd (fDrcEcccnt_CE k) + 1) (2 ^ (fDrcEcccnt_CE k).w - 1) ∧
    (if s.rd (fDrcEccaddr_VALID k) = 1 ∧ s.rd (fDrcEccaddr_UE k) = 1 then
        t.rd (fDrcEccaddr_ADDR k) = s.rd (fDrcEccaddr_ADDR k) ∧ t.rd (fDrcEccaddr_UE k) = 1
      else t.rd (fDrcEccaddr_ADDR k) = a / 8 * 8 % 2 ^ (fDrcEccaddr_ADDR k).w ∧ t.rd (fDrcEccaddr_UE k) = 0 ∧
        t.rd (fDrcEccaddr_VALID k) = 1) ∧
    OnlyFlds s t ([fDrcEcccnt_CE k, fDrcEccaddr_ADDR k, fDrcEccaddr_UE k, fDrcEccaddr_VALID k] ++
      reportFlds (Config.sourceOf (.hbmCorrected k))) ∧ t = { s with regs := t.regs, hamper := t.hamper, out := t.out }

/-- HBM_UNCORRECTABLE_ERROR (R381), of an initiator that is no SCAN unit: counted, recorded, reported; a site core meets a load
access fault, the management controller a bus error; no burst ends. -/
def hbmUncorrectableError : Prop := ∀ (a : Nat) (who : HbmBy) (s : State), (∀ u, who ≠ .scan u) →
  Awake s → Runs (.hbmUncorrectableError a who) s fun t =>
    let k := stackOf a
    t.rd (fDrcEcccnt_UE k) = min (s.rd (fDrcEcccnt_UE k) + 1) (2 ^ (fDrcEcccnt_UE k).w - 1) ∧
    t.rd (fDrcEccaddr_ADDR k) = a / 8 * 8 % 2 ^ (fDrcEccaddr_ADDR k).w ∧ t.rd (fDrcEccaddr_UE k) = 1 ∧
    t.rd (fDrcEccaddr_VALID k) = 1 ∧
    OnlyFlds s t ([fDrcEcccnt_UE k, fDrcEccaddr_ADDR k, fDrcEccaddr_UE k, fDrcEccaddr_VALID k] ++
      reportFlds (Config.sourceOf (.hbmUe k))) ∧
    t = { s with
      regs := t.regs, hamper := t.hamper, out := t.out, busErr := s.busErr || decide (who = .mgmt)
      cores := match who with | .core c => s.cores.set c (s.cores[c].memFault false a) | _ => s.cores }

/-- A SCAN unit's is an underrun of the unit (R381, R346). -/
def hbmUncorrectableScan : Prop := ∀ (a : Nat) (u : Fin 4) (s : State), s.scan[u].enabled = true → s.scan[u].st ≠ .fault →
  Awake s → Runs (.hbmUncorrectableError a (.scan u)) s fun t => t.rd (fScStat_UNDERRUN u) = 1 ∧ t.scan[u].st = .fault ∧
    t.rd (fDrcEcccnt_UE (stackOf a)) = min (s.rd (fDrcEcccnt_UE (stackOf a)) + 1) (2 ^ (fDrcEcccnt_UE (stackOf a)).w - 1) ∧
    (∀ w : Fin 4, w ≠ u → t.scan[w] = s.scan[w]) ∧
    t = { s with
      regs := t.regs, sl := t.sl, scan := t.scan, press := t.press, hamper := t.hamper, free := t.free, out := t.out }

/-- HB_INIT (R378, R379): the interface of each named stack that is not ready initialises, at the management controller's
word, its row order and the LFSR's seed loaded; BUSY for a ready stack, RSVD for another initiator. -/
def hbInit : Prop := ∀ (ini : Initiator) (v : Word) (s : State), Reaches s ini .drcHbcmd [] →
  Runs (.hbInit ini v) s fun t =>
    let begins : Fin 2 → Bool := fun k => v.getLsbD k && !s.isReady (.hb k) && ini == .mgmt && !s.tested [8] k
    (∀ k : Fin 2, t.drc.initBusy[k] = (s.drc.initBusy[k] || begins k) ∧
      t.drc.order[k] = if begins k then some (Config.stackOrder k) else s.drc.order[k]) ∧
    t.drc.lfsr = (if begins 0 || begins 1 then Config.lfsrSeed s.free else s.drc.lfsr) ∧
    ((∃ k : Fin 2, v.getLsbD k = true ∧ s.isReady (.hb k) = true) → t.rd ⟨aAccerrx (copyOf ini), AccBit.busy.pos, 1⟩ = 1) ∧
    ((∃ k : Fin 2, v.getLsbD k = true ∧ s.isReady (.hb k) = false) → ini ≠ .mgmt →
      t.rd ⟨aAccerrx (copyOf ini), AccBit.rsvd.pos, 1⟩ = 1) ∧
    OnlyFlds s t (accFlds (copyOf ini)) ∧ t = { s with regs := t.regs, drc := { s.drc with
      initBusy := t.drc.initBusy, order := t.drc.order, lfsr := t.drc.lfsr } }

/-- HB_INIT_DONE (R378): with TROOT and the management controller ready, the stack in service and held by no test, a pass makes
it ready and ends its self-refresh. Its contents, where they were lost: zeros, if boot fills both stacks (spec/17 R585), else undefined (R589, log entry
6); every other byte stays. -/
def hbInitDone : Prop := ∀ (k : Fin 2) (s : State), s.drc.initBusy[k] = true → s.isReady .mgmt = true →
  s.isReady .troot = true → s.rd ⟨aSvcoff, 16 + k.val, 1⟩ = 0 → s.heldReady (.hb k) = false → s.tested [8] k = false →
  Runs (.hbInitDone k true) s fun t => t.isReady (.hb k) = true ∧
    (∀ a, t.byte a = if s.drc.lost[k] = true ∧ stackOf a = k then
        (if s.drc.fill = true then 0 else Config.bareByte (s.drc.bareCount[k] + 1) a) else s.byte a) ∧
    (s.drc.lost[k] = false → t.drc.fill = s.drc.fill ∧ t.drc.written = s.drc.written) ∧
    (s.drc.lost[k] = true → t.drc.fill = (s.drc.fill && s.drc.lost[1 - k])) ∧
    (∀ u : Fin 4, t.isReady (.scan u) = (s.isReady (.scan u) || decide (ScanNeeds t u))) ∧
    (∀ i : Fin 32, i.val ≠ 4 + k.val → (i.val < 16 ∨ 20 ≤ i.val) → t.ready.getLsbD i = s.ready.getLsbD i) ∧
    t = { s with
      ready := t.ready, wasReady := t.wasReady, mem := t.mem
      drc := { s.drc with
        initBusy := s.drc.initBusy.set k false, selfRefresh := s.drc.selfRefresh.set k false, lost := s.drc.lost.set k false
        fill := t.drc.fill, bare := t.drc.bare, bareCount := t.drc.bareCount, written := t.drc.written } }

/-- A failed self-check is reported, and the stack stays as it is. -/
def hbInitFailed : Prop := ∀ (k : Fin 2) (s : State), s.drc.initBusy[k] = true →
  Runs (.hbInitDone k false) s fun t => OnlyFlds s t (reportFlds (Config.sourceOf (.bringUp (4 + k.val)))) ∧
    t = { s with
      regs := t.regs, hamper := t.hamper, out := t.out, drc := { s.drc with initBusy := s.drc.initBusy.set k false } }

/-- TRN_WRITE (R379): BUSY while the stack is ready, RSVD for an initiator other than the management controller, else the trims
take the value. -/
def trnWrite : Prop := ∀ (ini : Initiator) (k : Fin 2) (c : Fin 16) (w : Fin 64) (v : Word) (s : State),
  Reaches s ini .drcTrn [k, c, w] →
  Runs (.trnWrite ini k c w v) s fun t =>
    if s.isReady (.hb k) = true then Flagged s t ini .busy (aDrcTrn k c w)
    else if ini ≠ .mgmt then Flagged s t ini .rsvd (aDrcTrn k c w)
    else t.rd (fDrcTrn_RDLY_EVEN k c w) = bitsOf v.toNat (fDrcTrn_RDLY_EVEN k c w).lo (fDrcTrn_RDLY_EVEN k c w).w ∧
      t.rd (fDrcTrn_WDLY_EVEN k c w) = bitsOf v.toNat (fDrcTrn_WDLY_EVEN k c w).lo (fDrcTrn_WDLY_EVEN k c w).w ∧
      t.rd (fDrcTrn_RDLY_ODD k c w) = bitsOf v.toNat (fDrcTrn_RDLY_ODD k c w).lo (fDrcTrn_RDLY_ODD k c w).w ∧
      t.rd (fDrcTrn_WDLY_ODD k c w) = bitsOf v.toNat (fDrcTrn_WDLY_ODD k c w).lo (fDrcTrn_WDLY_ODD k c w).w ∧
      OnlyFlds s t [wordFld (aDrcTrn k c w)] ∧ t = { s with regs := t.regs }

/-- A repair command of row word w (R379, R383, R394): RSVD for a layer that does not exist; BUSY, with RESULT, for a ready
stack; RSVD for an initiator that is not the management controller; BUSY while a repair is in progress; a hard repair only in
MANUFACTURE and RMA; else the repair is in progress. -/
abbrev Repairs (s t : State) (ini : Initiator) (w : Word) (hard : Bool) : Prop :=
  if bitsOf w.toNat 22 2 = 3 then Flagged s t ini .rsvd aDrcPpr
  else if s.isReady (.hb (Fin.ofNat 2 (bitsOf w.toNat 29 1))) = true then
    t.rd ⟨aAccerrx (copyOf ini), AccBit.busy.pos, 1⟩ = 1 ∧ t.rd fDrcPprstat_RESULT = 2 ∧
    OnlyFlds s t (fDrcPprstat_RESULT :: accFlds (copyOf ini)) ∧ t = { s with regs := t.regs }
  else if ini ≠ .mgmt then Flagged s t ini .rsvd aDrcPpr
  else if s.drc.ppr.isSome = true then Flagged s t ini .busy aDrcPpr
  else if hard = true ∧ s.lifeCycle ≠ 1 ∧ s.lifeCycle ≠ 5 then
    t.rd fDrcPprstat_RESULT = 3 ∧ OnlyFlds s t [fDrcPprstat_RESULT] ∧ t = { s with regs := t.regs }
  else t = s.modDrc fun d => { d with ppr := some w }

/-- PPR_SOFT and PPR_HARD (R383, R394). -/
def pprSoft : Prop := ∀ (ini : Initiator) (v : Word) (s : State), Reaches s ini .drcPpr [] →
  Runs (.pprSoft ini v) s fun t => Repairs s t ini ((v &&& 0x3FFFFFFF) ||| 0x40000000) false
def pprHard : Prop := ∀ (ini : Initiator) (v : Word) (s : State), Reaches s ini .drcPpr [] →
  Runs (.pprHard ini v) s fun t => Repairs s t ini ((v &&& 0x3FFFFFFF) ||| 0x80000000) true

/-- PPR_DONE (R383, R394, R561): the result, and, where the stack reports success, the row repaired, softly or for good, with its entry in
the repair log. -/
def pprDone : Prop := ∀ (res : PprEnd) (w : Word) (s : State), s.drc.ppr = some w →
  Runs (.pprDone res) s fun t =>
    t.rd fDrcPprstat_RESULT = (match res with | .ok => 0 | .noResource => 1 | .fail => 4) ∧ OnlyFlds s t [fDrcPprstat_RESULT] ∧
    let row : Repaired := ⟨BitVec.ofNat 32 (bitsOf w.toNat 0 30), w.toNat / 2 ^ 30 % 4 == 2⟩
    t = { s with
      regs := t.regs, drc := { s.drc with ppr := none, repaired := t.drc.repaired }, bist := { s.bist with log := t.bist.log } } ∧
    t.drc.repaired = (if res = .ok then s.drc.repaired ++ [row] else s.drc.repaired) ∧
    t.bist.log = if res = .ok then s.bist.log ++ [.hbm row s.time.phcSec] else s.bist.log

/-! ## Site cores and the Dispatcher (spec/11) -/

/-- READY.CORES is 1 while all eight cores run (spec/01 R55); no other READY bit changes. -/
abbrev CoresShown (s t : State) : Prop :=
  t.isReady .cores = (List.finRange 8).all (fun c => t.coreRuns c) ∧
  ∀ i : Fin 32, i ≠ 25 → t.ready.getLsbD i = s.ready.getLsbD i

/-- A core whose GETEN is 0 has no blocked GET: it returned 0 (R409). -/
abbrev released (s : State) (c : Fin 8) (geten : Bool) : CoreSt :=
  if geten = false ∧ s.cores[c].waiting.isSome = true then s.cores[c].endGet 0 else s.cores[c]

/-- CORE_RUN (R403): GROUPS and GETEN from any initiator; RUN from the management controller only, and a core that starts is in
machine mode at address 0. -/
def coreRun : Prop := ∀ (ini : Initiator) (c : Fin 8) (v : Word) (s : State), Reaches s ini .dpCoreCtrl [c] →
  v.getLsbD 1 = false →
  Runs (.coreRun ini c v) s fun t =>
    let x := released s c (v.getLsbD 2)
    t.rd (fDpCoreCtrl_GROUPS c) = bitsOf v.toNat 8 8 ∧ t.rd (fDpCoreCtrl_GETEN c) = b2n (v.getLsbD 2) ∧
    OnlyFlds s t [wordFld (aDpCoreCtrl c)] ∧
    (ini ≠ .mgmt → t.rd (fDpCoreCtrl_RUN c) = s.rd (fDpCoreCtrl_RUN c) ∧
      t = { s with regs := t.regs, cores := s.cores.set c x }) ∧
    (ini = .mgmt → t.rd (fDpCoreCtrl_RUN c) = b2n (v.getLsbD 0) ∧ CoresShown s t ∧
      t = { s with
        regs := t.regs, ready := t.ready, wasReady := t.wasReady
        cores := s.cores.set c (if v.getLsbD 0 = true ∧ s.rd (fDpCoreCtrl_RUN c) = 0 then { x with
          pc := 0, machineMode := true, halted := false, waiting := none, waitRd := none } else x) })

/-- CORE_RESET (R403, R413): at the management controller's word the core stops, its state but the local SRAM is reset, and its
task is abandoned. -/
def coreReset : Prop := ∀ (ini : Initiator) (c : Fin 8) (v : Word) (s : State), Reaches s ini .dpCoreCtrl [c] → ini = .mgmt →
  Runs (.coreReset ini c v) s fun t =>
    t.rd (fDpCoreCtrl_GROUPS c) = bitsOf v.toNat 8 8 ∧ t.rd (fDpCoreCtrl_GETEN c) = b2n (v.getLsbD 2) ∧
    t.rd (fDpCoreCtrl_RUN c) = 0 ∧ (s.cores[c].hold.isSome = true → t.rd (fDpCoreStat_ABANDON c) = 1) ∧ CoresShown s t ∧
    OnlyFlds s t (wordFld (aDpCoreCtrl c) :: if s.cores[c].hold.isSome then [fDpCoreStat_ABANDON c] else []) ∧
    t = { s with regs := t.regs, ready := t.ready, wasReady := t.wasReady, cores := s.cores.set c { CoreSt.reset with sram := s.cores[c].sram } }

/-- CORE_UE (R402, R413): a contained fault of the core, which stops with its task abandoned. -/
def coreUe : Prop := ∀ (c : Fin 8) (s : State),
  Awake s → Runs (.coreUe c) s fun t =>
    (s.cores[c].hold.isSome = true → t.rd (fDpCoreStat_ABANDON c) = 1) ∧ CoresShown s t ∧ t.coreRuns c = false ∧
    t.rd (fDpCoreCtrl_RUN c) = 0 ∧ OnlyFlds s t (reportFlds (Config.sourceOf (.core c)) ++
      fDpCoreCtrl_RUN c :: if s.cores[c].hold.isSome then [fDpCoreStat_ABANDON c] else []) ∧
    t = { s with
      regs := t.regs, ready := t.ready, wasReady := t.wasReady, hamper := t.hamper, out := t.out
      cores := s.cores.set c { s.cores[c] with halted := true, waiting := none, waitRd := none, hold := none } }

/-- CORE_TIMER_INTERRUPT (R401): pending while mtime, the timebase in units of 10 ns, has reached mtimecmp. -/
def coreTimerInterrupt : Prop := ∀ (c : Fin 8) (s : State),
  Runs (.coreTimerInterrupt c) s fun t => t = s.modCore c fun x => { x with
    mtip := decide (x.mtimecmp.toNat ≤ if s.isReady .time then s.time.tick.toNat / 128 else s.time.mtimeHeld.toNat) }

/-- MSIP_WRITE (R404): the core's software interrupt is what was written; it waits for READY.DISPATCH (log entry 67, the model's choice).
-/
def msipWrite : Prop := ∀ (ini : Initiator) (c : Fin 8) (v : Word) (s : State), Reaches s ini .dpCoreMsip [c] →
  Runs (.msipWrite ini c v) s fun t => t.rd (fDpCoreMsip_MSIP c) = bitsOf v.toNat 0 1 ∧ OnlyFlds s t [fDpCoreMsip_MSIP c] ∧
    t = { s with regs := t.regs }

/-- DOORBELL (R404, R423): the host's 1 at bit 16 sets DOORBELL; every other 1 clears its bit. Another initiator's clears. -/
def doorbell : Prop := ∀ (ini : Initiator) (c : Fin 8) (v : Word) (s : State), Reaches s ini .dpCoreIrqpend [c] →
  Runs (.doorbell ini c v) s fun t =>
    (∀ i : Fin 18, t.rd ⟨aDpCoreIrqpend c, i, 1⟩ =
      if i = 16 then (if ∃ p : Fin 8, ini = .pcie p then 1 else 0)
      else if v.getLsbD i then 0 else s.rd ⟨aDpCoreIrqpend c, i, 1⟩) ∧
    OnlyFlds s t [fDpCoreIrqpend_SRC c] ∧ t = { s with regs := t.regs }

/-- PUSH (R406): a descriptor whose VALID is 0 is refused; where 4,096 tasks wait it is dropped and counted; else it waits
behind all others. -/
def push : Prop := ∀ (ini : Initiator) (desc : DWord) (s : State), Reaches s ini .dpPush [] →
  Runs (.push ini desc) s fun t =>
    if desc.getLsbD 56 = false then Flagged s t ini .rsvd aDpPush
    else if 4096 ≤ s.disp.waiting.length then t.rd fDpStat_FULL = 1 ∧
      t.rd fDpDropcnt_COUNT = min (s.rd fDpDropcnt_COUNT + 1) (2 ^ fDpDropcnt_COUNT.w - 1) ∧
      OnlyFlds s t [fDpStat_FULL, fDpDropcnt_COUNT] ∧ t = { s with regs := t.regs }
    else t = { s with disp := { s.disp with waiting := s.disp.waiting ++ [⟨desc, ini, s.clock / 16⟩] } }

/-- Whether a task may be granted (R407): no task of its flow is in service. -/
abbrev Eligible (s : State) (d : DWord) : Prop := ∀ c : Fin 8, s.cores[c].hold.map dFlow ≠ some (dFlow d)

/-- The core's GET ended, or its task changed. -/
abbrev Moved (s t : State) (c : Fin 8) : Prop := s.cores[c].hold ≠ t.cores[c].hold ∨ s.cores[c].waiting ≠ t.cores[c].waiting

/-- A core whose GET the Dispatcher looks at before that of another (R408). -/
abbrev Ahead (s : State) (a b : Fin 8) : Prop :=
  s.coreRuns a = true ∧ s.rd (fDpCoreCtrl_GETEN a) = 1 ∧ ∃ x ∈ s.cores[a].waiting, ∃ y ∈ s.cores[b].waiting, x < y ∨ x = y ∧ a < b

/-- DISPATCH_GRANT (R407, R408, R414): a grant, if any, goes to the core that has been blocked in GET with GETEN = 1 longest, the
lowest among equals, of those for which a task is eligible; it is for one of the core's groups, from the highest level that holds an
eligible task of them, the oldest eligible one of its level and group; it leaves the queue, is held by the core and counted. Without
a grant only the round robin may have moved. -/
def dispatchGrant : Prop := ∀ (s : State), s.isReady .dispatch = true →
  Runs .dispatchGrant s fun t =>
    (∀ c : Fin 8, Moved s t c →
      s.cores[c].waiting.isSome = true ∧ s.rd (fDpCoreCtrl_GETEN c) = 1 ∧ s.coreRuns c = true ∧
      (∀ c' : Fin 8, c' ≠ c → t.cores[c'] = s.cores[c']) ∧
      ∃ k ∈ s.disp.waiting,
        t.cores[c] = { s.cores[c].endGet k.desc with hold := some k.desc } ∧ Eligible s k.desc ∧
        bitOf (s.rd (fDpCoreCtrl_GROUPS c)) (dGroup k.desc) = true ∧ t.rd (fDpCoreTask_VALUE c) = k.desc.toNat ∧
        t.disp.waiting = s.disp.waiting.erase k ∧
        (∀ k' ∈ s.disp.waiting, Eligible s k'.desc → bitOf (s.rd (fDpCoreCtrl_GROUPS c)) (dGroup k'.desc) = true →
          dLevel k'.desc ≤ dLevel k.desc) ∧
        (s.eligible (dLevel k.desc) (dGroup k.desc)).head? = some k ∧
        (∀ c' : Fin 8, Ahead s c' c → ∀ k' ∈ s.disp.waiting, Eligible s k'.desc →
          bitOf (s.rd (fDpCoreCtrl_GROUPS c')) (dGroup k'.desc) = false) ∧
        let h := fDpHist_COUNT (dLevel k.desc) (waitBin (s.clock / 16 - k.fab))
        t.rd h = min (s.rd h + 1) 0xFFFFFFFF ∧ OnlyFlds s t [h, fDpCoreTask_VALUE c]) ∧
    ((∀ c : Fin 8, ¬ Moved s t c) → t.regs = s.regs ∧ t.disp.waiting = s.disp.waiting ∧ t.cores = s.cores) ∧
    t = { s with regs := t.regs, cores := t.cores, disp := t.disp }

/-- A group of a level that a core may be granted a task of (R408). -/
abbrev Usable (s : State) (c : Fin 8) (l : Fin 16) (g : Nat) : Prop :=
  bitOf (s.rd (fDpCoreCtrl_GROUPS c)) g = true ∧ s.eligible l g ≠ []

/-- The pointer of a level stands at a usable group with a deficit of 1 or more. -/
abbrev Stays (s : State) (c : Fin 8) (l : Fin 16) : Prop :=
  Usable s c l s.disp.ptr[l] ∧ 1 ≤ s.disp.deficit[l][Fin.ofNat 8 s.disp.ptr[l]]

/-- How far the pointer of a level moves before a grant to a core (R408): not at all where it stays, else to the next usable group,
which may be the same one after a full round. -/
abbrev MovesBy (s : State) (c : Fin 8) (l : Fin 16) (j : Nat) : Prop :=
  (j = 0 ∧ Stays s c l) ∨ (1 ≤ j ∧ j ≤ 8 ∧ ¬ Stays s c l ∧ Usable s c l ((s.disp.ptr[l] + j) % 8) ∧
    ∀ i < j, 1 ≤ i → ¬ Usable s c l ((s.disp.ptr[l] + i) % 8))

/-- The deficit round robin (R408): the pointer of the level moves to the group whose oldest eligible task is granted; every group that it
comes to gains its weight, one that holds no task loses its deficit as the pointer leaves it, the grant costs 1; no other level
changes. -/
def dispatchTurns : Prop := ∀ (c : Fin 8) (l : Fin 16) (j : Nat) (s : State), s.isReady .dispatch = true →
  s.coreRuns c = true → s.rd (fDpCoreCtrl_GETEN c) = 1 → s.cores[c].waiting.isSome = true →
  (∀ c' : Fin 8, c' ≠ c → s.cores[c'].waiting = none) →
  s.bestLevel (s.rd (fDpCoreCtrl_GROUPS c)) = some l → s.disp.ptr[l] < 8 → (∀ g : Fin 8, 1 ≤ s.rd (fDpWeight_WEIGHT g)) →
  (∀ g : Fin 8, s.disp.deficit[l][g] ≤ 65535) → MovesBy s c l j →
  Runs .dispatchGrant s fun t =>
    let p := s.disp.ptr[l]
    let gains : Fin 8 → Bool := fun g => (List.range j).any fun i => (p + i + 1) % 8 == g.val
    let left : Fin 8 → Bool := fun g => (List.range j).any fun i => (p + i) % 8 == g.val
    t.disp.ptr = s.disp.ptr.set l ((p + j) % 8) ∧
    (∀ g : Fin 8, t.disp.deficit[l][g] =
      if left g && s.emptyAt l g then 0
      else min (s.disp.deficit[l][g] + if gains g then s.rd (fDpWeight_WEIGHT g) else 0) 65535 - if g.val = (p + j) % 8 then 1 else 0) ∧
    (∀ m : Fin 16, m ≠ l → t.disp.deficit[m] = s.disp.deficit[m]) ∧
    ∃ k, (s.eligible l ((p + j) % 8)).head? = some k ∧ t.cores[c].hold = some k.desc ∧ t.disp.waiting = s.disp.waiting.erase k

/-- A grant (R408): the one core blocked in GET is granted the oldest eligible task of the pointer's group, whose deficit is at
least 1, of the highest level that holds one for it; the deficit falls by one, and the waiting time is counted. -/
def dispatchGrants : Prop := ∀ (c : Fin 8) (l : Fin 16) (k : Task) (rest : List Task) (s : State), s.isReady .dispatch = true →
  s.coreRuns c = true → s.rd (fDpCoreCtrl_GETEN c) = 1 → s.cores[c].waiting.isSome = true →
  (∀ c' : Fin 8, c' ≠ c → s.cores[c'].waiting = none) →
  s.bestLevel (s.rd (fDpCoreCtrl_GROUPS c)) = some l → s.disp.ptr[l] < 8 →
  bitOf (s.rd (fDpCoreCtrl_GROUPS c)) s.disp.ptr[l] = true →
  1 ≤ s.disp.deficit[l][Fin.ofNat 8 s.disp.ptr[l]] → s.disp.deficit[l][Fin.ofNat 8 s.disp.ptr[l]] ≤ 65536 →
  s.eligible l s.disp.ptr[l] = k :: rest →
  Runs .dispatchGrant s fun t =>
    let h := fDpHist_COUNT (dLevel k.desc) (waitBin (s.clock / 16 - k.fab))
    t.cores = s.cores.set c { s.cores[c].endGet k.desc with hold := some k.desc } ∧
    t.disp.waiting = s.disp.waiting.erase k ∧ t.disp.ptr = s.disp.ptr ∧
    t.disp.deficit[l][Fin.ofNat 8 s.disp.ptr[l]] = s.disp.deficit[l][Fin.ofNat 8 s.disp.ptr[l]] - 1 ∧
    t.rd (fDpCoreTask_VALUE c) = k.desc.toNat ∧ t.rd h = min (s.rd h + 1) 0xFFFFFFFF ∧
    OnlyFlds s t [h, fDpCoreTask_VALUE c] ∧ t = { s with regs := t.regs, cores := t.cores, disp := t.disp }

/-- GET (R409): 0 and NESTED for a core that holds a task, 0 where GETEN is 0, else the core is blocked. -/
def get : Prop := ∀ (c : Fin 8) (s : State), s.coreRuns c = true →
  Runs (.get c) s fun t =>
    if s.cores[c].hold.isSome = true then t.rd (fDpCoreStat_NESTED c) = 1 ∧ OnlyFlds s t [fDpCoreStat_NESTED c] ∧
      t = { s.modCore c fun x => { x with loadData := 0 } with regs := t.regs }
    else if s.rd (fDpCoreCtrl_GETEN c) = 0 then t = s.modCore c fun x => { x with loadData := 0 }
    else t = s.modCore c fun x => { x with waiting := some (x.waiting.getD (s.clock / 16)) }

/-- GET_RELEASE (R404, R409): an interrupt pending and enabled at the core's privilege, or GETEN = 0, ends a blocked GET with 0;
no other event does. -/
def getRelease : Prop := ∀ (c : Fin 8) (s : State), s.cores[c].waiting.isSome = true →
  Runs (.getRelease c) s fun t =>
    if (s.irqDue c).isSome = true ∨ s.rd (fDpCoreCtrl_GETEN c) = 0 then t = s.modCore c fun x => x.endGet 0 else t = s

/-- A GET that ends (R408, R409): its value is in the load's register, and the load retires. -/
def getEnds : Prop := ∀ (x : CoreSt) (v : DWord),
  (x.waitRd = none → x.endGet v = { x with waiting := none, loadData := v }) ∧
  ∀ rd len, x.waitRd = some (rd, len) →
    (x.endGet v).waiting = none ∧ (x.endGet v).waitRd = none ∧ (x.endGet v).pc = x.pc + BitVec.ofNat 64 len ∧
    (∀ i : Fin 32, (x.endGet v).x[i] = if i = rd ∧ rd ≠ 0 then v else x.x[i]) ∧
    (x.endGet v).hold = x.hold ∧ (x.endGet v).sram = x.sram

/-- DONE (R410): the task ends and is counted, and TASK names none (log entry 52, the model's choice); without one NODONE is set. -/
def done : Prop := ∀ (c : Fin 8) (s : State), s.coreRuns c = true →
  Runs (.done c) s fun t =>
    if s.cores[c].hold.isSome = true then
      t.rd (fDpCoreDonecnt_VALUE c) = (s.rd (fDpCoreDonecnt_VALUE c) + 1) % 2 ^ (fDpCoreDonecnt_VALUE c).w ∧
      t.rd (fDpCoreTask_VALUE c) = 0 ∧ OnlyFlds s t [fDpCoreDonecnt_VALUE c, fDpCoreTask_VALUE c] ∧
      t = { s.modCore c fun x => { x with hold := none } with regs := t.regs }
    else t.rd (fDpCoreStat_NODONE c) = 1 ∧ OnlyFlds s t [fDpCoreStat_NODONE c] ∧ t = { s with regs := t.regs }

/-- FLUSH (R412): every waiting task goes, and is counted. -/
def flush : Prop := ∀ (ini : Initiator) (v : Word) (s : State), Reaches s ini .dpCtrl [] →
  Runs (.flush ini v) s fun t =>
    t.rd fDpDropcnt_COUNT = min (s.rd fDpDropcnt_COUNT + s.disp.waiting.length) (2 ^ fDpDropcnt_COUNT.w - 1) ∧
    OnlyFlds s t [fDpDropcnt_COUNT] ∧ t = { s with regs := t.regs, disp := { s.disp with waiting := [] } }

/-! ## Clothesline links (spec/12 R427 to R437, R441, R448) -/

/-- Neither lane has LOS; both lanes have CDR lock; both have block lock. -/
abbrev NoLos (x : Port) : Prop := x.lane[0].los = false ∧ x.lane[1].los = false
abbrev NoLol (x : Port) : Prop := x.lane[0].lol = false ∧ x.lane[1].lol = false
abbrev Locked (x : Port) : Prop := x.lane[0].blk = true ∧ x.lane[1].blk = true

/-- GLOBAL.READY.CL bit p, and no other READY bit changed: a port in service shows it where the management controller and TROOT are ready
and no failed test or exhausted repair holds the bit (R560, R563, R585). -/
abbrev ClShown (s t : State) (p : Fin 4) (up : Bool) : Prop :=
  t.isReady (.cl p) = (if up then s.isReady (.cl p) || (s.isReady .mgmt && s.isReady .troot && !s.heldReady (.cl p)) else false) ∧
  ∀ i : Fin 32, i.val ≠ 20 + p → t.ready.getLsbD i = s.ready.getLsbD i

/-- A receive lane that starts anew: its amplitude detector alone keeps what it shows. -/
abbrev freshLanes (x : Port) (lol : Bool) : Vector RxLane 2 :=
  Vector.ofFn fun l : Fin 2 => { RxLane.reset with los := x.lane[l].los, lol := lol }

/-- A port that starts a state with sequence numbers 0, no frames, its lanes out of lock (R435, R436); a DRIVE port sees FCK
free of contention until its detector tells otherwise. -/
abbrev restarted (x : Port) (st : PortState) (single drive : Bool) : Port :=
  { Port.reset with
    st := st, single := single, fckOk := drive, lane := freshLanes x false, tokens := x.tokens, exchNum := x.exchNum
    role := x.role, roleGen := x.roleGen, wasActive := x.wasActive }

/-- A port out of service in a state: every waiting and unacknowledged frame is discarded and counted (R436). -/
abbrev OutOfService (s t : State) (p : Fin 4) (st : PortState) (single : Bool) : Prop :=
  t.port = s.port.set p (restarted s.port[p] st single (t.rd (fClCtrl_FCKDIR p) == 1)) ∧ ClShown s t p false ∧
  t.rd (fClDropcnt_TXDROP p) = min (s.rd (fClDropcnt_TXDROP p) +
    (s.port[p].sent.length + s.port[p].wait.length + if s.port[p].sum.isSome then 1 else 0)) 65535

/-- A rinse test of the instance is abandoned (R558). -/
abbrev RinseLeft (s t : State) (kind inst : Nat) : Prop :=
  if s.bist.rinse = some (kind, inst) then
    t.rd fPrBistRinseres_RESULT = 3 ∧ t.rd fPrBistRinseres_COVERAGE = 0 ∧ t.bist = { s.bist with rinse := none }
  else t.rd fPrBistRinseres_RESULT = s.rd fPrBistRinseres_RESULT ∧
    t.rd fPrBistRinseres_COVERAGE = s.rd fPrBistRinseres_COVERAGE ∧ t.bist = s.bist

/-- An attempt begins: the port enters PROBE, sending TRAIN blocks and showing a count of failures. -/
abbrev Probes (s t : State) (p : Fin 4) (single : Bool) (attempt : Nat) : Prop :=
  OutOfService s t p .probe single ∧ t.rd (fClStat_ATTEMPT p) = attempt ∧ RinseLeft s t 7 p ∧ t.out = s.out ++ [.clTrain p]

/-- A port that the fuses name (R33) and that no full BIST holds (R556). -/
abbrev Present (s : State) (p : Fin 4) : Prop := s.hasCap (4 + p.val) = true ∧ s.tested [7] p = false

/-- The words that training writes. -/
abbrev trainFlds (p : Fin 4) : List Fld :=
  [fClStat_ATTEMPT p, fClDropcnt_TXDROP p, fPrBistRinseres_RESULT, fPrBistRinseres_COVERAGE]

/-- ACTIVE is left for RECOVER (R436), by a port whose other state is x. -/
abbrev EntersRecover (s t : State) (p : Fin 4) (x : Port) : Prop :=
  t.rd (fClLinkcnt_RECOVER p) = min (s.rd (fClLinkcnt_RECOVER p) + 1) 65535 ∧ ClShown s t p false ∧
  t.out = s.out ++ [.clRecover p false 0] ∧ OnlyFlds s t [fClLinkcnt_RECOVER p] ∧
  t = { s with
    regs := t.regs, ready := t.ready, wasReady := t.wasReady, out := t.out
    port := s.port.set p { x with
      st := .recover, txEmb := false, rxEmb := false, swTx := 0, swRx := 0, rdySent := false
      rdySeen := false, resends := 0, lane := freshLanes x false } }

/-- The instant at which a frame leaves the ball in this TROOT period, in taps (spec/13 R462); its tap is open (log entry 55). -/
abbrev LeavesAt (s : State) (p : Fin 4) (ball : Int) : Prop :=
  ∃ tap < 256, ball = ((s.time.tick.toNat * 256 + tap + s.rd (fTmLinkLat_TXLAT p) : Nat) : Int)

/-- The outstanding frames sent again, oldest first, as one resend, each with the stamps of this transmission (R435, spec/13 R461);
the port is x but for them. -/
abbrev Resent (s t : State) (p : Fin 4) (frames : List Frame) (first : List OutEvent) (x : Port) : Prop :=
  t.rd (fClLinkcnt_REPLAY p) = min (s.rd (fClLinkcnt_REPLAY p) + if frames = [] then 0 else 1) 65535 ∧
  ∃ balls : List Int, balls.length = frames.length ∧ (∀ b ∈ balls, LeavesAt s p b) ∧
    t.out = s.out ++ first ++ (frames.zip balls).map (fun e => .clFrame p (e.1.stamped e.2)) ∧
    t.port = s.port.set p ((frames.zip balls).foldl (fun y e => y.departs e.1 e.2) x)

/-- RECOVER on its way (R436), by a port whose other state is x: RDY once the lanes are locked and deskewed, SWDLY once RDY was
both sent and received, ACTIVE once both directions are EMBEDDED and locked, with a resend from the oldest frame. -/
abbrev RecoverMoves (s t : State) (p : Fin 4) (x : Port) : Prop :=
  let sends : Bool := decide (Locked x) && x.deskew && !x.rdySent && !x.rxEmb
  let first : List OutEvent := if sends then [.clRecover p true 0] else []
  let y := { x with rdySent := x.rdySent || sends }
  if y.rdySent = true ∧ x.rdySeen = true ∧ x.swTx = 0 then
    t.port = s.port.set p { y with swTx := t.port[p].swTx } ∧ 512 ≤ t.port[p].swTx ∧ t.port[p].swTx ≤ 65536 ∧
    t.out = s.out ++ first ++ [.clRecover p true t.port[p].swTx] ∧
    t = { s with port := t.port, out := t.out, free := t.free }
  else if x.txEmb = true ∧ x.rxEmb = true ∧ Locked x ∧ NoLol x then
    t.rd (fClStat_ATTEMPT p) = 0 ∧ ClShown s t p true ∧ Resent s t p x.sent first { y with st := .active, single := false } ∧
    OnlyFlds s t [fClStat_ATTEMPT p, fClLinkcnt_REPLAY p] ∧
    t = { s with
      regs := t.regs, ready := t.ready, wasReady := t.wasReady, out := t.out, free := t.free, port := t.port }
  else t = { s with port := s.port.set p y, out := s.out ++ first }

/-- The state of training that the detectors let a port enter (R430). -/
abbrev trainedTo (x : Port) : PortState :=
  if x.st = .probe ∧ NoLos x ∧ x.fckOk = true then .align
  else if x.st = .align ∧ Locked x ∧ x.deskew = true then .handshake
  else if x.st = .switch ∧ x.txEmb = true ∧ x.rxEmb = true ∧ NoLol x ∧ Locked x then .measure
  else x.st

/-- What follows from a change that makes the port x (R430, R436). -/
abbrev Moves (s t : State) (p : Fin 4) (x : Port) : Prop :=
  if x.st = .active ∧ ¬ (NoLos x ∧ NoLol x ∧ Locked x) then EntersRecover s t p x
  else if x.st = .recover then RecoverMoves s t p x
  else t = { s with port := s.port.set p { x with st := trainedTo x } }

/-- A receive lane of a port changed. -/
abbrev laneSet (x : Port) (l : Fin 2) (r : RxLane) : Port := { x with lane := x.lane.set l r }

/-- LOS_SET and LOS_CLEAR (R427): the lane's LOS, and what the port may do with it. -/
def losSet : Prop := ∀ (p : Fin 4) (l : Fin 2) (s : State),
  Runs (.losSet p l) s fun t => Moves s t p (laneSet s.port[p] l { s.port[p].lane[l] with los := true })

def losClear : Prop := ∀ (p : Fin 4) (l : Fin 2) (s : State),
  Runs (.losClear p l) s fun t => Moves s t p (laneSet s.port[p] l { s.port[p].lane[l] with los := false })

/-- LOL_SET, in EMBEDDED mode, and LOL_CLEAR (R427): the lane's LOL, and what the port may do with it. -/
def lolSet : Prop := ∀ (p : Fin 4) (l : Fin 2) (s : State),
  Runs (.lolSet p l) s fun t => if s.port[p].rxEmb = true then
    Moves s t p (laneSet s.port[p] l { s.port[p].lane[l] with lol := true }) else t = s

def lolClear : Prop := ∀ (p : Fin 4) (l : Fin 2) (s : State),
  Runs (.lolClear p l) s fun t => Moves s t p (laneSet s.port[p] l { s.port[p].lane[l] with lol := false })

/-- FCK_DETECTOR (R430): what the detector sees of FCK counts in PROBE alone. -/
def fckDetector : Prop := ∀ (p : Fin 4) (ok : Bool) (s : State),
  Runs (.fckDetector p ok) s fun t =>
    if s.port[p].st = .probe then Moves s t p { s.port[p] with fckOk := ok } else t = s

/-- A lane after a sync header (R428): 64 consecutive valid headers set BLK, 32 invalid ones of a window of 1,024 clear it. -/
abbrev headed (r : RxLane) (valid : Bool) : RxLane :=
  if r.blk = false then
    if valid = false then { r with good := 0 }
    else if r.good = 63 then { r with blk := true, good := 0, blocks := 0, bad := 0 } else { r with good := r.good + 1 }
  else if valid = false ∧ r.bad = 31 then { r with blk := false, good := 0, blocks := 0, bad := 0, alignAt := none }
  else if r.blocks = 1023 then { r with blocks := 0, bad := 0 }
  else { r with blocks := r.blocks + 1, bad := r.bad + if valid then 0 else 1 }

/-- A block towards the receiver's change to EMBEDDED, which the blocks of lane 0 count from the HELLO's SOF on; both lanes then
lose their locks (R432). -/
abbrev towardsEmbedded (x : Port) : Port :=
  if (x.st = .handshake ∨ x.st = .switch ∨ x.st = .recover) ∧ x.rxEmb = false ∧ x.swRx ≠ 0 then
    if x.swRx = 1 then { x with swRx := 0, rxEmb := true, lane := freshLanes x true } else { x with swRx := x.swRx - 1 }
  else x

/-- The types of control blocks (R433). -/
abbrev listedTypes : List Byte := [0x1E, 0x33, 0x4B, 0x2D, 0x66, 0x55, 0x78]

/-- RX_BLOCK (R428, R433): an invalid header, or a control block of no listed type, counts in ERRCNT.HDR; then the lane's lock
follows. -/
def rxBlock : Prop := ∀ (p : Fin 4) (l : Fin 2) (hdr : BitVec 2) (btype : Byte) (s : State),
  (s.port[p].lane[l].blk = true → s.port[p].lane[l].bad ≤ 31) →
  Runs (.rxBlock p l hdr btype) s fun t =>
    let x := s.port[p]
    let valid : Bool := hdr == 1 || hdr == 2
    let y := laneSet x l (headed x.lane[l] valid)
    ∃ w, (if valid = false ∨ hdr = 2 ∧ btype ∉ listedTypes then
        w.rd (fClErrcnt_HDR p) = min (s.rd (fClErrcnt_HDR p) + 1) 65535 ∧ OnlyFlds s w [fClErrcnt_HDR p] ∧ w = { s with regs := w.regs }
      else w = s) ∧ Moves w t p (if l = 0 then towardsEmbedded y else y)

/-- TRAIN (R435): in ACTIVE and RECOVER, PROBE for attempt 1. -/
def train : Prop := ∀ (p : Fin 4) (l : Fin 2) (s : State), Present s p →
  Runs (.train p l) s fun t =>
    if s.port[p].st = .active ∨ s.port[p].st = .recover then
      Probes s t p false 0 ∧ OnlyFlds s t (trainFlds p) ∧
      t = { s with regs := t.regs, ready := t.ready, wasReady := t.wasReady, port := t.port, bist := t.bist, out := t.out }
    else t = s

/-- ALIGN (R429): a lane in lock takes the block slot at which it came, unless the port is out of use. -/
def align : Prop := ∀ (p : Fin 4) (l : Fin 2) (block : Nat) (s : State),
  Runs (.align p l block) s fun t =>
    if s.port[p].st = .disabled ∨ s.port[p].st = .down ∨ s.port[p].st = .loopback ∨ s.port[p].lane[l].blk = false then t = s
    else Moves s t p (laneSet s.port[p] l { s.port[p].lane[l] with alignAt := some block })

/-- The lanes are deskewed (R429) once ALIGN came on both and, the sender putting both in one of every 16,384 slots, their slots differ
by at most 16 blocks. -/
def deskewed : Prop := ∀ (x : Port) (a b : Nat), (x.lane[(0 : Fin 2)].alignAt = none ∨ x.lane[(1 : Fin 2)].alignAt = none → x.deskew = false) ∧
  (x.lane[(0 : Fin 2)].alignAt = some a → x.lane[(1 : Fin 2)].alignAt = some b →
    (x.deskew = true ↔ ∃ d : Int, -16 ≤ d ∧ d ≤ 16 ∧ ((a : Int) - b - d) % 16384 = 0))

/-- ALIGN_TX (R429, R430): a port whose transmitters do not idle sends ALIGN; in LOOPBACK nothing leaves it. -/
def alignTx : Prop := ∀ (p : Fin 4) (s : State),
  Runs (.alignTx p) s fun t =>
    if s.port[p].st = .disabled ∨ s.port[p].st = .down ∨ s.port[p].st = .loopback then t = s
    else t = { s with out := s.out ++ [.clAlign p] }

/-- A HELLO frame of the port, announcing a block count. -/
abbrev helloOf (s : State) (p : Fin 4) (swdly : Nat) : OutEvent :=
  .clFrame p ⟨0, 0, s.enum.index, false, false,
    .hello 1 (s.rd (fClCtrl_MODE p) == 1) s.port[p].helloAny (s.rd (fClCtrl_FCKDIR p) == 1) swdly Config.serial⟩

/-- HELLO_TIMER (R430, R432): SWDLY is 0 until the 8 HELLOs are in, then from 512 to 65,536, once. -/
def helloTimer : Prop := ∀ (p : Fin 4) (s : State),
  Runs (.helloTimer p) s fun t =>
    if s.port[p].st = .handshake then t = { s with out := s.out ++ [helloOf s p 0] }
    else if s.port[p].st = .switch ∧ s.port[p].swTx = 0 then
      512 ≤ t.port[p].swTx ∧ t.port[p].swTx ≤ 65536 ∧
      t = { s with
        port := s.port.set p { s.port[p] with swTx := t.port[p].swTx }, free := t.free
        out := s.out ++ [helloOf s p t.port[p].swTx] }
    else t = s

/-- A failed attempt (R431): REASON, ATTEMPT, and the next attempt; after the third failure in a row, and after a retry from
DOWN, the port goes DOWN and sets DOWNEV. -/
abbrev AttemptFails (s t : State) (p : Fin 4) (reason : Nat) : Prop :=
  t.rd (fClStat_REASON p) = reason ∧
  (if s.port[p].single = true ∨ 2 ≤ s.rd (fClStat_ATTEMPT p) then
    OutOfService s t p .down false ∧ t.rd (fClStat_ATTEMPT p) = min (s.rd (fClStat_ATTEMPT p) + 1) 3 ∧
    t.rd (fClStat_DOWNEV p) = 1 ∧ t.bist = s.bist ∧ t.out = s.out ∧
    OnlyFlds s t [fClStat_REASON p, fClStat_ATTEMPT p, fClDropcnt_TXDROP p, fClStat_DOWNEV p]
  else Probes s t p false (s.rd (fClStat_ATTEMPT p) + 1) ∧ OnlyFlds s t (fClStat_REASON p :: trainFlds p)) ∧
  t = { s with regs := t.regs, ready := t.ready, wasReady := t.wasReady, port := t.port, bist := t.bist, out := t.out }

/-- HELLO (R431, R432): VERSION, SELF and FCK_CONFLICT fail the attempt at once; the eighth in a row that reports RXOK = 1 leads
to SWITCH; in ACTIVE it only counts. -/
def hello : Prop := ∀ (p : Fin 4) (version : Byte) (trusted rxok drive : Bool) (swdly : Nat) (serial : DWord) (s : State), Present s p →
  Runs (.hello p version trusted rxok drive swdly serial) s fun t =>
    let x := s.port[p]
    if x.st = .active then
      t.rd (fClErrcnt_HDR p) = min (s.rd (fClErrcnt_HDR p) + 1) 65535 ∧ OnlyFlds s t [fClErrcnt_HDR p] ∧
      t = { s with regs := t.regs }
    else if x.st = .handshake ∨ x.st = .switch then
      if version ≠ 1 then AttemptFails s t p 7
      else if serial = Config.serial then AttemptFails s t p 8
      else if drive = true ∧ s.rd (fClCtrl_FCKDIR p) = 1 then AttemptFails s t p 3
      else t = { s with port := s.port.set p { x with
        helloAny := true, helloRun := if rxok then min (x.helloRun + 1) 8 else 0
        swRx := if swdly = 0 then x.swRx else swdly
        st := if rxok = true ∧ 7 ≤ x.helloRun then .switch else x.st } }
    else t = s

/-- TX_EMBEDDED_CHANGE (R432, R436): in SWITCH and RECOVER, once SWDLY is announced, the transmitter is EMBEDDED. -/
def txEmbeddedChange : Prop := ∀ (p : Fin 4) (s : State),
  Runs (.txEmbeddedChange p) s fun t =>
    if (s.port[p].st = .switch ∨ s.port[p].st = .recover) ∧ s.port[p].swTx ≠ 0 then
      Moves s t p { s.port[p] with txEmb := true }
    else t = s

/-- Whether a port sends frames and is sent frames: its role, if it has one, is of the current generation (R447). -/
abbrev RoleHolds (s : State) (p : Fin 4) : Prop :=
  s.port[p].st = .measure ∨ s.port[p].roleGen = none ∨ s.port[p].roleGen = some s.enum.gen

/-- RECOVER in RECOVER: RDY and SWDLY are noted; an ACTIVE port enters RECOVER first (R436). -/
def recover : Prop := ∀ (p : Fin 4) (rdy : Bool) (swdly : Nat) (s : State),
  Runs (.recover p rdy swdly) s fun t =>
    if s.port[p].st = .active then
      t.port = s.port.set p { s.port[p] with
        st := .recover, txEmb := false, rxEmb := false, swTx := 0, swRx := swdly, rdySent := false
        rdySeen := rdy, resends := 0, lane := freshLanes s.port[p] false } ∧
      t.rd (fClLinkcnt_RECOVER p) = min (s.rd (fClLinkcnt_RECOVER p) + 1) 65535 ∧ ClShown s t p false ∧
      t.out = s.out ++ [.clRecover p false 0] ∧ OnlyFlds s t [fClLinkcnt_RECOVER p] ∧
      t = { s with regs := t.regs, ready := t.ready, wasReady := t.wasReady, port := t.port, out := t.out }
    else if s.port[p].st = .recover then RecoverMoves s t p { s.port[p] with
      rdySeen := s.port[p].rdySeen || rdy, swRx := if swdly = 0 then s.port[p].swRx else swdly }
    else t = s

/-- ATTEMPT_TIMEOUT (R431): the reason is what the attempt still lacks. -/
def attemptTimeout : Prop := ∀ (p : Fin 4) (s : State), Present s p →
  Runs (.attemptTimeout p) s fun t =>
    let x := s.port[p]
    if x.st = .switch then AttemptFails s t p 9
    else if x.st = .measure then AttemptFails s t p 10
    else if x.st = .probe ∨ x.st = .align ∨ x.st = .handshake then
      AttemptFails s t p
        (if ¬ NoLos x then 1
        else if x.st = .probe then (if s.rd (fClCtrl_FCKDIR p) = 1 then 3 else 2)
        else if ¬ Locked x then 4
        else if x.deskew = false then 5 else 6)
    else t = s

/-- SWITCH_TIMEOUT and MEASURE_EXCHANGE_TIMEOUT (R430, R431, R459): the attempt fails in SWITCH, or in MEASURE with an exchange
open. -/
def switchTimeout : Prop := ∀ (p : Fin 4) (s : State), Present s p →
  Runs (.switchTimeout p) s fun t => if s.port[p].st = .switch then AttemptFails s t p 9 else t = s

def measureExchangeTimeout : Prop := ∀ (p : Fin 4) (s : State), Present s p →
  Runs (.measureExchangeTimeout p) s fun t => if s.port[p].st = .measure ∧ s.port[p].exch ≠ [] then AttemptFails s t p 10 else t = s

/-- DOWN_RETRY (R430, R431): a port in DOWN makes a single attempt. -/
def downRetry : Prop := ∀ (p : Fin 4) (s : State), Present s p →
  Runs (.downRetry p) s fun t =>
    if s.port[p].st = .down then
      Probes s t p true (s.rd (fClStat_ATTEMPT p)) ∧ OnlyFlds s t (trainFlds p) ∧
      t = { s with regs := t.regs, ready := t.ready, wasReady := t.wasReady, port := t.port, bist := t.bist, out := t.out }
    else t = s

/-- RECOVER_TIMEOUT (R436): RECOVER ends in PROBE, attempt 1. -/
def recoverTimeout : Prop := ∀ (p : Fin 4) (s : State), Present s p →
  Runs (.recoverTimeout p) s fun t =>
    if s.port[p].st = .recover then
      Probes s t p false 0 ∧ OnlyFlds s t (trainFlds p) ∧
      t = { s with regs := t.regs, ready := t.ready, wasReady := t.wasReady, port := t.port, bist := t.bist, out := t.out }
    else t = s

/-! ### Sequence numbers and replay (R434, R435) -/

/-- A frame on its way with the next sequence number, kept in the replay buffer as it would be sent again. -/
abbrev Transmitted (s t : State) (p : Fin 4) (f : Frame) (x : Port) : Prop :=
  let g := { f with seq := s.port[p].txseq }
  ∃ ball, LeavesAt s p ball ∧ t = { s with
    port := s.port.set p ({ x with txseq := s.port[p].txseq + 1, sent := s.port[p].sent ++ [g] }.departs g ball)
    out := s.out ++ [.clFrame p (g.stamped ball)], free := t.free }

/-- TX_FRAME (R434, R435, R437): in ACTIVE, with fewer than 256 frames outstanding; the oldest urgent frame first, then the
oldest of the others, the summary last. -/
def txFrame : Prop := ∀ (p : Fin 4) (a b : List Frame) (f : Frame) (s : State), s.port[p].wait = a ++ f :: b → f ∉ a →
  s.port[p].st = .active → s.port[p].sent.length < 256 → RoleHolds s p →
  ((f.urg = true ∧ ∀ g ∈ a, g.urg = false) ∨ (a = [] ∧ ∀ g ∈ s.port[p].wait, g.urg = false)) →
  Runs (.txFrame p) s fun t => Transmitted s t p f { s.port[p] with wait := a ++ b }

def txSummary : Prop := ∀ (p : Fin 4) (f : Frame) (s : State), s.port[p].wait = [] → s.port[p].sum = some f →
  s.port[p].st = .active → s.port[p].sent.length < 256 → RoleHolds s p →
  Runs (.txFrame p) s fun t => Transmitted s t p f { s.port[p] with sum := none }

/-- On a port whose role is of an older generation frames of kind ENUM alone leave, urgent ones first (R447); log entry 62 is the model's
reading of it. -/
def txEnum : Prop := ∀ (p : Fin 4) (a b : List Frame) (f : Frame) (s : State), s.port[p].wait = a ++ f :: b →
  s.port[p].st = .active → s.port[p].sent.length < 256 → ¬ RoleHolds s p → f.load.kind = 2 → f ∉ a →
  ((f.urg = true ∧ ∀ g ∈ a, g.load.kind = 2 → g.urg = false) ∨
    ((∀ g ∈ a, g.load.kind ≠ 2) ∧ ∀ g ∈ s.port[p].wait, g.load.kind = 2 → g.urg = false)) →
  Runs (.txFrame p) s fun t => Transmitted s t p f { s.port[p] with wait := a ++ b }

/-- Elsewhere no frame goes; in ACTIVE an IDLE block goes with 256 frames outstanding, with nothing to send, and, on a port whose role is
of an older generation, with no ENUM frame to send (R433, R435, R447); what such a port holds is the model's reading (log entry 62). -/
def txNothing : Prop := ∀ (p : Fin 4) (s : State),
  (s.port[p].st ≠ .active ∨ 256 ≤ s.port[p].sent.length ∨ s.port[p].wait = [] ∧ s.port[p].sum = none ∨
    ¬ RoleHolds s p ∧ ∀ f ∈ s.port[p].wait, f.load.kind ≠ 2) →
  Runs (.txFrame p) s fun t => if s.port[p].st = .active then t = { s with out := s.out ++ [.clIdle p] } else t = s

/-- Whether a port exchanges sequenced frames. -/
abbrev Exchanges (x : Port) : Prop := x.st = .active ∨ x.st = .measure

/-- What a port puts on its lanes (R433): the bytes of IDLE, TRAIN, ALIGN, ACK, NAK and RECOVER blocks; TRAIN names the lane and the state
PROBE, RECOVER its RDY and SWDLY; their CRC-8 is that of log entry 54, presumed. -/
def controlBlocks : Prop := ∀ (p : Fin 4) (seq : BitVec 12) (rdy : Bool) (swdly : Nat), swdly < 2 ^ 24 →
  let body : List Byte := [seq.setWidth 8, (seq >>> 8).setWidth 8]
  let check : Byte := BitVec.ofNat 8 (crc8 body)
  let both := fun (b : Nat → List Byte) => [(some 0, true, b 0), (some 1, true, b 1)]
  (OutEvent.clIdle p).blocks = both (fun _ => [0x1E, 0, 0, 0, 0, 0, 0, 0]) ∧
  (OutEvent.clTrain p).blocks = both (fun l => [0x33, BitVec.ofNat 8 l, 1, 0, 0, 0, 0, 0]) ∧
  (OutEvent.clAlign p).blocks = both (fun l => [0x4B, BitVec.ofNat 8 l, 0, 0, 0, 0, 0, 0]) ∧
  (OutEvent.clAck p seq).blocks = [(none, true, 0x2D :: body ++ [check, 0, 0, 0, 0])] ∧
  (OutEvent.clNak p seq).blocks = [(none, true, 0x66 :: body ++ [check, 0, 0, 0, 0])] ∧
  (OutEvent.clRecover p rdy swdly).blocks = both (fun _ => [0x55, if rdy then 1 else 0, BitVec.ofNat 8 swdly,
    BitVec.ofNat 8 (swdly / 256), BitVec.ofNat 8 (swdly / 65536), 0, 0, 0])

/-- The payload blocks of a frame of a kind (R434); a time message has one more than the link-delay request. -/
abbrev kindLen (l : Payload) : Nat :=
  match l.kind with
  | 0x20 => 6
  | 0x30 | 0x31 | 0x32 => 1
  | 0x11 => match l with | .sync .. => 4 | .late .. => 1 | _ => 2
  | _ => 2

/-- A frame on the wire (R434, R439): the SOF block with KIND, SEQ, LEN, DST, SRC, BCAST and URG, the payload, a tail with the CRC-32C
over all of it; block i travels on lane i mod 2; that CRC and FIN's overflow bit are those of log entry 54, presumed. -/
def frameBlocks : Prop := ∀ (p : Fin 4) (f : Frame),
  let b := (OutEvent.clFrame p f).blocks
  let n := f.load.len
  b.length = n + 2 ∧ n = kindLen f.load ∧ f.load.bytes.length = 8 * n ∧
  (∀ i, ∀ x, b[i]? = some x → x.1 = some (i % 2) ∧ x.2.1 = (i == 0) ∧ x.2.2.length = 8) ∧
  (∃ head, b[0]? = some (some 0, true, 0x78 :: head) ∧
    leNat head = f.load.kind + 2 ^ 8 * f.seq.toNat + 2 ^ 20 * n + 2 ^ 24 * f.dst.toNat + 2 ^ 40 * f.src.toNat +
      (if f.bcast then 2 ^ 52 else 0) + (if f.urg then 2 ^ 53 else 0) ∧
    (b[n + 1]?).map (·.2.2) = some (leBytes 4 (crc32c (head ++ f.load.bytes)).toNat ++ [0, 0, 0, 0])) ∧
  ((b.drop 1).take n).flatMap (·.2.2) = f.load.bytes

/-- The CRC-8 of the ACK and NAK blocks over their two body bytes (R433). -/
abbrev bodyCrc (body : BitVec 16) : Nat := crc8 [body.setWidth 8, (body >>> 8).setWidth 8]

/-- ACK (R433, R435): every outstanding frame up to and including the one named goes; its check is the CRC-8 of log entry 54, presumed. -/
def ack : Prop := ∀ (p : Fin 4) (body : BitVec 16) (crc : Byte) (a b : List Frame) (f : Frame) (s : State), s.port[p].sent = a ++ f :: b →
  (∀ g ∈ a, g.seq ≠ f.seq) → Exchanges s.port[p] → crc.toNat = bodyCrc body → f.seq = body.setWidth 12 →
  Runs (.ack p body crc) s fun t => t = { s with port := s.port.set p { s.port[p] with sent := b, resends := 0 } }

/-- An ACK whose check fails, or that names no outstanding frame, does nothing; so does a NAK (R433, R435); the check is that of log entry
54, presumed. -/
def ackIgnored : Prop := ∀ (p : Fin 4) (body : BitVec 16) (crc : Byte) (s : State),
  (crc.toNat ≠ bodyCrc body ∨ ¬ Exchanges s.port[p] ∨ ∀ g ∈ s.port[p].sent, g.seq ≠ body.setWidth 12) →
  Runs (.ack p body crc) s (fun t => t = s) ∧
  ((crc.toNat = bodyCrc body → Exchanges s.port[p] → body.setWidth 12 ≠ s.port[p].txseq) → Runs (.nak p body crc) s fun t => t = s)

/-- A resend of the outstanding frames, which counts as fruitless until something is freed; after four the port enters RECOVER,
from ACTIVE (R435, R436). x is the port with what the resend follows on. -/
abbrev ResentOrRecovers (s t : State) (p : Fin 4) (x : Port) : Prop :=
  if x.resends < 4 then Resent s t p x.sent [] { x with resends := x.resends + 1 } ∧ OnlyFlds s t [fClLinkcnt_REPLAY p] ∧
    t = { s with regs := t.regs, out := t.out, free := t.free, port := t.port }
  else if x.st = .active then EntersRecover s t p x
  else t = { s with port := s.port.set p x }

/-- NAK (R435): the frames before the one named go, and those from it on are sent again; one that names the next frame to
send frees every frame. -/
def nak : Prop := ∀ (p : Fin 4) (body : BitVec 16) (crc : Byte) (a b : List Frame) (f : Frame) (s : State), s.port[p].sent = a ++ f :: b →
  (∀ g ∈ a, g.seq ≠ f.seq) → f.seq ≠ s.port[p].txseq → Exchanges s.port[p] → crc.toNat = bodyCrc body → f.seq = body.setWidth 12 →
  Runs (.nak p body crc) s fun t =>
    ResentOrRecovers s t p { s.port[p] with sent := f :: b, resends := if a = [] then s.port[p].resends else 0 }

def nakAll : Prop := ∀ (p : Fin 4) (body : BitVec 16) (crc : Byte) (s : State), Exchanges s.port[p] → crc.toNat = bodyCrc body →
  body.setWidth 12 = s.port[p].txseq →
  Runs (.nak p body crc) s fun t => t = { s with port := s.port.set p { s.port[p] with
    sent := [], resends := if s.port[p].sent = [] then s.port[p].resends else 0 } }

/-- REPLAY_TIMEOUT (R435): outstanding frames are sent again, or the port enters RECOVER after too many times without progress. -/
def replayTimeout : Prop := ∀ (p : Fin 4) (s : State),
  Runs (.replayTimeout p) s fun t =>
    if Exchanges s.port[p] ∧ s.port[p].sent ≠ [] then ResentOrRecovers s t p s.port[p] else t = s

/-- ACK_TIMER (R435): the ACK names the last frame accepted. -/
def ackTimer : Prop := ∀ (p : Fin 4) (s : State),
  Runs (.ackTimer p) s fun t =>
    if Exchanges s.port[p] ∧ s.port[p].unacked ≠ 0 then
      t = { s with port := s.port.set p { s.port[p] with unacked := 0 }, out := s.out ++ [.clAck p (s.port[p].rxseq - 1)] }
    else t = s

/-- FRAME_CRC_ERROR (R430, R435, R451): counted, whatever the port does; one NAK until a good frame arrives; in HANDSHAKE it breaks the
run of HELLOs. -/
def frameCrcError : Prop := ∀ (p : Fin 4) (s : State),
  Runs (.frameCrcError p) s fun t =>
    let x := s.port[p]
    t.rd (fClErrcnt_CRC p) = min (s.rd (fClErrcnt_CRC p) + 1) 65535 ∧ OnlyFlds s t [fClErrcnt_CRC p] ∧
    t = { s with
      regs := t.regs
      port := s.port.set p (if x.st = .handshake then { x with helloRun := 0 } else if Exchanges x then { x with nakSent := true } else x)
      out := s.out ++ if Exchanges x ∧ x.nakSent = false then [.clNak p x.rxseq] else [] }

/-- PEER_BUCKET_REFILL (R441): one token, never beyond BURST. -/
def peerBucketRefill : Prop := ∀ (p : Fin 4) (k : Fin 3) (s : State),
  Runs (.peerBucketRefill p k) s fun t => t = { s with port := s.port.set p { s.port[p] with
    tokens := s.port[p].tokens.set k (min (s.port[p].tokens[k] + 1)
      (s.rd (if k = 0 then fClPeerlim0_BURST p else if k = 1 then fClPeerlim1_BURST p else fClPeerlim2_BURST p))) } }

/-! ### Control (R430, R431, R448) -/

/-- A write of CTRL that would change MODE, FCKDIR or LOOPBACK outside DISABLED and DOWN, but for LOOPBACK cleared in LOOPBACK
(R449). -/
abbrev CtrlBarred (s : State) (p : Fin 4) (v : Word) : Prop :=
  s.port[p].st ≠ .disabled ∧ s.port[p].st ≠ .down ∧
  (b2n (v.getLsbD 25) ≠ s.rd (fClCtrl_MODE p) ∨ b2n (v.getLsbD 24) ≠ s.rd (fClCtrl_FCKDIR p) ∨
    (b2n (v.getLsbD 29) ≠ s.rd (fClCtrl_LOOPBACK p) ∧ ¬ (s.port[p].st = .loopback ∧ v.getLsbD 29 = false)))

/-- The fields of CL.PORT[p].CTRL after a write that is not refused, and what it may touch. -/
abbrev CtrlTaken (s t : State) (ini : Initiator) (p : Fin 4) (v : Word) : Prop :=
  t.rd (fClCtrl_EN p) = b2n (v.getLsbD 31) ∧ t.rd (fClCtrl_SUMEN p) = b2n (v.getLsbD 28) ∧
  t.rd (fClCtrl_MODE p) = b2n (v.getLsbD 25) ∧ t.rd (fClCtrl_FCKDIR p) = b2n (v.getLsbD 24) ∧
  t.rd (fClCtrl_LOOPBACK p) = b2n (v.getLsbD 29) ∧
  t.rd (fClCtrl_RETRY p) = (if 1 ≤ bitsOf v.toNat 0 16 ∧ bitsOf v.toNat 0 16 ≤ 60000 then bitsOf v.toNat 0 16 else 100) ∧
  OnlyFlds s t (wordFld (aClCtrl p) :: fClStat_REASON p :: trainFlds p ++ accFlds (copyOf ini)) ∧
  t = { s with regs := t.regs, ready := t.ready, wasReady := t.wasReady, port := t.port, bist := t.bist, out := t.out }

/-- A port taken out of service by CTRL. -/
abbrev Stopped (s t : State) (p : Fin 4) (st : PortState) : Prop :=
  OutOfService s t p st false ∧ t.bist = s.bist ∧ t.out = s.out ∧ t.rd (fClStat_ATTEMPT p) = s.rd (fClStat_ATTEMPT p)

/-- The port itself and what shows of it are as before. -/
abbrev PortKept (s t : State) (p : Fin 4) : Prop :=
  t.port = s.port ∧ t.ready = s.ready ∧ t.bist = s.bist ∧ t.out = s.out ∧ t.rd (fClStat_ATTEMPT p) = s.rd (fClStat_ATTEMPT p) ∧
  t.rd (fClStat_REASON p) = s.rd (fClStat_REASON p) ∧ t.rd (fClDropcnt_TXDROP p) = s.rd (fClDropcnt_TXDROP p)

/-- In training. -/
abbrev Training (x : Port) : Prop :=
  x.st = .probe ∨ x.st = .align ∨ x.st = .handshake ∨ x.st = .switch ∨ x.st = .measure

/-- CL_ENABLE (R430, R448, R449): a DISABLED port begins attempt 1, or loops back; a barred change refuses the whole write. -/
def clEnable : Prop := ∀ (ini : Initiator) (p : Fin 4) (v : Word) (s : State), Reaches s ini .clCtrl [p] →
  Present s p → v.getLsbD 31 = true → v.getLsbD 30 = false →
  Runs (.clEnable ini p v) s fun t =>
    if CtrlBarred s p v then Flagged s t ini .busy (aClCtrl p)
    else CtrlTaken s t ini p v ∧
      if s.port[p].st = .loopback ∧ v.getLsbD 29 = false then Stopped s t p .disabled
      else if (s.port[p].st = .disabled ∨ s.port[p].st = .down) ∧ v.getLsbD 29 = true then Stopped s t p .loopback
      else if s.port[p].st = .disabled then Probes s t p false 0 ∧ t.rd (fClStat_REASON p) = s.rd (fClStat_REASON p)
      else PortKept s t p

/-- CL_DISABLE (R430, R431, R436, R449): DISABLED at once; ADMIN during an attempt and during RECOVER. -/
def clDisable : Prop := ∀ (ini : Initiator) (p : Fin 4) (v : Word) (s : State), Reaches s ini .clCtrl [p] →
  v.getLsbD 31 = false →
  Runs (.clDisable ini p v) s fun t =>
    if CtrlBarred s p v then Flagged s t ini .busy (aClCtrl p)
    else CtrlTaken s t ini p v ∧
      if s.port[p].st = .disabled then PortKept s t p
      else Stopped s t p .disabled ∧
        t.rd (fClStat_REASON p) = if Training s.port[p] ∨ s.port[p].st = .recover then 11 else s.rd (fClStat_REASON p)

/-- LRST (R448, R449): replay buffer and waiting frames discarded, sequence numbers 0, attempt 1. -/
def lrst : Prop := ∀ (ini : Initiator) (p : Fin 4) (v : Word) (s : State), Reaches s ini .clCtrl [p] →
  Present s p → v.getLsbD 31 = true → v.getLsbD 30 = true → v.getLsbD 29 = false → s.port[p].st ≠ .loopback →
  Runs (.lrst ini p v) s fun t =>
    if CtrlBarred s p v then Flagged s t ini .busy (aClCtrl p)
    else CtrlTaken s t ini p v ∧ Probes s t p false 0 ∧
      t.rd (fClStat_REASON p) = if Training s.port[p] then 11 else s.rd (fClStat_REASON p)

/-! ## Clothesline frames: acceptance, summaries, remote accesses, enumeration (spec/12 R435, R438 to R447) -/

/-- The size of a PEER bucket. -/
abbrev bucketOf (s : State) (p : Fin 4) (k : Fin 3) : Nat :=
  s.rd (if k = 0 then fClPeerlim0_BURST p else if k = 1 then fClPeerlim1_BURST p else fClPeerlim2_BURST p)

/-- The commands that are a received frame: port, header, and the PEER bucket of the kind, none for a violation (R440). -/
def received (c : Instr) : Option (Fin 4 × Hdr × Option (Fin 3)) :=
  match c with
  | .trig p h .. => some (p, h, some 0)
  | .sync p h .. | .dreq p h .. | .dresp p h .. | .late p h .. => some (p, h, some 1)
  | .summary p h .. => some (p, h, some 2)
  | .discover p h .. | .join p h .. | .alt p h .. | .report p h .. | .fin p h .. | .assign p h .. | .doneEnum p h ..
  | .change p h .. | .adopt p h .. | .regrd p h .. | .regwr p h .. | .regrsp p h .. => some (p, h, none)
  | _ => none

/-- The frame that the link expects next. -/
abbrev InOrder (s : State) (p : Fin 4) (h : Hdr) : Prop := Exchanges s.port[p] ∧ h.seq = s.port[p].rxseq

/-- Let through: TRUSTED, or within the bucket of its kind (R440, R441). -/
abbrev Passes (s : State) (p : Fin 4) (h : Hdr) (b : Option (Fin 3)) : Prop :=
  InOrder s p h ∧ (s.rd (fClCtrl_MODE p) = 1 ∨
    ∃ k : Fin 3, b = some k ∧ 1 ≤ s.port[p].tokens[k] ∧ 1 ≤ bucketOf s p k)

/-- Accepted: let through, on a port whose role, if it has one, is of the current generation (R447); a frame of kind ENUM on a
port in ACTIVE (R444). -/
abbrev Accepts (s : State) (p : Fin 4) (h : Hdr) (b : Option (Fin 3)) : Prop := Passes s p h b ∧ RoleHolds s p
abbrev AcceptsEnum (s : State) (p : Fin 4) (h : Hdr) : Prop := Passes s p h none ∧ s.port[p].st = .active

/-- The commands that are a received frame of kind ENUM. -/
def isEnumFrame (c : Instr) : Bool :=
  match c with
  | .discover .. | .join .. | .alt .. | .report .. | .fin .. | .assign .. | .doneEnum .. | .change .. | .adopt .. => true
  | _ => false

/-- The link has taken a frame: RXSEQ rises, an ACK goes with the 32nd unacknowledged frame (R435); a PEER port's bucket holds
one token less. -/
abbrev linkTook (s : State) (p : Fin 4) (b : Option (Fin 3)) : State :=
  let x := s.port[p]
  { s with
    port := s.port.set p { x with
      nakSent := false, rxseq := x.rxseq + 1, unacked := if 31 ≤ x.unacked then 0 else x.unacked + 1
      tokens := match b with
        | some k => if s.rd (fClCtrl_MODE p) = 1 then x.tokens
          else x.tokens.set k (min x.tokens[k] (bucketOf s p k) - 1)
        | none => x.tokens }
    out := s.out ++ if 31 ≤ x.unacked then [.clAck p x.rxseq] else [] }

/-- A frame out of sequence (R435): NAK for one that is ahead, ACK for one already taken; none outside ACTIVE and MEASURE. -/
def frameOutOfOrder : Prop := ∀ (c : Instr) (p : Fin 4) (h : Hdr) (b : Option (Fin 3)) (s : State),
  received c = some (p, h, b) → ¬ InOrder s p h →
  Runs c s fun t =>
    if Exchanges s.port[p] then t = { s with
      port := s.port.set p { s.port[p] with nakSent := false }
      out := s.out ++ [if (h.seq - s.port[p].rxseq).toNat ≤ 2047 then .clNak p s.port[p].rxseq
        else .clAck p (s.port[p].rxseq - 1)] }
    else t = s

/-- A frame that a PEER port drops (R440, R441): acknowledged all the same and counted; a kind that it does not accept is a
violation, reported to Hamper. -/
def framePeerDropped : Prop := ∀ (c : Instr) (p : Fin 4) (h : Hdr) (b : Option (Fin 3)) (s : State),
  received c = some (p, h, b) → InOrder s p h → ¬ Passes s p h b →
  Runs c s fun t => ∃ w ∈ [linkTook s p none],
    t.rd (fClDropcnt_PEERDROP p) = min (s.rd (fClDropcnt_PEERDROP p) + 1) 65535 ∧
    (b = none → t.rd (fClStat_VIOL p) = 1 ∧
      OnlyFlds s t (fClStat_VIOL p :: fClDropcnt_PEERDROP p :: reportFlds (Config.sourceOf (.port p))) ∧
      t.port = w.port ∧ w.out <+: t.out ∧ t = { s with regs := t.regs, port := t.port, hamper := t.hamper, out := t.out }) ∧
    (b ≠ none → OnlyFlds s t [fClDropcnt_PEERDROP p] ∧ t = { w with regs := t.regs })

/-- A frame let through that the port's state or role keeps from acting does nothing more (R444, R447). -/
def frameUnused : Prop := ∀ (c : Instr) (p : Fin 4) (h : Hdr) (b : Option (Fin 3)) (s : State),
  received c = some (p, h, b) → Passes s p h b →
  (if isEnumFrame c then s.port[p].st ≠ .active else ¬ RoleHolds s p) → Runs c s fun t => t = linkTook s p b

/-- Frames offered to ports, in order: each waits in ACTIVE and RECOVER, and is else discarded and counted (R437). -/
abbrev Offered (s t : State) (l : List (Fin 4 × Frame)) : Prop :=
  ∀ q : Fin 4,
    let fs := (l.filter fun e => e.1 == q).map (·.2)
    if s.port[q].st = .active ∨ s.port[q].st = .recover then
      t.port[q] = { s.port[q] with wait := s.port[q].wait ++ fs } ∧ t.rd (fClDropcnt_TXDROP q) = s.rd (fClDropcnt_TXDROP q)
    else t.port[q] = s.port[q] ∧ t.rd (fClDropcnt_TXDROP q) = if fs = [] then s.rd (fClDropcnt_TXDROP q)
      else min (s.rd (fClDropcnt_TXDROP q) + fs.length) 65535

abbrev dropFlds : List Fld := (List.range 4).map fun q => fClDropcnt_TXDROP q

/-- Frames offered, and nothing else. -/
abbrev OnlyOffered (s t : State) (l : List (Fin 4 × Frame)) : Prop :=
  Offered s t l ∧ OnlyFlds s t dropFlds ∧ t = { s with regs := t.regs, port := t.port }

/-- A port's role is one of the current generation. -/
abbrev Carries (s : State) (q : Fin 4) : Prop := s.enum.valid = true ∧ s.port[q].roleGen = some s.enum.gen

/-- A unicast frame on its way, from the port it came by (R447): down the port whose subtree holds the index, else up; dropped and
counted at the port it would have taken where that port carries no frame or is the one it came by, and for the device's own
index while IVALID = 0. -/
abbrev Routed (s t : State) (from_ : Option (Fin 4)) (f : Frame) : Prop :=
  ((s.downFor f.dst <|> s.enum.up) = none → t = s) ∧
  ∀ q : Fin 4, (s.downFor f.dst <|> s.enum.up) = some q →
    if Carries s q ∧ from_ ≠ some q ∧ ¬ (f.dst = s.enum.index ∧ s.enum.ivalid = false) then OnlyOffered s t [(q, f)]
    else t.rd (fClDropcnt_TXDROP q) = min (s.rd (fClDropcnt_TXDROP q) + 1) 65535 ∧ OnlyFlds s t [fClDropcnt_TXDROP q] ∧
      t = { s with regs := t.regs }

/-- The device's own index. -/
abbrev Mine (s : State) (i : BitVec 12) : Prop := s.enum.ivalid = true ∧ s.enum.index = i

/-- A record of CL.SUMRX (R439): word by word, the payload, SRC at 0x30, the port at 0x32, VALID at 0x33. -/
abbrev IsRecord (r : List Word) (vec : DWord) (map : BitVec 256) (tag slices : Byte) (src : BitVec 12) (p : Fin 4) : Prop :=
  r.length = 16 ∧ r.getD 0 0 = vec.setWidth 32 ∧ r.getD 1 0 = (vec >>> 32).setWidth 32 ∧
  (∀ i : Fin 8, r.getD (2 + i) 0 = (map >>> (32 * i.val)).setWidth 32) ∧
  r.getD 10 0 = (slices ++ tag).setWidth 32 ∧ r.getD 11 0 = 0 ∧
  r.getD 12 0 = (0x80 : Byte) ++ BitVec.ofNat 8 p ++ src.setWidth 16 ∧ r.getD 13 0 = 0 ∧ r.getD 14 0 = 0 ∧ r.getD 15 0 = 0

/-- The ports that a broadcast received on a port goes on to (R447). -/
abbrev onTo (s : State) (p : Fin 4) : List (Fin 4) :=
  (List.finRange 4).filter fun q =>
    (s.enum.valid && s.port[p].roleGen == some s.enum.gen && s.port[q].roleGen == some s.enum.gen) &&
    match s.port[p].role with
    | .up => s.port[q].role == .down
    | .down => s.port[q].role == .up || (s.rd fClEnumctl_ROOT == 1 && s.port[q].role == .down && q != p)
    | _ => false

/-- SUMMARY (R438, R440): routed, or posted by the device it names and from a PEER port whatever its DST; dropped at a full
queue. -/
def summary : Prop := ∀ (p : Fin 4) (h : Hdr) (vec : DWord) (map : BitVec 256) (tag slices : Byte) (s : State),
  Accepts s p h (some 2) → (s.rd (fClCtrl_MODE p) = 1 → h.bcast = false) →
  Runs (.summary p h vec map tag slices) s fun t => ∃ w ∈ [linkTook s p (some 2)],
    if s.rd (fClCtrl_MODE p) = 0 ∨ Mine s h.dst then
      if s.sumrx.length < 16 then
        IsRecord (t.sumrx.getD s.sumrx.length []) vec map tag slices h.src p ∧
        t = { w with sumrx := s.sumrx ++ [t.sumrx.getD s.sumrx.length []] }
      else t.rd fClSumrxstat_DROP = 1 ∧ OnlyFlds s t [fClSumrxstat_DROP] ∧ t = { w with regs := t.regs }
    else Routed w t (some p) ⟨0, h.dst, h.src, h.bcast, false, .summary vec map tag slices⟩

/-- SUMRX_POP (R456): the oldest summary leaves the queue. -/
def sumrxPop : Prop := ∀ (ini : Initiator) (v : Word) (s : State), Reaches s ini .clSumrxpop [] →
  Runs (.sumrxPop ini v) s fun t => t = { s with sumrx := s.sumrx.tail }

/-! ### Remote accesses (R442, R443) -/

/-- The 4-byte-aligned BAR0 offset of a remote access. -/
abbrev bar0 (off : Nat) : Nat := off / 4 * 4 % 0x4000000

/-- The REGRSP. -/
abbrev respOf (s : State) (h : Hdr) (tag : BitVec 6) (off : Nat) (status : BitVec 2) (data : Word) : Frame :=
  ⟨0, h.src, s.enum.index, false, false, .regrsp tag off status data⟩

/-- A request for another device is routed on. -/
def regOther : Prop := ∀ (p : Fin 4) (h : Hdr) (tag : BitVec 6) (off : Nat) (data : Word) (status : BitVec 2) (s : State),
  Accepts s p h none → h.bcast = false → ¬ Mine s h.dst →
  Runs (.regrd p h tag off) s (fun t => Routed (linkTook s p none) t (some p) ⟨0, h.dst, h.src, h.bcast, false, .regrd tag off⟩) ∧
  Runs (.regwr p h tag off data) s (fun t => Routed (linkTook s p none) t (some p)
    ⟨0, h.dst, h.src, h.bcast, false, .regwr tag off data⟩) ∧
  Runs (.regrsp p h tag off status data) s fun t => Routed (linkTook s p none) t (some p)
    ⟨0, h.dst, h.src, h.bcast, false, .regrsp tag off status data⟩

/-- REGRD (R442, R443): what the physical function would read, with OK; the low word of a 64-bit register keeps its high word
for the next read of that (R16). -/
def regrd : Prop := ∀ (p : Fin 4) (h : Hdr) (tag : BitVec 6) (off : Nat) (r : Reg) (ix : List Nat) (s : State),
  Accepts s p h none → h.bcast = false → Mine s h.dst → Reg.find (bar0 off) = some (r, ix, false) → s.sees .remote r ix = true →
  r ≠ .slLoaddone → r ≠ .slAdcres → r ≠ .slTdcres →
  Runs (.regrd p h tag off) s fun t => ∃ w ∈ [linkTook s p none],
    Routed { w with shadow := if r.desc.wide = true then
        s.shadow.set (shadowOf .remote) (some (bar0 off, (w.readVal .remote r ix >>> 32).setWidth 32)) else s.shadow } t none
      (respOf s h tag off 0 ((w.readVal .remote r ix).setWidth 32))

/-- The high word of a 64-bit register, from the shadow that names it (R16). -/
def regrdHigh : Prop := ∀ (p : Fin 4) (h : Hdr) (tag : BitVec 6) (off : Nat) (r : Reg) (ix : List Nat) (v : Word) (s : State),
  Accepts s p h none → h.bcast = false → Mine s h.dst → Reg.find (bar0 off) = some (r, ix, true) → s.sees .remote r ix = true →
  s.shadow[shadowOf .remote] = some (bar0 off - 4, v) → 4 ≤ bar0 off →
  Runs (.regrd p h tag off) s fun t =>
    Routed { linkTook s p none with shadow := s.shadow.set (shadowOf .remote) none } t none (respOf s h tag off 0 v)

/-- An offset that holds no register for a remote requester (R17, R443): UNMAPPED, recorded in copy 8. -/
def regrdUnmapped : Prop := ∀ (p : Fin 4) (h : Hdr) (tag : BitVec 6) (off : Nat) (s : State), Accepts s p h none → h.bcast = false → Mine s h.dst →
  (∀ r ix hi, Reg.find (bar0 off) = some (r, ix, hi) → s.sees .remote r ix = false) →
  Runs (.regrd p h tag off) s fun t =>
    Routed ((linkTook s p none).accErr .remote .unmapped (bar0 off)) t none (respOf s h tag off 2 0)

/-- REGWR (R442, R443): executed as the physical function's write; the answer is OK unless the write broke a rule. -/
def regwr : Prop := ∀ (p : Fin 4) (h : Hdr) (tag : BitVec 6) (off : Nat) (data : Word) (r : Reg) (ix : List Nat) (s : State),
  Accepts s p h none → h.bcast = false → Mine s h.dst → Reg.find (bar0 off) = some (r, ix, false) → r ∈ plainRegs → Reaches s .remote r ix →
  (r.desc.fields.any fun f => fieldRejects (s.regVal r ix) (data.setWidth 64) Part.lo.mask f) = false →
  (∀ q : Fin 4, (s.downFor h.src <|> s.enum.up) = some q → Carries s q ∧ s.port[q].st = .active) →
  Runs (.regwr p h tag off data) s fun t => ∃ w ∈ [linkTook s p none],
    (∀ f ∈ r.desc.fields, bitsOf (t.regVal r ix).toNat f.lo f.w =
      fieldAfter (s.regVal r ix) (data.setWidth 64) Part.lo.mask f) ∧
    OnlyFlds s t [wordFld (bar0 off)] ∧ t = { w with
      regs := t.regs
      port := match s.downFor h.src <|> s.enum.up with
        | some q => w.port.set q { w.port[q] with wait := w.port[q].wait ++ [respOf s h tag off 0 0] }
        | none => w.port }

/-- A REGWR to an offset that holds no register is answered UNMAPPED, one to a register whose function is not ready REFUSED. -/
def regwrUnmapped : Prop := ∀ (p : Fin 4) (h : Hdr) (tag : BitVec 6) (off : Nat) (data : Word) (s : State),
  Accepts s p h none → h.bcast = false → Mine s h.dst → s.power.on = true → Reg.find (bar0 off) = none →
  Runs (.regwr p h tag off data) s fun t =>
    Routed ((linkTook s p none).accErr .remote .unmapped (bar0 off)) t none (respOf s h tag off 2 0)

def regwrRefused : Prop := ∀ (p : Fin 4) (h : Hdr) (tag : BitVec 6) (off : Nat) (data : Word) (r : Reg) (ix : List Nat) (s : State),
  Accepts s p h none → h.bcast = false → Mine s h.dst → s.power.on = true → Reg.find (bar0 off) = some (r, ix, false) →
  s.sees .remote r ix = true → r.desc.exempt = false → s.gateReady r.desc.gate ix = false →
  Runs (.regwr p h tag off data) s fun t =>
    Routed ((linkTook s p none).accErr .remote .notready (bar0 off)) t none (respOf s h tag off 1 0)

/-- REGRSP (R443): it completes the outstanding request that it answers, and is else discarded. -/
def regrsp : Prop := ∀ (p : Fin 4) (h : Hdr) (tag : BitVec 6) (off : Nat) (status : BitVec 2) (data : Word) (s : State),
  Accepts s p h none → h.bcast = false → Mine s h.dst →
  Runs (.regrsp p h tag off status data) s fun t => ∃ w ∈ [linkTook s p none],
    t = { w with remote := match s.remote with
      | some r => if r.res = none ∧ r.dst = h.src ∧ r.tag = tag ∧ r.off = off then
          some { r with res := some (if status = 0 then 0 else if status = 1 then 6 else 7, data) } else some r
      | none => none }

/-- Frames that carry BCAST = 1 (R447): the device that DST names takes one as it takes it unicast, and it goes on over the tree,
whatever DST names. -/
def broadcastFrames : Prop := ∀ (p : Fin 4) (h : Hdr) (vec : DWord) (map : BitVec 256) (x y : Byte) (index : BitVec 12)
  (behind : Int) (tag : BitVec 6) (off : Nat) (status : BitVec 2) (data : Word) (s : State), s.rd (fClCtrl_MODE p) = 1 →
  ∀ e ∈ [(fun h => Instr.summary p h vec map x y, (some 2 : Option (Fin 3)), false, Payload.summary vec map x y),
    (fun h => Instr.late p h x index behind, some 1, true, Payload.late x index behind),
    (fun h => Instr.regrd p h tag off, none, false, Payload.regrd tag off),
    (fun h => Instr.regwr p h tag off data, none, false, Payload.regwr tag off data),
    (fun h => Instr.regrsp p h tag off status data, none, false, Payload.regrsp tag off status data)],
  Accepts s p h e.2.1 → h.bcast = true →
  Runs (e.1 h) s fun t =>
    ∃ u, (if Mine s h.dst then exec (e.1 { h with bcast := false }) s = .next u else u = linkTook s p e.2.1) ∧
      OnlyOffered u t ((onTo u p).map fun q => (q, ⟨0, h.dst, h.src, true, e.2.2.1, e.2.2.2⟩))

/-! ### Enumeration (R444 to R446) -/

/-- An ENUM frame of the device to its neighbour. -/
abbrev enumFrame (index : BitVec 12) (bcast : Bool) (load : Payload) : Frame := ⟨0, 0, index, bcast, false, load⟩

/-- TRUSTED ports in ACTIVE. -/
abbrev treeOf (s : State) : List (Fin 4) :=
  (List.finRange 4).filter fun q => s.rd (fClCtrl_MODE q) == 1 && s.port[q].st == .active

/-- Ports whose role in the current generation is DOWN. -/
abbrev downOf (s : State) : List (Fin 4) :=
  (List.finRange 4).filter fun q => s.enum.valid && s.port[q].roleGen == some s.enum.gen && s.port[q].role == .down

/-- Roles of ports changed. -/
abbrev withRoles (s : State) (f : Fin 4 → Port → Port) : State :=
  { s with port := Vector.ofFn fun (q : Fin 4) => f q s.port[q] }

/-- The root's indices (R445): itself 0, then each report in order of arrival; ASSIGN for each device, then DONE. -/
abbrev RootAssigns (w t : State) : Prop :=
  ∃ r ∈ [giveIndices (w.enum.below.map fun b => (b.2.1, b.2.2)) [(Config.serial, 0)] w.enum.ovf],
    t.rd fClEnumstat_OVERFLOW = (if r.2 then 1 else w.rd fClEnumstat_OVERFLOW) ∧
    Offered w t (((r.1.drop 1).flatMap fun a => (downOf w).map fun q => (q, enumFrame w.enum.index true (.assign w.enum.gen a.1 a.2)))
      ++ (downOf w).map fun q => (q, enumFrame w.enum.index true (.done w.enum.gen))) ∧
    OnlyFlds w t (fClEnumstat_OVERFLOW :: dropFlds) ∧
    t = { w with
      regs := t.regs, port := t.port
      enum := { w.enum with assigned := r.1, isDone := true, finSent := true, devices := r.1.length } }

/-- The subtree complete, no port owing an answer or a FIN: REPORT and FIN go up, or the root gives indices (R445). -/
abbrev Completes (w t : State) : Prop :=
  if w.enum.valid = true ∧ w.enum.pend = [] ∧ w.enum.fin = [] ∧ w.enum.finSent = false then
    if w.rd fClEnumctl_ROOT = 1 then RootAssigns w t
    else (w.enum.up = none → t = w) ∧ ∀ u : Fin 4, w.enum.up = some u →
        Offered w t [(u, enumFrame w.enum.index false (.report w.enum.gen Config.serial (BitVec.ofNat 12 (w.rd fClEnumctl_HINT)))),
          (u, enumFrame w.enum.index false (.fin w.enum.gen (w.enum.count + 1) w.enum.ovf))] ∧
        OnlyFlds w t dropFlds ∧ t = { w with regs := t.regs, port := t.port, enum := { w.enum with finSent := true } }
  else t = w

/-- No two devices get one index, and the reports come in their order (R445). -/
def indicesDistinct : Prop := ∀ (l : List (DWord × BitVec 12)) (ovf : Bool),
  ((giveIndices l [(Config.serial, 0)] ovf).1.map (·.2)).Pairwise (· ≠ ·) ∧
  (giveIndices l [(Config.serial, 0)] ovf).1.head? = some (Config.serial, 0)

/-- A device gets its HINT where that is not 0 and still free, else the lowest free index from 1 (R445). -/
def indexGiven : Prop := ∀ (serial : DWord) (hint : BitVec 12) (given : List (DWord × BitVec 12)) (i : BitVec 12),
  (giveIndices [(serial, hint)] given false).1 = given ++ [(serial, i)] →
  if hint ≠ 0 ∧ hint ∉ given.map (·.2) then i = hint
  else i ≠ 0 ∧ i ∉ given.map (·.2) ∧ ∀ j : BitVec 12, j ≠ 0 → j < i → j ∈ given.map (·.2)

/-- A device of another generation, or of none. -/
abbrev Other (s : State) (gen : Word) : Prop := ¬ (s.enum.valid = true ∧ s.enum.gen = gen)

/-- What a new generation writes: SEARCHES, and RESTART where it meets an unfinished search (R446). -/
abbrev GenCounted (s t : State) : Prop :=
  t.rd fClEnumcnt_SEARCHES = min (s.rd fClEnumcnt_SEARCHES + 1) 65535 ∧
  (t.rd fClEnumstat_RESTART = if s.enum.valid = true ∧ s.enum.isDone = false then 1 else s.rd fClEnumstat_RESTART)

/-- Serial-number arithmetic: generation g is newer than h (R444). -/
abbrev NewerGen (g h : Word) : Prop := 1 ≤ (g - h).toNat ∧ (g - h).toNat ≤ 2 ^ 31 - 1

/-- DISCOVER at the root, and at a device whose generation it is not newer than: ALT (R445). -/
def discoverAlt : Prop := ∀ (p : Fin 4) (h : Hdr) (gen : Word) (depth : Nat) (partnerRoot : Bool) (s : State),
  AcceptsEnum s p h → ¬ (s.enum.valid = true ∧ NewerGen s.enum.gen gen) →
  (s.rd fClEnumctl_ROOT = 1 ∨ s.enum.valid = true ∧ ¬ NewerGen gen s.enum.gen) →
  Runs (.discover p h gen depth partnerRoot) s fun t => ∃ w ∈ [linkTook s p none],
    (t.rd fClEnumstat_CONFLICT = if s.rd fClEnumctl_ROOT = 1 ∧ partnerRoot = true then 1 else s.rd fClEnumstat_CONFLICT) ∧
    Offered w t [(p, enumFrame s.enum.index false (.alt gen))] ∧ OnlyFlds s t (fClEnumstat_CONFLICT :: dropFlds) ∧
    t = { w with regs := t.regs, port := t.port }

/-- A DISCOVER of an older generation is discarded (R444). -/
def discoverStale : Prop := ∀ (p : Fin 4) (h : Hdr) (gen : Word) (depth : Nat) (partnerRoot : Bool) (s : State),
  AcceptsEnum s p h → s.enum.valid = true → NewerGen s.enum.gen gen →
  Runs (.discover p h gen depth partnerRoot) s fun t => t = linkTook s p none

/-- DISCOVER of a generation to adopt (R445, R446): the port becomes UP and gets JOIN; every other TRUSTED ACTIVE port gets
DISCOVER unless the depth is 63; a device without such a port reports up at once. -/
def discover : Prop := ∀ (p : Fin 4) (h : Hdr) (gen : Word) (depth : Nat) (partnerRoot : Bool) (s : State),
  AcceptsEnum s p h → s.rd fClEnumctl_ROOT = 0 → (s.enum.valid = true → NewerGen gen s.enum.gen) →
  Runs (.discover p h gen depth partnerRoot) s fun t =>
    ∃ qs ∈ [if depth < 62 then (treeOf s).filter fun q => q != p else []],
    ∃ w ∈ [withRoles (linkTook s p none) fun q x =>
        if q = p then { x with role := .up, roleGen := some gen } else { x with role := .none }],
      GenCounted s t ∧
      Offered w t ((p, enumFrame 0 false (.join gen)) :: qs.map (fun q => (q, enumFrame 0 false (.discover gen (depth + 1)))) ++
        if qs = [] then [(p, enumFrame 0 false (.report gen Config.serial (BitVec.ofNat 12 (s.rd fClEnumctl_HINT)))),
          (p, enumFrame 0 false (.fin gen 1 (decide (62 ≤ depth))))] else []) ∧
      OnlyFlds s t (fClEnumcnt_SEARCHES :: fClEnumstat_RESTART :: dropFlds) ∧
      t = { w with
        regs := t.regs, port := t.port
        enum := { Enum.reset with
          gen := gen, valid := true, depth := min (depth + 1) 63, up := some p, pend := qs, finSent := decide (qs = [])
          ovf := decide (62 ≤ depth), devices := s.enum.devices } }

/-- A frame of enumeration of another generation does nothing more (R444). -/
def enumOther : Prop := ∀ (p : Fin 4) (h : Hdr) (gen : Word) (serial : DWord) (index : BitVec 12) (n : Nat) (o : Bool) (s : State),
  AcceptsEnum s p h → Other s gen →
  Runs (.join p h gen) s (fun t => t = linkTook s p none) ∧ Runs (.alt p h gen) s (fun t => t = linkTook s p none) ∧
  Runs (.report p h gen serial index) s (fun t => t = linkTook s p none) ∧
  Runs (.fin p h gen n o) s (fun t => t = linkTook s p none) ∧
  Runs (.assign p h gen serial index) s (fun t => t = linkTook s p none) ∧
  Runs (.doneEnum p h gen) s (fun t => t = linkTook s p none) ∧ Runs (.adopt p h gen) s fun t => t = linkTook s p none

/-- JOIN and ALT (R445): the port's role, and its answer is in; after JOIN a FIN is owed. -/
def join : Prop := ∀ (p : Fin 4) (h : Hdr) (gen : Word) (s : State), AcceptsEnum s p h → ¬ Other s gen →
  Runs (.join p h gen) s fun t => ∃ w ∈ [withRoles (linkTook s p none) fun q x =>
      if q = p then { x with role := .down, roleGen := some gen } else x],
    Completes { w with enum := { s.enum with
      pend := s.enum.pend.filter (· != p), fin := s.enum.fin ++ if p ∈ s.enum.pend then [p] else [] } } t

def alt : Prop := ∀ (p : Fin 4) (h : Hdr) (gen : Word) (s : State), AcceptsEnum s p h → ¬ Other s gen →
  Runs (.alt p h gen) s fun t => ∃ w ∈ [withRoles (linkTook s p none) fun q x =>
      if q = p then { x with role := .alt, roleGen := some gen } else x],
    Completes { w with enum := { s.enum with pend := s.enum.pend.filter (· != p) } } t

/-- A port of role DOWN in the current generation. -/
abbrev IsDown (s : State) (p : Fin 4) : Prop := Carries s p ∧ s.port[p].role = .down

/-- REPORT (R445, R447): from a DOWN port it is noted for routing and goes towards the root. -/
def report : Prop := ∀ (p : Fin 4) (h : Hdr) (gen : Word) (serial : DWord) (hint : BitVec 12) (s : State),
  AcceptsEnum s p h → ¬ Other s gen →
  Runs (.report p h gen serial hint) s fun t => ∃ w ∈ [linkTook s p none],
    if IsDown s p then ∃ v ∈ [{ w with enum := { s.enum with below := s.enum.below ++ [(p, serial, hint)] } }],
      OnlyOffered v t (if s.rd fClEnumctl_ROOT = 1 then [] else match s.enum.up with
        | some u => [(u, ⟨0, h.dst, h.src, h.bcast, false, .report gen serial hint⟩)]
        | none => [])
    else t = w

/-- FIN (R445): of a port that owes one, with the count and the overflow of its subtree. -/
def fin : Prop := ∀ (p : Fin 4) (h : Hdr) (gen : Word) (count : Nat) (overflow : Bool) (s : State),
  AcceptsEnum s p h → ¬ Other s gen →
  Runs (.fin p h gen count overflow) s fun t => ∃ w ∈ [linkTook s p none],
    if p ∈ s.enum.fin then Completes { w with enum := { s.enum with
      fin := s.enum.fin.filter (· != p), count := s.enum.count + count, ovf := s.enum.ovf || overflow } } t
    else t = w

/-- ASSIGN and DONE (R445): taken from the UP port and passed down the tree; the named device takes INDEX and IVALID. -/
def assign : Prop := ∀ (p : Fin 4) (h : Hdr) (gen : Word) (serial : DWord) (index : BitVec 12) (s : State),
  AcceptsEnum s p h → ¬ Other s gen →
  Runs (.assign p h gen serial index) s fun t => ∃ w ∈ [linkTook s p none],
    if s.enum.up = some p then ∃ v ∈ [{ w with enum := { s.enum with
        assigned := s.enum.assigned ++ [(serial, index)]
        index := if serial = Config.serial then index else s.enum.index
        ivalid := if serial = Config.serial then true else s.enum.ivalid } }],
      OnlyOffered v t ((downOf s).map fun q => (q, ⟨0, h.dst, h.src, h.bcast, false, .assign gen serial index⟩))
    else t = w

def doneEnum : Prop := ∀ (p : Fin 4) (h : Hdr) (gen : Word) (s : State), AcceptsEnum s p h → ¬ Other s gen →
  Runs (.doneEnum p h gen) s fun t => ∃ w ∈ [linkTook s p none],
    if s.enum.up = some p then ∃ v ∈ [{ w with enum := { s.enum with isDone := true } }],
      OnlyOffered v t ((downOf s).map fun q => (q, ⟨0, h.dst, h.src, h.bcast, false, .done gen⟩))
    else t = w

/-- The root begins the next generation (R445): DISCOVER on every TRUSTED ACTIVE port; without one it is done at once. -/
abbrev Searches (s t : State) : Prop :=
  ∃ w ∈ [withRoles s fun _ x => { x with role := .none }], ∃ qs ∈ [treeOf s],
    GenCounted s t ∧ Offered w t (qs.map fun q => (q, enumFrame 0 false (.discover (s.enum.gen + 1) 0))) ∧
    OnlyFlds s t (fClEnumcnt_SEARCHES :: fClEnumstat_RESTART :: dropFlds) ∧
    t = { w with
      regs := t.regs, port := t.port
      enum := { Enum.reset with
        gen := s.enum.gen + 1, valid := true, ivalid := true, pend := qs, finSent := decide (qs = [])
        isDone := decide (qs = []), assigned := if qs = [] then [(Config.serial, 0)] else []
        devices := if qs = [] then 1 else s.enum.devices } }

/-- SEARCH (R445): at the root. -/
def search : Prop := ∀ (ini : Initiator) (v : Word) (s : State), Reaches s ini .clEnumctl [] → v.getLsbD 31 = true →
  v.getLsbD 30 = true →
  Runs (.search ini v) s fun t => ∃ w ∈ [s.writeReg ini .clEnumctl [] .lo (v.setWidth 64)], Searches w t

/-- SEARCH elsewhere than at the root only writes ENUMCTL. -/
def searchElsewhere : Prop := ∀ (ini : Initiator) (v : Word) (s : State), Reaches s ini .clEnumctl [] → v.getLsbD 31 = false →
  Runs (.search ini v) s fun t => t.rd fClEnumctl_ROOT = 0 ∧ t.rd fClEnumctl_HINT = bitsOf v.toNat 0 12 ∧
    OnlyFlds s t [wordFld aClEnumctl] ∧ t = { s with regs := t.regs }

/-- CHANGE (R446): passed up; at the root one of the current generation starts the next, an older one is discarded. -/
def change : Prop := ∀ (p : Fin 4) (h : Hdr) (gen : Word) (s : State), AcceptsEnum s p h →
  Runs (.change p h gen) s fun t => ∃ w ∈ [linkTook s p none],
    if s.enum.valid = true ∧ 1 ≤ (s.enum.gen - gen).toNat ∧ (s.enum.gen - gen).toNat ≤ 2 ^ 31 - 1 then t = w
    else if s.rd fClEnumctl_ROOT = 1 then if Other s gen then t = w else Searches w t
    else OnlyOffered w t (match s.enum.up with
      | some u => [(u, ⟨0, h.dst, h.src, h.bcast, false, .change gen⟩)]
      | none => [])

/-- ADOPT (R446): the port's role becomes DOWN. -/
def adopt : Prop := ∀ (p : Fin 4) (h : Hdr) (gen : Word) (s : State), AcceptsEnum s p h → ¬ Other s gen →
  Runs (.adopt p h gen) s fun t => t = withRoles (linkTook s p none) fun q x =>
    if q = p then { x with role := .down, roleGen := some gen } else x

/-- ACTIVE ports of role ALT in the current generation, without port p. -/
abbrev altsBut (s : State) (p : Fin 4) : List (Fin 4) :=
  (List.finRange 4).filter fun q => q != p && (s.enum.valid && s.port[q].roleGen == some s.enum.gen && s.port[q].role == .alt) &&
    s.port[q].st == .active

/-- ENUM_PORT_CHANGE (R446): a TRUSTED port that entered or left ACTIVE starts a search at the root and sends CHANGE elsewhere;
an UP port lost is replaced by the lowest ACTIVE ALT port, with ADOPT and CHANGE, or the device leaves the tree. -/
def enumPortChange : Prop := ∀ (p : Fin 4) (s : State),
  Runs (.enumPortChange p) s fun t =>
    if s.port[p].wasActive = decide (s.port[p].st = .active) then t = s
    else ∃ w ∈ [withRoles s fun q x => if q = p then { x with wasActive := !x.wasActive } else x],
      if s.rd (fClCtrl_MODE p) = 0 then t = w
      else if s.rd fClEnumctl_ROOT = 1 then Searches w t
      else if s.enum.valid = false then t = w
      else if s.enum.up = some p ∧ s.port[p].st ≠ .active then
        (∀ q : Fin 4, (altsBut s p).head? = some q → ∃ v ∈ [{ withRoles w (fun k x => if k = p then { x with role := .none, roleGen := some s.enum.gen }
            else if k = q then { x with role := .up, roleGen := some s.enum.gen } else x) with enum := { s.enum with up := some q } }],
          OnlyOffered v t [(q, enumFrame s.enum.index false (.adopt s.enum.gen)), (q, enumFrame s.enum.index false (.change s.enum.gen))]) ∧
        (altsBut s p = [] → t = { withRoles w (fun k x => if k = p then { x with role := .none, roleGen := some s.enum.gen } else x) with
            enum := { s.enum with valid := false, ivalid := false, up := none } })
      else OnlyOffered w t (match s.enum.up with
        | some u => [(u, enumFrame s.enum.index false (.change s.enum.gen))]
        | none => [])

/-! ## Array time, triggers, the PTP clock (spec/13) -/

/-- A departure and an arrival stamp corrected by the port's latencies (R459). -/
abbrev leaves (s : State) (p : Fin 4) (stamp : Nat) : Int := ((stamp + s.rd (fTmLinkLat_TXLAT p) : Nat) : Int)
abbrev arrives (s : State) (p : Fin 4) (stamp : Nat) : Int := (stamp : Int) - ((s.rd (fTmLinkLat_RXLAT p) : Nat) : Int)

/-- A TIME frame of the device. -/
abbrev timeFrameOf (s : State) (load : Payload) : Frame := ⟨0, 0, s.enum.index, false, true, load⟩

/-- DELAY_EXCHANGE_TIMER (R459, R461): a DREQ leaves at once with the next exchange number and its t1. In MEASURE 16 exchanges start, each
waiting for its answer; in ACTIVE one that found none is skipped; that MEASURE is exempt from R447 is the model's reading (log entry 62).
-/
def delayExchangeTimer : Prop := ∀ (p : Fin 4) (departure : Nat) (s : State),
  Runs (.delayExchangeTimer p departure) s fun t =>
    let x := s.port[p]
    let e : Byte × Int := (x.exchNum + 1, leaves s p departure)
    let g := { timeFrameOf s (.dreq e.1) with seq := x.txseq }
    if Exchanges x ∧ x.sent.length < 256 ∧ RoleHolds s p ∧ ¬ (x.st = .measure ∧ 16 ≤ x.exchCount) then
      t = { s with
        port := s.port.set p { x with
          exchNum := e.1, exchCount := x.exchCount + 1
          exch := (if x.st = .measure then x.exch.map fun y => if y.1 = e.1 then e else y else []) ++ [e]
          txseq := x.txseq + 1, sent := x.sent ++ [g] }
        out := s.out ++ [.clFrame p g] }
    else t = s

/-- DREQ (R459): answered with DRESP, which carries t3 - t2, unless 256 frames are outstanding. -/
def dreq : Prop := ∀ (p : Fin 4) (h : Hdr) (num : Byte) (arrival departure : Nat) (s : State), Accepts s p h (some 1) →
  Runs (.dreq p h num arrival departure) s fun t => ∃ w ∈ [linkTook s p (some 1)],
    let t2 := arrives s p arrival
    let g : Nat → Frame := fun turn => { timeFrameOf s (.dresp num t2 turn) with seq := s.port[p].txseq }
    if s.port[p].sent.length < 256 then
      t = { w with
        port := w.port.set p { w.port[p] with txseq := s.port[p].txseq + 1, sent := s.port[p].sent ++ [g 0] }
        out := w.out ++ [.clFrame p (g (leaves s p departure - t2).toNat)] }
    else t = w

/-- The round trip of an exchange (R459). -/
abbrev rttOf (s : State) (p : Fin 4) (arrival turn : Nat) (t1 : Int) : Int := arrives s p arrival - t1 - (turn : Int)

/-- DRESP in ACTIVE (R461): RTT moves by one sixteenth of the difference, rounded to the nearest tap. -/
def drespActive : Prop := ∀ (p : Fin 4) (h : Hdr) (num : Byte) (turn arrival : Nat) (t1 : Int) (s : State),
  Accepts s p h (some 1) → s.port[p].st = .active → (s.port[p].exch.find? fun e => e.1 == num) = some (num, t1) →
  Runs (.dresp p h num turn arrival) s fun t => ∃ w ∈ [linkTook s p (some 1)],
    let old := signed (s.rd (fTmLinkRtt_RTT p)) 32
    let new := old + (2 * (rttOf s p arrival turn t1 - old) + 16) / 32
    t.rd (fTmLinkRtt_RTT p) = (new % 2 ^ 32).toNat ∧ OnlyFlds s t [fTmLinkRtt_RTT p] ∧
    t = { w with regs := t.regs, port := w.port.set p { w.port[p] with exch := s.port[p].exch.filter fun e => e.1 != num } }

/-- DRESP in MEASURE (R459): the first 15 exchanges are kept. -/
def drespMeasure : Prop := ∀ (p : Fin 4) (h : Hdr) (num : Byte) (turn arrival : Nat) (t1 : Int) (s : State),
  Accepts s p h (some 1) → s.port[p].st = .measure → (s.port[p].exch.find? fun e => e.1 == num) = some (num, t1) → s.port[p].rtts.length < 15 →
  Runs (.dresp p h num turn arrival) s fun t => ∃ w ∈ [linkTook s p (some 1)],
    t = { w with port := w.port.set p { w.port[p] with
      exch := s.port[p].exch.filter fun e => e.1 != num, rtts := s.port[p].rtts ++ [rttOf s p arrival turn t1] } }

/-- The sixteenth (R459, R431): a span of more than 40 taps, or half the mean beyond 1 µs, fails the attempt with MEASURE; else
RTT takes the mean and the port is ACTIVE. -/
def drespLast : Prop := ∀ (p : Fin 4) (h : Hdr) (num : Byte) (turn arrival : Nat) (t1 : Int) (s : State),
  Present s p →
  Accepts s p h (some 1) → s.port[p].st = .measure → (s.port[p].exch.find? fun e => e.1 == num) = some (num, t1) → s.port[p].rtts.length = 15 →
  Runs (.dresp p h num turn arrival) s fun t => ∃ w ∈ [linkTook s p (some 1)],
    let l := s.port[p].rtts ++ [rttOf s p arrival turn t1]
    let sum : Int := l.sum
    if (∃ a ∈ l, ∃ b ∈ l, 40 < a - b) ∨ 104857600 < sum then
      AttemptFails { w with port := w.port.set p { w.port[p] with
        exch := s.port[p].exch.filter fun e => e.1 != num, rtts := l } } t p 10
    else
      t.rd (fTmLinkRtt_RTT p) = ((2 * sum + 16) / 32 % 2 ^ 32).toNat ∧ t.rd (fClStat_ATTEMPT p) = 0 ∧ ClShown s t p true ∧
      OnlyFlds s t [fTmLinkRtt_RTT p, fClStat_ATTEMPT p] ∧
      t = { w with
        regs := t.regs, ready := t.ready, wasReady := t.wasReady
        port := w.port.set p { w.port[p] with exch := [], rtts := [], st := .active, single := false } }

/-- A DRESP that answers no exchange is not used. -/
def drespOther : Prop := ∀ (p : Fin 4) (h : Hdr) (num : Byte) (turn arrival : Nat) (s : State), Accepts s p h (some 1) →
  (∀ e ∈ s.port[p].exch, e.1 ≠ num) →
  Runs (.dresp p h num turn arrival) s fun t => t = linkTook s p (some 1)

/-! ### Triggers (R468 to R471) -/

/-- The report that a trigger was late, to its issuer: over the PEER port it came by, to the device itself, or routed. -/
abbrev LateSent (u t : State) (num : Byte) (tm : DWord) (src : BitVec 12) (via : Option (Fin 4)) : Prop :=
  let f : Frame := ⟨0, src, u.enum.index, false, true,
    .late num u.enum.index (((u.time.tick.toNat : Int) - (tm.toNat : Int)) * 5 / 64)⟩
  if via = none then
    if Mine u src then
      t.rd fTmTrigrep_REP = 1 ∧ t.rd fTmTrigrep_FROM = u.enum.index.toNat ∧ t.rd fTmTrigrep_NUM = num.toNat ∧
      OnlyFlds u t [fTmTrigrep_REP, fTmTrigrep_FROM, fTmTrigrep_NUM] ∧ t = { u with regs := t.regs }
    else Routed u t none f
  else ∀ p : Fin 4, via = some p → OnlyOffered u t [(p, f)]

/-- A slice ARMED for a trigger number in TRIGGER mode, as the lead of an ARMED burst (R66). -/
abbrev ArmedFor (s : State) (n : Fin 8) (num : Byte) : Prop :=
  s.sl[n].st = .armed ∧ s.sl[n].lead = n ∧ (∀ m ∈ s.burstOf n, s.sl[m].st = .armed) ∧
  s.rd (fSlBurst_MODE s.sl[n].recv) = 2 ∧ s.rd (fSlBurst_TRIG s.sl[n].recv) = num.toNat

/-- A trigger taken or refused (R470): late below 100 ns of lead, counted, reported to Hamper and to its issuer; FULL where 16
are pending; else pending, and noted by every slice ARMED for it in the order of the action times (assumption 44), whose formatter
input opens for a T0 at the earliest one. -/
abbrev TrigTaken (w t : State) (num : Byte) (tm : DWord) (src : BitVec 12) (via : Option (Fin 4)) : Prop :=
  if tm.toNat < w.time.tick.toNat + 1280 then
    ∃ u ∈ [(w.addSat fTmTrigstat_LATE 1).reportUnit .trigLate 0],
      u.rd fTmTrigstat_LATE = min (w.rd fTmTrigstat_LATE + 1) 65535 ∧ LateSent u t num tm src via
  else if 16 ≤ w.time.pend.length then t.rd fTmTrigrep_FULL = 1 ∧ OnlyFlds w t [fTmTrigrep_FULL] ∧ t = { w with regs := t.regs }
  else
    (∀ n : Fin 8, t.sl[n] = { w.sl[n] with
      trigArmed := if ArmedFor w n num then t.sl[n].trigArmed else w.sl[n].trigArmed
      seq := { w.sl[n].seq with epochs := t.sl[n].seq.epochs } }) ∧
    (∀ n : Fin 8, ArmedFor w n num → List.Perm t.sl[n].trigArmed (tm.toNat :: w.sl[n].trigArmed) ∧
      (w.sl[n].trigArmed.Pairwise (· ≤ ·) → t.sl[n].trigArmed.Pairwise (· ≤ ·)) ∧
      (w.sl[n].seq.vec = 0 → (∀ l : Fin 8, ArmedFor w l num → l ≠ n → ∀ m ∈ w.burstOf n, m ∉ w.burstOf l) →
        ∀ m ∈ w.burstOf n, t.sl[m].seq.epochs =
          [(0, t.sl[n].trigArmed.headD w.sl[n].t0 * 2 ^ 32, pwOf (w.sl[n].freqOf w.sl[n].seq.seg))])) ∧
    (∀ m : Fin 8, (∀ l : Fin 8, ArmedFor w l num → m ∉ w.burstOf l) → t.sl[m].seq = w.sl[m].seq) ∧
    t = { w with sl := t.sl, time := { w.time with pend := w.time.pend ++ [⟨num, tm, src, via⟩] } }

/-- TRIG on a PEER port: acted on locally and never forwarded (R440, R468). -/
def trigPeer : Prop := ∀ (p : Fin 4) (h : Hdr) (num : Byte) (tm : DWord) (s : State), Accepts s p h (some 0) →
  s.rd (fClCtrl_MODE p) = 0 →
  Runs (.trig p h num tm) s fun t => TrigTaken (linkTook s p (some 0)) t num tm h.src (some p)

/-- A unicast TRIG on a TRUSTED port: taken by the device it names, else routed. -/
def trigUnicast : Prop := ∀ (p : Fin 4) (h : Hdr) (num : Byte) (tm : DWord) (s : State), Accepts s p h (some 0) →
  s.rd (fClCtrl_MODE p) = 1 → h.bcast = false →
  Runs (.trig p h num tm) s fun t => ∃ w ∈ [linkTook s p (some 0)],
    if Mine s h.dst then TrigTaken w t num tm h.src none
    else Routed w t (some p) ⟨0, h.dst, h.src, false, true, .trig num tm⟩

/-- A broadcast TRIG on a TRUSTED port (R447, R470): taken, and forwarded whether or not it is accepted. -/
def trigBroadcast : Prop := ∀ (p : Fin 4) (h : Hdr) (num : Byte) (tm : DWord) (s : State), Accepts s p h (some 0) →
  s.rd (fClCtrl_MODE p) = 1 → h.bcast = true →
  Runs (.trig p h num tm) s fun t => ∃ w ∈ [linkTook s p (some 0)], ∃ u ∈ [w.acceptTrig num tm h.src none],
    TrigTaken w u num tm h.src none ∧
    OnlyOffered u t ((onTo s p).map fun q => (q, ⟨0, h.dst, h.src, true, true, .trig num tm⟩))

/-- SEND (R469): refused with too short a lead; else the trigger goes to DST, or to every port of the tree, and the issuer takes
one for itself as if it had arrived. -/
def send : Prop := ∀ (ini : Initiator) (v : Word) (s : State), Reaches s ini .tmTrigcmd [] → v.getLsbD 31 = true →
  Runs (.send ini v) s fun t => ∃ w ∈ [s.writeReg ini .tmTrigcmd [] .lo (v.setWidth 64)],
    let tm := BitVec.ofNat 64 (s.rd fTmTrigat_TICK)
    let num := v.setWidth 8
    let dst := BitVec.ofNat 12 (bitsOf v.toNat 16 12)
    if tm.toNat < s.time.tick.toNat + s.rd fTmTrigctl_HOPS * 768 + 2560 then
      t.rd fTmTrigcmd_REFUSED = 1 ∧ OnlyFlds w t [fTmTrigcmd_REFUSED] ∧ t = { w with regs := t.regs }
    else if v.getLsbD 30 = true then ∃ u ∈ [w.acceptTrig num tm s.enum.index none],
      TrigTaken w u num tm s.enum.index none ∧
      OnlyOffered u t ((((List.finRange 4).filter fun q => s.enum.valid && s.port[q].roleGen == some s.enum.gen &&
        (s.port[q].role == .up || s.port[q].role == .down)).map
          fun q => (q, (⟨0, dst, s.enum.index, true, true, .trig num tm⟩ : Frame))))
    else if dst = s.enum.index then TrigTaken w t num tm s.enum.index none
    else Routed w t none ⟨0, dst, s.enum.index, false, true, .trig num tm⟩

/-- LATE (R440, R470): at the device it names TRIGREP shows the reporter; else routed; on a PEER port of no use. -/
def late : Prop := ∀ (p : Fin 4) (h : Hdr) (num : Byte) (index : BitVec 12) (behind : Int) (s : State),
  Accepts s p h (some 1) → (s.rd (fClCtrl_MODE p) = 1 → h.bcast = false) →
  Runs (.late p h num index behind) s fun t => ∃ w ∈ [linkTook s p (some 1)],
    if s.rd (fClCtrl_MODE p) = 0 then t = w
    else if Mine s h.dst then
      t.rd fTmTrigrep_REP = 1 ∧ t.rd fTmTrigrep_FROM = index.toNat ∧ t.rd fTmTrigrep_NUM = num.toNat ∧
      OnlyFlds w t [fTmTrigrep_REP, fTmTrigrep_FROM, fTmTrigrep_NUM] ∧ t = { w with regs := t.regs }
    else Routed w t (some p) ⟨0, h.dst, h.src, h.bcast, true, .late num index behind⟩

/-- The earliest action time of the pending triggers, and those that act then. -/
abbrev Earliest (s : State) (tm : Nat) : Prop := (∃ x ∈ s.time.pend, x.tm.toNat = tm) ∧ ∀ x ∈ s.time.pend, tm ≤ x.tm.toNat
abbrev acting (s : State) (tm : Nat) : List Trig := s.time.pend.filter fun x => x.tm.toNat == tm

/-- A burst, named by its lead, that a trigger starts at an action time (R66, R471). -/
abbrev StartsAt (s : State) (n : Fin 8) (tm : Nat) : Prop :=
  s.sl[n].st = .armed ∧ s.sl[n].lead = n ∧ tm ∈ s.sl[n].trigArmed ∧ ∀ m ∈ s.burstOf n, s.sl[m].st = .armed

/-- TRIGGER_ACTION with no ABORT named (R471): the flags set in every slice of a burst, the bursts armed for it start with T0 at the
action time, ACCEPTED counts, the entries are free; which trigger starts a slice armed for several is the model's choice (log entry 44).
-/
def triggerAction : Prop := ∀ (tm : Nat) (s : State), Earliest s tm →
  (∀ x ∈ acting s tm, s.rd (fTmTrigact_ABORT x.num.toNat) = 0) →
  (∀ n n' : Fin 8, StartsAt s n tm → StartsAt s n' tm → n ≠ n' → ∀ m ∈ s.burstOf n, m ∉ s.burstOf n') →
  Runs .triggerAction s fun t =>
    (∀ n : Fin 8, s.sl[n].seq.ecc = [] → (¬ ∃ l : Fin 8, StartsAt s l tm ∧ n ∈ s.burstOf l) →
      t.sl[n] = { s.sl[n] with seq := { s.sl[n].seq with
        clEvents := if s.sl[n].st = .idle then s.sl[n].seq.clEvents
          else s.sl[n].seq.clEvents ++ (acting s tm).map fun x => (x.num.toNat, tm) } }) ∧
    (∀ n : Fin 8, StartsAt s n tm → s.sl[n].seq.ecc = [] → ∀ m ∈ s.burstOf n,
      t.sl[m].st = .running ∧ t.sl[m].t0 = tm ∧ t.sl[m].synth.freq = s.sl[n].freqOf s.sl[n].seq.seg ∧
      (∀ x ∈ acting s tm, (x.num.toNat, tm) ∈ t.sl[m].seq.clEvents)) ∧
    t.rd fTmTrigstat_ACCEPTED = min (s.rd fTmTrigstat_ACCEPTED + (acting s tm).length) 65535 ∧
    ((∀ n : Fin 8, s.sl[n].seq.ecc = []) → OnlyFlds s t [fTmTrigstat_ACCEPTED] ∧ t = { s with
      regs := t.regs, sl := t.sl, time := { s.time with pend := s.time.pend.filter fun x => x.tm.toNat != tm } })

/-- TRIGGER_ACTION with slices named in ABORT, each burst apart from the others (R78, R79, R471): a burst that runs ends as by ABORT_NOW,
one that waits is withdrawn, whether or not the trigger would start it. -/
def triggerAborts : Prop := ∀ (x : Trig) (n : Fin 8) (s : State), s.time.pend = [x] →
  bitOf (s.rd (fTmTrigact_ABORT x.num.toNat)) n = true →
  (∀ k : Fin 8, bitOf (s.rd (fTmTrigact_ABORT x.num.toNat)) k = true →
    s.burstOf k = s.burstOf n ∧ s.sl[k].lead = s.sl[n].lead ∨
      ∀ m ∈ s.burstOf n, m ∉ s.burstOf k ∧ (s.sl[k].st = .running → m ∉ s.burstOf s.sl[k].lead)) →
  (s.sl[n].st = .running → s.sl[n].lead ∈ s.burstOf n) →
  Runs .triggerAction s fun t =>
    ((s.sl[n].st = .prefill ∨ s.sl[n].st = .armed) → (∀ m ∈ s.burstOf n, s.sl[m].st = s.sl[n].st) →
      ∀ m ∈ s.burstOf n, Withdrawn t m) ∧
    (s.sl[n].st = .running → (∀ m ∈ s.burstOf n, s.sl[m].st = .running) →
      (s.sl[s.sl[n].lead].seq.hemDue = true → s.sl[s.sl[n].lead].seq.halted = false ∧ s.sl[s.sl[n].lead].seq.excRaised = false) →
      s.sl[s.sl[n].lead].seq.ecc = [] → ∀ m ∈ s.burstOf n, t.sl[m].st = .ending ∧ t.rd (fSlAdmit_CAUSE m) = Cause.abortNow.code) ∧
    t.time = { s.time with pend := [] } ∧ t.rd fTmTrigstat_ACCEPTED = min (s.rd fTmTrigstat_ACCEPTED + 1) 65535

/-- With no trigger pending nothing acts. -/
def triggerNone : Prop := ∀ (s : State), s.time.pend = [] → Runs .triggerAction s fun t => t = s

/-! ### Following the master (R462 to R467) -/

/-- Master a ranks above master b (R463). -/
abbrev Ranks (a b : Byte × DWord) : Prop := b.1 < a.1 ∨ (a.1 = b.1 ∧ a.2 < b.2)

/-- What a port heard is better: its master, then fewer hops (R463). -/
abbrev Better (a b : Heard) : Prop :=
  Ranks (a.prio, a.serial) (b.prio, b.serial) ∨ (a.prio = b.prio ∧ a.serial = b.serial ∧ a.hops < b.hops)

/-- A port that may be a time source (R463). -/
abbrev MaySource (s : State) (p : Fin 4) : Prop :=
  s.port[p].st = .active ∧ (s.rd (fClCtrl_MODE p) = 1 ∨ bitOf (s.rd fTmCtrl_PEERSRC) p = true)

/-- What a port offers: the SYNC that it took last, not more than 50 µs ago (R463, R466). -/
abbrev Offers (s : State) (heard : Vector (Option Heard) 4) (q : Fin 4) (c : Heard) : Prop :=
  heard[q] = some c ∧ MaySource s q ∧ s.clock < c.clock + 640000

/-- The port whose SYNCs come from the best master, with the fewest hops, then the lowest port. -/
abbrev IsBest (s : State) (heard : Vector (Option Heard) 4) (q : Fin 4) (c : Heard) : Prop :=
  Offers s heard q c ∧ ∀ k : Fin 4, ∀ x, Offers s heard k x → ¬ Better x c ∧ (k < q → Better c x)

/-- What a SYNC that comes now leaves with its port. -/
abbrev heardNow (s : State) (p : Fin 4) (prio : Byte) (serial : DWord) (hops : Nat) (sseq : Word) : Vector (Option Heard) 4 :=
  s.time.heard.set p (some ⟨prio, serial, hops, sseq, s.clock⟩)

/-- The source after a SYNC: the one in use, unless another port is strictly better. -/
abbrev SourceIs (s : State) (heard : Vector (Option Heard) 4) (q : Fin 4) (c : Heard) : Prop :=
  let stays : Bool := s.time.srcValid && decide (MaySource s s.time.src) && (heard[s.time.src]).any fun k =>
    decide (s.clock < k.clock + 640000) && decide (∀ j : Fin 4, ∀ x, heard[j] = some x → Offers s heard j x → ¬ Better x k)
  if stays then q = s.time.src ∧ heard[q] = some c else IsBest s heard q c

/-- This device as a master. -/
abbrev ownMaster (s : State) : Byte × DWord := (BitVec.ofNat 8 (s.rd fTmCtrl_PRIO), Config.serial)

/-- No slice outside IDLE and no SCAN unit enabled (R464). -/
abbrev Quiet (s : State) : Prop := (∀ n : Fin 8, s.sl[n].st = .idle ∧ s.sl[n].chk = none) ∧ ∀ u : Fin 4, s.scan[u].st = .off

/-- The time unit after a correction by an offset in taps (R464): a step where the device is quiet, a slew up to 1 µs, else its
own time with DIVERGED and no slew. -/
def corrected (quiet : Bool) (x : Time) (off : Int) : Time :=
  if quiet then { x with
    offsets := (off :: x.offsets).take 16, tick := x.tick - BitVec.ofInt 64 ((off + 128) / 256)
    slew := off - 256 * ((off + 128) / 256), diverged := false }
  else if -3276800 ≤ off ∧ off ≤ 3276800 then
    { x with offsets := (off :: x.offsets).take 16, slew := off, diverged := false }
  else { x with offsets := (off :: x.offsets).take 16, slew := 0, diverged := true }

/-- The SYNC's offset (R464), in taps. -/
abbrev offsetOf (s : State) (p : Fin 4) (tick : DWord) (tap : Byte) (arrival : Nat) : Int :=
  arrives s p arrival - (((tick.toNat * 256 + tap.toNat : Nat) : Int) +
    (signed (s.rd (fTmLinkRtt_RTT p)) 32 - signed (s.rd (fTmLinkAsym_ASYM p)) 16 + 1) / 2)

/-- What a frame carries as it leaves the ball (R459, R461, R462): a SYNC its TICK and the tap within it, a DRESP its own turn-around; every
other frame goes as it is. -/
def stamps : Prop := ∀ (f : Frame) (ball : Int),
  (∀ prio hops sseq serial tick tap, f.load = .sync prio hops sseq serial tick tap → 0 ≤ ball → ball < 2 ^ 72 →
    ∃ tick' tap', (tick'.toNat * 256 + tap'.toNat : Nat) = ball ∧ f.stamped ball = { f with load := .sync prio hops sseq serial tick' tap' }) ∧
  (∀ num t2 turn, f.load = .dresp num t2 turn → f.stamped ball = { f with load := .dresp num t2 (ball - t2).toNat }) ∧
  (f.load.kind ≠ 0x11 → f.stamped ball = f)

/-- A SYNC that is not used: time following off, a port that may not be a source, or the device's own. -/
def syncIgnored : Prop := ∀ (p : Fin 4) (h : Hdr) (prio : Byte) (hops : Nat) (sseq : Word) (tick : DWord) (tap : Byte)
    (serial : DWord) (arrival : Nat) (s : State), Accepts s p h (some 1) →
  (s.rd fTmCtrl_EN = 0 ∨ ¬ MaySource s p ∨ serial = Config.serial) →
  Runs (.sync p h prio hops sseq tick tap serial arrival) s fun t => t = linkTook s p (some 1)

/-- A SYNC to a master that outranks it: only heard (R467). -/
def syncAtMaster : Prop := ∀ (p : Fin 4) (h : Hdr) (prio : Byte) (hops : Nat) (sseq : Word) (tick : DWord) (tap : Byte)
    (serial : DWord) (arrival : Nat) (s : State), Accepts s p h (some 1) →
  s.rd fTmCtrl_EN = 1 → MaySource s p → serial ≠ Config.serial → s.time.role = .master → ¬ Ranks (prio, serial) (ownMaster s) →
  Runs (.sync p h prio hops sseq tick tap serial arrival) s fun t =>
    t = { linkTook s p (some 1) with time := { s.time with heard := heardNow s p prio serial hops sseq } }

/-- The time unit of a follower whose source is port q with what it heard. -/
def followed (x : Time) (heard : Vector (Option Heard) 4) (q : Fin 4) (c : Heard) : Time :=
  { x with
    heard := heard, role := .follower, src := q, srcValid := true, master := some (c.prio, c.serial)
    hops := min (c.hops + 1) 63 }

/-- A SYNC that is forwarded (R463): from the source, not at depth 63, its SSEQ newer than the last one forwarded. -/
abbrev GoesOn (s : State) (p q : Fin 4) (hops : Nat) (sseq : Word) : Prop :=
  q = p ∧ hops ≠ 63 ∧ (s.time.fwd.all fun k => decide (1 ≤ (sseq - k).toNat ∧ (sseq - k).toNat ≤ 2 ^ 31 - 1)) = true

/-- A SYNC of a follower or of a master outranked (R463, R464, R466, R467): the source and its master, MLOST where the master is
another; from the source itself the correction, and the SYNC forwarded on every other ACTIVE port with the device's own HOPS where
its SSEQ is newer. No pending trigger lies before the corrected time. -/
def sync : Prop := ∀ (p : Fin 4) (h : Hdr) (prio : Byte) (hops : Nat) (sseq : Word) (tick : DWord) (tap : Byte)
    (serial : DWord) (arrival : Nat) (q : Fin 4) (c : Heard) (s : State), Accepts s p h (some 1) →
  s.rd fTmCtrl_EN = 1 → MaySource s p → serial ≠ Config.serial →
  (s.time.role = .master → Ranks (prio, serial) (ownMaster s) ∧ q = p ∧ c = ⟨prio, serial, hops, sseq, s.clock⟩) →
  (s.time.role ≠ .master → SourceIs s (heardNow s p prio serial hops sseq) q c) →
  (q = p → Quiet s → ∀ x ∈ s.time.pend,
    s.time.tick - BitVec.ofInt 64 ((offsetOf s p tick tap arrival + 128) / 256) ≤ x.tm) →
  Runs (.sync p h prio hops sseq tick tap serial arrival) s fun t => ∃ w ∈ [linkTook s p (some 1)],
    (t.rd fTmStat_MLOST = if s.time.master = none ∨ s.time.master = some (c.prio, c.serial) then s.rd fTmStat_MLOST else 1) ∧
    (q = p → { t.time with fwd := none } = { corrected (decide (Quiet s))
      (followed s.time (heardNow s p prio serial hops sseq) q c) (offsetOf s p tick tap arrival) with fwd := none }) ∧
    (q ≠ p → { t.time with fwd := none } = { followed s.time (heardNow s p prio serial hops sseq) q c with
      fwd := none }) ∧
    (GoesOn s p q hops sseq → t.time.fwd = some sseq ∧
      Offered w t (((List.finRange 4).filter fun k => k != p && w.port[k].st == .active).map fun k =>
        (k, timeFrameOf s (.sync prio (min (c.hops + 1) 63) sseq serial 0 0)))) ∧
    (¬ GoesOn s p q hops sseq → t.time.fwd = s.time.fwd ∧ t.port = w.port) ∧
    OnlyFlds s t (fTmStat_MLOST :: dropFlds) ∧ t = { w with regs := t.regs, port := t.port, time := t.time }

/-- A step of TICK past the action time of a pending trigger refuses it as late (R464, R470). -/
def syncPasses : Prop := ∀ (p : Fin 4) (h : Hdr) (prio : Byte) (hops : Nat) (sseq : Word) (tick : DWord) (tap : Byte)
    (serial : DWord) (arrival : Nat) (s : State), Accepts s p h (some 1) →
  s.rd fTmCtrl_EN = 1 → MaySource s p → serial ≠ Config.serial → s.time.role ≠ .master → Quiet s →
  SourceIs s (heardNow s p prio serial hops sseq) p ⟨prio, serial, hops, sseq, s.clock⟩ →
  Runs (.sync p h prio hops sseq tick tap serial arrival) s fun t =>
    let now := s.time.tick - BitVec.ofInt 64 ((offsetOf s p tick tap arrival + 128) / 256)
    let gone := s.time.pend.filter fun x => decide (x.tm < now)
    t.time.tick = now ∧ t.time.pend = s.time.pend.filter (fun x => decide (now ≤ x.tm)) ∧
    t.rd fTmTrigstat_LATE = min (s.rd fTmTrigstat_LATE + gone.length) 65535

/-- SYNC_TIMER (R462): the master's SYNC on every ACTIVE port. -/
def syncTimer : Prop := ∀ (s : State),
  Runs .syncTimer s fun t =>
    if s.time.role = .master ∧ s.rd fTmCtrl_EN = 1 ∧ s.isReady .time = true then
      let k := s.time.sseq.getD 0 + 1
      ∃ w ∈ [{ s with time := { s.time with sseq := some k } }],
        OnlyOffered w t (((List.finRange 4).filter fun q => s.port[q].st == .active).map fun q =>
          (q, timeFrameOf s (.sync (ownMaster s).1 0 k (ownMaster s).2 0 0)))
    else t = s

/-- SOURCE_TIMEOUT (R463, R466): another port that offers a master, else holdover on the device's own root, with no slew. -/
def sourceTimeout : Prop := ∀ (s : State),
  Runs .sourceTimeout s fun t =>
    if s.time.role = .follower ∧ s.time.srcValid = true then
      let heard := s.time.heard.set s.time.src none
      (∀ (q : Fin 4), ∀ c, heard[q] = some c → IsBest s heard q c →
        (t.rd fTmStat_MLOST = if s.time.master = none ∨ s.time.master = some (c.prio, c.serial) then s.rd fTmStat_MLOST else 1) ∧
        t.time = { s.time with
          heard := heard, src := q, master := some (c.prio, c.serial), hops := min (c.hops + 1) 63 }) ∧
      ((∀ (q : Fin 4), ∀ c, ¬ Offers s heard q c) →
        t.rd fTmStat_MLOST = 1 ∧ t.time = { s.time with heard := heard, srcValid := false, role := .holdover, slew := 0 }) ∧
      OnlyFlds s t [fTmStat_MLOST] ∧ t = { s with regs := t.regs, time := t.time }
    else t = s

/-- MASTER_TAKEOVER (R467, R477): a device with following on, PRIO ≠ 0 and a clock that runs becomes master, with TAKEOVER set, and
MLOST where it replaces another master; its SSEQ goes on from the last one forwarded. -/
def masterTakeover : Prop := ∀ (s : State),
  Runs .masterTakeover s fun t =>
    if s.time.role ≠ .master ∧ s.rd fTmCtrl_EN = 1 ∧ s.rd fTmCtrl_PRIO ≠ 0 ∧ s.isReady .time = true then
      t.rd fTmStat_TAKEOVER = 1 ∧
      (t.rd fTmStat_MLOST = if s.time.master = none ∨ s.time.master = some (ownMaster s) then s.rd fTmStat_MLOST else 1) ∧
      OnlyFlds s t [fTmStat_TAKEOVER, fTmStat_MLOST] ∧
      t = { s with
        regs := t.regs
        time := { s.time with
          role := .master, srcValid := false, hops := 0, master := some (ownMaster s), sseq := s.time.fwd, diverged := false, slew := 0
          heard := Vector.replicate 4 none } }
    else t = s

/-- ALIGNED as TIME.STAT shows it (R464): a valid source and a mean of the last offsets, as TIME.OFFSET shows it, of six taps or less. -/
def timeAligned : Prop := ∀ (x : Time),
  x.aligned = true ↔ x.srcValid = true ∧ x.offsets ≠ [] ∧ -6 ≤ x.offsets.sum / (x.offsets.length : Int) ∧
    x.offsets.sum / (x.offsets.length : Int) ≤ 6

/-! ### The PTP clock (R458, R473 to R476, R481 to R484) -/

/-- SNAP (R458): TICK and the PHC in one period. -/
def snap : Prop := ∀ (ini : Initiator) (v : Word) (s : State), Reaches s ini .tmSnapcmd [] →
  Runs (.snap ini v) s fun t =>
    t.rd fTmSnaptick_VALUE = s.time.tick.toNat ∧ t.rd fTmSnapsec_VALUE = s.time.phcSec.toNat ∧
    t.rd fTmSnapns_NS = s.time.phcNs % 2 ^ fTmSnapns_NS.w ∧
    t.rd fTmSnapfrac_FRAC = s.time.phcFrac / 2 ^ 32 % 2 ^ 16 ∧
    OnlyFlds s t [fTmSnaptick_VALUE, fTmSnapsec_VALUE, fTmSnapns_NS, fTmSnapfrac_FRAC] ∧ t = { s with regs := t.regs }

/-- PHC_SET (R481): the next 10 ns step loads SETSEC and SETNS. -/
def phcSet : Prop := ∀ (ini : Initiator) (v : Word) (s : State), Reaches s ini .tmPhccmd [] →
  Runs (.phcSet ini v) s fun t => t = { s with time := { s.time with setPending := true } }

/-- The PHC in units of 2^-48 ns. -/
abbrev phcOf (x : Time) : Int := ((x.phcSec.toNat : Int) * 1000000000 + (x.phcNs : Int)) * 2 ^ 48 + (x.phcFrac : Int)

/-- The clamp at 500 ppm, and whether it acts (R475). -/
abbrev clamped (x : Int) : Int := max (-140737488355) (min 140737488355 x)
abbrev clamps (x : Int) : Nat := if clamped x = x then 0 else 1

/-- SERVO_UPDATE (R475, R482): a step of the PHC from the threshold on, else the loop filter; each clamp that acts counts. A 64-bit write is held
as written. -/
def servoUpdate : Prop := ∀ (ini : Initiator) (wide : Bool) (v : DWord) (s : State), Reaches s ini .tmSrvoff [] →
  Runs (.servoUpdate ini wide v) s fun t =>
    let off : Int := if wide then v.toInt else (v.setWidth 32 ++ s.reg aTmSrvoff : DWord).toInt
    let i := s.time.servoI + off * ((s.rd fTmSrvki_KI : Nat) : Int) / 65536
    let a := -(off * ((s.rd fTmSrvkp_KP : Nat) : Int) / 65536 + clamped i)
    let u := if wide then s.setReg aTmSrvoff (v.setWidth 32) else s
    if s.rd fTmSrvctl_EN = 0 ∨ s.hasCap 11 = false then t = u
    else if s.rd fTmSrvctl_STEPTHR * 65536000 ≤ off.natAbs then
      t.rd fTmSrvcnt_STEPS = min (s.rd fTmSrvcnt_STEPS + 1) 65535 ∧
      (0 ≤ phcOf s.time - off * 2 ^ 32 → phcOf s.time - off * 2 ^ 32 < 2 ^ 64 * 1000000000 * 2 ^ 48 →
        phcOf t.time = phcOf s.time - off * 2 ^ 32) ∧
      t.time.phcNs < 1000000000 ∧ t.time.phcFrac < 2 ^ 48 ∧ OnlyFlds u t [fTmSrvcnt_STEPS] ∧
      t = { u with regs := t.regs, time := { s.time with
        phcSec := t.time.phcSec, phcNs := t.time.phcNs, phcFrac := t.time.phcFrac } }
    else
      t.rd fTmSrvcnt_CLAMPS = min (s.rd fTmSrvcnt_CLAMPS + clamps i + clamps a) 65535 ∧ OnlyFlds u t [fTmSrvcnt_CLAMPS] ∧
      t = { u with regs := t.regs, time := { s.time with servoI := clamped i, adj := clamped a } }

/-- RESETI (R475): the servo's integral and ADJ are 0, and the other fields of SRVCTL take the word. -/
def reseti : Prop := ∀ (ini : Initiator) (v : Word) (s : State), Reaches s ini .tmSrvctl [] →
  Runs (.reseti ini v) s fun t =>
    t.rd fTmSrvctl_EN = b2n (v.getLsbD 31) ∧
    t.rd fTmSrvctl_STEPTHR = (if bitsOf v.toNat 0 16 = 0 then 1000 else bitsOf v.toNat 0 16) ∧
    OnlyFlds s t (wordFld aTmSrvctl :: accFlds (copyOf ini)) ∧
    t = { s with regs := t.regs, time := { s.time with servoI := 0, adj := 0 } }

/-- TXTS_POP (R484): the oldest stamp leaves the queue. -/
def txtsPop : Prop := ∀ (ini : Initiator) (v : Word) (s : State), Reaches s ini .tmTxtspop [] →
  Runs (.txtsPop ini v) s fun t => t = { s with time := { s.time with txts := s.time.txts.tail } }

/-! ## Host interface, partitions and management (spec/14), patches (spec/15) -/

/-! ### DMA (R491 to R495) -/

/-- A descriptor that R492 does not allow, or that asks for a seal which it may not have. -/
abbrev BadDesc (s : State) (c : Fin 16) (d : DmaDesc) : Prop :=
  d.haddr.toNat % 4 ≠ 0 ∨ d.maddr.toNat % 64 ≠ 0 ∨ d.len.toNat % 64 ≠ 0 ∨ d.len.toNat < 64 ∨ 2 ^ 30 < d.len.toNat ∨
  d.ctrl.getLsbD 3 = true ∨ d.ctrl.getLsbD 7 = true ∨ bitsOf d.ctrl.toNat 28 4 ≠ 0 ∨
  (d.ctrl.getLsbD 1 = true ∧ (d.ctrl.getLsbD 0 = true ∨ s.ownerSl (Fin.ofNat 8 (bitsOf d.ctrl.toNat 4 3)) ≠ s.ownerDma c))

/-- A channel with a chunk to move: enabled and not stalled, with a descriptor in progress or one from HEAD to TAIL. -/
abbrev HasChunk (s : State) (c : Fin 16) : Prop :=
  s.dmaStalled.getLsbD c = false ∧ (if s.dma[c] = none then
    s.rd (fDmaCtrl_EN c) = 1 ∧ s.rd (fDmaHead_INDEX c) ≠ s.rd (fDmaTail_INDEX c) ∧ s.power.st = .active
    else ∃ r ∈ s.dma[c].toList, r.finished = false)

/-- The round robin (R493): the first channel with a chunk, from the one after the last served. -/
abbrev Turn (s : State) (c : Fin 16) : Prop :=
  HasChunk s c ∧ ∃ k : Fin 16, Fin.ofNat 16 (s.dmaNext + k) = c ∧ ∀ j : Fin 16, j < k → ¬ HasChunk s (Fin.ofNat 16 (s.dmaNext + j))

/-- Traffic to pattern memory is served at once: both stacks in service, no port in panic, no forced burst of refreshes, no refresh
queued for a row and no request that waits (R53, R364, R366, R369, R372). -/
abbrev Served (s : State) : Prop :=
  Calm s ∧ Rested s ∧ s.drc.waiting = [] ∧ (∀ p : Fin 64, s.drc.forced[p] = 0) ∧
  ∀ k : Fin 2, s.isReady (.hb k) = true ∧ s.drc.selfRefresh[k] = false

/-- The round robins after a channel's chunk (R364): each pseudo-channel that the chunk reaches goes on behind the channel's
partition, the others stay. -/
abbrev DmaTurns (s t : State) (c : Fin 16) (a len : Nat) : Prop := TurnsOn s t (16 + (s.ownerDma c).val) a len

/-- A descriptor that is not well formed ends with BADDESC (R492, R494) and moves nothing; SLICE counts with SEAL = 0 too, but in a
partition that holds no slice (log entry 60, the model's reading). -/
def dmaBadDesc : Prop := ∀ (c : Fin 16) (d : DmaDesc) (data : List Byte) (e : DmaEnd) (s : State), Turn s c → Served s →
  s.dma[c] = none → BadDesc s c d →
  Runs (.dmaChunk c d data e) s fun t =>
    t = { s with dma := s.dma.set c (some ⟨d, 0, 0, 5, false, true⟩), dmaNext := (c.val + 1) % 16 }

/-- Where the next chunk starts, and its length: up to the next 4,096-byte boundary (R493). -/
abbrev chunkAt (r : DmaRun) : Nat := r.desc.maddr.toNat + r.moved
abbrev chunkLen (r : DmaRun) : Nat := min (4096 - chunkAt r % 4096) (r.desc.len.toNat - r.moved)

/-- A descriptor after a chunk moved; after the last one its seal is due. -/
abbrev moved (r : DmaRun) : DmaRun := { r with
  moved := r.moved + chunkLen r, chunks := r.chunks + 1, finished := decide (r.moved + chunkLen r = r.desc.len.toNat)
  sealDue := decide (r.moved + chunkLen r = r.desc.len.toNat ∧ r.desc.ctrl.getLsbD 1 = true) }

/-- DMA_CHUNK to pattern memory (R493): the chunk's bytes are stored, and no other. -/
def dmaChunkIn : Prop := ∀ (c : Fin 16) (d : DmaDesc) (data : List Byte) (r : DmaRun) (s : State), Turn s c → Served s →
  (s.dma[c] = some r ∨ s.dma[c] = none ∧ ¬ BadDesc s c d ∧ r = ⟨d, 0, 0, 0, false, false⟩) → r.desc.ctrl.getLsbD 0 = false →
  s.mayWrite (.dma c) (chunkAt r) (chunkLen r) = true →
  Runs (.dmaChunk c d data .ok) s fun t =>
    (∀ i, i < chunkLen r → t.byte (chunkAt r + i) = data.getD i 0) ∧ BytesApart s t (chunkAt r) (chunkLen r) ∧
    DmaTurns s t c (chunkAt r) (chunkLen r) ∧ t = { s with
      mem := t.mem, drc := { s.drc with turn := t.drc.turn, written := t.drc.written }, dma := s.dma.set c (some (moved r)), dmaNext := (c.val + 1) % 16 }

/-- DMA_CHUNK to the host: the chunk's bytes go out. -/
def dmaChunkOut : Prop := ∀ (c : Fin 16) (d : DmaDesc) (data : List Byte) (r : DmaRun) (s : State), Turn s c → Served s →
  (s.dma[c] = some r ∨ s.dma[c] = none ∧ ¬ BadDesc s c d ∧ r = ⟨d, 0, 0, 0, false, false⟩) → r.desc.ctrl.getLsbD 0 = true →
  s.mayRead (.dma c) (chunkAt r) (chunkLen r) = true → (∀ i, i < chunkLen r → s.drc.lost[stackOf (chunkAt r + i)] = false) →
  Runs (.dmaChunk c d data .ok) s fun t => DmaTurns s t c (chunkAt r) (chunkLen r) ∧ t = { s with
    drc := { s.drc with turn := t.drc.turn }
    dma := s.dma.set c (some (moved r)), dmaNext := (c.val + 1) % 16
    out := s.out ++ [.hostWrite (r.desc.haddr.toNat + r.moved) (s.bytes (chunkAt r) (chunkLen r))] }

/-- An error ends the descriptor (R494): 2 an uncorrectable error of the memory, 4 one of the host, which AER records. -/
def dmaChunkError : Prop := ∀ (c : Fin 16) (d : DmaDesc) (data : List Byte) (e : DmaEnd) (r : DmaRun) (s : State), Turn s c →
  Served s → (s.dma[c] = some r ∨ s.dma[c] = none ∧ ¬ BadDesc s c d ∧ r = ⟨d, 0, 0, 0, false, false⟩) → e ≠ .ok →
  (if r.desc.ctrl.getLsbD 0 = true then s.mayRead (.dma c) (chunkAt r) (chunkLen r) = true
    else e = .hostErr ∧ s.mayWrite (.dma c) (chunkAt r) (chunkLen r) = true) →
  Runs (.dmaChunk c d data e) s fun t => DmaTurns s t c (chunkAt r) (chunkLen r) ∧ t = { s with
    drc := { s.drc with turn := t.drc.turn }
    dma := s.dma.set c (some { r with code := if e = .ecc then 2 else 4, finished := true }), dmaNext := (c.val + 1) % 16
    out := if e = .ecc then s.out else s.out ++ [.aerHost (s.ownerDma c)] }

/-- Barred by the region map (R493, R494, R94): code 1 before any other end, and HBM in the ACCERR copy of the channel's partition. -/
def dmaChunkBarred : Prop := ∀ (c : Fin 16) (d : DmaDesc) (data : List Byte) (e : DmaEnd) (r : DmaRun) (s : State), Turn s c → Served s →
  (s.dma[c] = some r ∨ s.dma[c] = none ∧ ¬ BadDesc s c d ∧ r = ⟨d, 0, 0, 0, false, false⟩) →
  (if r.desc.ctrl.getLsbD 0 = true then s.mayRead (.dma c) (chunkAt r) (chunkLen r) = false
    else s.mayWrite (.dma c) (chunkAt r) (chunkLen r) = false) →
  Runs (.dmaChunk c d data e) s fun t =>
    t.rd ⟨aAccerrx (s.hbmCopy (.dma c)), AccBit.hbm.pos, 1⟩ = 1 ∧ OnlyFlds s t (accFlds (s.hbmCopy (.dma c))) ∧
    DmaTurns s t c (chunkAt r) (chunkLen r) ∧ t = { s with
      regs := t.regs, drc := { s.drc with turn := t.drc.turn }, dma := s.dma.set c (some { r with code := 1, finished := true }), dmaNext := (c.val + 1) % 16 }

/-- DMA_STATUS_WRITE (R494): the STATUS word of the descriptor at HEAD, HEAD advanced, CODE shown, the vector fired where the
descriptor asks for it. -/
def dmaStatusWrite : Prop := ∀ (c : Fin 16) (r : DmaRun) (s : State), s.dma[c] = some r → r.finished = true → r.sealDue = false →
  s.dmaStalled.getLsbD c = false →
  Runs (.dmaStatusWrite c) s fun t =>
    let head := s.rd (fDmaHead_INDEX c)
    let status : Word := BitVec.ofNat 32 (2 ^ 31 + r.chunks % 2 ^ 19 * 16 + r.code)
    t.rd (fDmaHead_INDEX c) = (head + 1) % 2 ^ s.rd (fDmaRingsz_LOG2 c) % 2 ^ (fDmaHead_INDEX c).w ∧
    t.rd (fDmaStat_CODE c) = r.code % 2 ^ (fDmaStat_CODE c).w ∧ OnlyFlds s t [fDmaHead_INDEX c, fDmaStat_CODE c] ∧
    t = { s with
      regs := t.regs, dma := s.dma.set c none
      out := s.out ++ [.hostWrite (s.rd (fDmaRing_BASE c) * 4096 + 32 * head + 0x1C) (leBytes 4 status.toNat)] ++
        if r.desc.ctrl.getLsbD 2 = true then
          .msix 0 (16 + c) :: if s.ownerDma c = 0 then [] else [.msix (s.ownerDma c) (16 + c)]
        else [] }

/-! ### Partitions (R488, R489) -/

/-- A slice that a reset of its partition has reset (R489). -/
abbrev SliceReset (s t : State) (n : Fin 8) : Prop :=
  PinsSafe t.sl[n] ∧ t.isReady (.sl n) = false ∧ t.sl[n].stage = [] ∧ t.sl[n].seq = Seq.reset ∧ t.sl[n].synth.a = .recovering ∧
  t.sl[n].synth.b = .recovering ∧ t.sl[n].st ≠ .prefill ∧ t.sl[n].st ≠ .armed ∧ t.sl[n].st ≠ .running ∧
  t.sl[n].mapLane = s.sl[n].mapLane ∧ t.reg (aSlBurst n) = resetWord (aSlBurst n) ∧ t.reg (aSlGang n) = s.reg (aSlGang n)

/-- A partition reset (R489, R495, R577): its DMA channels idle, its slices reset, its SCAN units off, its tasks gone, its mailbox
idle, the command that it held left to the controller, its error record clear; memory, cores, links, time, stacks and Hamper are
not touched. -/
abbrev PartReset (s t : State) (p : Fin 8) : Prop :=
  (∀ c : Fin 16, s.ownerDma c = p → t.dma[c] = none ∧ t.dmaStalled.getLsbD c = false ∧
    t.rd (fDmaHead_INDEX c) = 0 ∧ t.rd (fDmaCtrl_EN c) = 0) ∧
  (∀ c : Fin 16, s.ownerDma c ≠ p → t.dma[c] = s.dma[c] ∧ t.dmaStalled.getLsbD c = s.dmaStalled.getLsbD c ∧
    t.rd (fDmaHead_INDEX c) = s.rd (fDmaHead_INDEX c)) ∧
  (∀ n : Fin 8, s.ownerSl n = p → SliceReset s t n) ∧
  (∀ n : Fin 8, s.ownerSl n ≠ p → t.isReady (.sl n) = s.isReady (.sl n)) ∧
  (∀ u : Fin 4, t.scan[u] = if s.ownerScan u = p then Scan.reset else s.scan[u]) ∧
  t.disp.waiting = s.disp.waiting.filter (fun k => k.by_ != .pcie p) ∧
  (∀ q : Fin 8, t.mbox[q] = if q = p then ⟨none, s.mbox[q].orphans ++ (s.mbox[q].op.map fun o =>
    ⟨o.1, o.2, if s.mbox[q].orphans = [] then none else some ((List.range (3 + (o.2 + 3) / 4)).map fun i => s.reg (aMgReq q i))⟩).toList⟩ else s.mbox[q]) ∧
  t.rd (fMgStat_BUSY p) = 0 ∧
  t.reg (aAccerrx p) = resetWord (aAccerrx p) ∧ t.rd (fAccerrxAddr_VALID p) = 0 ∧
  t = { s with
    regs := t.regs, ready := t.ready, wasReady := t.wasReady, sl := t.sl, scan := t.scan, dma := t.dma, dmaStalled := t.dmaStalled, disp := t.disp
    mbox := t.mbox, press := t.press, free := t.free, out := t.out }

/-- A function that is present: the PF, and the virtual ones with SR-IOV (R33). -/
abbrev HasFunction (s : State) (p : Fin 8) : Prop := p = 0 ∨ s.hasCap 10 = true

/-- FLR (R489): a partition reset of the function's partition; of a function that is not present nothing. -/
def flr : Prop := ∀ (p : Fin 8) (s : State),
  Runs (.flr p) s fun t => (HasFunction s p → PartReset s t p) ∧ (¬ HasFunction s p → t = s)

/-- PARTITION_RESET (R489), of one partition, from the PF or the management controller. -/
def partitionReset : Prop := ∀ (ini : Initiator) (p : Fin 8) (v : Word) (s : State), Reaches s ini .prst [] →
  pfOrMgmt ini = true → bitsOf v.toNat 0 8 = 2 ^ p.val →
  Runs (.partitionReset ini v) s fun t => (HasFunction s p → PartReset s t p) ∧ (¬ HasFunction s p → t = s)

/-- PCIE_LINK_DOWN (R51): no accepted burst ends; nor does anything else of the block change (log entry 26, the model's reading). -/
def pcieLinkDown : Prop := ∀ (s : State), Runs .pcieLinkDown s fun t => t = s

/-- What a PART word holds of a resource bit: slices, SCAN units, DMA channels. -/
abbrev partBits : List Nat := List.range 12 ++ (List.range 16).map (16 + ·)

/-- PART_WRITE refused (R488): BUSY where a resource that it adds or removes is in use; OVERLAP where another VF partition holds one that
it gives. PART[0] is read-only; BUSY alone where both hold is the model's choice (log entry 24). -/
def partWriteRefused : Prop := ∀ (ini : Initiator) (p : Fin 8) (v : Word) (s : State), Reaches s ini .part [p] →
  pfOrMgmt ini = true → p ≠ 0 → s.hasCap 10 = true →
  let changed := fun (i : Nat) => v.getLsbD i ≠ (s.reg (aPart p)).getLsbD i
  let busy := (∃ n : Fin 8, changed n ∧ (s.sl[n].st ≠ .idle ∨ s.sl[n].chk ≠ none)) ∨
    (∃ u : Fin 4, changed (8 + u) ∧ s.scan[u].st ≠ .off) ∨ ∃ c : Fin 16, changed (16 + c) ∧ s.dma[c] ≠ none
  (busy → Runs (.partWrite ini p v) s fun t => Flagged s t ini .busy (aPart p)) ∧
  (¬ busy → (∃ q : Fin 8, q ≠ p ∧ q ≠ 0 ∧ ∃ i ∈ partBits, v.getLsbD i = true ∧ (s.reg (aPart q)).getLsbD i = true) →
    Runs (.partWrite ini p v) s fun t => Flagged s t ini .overlap (aPart p))

/-- PART_WRITE accepted (R488): no gang and no SCAN unit's slices span partitions with the new word. -/
def partWrite : Prop := ∀ (ini : Initiator) (p : Fin 8) (v : Word) (s : State), Reaches s ini .part [p] →
  pfOrMgmt ini = true → p ≠ 0 → s.hasCap 10 = true → (∀ n : Fin 8, s.sl[n].st = .idle ∧ s.sl[n].chk = none) → (∀ u : Fin 4, s.scan[u].st = .off) →
  (∀ c : Fin 16, s.dma[c] = none) →
  (∀ q : Fin 8, q ≠ p → q ≠ 0 → ∀ i ∈ partBits, ¬ (v.getLsbD i = true ∧ (s.reg (aPart q)).getLsbD i = true)) →
  (s.writeReg ini .part [p] .lo (v.setWidth 64)).partsWhole = true →
  Runs (.partWrite ini p v) s fun t =>
    t.rd (fPart_SLICES p) = bitsOf v.toNat 0 8 ∧ t.rd (fPart_SCAN p) = bitsOf v.toNat 8 4 ∧
    t.rd (fPart_DMACH p) = bitsOf v.toNat 16 16 ∧ OnlyFlds s t [wordFld (aPart p)] ∧ t = { s with regs := t.regs }

/-- PART_WRITE that would leave a gang, or a SCAN unit and a slice attached to it, in two partitions (R488): OVERLAP. -/
def partWriteSpans : Prop := ∀ (ini : Initiator) (p : Fin 8) (v : Word) (s : State), Reaches s ini .part [p] →
  pfOrMgmt ini = true → p ≠ 0 → s.hasCap 10 = true → (∀ n : Fin 8, s.sl[n].st = .idle ∧ s.sl[n].chk = none) → (∀ u : Fin 4, s.scan[u].st = .off) →
  (∀ c : Fin 16, s.dma[c] = none) →
  let w := s.writeReg ini .part [p] .lo (v.setWidth 64)
  ((∃ n : Fin 8, ∃ m ∈ w.gang n, w.ownerSl m ≠ w.ownerSl n) ∨ (∃ u : Fin 4, ∃ n ∈ w.attached u, w.ownerSl n ≠ w.ownerScan u)) →
  Runs (.partWrite ini p v) s fun t => Flagged s t ini .overlap (aPart p)

/-- PART[0] is read-only (R488), and a function that is not present owns nothing (R33). -/
def partZero : Prop := ∀ (ini : Initiator) (p : Fin 8) (v : Word) (s : State), Reaches s ini .part [p] → pfOrMgmt ini = true →
  (p = 0 ∨ s.hasCap 10 = false) → Runs (.partWrite ini p v) s fun t => t = s

/-! ### Mailboxes (R499 to R501) -/

/-- A mailbox command taken (R499): BUSY until its response; a second one meanwhile is dropped, with BUSY in the error record. -/
abbrev Taken (s t : State) (p : Fin 8) (op len : Nat) : Prop :=
  t.mbox[p] = ⟨some (op, len), s.mbox[p].orphans⟩ ∧ (∀ q : Fin 8, q ≠ p → t.mbox[q] = s.mbox[q]) ∧ t.rd (fMgStat_BUSY p) = 1

/-- The command at the head of those that a reset took from a mailbox is under way (R489). -/
abbrev Begun (s : State) (p : Fin 8) : Prop := ∀ o ∈ s.mbox[p].orphans.head?, o.req = none

/-- GET_INFO, READ_SENSORS, READ_LOG, UPDATE_END, CONFIRM and COMMIT_SVN (R499): the mailbox is BUSY with the command until the
controller answers. -/
def mailboxAsks : Prop := ∀ (ini : Initiator) (p : Fin 8) (v : Word) (s : State), Reaches s ini .mgCmd [p] → s.mbox[p].op = none →
  bitsOf v.toNat 0 12 ≤ 4064 → Begun s p →
  ∀ e ∈ [(Instr.getInfo ini p v, 1), (.readSensors ini p v, 2), (.readLog ini p v, 3), (.updateEnd ini p v, 0x22),
    (.confirm ini p v, 0x23), (.commitSvn ini p v, 0x24)],
  Runs e.1 s fun t => Taken s t p e.2 (bitsOf v.toNat 0 12) ∧ OnlyFlds s t [fMgStat_BUSY p] ∧
    t = { s with regs := t.regs, mbox := t.mbox }

/-- A command of the PF's alone (R499) that another partition gives: taken, with no effect but its answer. -/
def mailboxDenied : Prop := ∀ (ini : Initiator) (p : Fin 8) (v : Word) (s : State), Reaches s ini .mgCmd [p] → s.mbox[p].op = none →
  bitsOf v.toNat 0 12 ≤ 4064 → Begun s p → p ≠ 0 →
  ∀ e ∈ [(Instr.remoteRd ini p v, 0x10), (.remoteWr ini p v, 0x11), (.updateBegin ini p v, 0x20), (.updateData ini p v, 0x21)],
  Runs e.1 s fun t => Taken s t p e.2 (bitsOf v.toNat 0 12) ∧ OnlyFlds s t [fMgStat_BUSY p] ∧
    t = { s with regs := t.regs, mbox := t.mbox }

/-- Commands behind one that a partition reset took from the mailbox (R489): they wait with their effects until it has ended. -/
def mailboxBehind : Prop := ∀ (ini : Initiator) (p : Fin 8) (v : Word) (s : State), Reaches s ini .mgCmd [p] → s.mbox[p].op = none →
  bitsOf v.toNat 0 12 ≤ 4064 → Begun s p → s.mbox[p].orphans ≠ [] →
  ∀ e ∈ [(Instr.remoteRd ini p v, 0x10), (.remoteWr ini p v, 0x11), (.updateBegin ini p v, 0x20), (.updateData ini p v, 0x21)],
  Runs e.1 s fun t => Taken s t p e.2 (bitsOf v.toNat 0 12) ∧ OnlyFlds s t [fMgStat_BUSY p] ∧
    t = { s with regs := t.regs, mbox := t.mbox }

/-- A length that CMD does not list (R514, R22), the choice of log entry 25: the command is not taken. -/
def mailboxLength : Prop := ∀ (ini : Initiator) (p : Fin 8) (v : Word) (s : State), Reaches s ini .mgCmd [p] → s.mbox[p].op = none →
  4064 < bitsOf v.toNat 0 12 →
  ∀ c ∈ [Instr.getInfo ini p v, .readSensors ini p v, .readLog ini p v, .remoteRd ini p v, .remoteWr ini p v, .updateBegin ini p v,
    .updateData ini p v, .updateEnd ini p v, .confirm ini p v, .commitSvn ini p v],
  Runs c s fun t => Flagged s t ini .rsvd (aMgCmd p)

/-- A command while the mailbox is busy (R499). -/
def mailboxBusy : Prop := ∀ (ini : Initiator) (p : Fin 8) (v : Word) (s : State), Reaches s ini .mgCmd [p] → s.mbox[p].op ≠ none →
  ∀ c ∈ [Instr.getInfo ini p v, .readSensors ini p v, .readLog ini p v, .remoteRd ini p v, .remoteWr ini p v, .updateBegin ini p v,
    .updateData ini p v, .updateEnd ini p v, .confirm ini p v, .commitSvn ini p v],
  Runs c s fun t => Flagged s t ini .busy (aMgCmd p)

/-- Request word i. -/
abbrev reqOf (s : State) (i : Nat) : Word := s.reg (aMgReq 0 i)

/-- REMOTE_RD and REMOTE_WR by partition 0 (R500, R443): the request leaves by the port of its route with the next tag, or ends
with NOROUTE. -/
abbrev Requests (s t : State) (len : Nat) (op : Nat) (load : Payload) : Prop :=
  let dst : BitVec 12 := (reqOf s 0).setWidth 12
  let off := (reqOf s 1).toNat % 2 ^ 26 / 4 * 4
  Taken s t 0 op len ∧ OnlyFlds s t [fMgStat_BUSY 0] ∧
  (∀ q : Fin 4, s.remotePort dst = some q →
    t = { s with
      regs := t.regs, mbox := t.mbox, remote := some ⟨dst, s.remoteTag, off, none⟩, remoteTag := s.remoteTag + 1
      port := s.port.set q { s.port[q] with wait := s.port[q].wait ++ [⟨0, dst, s.enum.index, false, false, load⟩] } }) ∧
  (s.remotePort dst = none →
    t = { s with regs := t.regs, mbox := t.mbox, remote := some ⟨dst, s.remoteTag, off, some (5, 0)⟩ })

/-- REMOTE_RD and REMOTE_WR (R500, R443): the offset, and the data of a write, are the request's words 1 and 2, as log entry 17 lays them
out. -/
def remoteRd : Prop := ∀ (ini : Initiator) (v : Word) (s : State), Reaches s ini .mgCmd [0] → s.mbox[(0 : Fin 8)] = Mbox.reset →
  bitsOf v.toNat 0 12 ≤ 4064 →
  Runs (.remoteRd ini 0 v) s fun t => Requests s t (bitsOf v.toNat 0 12) 0x10
    (.regrd s.remoteTag ((reqOf s 1).toNat % 2 ^ 26 / 4 * 4))

def remoteWr : Prop := ∀ (ini : Initiator) (v : Word) (s : State), Reaches s ini .mgCmd [0] → s.mbox[(0 : Fin 8)] = Mbox.reset →
  bitsOf v.toNat 0 12 ≤ 4064 →
  Runs (.remoteWr ini 0 v) s fun t => Requests s t (bitsOf v.toNat 0 12) 0x11
    (.regwr s.remoteTag ((reqOf s 1).toNat % 2 ^ 26 / 4 * 4) (reqOf s 2))

/-- The port of a route (R447, R500): a TRUSTED port in ACTIVE or RECOVER whose role is current; none for the device itself. -/
def remoteRoute : Prop := ∀ (dst : BitVec 12) (q : Fin 4) (s : State), s.remotePort dst = some q →
  ¬ Mine s dst ∧ (s.downFor dst <|> s.enum.up) = some q ∧ Carries s q ∧ s.rd (fClCtrl_MODE q) = 1 ∧
  (s.port[q].st = .active ∨ s.port[q].st = .recover)

/-- REMOTE_TIMEOUT (R500): a request without its REGRSP ends with TIMEOUT. -/
def remoteTimeout : Prop := ∀ (s : State),
  Runs .remoteTimeout s fun t => t = { s with remote := match s.remote with
    | some r => if r.res = none then some { r with res := some (4, 0) } else some r
    | none => none }

/-- UPDATE_BEGIN by partition 0 (R501): an image of up to 16 MiB begins; the layouts of these requests are the model's choice (log entry
17). -/
def updateBegin : Prop := ∀ (ini : Initiator) (v : Word) (s : State), Reaches s ini .mgCmd [0] → s.mbox[(0 : Fin 8)] = Mbox.reset →
  bitsOf v.toNat 0 12 ≤ 4064 →
  Runs (.updateBegin ini 0 v) s fun t => Taken s t 0 0x20 (bitsOf v.toNat 0 12) ∧ OnlyFlds s t [fMgStat_BUSY 0] ∧
    t = { s with
      regs := t.regs, mbox := t.mbox
      slots := if reqOf s 0 = 0 ∨ 0x1000000 < (reqOf s 0).toNat then { s.slots with writing := none }
        else { s.slots with writing := some (reqOf s 0).toNat, written := 0 } }

/-- UPDATE_DATA (R501): the bytes land in the slot that is not running, at their offset, and nowhere else. -/
def updateData : Prop := ∀ (ini : Initiator) (v : Word) (size : Nat) (s : State), Reaches s ini .mgCmd [0] →
  s.mbox[(0 : Fin 8)] = Mbox.reset → s.slots.writing = some size → 1 ≤ bitsOf v.toNat 0 12 → bitsOf v.toNat 0 12 ≤ 4064 →
  (reqOf s 0).toNat + bitsOf v.toNat 0 12 ≤ size →
  Runs (.updateData ini 0 v) s fun t =>
    let len := bitsOf v.toNat 0 12
    let base := (if s.slots.run = some true then 0 else 0x1000000) + (reqOf s 0).toNat
    Taken s t 0 0x21 len ∧ OnlyFlds s t [fMgStat_BUSY 0] ∧
    (∀ i, i < len → Memory.get t.slots.nor (base + i) = (reqOf s (1 + i / 4) >>> (8 * (i % 4))).setWidth 8) ∧
    (∀ a, (a < base ∨ base + len ≤ a) → Memory.get t.slots.nor a = Memory.get s.slots.nor a) ∧
    t = { s with
      regs := t.regs, mbox := t.mbox, slots := { s.slots with nor := t.slots.nor, written := s.slots.written + len } }

/-- UPDATE_DATA that does not fit, or without a begun update, writes nothing; its response says so. -/
def updateDataOutside : Prop := ∀ (ini : Initiator) (v : Word) (s : State), Reaches s ini .mgCmd [0] →
  s.mbox[(0 : Fin 8)] = Mbox.reset →
  bitsOf v.toNat 0 12 ≤ 4064 →
  (∀ size, s.slots.writing = some size → bitsOf v.toNat 0 12 = 0 ∨ size < (reqOf s 0).toNat + bitsOf v.toNat 0 12) →
  Runs (.updateData ini 0 v) s fun t => Taken s t 0 0x21 (bitsOf v.toNat 0 12) ∧ OnlyFlds s t [fMgStat_BUSY 0] ∧
    t = { s with regs := t.regs, mbox := t.mbox }

/-- A response (R499): CODE, the words, RLEN, DONE, BUSY cleared, vector 0 of the partition. -/
abbrev Responded (s t : State) (p : Fin 8) (code : Nat) (words : List Word) : Prop :=
  t.rd (fMgStat_CODE p) = code ∧ t.rd (fMgStat_RLEN p) = 4 * words.length ∧ t.rd (fMgStat_DONE p) = 1 ∧
  t.rd (fMgStat_BUSY p) = 0 ∧ (∀ i, i < words.length → t.reg (aMgRsp p i) = words.getD i 0) ∧
  OnlyFlds s t (fMgStat_CODE p :: fMgStat_RLEN p :: fMgStat_DONE p :: fMgStat_BUSY p ::
    (List.range words.length).map fun i => wordFld (aMgRsp p i)) ∧
  t = { s with
    regs := t.regs, mbox := s.mbox.set p Mbox.reset, out := t.out, slots := t.slots, remote := t.remote } ∧
  t.out = s.out ++ .msix 0 0 :: if p = 0 then [] else [.msix p 0]

/-- The code and words that a command's response brings (R499 to R501), the choices of log entry 17 for the layouts. -/
def answerOf (s : State) (p : Fin 8) (op len : Nat) (check : ImageCheck) (info : List Word) : Nat × List Word :=
  if op ∉ [1, 2, 3, 0x10, 0x11, 0x20, 0x21, 0x22, 0x23, 0x24] then (2, [])
  else if 3 ≤ op ∧ p ≠ 0 then (1, [])
  else if op = 1 then (0, [info.getD 0 0, BitVec.ofNat 32 s.slots.runSvn,
    if s.slots.run = none then 0 else if s.slots.run = some true then 2 else 1, BitVec.ofNat 32 s.svn])
  else if op = 2 then (0, (List.range 17).map fun i => s.reg (aSensor i))
  else if op = 3 then
    if 1 ≤ (reqOf s 1).toNat ∧ (reqOf s 1).toNat ≤ 63 then (0, s.logRange (reqOf s 0).toNat (reqOf s 1).toNat) else (3, [])
  else if op = 0x20 then (if s.slots.writing.isSome then 0 else 3, [])
  else if op = 0x21 then
    (match s.slots.writing with
      | some size => if len = 0 ∨ size < (reqOf s 0).toNat + len then 3 else 0
      | none => 3, [])
  else if op = 0x22 then
    (if s.slots.writing = none then 3 else match check with
      | .signed v => if v < s.svn then 8 else 0
      | .unsigned => 9
      | .unread => 3, [])
  else if op = 0x23 then (if s.slots.run ≠ none ∧ s.slots.run = s.slots.trial then 0 else 3, [])
  else if s.slots.run = some s.slots.confirmed ∧ s.slots.trial ≠ s.slots.run then
    (0, [BitVec.ofNat 32 (min 64 (max s.svn s.slots.runSvn))])
  else (3, [])

/-- MAILBOX_RESPONSE (R499), but for remote requests. -/
def mailboxResponse : Prop := ∀ (p : Fin 8) (check : ImageCheck) (info : List Word) (op len : Nat) (s : State),
  s.mbox[p] = ⟨some (op, len), []⟩ → s.isReady .mgmt = true → (p = 0 → op ≠ 0x10 ∧ op ≠ 0x11) →
  Runs (.mailboxResponse p check info) s fun t =>
    let a := answerOf s p op len check info
    Responded s t p a.1 a.2 ∧ t.remote = s.remote ∧ (¬ (p = 0 ∧ (op = 0x22 ∨ op = 0x23 ∨ op = 0x24)) → t.slots = s.slots)

/-- UPDATE_END, CONFIRM and COMMIT_SVN at their responses (R501): an image that is signed and not older than the fuse counter is the
trial; another is marked invalid, and is no trial image; a running trial is confirmed; the fuse counter rises to the running confirmed
image's SVN, at most 64. -/
def updateResponses : Prop := ∀ (check : ImageCheck) (info : List Word) (op len : Nat) (s : State),
  s.mbox[(0 : Fin 8)] = ⟨some (op, len), []⟩ → s.isReady .mgmt = true →
  Runs (.mailboxResponse 0 check info) s fun t =>
    (op = 0x22 → s.slots.writing ≠ none →
      let other : Bool := decide (s.slots.run ≠ some true)
      let ix : Fin 2 := if other = true then 1 else 0
      let pass : Bool := match check with
        | .signed v => decide (s.svn ≤ v)
        | _ => false
      t.slots.trial = (if pass = true then some other else if s.slots.trial = some other then none else s.slots.trial) ∧
      t.slots.bootedOnce = (if pass = true ∨ s.slots.trial = some other then false else s.slots.bootedOnce) ∧
      t.slots.invalid[ix] = (if pass = true then 0 else match check with
        | .signed _ => 3
        | .unsigned => 2
        | .unread => s.slots.invalid[ix]) ∧
      (∀ k : Fin 2, k ≠ ix → t.slots.invalid[k] = s.slots.invalid[k]) ∧
      t.slots = { s.slots with
        writing := none, written := 0, trial := t.slots.trial, bootedOnce := t.slots.bootedOnce, invalid := t.slots.invalid }) ∧
    (op = 0x23 → s.slots.run ≠ none → s.slots.run = s.slots.trial →
      t.slots = { s.slots with confirmed := s.slots.run.getD false, trial := none, bootedOnce := false }) ∧
    (op = 0x24 → s.slots.run = some s.slots.confirmed → s.slots.trial ≠ s.slots.run →
      t.slots = { s.slots with svn := some (min 64 (max s.svn s.slots.runSvn)) })

/-- The response of a remote request that ended (R443, R500): its code, and the data of a read, in the layout of log entry 17, the model's
choice. -/
def remoteResponse : Prop := ∀ (check : ImageCheck) (info : List Word) (op len code : Nat) (data : Word) (r : Remote) (s : State),
  s.mbox[(0 : Fin 8)] = ⟨some (op, len), []⟩ → s.isReady .mgmt = true → (op = 0x10 ∨ op = 0x11) → s.remote = some r → r.res = some (code, data) → code < 16 →
  Runs (.mailboxResponse 0 check info) s fun t =>
    Responded s t 0 code (BitVec.ofNat 32 code :: if op = 0x10 then [data] else []) ∧ t.remote = none ∧ t.slots = s.slots

/-- A command that a partition reset took from its mailbox ends first, with its effect, and its response is discarded (R489): the
mailbox's registers stay as they are. -/
def mailboxDiscarded : Prop := ∀ (p : Fin 8) (check : ImageCheck) (info : List Word) (o : Orphan) (l : List Orphan) (s : State),
  s.mbox[p].orphans = o :: l → s.isReady .mgmt = true → o.op ≠ 0x10 → o.op ≠ 0x11 →
  (match l with
    | [] => s.mbox[p].op = none
    | x :: _ => p ≠ 0 ∨ x.op ∉ [0x10, 0x11, 0x20, 0x21] ∨ x.req = none) →
  Runs (.mailboxResponse p check info) s fun t =>
    t.mbox = s.mbox.set p { s.mbox[p] with orphans := match l with | [] => [] | x :: r => { x with req := none } :: r } ∧
    ((p ≠ 0 ∨ o.op < 0x22) → t.slots = s.slots) ∧ t = { s with mbox := t.mbox, slots := t.slots }

/-- A command that a second partition reset took from its mailbox while one before it ran (R489, R501): once that one has ended it
begins, by the request that it was given. -/
def mailboxNext : Prop := ∀ (check : ImageCheck) (info : List Word) (o : Orphan) (len : Nat) (w : List Word) (l : List Orphan) (s : State),
  s.mbox[(0 : Fin 8)].orphans = o :: ⟨0x20, len, some w⟩ :: l → s.isReady .mgmt = true → o.op < 0x10 →
  Runs (.mailboxResponse 0 check info) s fun t =>
    t = { s with
      mbox := s.mbox.set 0 { s.mbox[(0 : Fin 8)] with orphans := ⟨0x20, len, none⟩ :: l }
      slots := if w.getD 0 0 = 0 ∨ 0x1000000 < (w.getD 0 0).toNat then { s.slots with writing := none }
        else { s.slots with writing := some (w.getD 0 0).toNat, written := 0 } }

/-! ### Sensors and the sideband (R497, R498, R506) -/

/-- A reading of a sensor as a number: temperatures are signed. -/
abbrev readAs (i : Fin 17) (r : BitVec 16) : Int := if i ≤ 4 ∨ 9 ≤ i then r.toInt else r.toNat

/-- The reading of a measured quantity in 2^-16 of the sensor's unit: rounded to the nearest, an exact half up, within the field. -/
abbrev readingAs (i : Fin 17) (m : Int) : Int :=
  if i ≤ 4 ∨ 9 ≤ i then max (-32768) (min ((m + 32768) / 65536) 32767) else max 0 (min ((m + 32768) / 65536) 65535)

/-- SENSOR_SAMPLE (R497, R547): the readings shown; WARN and a corrected record where a reading reaches its limit; the fatal fault beyond
the junction limit; a slice's DUE and CAL_STALE where its reading drifted from REFTEMP; nothing else follows where no die is too hot. -/
def sensorSample : Prop := ∀ (l : List Int) (s : State), s.power.on = true → s.isReady .mgmt = true → s.power.rails = true →
  s.power.peOff = false → s.power.st ≠ .standby → l.length = 17 →
  Runs (.sensorSample l) s fun t =>
    let x := fun (i : Fin 17) => readingAs i (l.getD i 0)
    let limit := fun (i : Fin 17) => readAs i (BitVec.ofNat 16 (s.rd (fSenswarn_LIMIT i)))
    let reaches := fun (i : Fin 17) => limit i ≤ x i ∧
      ¬ (limit i ≤ readAs i (BitVec.ofNat 16 (s.rd (fSensor_VALUE i))) ∧ s.rd (fSensor_WARN i) = 1)
    let hot := ∃ i : Fin 17, (i ≤ 4 ∧ 1680 < x i) ∨ (9 ≤ i ∧ 1760 < x i)
    (∀ i : Fin 17, t.rd (fSensor_VALUE i) = (BitVec.ofInt 16 (x i)).toNat ∧
      (t.rd (fSensor_WARN i) = if limit i ≤ x i then 1 else s.rd (fSensor_WARN i)) ∧
      (reaches i → t.rd (fHmSrc_LATCHED (Config.sourceOf (.sensor i))) = 1)) ∧
    (hot → Fatal s t ∧ FatalFrame s t) ∧
    (¬ hot →
      t.rd (fHmCnt_COUNT 0) = min (s.rd (fHmCnt_COUNT 0) + ((List.finRange 17).filter fun i => decide (reaches i)).length)
        (2 ^ (fHmCnt_COUNT 0).w - 1) ∧
      (∀ n : Fin 8, let d := ((BitVec.ofInt 16 (x (Fin.ofNat 17 (9 + n.val)))).toInt - signed (s.rd (fPrStat_REFTEMP n)) 16).natAbs
        t.rd (fPrStat_DUE n) = (if s.isReady .press = true ∧ s.rd fPrCfg_DRIFT < d then 1 else s.rd (fPrStat_DUE n)) ∧
        t.rd (fPrStat_CAL_STALE n) = (if s.isReady .press = true ∧ s.rd fPrCfg_HARD < d then 1 else s.rd (fPrStat_CAL_STALE n))) ∧
      OnlyFlds s t (((List.finRange 17).flatMap fun (i : Fin 17) =>
        [fSensor_VALUE i, fSensor_WARN i] ++ if reaches i then reportFlds (Config.sourceOf (.sensor i)) else []) ++
        (List.finRange 8).flatMap fun (n : Fin 8) => [fPrStat_DUE n, fPrStat_CAL_STALE n]) ∧
      t = { s with regs := t.regs, hamper := t.hamper, out := t.out })

/-- Without power, and while the management controller does not run (R575), nothing is sampled; while the PE dies are unpowered (R604)
their sensors keep what they show. -/
def sensorSampleUnpowered : Prop := ∀ (l : List Int) (s : State),
  ((s.power.on = false ∨ s.isReady .mgmt = false) → Runs (.sensorSample l) s fun t => t = s) ∧
  ((s.power.peOff = true ∨ s.power.rails = false ∨ s.power.st = .standby) → Runs (.sensorSample l) s fun t =>
    ∀ i : Fin 17, 9 ≤ i → t.reg (aSensor i) = s.reg (aSensor i))

/-- An SMBus write that has its effect: AON powered, the PEC right, the byte 0x5A. -/
abbrev SmbTakes (s : State) (data : Byte) (pec : Bool) : Prop := s.power.vaon = true ∧ pec = true ∧ data = 0x5A

/-- Every slice at the pin safe state, no burst left to play (R243): each burst ends with the cause SAFE_STATE (R506). -/
abbrev SafeEnds (s t : State) : Prop := ∀ n : Fin 8,
  PinsSafe t.sl[n] ∧ RegsSafe t n ∧ (t.sl[n].st = .idle ∨ t.sl[n].st = .ending) ∧ t.sl[n].chk = none ∧
  ((∀ k : Fin 8, n ∈ s.burstOf k → s.sl[k].st = s.sl[n].st) → EndsAtOnce s t n n .safeState)

abbrev AllSafe (s t : State) : Prop :=
  SafeEnds s t ∧
  OnlyFlds s t ((List.finRange 8).flatMap stopFlds ++ rejectFlds)

/-- SAFE_PINS (R506): every slice safe, the cause held. -/
def safePins : Prop := ∀ (data : Byte) (pec : Bool) (s : State),
  Runs (.safePins data pec) s fun t =>
    if SmbTakes s data pec then AllSafe s t ∧ t = { s with
      regs := t.regs, sl := t.sl, press := t.press, free := t.free, out := t.out, power := { s.power with sbSafe := true } }
    else t = s

/-- SAFE_RELEASE (R506): the cause goes, no switch closes. -/
def safeRelease : Prop := ∀ (data : Byte) (pec : Bool) (s : State),
  Runs (.safeRelease data pec) s fun t =>
    t = if SmbTakes s data pec then { s with power := { s.power with sbSafe := false } } else s

/-- POWER_DOWN_PE (R583): every slice safe and not ready, the PE dies unpowered; in STANDBY it waits. -/
def powerDownPe : Prop := ∀ (data : Byte) (pec : Bool) (s : State),
  Runs (.powerDownPe data pec) s fun t =>
    if ¬ SmbTakes s data pec then t = s
    else if s.power.st = .standby then t = { s with power := { s.power with peAsk := true } }
    else AllSafe s t ∧ (∀ n : Fin 8, t.isReady (.sl n) = false) ∧
      (∀ i : Fin 32, (i < 8 ∨ 16 ≤ i) → t.ready.getLsbD i = s.ready.getLsbD i) ∧ t = { s with
        regs := t.regs, ready := t.ready, wasReady := t.wasReady, sl := t.sl, press := t.press, free := t.free, out := t.out
        power := { s.power with peOff := true } }

/-- The SMBus reads (R506): an answer where AON is powered and the PEC right; the codes of the management controller only while
it runs. -/
abbrev Answers (s t : State) (pec : Bool) (bytes : List Byte) : Prop :=
  t = if s.power.vaon = true ∧ pec = true then { s with out := s.out ++ [.smbus bytes] } else s

/-- READ_HAMPER_LOG (R506): the four AON copies, FIRST, LAST, FATAL 1 and FATAL 2. -/
def readHamperLog : Prop := ∀ (pec : Bool) (s : State),
  Runs (.readHamperLog pec) s fun t => Answers s t pec
    (wordBytes (recWords s.hamper.first ++ recWords s.hamper.last ++ recWords s.hamper.fatal1 ++ recWords s.hamper.fatal2))

/-- READ_TEMPS (R506): 13 temperatures, 0x8000 for one that cannot be reached, and the age. -/
def readTemps : Prop := ∀ (pec : Bool) (age : Nat) (reach : BitVec 13) (s : State),
  Runs (.readTemps pec age reach) s fun t => Answers s t pec
    ((([0, 1, 2, 3, 4, 9, 10, 11, 12, 13, 14, 15, 16] : List Nat).zip (List.range 13)).flatMap (fun e =>
      leBytes 2 (if reach.getLsbD e.2 then s.rd (fSensor_VALUE e.1) else 0x8000)) ++ [BitVec.ofNat 8 (min age 255)])

/-- SMB_GET_INFO, SMB_READ_SENSORS and SMB_READ_LOG (R506): through the management controller, while it runs; the answers' layouts are the
model's choice (log entry 17). -/
def smbManaged : Prop := ∀ (pec : Bool) (info : List Word) (first count : Nat) (s : State),
  Runs (.smbGetInfo pec info) s (fun t => if s.isReady .mgmt then Answers s t pec (wordBytes (s.infoWords info)) else t = s) ∧
  Runs (.smbReadSensors pec) s (fun t => if s.isReady .mgmt then
    Answers s t pec (wordBytes ((List.range 17).map fun i => s.reg (aSensor i))) else t = s) ∧
  Runs (.smbReadLog pec first count) s fun t => if s.isReady .mgmt then
    Answers s t pec (wordBytes (s.logRange first (min count 63))) else t = s

/-- ALERT_RESPONSE (R498): while ALERT_N is asserted the sideband's address, in the byte of log entry 17. -/
def alertResponse : Prop := ∀ (s : State),
  Runs .alertResponse s fun t =>
    t = if s.power.vaon = true ∧ (s.power.fatal = true ∨ s.rd fIlk_FAULT = 1 ∨ ∃ i : Fin 17, s.rd (fSensor_WARN i) = 1) then
      { s with out := s.out ++ [.smbus [Config.smbAddr.setWidth 8]] } else s

/-! ### The safety interlock (R507, R508) -/

/-- INTERLOCK_CHANGE (R507): a change to OPEN takes every slice to the pin safe state and holds it; CLOSED releases the hold
unless a fault is latched; DISAGREE after OPEN holds. -/
def interlockChange : Prop := ∀ (a b : Bool) (s : State),
  Runs (.interlockChange a b) s fun t =>
    let wasOpen := s.power.ilkA = false ∧ s.power.ilkB = true
    if a = true ∧ b = false then t = { s with power := { s.power with
      ilkA := a, ilkB := b, ilkHold := if s.rd fIlk_FAULT = 1 then s.power.ilkHold else false } }
    else if a = false ∧ b = true then
      if wasOpen then t = { s with power := { s.power with ilkHold := true } }
      else AllSafe s t ∧ t = { s with
        regs := t.regs, sl := t.sl, press := t.press, free := t.free, out := t.out
        power := { s.power with ilkA := a, ilkB := b, ilkHold := true } }
    else t = { s with power := { s.power with ilkA := a, ilkB := b, ilkHold := if wasOpen then true else s.power.ilkHold } }

/-- INTERLOCK_FAULT (R508): after DISC ms of DISAGREE the fault is latched, reported, and every slice safe. -/
def interlockFault : Prop := ∀ (s : State),
  Runs .interlockFault s fun t =>
    if s.power.ilkA ≠ s.power.ilkB then t = s
    else t.rd fIlk_FAULT = 1 ∧
      SafeEnds s t ∧
      OnlyFlds s t (fIlk_FAULT :: reportFlds (Config.sourceOf .interlock) ++ (List.finRange 8).flatMap stopFlds ++ rejectFlds) ∧
      t = { s with regs := t.regs, sl := t.sl, press := t.press, free := t.free, out := t.out, hamper := t.hamper }

/-- ILK_FAULT_CLEAR (R508): only while CLOSED, else BUSY. -/
def ilkFaultClear : Prop := ∀ (ini : Initiator) (v : Word) (s : State), Reaches s ini .ilk [] → pfOrMgmt ini = true →
  Runs (.ilkFaultClear ini v) s fun t =>
    if s.power.ilkA = true ∧ s.power.ilkB = false then
      t.rd fIlk_FAULT = 0 ∧ OnlyFlds s t [fIlk_FAULT] ∧ t = { s with regs := t.regs, power := { s.power with ilkHold := false } }
    else Flagged s t ini .busy aIlk

/-! ### Management Ethernet (R502 to R505) -/

/-- The address of the descriptor at HEAD. -/
abbrev txDesc (s : State) (e : Fin 2) : Nat := s.rd (fEtTxring_BASE e) * 64 + 16 * s.rd (fEtTxhead_INDEX e)
abbrev rxDesc (s : State) (e : Fin 2) : Nat := s.rd (fEtRxring_BASE e) * 64 + 16 * s.rd (fEtRxhead_INDEX e)

/-- The word of FLAGS after a transmission: DONE, and ERR for a descriptor that cannot be sent (R503). -/
abbrev TxBad (s : State) (e : Fin 2) (ecc : Bool) : Prop :=
  let d := txDesc s e
  ecc = true ∨ s.num d 8 % 8 ≠ 0 ∨ s.num (d + 8) 2 < 60 ∨ 2032 < s.num (d + 8) 2 ∨ inPrivate (s.num d 8) (s.num (d + 8) 2) = false

/-- A time of the PHC in units of 2^-16 ns, and a stamp less a latency in ps (R472), rounded down (log entry 61). -/
abbrev stampUnits (x : PhcTime) : Nat := (x.sec.toNat * 1000000000 + x.ns) * 65536 + x.frac
abbrev Less (a b : PhcTime) (ps : Nat) : Prop := b.ns < 1000000000 ∧ b.frac < 65536 ∧
  (stampUnits a < 2 ^ 64 * 1000000000 * 65536 → stampUnits b = (stampUnits a * 1000 - ps * 65536) / 1000)

/-- A port that sends: enabled, with its link, and a descriptor from HEAD to TAIL. -/
abbrev Sends (s : State) (e : Fin 2) : Prop :=
  s.rd (fEtCtrl_EN e) = 1 ∧ s.ethLink[e] = true ∧ s.rd (fEtTxhead_INDEX e) ≠ s.rd (fEtTxtail_INDEX e)

/-- ETH_TX_FRAME (R503, R476): the frame goes out, its stamp, less the latency, is queued where FLAGS asks, FLAGS gets DONE, HEAD
advances. The frame's bytes do not overlap the descriptor's FLAGS. -/
def ethTxFrame : Prop := ∀ (e : Fin 2) (stamp : RawStamp) (ecc : Bool) (s : State), Sends s e → Served s →
  inPrivate (txDesc s e) 16 = true → (∀ k : Fin 2, s.drc.lost[k] = false) →
  (s.num (txDesc s e) 8 + s.num (txDesc s e + 8) 2 ≤ txDesc s e + 12 ∨ txDesc s e + 16 ≤ s.num (txDesc s e) 8) →
  Runs (.ethTxFrame e stamp ecc) s fun t =>
    let d := txDesc s e
    let flags := s.num (d + 12) 4
    t.num (d + 12) 4 = flags % 2 ^ 30 + 2 ^ 31 + (if TxBad s e ecc then 2 ^ 30 else 0) ∧ BytesApart s t (d + 12) 4 ∧
    t.rd (fEtTxhead_INDEX e) = (s.rd (fEtTxhead_INDEX e) + 1) % 2 ^ s.rd (fEtTxsz_LOG2 e) % 2 ^ (fEtTxhead_INDEX e).w ∧
    (if TxBad s e ecc then t = { s with regs := t.regs, mem := t.mem, drc := { s.drc with written := t.drc.written } } ∧ OnlyFlds s t [fEtTxhead_INDEX e]
    else
      (if flags % 2 = 1 ∧ 16 ≤ s.time.txts.length then t.rd fTmTxtsstat_OVF = 1 ∧
          t.rd fTmTxtsovf_COUNT = min (s.rd fTmTxtsovf_COUNT + 1) (2 ^ 32 - 1) ∧
          OnlyFlds s t [fEtTxhead_INDEX e, fTmTxtsstat_OVF, fTmTxtsovf_COUNT]
        else OnlyFlds s t [fEtTxhead_INDEX e]) ∧
      (if flags % 2 = 1 ∧ s.time.txts.length < 16 then ∃ x, Less stamp.time x (s.rd (fTmEthlat_TX e) + stamp.gearbox) ∧
          t.time.txts = s.time.txts ++ [⟨BitVec.ofNat 16 (s.num (d + 10) 2), e, x⟩]
        else t.time.txts = s.time.txts) ∧
      t = { s with
        regs := t.regs, mem := t.mem, out := s.out ++ [.ethFrame e (s.bytes (s.num d 8) (s.num (d + 8) 2))]
        drc := { s.drc with written := t.drc.written }, time := { s.time with txts := t.time.txts } })

/-- A descriptor outside the firmware-private area (R94, R95): its transmission ends with an error, nothing is stored and nothing sent,
and the refused access is recorded. -/
def ethTxRefused : Prop := ∀ (e : Fin 2) (stamp : RawStamp) (ecc : Bool) (s : State), Sends s e → Served s →
  inPrivate (txDesc s e) 16 = false →
  Runs (.ethTxFrame e stamp ecc) s fun t =>
    t.rd ⟨aAccerrx 8, AccBit.hbm.pos, 1⟩ = 1 ∧
    t.rd (fEtTxhead_INDEX e) = (s.rd (fEtTxhead_INDEX e) + 1) % 2 ^ s.rd (fEtTxsz_LOG2 e) % 2 ^ (fEtTxhead_INDEX e).w ∧
    OnlyFlds s t (fEtTxhead_INDEX e :: accFlds 8) ∧ t = { s with regs := t.regs }

/-- ETH_TX_FRAME of a port that has nothing to send, or while the stacks do not serve its descriptor (R53, R502): nothing is sent. -/
def ethTxNothing : Prop := ∀ (e : Fin 2) (stamp : RawStamp) (ecc : Bool) (s : State), Calm s → s.drc.waiting = [] →
  (¬ Sends s e ∨ ∃ k : Fin 2, s.isReady (.hb k) = false ∨ s.drc.selfRefresh[k] = true) →
  Runs (.ethTxFrame e stamp ecc) s fun t => t = s

/-- A number of two bytes of a frame, most significant first, and the frames that R472 stamps: EtherType 0x88F7, or UDP to port 319 over
IPv4, in a first fragment, or IPv6, behind its extension headers. -/
abbrev pair (b : List Byte) (i : Nat) : Nat := (b.getD i 0).toNat * 256 + (b.getD (i + 1) 0).toNat
abbrev PtpEvent (b : List Byte) : Prop :=
  pair b 12 = 0x88F7 ∨
  (pair b 12 = 0x0800 ∧ b.getD 23 0 = 17 ∧ pair b 20 % 8192 = 0 ∧ pair b (16 + 4 * ((b.getD 14 0).toNat % 16)) = 319) ∨
  (pair b 12 = 0x86DD ∧ udp319 b b.length (b.getD 20 0).toNat 54 = true)

/-- UDP to port 319 behind the headers of an IPv6 packet (R472), from the header of a type at a place: UDP itself; a header of options,
of routing or of a fragment, or one of authentication, is passed by its length; in a fragment after the first, and behind any other
header, there is none. -/
def ptpHeaders : Prop := ∀ (b : List Byte) (k hdr a : Nat),
  let next := (b.getD a 0).toNat
  let len := (b.getD (a + 1) 0).toNat
  udp319 b (k + 1) hdr a =
    if hdr = 17 then decide (pair b (a + 2) = 319)
    else if hdr ∈ [0, 43, 60] then udp319 b k next (a + 8 + 8 * len)
    else if hdr = 51 then udp319 b k next (a + 8 + 4 * len)
    else if hdr = 44 ∧ pair b (a + 2) < 8 then udp319 b k next (a + 8)
    else false

/-- What a frame's stamp is as it arrives. -/
abbrev Stamped (s : State) (e : Fin 2) (frame : List Byte) (stamp : RawStamp) (x : Option PhcTime) : Prop :=
  (PtpEvent frame → ∃ y, x = some y ∧ Less stamp.time y (s.rd (fTmEthlat_RX e) + stamp.gearbox)) ∧ (¬ PtpEvent frame → x = none)

/-- ETH_RX_FRAME dropped (R504): a bad FCS is counted, and a frame that finds no buffer, in an empty ring or in one that is not
processed (log entry 61). -/
def ethRxDropped : Prop := ∀ (e : Fin 2) (frame : List Byte) (fcs : Bool) (stamp : RawStamp) (ecc : Bool) (s : State),
  Calm s → s.drc.waiting = [] → s.ethLink[e] = true →
  (fcs = false ∨ s.rd (fEtCtrl_EN e) = 0 ∨ s.rd (fEtRxhead_INDEX e) = s.rd (fEtRxtail_INDEX e)) →
  Runs (.ethRxFrame e frame fcs stamp ecc) s fun t => t = { s with regs := t.regs } ∧
    if fcs = false then t.rd (fEtRxerr_COUNT e) = min (s.rd (fEtRxerr_COUNT e) + 1) (2 ^ (fEtRxerr_COUNT e).w - 1) ∧
      OnlyFlds s t [fEtRxerr_COUNT e]
    else t.rd (fEtRxdrop_COUNT e) = min (s.rd (fEtRxdrop_COUNT e) + 1) (2 ^ (fEtRxdrop_COUNT e).w - 1) ∧
      t.rd (fEtStat_NOBUF e) = 1 ∧ OnlyFlds s t [fEtRxdrop_COUNT e, fEtStat_NOBUF e]

/-- Without a link no frame arrives. -/
def ethRxNothing : Prop := ∀ (e : Fin 2) (frame : List Byte) (fcs : Bool) (stamp : RawStamp) (ecc : Bool) (s : State),
  Calm s → s.drc.waiting = [] → s.ethLink[e] = false → Runs (.ethRxFrame e frame fcs stamp ecc) s fun t => t = s

/-- A port whose next receive buffer takes a frame: its descriptor lies in the firmware-private area, apart from the buffer, which the
port may write. -/
abbrev Receives (s : State) (e : Fin 2) (len : Nat) : Prop :=
  s.rd (fEtRxhead_INDEX e) ≠ s.rd (fEtRxtail_INDEX e) ∧ inPrivate (rxDesc s e) 16 = true ∧
  (s.num (rxDesc s e) 8 + 16 + min len 2032 ≤ rxDesc s e ∨ rxDesc s e + 16 ≤ s.num (rxDesc s e) 8) ∧
  s.mayWrite (.eth e) (s.num (rxDesc s e) 8) (16 + min len 2032) = true ∧ len < 65536

/-- A frame delivered (R504, R505): stamp header and frame, cut at 2,032 bytes, into the buffer; LEN and FLAGS into the descriptor;
HEAD advances. -/
abbrev Delivered (s t : State) (e : Fin 2) (frame : List Byte) (stamp : Option PhcTime) (ecc : Bool) : Prop :=
  let d := rxDesc s e
  let buf := s.num d 8
  (∀ i, i < min frame.length 2032 → t.byte (buf + 16 + i) = frame.getD i 0) ∧
  (∀ x, stamp = some x → t.num buf 8 = x.sec.toNat ∧ t.num (buf + 8) 4 = x.ns % 2 ^ 32 ∧ t.num (buf + 12) 2 = x.frac % 2 ^ 16) ∧
  (stamp = none → t.num buf 8 = 0 ∧ t.num (buf + 8) 8 = 0) ∧
  t.num (d + 8) 2 = frame.length ∧ t.num (d + 12) 4 = (if stamp.isSome then 1 else 0) + (if 2032 < frame.length then 2 else 0) +
    (if ecc then 2 ^ 30 else 0) + 2 ^ 31 ∧
  (∀ a, (a < buf ∨ buf + 16 + min frame.length 2032 ≤ a) → (a < d + 8 ∨ d + 16 ≤ a) → t.byte a = s.byte a) ∧
  t.rd (fEtRxhead_INDEX e) = (s.rd (fEtRxhead_INDEX e) + 1) % 2 ^ s.rd (fEtRxsz_LOG2 e) % 2 ^ (fEtRxhead_INDEX e).w ∧
  OnlyFlds s t [fEtRxhead_INDEX e]

/-- ETH_RX_FRAME (R504, R505, R472): the frame is delivered, with its stamp, less the latency, where R472 stamps it. -/
def ethRxFrame : Prop := ∀ (e : Fin 2) (frame : List Byte) (stamp : RawStamp) (ecc : Bool) (s : State),
  s.rd (fEtCtrl_EN e) = 1 → s.ethLink[e] = true → Served s → s.ethHeld = [] → Receives s e frame.length →
  Runs (.ethRxFrame e frame true stamp ecc) s fun t => ∃ x, Stamped s e frame stamp x ∧ Delivered s t e frame x ecc ∧
    t = { s with regs := t.regs, mem := t.mem, drc := { s.drc with written := t.drc.written } }

/-- ETH_RX_FRAME while a port holds panic, while a stack is out of service, or behind a frame that waits (R53): it waits in its order. -/
def ethRxHeld : Prop := ∀ (e : Fin 2) (frame : List Byte) (stamp : RawStamp) (ecc : Bool) (s : State),
  s.rd (fEtCtrl_EN e) = 1 → s.ethLink[e] = true → s.rd (fEtRxhead_INDEX e) ≠ s.rd (fEtRxtail_INDEX e) → s.drc.waiting = [] →
  (s.panicNow = true ∨ s.ethHeld ≠ [] ∨ ∃ k : Fin 2, s.isReady (.hb k) = false ∨ s.drc.selfRefresh[k] = true) →
  Runs (.ethRxFrame e frame true stamp ecc) s fun t => ∃ x, Stamped s e frame stamp x ∧
    t.ethHeld = s.ethHeld ++ [⟨e, frame, x, ecc⟩] ∧ t.mem = s.mem ∧ (Calm s → t = { s with ethHeld := t.ethHeld })

/-- The frame that has waited longest (R53): once the stacks serve its port it is delivered as one that arrives, and leaves the line. -/
def ethHeldDelivered : Prop := ∀ (x : EthFrame) (l : List EthFrame) (s : State), s.ethHeld = x :: l → Served s →
  Receives s x.port x.bytes.length → Delivered s s.ethDrain x.port x.bytes x.stamp x.ecc ∧
    s.ethDrain = { s with
      regs := s.ethDrain.regs, mem := s.ethDrain.mem, ethHeld := l, drc := { s.drc with written := s.ethDrain.drc.written } }

/-- ETH_LINK_UP of a port that the fuses name (R33, R55, R585): the link is up, and READY.ETHe shows it while MGMT is ready. -/
def ethLinkUp : Prop := ∀ (e : Fin 2) (s : State),
  Runs (.ethLinkUp e) s fun t => if Awake s ∧ s.hasCap (8 + e.val) = true then
      t.isReady (.eth e) = (s.isReady (.eth e) || s.isReady .mgmt) ∧
      (∀ i : Fin 32, i.val ≠ ReadyBit.pos (.eth e) → t.ready.getLsbD i = s.ready.getLsbD i) ∧
      t = { s with ready := t.ready, wasReady := t.wasReady, ethLink := s.ethLink.set e true }
    else t = s

/-- ETH_LINK_DOWN (R51, R55, R545): READY.ETHe clears, the frames in flight go with the link, and no burst ends. -/
def ethLinkDown : Prop := ∀ (e : Fin 2) (s : State),
  Runs (.ethLinkDown e) s fun t => t.isReady (.eth e) = false ∧
    (∀ i : Fin 32, i.val ≠ ReadyBit.pos (.eth e) → t.ready.getLsbD i = s.ready.getLsbD i) ∧
    t = { s with
      ready := t.ready, wasReady := t.wasReady, ethLink := s.ethLink.set e false, ethHeld := s.ethHeld.filter fun x => x.port != e }

/-! ### Patches (spec/15) -/

/-- UPSTAT shows a load that failed or a patch refused; no slice holds a patch. -/
abbrev NoPatch (t : State) (err : Nat) : Prop :=
  t.rd fUpstat_STATE = 3 ∧ t.rd fUpstat_ERR = err ∧ t.rd fUpstat_NWORDS = 0 ∧ t.rd fUpstat_NMATCH = 0 ∧ t.rd fUpstat_SVN = 0 ∧
  t.rd fUpid_PATCHID = 0 ∧ t.patch = none ∧ t.patchLoading = false

/-- What the end of a load does beside the patch itself (R529): UPSTAT and UPID, the slices' marks, and the READY bit of each slice that
nothing else holds back; a load that failed is reported. -/
abbrev LoadEnds (s t : State) (flds : List Fld) (inForce : Bool) : Prop :=
  (∀ n : Fin 8, t.sl[n] = { s.sl[n] with patched := inForce } ∧
    t.isReady (.sl n) = (s.isReady (.sl n) ||
      (decide (SlNeeds t n) && s.sl[n].synth.a == .standby && s.sl[n].synth.b == .standby))) ∧
  (∀ i : Fin 32, (i.val < 8 ∨ 16 ≤ i.val) → t.ready.getLsbD i = s.ready.getLsbD i) ∧
  (inForce = false → t.rd (fHmSrc_LATCHED (Config.sourceOf .patch)) = 1) ∧
  OnlyFlds s t (wordFld aUpstat :: wordFld aUpid :: flds ++ if inForce then [] else reportFlds (Config.sourceOf .patch)) ∧
  t = { s with
    regs := t.regs, ready := t.ready, wasReady := t.wasReady, sl := t.sl, patch := t.patch, patchLoading := false, hamper := t.hamper, out := t.out }

/-- LOAD and REJECT (R528, R529): from the management controller while no slice is ready; REJECT wins. No patch is in force from LOAD on
(R534). -/
def load : Prop := ∀ (ini : Initiator) (v : Word) (s : State), Reaches s ini .upcmd [] → v.getLsbD 1 = false → s.hasCap 12 = true →
  Runs (.load ini v) s fun t =>
    if ini ≠ .mgmt ∨ ∃ n : Fin 8, s.isReady (.sl n) = true then Flagged s t ini .busy aUpcmd
    else t.patchLoading = true ∧ t.rd fUpstat_STATE = 1 ∧ t.rd fUpstat_ERR = 0 ∧ t.rd fUpid_PATCHID = 0 ∧
      OnlyFlds s t ([wordFld aUpcmd, fUpstat_STATE, fUpstat_ERR, fUpid_PATCHID] ++ accFlds (copyOf ini)) ∧
      t = { s with regs := t.regs, patchLoading := true }

/-- REJECT, alone or with LOAD (R528, R533): ERR is the RCODE given, 0 where R533 does not list it. -/
def reject : Prop := ∀ (ini : Initiator) (v : Word) (s : State), Reaches s ini .upcmd [] → s.hasCap 12 = true →
  ∀ c ∈ Instr.reject ini v :: if v.getLsbD 1 = true then [Instr.load ini v] else [], Runs c s fun t =>
    if ini ≠ .mgmt ∨ ∃ n : Fin 8, s.isReady (.sl n) = true then Flagged s t ini .busy aUpcmd
    else
      let code := if bitsOf v.toNat 8 4 ∈ [7, 8] then bitsOf v.toNat 8 4 else 0
      NoPatch t code ∧ t.rd fUpcmd_RCODE = code ∧ LoadEnds s t (wordFld aUpcmd :: accFlds (copyOf ini)) false

/-- Without the patch facility (R33) UPCMD does nothing. -/
def patchAbsent : Prop := ∀ (ini : Initiator) (v : Word) (s : State), Reaches s ini .upcmd [] → s.hasCap 12 = false → ini = .mgmt →
  (∀ n : Fin 8, s.isReady (.sl n) = false) → ∀ c ∈ [Instr.load ini v, .reject ini v],
  Runs c s fun t => OnlyFlds s t (wordFld aUpcmd :: accFlds (copyOf ini)) ∧ t = { s with regs := t.regs }

/-- PATCH_LOAD_DONE (R527, R528, R529, R534): a patch that passes every check is in force in every slice, with its header's ID and SVN;
else ROM alone, with the first check's error. -/
def patchLoadDone : Prop := ∀ (tag ecc : Bool) (plain : List Byte) (s : State), s.patchLoading = true → Served s →
  s.mayRead .patch (s.rd fUpaddr_ADDR) (s.rd fUplen_BYTES) = true → (∀ k : Fin 2, s.drc.lost[k] = false) →
  Runs (.patchLoadDone tag ecc plain) s fun t =>
    let image := s.bytes (s.rd fUpaddr_ADDR) (s.rd fUplen_BYTES)
    let head := image.take 64
    let n := (head.getD 16 0).toNat + 256 * (head.getD 17 0).toNat
    let iv := (image.drop 20).take 12
    let cipher := (image.drop 64).take (128 + 20 * n)
    let good : Bool := decide (Config.patchTag iv head cipher = (image.drop (192 + 20 * n)).take 16)
    let c := patchCheck head (s.rd fUplen_BYTES) good ecc (Config.patchPlain iv cipher)
    (∀ x, c.2 = some x → t.patch = some x ∧ t.rd fUpstat_STATE = 2 ∧ t.rd fUpstat_ERR = 0 ∧
        t.rd fUpstat_NWORDS = x.words.length % 2 ^ fUpstat_NWORDS.w ∧ t.rd fUpstat_NMATCH = x.traps.length % 2 ^ fUpstat_NMATCH.w ∧
        t.rd fUpstat_SVN = leNat ((head.drop 12).take 4) % 2 ^ fUpstat_SVN.w ∧ t.rd fUpid_PATCHID = leNat ((head.drop 8).take 4) ∧
        LoadEnds s t [] true) ∧
    (c.2 = none → NoPatch t c.1 ∧ LoadEnds s t [] false)

/-- An image outside the firmware-private area (R94, R95): read as zeros, no patch. -/
def patchLoadDenied : Prop := ∀ (tag ecc : Bool) (plain : List Byte) (s : State), s.patchLoading = true → Served s →
  s.mayRead .patch (s.rd fUpaddr_ADDR) (s.rd fUplen_BYTES) = false →
  Runs (.patchLoadDone tag ecc plain) s fun t => NoPatch t 1 ∧ t.rd ⟨aAccerrx 8, AccBit.hbm.pos, 1⟩ = 1 ∧ LoadEnds s t (accFlds 8) false

/-- Without a load, or a stack that serves its reads (R369), nothing ends. -/
def patchLoadNone : Prop := ∀ (tag ecc : Bool) (plain : List Byte) (s : State), Calm s → s.drc.waiting = [] →
  (s.patchLoading = false ∨ ∃ k : Fin 2, s.isReady (.hb k) = false ∨ s.drc.selfRefresh[k] = true) →
  Runs (.patchLoadDone tag ecc plain) s fun t => t = s

/-- The checks of an image in order (R527, R528): format, stepping, tag, microwords, trap entries, an uncorrectable error; the first that
fails is the error, 1 to 6; else its words and traps. -/
def patchChecks : Prop := ∀ (h : List Byte) (len : Nat) (tag ecc : Bool) (plain : List Byte),
  let byte := fun (i : Nat) => (h.getD i 0).toNat
  let num := fun (i k : Nat) => leNat ((plain.drop i).take k)
  let nwords := byte 16 + 256 * byte 17
  let nmatch := byte 18
  let word := fun (i : Nat) => BitVec.ofNat 160 (num (128 + 20 * i) 20)
  let format := leNat (h.take 4) = 0x54485550 ∧ byte 4 + 256 * byte 5 = 1 ∧ 1 ≤ nwords ∧ nwords ≤ 1024 ∧ nmatch ≤ 32 ∧ byte 7 = 0 ∧
    byte 19 = 0 ∧ (∀ b ∈ h.drop 32, b = 0) ∧ len = 304 + 20 * nwords
  let words := ∀ i, i < nwords → microListed (word i) = true ∧ mNext (word i) < 0x2000 + nwords ∧ ¬ (mNsel (word i) = 1 ∧ i = 1023)
  let traps := (∀ i, i < 32 → bitsOf (num (4 * i) 4) 0 10 < nwords ∧ bitsOf (num (4 * i) 4) 10 6 = 0 ∧ bitsOf (num (4 * i) 4) 29 2 = 0) ∧
    (∀ i, nmatch ≤ i → i < 32 → num (4 * i) 4 = 0) ∧
    (∀ i j, i < j → j < 32 → bitOf (num (4 * i) 4) 31 = true → bitOf (num (4 * j) 4) 31 = true →
      bitsOf (num (4 * i) 4) 16 13 ≠ bitsOf (num (4 * j) 4) 16 13)
  let c := patchCheck h len tag ecc plain
  (¬ format → c = (1, none)) ∧ (format → byte 6 ≠ Config.stepping.toNat → c = (2, none)) ∧
  (format → byte 6 = Config.stepping.toNat →
    (tag = false → c = (3, none)) ∧ (tag = true → ¬ words → c = (4, none)) ∧ (tag = true → words → ¬ traps → c = (5, none)) ∧
    (tag = true → words → traps → ecc = true → c = (6, none)) ∧
    (tag = true → words → traps → ecc = false → c = (0, some
      ⟨(List.range nwords).map word, (List.range nmatch).map fun i => BitVec.ofNat 32 (num (4 * i) 4)⟩)))

/-- CS_CORRECTED_ERROR (R517): counted and reported; the slice runs on. -/
def csCorrectedError : Prop := ∀ (n : Fin 8) (s : State),
  Awake s → Runs (.csCorrectedError n) s fun t =>
    t.rd (fSlUcsce_COUNT n) = min (s.rd (fSlUcsce_COUNT n) + 1) (2 ^ (fSlUcsce_COUNT n).w - 1) ∧
    OnlyFlds s t (fSlUcsce_COUNT n :: reportFlds (Config.sourceOf (.controlStore n))) ∧
    t = { s with regs := t.regs, hamper := t.hamper, out := t.out }

/-- CS_UNCORRECTABLE_ERROR (R517, R79): CSUE, the slice not ready, its burst ended as by a contained fault, an admission rejected with
FAULT. -/
def csUncorrectableError : Prop := ∀ (n : Fin 8) (s : State),
  Awake s → Runs (.csUncorrectableError n) s fun t =>
    t.rd (fSlUstat_CSUE n) = 1 ∧ t.isReady (.sl n) = false ∧ t.sl[n].csDead = true ∧
    (∀ i : Fin 32, i.val ≠ ReadyBit.pos (.sl n) → t.ready.getLsbD i = s.ready.getLsbD i) ∧
    (∀ c, s.sl[n].chk = some c → Rejected t c.recv .fault n 0 ∧ t.sl[n].chk = none) ∧
    (s.sl[n].isIdle = true → ∀ m : Fin 8, t.sl[m] = if m = n then { s.sl[m] with csDead := true } else s.sl[m]) ∧
    (s.sl[n].st ≠ .idle → ∀ m ∈ s.burstOf n, PinsSafe t.sl[m] ∧ RegsSafe t m ∧ EndsAtOnce s t n m .contained) ∧
    OnlyFlds s t (fSlUstat_CSUE n :: reportFlds (Config.sourceOf (.storeUe n)) ++ rejectFlds ++ (s.burstOf n).flatMap stopFlds) ∧
    t = { s with
      regs := t.regs, ready := t.ready, wasReady := t.wasReady, sl := t.sl, press := t.press, hamper := t.hamper, free := t.free, out := t.out }

/-- SEQ_STATE_CORRECT (R524, R525): reported; CORRECT is entered, before a HEM routine not begun and after any other service. -/
def seqStateCorrect : Prop := ∀ (n : Fin 8) (entry : BitVec 14) (s : State),
  Awake s → Runs (.seqStateCorrect n entry) s fun t =>
    t.rd (fHmSrc_LATCHED (Config.sourceOf (.seqState n))) = 1 ∧ OnlyFlds s t (reportFlds (Config.sourceOf (.seqState n))) ∧
    (let m := s.sl[n].seq.micro
     t.sl[n].seq.micro =
      if m.service = none then { m with addr := some 0xA0, entry := if m.addr = none then none else m.entry, service := some 0xA0, staged := [] }
      else if m.service = some 0x40 ∧ m.addr = some 0x40 then { m with
        pend := 0x40 :: m.pend, addr := some 0xA0, service := some 0xA0, staged := [] }
      else { m with pend := 0xA0 :: m.pend }) ∧
    t = { s.modSl n fun x => { x with seq := { x.seq with micro := t.sl[n].seq.micro } } with
      regs := t.regs, hamper := t.hamper, out := t.out }

/-! ## Press, self-test, power states (spec/16 R546 to R563, spec/17 R578 to R588) -/

/-! ### Press -/

/-- Whether a run may start on a slice (R548, R559, R579): ready, off, IDLE, ADC and TDC at rest, no rinse step of its logic or
buffers, no full BIST of the slice, no cause of the safe state, not parked, in ACTIVE with the PE dies powered. -/
abbrev PressFree (s : State) (n : Fin 8) : Prop :=
  s.isReady .press = true ∧ s.press[n].phase = .off ∧ s.sl[n].isIdle = true ∧ s.sl[n].adcBusy = false ∧ s.sl[n].tdc = none ∧
  s.bist.rinse ≠ some (1, n.val) ∧ s.bist.rinse ≠ some (2, n.val) ∧ s.tested [1, 2, 3] n = false ∧ s.safeHeld = false ∧
  s.rd ⟨aPwrctl, n, 1⟩ = 0 ∧ s.power.st = .active ∧ s.power.peOff = false

/-- The slice has been IDLE for HOLDOFF µs (R548), in TROOT periods of the model's clock. -/
abbrev HeldOff (s : State) (n : Fin 8) : Prop := s.press[n].idleSince + s.rd fPrCfg_HOLDOFF * 12800 ≤ s.clock

/-- A run that starts: its temperature is kept, and every switch of the slice is open (R549, R550). -/
abbrev PressStarts (s t : State) (n : Fin 8) : Prop :=
  t.press = s.press.set n { s.press[n] with
    phase := .running, want := false, found := none, startTemp := BitVec.ofNat 16 (s.rd (fSensor_VALUE (9 + n.val))) } ∧
  (∀ k : Fin 32, t.sl[n].lanes[k] = { s.sl[n].lanes[k] with cut := true }) ∧
  t.sl[n] = { s.sl[n] with lanes := t.sl[n].lanes } ∧ (∀ m : Fin 8, m ≠ n → t.sl[m] = s.sl[m])

/-- PRESS_RUN (R548): whatever AUTO and DUE hold, the run starts at once where every condition holds, else it waits for them. -/
def pressRun : Prop := ∀ (ini : Initiator) (n : Fin 8) (v : Word) (s : State), Reaches s ini .prCtrl [n] →
  Runs (.pressRun ini n v) s fun t =>
    t.rd (fPrCtrl_AUTO n) = bitsOf v.toNat 0 1 ∧ OnlyFlds s t [fPrCtrl_AUTO n] ∧
    (if PressFree s n ∧ (s.press[n].untried = true ∨ HeldOff s n) then PressStarts s t n
      else t.sl = s.sl ∧ t.press = s.press.set n { s.press[n] with want := true }) ∧
    t = { s with regs := t.regs, sl := t.sl, press := t.press }

/-- PRESS_AUTO_START (R548, R552): the slice's first run, a run that RUN asked for, or with AUTO one that is DUE. -/
def pressAutoStart : Prop := ∀ (n : Fin 8) (s : State),
  Runs (.pressAutoStart n) s fun t =>
    (if PressFree s n ∧ (s.press[n].untried = true ∨ (HeldOff s n ∧ (s.press[n].want = true ∨
        (s.rd (fPrCtrl_AUTO n) = 1 ∧ s.rd (fPrStat_DUE n) = 1)))) then PressStarts s t n
      else t = s) ∧
    t = { s with sl := t.sl, press := t.press }

/-- The signed value of one of a DESKEW word's four fields: 0 CMP, 1 OFF, 2 D1, 3 D0. -/
abbrev deskewAt (w : Word) (j : Nat) : Int := ((w >>> (8 * (3 - j))).setWidth 8 : Byte).toInt

/-- The checks of R550 on what a run measured, each against what was in force at its start; where a first run has no valid factory
record to compare with there is no limit on the change (R552). The units are those of log entry 48. -/
abbrev RefOk (m : PressMeasured) : Prop := (m.reference - 2500000).natAbs ≤ 2000 ∧ m.ground.natAbs ≤ 1000
abbrev Compared (s : State) (n : Fin 8) : Prop := s.press[n].untried = false ∨ Config.factoryValid n = true
abbrev DeskewOk (s : State) (n : Fin 8) (m : PressMeasured) (i : Fin 128) : Prop :=
  -128 ≤ m.deskew.getD i 0 ∧ m.deskew.getD i 0 ≤ 127 ∧
  (Compared s n → (m.deskew.getD i 0 - deskewAt (s.reg (aSlDeskew n (i.val / 4))) (i.val % 4)).natAbs ≤ 24)
abbrev TdcOk (s : State) (n : Fin 8) (m : PressMeasured) (i : Fin 98) : Prop :=
  (m.tdc.getD i 0).natAbs * 10000 ≤ 2000 * 32768 ∧ (Compared s n → (m.tdc.getD i 0 - s.sl[n].tdcPath[i]).natAbs * 10000 ≤ 10 * 32768)
abbrev GainOk (g : Nat) : Prop := ((g : Int) - 65536).natAbs * 100 ≤ 65536
abbrev LevelOk (m : PressMeasured) (i : Fin 224) : Prop :=
  let g := m.levels.getD i (65536, 0)
  GainOk g.1 ∧ g.2.natAbs * 4000 ≤ 10 * 65536
abbrev PpmuOk (m : PressMeasured) (i : Fin 160) : Prop :=
  let g := m.ppmu.getD i ((65536, 0), (65536, 0))
  (GainOk g.1.1 ∧ g.1.2.natAbs * 200 ≤ 32768) ∧ GainOk g.2.1 ∧ g.2.2.natAbs * 200 ≤ 32768

/-- The first index at which a check fails. -/
abbrev FirstBad {k : Nat} (ok : Fin k → Prop) (i : Fin k) : Prop := ¬ ok i ∧ ∀ j : Fin k, j < i → ok j

/-- What the checks find (R550): each value within its limits, and the new values as they are written; else the number and the lane of
the first check that fails, in the order of R550's table (log entry 48). -/
def pressAccepts : Prop := ∀ (n : Fin 8) (m : PressMeasured) (s : State),
  match s.pressFound n m with
  | .pass d l t p =>
    RefOk m ∧ (∀ i, DeskewOk s n m i) ∧ (∀ i, TdcOk s n m i) ∧ (∀ i, LevelOk m i) ∧ (∀ i, PpmuOk m i) ∧
    (∀ i : Fin 128, deskewAt (d[(Fin.ofNat 32 (i.val / 4) : Fin 32)]) (i.val % 4) = m.deskew.getD i 0) ∧ (∀ i : Fin 98, t[i] = m.tdc.getD i 0) ∧
    (∀ (k : Fin 32) (i : Fin 7), l[k][i] = ⟨(m.levels.getD (7 * k.val + i.val) (65536, 0)).1, (m.levels.getD (7 * k.val + i.val) (65536, 0)).2⟩) ∧
    (∀ (k : Fin 32) (r : Fin 5), let g := m.ppmu.getD (5 * k.val + r.val) ((65536, 0), (65536, 0))
      p[k][r] = ⟨⟨g.1.1, g.1.2⟩, ⟨g.2.1, g.2.2⟩⟩)
  | .fail c k =>
    (c = 1 ∧ k = 0 ∧ ¬ RefOk m) ∨
    (c = 2 ∧ RefOk m ∧ ∃ i, FirstBad (DeskewOk s n m) i ∧ k = i.val / 4) ∨
    (c = 3 ∧ RefOk m ∧ (∀ i, DeskewOk s n m i) ∧ ∃ i, FirstBad (TdcOk s n m) i ∧ k = if i.val < 96 then i.val % 32 else 0) ∨
    (c = 4 ∧ RefOk m ∧ (∀ i, DeskewOk s n m i) ∧ (∀ i, TdcOk s n m i) ∧ ∃ i, FirstBad (LevelOk m) i ∧ k = i.val / 7) ∨
    (c = 5 ∧ RefOk m ∧ (∀ i, DeskewOk s n m i) ∧ (∀ i, TdcOk s n m i) ∧ (∀ i, LevelOk m i) ∧ ∃ i, FirstBad (PpmuOk m) i ∧ k = i.val / 5)

/-- PRESS_RUN_DONE (R549, R550): the checks are over; every value in force stays until the restore phase ends. -/
def pressRunDone : Prop := ∀ (n : Fin 8) (m : PressMeasured) (s : State),
  Runs (.pressRunDone n m) s fun t => t =
    if s.press[n].phase = .running then { s with press := s.press.set n { s.press[n] with phase := .restore, found := some (s.pressFound n m) } }
    else s

/-- A run that passed, at its end (R550, R250): the new deskew, level, TDC and PPMU corrections, REFTEMP from the run's start, COUNT and
the PHC time of the end; DUE, CAL_STALE and the record of the last failure clear. -/
abbrev PressPasses (s t : State) (n : Fin 8) (d : Vector Word 32) (l : Vector (Vector Corr 7) 32) (tdc : Vector Int 98)
    (p : Vector (Vector PmuCorr 5) 32) : Prop :=
  (∀ k : Fin 32, t.reg (aSlDeskew n k) = d[k]) ∧ t.sl[n].corr = l ∧ t.sl[n].tdcPath = tdc ∧ t.sl[n].ppmuCorr = p ∧
  t.rd (fPrStat_REFTEMP n) = s.press[n].startTemp.toNat ∧ t.rd (fPrStat_DUE n) = 0 ∧ t.rd (fPrStat_CAL_STALE n) = 0 ∧
  t.rd (fPrStat_LASTFAIL n) = 0 ∧ t.rd (fPrCount_COUNT n) = (s.rd (fPrCount_COUNT n) + 1) % 2 ^ (fPrCount_COUNT n).w ∧
  t.rd (fPrTsec_SEC n) = s.time.phcSec.toNat % 2 ^ (fPrTsec_SEC n).w ∧ t.rd (fPrTns_NS n) = s.time.phcNs % 2 ^ (fPrTns_NS n).w ∧
  OnlyFlds s t (((List.range 32).map fun k => wordFld (aSlDeskew n k)) ++ [wordFld (aPrStat n), wordFld (aPrCount n),
    ⟨aPrTsec n, 0, 64⟩, wordFld (aPrTns n)]) ∧
  t.sl[n] = { s.sl[n] with lanes := t.sl[n].lanes, corr := l, tdcPath := tdc, ppmuCorr := p, tdcLock := s.power.xoOk }

/-- A run that failed, at its end (R550, R552): every value stays, FAILS counts, LASTFAIL, FAILCODE and FAILLANE say what failed; REFTEMP,
DUE and CAL_STALE stay, but a first run leaves its slice CAL_STALE. -/
abbrev PressFails (s t : State) (n : Fin 8) (c k : Nat) : Prop :=
  t.rd (fPrFails_FAILS n) = min (s.rd (fPrFails_FAILS n) + 1) (2 ^ (fPrFails_FAILS n).w - 1) ∧
  t.rd (fPrStat_LASTFAIL n) = 1 ∧ t.rd (fPrStat_FAILCODE n) = c % 2 ^ (fPrStat_FAILCODE n).w ∧
  t.rd (fPrStat_FAILLANE n) = k % 2 ^ (fPrStat_FAILLANE n).w ∧ (s.press[n].firstRun = true → t.rd (fPrStat_CAL_STALE n) = 1) ∧
  OnlyFlds s t ([fPrFails_FAILS n, fPrStat_LASTFAIL n, fPrStat_FAILCODE n, fPrStat_FAILLANE n] ++
    if s.press[n].firstRun then [fPrStat_CAL_STALE n] else []) ∧
  t.sl[n] = { s.sl[n] with lanes := t.sl[n].lanes }

/-- PRESS_SWITCH_RESTORE (R549, R550, R57): the run is over with what its checks found, each switch returns to its connection, and the
slice whose first run this was, with both stacks and TROOT ready, becomes ready where nothing else holds it; that a lane held OPEN by park
closes, and that the TDC loop then locks, is the model's choice (log entry 45). -/
def pressSwitchRestore : Prop := ∀ (n : Fin 8) (s : State),
  (s.press[n].phase ≠ .restored → Runs (.pressSwitchRestore n) s fun t => t = s) ∧
  (s.press[n].phase = .restored → Runs (.pressSwitchRestore n) s fun t =>
    t.press = s.press.set n { s.press[n] with
      phase := .off, found := none, untried := false, idleSince := s.clock
      firstRun := s.press[n].firstRun && !(s.isReady (.hb 0) && s.isReady (.hb 1) && s.isReady .troot) } ∧
    (∀ k : Fin 32, t.sl[n].lanes[k] = { s.sl[n].lanes[k] with cut := false }) ∧
    (match s.press[n].found with
      | some (.pass d l tdc p) => PressPasses s t n d l tdc p
      | some (.fail c k) => PressFails s t n c k
      | none => t.regs = s.regs ∧ t.sl[n] = { s.sl[n] with lanes := t.sl[n].lanes }) ∧
    (∀ m : Fin 8, m ≠ n → t.sl[m] = s.sl[m]) ∧
    t.isReady (.sl n) = (s.isReady (.sl n) ||
      (decide (SlNeeds t n) && s.sl[n].synth.a == .standby && s.sl[n].synth.b == .standby)) ∧
    (∀ i : Fin 32, i.val ≠ 8 + n.val → t.ready.getLsbD i = s.ready.getLsbD i) ∧
    t = { s with regs := t.regs, ready := t.ready, wasReady := t.wasReady, sl := t.sl, press := t.press })

/-! ### Self-test -/

/-- A port that begins an attempt as its test ends: enabled meanwhile, and still DISABLED. -/
abbrev Attempts (s : State) (p : Fin 4) : Prop :=
  s.port[p].st = .disabled ∧ s.rd (fClCtrl_EN p) = 1 ∧ s.hasCap (4 + p.val) = true

/-- What a full BIST of a target leaves of it (R556): memories zeroed, registers at their reset values. -/
abbrev Reinit (s t : State) (kind inst : Nat) : Prop :=
  (∀ n : Fin 8, inst = n.val → kind = 1 → t.sl[n] = { s.sl[n] with seq := Seq.reset, window := [] } ∧
    ∀ k : Fin 32, t.rd (fSlFailcnt_COUNT n k) = 0) ∧
  (∀ n : Fin 8, inst = n.val → kind = 2 → t.sl[n] = { s.sl[n] with fifo := 0, stage := [] }) ∧
  (∀ n : Fin 8, inst = n.val → kind = 3 → t.sl[n] = { s.sl[n] with patched := false } ∧
    ∀ ts : Fin 64, t.reg (aSlWft n ts) = resetWord (aSlWft n ts)) ∧
  (∀ u : Fin 4, inst = u.val → kind = 4 → t.scan[u] = { s.scan[u] with lines := [] }) ∧
  (∀ c : Fin 8, inst = c.val → kind = 5 → t.cores[c] = CoreSt.reset ∧ t.rd (fDpCoreCtrl_RUN c) = 0) ∧
  (kind = 6 → t.disp = Disp.reset) ∧
  (∀ p : Fin 4, inst = p.val → kind = 7 → t.port[p].sent = [] ∧ t.port[p].wait = [] ∧
    if Attempts s p then t.port[p].st = .probe else t.port[p] = { s.port[p] with sent := [], wait := [], sum := none }) ∧
  (kind = 8 → t.drc = { s.drc with banks := t.drc.banks } ∧ ∀ b ∈ t.drc.banks, b ∈ s.drc.banks ∧ b.pc.val / 32 ≠ inst)

/-- What a test leaves as it was: every unit but its target. -/
abbrev OthersStand (s t : State) (kind inst : Nat) : Prop :=
  (∀ n : Fin 8, (3 < kind ∨ inst ≠ n.val) → t.sl[n] = s.sl[n]) ∧ (∀ u : Fin 4, (kind ≠ 4 ∨ inst ≠ u.val) → t.scan[u] = s.scan[u]) ∧
  (∀ c : Fin 8, (kind ≠ 5 ∨ inst ≠ c.val) → t.cores[c] = s.cores[c]) ∧ (kind ≠ 6 → t.disp = s.disp) ∧
  (∀ p : Fin 4, (kind ≠ 7 ∨ inst ≠ p.val) → t.port[p] = s.port[p]) ∧ (kind ≠ 8 → t.drc = s.drc) ∧
  t.mem = s.mem ∧ t.press = s.press ∧ t.time = s.time ∧ t.power = s.power ∧ t.dma = s.dma ∧ t.mbox = s.mbox ∧ t.enum = s.enum ∧
  t.patch = s.patch ∧ t.pending = s.pending

/-- The READY bits as a test ends (R556, R563): a slice's and a SCAN unit's where nothing holds them back, the Dispatcher's where it was
1, CORES while every core runs; a port's sets as its link comes up, a stack's with its initialisation. Every other bit stays. -/
abbrev ReadyReturns (s t : State) (kind inst : Nat) (was : Bool) : Prop :=
  (∀ n : Fin 8, inst = n.val → kind ∈ [1, 2, 3] → t.isReady (.sl n) = (s.isReady (.sl n) ||
    (decide (SlNeeds t n) && s.sl[n].synth.a == .standby && s.sl[n].synth.b == .standby))) ∧
  (∀ u : Fin 4, inst = u.val → kind = 4 → t.isReady (.scan u) = (s.isReady (.scan u) || decide (ScanNeeds t u))) ∧
  (kind = 5 → t.isReady .cores = true → ∀ c : Fin 8, t.coreRuns c = true) ∧
  (kind = 6 → t.isReady .dispatch = (s.isReady .dispatch ||
    (was && s.isReady .hamper && s.isReady .mgmt && !t.heldReady .dispatch))) ∧
  (∀ k : Fin 2, inst = k.val → kind = 8 → t.isReady (.hb k) = s.isReady (.hb k)) ∧
  ∀ j : Fin 32, j.val ≠ (bistReady kind inst).pos → t.ready.getLsbD j = s.ready.getLsbD j

/-- The words that a full BIST returns to their reset values, beside the results: those of a slice's sequencer and fail counters, of its
waveform tables. -/
abbrev TestWord (kind inst a : Nat) : Prop :=
  (kind = 1 ∧ (inSpan (aSlSeqstat inst) 0x200 a = true ∨ inSpan (aSlFailcnt inst 0) 0x108 a = true)) ∨
  (kind = 3 ∧ (inSpan (aSlWtime inst 0 0 0) 0x50000 a = true ∨ inSpan (aSlWft inst 0) 0x100 a = true))

/-- A buffer as a rinse step leaves it (R558, R559), and what lies behind a slice's registers (log entry 59). -/
abbrev Rinsed (s t : State) (kind inst : Nat) : Prop :=
  (∀ n : Fin 8, inst = n.val → kind = 1 →
    t.sl[n] = { s.sl[n] with window := [], seq := { s.sl[n].seq with micro := Micro.reset } }) ∧
  (∀ n : Fin 8, inst = n.val → kind = 2 → t.sl[n] = { s.sl[n] with fifo := 0, stage := [] }) ∧
  (∀ n : Fin 8, (inst ≠ n.val ∨ 2 < kind) → t.sl[n] = s.sl[n]) ∧
  (∀ u : Fin 4, t.scan[u] = if inst = u.val ∧ kind = 4 then { s.scan[u] with lines := [] } else s.scan[u]) ∧
  ∀ p : Fin 4, t.port[p] = if inst = p.val ∧ kind = 7 then { s.port[p] with sent := [], wait := [], sum := none } else s.port[p]

/-- What a failing element of a test leads to (R561, R563): a spare of its macro logged, unless the log repairs it already; with none left
EXHAUST, a contained record, and a READY bit that stays 0. -/
abbrev LogsRepair (s t : State) (kind inst source : Nat) (rep : TestReport) : Prop :=
  let m := bitsOf rep.first.toNat 16 16
  let el := bitsOf rep.first.toNat 0 16
  let used := Config.fuseSpares m rep.column + (s.bist.log.filter fun e => e.uses m rep.column).length
  if rep.pass = true ∨ (s.bist.log.any fun e => e.repairs m rep.column el) = true then
    t.bist.log = s.bist.log ∧ t.bist.exhausted = s.bist.exhausted ∧ t.rd fPrDarnStat_EXHAUST = s.rd fPrDarnStat_EXHAUST
  else if used < (if rep.column = true then 2 else 4) then
    t.bist.log = s.bist.log ++ [.sram m rep.column used el source s.time.phcSec] ∧ t.bist.exhausted = s.bist.exhausted ∧
    t.rd fPrDarnStat_EXHAUST = s.rd fPrDarnStat_EXHAUST
  else
    t.bist.log = s.bist.log ∧ t.bist.exhausted = s.bist.exhausted ||| BitVec.ofNat 32 (2 ^ (bistReady kind inst).pos) ∧
    t.rd fPrDarnStat_EXHAUST = 1 ∧ t.rd (fHmSrc_LATCHED (Config.sourceOf (.darning kind inst))) = 1 ∧
    (s.isReady (bistReady kind inst) = false → t.isReady (bistReady kind inst) = false)

/-- BIST_START (R556, R557): a target that the table lists is taken where the life cycle allows it, it is quiescent and no
full BIST runs; its READY bit clears. Otherwise RESULT is REFUSED; a target that is not listed is not accepted. -/
def bistStart : Prop := ∀ (ini : Initiator) (v : Word) (s : State), Reaches s ini .prBistCmd [] → v.getLsbD 30 = false →
  Runs (.bistStart ini v) s fun t =>
    let k := bitsOf v.toNat 8 8
    let i := bitsOf v.toNat 0 8
    let b := bistReady k i
    if bistInsts k ≤ i then
      t.bist = s.bist ∧ t.rd ⟨aAccerrx (copyOf ini), AccBit.rsvd.pos, 1⟩ = 1 ∧
      t.rd fPrBistCmd_KIND = (if bistInsts k = 0 then 1 else k) ∧
      t.rd fPrBistCmd_INST = (if i < bistInsts (if bistInsts k = 0 then 1 else k) then i else 0) ∧
      OnlyFlds s t ([fPrBistCmd_KIND, fPrBistCmd_INST] ++ accFlds (copyOf ini)) ∧ t = { s with regs := t.regs }
    else if s.fullAllowed = false ∨ s.quiescent k i = false ∨ s.bist.full.isSome = true then
      t.rd fPrBistRes_RESULT = 4 ∧ t.rd fPrBistCmd_KIND = k ∧ t.rd fPrBistCmd_INST = i ∧
      OnlyFlds s t [fPrBistCmd_KIND, fPrBistCmd_INST, fPrBistRes_RESULT] ∧ t = { s with regs := t.regs }
    else
      t.rd fPrBistRes_RESULT = 5 ∧ t.rd fPrBistRes_COVERAGE = 0 ∧ t.rd fPrBistCmd_KIND = k ∧ t.rd fPrBistCmd_INST = i ∧
      t.isReady b = false ∧ (∀ j : Fin 32, j.val ≠ b.pos → t.ready.getLsbD j = s.ready.getLsbD j) ∧
      t.bist.full = some (k, i, s.isReady b) ∧
      t.bist.rinse = (if s.bist.rinse = some (k, i) ∨ (k ≤ 3 ∧ (s.bist.rinse = some (1, i) ∨ s.bist.rinse = some (2, i)))
        then none else s.bist.rinse) ∧
      t.bist = { s.bist with full := t.bist.full, rinse := t.bist.rinse } ∧
      (∀ e, s.bist.rinse = some e → t.bist.rinse = none → Rinsed s t e.1 e.2) ∧
      (t.bist.rinse = s.bist.rinse → t.sl = s.sl ∧ t.scan = s.scan ∧ t.port = s.port) ∧
      OnlyFlds s t [fPrBistCmd_KIND, fPrBistCmd_INST, fPrBistRes_RESULT, fPrBistRes_COVERAGE, fPrBistRinseres_RESULT,
        fPrBistRinseres_COVERAGE] ∧
      t = { s with
        regs := t.regs, ready := t.ready, wasReady := t.wasReady, bist := t.bist, sl := t.sl, scan := t.scan, port := t.port }

/-- BIST_ABORT (R556): the test in progress ends with RESULT = ABANDONED, its target is re-initialised and its READY bit returns; with no
test in progress it changes nothing but KIND and INST. -/
def bistAbort : Prop := ∀ (ini : Initiator) (v : Word) (s : State), Reaches s ini .prBistCmd [] →
  v.getLsbD 31 = false → bitsOf v.toNat 0 8 < bistInsts (bitsOf v.toNat 8 8) →
  (s.bist.full = none → Runs (.bistAbort ini v) s fun t =>
    OnlyFlds s t [fPrBistCmd_KIND, fPrBistCmd_INST] ∧ t = { s with regs := t.regs }) ∧
  ∀ (k i : Nat) (was : Bool), s.bist.full = some (k, i, was) → i < bistInsts k → s.bist.rinse ≠ some (7, i) →
    Runs (.bistAbort ini v) s fun t =>
      t.rd fPrBistRes_RESULT = 3 ∧ t.bist = { s.bist with full := none } ∧ Reinit s t k i ∧ ReadyReturns s t k i was ∧
      OthersStand s t k i ∧ t.hamper = s.hamper ∧
      (k ∈ [2, 4, 6, 8] → OnlyFlds s t [fPrBistRes_RESULT, fPrBistCmd_KIND, fPrBistCmd_INST]) ∧
      (k ∈ [1, 3] → ∀ a, ¬ TestWord k i a → a ≠ aPrBistRes → a ≠ aPrBistCmd → t.reg a = s.reg a)

/-- BIST_DONE (R556, R561, R563): RESULT, coverage, duration, the failing elements and the first of them; a failing element enters the
repair log or finds no spare; the target is re-initialised and its READY bit returns; which spare is taken and what is re-initialised are
the model's choices (log entry 59). -/
def bistDone : Prop := ∀ (rep : TestReport) (s : State),
  (s.bist.full = none → Runs (.bistDone rep) s fun t => t = s) ∧
  ∀ (k i : Nat) (was : Bool), s.bist.full = some (k, i, was) → i < bistInsts k → s.bist.rinse ≠ some (7, i) →
    Runs (.bistDone rep) s fun t =>
      let results := [fPrBistRes_RESULT, fPrBistRes_COVERAGE, fPrBistDur_US, fPrBistFails_COUNT, fPrBistFirst_ELEMENT,
        fPrDarnStat_EXHAUST] ++ if rep.pass then [] else reportFlds (Config.sourceOf (.darning k i))
      t.rd fPrBistRes_RESULT = (if rep.pass then 1 else 2) ∧ t.rd fPrBistRes_COVERAGE = rep.coverage.val ∧
      t.rd fPrBistDur_US = rep.us.toNat % 2 ^ fPrBistDur_US.w ∧ t.rd fPrBistFails_COUNT = rep.fails.toNat % 2 ^ fPrBistFails_COUNT.w ∧
      t.rd fPrBistFirst_ELEMENT = rep.first.toNat % 2 ^ fPrBistFirst_ELEMENT.w ∧ Reinit s t k i ∧ ReadyReturns s t k i was ∧
      LogsRepair s t k i 1 rep ∧ t.bist = { s.bist with full := none, log := t.bist.log, exhausted := t.bist.exhausted } ∧
      OthersStand s t k i ∧ (k ∈ [2, 4, 6, 8] → OnlyFlds s t results) ∧
      (k ∈ [1, 3] → ∀ a, ¬ TestWord k i a → (∀ e ∈ results, e.addr ≠ a) → t.reg a = s.reg a)

/-- RINSE_STEP (R558): where EN and the life cycle let it and no step runs, the next quiescent instance of the round, by KIND
and INST, is tested; one that is not is skipped. -/
def rinseStep : Prop := ∀ (s : State), s.rd fPrBistRinse_EN = 1 → s.rinseAllowed = true → s.bist.rinse = none →
  s.isReady .hamper = true → s.bist.next < 24 →
  Runs .rinseStep s fun t =>
    let may := fun (j : Nat) => (rinseList[j]?.map fun x => s.mayRinse x.1 x.2).getD false
    (∀ d < 24, may ((s.bist.next + d) % 24) = true → (∀ e < d, may ((s.bist.next + e) % 24) = false) →
      t.bist = { s.bist with rinse := rinseList[(s.bist.next + d) % 24]?, rinseAt := s.clock, next := ((s.bist.next + d) % 24 + 1) % 24 } ∧
      t.rd fPrBistRinseres_RESULT = 5 ∧
      t.bist.rinse = some (t.rd fPrBistRinseinst_KIND, t.rd fPrBistRinseinst_INST)) ∧
    ((∀ d < 24, may d = false) → t = s) ∧
    OnlyFlds s t [fPrBistRinseres_RESULT, fPrBistRinseinst_KIND, fPrBistRinseinst_INST] ∧
    t = { s with regs := t.regs, bist := t.bist }

/-- RINSE_STEP_DONE (R558, R560, R563): the instance is re-initialised; a pass reports its result; a failure is a contained fault of the
instance's unit, recorded with its source, whose READY bit stays 0, and its element goes into the repair log; log entry 59 tells the
model's choices. -/
def rinseStepDone : Prop := ∀ (rep : TestReport) (s : State),
  (s.bist.rinse = none → Runs (.rinseStepDone rep) s fun t => t = s) ∧
  ∀ (k i : Nat), s.bist.rinse = some (k, i) →
    Runs (.rinseStepDone rep) s fun t =>
      t.rd fPrBistRinseres_RESULT = (if rep.pass then 1 else 2) ∧ t.rd fPrBistRinseres_COVERAGE = rep.coverage.val ∧
      t.rd fPrBistRinsedur_US = rep.us.toNat % 2 ^ fPrBistRinsedur_US.w ∧ t.bist.rinse = none ∧ LogsRepair s t k i 2 rep ∧
      (rep.pass = true → Rinsed s t k i ∧ t.bist = { s.bist with rinse := none } ∧
        OnlyFlds s t [fPrBistRinseres_RESULT, fPrBistRinseres_COVERAGE, fPrBistRinsedur_US] ∧
        t = { s with regs := t.regs, bist := t.bist, sl := t.sl, scan := t.scan, port := t.port }) ∧
      (rep.pass = false → t.isReady (bistReady k i) = false ∧ t.rd (fHmSrc_LATCHED (Config.sourceOf (.bist k i))) = 1 ∧
        t.bist.held = s.bist.held ||| BitVec.ofNat 32 (2 ^ (bistReady k i).pos) ∧
        (∀ j : Fin 32, j.val ≠ (bistReady k i).pos → t.ready.getLsbD j = s.ready.getLsbD j) ∧
        (∀ n : Fin 8, i = n.val → k ≤ 2 → PinsSafe t.sl[n] ∧ RegsSafe t n) ∧
        (2 < k → Rinsed s t k i ∧ OnlyFlds s t ([fPrBistRinseres_RESULT, fPrBistRinseres_COVERAGE, fPrBistRinsedur_US, fPrDarnStat_EXHAUST] ++
          reportFlds (Config.sourceOf (.bist k i)) ++ reportFlds (Config.sourceOf (.darning k i)))) ∧
        t.bist = { s.bist with rinse := none, held := t.bist.held, log := t.bist.log, exhausted := t.bist.exhausted } ∧
        t = { s with
          regs := t.regs, ready := t.ready, wasReady := t.wasReady, bist := t.bist, sl := t.sl, scan := t.scan, port := t.port, press := t.press
          hamper := t.hamper, free := t.free, out := t.out })

/-! ### Life cycle and repair -/

/-- SUBMIT (R555): the token of the TOKEN registers and the nonce shown at that time go to the firmware, and NONCE takes a new value; only
the PF and the management controller reach the register; others meet UNMAPPED (log entry 18, the model's choice). -/
def submit : Prop := ∀ (ini : Initiator) (v : Word) (s : State), Reaches s ini .prBistTokcmd [] →
  Runs (.submit ini v) s fun t =>
    if pfOrMgmt ini = false then Flagged s t ini .unmapped aPrBistTokcmd
    else t = { s with bist := { s.bist with token := t.bist.token, draws := s.bist.draws + 1 } } ∧
      t.bist.token.map (·.2) = some s.bist.draws ∧ ∀ (i j : Fin 32),
        t.bist.token.map (fun x => x.1.getLsbD (32 * i.val + j.val)) = some ((s.reg (aPrBistToken i)).getLsbD j)

/-- TOKEN_VERIFY_DONE (R555): SIGNATURE, then NONCE for a serial number or a nonce that does not match, then STATE for a transition that
is not listed; else the state moves, fused but for FIELD_DIAG, and SCRAPPED takes the slices down; the order is the model's choice (log
entry 34). -/
def tokenVerifyDone : Prop := ∀ (sig : Bool) (s : State) (x : BitVec 1024) (draw : Nat), s.bist.token = some (x, draw) →
  Runs (.tokenVerifyDone sig) s fun t =>
    let dest := bitsOf x.toNat 128 8
    let matching := bitsOf x.toNat 0 64 = Config.serial.toNat ∧ bitsOf x.toNat 64 64 = (Config.nonce draw).toNat
    let listed := dest = 6 ∨ (s.lifeCycle, dest) ∈ [(0, 1), (1, 2), (2, 3), (3, 4), (3, 5)]
    t.rd fPrBistTokcmd_RESULT = (if sig = false then 2 else if ¬ matching then 3 else if ¬ listed then 4 else 1) ∧
    (if sig = true ∧ matching ∧ listed then t.lifeCycle = dest ∧ (∀ n : Fin 8, dest = 6 → t.isReady (.sl n) = false) ∧
        (dest ≠ 6 → t.ready = s.ready) ∧ (dest = 4 → t.bist.lcBlown = s.bist.lcBlown) ∧
        (dest ≠ 4 → t.bist.lcBlown = some (BitVec.ofNat 3 dest))
      else t.lifeCycle = s.lifeCycle ∧ t.ready = s.ready) ∧
    t.bist = { s.bist with token := none, lcBlown := t.bist.lcBlown, fieldDiag := t.bist.fieldDiag } ∧
    OnlyFlds s t [fPrBistTokcmd_RESULT] ∧ t = { s with regs := t.regs, ready := t.ready, wasReady := t.wasReady, bist := t.bist }

/-- FUSE (R562, R574): the log's SRAM repairs that are not fused yet are blown in their order, as many as a table of 2,048 still takes,
from the management controller in MANUFACTURE or RMA alone; otherwise dropped with RSVD; SRAM repairs alone is the model's choice (log
entry 59). -/
def fuse : Prop := ∀ (ini : Initiator) (v : Word) (s : State), Reaches s ini .prDarnCmd [] →
  Runs (.fuse ini v) s fun t =>
    if ini = .mgmt ∧ (s.lifeCycle = 1 ∨ s.lifeCycle = 5) then
      ∃ l ∈ [s.bist.log.filter fun e => (match e with | .sram .. => true | .hbm .. => false) && decide (e ∉ s.bist.fused)],
      ∃ room ∈ [2048 - Config.fuseRepairs - s.bist.fused.length],
      (l.length ≤ room → t.bist.fused = s.bist.fused ++ l) ∧ (room < l.length → t.bist.fused = s.bist.fused ++ l.take room) ∧
      t = { s with bist := { s.bist with fused := t.bist.fused } }
    else Flagged s t ini .rsvd aPrDarnCmd

/-! ### Power states -/

/-- A request of PWRCTL that is refused (R578): PWRCTL as it was, REFUSED and BUSY. -/
abbrev PwrRefused (s t : State) (ini : Initiator) : Prop :=
  t.rd fPwrstat_REFUSED = 1 ∧ t.rd ⟨aAccerrx (copyOf ini), AccBit.busy.pos, 1⟩ = 1 ∧
  OnlyFlds s t (fPwrstat_REFUSED :: accFlds (copyOf ini)) ∧ t = { s with regs := t.regs }

/-- What refuses a STANDBY request (R580). -/
abbrev StandbyBars (s : State) : Prop :=
  (∃ n : Fin 8, s.sl[n].isIdle = false) ∨ (∃ n : Fin 8, s.press[n].phase ≠ .off) ∨ (∃ u : Fin 4, s.scan[u].enabled = true) ∨
  (∃ c : Fin 16, s.dma[c].isSome = true) ∨ s.bist.full.isSome = true ∨ s.power.peOff = true

/-- What refuses to park a slice (R579). -/
abbrev ParkBars (s : State) (n : Fin 8) : Prop :=
  s.sl[n].isIdle = false ∨ s.sl[n].adcBusy = true ∨ s.sl[n].tdc.isSome = true ∨ s.press[n].phase ≠ .off ∨
  s.tested [1, 2, 3] n = true

/-- STANDBY (R580, R581): refused while anything bars it, else STATE is ENTERING, the bits SL, SCAN, HB0, HB1, CORES and PRESS clear at
once, every other bit stays, and no ADC sequence runs on. HB0, HB1 and PRESS as they were, or as an earlier exit has not restored them
yet, are kept for the exit. -/
def standby : Prop := ∀ (ini : Initiator) (v : Word) (s : State), Reaches s ini .pwrctl [] → pfOrMgmt ini = true →
  s.rd ⟨aPwrctl, 31, 1⟩ = 0 → bitsOf v.toNat 0 8 = s.rd ⟨aPwrctl, 0, 8⟩ →
  Runs (.standby ini v) s fun t =>
    (StandbyBars s → PwrRefused s t ini) ∧
    (¬ StandbyBars s → t.power.st = .entering ∧ t.rd ⟨aPwrctl, 31, 1⟩ = 1 ∧ t.rd ⟨aPwrctl, 0, 8⟩ = s.rd ⟨aPwrctl, 0, 8⟩ ∧
      t.isReady .cores = false ∧ t.isReady .press = false ∧ (∀ k : Fin 2, t.isReady (.hb k) = false) ∧
      (∀ u : Fin 4, t.isReady (.scan u) = false) ∧
      (∀ n : Fin 8, t.isReady (.sl n) = false ∧ t.sl[n].adc = none ∧ t.sl[n].sumRun = false ∧
        t.sl[n].lanes = s.sl[n].lanes ∧ t.sl[n].lvlq = s.sl[n].lvlq) ∧
      (∀ b : ReadyBit, b ∈ [ReadyBit.aon, .fw, .mgmt, .hamper, .troot, .time, .dispatch, .cl 0, .cl 1, .cl 2, .cl 3, .eth 0, .eth 1] →
        t.isReady b = s.isReady b) ∧
      (∀ b : Fin 32, t.power.saved.getLsbD b = (decide (b.val ∈ [4, 5, 26]) && (s.power.saved.getLsbD b || s.ready.getLsbD b))) ∧
      t.cores = s.cores ∧
      t = { s with
        regs := t.regs, ready := t.ready, wasReady := t.wasReady, sl := t.sl, free := t.free, out := t.out
        power := { s.power with st := .entering, exitAsked := false, exitStep := 0, saved := t.power.saved } })

/-- A stack that an exit brings back: kept from the request, in service, and with the bits that R585 names. -/
abbrev Back (s : State) (k : Fin 2) : Prop :=
  s.power.saved.getLsbD (4 + k.val) = true ∧ s.isReady .mgmt = true ∧ s.isReady .troot = true ∧ s.rd ⟨aSvcoff, 16 + k.val, 1⟩ = 0

/-- The exit begins (R582, R583): STATE is EXITING, the stacks that come back leave self-refresh and are ready, both synthesizers of
every slice lock again; where POWER_DOWN_PE was asked for, the PE dies stay unpowered, and every slice is safe. -/
abbrev Leaves (s t : State) : Prop :=
  t.power.st = .exiting ∧
  (∀ k : Fin 2, t.isReady (.hb k) = (s.isReady (.hb k) || decide (Back s k)) ∧
    (t.power.saved.getLsbD (4 + k.val) = (s.power.saved.getLsbD (4 + k.val) && !decide (Back s k)))) ∧
  (∀ i : Fin 32, i.val ≠ 4 → i.val ≠ 5 → t.ready.getLsbD i = s.ready.getLsbD i ∧ t.power.saved.getLsbD i = s.power.saved.getLsbD i) ∧
  (∀ n : Fin 8, t.sl[n].synth = s.sl[n].synth.relock ∧ t.sl[n].synth.a ≠ .active) ∧
  (s.power.peAsk = true → t.power.peOff = true ∧ ∀ n : Fin 8, PinsSafe t.sl[n] ∧ RegsSafe t n) ∧
  t.power = { s.power with
    st := .exiting, exitAsked := false, exitStep := 0, saved := t.power.saved, peAsk := false, peOff := s.power.peOff || s.power.peAsk }

/-- STANDBY_EXIT (R582) in STANDBY: the exit begins. During ENTERING it follows the last step; in any other state there is none. -/
def standbyExit : Prop := ∀ (ini : Initiator) (v : Word) (s : State), Reaches s ini .pwrctl [] → pfOrMgmt ini = true →
  s.rd ⟨aPwrctl, 31, 1⟩ = 1 → bitsOf v.toNat 0 8 = s.rd ⟨aPwrctl, 0, 8⟩ →
  Runs (.standbyExit ini v) s fun t =>
    t.rd ⟨aPwrctl, 31, 1⟩ = 0 ∧ t.rd ⟨aPwrctl, 0, 8⟩ = s.rd ⟨aPwrctl, 0, 8⟩ ∧
    (s.power.st = .standby → Leaves s t ∧
      (∀ k : Fin 2, t.drc.selfRefresh[k] = (s.drc.selfRefresh[k] && !decide (Back s k))) ∧
      (s.power.peAsk = false → OnlyFlds s t [⟨aPwrctl, 31, 1⟩] ∧
        (∀ n : Fin 8, t.sl[n] = { s.sl[n] with synth := s.sl[n].synth.relock }) ∧ t.press = s.press) ∧
      t = { s with
        regs := t.regs, ready := t.ready, wasReady := t.wasReady, sl := t.sl, drc := { s.drc with selfRefresh := t.drc.selfRefresh }
        power := t.power, press := t.press, free := t.free, out := t.out }) ∧
    (s.power.st ≠ .standby → OnlyFlds s t [⟨aPwrctl, 31, 1⟩] ∧
      t = { s with regs := t.regs, power := { s.power with exitAsked := decide (s.power.st = .entering) } })

/-- PARK (R579): refused as a whole while a slice that it parks is in use; else the slices' READY bits are 0, and a rinse step
on one is abandoned. -/
def park : Prop := ∀ (ini : Initiator) (v : Word) (s : State), Reaches s ini .pwrctl [] → pfOrMgmt ini = true →
  bitsOf v.toNat 31 1 = s.rd ⟨aPwrctl, 31, 1⟩ →
  (∀ n : Fin 8, s.rd ⟨aPwrctl, n.val, 1⟩ = 1 → v.getLsbD n = true) →
  Runs (.park ini v) s fun t =>
    let parks := fun (n : Fin 8) => v.getLsbD n = true ∧ s.rd ⟨aPwrctl, n.val, 1⟩ = 0
    ((∃ n : Fin 8, parks n ∧ ParkBars s n) → PwrRefused s t ini) ∧
    (¬ (∃ n : Fin 8, parks n ∧ ParkBars s n) →
      t.rd ⟨aPwrctl, 0, 8⟩ = bitsOf v.toNat 0 8 ∧
      (∀ n : Fin 8, t.isReady (.sl n) = if parks n then false else s.isReady (.sl n)) ∧
      (∀ i : Fin 32, (i.val < 8 ∨ 16 ≤ i.val) → t.ready.getLsbD i = s.ready.getLsbD i) ∧
      (∀ n : Fin 8, parks n → t.bist.rinse ≠ some (1, n.val) ∧ t.bist.rinse ≠ some (2, n.val)) ∧
      (∀ e, s.bist.rinse = some e → t.bist.rinse = none → Rinsed s t e.1 e.2) ∧ (t.bist.rinse = s.bist.rinse → t.sl = s.sl) ∧
      OnlyFlds s t [⟨aPwrctl, 0, 8⟩, fPrBistRinseres_RESULT, fPrBistRinseres_COVERAGE] ∧
      t = { s with
        regs := t.regs, ready := t.ready, wasReady := t.wasReady, sl := t.sl, bist := { s.bist with rinse := t.bist.rinse } })

/-- UNPARK (R579): both synthesizers of each slice that leaves SLICE_PARK recover. -/
def unpark : Prop := ∀ (ini : Initiator) (v : Word) (s : State), Reaches s ini .pwrctl [] → pfOrMgmt ini = true →
  bitsOf v.toNat 31 1 = s.rd ⟨aPwrctl, 31, 1⟩ →
  (∀ n : Fin 8, v.getLsbD n = true → s.rd ⟨aPwrctl, n.val, 1⟩ = 1) →
  Runs (.unpark ini v) s fun t => t.rd ⟨aPwrctl, 0, 8⟩ = bitsOf v.toNat 0 8 ∧
    (∀ n : Fin 8, t.sl[n] = if v.getLsbD n = false ∧ s.rd ⟨aPwrctl, n.val, 1⟩ = 1
      then { s.sl[n] with synth := s.sl[n].synth.relock } else s.sl[n]) ∧
    (∀ n : Fin 8, v.getLsbD n = false → s.rd ⟨aPwrctl, n.val, 1⟩ = 1 →
      t.sl[n].synth.a ≠ .standby ∧ t.sl[n].synth.b ≠ .standby) ∧
    OnlyFlds s t [⟨aPwrctl, 0, 8⟩] ∧ t = { s with regs := t.regs, sl := t.sl }

/-- The last step of the entry (R581): every switch opens, every DAC is at mid-scale and every PPMU off, with LEVEL, PINCFG, PMU and what
each driver holds kept; both stacks are in self-refresh with their rows closed and every owed refresh issued. -/
abbrev Stands (s t : State) : Prop :=
  (∀ n : Fin 8, (∀ k : Fin 32, t.sl[n].lanes[k] = { s.sl[n].lanes[k] with cut := true } ∧
      t.sl[n].ppmu[k].mode = 0 ∧ t.sl[n].ppmu[k].force = 0x8000 ∧ ∀ d : Fin 7, t.sl[n].dac[k][d] = 0x8000) ∧
    t.sl[n] = { s.sl[n] with
      lanes := t.sl[n].lanes, ppmu := t.sl[n].ppmu, ppmuLimit := 0, ppmuStaged := 0, dac := t.sl[n].dac, synth := t.sl[n].synth }) ∧
  t.drc = { s.drc with
    selfRefresh := t.drc.selfRefresh, openRows := [], owed := Vector.replicate 64 0, forced := Vector.replicate 64 0 }

/-- STANDBY_ENTERED (R581, R582): nothing until the level queues are empty; then the last step of the entry, and, where an exit was asked
for meanwhile, the exit begins. -/
def standbyEntered : Prop := ∀ (s : State),
  ((s.power.st ≠ .entering ∨ ∃ n : Fin 8, s.sl[n].lvlq ≠ [] ∨ s.sl[n].dacPipe ≠ []) → Runs .standbyEntered s fun t => t = s) ∧
  (s.power.st = .entering → (∀ n : Fin 8, s.sl[n].lvlq = [] ∧ s.sl[n].dacPipe = []) →
    (s.power.exitAsked = false → Runs .standbyEntered s fun t => Stands s t ∧ t.power = { s.power with st := .standby } ∧
      t.drc.selfRefresh = Vector.replicate 2 true ∧ (∀ n : Fin 8, t.sl[n].synth = s.sl[n].synth) ∧
      t = { s with sl := t.sl, drc := t.drc, power := t.power }) ∧
    (s.power.exitAsked = true → s.power.peAsk = false → Runs .standbyEntered s fun t => Stands s t ∧ Leaves s t ∧
      (∀ k : Fin 2, t.drc.selfRefresh[k] = !decide (Back s k)) ∧
      t = { s with sl := t.sl, drc := t.drc, power := t.power, ready := t.ready, wasReady := t.wasReady }))

/-- PE_CORRECTIONS_RELOADED (R582): the next DAC tick takes the codes. -/
def peCorrectionsReloaded : Prop := ∀ (s : State),
  Runs .peCorrectionsReloaded s fun t => t =
    if s.power.st = .exiting ∧ s.power.exitStep = 0 then { s with power := { s.power with exitStep := 1 } } else s

/-- STANDBY_SWITCH_CLOSE (R582, R585): with the codes applied every switch moves to its connection, but with the PE dies off none;
the module is ACTIVE, and every READY bit that STANDBY cleared sets again where nothing else holds it. -/
def standbySwitchClose : Prop := ∀ (s : State),
  (¬ (s.power.st = .exiting ∧ s.power.exitStep = 4) → Runs .standbySwitchClose s fun t => t = s) ∧
  (s.power.st = .exiting → s.power.exitStep = 4 → Runs .standbySwitchClose s fun t =>
    let press := s.power.saved.getLsbD ReadyBit.press.pos && s.isReady .mgmt
    t.power = { s.power with st := .active, exitStep := 0, saved := t.power.saved } ∧
    (∀ b : Fin 32, t.power.saved.getLsbD b = (s.power.saved.getLsbD b && !(decide (b.val = 26) && press))) ∧
    (∀ n : Fin 8, (∀ k : Fin 32, t.sl[n].lanes[k] =
        if s.power.peOff = true then s.sl[n].lanes[k] else { s.sl[n].lanes[k] with cut := false }) ∧
      t.sl[n] = { s.sl[n] with lanes := t.sl[n].lanes }) ∧
    t.isReady .press = (s.isReady .press || press) ∧
    (∀ u : Fin 4, t.isReady (.scan u) = (s.isReady (.scan u) || decide (ScanNeeds t u))) ∧
    (∀ n : Fin 8, t.isReady (.sl n) = (s.isReady (.sl n) ||
      (decide (SlNeeds t n) && s.sl[n].synth.a == .standby && s.sl[n].synth.b == .standby))) ∧
    (t.isReady .cores = true ↔ (∀ c : Fin 8, t.coreRuns c = true) ∧ s.isReady .troot = true ∧ s.heldReady .cores = false ∧
      (s.isReady .cores = true ∨ s.isReady .mgmt = true)) ∧
    (∀ i : Fin 32, (i.val < 8 ∨ (20 ≤ i.val ∧ i.val ≠ 26 ∧ i.val ≠ ReadyBit.cores.pos)) → t.ready.getLsbD i = s.ready.getLsbD i) ∧
    t = { s with ready := t.ready, wasReady := t.wasReady, sl := t.sl, power := t.power })

/-! ### Out of service (R588) -/

/-- A slice forced out of service: a running burst ends as ABORT_NOW, an admission is rejected, one before T0 withdrawn. A HALT or an
exception that ends the burst at a boundary due stays its cause (R78). -/
abbrev ForcedOff (s t : State) (n : Fin 8) : Prop :=
  t.sl[n].chk = none ∧ t.sl[n].st ≠ .prefill ∧ t.sl[n].st ≠ .armed ∧ t.sl[n].st ≠ .running ∧
  (∀ m ∈ s.burstOf n, s.sl[n].st = .running → t.sl[m].st = .ending ∧
    (s.sl[s.sl[n].lead].seq.hemDue = false → t.rd (fSlAdmit_CAUSE m) = Cause.abortNow.code))

/-- The newly set bits of a write of SVCOFF. -/
abbrev svcSets (s : State) (v : Word) (b : Nat) : Prop := v.getLsbD b = true ∧ s.rd ⟨aSvcoff, b, 1⟩ = 0

/-- SVCOFF_SL (R588): without FORCE refused with BUSY unless each named slice and its gang are IDLE; else the slices' READY
bits are 0, and each slice whose bit clears has its synthesizers recover. -/
def svcoffSl : Prop := ∀ (ini : Initiator) (v : Word) (s : State), Reaches s ini .svcoff [] → pfOrMgmt ini = true →
  (∀ b ∈ [8, 9, 10, 11, 16, 17], v.getLsbD b = (s.reg aSvcoff).getLsbD b) →
  Runs (.svcoffSl ini v) s fun t =>
    if v.getLsbD 31 = false ∧ ∃ n : Fin 8, svcSets s v n ∧ ∃ m ∈ s.gang n, s.sl[m].isIdle = false then
      Flagged s t ini .busy aSvcoff
    else t.rd ⟨aSvcoff, 0, 8⟩ = bitsOf v.toNat 0 8 ∧
      (∀ n : Fin 8, svcSets s v n → t.isReady (.sl n) = false ∧ ForcedOff s t n) ∧
      (∀ n : Fin 8, ¬ svcSets s v n → t.isReady (.sl n) = s.isReady (.sl n)) ∧
      (∀ n : Fin 8, v.getLsbD n = false → s.rd ⟨aSvcoff, n.val, 1⟩ = 1 →
        t.sl[n].synth.a ≠ .standby ∧ t.sl[n].synth.b ≠ .standby) ∧
      (∀ i : Fin 32, (i.val < 8 ∨ 16 ≤ i.val) → t.ready.getLsbD i = s.ready.getLsbD i) ∧
      (∀ n : Fin 8, ∀ k : Fin 32, t.sl[n].lanes[k] = s.sl[n].lanes[k]) ∧
      t = { s with regs := t.regs, ready := t.ready, wasReady := t.wasReady, sl := t.sl, press := t.press, out := t.out }

/-- SVCOFF_SCAN (R588): without FORCE refused with BUSY unless each named unit has EN = 0; else the units stop, with their
slices ended first, and their READY bits are 0; a bit that clears sets READY at once where nothing else holds it. -/
def svcoffScan : Prop := ∀ (ini : Initiator) (v : Word) (s : State), Reaches s ini .svcoff [] → pfOrMgmt ini = true →
  (∀ b ∈ [0, 1, 2, 3, 4, 5, 6, 7, 16, 17], v.getLsbD b = (s.reg aSvcoff).getLsbD b) →
  Runs (.svcoffScan ini v) s fun t =>
    if v.getLsbD 31 = false ∧ ∃ u : Fin 4, svcSets s v (8 + u) ∧ s.scan[u].enabled = true then Flagged s t ini .busy aSvcoff
    else t.rd ⟨aSvcoff, 8, 4⟩ = bitsOf v.toNat 8 4 ∧
      (∀ u : Fin 4, svcSets s v (8 + u) → t.isReady (.scan u) = false ∧ t.scan[u].enabled = false ∧
        (s.scan[u].enabled = true → ∀ n ∈ s.attached u, ForcedOff s t n)) ∧
      (∀ u : Fin 4, ¬ svcSets s v (8 + u) → t.scan[u] = s.scan[u] ∧
        t.isReady (.scan u) = (s.isReady (.scan u) ||
          (v.getLsbD (8 + u) == false && s.rd ⟨aSvcoff, 8 + u.val, 1⟩ == 1 && decide (ScanNeeds t u)))) ∧
      (∀ i : Fin 32, (i.val < 16 ∨ 20 ≤ i.val) → t.ready.getLsbD i = s.ready.getLsbD i) ∧
      t = { s with regs := t.regs, ready := t.ready, wasReady := t.wasReady, sl := t.sl, scan := t.scan, press := t.press, out := t.out }

/-- SVCOFF_HB (R588): only the management controller's write sets an HB bit. Without FORCE it is refused with BUSY unless
every slice is IDLE and every unit has EN = 0; else all of them end, every SL and SCAN bit and the stack's bit are 0, and the
stack is in self-refresh. -/
def svcoffHb : Prop := ∀ (ini : Initiator) (v : Word) (s : State), Reaches s ini .svcoff [] → pfOrMgmt ini = true →
  (∀ b : Fin 12, v.getLsbD b = (s.reg aSvcoff).getLsbD b) →
  (∃ k : Fin 2, svcSets s v (16 + k)) →
  Runs (.svcoffHb ini v) s fun t =>
    (ini ≠ .mgmt → t.rd ⟨aSvcoff, 16, 2⟩ = s.rd ⟨aSvcoff, 16, 2⟩ ∧ t = { s with regs := t.regs }) ∧
    (ini = .mgmt → v.getLsbD 31 = false → ((∃ n : Fin 8, s.sl[n].isIdle = false) ∨ ∃ u : Fin 4, s.scan[u].enabled = true) →
      Flagged s t ini .busy aSvcoff) ∧
    (ini = .mgmt → ¬ (v.getLsbD 31 = false ∧ ((∃ n : Fin 8, s.sl[n].isIdle = false) ∨ ∃ u : Fin 4, s.scan[u].enabled = true)) →
      t.rd ⟨aSvcoff, 16, 2⟩ = bitsOf v.toNat 16 2 ∧
      (∀ n : Fin 8, t.isReady (.sl n) = false ∧ ForcedOff s t n) ∧
      (∀ u : Fin 4, t.isReady (.scan u) = false ∧ t.scan[u].enabled = false) ∧
      (∀ k : Fin 2, svcSets s v (16 + k) → t.isReady (.hb k) = false ∧ t.drc.selfRefresh[k] = true) ∧
      (∀ k : Fin 2, ¬ svcSets s v (16 + k) → t.isReady (.hb k) = s.isReady (.hb k) ∧
        t.drc.selfRefresh[k] = s.drc.selfRefresh[k]) ∧
      (∀ e, e ∈ t.drc.openRows ↔ e ∈ s.drc.openRows ∧ ∀ k : Fin 2, e.1.val / 32 = k.val → ¬ svcSets s v (16 + k)) ∧
      (∀ p : Fin 64, let off := ∃ k : Fin 2, p.val / 32 = k.val ∧ svcSets s v (16 + k)
        t.drc.owed[p] = (if off then 0 else s.drc.owed[p]) ∧ t.drc.forced[p] = if off then 0 else s.drc.forced[p]) ∧
      (∀ n : Fin 8, t.press[n].firstRun = true) ∧ t.mem = s.mem ∧
      t = { s with
        regs := t.regs, ready := t.ready, wasReady := t.wasReady, sl := t.sl, scan := t.scan, press := t.press, out := t.out
        drc := { s.drc with
          selfRefresh := t.drc.selfRefresh, openRows := t.drc.openRows, owed := t.drc.owed, forced := t.drc.forced } })

/-! ## The machine -/

/-- A step takes the command at the front of the queue: it is exec of that command on the state with the queue's rest. -/
def stepFront : Prop := ∀ (c : Instr) (rest : List Instr) (s : State), s.pending = c :: rest →
  step s = exec c { s with pending := rest }

/-- withFetchWord puts the command that a word spells at the front; as no row of the table has bits, it changes nothing. -/
def fetchWord : Prop := ∀ (nbits w : Nat) (s : State), decodeTableWord nbits w = none ∧ s.withFetchWord nbits w = s

/-- A step on an empty queue, the model's clock (log entry 2): one TROOT period passes. TICK counts it while READY.TIME is set,
the PHC makes its 10 ns step every 128 periods (R473), a site core with a task counts BUSY and one blocked in GET counts IDLE
every 16 (R414), mtip is pending while mtime has reached mtimecmp (R401), a SCAN unit's lead is held against its watermarks (R345),
panic is sampled (R370). With no access, no frame and no period of panic waiting, memory, slices and links are as they were. -/
def idleStep : Prop := ∀ (s : State), s.pending = [] → (s.clock + 1) % 8 ≠ 0 → s.isReady .troot = true → s.ethHeld = [] →
  s.drc.waiting = [] → s.drc.panicSince = none → ∃ t, step s = .next t ∧
  t.clock = s.clock + 1 ∧
  (s.time.slew = 0 → t.time.tick = if s.isReady .time then s.time.tick + 1 else s.time.tick) ∧
  (s.isReady .time = true → (s.clock + 1) % 128 = 0 →
    if s.time.setPending = true then t.time.phcSec = BitVec.ofNat 64 (s.rd fTmSetsec_VALUE) ∧
      t.time.phcNs = s.rd fTmSetns_NS ∧ t.time.phcFrac = 0 ∧ t.time.setPending = false
    else 0 ≤ phcOf s.time + 10 * (2 ^ 48 + s.time.adj) → phcOf s.time + 10 * (2 ^ 48 + s.time.adj) < 2 ^ 64 * 1000000000 * 2 ^ 48 →
      phcOf t.time = phcOf s.time + 10 * (2 ^ 48 + s.time.adj)) ∧
  ((s.isReady .time = false ∨ (s.clock + 1) % 128 ≠ 0) → phcOf t.time = phcOf s.time ∧ t.time.setPending = s.time.setPending) ∧
  (∀ c : Fin 8, (s.clock + 1) % 16 = 0 →
    (s.cores[c].hold.isSome = true → t.rd (fDpCoreBusy_VALUE c) = (s.rd (fDpCoreBusy_VALUE c) + 1) % 2 ^ (fDpCoreBusy_VALUE c).w) ∧
    (s.cores[c].hold = none → s.cores[c].waiting.isSome = true →
      t.rd (fDpCoreIdle_VALUE c) = (s.rd (fDpCoreIdle_VALUE c) + 1) % 2 ^ (fDpCoreIdle_VALUE c).w)) ∧
  (∀ c : Fin 8, t.cores[c] = { s.cores[c] with mtip := t.cores[c].mtip } ∧
    (s.time.slew = 0 → t.cores[c].mtip = decide (s.cores[c].mtimecmp ≤ t.mtime))) ∧
  (∀ u : Fin 4, t.scan[u] = { s.scan[u] with
    urgent := t.leadBelow u (s.rd (fScWmark_URG u)), panic := t.leadBelow u (s.rd (fScWmark_PANIC u)) }) ∧
  t.drc = { s.drc with
    lfsr := Config.lfsrNext s.drc.lfsr, panicSince := if t.panicNow then some t.clock else none
    panicTold := if t.panicNow then false else s.drc.panicTold } ∧
  t.rd fDrcPancnt_COUNT = (if t.panicNow then min (s.rd fDrcPancnt_COUNT + 1) (2 ^ fDrcPancnt_COUNT.w - 1)
    else s.rd fDrcPancnt_COUNT) ∧
  OnlyFlds s t (fDrcPancnt_COUNT :: (List.range 8).flatMap fun c => [fDpCoreBusy_VALUE c, fDpCoreIdle_VALUE c]) ∧
  t.time = { s.time with
    tick := t.time.tick, slew := t.time.slew, phase := t.time.phase, phcSec := t.time.phcSec, phcNs := t.time.phcNs
    phcFrac := t.time.phcFrac, setPending := t.time.setPending } ∧
  t = { s with regs := t.regs, clock := t.clock, time := t.time, cores := t.cores, scan := t.scan, drc := t.drc }

/-- Without TROOT no clock derived from it runs (R41): only the count of periods goes on. -/
def idleStopped : Prop := ∀ (s : State), s.pending = [] → s.isReady .troot = false → step s = .next { s with clock := s.clock + 1 }

/-- The hardware of a period (log entry 2): the units of every period, every eighth the sequencers (spec/01, the table of clocks), every
32nd the check that an injection waits for. -/
abbrev hardwareOf (s : State) : State :=
  let u := s.tickOne.ethDrain
  if (s.clock + 1) % 8 ≠ 0 ∨ u.isReady .troot = false then u
  else
    let v := slices.foldl (fun s n => s.microStep n) u
    if (s.clock + 1) % 32 = 0 ∧ v.isReady .troot = true then v.injectDue else v

/-- Every eighth period, while TROOT is locked, is a cycle of every site core too, at the rate of log entry 29, behind the hardware of
that period; what the cores clear meanwhile and hardware sets stays set. -/
def cycleStep : Prop := ∀ (s : State), s.pending = [] → s.isReady .troot = true → ∃ t, step s = .next t ∧
  let h := hardwareOf s
  t = if (s.clock + 1) % 8 = 0 ∧ h.isReady .troot = true then (coreList.foldl (fun s c => s.coreCycle c) h).setsWin s h else h

/-- A bit of type RW1C that software clears in the cycle in which hardware sets it stays 1 (R23): the hardware sets it, were it 0 before
the cycle. Every other bit is as software leaves it. -/
def setsWin : Prop := ∀ (s h c : State) (a : Nat),
  let cleared := State.clearedBits h c
  let again := (cleared.foldl (fun s e => s.setReg e.1 (s.reg e.1 &&& ~~~e.2)) s).hardCycle
  ((∀ e ∈ cleared, e.1 ≠ a) → (c.setsWin s h).reg a = c.reg a) ∧
  ∀ x, cleared = [(a, x)] → (c.setsWin s h).reg a = c.reg a ||| (again.reg a &&& x)

/-- The address that the engine of a slice fetches from in its next cycle, and the word there (R516, R526). -/
abbrev fetched (s : State) (n : Fin 8) (at_ : Nat) : Nat := trapAddr (if s.sl[n].patched then s.patch else none) at_
abbrev fetchedWord (s : State) (n : Fin 8) (at_ : Nat) : BitVec 160 :=
  microWord (if s.sl[n].patched then s.patch else none) (fetched s n at_)

/-- An engine that runs: its control store works and its clock runs. -/
abbrev EngineRuns (s : State) (n : Fin 8) : Prop := s.sl[n].csDead = false ∧ s.rd ⟨aPwrctl, n, 1⟩ = 0

/-- A cycle of the engine of a slice alone. -/
abbrev OnlyEngine (s t : State) (n : Fin 8) : Prop :=
  t = { s with regs := t.regs, sl := s.sl.set n { s.sl[n] with seq := { s.sl[n].seq with micro := t.sl[n].seq.micro } } }

/-- A WAIT word (R522): repeated while its condition is false; in the cycle in which it is true its fields act, and NEXT follows. -/
def microWait : Prop := ∀ (n : Fin 8) (at_ : Nat) (s : State), s.sl[n].seq.micro.addr = some at_ → EngineRuns s n →
  mNsel (fetchedWord s n at_) = 2 →
  let w := fetchedWord s n at_
  let m := s.sl[n].seq.micro
  let t := s.microStep n
  (s.microCond n w = mPol w → t.sl[n].seq.micro = { m with addr := some (fetched s n at_) }) ∧
  (s.microCond n w ≠ mPol w → t.sl[n].seq.micro = { m with
    addr := some (mNext w), flag := if mBru w = 1 then s.microEval n else m.flag
    staged := if mCommit w = true then [] else m.staged ++ [w], applied := t.sl[n].seq.micro.applied }) ∧
  (mCommit w = false → t.sl[n].seq.micro.applied = m.applied) ∧ t.regs = s.regs ∧ OnlyEngine s t n

/-- A word that ends its routine by DISPATCH with COMMIT (R520, R523): what was staged is applied together, in field order; with nothing
waiting the engine is at DISPATCH. -/
def microCommit : Prop := ∀ (n : Fin 8) (at_ : Nat) (s : State), s.sl[n].seq.micro.addr = some at_ → EngineRuns s n →
  mNsel (fetchedWord s n at_) = 3 → mCommit (fetchedWord s n at_) = true → s.sl[n].seq.micro.pend = [] → s.sl[n].seq.micro.queue = [] →
  let w := fetchedWord s n at_
  let m := s.sl[n].seq.micro
  let t := s.microStep n
  t.sl[n].seq.micro = { m with
    addr := none, entry := none, service := none, staged := [], applied := effectsOf (m.staged ++ [w])
    flag := if mBru w = 1 then s.microEval n else m.flag } ∧
  t.regs = s.regs ∧ OnlyEngine s t n

/-- RESUME (R525): the abandoned routine starts again at its entry, counted, with LASTENTRY. -/
def microResume : Prop := ∀ (n : Fin 8) (at_ e : Nat) (s : State), s.sl[n].seq.micro.addr = some at_ → EngineRuns s n →
  mNsel (fetchedWord s n at_) = 6 → s.sl[n].seq.micro.pend = [] → s.sl[n].seq.micro.service ≠ none → s.sl[n].seq.micro.entry = some e →
  let t := s.microStep n
  t.sl[n].seq.micro.addr = some e ∧ t.sl[n].seq.micro.entry = some e ∧ t.sl[n].seq.micro.service = none ∧ t.sl[n].seq.micro.staged = [] ∧
  t.rd (fSlUstat_RESTARTS n) = min (s.rd (fSlUstat_RESTARTS n) + 1) (2 ^ (fSlUstat_RESTARTS n).w - 1) ∧
  t.rd (fSlUstat_LASTENTRY n) = e % 2 ^ (fSlUstat_LASTENTRY n).w ∧
  OnlyFlds s t [fSlUstat_RESTARTS n, fSlUstat_LASTENTRY n] ∧ OnlyEngine s t n

/-- A control word presented (R518, R520): at DISPATCH its OP's entry is entered; while a routine runs it waits for its end, as a service
that follows it does (EXCCAP, or END at a boundary). -/
def microDispatch : Prop := ∀ (m : Micro) (w : MWord) (e : Nat),
  (m.addr = none → m.pend = [] → m.queue = [] → m.present (.word w) = { m with
    addr := some (Config.dispatch (wOp w.word) % 0x2000), entry := some (Config.dispatch (wOp w.word) % 0x2000), service := none
    staged := [], cur := w, begun := m.begun + 1 }) ∧
  (m.addr = none → m.pend = [] → m.queue = [] → m.present (.service e) = { m with
    addr := some e, entry := none, service := some e, staged := [] }) ∧
  (∀ i, m.addr ≠ none → m.present i = { m with queue := m.queue ++ [i] })

/-- The conditions that a word's own effects would change (R521, R523), of the stack, of a loop counter and of the gang, are those before
it. -/
def microConds : Prop := ∀ (n : Fin 8) (w : BitVec 160) (s : State),
  let c := s.sl[n].seq.micro.cur
  (mCond w = 2 → s.microCond n w = decide (c.sp = 16)) ∧ (mCond w = 3 → s.microCond n w = decide (c.sp = 0)) ∧
  (mCond w = 4 → s.microCond n w = decide (1 < c.lc.getD (bitsOf c.word.toNat (if w.getLsbD 127 then 32 else 0) 3) 0)) ∧
  (mCond w = 6 → (s.microCond n w = true ↔
    ∀ m ∈ s.burstOf n, s.sl[m].csDead = false ∧ s.sl[n].seq.micro.begun ≤ s.sl[m].seq.micro.begun))

/-- The ROM waits only for one of R522's three conditions to be true. -/
def romWaits : Prop := (∀ a : Nat, romOk a (romWord a) = true) ∧
  ∀ (a : Nat) (w : BitVec 160), romOk a w = true → mNsel w = 2 → mCond w ∈ [5, 6, 10] ∧ mPol w = false

/-- A word at an address that an enabled trap names comes from the patch RAM (R526). -/
def microTrap : Prop := ∀ (p : Patch) (a : Nat) (e : Word), (p.traps.find? fun x => tEn x && tRom x == a) = some e →
  trapAddr (some p) a = 0x2000 + bitsOf e.toNat 0 10 ∧
  microWord (some p) (trapAddr (some p) a) = p.words.getD (bitsOf e.toNat 0 10) 0

/-! ### A core's cycle (R396 to R404) -/

/-- A core that does not run does nothing (R403). -/
def coreStands : Prop := ∀ (c : Fin 8) (s : State), s.coreRuns c = false → s.coreCycle c = s

/-- An interrupt that is pending and enabled is taken before the next instruction (R404): the core is in machine mode at its handler, with
its pc and the cause saved and interrupts off; all as the RISC-V standard has it (log entry 29, presumed). -/
def coreInterrupt : Prop := ∀ (c : Fin 8) (k : Nat) (s : State), s.coreRuns c = true → s.cores[c].waiting = none →
  s.irqDue c = some k →
  let x := s.cores[c]
  let t := s.coreCycle c
  t.cores[c].machineMode = true ∧ t.cores[c].csr.mepc = x.pc ∧ t.cores[c].csr.mcause = BitVec.ofNat 64 (2 ^ 63 + k) ∧
  t.cores[c].mst mstMie = false ∧ t.cores[c].mst mstMpie = x.mst mstMie ∧ t.cores[c].mst mstMpp = x.machineMode ∧
  t.cores[c].pc = BitVec.ofNat 64 (x.csr.mtvec.toNat / 4 * 4 + if bitOf x.csr.mtvec.toNat 0 then 4 * k else 0) ∧
  t.cores[c].x = x.x ∧ t.cores[c].sram = x.sram ∧ (∀ d : Fin 8, d ≠ c → t.cores[d] = s.cores[d]) ∧ t = { s with cores := t.cores }

/-- mhartid is the core number (R396). -/
def coreNumber : Prop := ∀ (c : Fin 8) (s : State), s.cores[c].machineMode = true → s.csrRead c 0xF14 = some (BitVec.ofNat 64 c.val)

/-- A misaligned load or store raises its exception and moves no data (R396); it goes before an access fault (log entry 29, presumed). -/
def coreMisaligned : Prop := ∀ (c : Fin 8) (len size : Nat) (sx : Bool) (rd : Fin 32) (a v : DWord) (s : State), a.toNat % size ≠ 0 →
  s.rvLoad c len size sx rd a = s.modCore c (fun x => x.except .loadMisaligned a) ∧
  s.rvStore c len size a v = s.modCore c (fun x => x.except .storeMisaligned a) ∧
  s.rvLr c len size rd a = s.modCore c (fun x => x.except .loadMisaligned a) ∧
  s.rvSc c len size rd a v = s.modCore c (fun x => x.except .storeMisaligned a) ∧
  ∀ k, s.rvAmo c len k size rd a v = s.modCore c (fun x => x.except .storeMisaligned a)

/-- An access that the address map does not allow raises the access fault of its kind (R397); LR and SC reach only local SRAM, and no
AMO reaches the BAR0 window (R400). -/
def coreAccessFault : Prop := ∀ (c : Fin 8) (len size : Nat) (sx : Bool) (rd : Fin 32) (a v : DWord) (s : State), a.toNat % size = 0 →
  s.cores[c].csr.pmpOk s.cores[c].dataMode .load a.toNat size = true →
  s.cores[c].csr.pmpOk s.cores[c].dataMode .store a.toNat size = true →
  (coreAt a.toNat size ∈ [CoreAt.done, .push, .nowhere] →
    s.rvLoad c len size sx rd a = s.modCore c fun x => x.except .loadFault a) ∧
  (coreAt a.toNat size ∈ [CoreAt.get, .mtime, .nowhere] →
    s.rvStore c len size a v = s.modCore c fun x => x.except .storeFault a) ∧
  (coreAt a.toNat size ≠ .sram → s.rvLr c len size rd a = s.modCore c (fun x => x.except .storeFault a) ∧
    s.rvSc c len size rd a v = s.modCore c fun x => x.except .storeFault a) ∧
  (coreAt a.toNat size ≠ .sram → (∀ m, coreAt a.toNat size ≠ .mem m) → ∀ k,
    s.rvAmo c len k size rd a v = s.modCore c fun x => x.except .storeFault a)

/-- An AMO on pattern memory is one read-modify-write at the DRC (R400): the bytes there become its result, and its register takes what
they were. -/
def coreAmoMem : Prop := ∀ (c : Fin 8) (len size m : Nat) (k : Amo) (rd : Fin 32) (a v : DWord) (s : State), a.toNat % size = 0 →
  s.cores[c].csr.pmpOk s.cores[c].dataMode .load a.toNat size = true →
  s.cores[c].csr.pmpOk s.cores[c].dataMode .store a.toNat size = true → coreAt a.toNat size = .mem m →
  s.mayRead (.core c) m size = true → s.mayWrite (.core c) m size = true → s.coreServed c m size = true →
  let t := s.rvAmo c len k size rd a v
  t.bytes m size = leBytes size (k.val size (s.num m size) v.toNat) ∧ BytesApart s t m size ∧
  t.cores[c].pc = s.cores[c].pc + BitVec.ofNat 64 len ∧
  (∀ r : Fin 32, t.cores[c].get r = if r = rd ∧ r ≠ 0 then sext (s.num m size) (8 * size) else s.cores[c].get r) ∧
  ∀ d : Fin 8, d ≠ c → t.cores[d] = s.cores[d]

/-- A store of a running core reaches pattern memory, or its own local SRAM, in order (R399, R397). -/
def coreStoreMem : Prop := ∀ (c : Fin 8) (len size m : Nat) (a v : DWord) (s : State), a.toNat % size = 0 →
  s.cores[c].csr.pmpOk s.cores[c].dataMode .store a.toNat size = true → coreAt a.toNat size = .mem m →
  s.mayWrite (.core c) m size = true → s.coreServed c m size = true →
  let t := s.rvStore c len size a v
  t.bytes m size = leBytes size (v.toNat % 2 ^ (8 * size)) ∧ BytesApart s t m size ∧
  t.cores[c].pc = s.cores[c].pc + BitVec.ofNat 64 len ∧ t.cores[c].x = s.cores[c].x ∧
  ∀ d : Fin 8, d ≠ c → t.cores[d] = s.cores[d]

/-- Every command answers a next state, and only the step itself takes commands from the queue. -/
def execAnswers : Prop := ∀ (c : Instr) (s : State), ∃ t, exec c s = .next t ∧ t.pending = s.pending

/-- The queue of a step: its front command leaves it. -/
def stepQueue : Prop := ∀ (s : State), ∃ t, step s = .next t ∧ t.pending = s.pending.tail

/-- The canonical forms hold at reset: registers listed by rising address with no entry at its reset value, pattern memory by
rising address with no entry at what an unlisted byte reads as. -/
def resetInv : Prop := State.reset.Inv

/-- From every state with the canonical forms, reached by a run or not, a step leads to a state with them. -/
def stepKeepsInv : Prop := ∀ (s t : State), s.Inv → step s = .next t → t.Inv

/-- Pattern memory (R89): after a store of bytes at an address those bytes are read there, and every other byte as before. -/
def readAfterStore : Prop := ∀ (s : State) (a : Nat) (bs : List Byte),
  (s.store a bs).bytes a bs.length = bs ∧ (∀ b, (b < a ∨ a + bs.length ≤ b) → (s.store a bs).byte b = s.byte b) ∧
  s.store a bs = { s with mem := (s.store a bs).mem }

/-- A register field reads as it was written, and a write of it leaves every field apart from it. -/
def readAfterWrite : Prop := ∀ (s : State) (f : Fld) (v : Nat), f.lo + f.w ≤ 64 →
  (s.wr f v).rd f = v % 2 ^ f.w ∧ OnlyFlds s (s.wr f v) [f] ∧ s.wr f v = { s with regs := (s.wr f v).regs }

/-- While PWRGOOD is low no register access has an effect (log entry 16). -/
def noPower : Prop := ∀ (ini : Initiator) (a size : Nat) (v : Option DWord) (s : State), s.power.on = false →
  (Instr.registerWrite ini a size v).wf = true →
  Runs (.registerWrite ini a size v) s fun t => t = s

/-- A register that an initiator does not see (R17, R28): its write changes nothing but that initiator's error record. -/
def hiddenWrite : Prop := ∀ (ini : Initiator) (a : Nat) (r : Reg) (ix : List Nat) (v : Word) (s : State), s.busOn ini = true →
  a % 4 = 0 → Reg.find a = some (r, ix, false) → s.sees ini r ix = false →
  Runs (.registerWrite ini a 4 (some (v.setWidth 64))) s fun t => Flagged s t ini .unmapped a

/-- At reset (R576) no register word is stored, so that every field reads its reset value; no burst, no READY bit, no command. -/
def resetState : Prop :=
  (∀ a, State.reset.reg a = resetWord a) ∧ State.reset.ready = 0 ∧ State.reset.pending = [] ∧ State.reset.mem = [] ∧
  (∀ n : Fin 8, State.reset.sl[n].st = .idle ∧ State.reset.sl[n].chk = none) ∧
  (∀ u : Fin 4, State.reset.scan[u].st = .off) ∧ (∀ p : Fin 4, State.reset.port[p].st = .disabled) ∧
  State.reset.time.tick = 0 ∧ State.reset.time.role = .none

end Sys2Proof.Machine.Claim

/-! ## The statements -/

/-- Register writes and reads: every field by its access type, registers in use, boot fields, pairs of words, and those with a
rule of their own (R18, R22, R16, R20, R24, R27, R616, R56, R71, R541, R569, R531). -/
def Obligations.FieldsByAccessType : Prop :=
  Sys2Proof.Machine.Claim.registerWrite ∧
  Sys2Proof.Machine.Claim.bootWrite ∧
  Sys2Proof.Machine.Claim.guardedWrite ∧
  Sys2Proof.Machine.Claim.pairWrite ∧
  Sys2Proof.Machine.Claim.registerRead ∧
  Sys2Proof.Machine.Claim.readStored ∧
  Sys2Proof.Machine.Claim.accerrWrite ∧
  Sys2Proof.Machine.Claim.scanRegWrite ∧
  Sys2Proof.Machine.Claim.ringIndexWrite ∧
  Sys2Proof.Machine.Claim.latchedWrite ∧
  Sys2Proof.Machine.Claim.pressCfgWrite ∧
  Sys2Proof.Machine.Claim.tdccfgWrite ∧
  Sys2Proof.Machine.Claim.ownedWrite ∧
  Sys2Proof.Machine.Claim.ethRingWrite ∧
  Sys2Proof.Machine.Claim.ethCtrlWrite

/-- Accesses of other sizes, to no register, and to functions that are not ready; reads of 64-bit registers in two words (R15,
R17, R56, R16). -/
def Obligations.AccessRules : Prop :=
  Sys2Proof.Machine.Claim.otherSize ∧ Sys2Proof.Machine.Claim.unmapped ∧ Sys2Proof.Machine.Claim.notReady ∧
  Sys2Proof.Machine.Claim.shadowLow ∧ Sys2Proof.Machine.Claim.shadowHigh

/-- Contained faults end only their own burst with the pins safe; a fatal fault stops every slice and keeps memory (R35, R61,
R166, R539, R606, R189, R537, R191, R192, R604, R584). -/
def Obligations.Faults : Prop :=
  Sys2Proof.Machine.Claim.eventPathDbe ∧ Sys2Proof.Machine.Claim.streamUnderrun ∧ Sys2Proof.Machine.Claim.controlPathDbe
  ∧ Sys2Proof.Machine.Claim.streamEccError ∧ Sys2Proof.Machine.Claim.streamEccLate ∧
  Sys2Proof.Machine.Claim.eccOrder ∧ Sys2Proof.Machine.Claim.fatalFault
  ∧ Sys2Proof.Machine.Claim.railFault ∧
  Sys2Proof.Machine.Claim.unpoweredFaults

/-- Hamper: the class and the block of every unit's error; an error is counted, latched and recorded; POP, AONCLR and injection
(R536, R537, R539, R541, R544, R545, R565, R566, R538, R402, R448, R230). -/
def Obligations.HamperRecords : Prop :=
  Sys2Proof.Machine.Claim.errorClasses ∧ Sys2Proof.Machine.Claim.errorBlocks ∧
  Sys2Proof.Machine.Claim.hamperErrorEvent ∧ Sys2Proof.Machine.Claim.hamperWireFault ∧
  Sys2Proof.Machine.Claim.hamperContained ∧ Sys2Proof.Machine.Claim.hamperDma ∧
  Sys2Proof.Machine.Claim.hamperScan ∧
  Sys2Proof.Machine.Claim.hamperCore ∧
  Sys2Proof.Machine.Claim.hamperDisp ∧
  Sys2Proof.Machine.Claim.hamperPort ∧
  Sys2Proof.Machine.Claim.hamperEth ∧
  Sys2Proof.Machine.Claim.hamperWireActs ∧ Sys2Proof.Machine.Claim.hamperFatal ∧
  Sys2Proof.Machine.Claim.hamperSourceCleared ∧ Sys2Proof.Machine.Claim.dispatcherStoreRecovered ∧
  Sys2Proof.Machine.Claim.pop ∧ Sys2Proof.Machine.Claim.aonclr ∧ Sys2Proof.Machine.Claim.injectSingle ∧
  Sys2Proof.Machine.Claim.injectDouble ∧ Sys2Proof.Machine.Claim.injectWire

/-- REF, XO and the root clock; FSEAM handover, synthesizer and delay-line faults, event input edges (R46, R47, R50, R48, R45,
R55, R457, R49). -/
def Obligations.Clocks : Prop :=
  Sys2Proof.Machine.Claim.refLost ∧ Sys2Proof.Machine.Claim.refValid ∧ Sys2Proof.Machine.Claim.rootReturnToRef ∧
  Sys2Proof.Machine.Claim.xoLost ∧ Sys2Proof.Machine.Claim.xoValid ∧ Sys2Proof.Machine.Claim.trootLockLost ∧
  Sys2Proof.Machine.Claim.rootPllLocked ∧ Sys2Proof.Machine.Claim.clkctlWrite ∧ Sys2Proof.Machine.Claim.fseamHandover ∧
  Sys2Proof.Machine.Claim.synthRecovered ∧ Sys2Proof.Machine.Claim.synthFault ∧ Sys2Proof.Machine.Claim.dllLockLost ∧
  Sys2Proof.Machine.Claim.evtInputEdge

/-- Power-on, PERST_N and full resets and the loss of AON power: what they reset and what they keep (R577, R506, R584, R606, R575,
R551). -/
def Obligations.ModuleResets : Prop :=
  Sys2Proof.Machine.Claim.powerOnReset ∧ Sys2Proof.Machine.Claim.perstN ∧ Sys2Proof.Machine.Claim.fullReset ∧
  Sys2Proof.Machine.Claim.pwrgoodFall ∧ Sys2Proof.Machine.Claim.vaonLoss

/-- Warm, slice and management resets, the rails, and boot (R576, R575, R604, R587, R595, R93, R585, R615, R501, R552, R596,
R581). -/
def Obligations.UnitResets : Prop :=
  Sys2Proof.Machine.Claim.warm ∧ Sys2Proof.Machine.Claim.slice ∧ Sys2Proof.Machine.Claim.mgmt ∧
  Sys2Proof.Machine.Claim.railsInRange ∧ Sys2Proof.Machine.Claim.bootVerifyDone ∧
  Sys2Proof.Machine.Claim.mgmtFirmwareRunning

/-- A drive event drives its lane; a strobe compares and collects fails (R218, R221, R223, R219, R293, R224, R228, R242, R316). -/
def Obligations.DriveAndStrobe : Prop :=
  Sys2Proof.Machine.Claim.driveEvent ∧ Sys2Proof.Machine.Claim.strobe ∧
  Sys2Proof.Machine.Claim.strobeMuted

/-- JMP, FSEAM, CALL, RET, HALT and LOOP: where the sequencer goes, what it saves, what it raises (R140, R141, R142, R144, R146,
R68, R164, R150). -/
def Obligations.ControlFlow : Prop :=
  Sys2Proof.Machine.Claim.jmp ∧ Sys2Proof.Machine.Claim.fseam ∧ Sys2Proof.Machine.Claim.call ∧
  Sys2Proof.Machine.Claim.ret ∧ Sys2Proof.Machine.Claim.halt ∧ Sys2Proof.Machine.Claim.loop ∧
  Sys2Proof.Machine.Claim.jmpOut ∧ Sys2Proof.Machine.Claim.noSite

/-- BRC and MWAIT in both forms: the condition, the branch or wait, and CLR (R152, R147, R153). -/
def Obligations.ConditionalFlow : Prop :=
  Sys2Proof.Machine.Claim.brc ∧ Sys2Proof.Machine.Claim.brcClr ∧ Sys2Proof.Machine.Claim.mwait ∧
  Sys2Proof.Machine.Claim.mwaitClr

/-- ADV, RPT, LDC and TSET (R138, R139, R145, R154). -/
def Obligations.TimingWords : Prop :=
  Sys2Proof.Machine.Claim.adv ∧ Sys2Proof.Machine.Claim.rpt ∧ Sys2Proof.Machine.Claim.ldc ∧ Sys2Proof.Machine.Claim.tset

/-- LVL, PMU, TDC, MKSET and MKCLR words enter their queues; arrivals and marker edges (R155, R156, R157, R617, R158). -/
def Obligations.QueueWords : Prop :=
  Sys2Proof.Machine.Claim.lvl ∧ Sys2Proof.Machine.Claim.pmu ∧ Sys2Proof.Machine.Claim.tdc ∧
  Sys2Proof.Machine.Claim.mkset ∧ Sys2Proof.Machine.Claim.mkclr ∧ Sys2Proof.Machine.Claim.arrivalPmu ∧
  Sys2Proof.Machine.Claim.arrivalLvl ∧ Sys2Proof.Machine.Claim.arrivalMarker ∧ Sys2Proof.Machine.Claim.markerEdge

/-- SMASK, SLATCH and GSYNC words act on site masks and latches of the whole burst (R159, R161, R162, R163). -/
def Obligations.SiteWords : Prop :=
  Sys2Proof.Machine.Claim.smaskLoad ∧ Sys2Proof.Machine.Claim.smaskEnable ∧ Sys2Proof.Machine.Claim.smaskDisable ∧
  Sys2Proof.Machine.Claim.smaskDropFailed ∧ Sys2Proof.Machine.Claim.slatchAccum ∧
  Sys2Proof.Machine.Claim.slatchAccumClrw ∧ Sys2Proof.Machine.Claim.slatchClrw ∧ Sys2Proof.Machine.Claim.slatchReset ∧
  Sys2Proof.Machine.Claim.gsync ∧ Sys2Proof.Machine.Claim.gsyncOut

/-- A hem boundary, a group of vectors, PREFILL, T0, parking and IDLE (R136, R60, R135, R37, R139, R206, R65, R66, R58, R209,
R187, R188). -/
def Obligations.HemBoundary : Prop :=
  Sys2Proof.Machine.Claim.hemBoundary ∧
  Sys2Proof.Machine.Claim.hemBoundaryEcc ∧ Sys2Proof.Machine.Claim.vectorGroup ∧
  Sys2Proof.Machine.Claim.vectorGroupEcc ∧ Sys2Proof.Machine.Claim.prefillDone ∧
  Sys2Proof.Machine.Claim.burstT0 ∧ Sys2Proof.Machine.Claim.pinsPark ∧ Sys2Proof.Machine.Claim.burstIdle

/-- START and the checks of an admission, in their order, and what an accepted burst holds (R67, R69, R65, R72, R68, R70, R77,
R168). -/
def Obligations.Admission : Prop :=
  Sys2Proof.Machine.Claim.start ∧ Sys2Proof.Machine.Claim.startBusy ∧ Sys2Proof.Machine.Claim.admissionRejects ∧
  Sys2Proof.Machine.Claim.admissionChecks ∧
  Sys2Proof.Machine.Claim.admissionOrder ∧ Sys2Proof.Machine.Claim.admissionRequires ∧
  Sys2Proof.Machine.Claim.reachableSet ∧ Sys2Proof.Machine.Claim.admissionAccepts

/-- ABORT_HEM, ABORT_NOW, bandwidth reservations and the drive distance (R78, R79, R70, R71, R81, R185). -/
def Obligations.AbortsAndReservations : Prop :=
  Sys2Proof.Machine.Claim.abortHem ∧ Sys2Proof.Machine.Claim.abortNow ∧ Sys2Proof.Machine.Claim.resvWrite ∧
  Sys2Proof.Machine.Claim.ddistWrite

/-- Segment commands: open, seal, drop, and the seal of a DMA descriptor (R106, R108, R107, R123). -/
def Obligations.Segments : Prop :=
  Sys2Proof.Machine.Claim.segOpen ∧ Sys2Proof.Machine.Claim.segSeal ∧ Sys2Proof.Machine.Claim.segDrop ∧
  Sys2Proof.Machine.Claim.dmaSeal

/-- Verification of an image in the order of its checks, and the queue of results (R108, R110, R96, R98, R126, R111). -/
def Obligations.ImageVerification : Prop :=
  Sys2Proof.Machine.Claim.verifyBegin ∧ Sys2Proof.Machine.Claim.verifyDone ∧ Sys2Proof.Machine.Claim.verifyOrder ∧
  Sys2Proof.Machine.Claim.loaddonePost ∧ Sys2Proof.Machine.Claim.loaddoneRead

/-- The region map and accesses to pattern memory: rights, granules, order of service, sealed ranges; a store changes its bytes
alone, a read takes them (R92, R94, R95, R363, R364, R365, R366, R369, R381, R53, R109). -/
def Obligations.RegionsAndMemory : Prop :=
  Sys2Proof.Machine.Claim.hregCtrlWrite ∧ Sys2Proof.Machine.Claim.hbmWrite ∧
  Sys2Proof.Machine.Claim.hbmSealed ∧ Sys2Proof.Machine.Claim.hbmRead ∧
  Sys2Proof.Machine.Claim.hbmReadOther ∧ Sys2Proof.Machine.Claim.hbmDenied ∧ Sys2Proof.Machine.Claim.hbmWaits ∧
  Sys2Proof.Machine.Claim.hbmGranules ∧ Sys2Proof.Machine.Claim.hbmOrder ∧
  Sys2Proof.Machine.Claim.hbmTurn

/-- SMAP commit, revert and its checks; gangs (R298, R179, R180, R181, R182, R185). -/
def Obligations.SiteMap : Prop :=
  Sys2Proof.Machine.Claim.smapCommit ∧ Sys2Proof.Machine.Claim.smapOrder ∧ Sys2Proof.Machine.Claim.smapRevert ∧
  Sys2Proof.Machine.Claim.gangWrite

/-- Pin connections, level pushes, PPMUs and the DAC tick with its corrections (R241, R242, R244, R253, R274, R258, R252, R250,
R257, R579). -/
def Obligations.PinElectronics : Prop :=
  Sys2Proof.Machine.Claim.pincfgWrite ∧ Sys2Proof.Machine.Claim.lvlpush ∧ Sys2Proof.Machine.Claim.pmuWrite ∧
  Sys2Proof.Machine.Claim.dacTick ∧ Sys2Proof.Machine.Claim.dacTickLevel ∧ Sys2Proof.Machine.Claim.dacTickPpmu ∧
  Sys2Proof.Machine.Claim.ppmuAtLimit

/-- The ADC: commands, triggers, samples and results (R263, R261, R262, R260, R284, R264, R291, R581). -/
def Obligations.AdcRuns : Prop :=
  Sys2Proof.Machine.Claim.pmuQueueTakeAdc ∧ Sys2Proof.Machine.Claim.adcStart ∧ Sys2Proof.Machine.Claim.adcStop ∧
  Sys2Proof.Machine.Claim.adcTimer ∧ Sys2Proof.Machine.Claim.adcDelayExpiry ∧ Sys2Proof.Machine.Claim.adcSampleSequence
  ∧ Sys2Proof.Machine.Claim.adcSampleSum ∧ Sys2Proof.Machine.Claim.adcUrgentRequest ∧ Sys2Proof.Machine.Claim.adcresRead

/-- The TDC: arming, stamps, timeouts, results, and the time base that disciplines it (R263, R267, R291, R266, R268, R269, R270,
R581). -/
def Obligations.TdcRuns : Prop :=
  Sys2Proof.Machine.Claim.pmuQueueTakeTdc ∧ Sys2Proof.Machine.Claim.tdcresRead ∧ Sys2Proof.Machine.Claim.tdcArm ∧
  Sys2Proof.Machine.Claim.tdcCancel ∧ Sys2Proof.Machine.Claim.tdcArmed ∧ Sys2Proof.Machine.Claim.tdcStartEdge ∧
  Sys2Proof.Machine.Claim.tdcStop ∧ Sys2Proof.Machine.Claim.tdcTimeout ∧ Sys2Proof.Machine.Claim.tdcLockLost ∧
  Sys2Proof.Machine.Claim.xoDisciplineUpdate ∧ Sys2Proof.Machine.Claim.xotbWrite

/-- The Spool takes, drains and discards records; counters and site latches (R300, R301, R305, R302, R306, R304, R307, R295, R297,
R78, R366). -/
def Obligations.SpoolAndLatches : Prop :=
  Sys2Proof.Machine.Claim.spoolRecord ∧ Sys2Proof.Machine.Claim.spoolDrain ∧ Sys2Proof.Machine.Claim.sprdWrite ∧
  Sys2Proof.Machine.Claim.discard ∧ Sys2Proof.Machine.Claim.cntclr ∧ Sys2Proof.Machine.Claim.sitelatWrite ∧
  Sys2Proof.Machine.Claim.sitesetWrite ∧
  Sys2Proof.Machine.Claim.spoolDrainBehind

/-- Scope mode from ARM to the last sample (R310, R316, R312, R313, R314, R95). -/
def Obligations.ScopeRuns : Prop :=
  Sys2Proof.Machine.Claim.scopeArm ∧ Sys2Proof.Machine.Claim.scopeCancel ∧ Sys2Proof.Machine.Claim.scopeSettled ∧
  Sys2Proof.Machine.Claim.scopeTrigger ∧ Sys2Proof.Machine.Claim.scopeForcedTrigger ∧
  Sys2Proof.Machine.Claim.scopeSample ∧
  Sys2Proof.Machine.Claim.scopeSampleRefused

/-- SCAN units: enable with its checks, disable, and the requests of a running unit (R347, R348, R352, R351). -/
def Obligations.ScanControl : Prop :=
  Sys2Proof.Machine.Claim.scanEnable ∧ Sys2Proof.Machine.Claim.scanFitsMeans ∧ Sys2Proof.Machine.Claim.scanDisable ∧
  Sys2Proof.Machine.Claim.scanCommit ∧ Sys2Proof.Machine.Claim.scanBaserdy ∧ Sys2Proof.Machine.Claim.scanOvlrdy

/-- SCAN raster: fetches, line and frame starts, the fetch point F and what underruns do (R344, R349, R338, R340, R341, R350,
R351, R346). -/
def Obligations.ScanRaster : Prop :=
  Sys2Proof.Machine.Claim.scanLineFetched ∧ Sys2Proof.Machine.Claim.scanRasterStart ∧
  Sys2Proof.Machine.Claim.scanLineStart ∧ Sys2Proof.Machine.Claim.scanFrameEnd ∧ Sys2Proof.Machine.Claim.scanFetchPoint
  ∧ Sys2Proof.Machine.Claim.scanRequests ∧ Sys2Proof.Machine.Claim.scanRequestsAtF ∧
  Sys2Proof.Machine.Claim.scanUnderrun ∧ Sys2Proof.Machine.Claim.scanLeadWatermark

/-- Refresh, rowhammer defence, temperature and a panic that lasts (R370, R369, R371, R372, R374, R375, R377, R376, R615, R365,
R364). -/
def Obligations.Refresh : Prop :=
  Sys2Proof.Machine.Claim.panicLong ∧ Sys2Proof.Machine.Claim.refreshDue ∧ Sys2Proof.Machine.Claim.forcedBurstRefresh ∧
  Sys2Proof.Machine.Claim.rowActivate ∧ Sys2Proof.Machine.Claim.rowActivateWindow ∧
  Sys2Proof.Machine.Claim.targetedRefresh ∧ Sys2Proof.Machine.Claim.probRefresh ∧ Sys2Proof.Machine.Claim.hbmTempRead ∧
  Sys2Proof.Machine.Claim.hbmTooHot ∧
  Sys2Proof.Machine.Claim.rowActivateAfter

/-- ECC errors of pattern memory, stack initialisation, training and repair (R381, R346, R378, R379, R585, R394, R383, R561,
R589). -/
def Obligations.StackErrorsAndRepair : Prop :=
  Sys2Proof.Machine.Claim.hbmCorrectedError ∧ Sys2Proof.Machine.Claim.hbmUncorrectableError ∧
  Sys2Proof.Machine.Claim.hbmUncorrectableScan ∧ Sys2Proof.Machine.Claim.hbInit ∧ Sys2Proof.Machine.Claim.hbInitDone ∧
  Sys2Proof.Machine.Claim.hbInitFailed ∧ Sys2Proof.Machine.Claim.trnWrite ∧ Sys2Proof.Machine.Claim.pprSoft ∧
  Sys2Proof.Machine.Claim.pprHard ∧ Sys2Proof.Machine.Claim.pprDone

/-- Site cores: run, reset, errors, interrupts; what an instruction of a core does at memory and where it traps (R403, R413, R402,
R401, R404, R423, R396, R397, R399, R400). -/
def Obligations.SiteCores : Prop :=
  Sys2Proof.Machine.Claim.coreRun ∧ Sys2Proof.Machine.Claim.coreReset ∧ Sys2Proof.Machine.Claim.coreUe ∧
  Sys2Proof.Machine.Claim.coreTimerInterrupt ∧ Sys2Proof.Machine.Claim.msipWrite ∧ Sys2Proof.Machine.Claim.sramWrite ∧ Sys2Proof.Machine.Claim.doorbell ∧
  Sys2Proof.Machine.Claim.coreStands ∧ Sys2Proof.Machine.Claim.coreInterrupt ∧ Sys2Proof.Machine.Claim.coreNumber ∧
  Sys2Proof.Machine.Claim.coreMisaligned ∧ Sys2Proof.Machine.Claim.coreAccessFault ∧
  Sys2Proof.Machine.Claim.coreAmoMem ∧ Sys2Proof.Machine.Claim.coreStoreMem

/-- The Dispatcher: pushes, grants and the turns of its round robin, GET and DONE, FLUSH (R406, R407, R408, R409, R410, R404,
R412). -/
def Obligations.Dispatcher : Prop :=
  Sys2Proof.Machine.Claim.push ∧ Sys2Proof.Machine.Claim.dispatchGrant ∧ Sys2Proof.Machine.Claim.dispatchGrants ∧
  Sys2Proof.Machine.Claim.dispatchTurns ∧
  Sys2Proof.Machine.Claim.get ∧ Sys2Proof.Machine.Claim.getRelease ∧
  Sys2Proof.Machine.Claim.getEnds ∧ Sys2Proof.Machine.Claim.done ∧
  Sys2Proof.Machine.Claim.flush

/-- Detectors of a Clothesline port, the bytes of its control blocks and frames, and what received blocks let it do next (R427,
R430, R428, R433, R429, R432, R436, R434, R439). -/
def Obligations.LinkDetectors : Prop :=
  Sys2Proof.Machine.Claim.losSet ∧ Sys2Proof.Machine.Claim.losClear ∧ Sys2Proof.Machine.Claim.lolSet ∧
  Sys2Proof.Machine.Claim.lolClear ∧ Sys2Proof.Machine.Claim.fckDetector ∧ Sys2Proof.Machine.Claim.rxBlock ∧
  Sys2Proof.Machine.Claim.align ∧ Sys2Proof.Machine.Claim.alignTx ∧ Sys2Proof.Machine.Claim.txEmbeddedChange ∧
  Sys2Proof.Machine.Claim.recover ∧
  Sys2Proof.Machine.Claim.controlBlocks ∧ Sys2Proof.Machine.Claim.frameBlocks ∧
  Sys2Proof.Machine.Claim.deskewed

/-- CTRL of a Clothesline port and training: HELLO, failed attempts, retries, recovery and its end (R430, R448, R431, R436, R435,
R432, R459, R449). -/
def Obligations.LinkTraining : Prop :=
  Sys2Proof.Machine.Claim.clEnable ∧ Sys2Proof.Machine.Claim.clDisable ∧ Sys2Proof.Machine.Claim.lrst ∧
  Sys2Proof.Machine.Claim.train ∧ Sys2Proof.Machine.Claim.helloTimer ∧ Sys2Proof.Machine.Claim.hello ∧
  Sys2Proof.Machine.Claim.attemptTimeout ∧ Sys2Proof.Machine.Claim.switchTimeout ∧
  Sys2Proof.Machine.Claim.measureExchangeTimeout ∧ Sys2Proof.Machine.Claim.downRetry ∧
  Sys2Proof.Machine.Claim.recoverTimeout

/-- Sequence numbers, replay, timeouts, and frames out of sequence or not accepted in a mode (R434, R435, R437, R433, R440, R441,
R430, R447, R451). -/
def Obligations.Replay : Prop :=
  Sys2Proof.Machine.Claim.txFrame ∧ Sys2Proof.Machine.Claim.txSummary ∧ Sys2Proof.Machine.Claim.txNothing ∧ Sys2Proof.Machine.Claim.txEnum ∧
  Sys2Proof.Machine.Claim.ack ∧ Sys2Proof.Machine.Claim.ackIgnored ∧ Sys2Proof.Machine.Claim.nak ∧
  Sys2Proof.Machine.Claim.nakAll ∧ Sys2Proof.Machine.Claim.replayTimeout ∧ Sys2Proof.Machine.Claim.ackTimer ∧
  Sys2Proof.Machine.Claim.frameCrcError ∧ Sys2Proof.Machine.Claim.frameOutOfOrder ∧
  Sys2Proof.Machine.Claim.framePeerDropped ∧ Sys2Proof.Machine.Claim.peerBucketRefill

/-- Fail summaries and remote register accesses (R438, R440, R456, R442, R443, R16, R17, R447). -/
def Obligations.SummariesAndRemote : Prop :=
  Sys2Proof.Machine.Claim.summary ∧ Sys2Proof.Machine.Claim.sumrxPop ∧ Sys2Proof.Machine.Claim.regOther ∧
  Sys2Proof.Machine.Claim.regrd ∧ Sys2Proof.Machine.Claim.regrdHigh ∧ Sys2Proof.Machine.Claim.regrdUnmapped ∧
  Sys2Proof.Machine.Claim.regwr ∧ Sys2Proof.Machine.Claim.regwrUnmapped ∧ Sys2Proof.Machine.Claim.regwrRefused ∧
  Sys2Proof.Machine.Claim.regrsp ∧
  Sys2Proof.Machine.Claim.broadcastFrames

/-- Enumeration: searches, DISCOVER and its answers, frames of an older generation (R445, R444, R446, R447). -/
def Obligations.EnumerationSearch : Prop :=
  Sys2Proof.Machine.Claim.frameUnused ∧ Sys2Proof.Machine.Claim.discoverAlt ∧ Sys2Proof.Machine.Claim.discoverStale ∧ Sys2Proof.Machine.Claim.discover ∧
  Sys2Proof.Machine.Claim.enumOther ∧ Sys2Proof.Machine.Claim.join ∧ Sys2Proof.Machine.Claim.alt ∧
  Sys2Proof.Machine.Claim.search ∧ Sys2Proof.Machine.Claim.searchElsewhere

/-- Enumeration: reports, indices, changes of the tree (R445, R447, R446). -/
def Obligations.EnumerationTree : Prop :=
  Sys2Proof.Machine.Claim.report ∧ Sys2Proof.Machine.Claim.fin ∧ Sys2Proof.Machine.Claim.assign ∧
  Sys2Proof.Machine.Claim.doneEnum ∧ Sys2Proof.Machine.Claim.change ∧ Sys2Proof.Machine.Claim.adopt ∧
  Sys2Proof.Machine.Claim.enumPortChange ∧ Sys2Proof.Machine.Claim.indicesDistinct ∧ Sys2Proof.Machine.Claim.indexGiven

/-- Link delay: the stamps of departures and exchanges in MEASURE and in ACTIVE (R459, R461, R431, R462, R447). -/
def Obligations.LinkDelay : Prop :=
  Sys2Proof.Machine.Claim.stamps ∧ Sys2Proof.Machine.Claim.delayExchangeTimer ∧ Sys2Proof.Machine.Claim.dreq ∧ Sys2Proof.Machine.Claim.drespActive ∧
  Sys2Proof.Machine.Claim.drespMeasure ∧ Sys2Proof.Machine.Claim.drespLast ∧ Sys2Proof.Machine.Claim.drespOther

/-- Triggers: issued, routed, accepted or refused, and executed (R440, R468, R447, R470, R469, R471, R78, R79). -/
def Obligations.Triggers : Prop :=
  Sys2Proof.Machine.Claim.trigPeer ∧ Sys2Proof.Machine.Claim.trigUnicast ∧ Sys2Proof.Machine.Claim.trigBroadcast ∧
  Sys2Proof.Machine.Claim.send ∧ Sys2Proof.Machine.Claim.late ∧ Sys2Proof.Machine.Claim.triggerAction ∧
  Sys2Proof.Machine.Claim.triggerAborts ∧ Sys2Proof.Machine.Claim.triggerNone

/-- Time following: SYNC, source and master, holdover and takeover (R467, R463, R464, R466, R470, R462, R477). -/
def Obligations.TimeFollowing : Prop :=
  Sys2Proof.Machine.Claim.syncIgnored ∧ Sys2Proof.Machine.Claim.syncAtMaster ∧ Sys2Proof.Machine.Claim.sync ∧
  Sys2Proof.Machine.Claim.syncPasses ∧ Sys2Proof.Machine.Claim.syncTimer ∧ Sys2Proof.Machine.Claim.sourceTimeout ∧
  Sys2Proof.Machine.Claim.masterTakeover ∧
  Sys2Proof.Machine.Claim.timeAligned

/-- The PTP clock: snapshots, setting, servo, transmit stamps (R458, R481, R475, R482, R484). -/
def Obligations.PtpClock : Prop :=
  Sys2Proof.Machine.Claim.snap ∧ Sys2Proof.Machine.Claim.phcSet ∧ Sys2Proof.Machine.Claim.servoUpdate ∧
  Sys2Proof.Machine.Claim.reseti ∧ Sys2Proof.Machine.Claim.txtsPop

/-- DMA: malformed descriptors, chunks in and out, errors, and the STATUS word that ends a descriptor (R492, R493, R494, R94). -/
def Obligations.DmaTransfers : Prop :=
  Sys2Proof.Machine.Claim.dmaBadDesc ∧ Sys2Proof.Machine.Claim.dmaChunkIn ∧ Sys2Proof.Machine.Claim.dmaChunkOut ∧
  Sys2Proof.Machine.Claim.dmaChunkError ∧ Sys2Proof.Machine.Claim.dmaChunkBarred ∧
  Sys2Proof.Machine.Claim.dmaStatusWrite

/-- Partitions: PART writes refused and accepted, partition reset, FLR, loss of the PCIe link (R488, R489, R51, R33). -/
def Obligations.Partitions : Prop :=
  Sys2Proof.Machine.Claim.partWriteRefused ∧ Sys2Proof.Machine.Claim.partWrite ∧ Sys2Proof.Machine.Claim.partZero ∧
  Sys2Proof.Machine.Claim.flr ∧ Sys2Proof.Machine.Claim.partitionReset ∧ Sys2Proof.Machine.Claim.pcieLinkDown ∧
  Sys2Proof.Machine.Claim.partWriteSpans

/-- Partition mailboxes: commands, busy, responses, discards, and remote register accesses (R499, R489, R447, R500, R443, R514,
R22, R501). -/
def Obligations.Mailboxes : Prop :=
  Sys2Proof.Machine.Claim.mailboxAsks ∧
  Sys2Proof.Machine.Claim.mailboxDenied ∧
  Sys2Proof.Machine.Claim.mailboxBehind ∧
  Sys2Proof.Machine.Claim.mailboxLength ∧ Sys2Proof.Machine.Claim.mailboxBusy ∧ Sys2Proof.Machine.Claim.mailboxResponse ∧
  Sys2Proof.Machine.Claim.mailboxDiscarded ∧ Sys2Proof.Machine.Claim.remoteRd ∧ Sys2Proof.Machine.Claim.remoteWr ∧
  Sys2Proof.Machine.Claim.remoteRoute ∧ Sys2Proof.Machine.Claim.remoteTimeout ∧ Sys2Proof.Machine.Claim.remoteResponse ∧
  Sys2Proof.Machine.Claim.mailboxNext

/-- Firmware updates: begin, data into the slot that is not running, and the responses that end them (R501). -/
def Obligations.FirmwareUpdate : Prop :=
  Sys2Proof.Machine.Claim.updateBegin ∧ Sys2Proof.Machine.Claim.updateData ∧ Sys2Proof.Machine.Claim.updateDataOutside ∧
  Sys2Proof.Machine.Claim.updateResponses

/-- Sensors, the sideband, the interlock, safe pins and the power of the PE dies (R497, R506, R583, R498, R507, R508, R547, R604,
R575). -/
def Obligations.ManagementSafety : Prop :=
  Sys2Proof.Machine.Claim.sensorSample ∧ Sys2Proof.Machine.Claim.sensorSampleUnpowered ∧
  Sys2Proof.Machine.Claim.safePins ∧ Sys2Proof.Machine.Claim.safeRelease ∧ Sys2Proof.Machine.Claim.powerDownPe ∧
  Sys2Proof.Machine.Claim.readHamperLog ∧ Sys2Proof.Machine.Claim.readTemps ∧ Sys2Proof.Machine.Claim.smbManaged ∧
  Sys2Proof.Machine.Claim.alertResponse ∧ Sys2Proof.Machine.Claim.interlockChange ∧
  Sys2Proof.Machine.Claim.interlockFault ∧ Sys2Proof.Machine.Claim.ilkFaultClear

/-- Ethernet frames out and in, their rings and the rights of them, stamps, frames held under panic, links (R503, R476, R504,
R505, R51, R55, R53, R94, R95, R472, R585). -/
def Obligations.Ethernet : Prop :=
  Sys2Proof.Machine.Claim.ethTxFrame ∧
  Sys2Proof.Machine.Claim.ethTxRefused ∧
  Sys2Proof.Machine.Claim.ethTxNothing ∧ Sys2Proof.Machine.Claim.ethRxDropped ∧
  Sys2Proof.Machine.Claim.ethRxNothing ∧ Sys2Proof.Machine.Claim.ethRxFrame ∧
  Sys2Proof.Machine.Claim.ethRxHeld ∧
  Sys2Proof.Machine.Claim.ethHeldDelivered ∧
  Sys2Proof.Machine.Claim.ethLinkUp ∧
  Sys2Proof.Machine.Claim.ethLinkDown ∧
  Sys2Proof.Machine.Claim.ptpHeaders

/-- Patches: load, reject, checks, the copy in force; control store errors; WAIT, COMMIT, RESUME, DISPATCH and traps of the engine
(R528, R529, R527, R517, R524, R522, R526, R525, R520, R523, R534, R521). -/
def Obligations.Microcode : Prop :=
  Sys2Proof.Machine.Claim.load ∧ Sys2Proof.Machine.Claim.reject ∧
  Sys2Proof.Machine.Claim.patchAbsent ∧ Sys2Proof.Machine.Claim.patchLoadDone ∧
  Sys2Proof.Machine.Claim.patchLoadDenied ∧
  Sys2Proof.Machine.Claim.patchLoadNone ∧ Sys2Proof.Machine.Claim.patchChecks ∧ Sys2Proof.Machine.Claim.csCorrectedError
  ∧ Sys2Proof.Machine.Claim.csUncorrectableError ∧ Sys2Proof.Machine.Claim.seqStateCorrect ∧
  Sys2Proof.Machine.Claim.microWait ∧
  Sys2Proof.Machine.Claim.microCommit ∧
  Sys2Proof.Machine.Claim.microResume ∧
  Sys2Proof.Machine.Claim.microDispatch ∧ Sys2Proof.Machine.Claim.microTrap ∧
  Sys2Proof.Machine.Claim.microConds ∧
  Sys2Proof.Machine.Claim.romWaits

/-- Press: when a run starts, the checks and their limits, what a pass and a failure write, and the end of the run (R548, R552,
R550, R549, R57, R250). -/
def Obligations.PressCalibration : Prop :=
  Sys2Proof.Machine.Claim.pressRun ∧
  Sys2Proof.Machine.Claim.pressAutoStart ∧
  Sys2Proof.Machine.Claim.pressRunDone ∧
  Sys2Proof.Machine.Claim.pressAccepts ∧
  Sys2Proof.Machine.Claim.pressSwitchRestore

/-- Full BIST and the rinse cycle: what starts, what a test leaves, what a failure does (R556, R557, R561, R563, R558, R560). -/
def Obligations.SelfTests : Prop :=
  Sys2Proof.Machine.Claim.bistStart ∧
  Sys2Proof.Machine.Claim.bistAbort ∧
  Sys2Proof.Machine.Claim.bistDone ∧
  Sys2Proof.Machine.Claim.rinseStep ∧
  Sys2Proof.Machine.Claim.rinseStepDone

/-- Life-cycle tokens and fused repairs (R555, R562, R574). -/
def Obligations.LifeCycle : Prop :=
  Sys2Proof.Machine.Claim.submit ∧
  Sys2Proof.Machine.Claim.tokenVerifyDone ∧
  Sys2Proof.Machine.Claim.fuse

/-- SLICE_PARK, STANDBY from request to exit, and functions out of service (R580, R581, R582, R579, R588, R585). -/
def Obligations.PowerStates : Prop :=
  Sys2Proof.Machine.Claim.standby ∧
  Sys2Proof.Machine.Claim.standbyExit ∧
  Sys2Proof.Machine.Claim.park ∧
  Sys2Proof.Machine.Claim.unpark ∧
  Sys2Proof.Machine.Claim.standbyEntered ∧
  Sys2Proof.Machine.Claim.peCorrectionsReloaded ∧
  Sys2Proof.Machine.Claim.standbySwitchClose ∧
  Sys2Proof.Machine.Claim.svcoffSl ∧
  Sys2Proof.Machine.Claim.svcoffScan ∧
  Sys2Proof.Machine.Claim.svcoffHb

/-- A step with a command at the front of the queue is exec of that command on the queue rest (spec/95 What each step holds). -/
def Obligations.StepRunsFront : Prop :=
  Sys2Proof.Machine.Claim.stepFront

/-- A step on an empty queue is one period of the clock, and every eighth a cycle of sequencers and site cores, the choices of log
entries 2 and 29 (R473, R414, R370, R401, R345, R41, R23). -/
def Obligations.IdleStep : Prop :=
  Sys2Proof.Machine.Claim.idleStep ∧ Sys2Proof.Machine.Claim.cycleStep ∧
  Sys2Proof.Machine.Claim.idleStopped ∧
  Sys2Proof.Machine.Claim.setsWin

/-- Every command answers a next state and leaves the queue to the step (spec/95 What each step holds). -/
def Obligations.ExecAnswers : Prop :=
  Sys2Proof.Machine.Claim.execAnswers ∧ Sys2Proof.Machine.Claim.stepQueue ∧ Sys2Proof.Machine.Claim.fetchWord

/-- The canonical forms of registers and memory hold at reset (spec/00 Scope, register access rules, spec/03 Segments and pattern
memory). -/
def Obligations.ResetInv : Prop :=
  Sys2Proof.Machine.Claim.resetInv

/-- Every step keeps the canonical forms of the register words and of pattern memory (spec/03 Segments and pattern memory, spec/00
Scope, register access rules). -/
def Obligations.StepKeepsInv : Prop :=
  Sys2Proof.Machine.Claim.stepKeepsInv

/-- Reads after writes: pattern memory byte by byte, register fields one by one (R89). -/
def Obligations.ReadAfterWrite : Prop :=
  Sys2Proof.Machine.Claim.readAfterStore ∧ Sys2Proof.Machine.Claim.readAfterWrite

/-- Accesses without power, and to registers that the initiator does not see (R17, R28). -/
def Obligations.NoOtherAccess : Prop :=
  Sys2Proof.Machine.Claim.noPower ∧ Sys2Proof.Machine.Claim.hiddenWrite

/-- What the block holds at reset (R576). -/
def Obligations.ResetState : Prop :=
  Sys2Proof.Machine.Claim.resetState
end

