-- ==== Sys2Proof/Laws/Canon.lean ====
section
/-! SUPPORT. The canonical forms of the register words and of pattern memory: what a read after a write gives, and that
every operation keeps the form. -/

namespace Sys2Proof.Machine

open Sys2Proof

/-! ## Register words -/

theorem RegFile.insert_mem {m : RegFile} {a : Nat} {v : Word} {e : Nat × Word} (h : e ∈ RegFile.insert m a v) :
    e = (a, v) ∨ e ∈ m := by
  induction m with
  | nil => simpa [RegFile.insert] using h
  | cons x m ih =>
    obtain ⟨b, w⟩ := x
    simp only [RegFile.insert] at h
    split at h
    · simpa using h
    · rcases List.mem_cons.1 h with h | h
      · exact .inr (by simp [h])
      · rcases ih h with h | h
        · exact .inl h
        · exact .inr (by simp [h])

theorem RegFile.insert_sorted {m : RegFile} {a : Nat} {v : Word} (h : m.Pairwise fun x y => x.1 < y.1)
    (ha : ∀ e ∈ m, e.1 ≠ a) : (RegFile.insert m a v).Pairwise fun x y => x.1 < y.1 := by
  induction m with
  | nil => simp [RegFile.insert]
  | cons x m ih =>
    obtain ⟨b, w⟩ := x
    have hb : b ≠ a := ha (b, w) (by simp)
    rw [List.pairwise_cons] at h
    simp only [RegFile.insert]
    split
    · refine List.pairwise_cons.2 ⟨fun e he => ?_, List.pairwise_cons.2 h⟩
      rcases List.mem_cons.1 he with rfl | he
      · exact Nat.lt_of_le_of_ne ‹_› (Ne.symm hb)
      · exact Nat.lt_trans (Nat.lt_of_le_of_ne ‹_› (Ne.symm hb)) (h.1 e he)
    · refine List.pairwise_cons.2 ⟨fun e he => ?_, ih h.2 fun e he => ha e (by simp [he])⟩
      rcases RegFile.insert_mem he with rfl | he
      · exact Nat.lt_of_not_le ‹_›
      · exact h.1 e he

theorem RegFile.filter_wf {m : RegFile} (h : RegFile.wf m) (p : Nat × Word → Bool) : RegFile.wf (m.filter p) :=
  ⟨h.1.filter p, fun e he => h.2 e (List.mem_filter.1 he).1⟩

/-- A word put keeps the canonical form. -/
theorem RegFile.put_wf {m : RegFile} (h : RegFile.wf m) (a : Nat) (v : Word) : RegFile.wf (RegFile.put m a v (resetWord a)) := by
  have hf := RegFile.filter_wf h fun e => decide (e.1 ≠ a)
  simp only [RegFile.put]
  split
  · exact hf
  · refine ⟨RegFile.insert_sorted hf.1 fun e he => by simpa using (List.mem_filter.1 he).2, fun e he => ?_⟩
    rcases RegFile.insert_mem he with rfl | he
    · assumption
    · exact hf.2 e he

theorem RegFile.get_filter_ne (m : RegFile) {a b : Nat} (h : b ≠ a) (d : Word) :
    RegFile.get (m.filter fun e => decide (e.1 ≠ a)) b d = RegFile.get m b d := by
  induction m with
  | nil => rfl
  | cons x m ih =>
    obtain ⟨c, w⟩ := x
    simp only [ne_eq, decide_not] at ih ⊢
    by_cases hc : c = a
    · have : ¬ a = b := fun e => h e.symm
      simp [RegFile.get, hc, ih, this]
    · simp [RegFile.get, hc, ih]

theorem RegFile.get_filter_self (m : RegFile) (a : Nat) (d : Word) :
    RegFile.get (m.filter fun e => decide (e.1 ≠ a)) a d = d := by
  induction m with
  | nil => rfl
  | cons x m ih =>
    obtain ⟨c, w⟩ := x
    simp only [ne_eq, decide_not] at ih ⊢
    by_cases hc : c = a <;> simp [RegFile.get, hc, ih]

theorem RegFile.get_insert_self (m : RegFile) (a : Nat) (v d : Word) (ha : ∀ e ∈ m, e.1 ≠ a) :
    RegFile.get (RegFile.insert m a v) a d = v := by
  induction m with
  | nil => simp [RegFile.insert, RegFile.get]
  | cons x m ih =>
    obtain ⟨c, w⟩ := x
    have hc : c ≠ a := ha (c, w) (by simp)
    simp only [RegFile.insert]
    split
    · simp [RegFile.get]
    · simp [RegFile.get, hc, ih fun e he => ha e (by simp [he])]

theorem RegFile.get_insert_ne (m : RegFile) {a b : Nat} (h : b ≠ a) (v d : Word) :
    RegFile.get (RegFile.insert m a v) b d = RegFile.get m b d := by
  induction m with
  | nil => simp [RegFile.insert, RegFile.get, Ne.symm h]
  | cons x m ih =>
    obtain ⟨c, w⟩ := x
    simp only [RegFile.insert]
    split
    · simp [RegFile.get, Ne.symm h]
    · simp [RegFile.get, ih]

/-- The word put is read back. -/
theorem RegFile.get_put_self (m : RegFile) (a : Nat) (v d : Word) : RegFile.get (RegFile.put m a v d) a d = v := by
  simp only [RegFile.put]
  split
  · simp only [RegFile.get_filter_self, *]
  · exact RegFile.get_insert_self _ _ _ _ fun e he => by simpa using (List.mem_filter.1 he).2

/-- Every other word is left as it was. -/
theorem RegFile.get_put_ne (m : RegFile) {a b : Nat} (h : b ≠ a) (v d d' : Word) :
    RegFile.get (RegFile.put m a v d) b d' = RegFile.get m b d' := by
  simp only [RegFile.put]
  split
  · exact RegFile.get_filter_ne m h d'
  · rw [RegFile.get_insert_ne _ h, RegFile.get_filter_ne m h]

@[simp] theorem State.reg_setReg_self (s : State) (a : Nat) (v : Word) : (s.setReg a v).reg a = v :=
  RegFile.get_put_self _ _ _ _

theorem State.reg_setReg_ne (s : State) {a b : Nat} (h : b ≠ a) (v : Word) : (s.setReg a v).reg b = s.reg b :=
  RegFile.get_put_ne _ h _ _ _

/-! ## Pattern memory -/

theorem Memory.insert_mem {m : List Host.Cell} {a : Nat} {v : Byte} {e : Host.Cell} (h : e ∈ Memory.insert m a v) :
    e = (a, v) ∨ e ∈ m := by
  induction m with
  | nil => simpa [Memory.insert] using h
  | cons x m ih =>
    obtain ⟨b, w⟩ := x
    simp only [Memory.insert] at h
    split at h
    · simpa using h
    · rcases List.mem_cons.1 h with h | h
      · exact .inr (by simp [h])
      · rcases ih h with h | h
        · exact .inl h
        · exact .inr (by simp [h])

theorem Memory.insert_sorted {m : List Host.Cell} {a : Nat} {v : Byte} (h : m.Pairwise fun x y => x.1 < y.1)
    (ha : ∀ e ∈ m, e.1 ≠ a) : (Memory.insert m a v).Pairwise fun x y => x.1 < y.1 := by
  induction m with
  | nil => simp [Memory.insert]
  | cons x m ih =>
    obtain ⟨b, w⟩ := x
    have hb : b ≠ a := ha (b, w) (by simp)
    rw [List.pairwise_cons] at h
    simp only [Memory.insert]
    split
    · refine List.pairwise_cons.2 ⟨fun e he => ?_, List.pairwise_cons.2 h⟩
      rcases List.mem_cons.1 he with rfl | he
      · exact Nat.lt_of_le_of_ne ‹_› (Ne.symm hb)
      · exact Nat.lt_trans (Nat.lt_of_le_of_ne ‹_› (Ne.symm hb)) (h.1 e he)
    · refine List.pairwise_cons.2 ⟨fun e he => ?_, ih h.2 fun e he => ha e (by simp [he])⟩
      rcases Memory.insert_mem he with rfl | he
      · exact Nat.lt_of_not_le ‹_›
      · exact h.1 e he

/-- A byte put keeps the canonical form. -/
theorem Memory.put_wf {m : List Host.Cell} (h : Memory.wf m) (a : Nat) (v : Byte) : Memory.wf (Memory.put m a v) := by
  have hf : Memory.wf (m.filter fun e => decide (e.1 ≠ a)) :=
    ⟨h.1.filter _, fun e he => h.2 e (List.mem_filter.1 he).1⟩
  simp only [Memory.put]
  split
  · exact hf
  · refine ⟨Memory.insert_sorted hf.1 fun e he => by simpa using (List.mem_filter.1 he).2, fun e he => ?_⟩
    rcases Memory.insert_mem he with rfl | he
    · assumption
    · exact hf.2 e he

/-- Bytes put keep the canonical form. -/
theorem Memory.putAll_wf {m : List Host.Cell} (h : Memory.wf m) (a : Nat) (bs : List Byte) :
    Memory.wf (Memory.putAll m a bs) := by
  induction bs generalizing m a with
  | nil => exact h
  | cons b bs ih => exact ih (Memory.put_wf h a b) _

theorem Memory.get_filter (m : List Host.Cell) (a b : Nat) :
    Memory.get (m.filter fun e => decide (e.1 ≠ a)) b = if b = a then memBlank else Memory.get m b := by
  induction m with
  | nil => simp [Memory.get]
  | cons x m ih =>
    obtain ⟨c, w⟩ := x
    simp only [ne_eq, decide_not] at ih ⊢
    by_cases hc : c = a
    · by_cases hb : b = a
      · simp [hc, hb] at ih ⊢; exact ih
      · have : ¬ a = b := fun h => hb h.symm
        simp [Memory.get, hc, ih, hb, this]
    · by_cases hb : b = a
      · subst hb
        simpa [Memory.get, hc] using ih
      · simp [Memory.get, hc, ih, hb]

theorem Memory.get_insert (m : List Host.Cell) (a b : Nat) (v : Byte) (ha : ∀ e ∈ m, e.1 ≠ a) :
    Memory.get (Memory.insert m a v) b = if b = a then v else Memory.get m b := by
  induction m with
  | nil => simp [Memory.insert, Memory.get, eq_comm]
  | cons x m ih =>
    obtain ⟨c, w⟩ := x
    have hc : c ≠ a := ha (c, w) (by simp)
    have ih := ih fun e he => ha e (by simp [he])
    simp only [Memory.insert]
    split
    · by_cases h : b = a
      · simp [Memory.get, h]
      · simp [Memory.get, h, Ne.symm h]
    · by_cases h : b = a
      · subst h
        simpa [Memory.get, hc] using ih
      · simp [Memory.get, ih, h]

/-- The byte written is read back, and every other byte is left as it was. -/
theorem Memory.get_put (m : List Host.Cell) (a b : Nat) (v : Byte) :
    Memory.get (Memory.put m a v) b = if b = a then v else Memory.get m b := by
  simp only [Memory.put]
  split
  · rw [Memory.get_filter]; by_cases h : b = a <;> simp [*]
  · rw [Memory.get_insert _ _ _ _ fun e he => by simpa using (List.mem_filter.1 he).2, Memory.get_filter]
    by_cases h : b = a <;> simp [*]

/-- A store changes the bytes stored and no other (spec/03 R89). -/
theorem Memory.get_putAll (m : List Host.Cell) (a b : Nat) (bs : List Byte) :
    Memory.get (Memory.putAll m a bs) b =
      if a ≤ b ∧ b < a + bs.length then bs.getD (b - a) memBlank else Memory.get m b := by
  induction bs generalizing m a with
  | nil => simp [Memory.putAll] <;> omega
  | cons x bs ih =>
    rw [Memory.putAll, ih, Memory.get_put]
    by_cases h : b = a
    · subst h; simp <;> omega
    · by_cases h1 : a ≤ b ∧ b < a + (x :: bs).length
      · have h2 : a + 1 ≤ b ∧ b < a + 1 + bs.length := by simp at h1; omega
        have h3 : b - a = (b - (a + 1)) + 1 := by omega
        rw [if_pos h1, if_pos h2, h3]; simp
      · have h2 : ¬ (a + 1 ≤ b ∧ b < a + 1 + bs.length) := by simp at h1; omega
        rw [if_neg h1, if_neg h2, if_neg h]

/-- A byte is undefined after a store where it was and the store does not reach it (spec/17 R589). -/
theorem Drc.bareAt_wrote (d : Drc) (a n b : Nat) : (d.wrote a n).bareAt b = (d.bareAt b && !decide (a ≤ b ∧ b < a + n)) := by
  have h : (d.wrote a n).written.contains b = (d.written.contains b || (decide (a ≤ b ∧ b < a + n) && d.bareAt b)) := by
    rw [Bool.eq_iff_iff]
    simp only [Drc.wrote, List.contains_iff_mem, List.mem_append, List.mem_filter, List.mem_map, List.mem_range, Bool.or_eq_true,
      Bool.and_eq_true, decide_eq_true_eq]
    constructor
    · rintro (h | ⟨⟨i, hi, rfl⟩, hb⟩)
      · exact .inl h
      · exact .inr ⟨by omega, hb⟩
    · rintro (h | ⟨h, hb⟩)
      · exact .inl h
      · exact .inr ⟨⟨b - a, by omega, by omega⟩, hb⟩
  have e : (d.wrote a n).bareAt b = (d.bare[stackOf b] && !(d.wrote a n).written.contains b) := rfl
  rw [e, h, Drc.bareAt]
  cases d.bare[stackOf b] <;> cases d.written.contains b <;> cases decide (a ≤ b ∧ b < a + n) <;> rfl

/-- A byte stored is read back, and every other byte of pattern memory, an undefined one too, reads as before. -/
@[simp] theorem State.byte_store (s : State) (a b : Nat) (bs : List Byte) :
    (s.store a bs).byte b = if a ≤ b ∧ b < a + bs.length then bs.getD (b - a) memBlank else s.byte b := by
  have h : (s.store a bs).byte b = if (s.drc.wrote a bs.length).bareAt b then Config.bareByte s.drc.bareCount[stackOf b] b
      else Memory.get (Memory.putAll s.mem a bs) b := rfl
  rw [h, Drc.bareAt_wrote, Memory.get_putAll, State.byte]
  by_cases x : a ≤ b ∧ b < a + bs.length <;> simp [x]

end Sys2Proof.Machine
end

