-- ==== Sys2Proof/Laws/Regs.lean ====
section
/-! SUPPORT. Register fields: what a read gives after a write of the same field, of another field of the same word, and of
another word. -/

namespace Sys2Proof.Machine

open Sys2Proof

/-! ## Bits of a number -/

theorem bitsOf_lt (v lo w : Nat) : bitsOf v lo w < 2 ^ w := Nat.mod_lt _ (Nat.two_pow_pos w)

theorem bitsOf_zero (lo w : Nat) : bitsOf 0 lo w = 0 := by simp [bitsOf]

theorem testBit_bitsOf (v lo w i : Nat) : (bitsOf v lo w).testBit i = (decide (i < w) && v.testBit (lo + i)) := by
  rw [bitsOf, Nat.testBit_mod_two_pow, Nat.testBit_div_two_pow, Nat.add_comm]

theorem testBit_withBits (v lo w x i : Nat) : (withBits v lo w x).testBit i =
    if i < lo then v.testBit i else if i < lo + w then x.testBit (i - lo) else v.testBit i := by
  have h1 : withBits v lo w x = 2 ^ (lo + w) * (v / 2 ^ (lo + w)) + (2 ^ lo * (x % 2 ^ w) + v % 2 ^ lo) := by
    rw [withBits, Nat.mul_comm (x % 2 ^ w), Nat.mul_comm (v / 2 ^ (lo + w))]; omega
  have h2 : 2 ^ lo * (x % 2 ^ w) + v % 2 ^ lo < 2 ^ (lo + w) := by
    have a : v % 2 ^ lo < 2 ^ lo := Nat.mod_lt _ (Nat.two_pow_pos _)
    have b : x % 2 ^ w + 1 ≤ 2 ^ w := Nat.mod_lt _ (Nat.two_pow_pos _)
    calc _ < 2 ^ lo * (x % 2 ^ w) + 2 ^ lo := by omega
      _ = 2 ^ lo * (x % 2 ^ w + 1) := by rw [Nat.mul_add, Nat.mul_one]
      _ ≤ 2 ^ lo * 2 ^ w := Nat.mul_le_mul_left _ b
      _ = 2 ^ (lo + w) := (Nat.pow_add 2 lo w).symm
  rw [h1, Nat.testBit_two_pow_mul_add _ h2, Nat.testBit_two_pow_mul_add _ (Nat.mod_lt _ (Nat.two_pow_pos _)),
    Nat.testBit_div_two_pow, Nat.testBit_mod_two_pow, Nat.testBit_mod_two_pow]
  by_cases a : i < lo
  · simp [a, show i < lo + w by omega]
  · by_cases b : i < lo + w
    · simp [a, b, show i - lo < w by omega]
    · simp [a, b, show i - (lo + w) + (lo + w) = i by omega]

/-- The bits written are read back. -/
theorem bitsOf_withBits_self (v lo w x : Nat) : bitsOf (withBits v lo w x) lo w = x % 2 ^ w := by
  refine Nat.eq_of_testBit_eq fun i => ?_
  rw [testBit_bitsOf, testBit_withBits, Nat.testBit_mod_two_pow]
  by_cases h : i < w
  · simp [h, show ¬ lo + i < lo by omega]
  · simp [h]

/-- Bits apart from those written are as before. -/
theorem bitsOf_withBits_apart (v lo w x lo' w' : Nat) (h : lo + w ≤ lo' ∨ lo' + w' ≤ lo) :
    bitsOf (withBits v lo w x) lo' w' = bitsOf v lo' w' := by
  refine Nat.eq_of_testBit_eq fun i => ?_
  rw [testBit_bitsOf, testBit_bitsOf, testBit_withBits]
  by_cases hi : i < w'
  · rcases h with h | h
    · simp [hi, show ¬ lo' + i < lo by omega, show ¬ lo' + i < lo + w by omega]
    · simp [hi, show lo' + i < lo by omega]
  · simp [hi]

theorem withBits_lt {v lo w x k : Nat} (hv : v < 2 ^ k) (h : lo + w ≤ k) : withBits v lo w x < 2 ^ k := by
  refine Nat.lt_pow_two_of_testBit _ fun i hi => ?_
  rw [testBit_withBits, if_neg (by omega), if_neg (by omega)]
  exact Nat.testBit_lt_two_pow (Nat.lt_of_lt_of_le hv (Nat.pow_le_pow_right (by omega) hi))

theorem bitsOf_low {v a lo w : Nat} (h : lo + w ≤ 32) : bitsOf (v + a * 2 ^ 32) lo w = bitsOf v lo w := by
  refine Nat.eq_of_testBit_eq fun i => ?_
  rw [testBit_bitsOf, testBit_bitsOf]
  by_cases hi : i < w
  · have : (v + a * 2 ^ 32).testBit (lo + i) = v.testBit (lo + i) := by
      rw [← Nat.mod_add_div v (2 ^ 32), Nat.add_assoc, ← Nat.mul_comm (2 ^ 32) a, ← Nat.mul_add,
        Nat.add_comm (v % 2 ^ 32), Nat.testBit_two_pow_mul_add _ (Nat.mod_lt _ (by decide)),
        Nat.add_comm (v % 2 ^ 32), Nat.testBit_two_pow_mul_add _ (Nat.mod_lt _ (by decide))]
      simp [show lo + i < 32 by omega]
    simp only [this]
  · simp [hi]

theorem bitsOf_high {v a lo w : Nat} (hv : v < 2 ^ 32) (h : 32 ≤ lo) :
    bitsOf (v + a * 2 ^ 32) lo w = bitsOf a (lo - 32) w := by
  refine Nat.eq_of_testBit_eq fun i => ?_
  rw [testBit_bitsOf, testBit_bitsOf, Nat.add_comm v, Nat.mul_comm a, Nat.testBit_two_pow_mul_add _ hv,
    if_neg (by omega), show lo + i - 32 = lo - 32 + i by omega]

/-! ## Fields -/

/-- A word that holds no part of the field is left as it was. -/
theorem State.reg_wr (s : State) (f : Fld) (v : Nat) {a : Nat} (h : a ∉ f.words) : (s.wr f v).reg a = s.reg a := by
  unfold Fld.words at h
  unfold State.wr
  split at h
  · rw [if_pos ‹_›, State.reg_setReg_ne _ (by simpa using h)]
  · split at h
    · rw [if_neg ‹_›, if_pos ‹_›, State.reg_setReg_ne _ (by simpa using h)]
    · rw [if_neg ‹_›, if_neg ‹_›]
      simp at h
      rw [State.reg_setReg_ne _ h.2, State.reg_setReg_ne _ h.1]

/-- A field is read from its words alone. -/
theorem State.rd_congr {s t : State} {f : Fld} (h : ∀ a ∈ f.words, s.reg a = t.reg a) : s.rd f = t.rd f := by
  unfold Fld.words at h
  unfold State.rd
  split
  · rw [if_pos ‹_›] at h; rw [h _ (by simp)]
  · rw [if_neg ‹_›] at h
    split
    · rw [if_pos ‹_›] at h; rw [h _ (by simp)]
    · rw [if_neg ‹_›] at h; rw [h f.addr (by simp), h (f.addr + 4) (by simp)]

/-- A field of other words reads as before. -/
theorem State.rd_wr_ne (s : State) (f g : Fld) (v : Nat) (h : ∀ a ∈ g.words, a ∉ f.words) :
    (s.wr f v).rd g = s.rd g :=
  State.rd_congr fun a ha => State.reg_wr s f v (h a ha)

/-- The 64 bits from a register's address upward. -/
def State.reg64 (s : State) (a : Nat) : Nat := (s.reg a).toNat + (s.reg (a + 4)).toNat * 2 ^ 32

theorem State.reg64_lt (s : State) (a : Nat) : s.reg64 a < 2 ^ 64 := by
  have h1 := (s.reg a).isLt
  have h2 := (s.reg (a + 4)).isLt
  unfold State.reg64; omega

theorem State.rd_eq (s : State) (f : Fld) : s.rd f = bitsOf (s.reg64 f.addr) f.lo f.w := by
  unfold State.rd State.reg64
  split
  · rw [bitsOf_high (s.reg f.addr).isLt ‹_›]
  · split
    · rw [bitsOf_low ‹_›]
    · rfl

theorem State.rd_lt (s : State) (f : Fld) : s.rd f < 2 ^ f.w := by rw [State.rd_eq]; exact bitsOf_lt _ _ _

theorem State.reg64_wr (s : State) (f : Fld) (v : Nat) (h : f.lo + f.w ≤ 64) :
    (s.wr f v).reg64 f.addr = withBits (s.reg64 f.addr) f.lo f.w v := by
  have h1 := (s.reg f.addr).isLt
  have h2 := (s.reg (f.addr + 4)).isLt
  refine Nat.eq_of_testBit_eq fun i => ?_
  have tb : ∀ (a b : Nat), a < 2 ^ 32 → (a + b * 2 ^ 32).testBit i = if i < 32 then a.testBit i else b.testBit (i - 32) := by
    intro a b ha
    rw [Nat.add_comm, Nat.mul_comm, Nat.testBit_two_pow_mul_add _ ha]
  unfold State.reg64 State.wr
  split
  · have h3 := withBits_lt (x := v) h2 (show f.lo - 32 + f.w ≤ 32 by omega)
    rw [State.reg_setReg_self, State.reg_setReg_ne _ (by omega), testBit_withBits, tb _ _ h1, tb _ _ h1,
      BitVec.toNat_ofNat, Nat.mod_eq_of_lt h3, testBit_withBits]
    by_cases hi : i < 32
    · simp [hi, show i < f.lo by omega]
    · by_cases ha : i < f.lo
      · simp [hi, ha, show i - 32 < f.lo - 32 by omega]
      · by_cases hb : i < f.lo + f.w
        · simp [hi, ha, hb, show ¬ i - 32 < f.lo - 32 by omega, show i - 32 < f.lo - 32 + f.w by omega,
            show i - 32 - (f.lo - 32) = i - f.lo by omega]
        · simp [hi, ha, hb, show ¬ i - 32 < f.lo - 32 by omega, show ¬ i - 32 < f.lo - 32 + f.w by omega]
  · split
    · have h3 := withBits_lt (x := v) h1 (show f.lo + f.w ≤ 32 by omega)
      rw [State.reg_setReg_self, State.reg_setReg_ne _ (by omega), testBit_withBits, BitVec.toNat_ofNat,
        Nat.mod_eq_of_lt h3, tb _ _ h3, tb _ _ h1, testBit_withBits]
      by_cases hi : i < 32
      · simp [hi]
      · simp [hi, show ¬ i < f.lo by omega, show ¬ i < f.lo + f.w by omega]
    · have h0 := State.reg64_lt s f.addr
      have h3 := withBits_lt (x := v) h0 h
      unfold State.reg64 at h3
      dsimp only
      rw [State.reg_setReg_self, State.reg_setReg_ne _ (by omega), State.reg_setReg_self, BitVec.toNat_ofNat,
        BitVec.toNat_ofNat]
      generalize withBits ((s.reg f.addr).toNat + (s.reg (f.addr + 4)).toNat * 2 ^ 32) f.lo f.w v = z at *
      congr 1; omega

/-- The field written is read back. -/
theorem State.rd_wr_self (s : State) (f : Fld) (v : Nat) (h : f.lo + f.w ≤ 64) : (s.wr f v).rd f = v % 2 ^ f.w := by
  rw [State.rd_eq, State.reg64_wr s f v h, bitsOf_withBits_self]

/-- A field apart from the one written, in the same register, reads as before. -/
theorem State.rd_wr_apart (s : State) (f g : Fld) (v : Nat) (e : g.addr = f.addr) (h : f.lo + f.w ≤ 64)
    (k : f.lo + f.w ≤ g.lo ∨ g.lo + g.w ≤ f.lo) : (s.wr f v).rd g = s.rd g := by
  rw [State.rd_eq, State.rd_eq, e, State.reg64_wr s f v h, bitsOf_withBits_apart _ _ _ _ _ _ k]

end Sys2Proof.Machine
end

