-- ==== Sys2Proof/Laws/State.lean ====
section
/-! SUPPORT. What each update of State leaves as it was, field by field, and what it gives the field that it changes. -/

namespace Sys2Proof.Machine

open Sys2Proof

variable (s : State)

/-! ### setReg -/

@[simp] theorem State.pending_setReg (a : Nat) (v : Word) : (s.setReg a v).pending = s.pending := rfl
@[simp] theorem State.mem_setReg (a : Nat) (v : Word) : (s.setReg a v).mem = s.mem := rfl
@[simp] theorem State.ready_setReg (a : Nat) (v : Word) : (s.setReg a v).ready = s.ready := rfl
@[simp] theorem State.wasReady_setReg (a : Nat) (v : Word) : (s.setReg a v).wasReady = s.wasReady := rfl
@[simp] theorem State.sl_setReg (a : Nat) (v : Word) : (s.setReg a v).sl = s.sl := rfl
@[simp] theorem State.scan_setReg (a : Nat) (v : Word) : (s.setReg a v).scan = s.scan := rfl
@[simp] theorem State.drc_setReg (a : Nat) (v : Word) : (s.setReg a v).drc = s.drc := rfl
@[simp] theorem State.cores_setReg (a : Nat) (v : Word) : (s.setReg a v).cores = s.cores := rfl
@[simp] theorem State.disp_setReg (a : Nat) (v : Word) : (s.setReg a v).disp = s.disp := rfl
@[simp] theorem State.port_setReg (a : Nat) (v : Word) : (s.setReg a v).port = s.port := rfl
@[simp] theorem State.enum_setReg (a : Nat) (v : Word) : (s.setReg a v).enum = s.enum := rfl
@[simp] theorem State.time_setReg (a : Nat) (v : Word) : (s.setReg a v).time = s.time := rfl
@[simp] theorem State.region_setReg (a : Nat) (v : Word) : (s.setReg a v).region = s.region := rfl
@[simp] theorem State.dma_setReg (a : Nat) (v : Word) : (s.setReg a v).dma = s.dma := rfl
@[simp] theorem State.dmaNext_setReg (a : Nat) (v : Word) : (s.setReg a v).dmaNext = s.dmaNext := rfl
@[simp] theorem State.dmaStalled_setReg (a : Nat) (v : Word) : (s.setReg a v).dmaStalled = s.dmaStalled := rfl
@[simp] theorem State.mbox_setReg (a : Nat) (v : Word) : (s.setReg a v).mbox = s.mbox := rfl
@[simp] theorem State.remote_setReg (a : Nat) (v : Word) : (s.setReg a v).remote = s.remote := rfl
@[simp] theorem State.remoteTag_setReg (a : Nat) (v : Word) : (s.setReg a v).remoteTag = s.remoteTag := rfl
@[simp] theorem State.slots_setReg (a : Nat) (v : Word) : (s.setReg a v).slots = s.slots := rfl
@[simp] theorem State.ethLink_setReg (a : Nat) (v : Word) : (s.setReg a v).ethLink = s.ethLink := rfl
@[simp] theorem State.patch_setReg (a : Nat) (v : Word) : (s.setReg a v).patch = s.patch := rfl
@[simp] theorem State.patchLoading_setReg (a : Nat) (v : Word) : (s.setReg a v).patchLoading = s.patchLoading := rfl
@[simp] theorem State.hamper_setReg (a : Nat) (v : Word) : (s.setReg a v).hamper = s.hamper := rfl
@[simp] theorem State.press_setReg (a : Nat) (v : Word) : (s.setReg a v).press = s.press := rfl
@[simp] theorem State.bist_setReg (a : Nat) (v : Word) : (s.setReg a v).bist = s.bist := rfl
@[simp] theorem State.power_setReg (a : Nat) (v : Word) : (s.setReg a v).power = s.power := rfl
@[simp] theorem State.shadow_setReg (a : Nat) (v : Word) : (s.setReg a v).shadow = s.shadow := rfl
@[simp] theorem State.sumrx_setReg (a : Nat) (v : Word) : (s.setReg a v).sumrx = s.sumrx := rfl
@[simp] theorem State.busData_setReg (a : Nat) (v : Word) : (s.setReg a v).busData = s.busData := rfl
@[simp] theorem State.caps_setReg (a : Nat) (v : Word) : (s.setReg a v).caps = s.caps := rfl
@[simp] theorem State.busErr_setReg (a : Nat) (v : Word) : (s.setReg a v).busErr = s.busErr := rfl
@[simp] theorem State.ethHeld_setReg (a : Nat) (v : Word) : (s.setReg a v).ethHeld = s.ethHeld := rfl
@[simp] theorem State.free_setReg (a : Nat) (v : Word) : (s.setReg a v).free = s.free := rfl
@[simp] theorem State.clock_setReg (a : Nat) (v : Word) : (s.setReg a v).clock = s.clock := rfl
@[simp] theorem State.out_setReg (a : Nat) (v : Word) : (s.setReg a v).out = s.out := rfl
@[simp] theorem State.byte_setReg (a : Nat) (v : Word) (x : Nat) : (s.setReg a v).byte x = s.byte x := rfl
@[simp] theorem State.isReady_setReg (a : Nat) (v : Word) (x : ReadyBit) : (s.setReg a v).isReady x = s.isReady x := rfl

/-! ### resetRegs -/

@[simp] theorem State.pending_resetRegs (p : Nat → Bool) : (s.resetRegs p).pending = s.pending := rfl
@[simp] theorem State.mem_resetRegs (p : Nat → Bool) : (s.resetRegs p).mem = s.mem := rfl
@[simp] theorem State.ready_resetRegs (p : Nat → Bool) : (s.resetRegs p).ready = s.ready := rfl
@[simp] theorem State.wasReady_resetRegs (p : Nat → Bool) : (s.resetRegs p).wasReady = s.wasReady := rfl
@[simp] theorem State.sl_resetRegs (p : Nat → Bool) : (s.resetRegs p).sl = s.sl := rfl
@[simp] theorem State.scan_resetRegs (p : Nat → Bool) : (s.resetRegs p).scan = s.scan := rfl
@[simp] theorem State.drc_resetRegs (p : Nat → Bool) : (s.resetRegs p).drc = s.drc := rfl
@[simp] theorem State.cores_resetRegs (p : Nat → Bool) : (s.resetRegs p).cores = s.cores := rfl
@[simp] theorem State.disp_resetRegs (p : Nat → Bool) : (s.resetRegs p).disp = s.disp := rfl
@[simp] theorem State.port_resetRegs (p : Nat → Bool) : (s.resetRegs p).port = s.port := rfl
@[simp] theorem State.enum_resetRegs (p : Nat → Bool) : (s.resetRegs p).enum = s.enum := rfl
@[simp] theorem State.time_resetRegs (p : Nat → Bool) : (s.resetRegs p).time = s.time := rfl
@[simp] theorem State.region_resetRegs (p : Nat → Bool) : (s.resetRegs p).region = s.region := rfl
@[simp] theorem State.dma_resetRegs (p : Nat → Bool) : (s.resetRegs p).dma = s.dma := rfl
@[simp] theorem State.dmaNext_resetRegs (p : Nat → Bool) : (s.resetRegs p).dmaNext = s.dmaNext := rfl
@[simp] theorem State.dmaStalled_resetRegs (p : Nat → Bool) : (s.resetRegs p).dmaStalled = s.dmaStalled := rfl
@[simp] theorem State.mbox_resetRegs (p : Nat → Bool) : (s.resetRegs p).mbox = s.mbox := rfl
@[simp] theorem State.remote_resetRegs (p : Nat → Bool) : (s.resetRegs p).remote = s.remote := rfl
@[simp] theorem State.remoteTag_resetRegs (p : Nat → Bool) : (s.resetRegs p).remoteTag = s.remoteTag := rfl
@[simp] theorem State.slots_resetRegs (p : Nat → Bool) : (s.resetRegs p).slots = s.slots := rfl
@[simp] theorem State.ethLink_resetRegs (p : Nat → Bool) : (s.resetRegs p).ethLink = s.ethLink := rfl
@[simp] theorem State.patch_resetRegs (p : Nat → Bool) : (s.resetRegs p).patch = s.patch := rfl
@[simp] theorem State.patchLoading_resetRegs (p : Nat → Bool) : (s.resetRegs p).patchLoading = s.patchLoading := rfl
@[simp] theorem State.hamper_resetRegs (p : Nat → Bool) : (s.resetRegs p).hamper = s.hamper := rfl
@[simp] theorem State.press_resetRegs (p : Nat → Bool) : (s.resetRegs p).press = s.press := rfl
@[simp] theorem State.bist_resetRegs (p : Nat → Bool) : (s.resetRegs p).bist = s.bist := rfl
@[simp] theorem State.power_resetRegs (p : Nat → Bool) : (s.resetRegs p).power = s.power := rfl
@[simp] theorem State.shadow_resetRegs (p : Nat → Bool) : (s.resetRegs p).shadow = s.shadow := rfl
@[simp] theorem State.sumrx_resetRegs (p : Nat → Bool) : (s.resetRegs p).sumrx = s.sumrx := rfl
@[simp] theorem State.busData_resetRegs (p : Nat → Bool) : (s.resetRegs p).busData = s.busData := rfl
@[simp] theorem State.caps_resetRegs (p : Nat → Bool) : (s.resetRegs p).caps = s.caps := rfl
@[simp] theorem State.busErr_resetRegs (p : Nat → Bool) : (s.resetRegs p).busErr = s.busErr := rfl
@[simp] theorem State.ethHeld_resetRegs (p : Nat → Bool) : (s.resetRegs p).ethHeld = s.ethHeld := rfl
@[simp] theorem State.free_resetRegs (p : Nat → Bool) : (s.resetRegs p).free = s.free := rfl
@[simp] theorem State.clock_resetRegs (p : Nat → Bool) : (s.resetRegs p).clock = s.clock := rfl
@[simp] theorem State.out_resetRegs (p : Nat → Bool) : (s.resetRegs p).out = s.out := rfl
@[simp] theorem State.byte_resetRegs (p : Nat → Bool) (x : Nat) : (s.resetRegs p).byte x = s.byte x := rfl
@[simp] theorem State.isReady_resetRegs (p : Nat → Bool) (x : ReadyBit) : (s.resetRegs p).isReady x = s.isReady x := rfl

/-! ### mapRegs -/

@[simp] theorem State.pending_mapRegs (p : Nat → Bool) (f : Word → Word) : (s.mapRegs p f).pending = s.pending := rfl
@[simp] theorem State.mem_mapRegs (p : Nat → Bool) (f : Word → Word) : (s.mapRegs p f).mem = s.mem := rfl
@[simp] theorem State.ready_mapRegs (p : Nat → Bool) (f : Word → Word) : (s.mapRegs p f).ready = s.ready := rfl
@[simp] theorem State.wasReady_mapRegs (p : Nat → Bool) (f : Word → Word) : (s.mapRegs p f).wasReady = s.wasReady := rfl
@[simp] theorem State.sl_mapRegs (p : Nat → Bool) (f : Word → Word) : (s.mapRegs p f).sl = s.sl := rfl
@[simp] theorem State.scan_mapRegs (p : Nat → Bool) (f : Word → Word) : (s.mapRegs p f).scan = s.scan := rfl
@[simp] theorem State.drc_mapRegs (p : Nat → Bool) (f : Word → Word) : (s.mapRegs p f).drc = s.drc := rfl
@[simp] theorem State.cores_mapRegs (p : Nat → Bool) (f : Word → Word) : (s.mapRegs p f).cores = s.cores := rfl
@[simp] theorem State.disp_mapRegs (p : Nat → Bool) (f : Word → Word) : (s.mapRegs p f).disp = s.disp := rfl
@[simp] theorem State.port_mapRegs (p : Nat → Bool) (f : Word → Word) : (s.mapRegs p f).port = s.port := rfl
@[simp] theorem State.enum_mapRegs (p : Nat → Bool) (f : Word → Word) : (s.mapRegs p f).enum = s.enum := rfl
@[simp] theorem State.time_mapRegs (p : Nat → Bool) (f : Word → Word) : (s.mapRegs p f).time = s.time := rfl
@[simp] theorem State.region_mapRegs (p : Nat → Bool) (f : Word → Word) : (s.mapRegs p f).region = s.region := rfl
@[simp] theorem State.dma_mapRegs (p : Nat → Bool) (f : Word → Word) : (s.mapRegs p f).dma = s.dma := rfl
@[simp] theorem State.dmaNext_mapRegs (p : Nat → Bool) (f : Word → Word) : (s.mapRegs p f).dmaNext = s.dmaNext := rfl
@[simp] theorem State.dmaStalled_mapRegs (p : Nat → Bool) (f : Word → Word) : (s.mapRegs p f).dmaStalled = s.dmaStalled := rfl
@[simp] theorem State.mbox_mapRegs (p : Nat → Bool) (f : Word → Word) : (s.mapRegs p f).mbox = s.mbox := rfl
@[simp] theorem State.remote_mapRegs (p : Nat → Bool) (f : Word → Word) : (s.mapRegs p f).remote = s.remote := rfl
@[simp] theorem State.remoteTag_mapRegs (p : Nat → Bool) (f : Word → Word) : (s.mapRegs p f).remoteTag = s.remoteTag := rfl
@[simp] theorem State.slots_mapRegs (p : Nat → Bool) (f : Word → Word) : (s.mapRegs p f).slots = s.slots := rfl
@[simp] theorem State.ethLink_mapRegs (p : Nat → Bool) (f : Word → Word) : (s.mapRegs p f).ethLink = s.ethLink := rfl
@[simp] theorem State.patch_mapRegs (p : Nat → Bool) (f : Word → Word) : (s.mapRegs p f).patch = s.patch := rfl
@[simp] theorem State.patchLoading_mapRegs (p : Nat → Bool) (f : Word → Word) : (s.mapRegs p f).patchLoading = s.patchLoading := rfl
@[simp] theorem State.hamper_mapRegs (p : Nat → Bool) (f : Word → Word) : (s.mapRegs p f).hamper = s.hamper := rfl
@[simp] theorem State.press_mapRegs (p : Nat → Bool) (f : Word → Word) : (s.mapRegs p f).press = s.press := rfl
@[simp] theorem State.bist_mapRegs (p : Nat → Bool) (f : Word → Word) : (s.mapRegs p f).bist = s.bist := rfl
@[simp] theorem State.power_mapRegs (p : Nat → Bool) (f : Word → Word) : (s.mapRegs p f).power = s.power := rfl
@[simp] theorem State.shadow_mapRegs (p : Nat → Bool) (f : Word → Word) : (s.mapRegs p f).shadow = s.shadow := rfl
@[simp] theorem State.sumrx_mapRegs (p : Nat → Bool) (f : Word → Word) : (s.mapRegs p f).sumrx = s.sumrx := rfl
@[simp] theorem State.busData_mapRegs (p : Nat → Bool) (f : Word → Word) : (s.mapRegs p f).busData = s.busData := rfl
@[simp] theorem State.caps_mapRegs (p : Nat → Bool) (f : Word → Word) : (s.mapRegs p f).caps = s.caps := rfl
@[simp] theorem State.busErr_mapRegs (p : Nat → Bool) (f : Word → Word) : (s.mapRegs p f).busErr = s.busErr := rfl
@[simp] theorem State.ethHeld_mapRegs (p : Nat → Bool) (f : Word → Word) : (s.mapRegs p f).ethHeld = s.ethHeld := rfl
@[simp] theorem State.free_mapRegs (p : Nat → Bool) (f : Word → Word) : (s.mapRegs p f).free = s.free := rfl
@[simp] theorem State.clock_mapRegs (p : Nat → Bool) (f : Word → Word) : (s.mapRegs p f).clock = s.clock := rfl
@[simp] theorem State.out_mapRegs (p : Nat → Bool) (f : Word → Word) : (s.mapRegs p f).out = s.out := rfl
@[simp] theorem State.byte_mapRegs (p : Nat → Bool) (f : Word → Word) (x : Nat) : (s.mapRegs p f).byte x = s.byte x := rfl
@[simp] theorem State.isReady_mapRegs (p : Nat → Bool) (f : Word → Word) (x : ReadyBit) : (s.mapRegs p f).isReady x = s.isReady x := rfl

/-! ### store -/

@[simp] theorem State.pending_store (a : Nat) (l : List Byte) : (s.store a l).pending = s.pending := rfl
@[simp] theorem State.regs_store (a : Nat) (l : List Byte) : (s.store a l).regs = s.regs := rfl
@[simp] theorem State.ready_store (a : Nat) (l : List Byte) : (s.store a l).ready = s.ready := rfl
@[simp] theorem State.wasReady_store (a : Nat) (l : List Byte) : (s.store a l).wasReady = s.wasReady := rfl
@[simp] theorem State.sl_store (a : Nat) (l : List Byte) : (s.store a l).sl = s.sl := rfl
@[simp] theorem State.scan_store (a : Nat) (l : List Byte) : (s.store a l).scan = s.scan := rfl
@[simp] theorem State.drc_store (a : Nat) (l : List Byte) : (s.store a l).drc = s.drc.wrote a l.length := rfl
@[simp] theorem State.cores_store (a : Nat) (l : List Byte) : (s.store a l).cores = s.cores := rfl
@[simp] theorem State.disp_store (a : Nat) (l : List Byte) : (s.store a l).disp = s.disp := rfl
@[simp] theorem State.port_store (a : Nat) (l : List Byte) : (s.store a l).port = s.port := rfl
@[simp] theorem State.enum_store (a : Nat) (l : List Byte) : (s.store a l).enum = s.enum := rfl
@[simp] theorem State.time_store (a : Nat) (l : List Byte) : (s.store a l).time = s.time := rfl
@[simp] theorem State.region_store (a : Nat) (l : List Byte) : (s.store a l).region = s.region := rfl
@[simp] theorem State.dma_store (a : Nat) (l : List Byte) : (s.store a l).dma = s.dma := rfl
@[simp] theorem State.dmaNext_store (a : Nat) (l : List Byte) : (s.store a l).dmaNext = s.dmaNext := rfl
@[simp] theorem State.dmaStalled_store (a : Nat) (l : List Byte) : (s.store a l).dmaStalled = s.dmaStalled := rfl
@[simp] theorem State.mbox_store (a : Nat) (l : List Byte) : (s.store a l).mbox = s.mbox := rfl
@[simp] theorem State.remote_store (a : Nat) (l : List Byte) : (s.store a l).remote = s.remote := rfl
@[simp] theorem State.remoteTag_store (a : Nat) (l : List Byte) : (s.store a l).remoteTag = s.remoteTag := rfl
@[simp] theorem State.slots_store (a : Nat) (l : List Byte) : (s.store a l).slots = s.slots := rfl
@[simp] theorem State.ethLink_store (a : Nat) (l : List Byte) : (s.store a l).ethLink = s.ethLink := rfl
@[simp] theorem State.patch_store (a : Nat) (l : List Byte) : (s.store a l).patch = s.patch := rfl
@[simp] theorem State.patchLoading_store (a : Nat) (l : List Byte) : (s.store a l).patchLoading = s.patchLoading := rfl
@[simp] theorem State.hamper_store (a : Nat) (l : List Byte) : (s.store a l).hamper = s.hamper := rfl
@[simp] theorem State.press_store (a : Nat) (l : List Byte) : (s.store a l).press = s.press := rfl
@[simp] theorem State.bist_store (a : Nat) (l : List Byte) : (s.store a l).bist = s.bist := rfl
@[simp] theorem State.power_store (a : Nat) (l : List Byte) : (s.store a l).power = s.power := rfl
@[simp] theorem State.shadow_store (a : Nat) (l : List Byte) : (s.store a l).shadow = s.shadow := rfl
@[simp] theorem State.sumrx_store (a : Nat) (l : List Byte) : (s.store a l).sumrx = s.sumrx := rfl
@[simp] theorem State.busData_store (a : Nat) (l : List Byte) : (s.store a l).busData = s.busData := rfl
@[simp] theorem State.caps_store (a : Nat) (l : List Byte) : (s.store a l).caps = s.caps := rfl
@[simp] theorem State.busErr_store (a : Nat) (l : List Byte) : (s.store a l).busErr = s.busErr := rfl
@[simp] theorem State.ethHeld_store (a : Nat) (l : List Byte) : (s.store a l).ethHeld = s.ethHeld := rfl
@[simp] theorem State.free_store (a : Nat) (l : List Byte) : (s.store a l).free = s.free := rfl
@[simp] theorem State.clock_store (a : Nat) (l : List Byte) : (s.store a l).clock = s.clock := rfl
@[simp] theorem State.out_store (a : Nat) (l : List Byte) : (s.store a l).out = s.out := rfl
@[simp] theorem State.reg_store (a : Nat) (l : List Byte) (x : Nat) : (s.store a l).reg x = s.reg x := rfl
@[simp] theorem State.rd_store (a : Nat) (l : List Byte) (x : Fld) : (s.store a l).rd x = s.rd x := rfl
@[simp] theorem State.on_store (a : Nat) (l : List Byte) (x : Fld) : (s.store a l).on x = s.on x := rfl
@[simp] theorem State.isReady_store (a : Nat) (l : List Byte) (x : ReadyBit) : (s.store a l).isReady x = s.isReady x := rfl

/-! ### modSl -/

@[simp] theorem State.pending_modSl (n : Fin 8) (f : Slice → Slice) : (s.modSl n f).pending = s.pending := rfl
@[simp] theorem State.regs_modSl (n : Fin 8) (f : Slice → Slice) : (s.modSl n f).regs = s.regs := rfl
@[simp] theorem State.mem_modSl (n : Fin 8) (f : Slice → Slice) : (s.modSl n f).mem = s.mem := rfl
@[simp] theorem State.ready_modSl (n : Fin 8) (f : Slice → Slice) : (s.modSl n f).ready = s.ready := rfl
@[simp] theorem State.wasReady_modSl (n : Fin 8) (f : Slice → Slice) : (s.modSl n f).wasReady = s.wasReady := rfl
@[simp] theorem State.scan_modSl (n : Fin 8) (f : Slice → Slice) : (s.modSl n f).scan = s.scan := rfl
@[simp] theorem State.drc_modSl (n : Fin 8) (f : Slice → Slice) : (s.modSl n f).drc = s.drc := rfl
@[simp] theorem State.cores_modSl (n : Fin 8) (f : Slice → Slice) : (s.modSl n f).cores = s.cores := rfl
@[simp] theorem State.disp_modSl (n : Fin 8) (f : Slice → Slice) : (s.modSl n f).disp = s.disp := rfl
@[simp] theorem State.port_modSl (n : Fin 8) (f : Slice → Slice) : (s.modSl n f).port = s.port := rfl
@[simp] theorem State.enum_modSl (n : Fin 8) (f : Slice → Slice) : (s.modSl n f).enum = s.enum := rfl
@[simp] theorem State.time_modSl (n : Fin 8) (f : Slice → Slice) : (s.modSl n f).time = s.time := rfl
@[simp] theorem State.region_modSl (n : Fin 8) (f : Slice → Slice) : (s.modSl n f).region = s.region := rfl
@[simp] theorem State.dma_modSl (n : Fin 8) (f : Slice → Slice) : (s.modSl n f).dma = s.dma := rfl
@[simp] theorem State.dmaNext_modSl (n : Fin 8) (f : Slice → Slice) : (s.modSl n f).dmaNext = s.dmaNext := rfl
@[simp] theorem State.dmaStalled_modSl (n : Fin 8) (f : Slice → Slice) : (s.modSl n f).dmaStalled = s.dmaStalled := rfl
@[simp] theorem State.mbox_modSl (n : Fin 8) (f : Slice → Slice) : (s.modSl n f).mbox = s.mbox := rfl
@[simp] theorem State.remote_modSl (n : Fin 8) (f : Slice → Slice) : (s.modSl n f).remote = s.remote := rfl
@[simp] theorem State.remoteTag_modSl (n : Fin 8) (f : Slice → Slice) : (s.modSl n f).remoteTag = s.remoteTag := rfl
@[simp] theorem State.slots_modSl (n : Fin 8) (f : Slice → Slice) : (s.modSl n f).slots = s.slots := rfl
@[simp] theorem State.ethLink_modSl (n : Fin 8) (f : Slice → Slice) : (s.modSl n f).ethLink = s.ethLink := rfl
@[simp] theorem State.patch_modSl (n : Fin 8) (f : Slice → Slice) : (s.modSl n f).patch = s.patch := rfl
@[simp] theorem State.patchLoading_modSl (n : Fin 8) (f : Slice → Slice) : (s.modSl n f).patchLoading = s.patchLoading := rfl
@[simp] theorem State.hamper_modSl (n : Fin 8) (f : Slice → Slice) : (s.modSl n f).hamper = s.hamper := rfl
@[simp] theorem State.press_modSl (n : Fin 8) (f : Slice → Slice) : (s.modSl n f).press = s.press := rfl
@[simp] theorem State.bist_modSl (n : Fin 8) (f : Slice → Slice) : (s.modSl n f).bist = s.bist := rfl
@[simp] theorem State.power_modSl (n : Fin 8) (f : Slice → Slice) : (s.modSl n f).power = s.power := rfl
@[simp] theorem State.shadow_modSl (n : Fin 8) (f : Slice → Slice) : (s.modSl n f).shadow = s.shadow := rfl
@[simp] theorem State.sumrx_modSl (n : Fin 8) (f : Slice → Slice) : (s.modSl n f).sumrx = s.sumrx := rfl
@[simp] theorem State.busData_modSl (n : Fin 8) (f : Slice → Slice) : (s.modSl n f).busData = s.busData := rfl
@[simp] theorem State.caps_modSl (n : Fin 8) (f : Slice → Slice) : (s.modSl n f).caps = s.caps := rfl
@[simp] theorem State.busErr_modSl (n : Fin 8) (f : Slice → Slice) : (s.modSl n f).busErr = s.busErr := rfl
@[simp] theorem State.ethHeld_modSl (n : Fin 8) (f : Slice → Slice) : (s.modSl n f).ethHeld = s.ethHeld := rfl
@[simp] theorem State.free_modSl (n : Fin 8) (f : Slice → Slice) : (s.modSl n f).free = s.free := rfl
@[simp] theorem State.clock_modSl (n : Fin 8) (f : Slice → Slice) : (s.modSl n f).clock = s.clock := rfl
@[simp] theorem State.out_modSl (n : Fin 8) (f : Slice → Slice) : (s.modSl n f).out = s.out := rfl
@[simp] theorem State.reg_modSl (n : Fin 8) (f : Slice → Slice) (x : Nat) : (s.modSl n f).reg x = s.reg x := rfl
@[simp] theorem State.rd_modSl (n : Fin 8) (f : Slice → Slice) (x : Fld) : (s.modSl n f).rd x = s.rd x := rfl
@[simp] theorem State.on_modSl (n : Fin 8) (f : Slice → Slice) (x : Fld) : (s.modSl n f).on x = s.on x := rfl
@[simp] theorem State.byte_modSl (n : Fin 8) (f : Slice → Slice) (x : Nat) : (s.modSl n f).byte x = s.byte x := rfl
@[simp] theorem State.isReady_modSl (n : Fin 8) (f : Slice → Slice) (x : ReadyBit) : (s.modSl n f).isReady x = s.isReady x := rfl

/-! ### modSeq -/

@[simp] theorem State.pending_modSeq (n : Fin 8) (f : Seq → Seq) : (s.modSeq n f).pending = s.pending := rfl
@[simp] theorem State.regs_modSeq (n : Fin 8) (f : Seq → Seq) : (s.modSeq n f).regs = s.regs := rfl
@[simp] theorem State.mem_modSeq (n : Fin 8) (f : Seq → Seq) : (s.modSeq n f).mem = s.mem := rfl
@[simp] theorem State.ready_modSeq (n : Fin 8) (f : Seq → Seq) : (s.modSeq n f).ready = s.ready := rfl
@[simp] theorem State.wasReady_modSeq (n : Fin 8) (f : Seq → Seq) : (s.modSeq n f).wasReady = s.wasReady := rfl
@[simp] theorem State.scan_modSeq (n : Fin 8) (f : Seq → Seq) : (s.modSeq n f).scan = s.scan := rfl
@[simp] theorem State.drc_modSeq (n : Fin 8) (f : Seq → Seq) : (s.modSeq n f).drc = s.drc := rfl
@[simp] theorem State.cores_modSeq (n : Fin 8) (f : Seq → Seq) : (s.modSeq n f).cores = s.cores := rfl
@[simp] theorem State.disp_modSeq (n : Fin 8) (f : Seq → Seq) : (s.modSeq n f).disp = s.disp := rfl
@[simp] theorem State.port_modSeq (n : Fin 8) (f : Seq → Seq) : (s.modSeq n f).port = s.port := rfl
@[simp] theorem State.enum_modSeq (n : Fin 8) (f : Seq → Seq) : (s.modSeq n f).enum = s.enum := rfl
@[simp] theorem State.time_modSeq (n : Fin 8) (f : Seq → Seq) : (s.modSeq n f).time = s.time := rfl
@[simp] theorem State.region_modSeq (n : Fin 8) (f : Seq → Seq) : (s.modSeq n f).region = s.region := rfl
@[simp] theorem State.dma_modSeq (n : Fin 8) (f : Seq → Seq) : (s.modSeq n f).dma = s.dma := rfl
@[simp] theorem State.dmaNext_modSeq (n : Fin 8) (f : Seq → Seq) : (s.modSeq n f).dmaNext = s.dmaNext := rfl
@[simp] theorem State.dmaStalled_modSeq (n : Fin 8) (f : Seq → Seq) : (s.modSeq n f).dmaStalled = s.dmaStalled := rfl
@[simp] theorem State.mbox_modSeq (n : Fin 8) (f : Seq → Seq) : (s.modSeq n f).mbox = s.mbox := rfl
@[simp] theorem State.remote_modSeq (n : Fin 8) (f : Seq → Seq) : (s.modSeq n f).remote = s.remote := rfl
@[simp] theorem State.remoteTag_modSeq (n : Fin 8) (f : Seq → Seq) : (s.modSeq n f).remoteTag = s.remoteTag := rfl
@[simp] theorem State.slots_modSeq (n : Fin 8) (f : Seq → Seq) : (s.modSeq n f).slots = s.slots := rfl
@[simp] theorem State.ethLink_modSeq (n : Fin 8) (f : Seq → Seq) : (s.modSeq n f).ethLink = s.ethLink := rfl
@[simp] theorem State.patch_modSeq (n : Fin 8) (f : Seq → Seq) : (s.modSeq n f).patch = s.patch := rfl
@[simp] theorem State.patchLoading_modSeq (n : Fin 8) (f : Seq → Seq) : (s.modSeq n f).patchLoading = s.patchLoading := rfl
@[simp] theorem State.hamper_modSeq (n : Fin 8) (f : Seq → Seq) : (s.modSeq n f).hamper = s.hamper := rfl
@[simp] theorem State.press_modSeq (n : Fin 8) (f : Seq → Seq) : (s.modSeq n f).press = s.press := rfl
@[simp] theorem State.bist_modSeq (n : Fin 8) (f : Seq → Seq) : (s.modSeq n f).bist = s.bist := rfl
@[simp] theorem State.power_modSeq (n : Fin 8) (f : Seq → Seq) : (s.modSeq n f).power = s.power := rfl
@[simp] theorem State.shadow_modSeq (n : Fin 8) (f : Seq → Seq) : (s.modSeq n f).shadow = s.shadow := rfl
@[simp] theorem State.sumrx_modSeq (n : Fin 8) (f : Seq → Seq) : (s.modSeq n f).sumrx = s.sumrx := rfl
@[simp] theorem State.busData_modSeq (n : Fin 8) (f : Seq → Seq) : (s.modSeq n f).busData = s.busData := rfl
@[simp] theorem State.caps_modSeq (n : Fin 8) (f : Seq → Seq) : (s.modSeq n f).caps = s.caps := rfl
@[simp] theorem State.busErr_modSeq (n : Fin 8) (f : Seq → Seq) : (s.modSeq n f).busErr = s.busErr := rfl
@[simp] theorem State.ethHeld_modSeq (n : Fin 8) (f : Seq → Seq) : (s.modSeq n f).ethHeld = s.ethHeld := rfl
@[simp] theorem State.free_modSeq (n : Fin 8) (f : Seq → Seq) : (s.modSeq n f).free = s.free := rfl
@[simp] theorem State.clock_modSeq (n : Fin 8) (f : Seq → Seq) : (s.modSeq n f).clock = s.clock := rfl
@[simp] theorem State.out_modSeq (n : Fin 8) (f : Seq → Seq) : (s.modSeq n f).out = s.out := rfl
@[simp] theorem State.reg_modSeq (n : Fin 8) (f : Seq → Seq) (x : Nat) : (s.modSeq n f).reg x = s.reg x := rfl
@[simp] theorem State.rd_modSeq (n : Fin 8) (f : Seq → Seq) (x : Fld) : (s.modSeq n f).rd x = s.rd x := rfl
@[simp] theorem State.on_modSeq (n : Fin 8) (f : Seq → Seq) (x : Fld) : (s.modSeq n f).on x = s.on x := rfl
@[simp] theorem State.byte_modSeq (n : Fin 8) (f : Seq → Seq) (x : Nat) : (s.modSeq n f).byte x = s.byte x := rfl
@[simp] theorem State.isReady_modSeq (n : Fin 8) (f : Seq → Seq) (x : ReadyBit) : (s.modSeq n f).isReady x = s.isReady x := rfl

/-! ### modScan -/

@[simp] theorem State.pending_modScan (u : Fin 4) (f : Scan → Scan) : (s.modScan u f).pending = s.pending := rfl
@[simp] theorem State.regs_modScan (u : Fin 4) (f : Scan → Scan) : (s.modScan u f).regs = s.regs := rfl
@[simp] theorem State.mem_modScan (u : Fin 4) (f : Scan → Scan) : (s.modScan u f).mem = s.mem := rfl
@[simp] theorem State.ready_modScan (u : Fin 4) (f : Scan → Scan) : (s.modScan u f).ready = s.ready := rfl
@[simp] theorem State.wasReady_modScan (u : Fin 4) (f : Scan → Scan) : (s.modScan u f).wasReady = s.wasReady := rfl
@[simp] theorem State.sl_modScan (u : Fin 4) (f : Scan → Scan) : (s.modScan u f).sl = s.sl := rfl
@[simp] theorem State.drc_modScan (u : Fin 4) (f : Scan → Scan) : (s.modScan u f).drc = s.drc := rfl
@[simp] theorem State.cores_modScan (u : Fin 4) (f : Scan → Scan) : (s.modScan u f).cores = s.cores := rfl
@[simp] theorem State.disp_modScan (u : Fin 4) (f : Scan → Scan) : (s.modScan u f).disp = s.disp := rfl
@[simp] theorem State.port_modScan (u : Fin 4) (f : Scan → Scan) : (s.modScan u f).port = s.port := rfl
@[simp] theorem State.enum_modScan (u : Fin 4) (f : Scan → Scan) : (s.modScan u f).enum = s.enum := rfl
@[simp] theorem State.time_modScan (u : Fin 4) (f : Scan → Scan) : (s.modScan u f).time = s.time := rfl
@[simp] theorem State.region_modScan (u : Fin 4) (f : Scan → Scan) : (s.modScan u f).region = s.region := rfl
@[simp] theorem State.dma_modScan (u : Fin 4) (f : Scan → Scan) : (s.modScan u f).dma = s.dma := rfl
@[simp] theorem State.dmaNext_modScan (u : Fin 4) (f : Scan → Scan) : (s.modScan u f).dmaNext = s.dmaNext := rfl
@[simp] theorem State.dmaStalled_modScan (u : Fin 4) (f : Scan → Scan) : (s.modScan u f).dmaStalled = s.dmaStalled := rfl
@[simp] theorem State.mbox_modScan (u : Fin 4) (f : Scan → Scan) : (s.modScan u f).mbox = s.mbox := rfl
@[simp] theorem State.remote_modScan (u : Fin 4) (f : Scan → Scan) : (s.modScan u f).remote = s.remote := rfl
@[simp] theorem State.remoteTag_modScan (u : Fin 4) (f : Scan → Scan) : (s.modScan u f).remoteTag = s.remoteTag := rfl
@[simp] theorem State.slots_modScan (u : Fin 4) (f : Scan → Scan) : (s.modScan u f).slots = s.slots := rfl
@[simp] theorem State.ethLink_modScan (u : Fin 4) (f : Scan → Scan) : (s.modScan u f).ethLink = s.ethLink := rfl
@[simp] theorem State.patch_modScan (u : Fin 4) (f : Scan → Scan) : (s.modScan u f).patch = s.patch := rfl
@[simp] theorem State.patchLoading_modScan (u : Fin 4) (f : Scan → Scan) : (s.modScan u f).patchLoading = s.patchLoading := rfl
@[simp] theorem State.hamper_modScan (u : Fin 4) (f : Scan → Scan) : (s.modScan u f).hamper = s.hamper := rfl
@[simp] theorem State.press_modScan (u : Fin 4) (f : Scan → Scan) : (s.modScan u f).press = s.press := rfl
@[simp] theorem State.bist_modScan (u : Fin 4) (f : Scan → Scan) : (s.modScan u f).bist = s.bist := rfl
@[simp] theorem State.power_modScan (u : Fin 4) (f : Scan → Scan) : (s.modScan u f).power = s.power := rfl
@[simp] theorem State.shadow_modScan (u : Fin 4) (f : Scan → Scan) : (s.modScan u f).shadow = s.shadow := rfl
@[simp] theorem State.sumrx_modScan (u : Fin 4) (f : Scan → Scan) : (s.modScan u f).sumrx = s.sumrx := rfl
@[simp] theorem State.busData_modScan (u : Fin 4) (f : Scan → Scan) : (s.modScan u f).busData = s.busData := rfl
@[simp] theorem State.caps_modScan (u : Fin 4) (f : Scan → Scan) : (s.modScan u f).caps = s.caps := rfl
@[simp] theorem State.busErr_modScan (u : Fin 4) (f : Scan → Scan) : (s.modScan u f).busErr = s.busErr := rfl
@[simp] theorem State.ethHeld_modScan (u : Fin 4) (f : Scan → Scan) : (s.modScan u f).ethHeld = s.ethHeld := rfl
@[simp] theorem State.free_modScan (u : Fin 4) (f : Scan → Scan) : (s.modScan u f).free = s.free := rfl
@[simp] theorem State.clock_modScan (u : Fin 4) (f : Scan → Scan) : (s.modScan u f).clock = s.clock := rfl
@[simp] theorem State.out_modScan (u : Fin 4) (f : Scan → Scan) : (s.modScan u f).out = s.out := rfl
@[simp] theorem State.reg_modScan (u : Fin 4) (f : Scan → Scan) (x : Nat) : (s.modScan u f).reg x = s.reg x := rfl
@[simp] theorem State.rd_modScan (u : Fin 4) (f : Scan → Scan) (x : Fld) : (s.modScan u f).rd x = s.rd x := rfl
@[simp] theorem State.on_modScan (u : Fin 4) (f : Scan → Scan) (x : Fld) : (s.modScan u f).on x = s.on x := rfl
@[simp] theorem State.byte_modScan (u : Fin 4) (f : Scan → Scan) (x : Nat) : (s.modScan u f).byte x = s.byte x := rfl
@[simp] theorem State.isReady_modScan (u : Fin 4) (f : Scan → Scan) (x : ReadyBit) : (s.modScan u f).isReady x = s.isReady x := rfl

/-! ### modCore -/

@[simp] theorem State.pending_modCore (c : Fin 8) (f : CoreSt → CoreSt) : (s.modCore c f).pending = s.pending := rfl
@[simp] theorem State.regs_modCore (c : Fin 8) (f : CoreSt → CoreSt) : (s.modCore c f).regs = s.regs := rfl
@[simp] theorem State.mem_modCore (c : Fin 8) (f : CoreSt → CoreSt) : (s.modCore c f).mem = s.mem := rfl
@[simp] theorem State.ready_modCore (c : Fin 8) (f : CoreSt → CoreSt) : (s.modCore c f).ready = s.ready := rfl
@[simp] theorem State.wasReady_modCore (c : Fin 8) (f : CoreSt → CoreSt) : (s.modCore c f).wasReady = s.wasReady := rfl
@[simp] theorem State.sl_modCore (c : Fin 8) (f : CoreSt → CoreSt) : (s.modCore c f).sl = s.sl := rfl
@[simp] theorem State.scan_modCore (c : Fin 8) (f : CoreSt → CoreSt) : (s.modCore c f).scan = s.scan := rfl
@[simp] theorem State.drc_modCore (c : Fin 8) (f : CoreSt → CoreSt) : (s.modCore c f).drc = s.drc := rfl
@[simp] theorem State.disp_modCore (c : Fin 8) (f : CoreSt → CoreSt) : (s.modCore c f).disp = s.disp := rfl
@[simp] theorem State.port_modCore (c : Fin 8) (f : CoreSt → CoreSt) : (s.modCore c f).port = s.port := rfl
@[simp] theorem State.enum_modCore (c : Fin 8) (f : CoreSt → CoreSt) : (s.modCore c f).enum = s.enum := rfl
@[simp] theorem State.time_modCore (c : Fin 8) (f : CoreSt → CoreSt) : (s.modCore c f).time = s.time := rfl
@[simp] theorem State.region_modCore (c : Fin 8) (f : CoreSt → CoreSt) : (s.modCore c f).region = s.region := rfl
@[simp] theorem State.dma_modCore (c : Fin 8) (f : CoreSt → CoreSt) : (s.modCore c f).dma = s.dma := rfl
@[simp] theorem State.dmaNext_modCore (c : Fin 8) (f : CoreSt → CoreSt) : (s.modCore c f).dmaNext = s.dmaNext := rfl
@[simp] theorem State.dmaStalled_modCore (c : Fin 8) (f : CoreSt → CoreSt) : (s.modCore c f).dmaStalled = s.dmaStalled := rfl
@[simp] theorem State.mbox_modCore (c : Fin 8) (f : CoreSt → CoreSt) : (s.modCore c f).mbox = s.mbox := rfl
@[simp] theorem State.remote_modCore (c : Fin 8) (f : CoreSt → CoreSt) : (s.modCore c f).remote = s.remote := rfl
@[simp] theorem State.remoteTag_modCore (c : Fin 8) (f : CoreSt → CoreSt) : (s.modCore c f).remoteTag = s.remoteTag := rfl
@[simp] theorem State.slots_modCore (c : Fin 8) (f : CoreSt → CoreSt) : (s.modCore c f).slots = s.slots := rfl
@[simp] theorem State.ethLink_modCore (c : Fin 8) (f : CoreSt → CoreSt) : (s.modCore c f).ethLink = s.ethLink := rfl
@[simp] theorem State.patch_modCore (c : Fin 8) (f : CoreSt → CoreSt) : (s.modCore c f).patch = s.patch := rfl
@[simp] theorem State.patchLoading_modCore (c : Fin 8) (f : CoreSt → CoreSt) : (s.modCore c f).patchLoading = s.patchLoading := rfl
@[simp] theorem State.hamper_modCore (c : Fin 8) (f : CoreSt → CoreSt) : (s.modCore c f).hamper = s.hamper := rfl
@[simp] theorem State.press_modCore (c : Fin 8) (f : CoreSt → CoreSt) : (s.modCore c f).press = s.press := rfl
@[simp] theorem State.bist_modCore (c : Fin 8) (f : CoreSt → CoreSt) : (s.modCore c f).bist = s.bist := rfl
@[simp] theorem State.power_modCore (c : Fin 8) (f : CoreSt → CoreSt) : (s.modCore c f).power = s.power := rfl
@[simp] theorem State.shadow_modCore (c : Fin 8) (f : CoreSt → CoreSt) : (s.modCore c f).shadow = s.shadow := rfl
@[simp] theorem State.sumrx_modCore (c : Fin 8) (f : CoreSt → CoreSt) : (s.modCore c f).sumrx = s.sumrx := rfl
@[simp] theorem State.busData_modCore (c : Fin 8) (f : CoreSt → CoreSt) : (s.modCore c f).busData = s.busData := rfl
@[simp] theorem State.caps_modCore (c : Fin 8) (f : CoreSt → CoreSt) : (s.modCore c f).caps = s.caps := rfl
@[simp] theorem State.busErr_modCore (c : Fin 8) (f : CoreSt → CoreSt) : (s.modCore c f).busErr = s.busErr := rfl
@[simp] theorem State.ethHeld_modCore (c : Fin 8) (f : CoreSt → CoreSt) : (s.modCore c f).ethHeld = s.ethHeld := rfl
@[simp] theorem State.free_modCore (c : Fin 8) (f : CoreSt → CoreSt) : (s.modCore c f).free = s.free := rfl
@[simp] theorem State.clock_modCore (c : Fin 8) (f : CoreSt → CoreSt) : (s.modCore c f).clock = s.clock := rfl
@[simp] theorem State.out_modCore (c : Fin 8) (f : CoreSt → CoreSt) : (s.modCore c f).out = s.out := rfl
@[simp] theorem State.reg_modCore (c : Fin 8) (f : CoreSt → CoreSt) (x : Nat) : (s.modCore c f).reg x = s.reg x := rfl
@[simp] theorem State.rd_modCore (c : Fin 8) (f : CoreSt → CoreSt) (x : Fld) : (s.modCore c f).rd x = s.rd x := rfl
@[simp] theorem State.on_modCore (c : Fin 8) (f : CoreSt → CoreSt) (x : Fld) : (s.modCore c f).on x = s.on x := rfl
@[simp] theorem State.byte_modCore (c : Fin 8) (f : CoreSt → CoreSt) (x : Nat) : (s.modCore c f).byte x = s.byte x := rfl
@[simp] theorem State.isReady_modCore (c : Fin 8) (f : CoreSt → CoreSt) (x : ReadyBit) : (s.modCore c f).isReady x = s.isReady x := rfl

/-! ### modPort -/

@[simp] theorem State.pending_modPort (p : Fin 4) (f : Port → Port) : (s.modPort p f).pending = s.pending := rfl
@[simp] theorem State.regs_modPort (p : Fin 4) (f : Port → Port) : (s.modPort p f).regs = s.regs := rfl
@[simp] theorem State.mem_modPort (p : Fin 4) (f : Port → Port) : (s.modPort p f).mem = s.mem := rfl
@[simp] theorem State.ready_modPort (p : Fin 4) (f : Port → Port) : (s.modPort p f).ready = s.ready := rfl
@[simp] theorem State.wasReady_modPort (p : Fin 4) (f : Port → Port) : (s.modPort p f).wasReady = s.wasReady := rfl
@[simp] theorem State.sl_modPort (p : Fin 4) (f : Port → Port) : (s.modPort p f).sl = s.sl := rfl
@[simp] theorem State.scan_modPort (p : Fin 4) (f : Port → Port) : (s.modPort p f).scan = s.scan := rfl
@[simp] theorem State.drc_modPort (p : Fin 4) (f : Port → Port) : (s.modPort p f).drc = s.drc := rfl
@[simp] theorem State.cores_modPort (p : Fin 4) (f : Port → Port) : (s.modPort p f).cores = s.cores := rfl
@[simp] theorem State.disp_modPort (p : Fin 4) (f : Port → Port) : (s.modPort p f).disp = s.disp := rfl
@[simp] theorem State.enum_modPort (p : Fin 4) (f : Port → Port) : (s.modPort p f).enum = s.enum := rfl
@[simp] theorem State.time_modPort (p : Fin 4) (f : Port → Port) : (s.modPort p f).time = s.time := rfl
@[simp] theorem State.region_modPort (p : Fin 4) (f : Port → Port) : (s.modPort p f).region = s.region := rfl
@[simp] theorem State.dma_modPort (p : Fin 4) (f : Port → Port) : (s.modPort p f).dma = s.dma := rfl
@[simp] theorem State.dmaNext_modPort (p : Fin 4) (f : Port → Port) : (s.modPort p f).dmaNext = s.dmaNext := rfl
@[simp] theorem State.dmaStalled_modPort (p : Fin 4) (f : Port → Port) : (s.modPort p f).dmaStalled = s.dmaStalled := rfl
@[simp] theorem State.mbox_modPort (p : Fin 4) (f : Port → Port) : (s.modPort p f).mbox = s.mbox := rfl
@[simp] theorem State.remote_modPort (p : Fin 4) (f : Port → Port) : (s.modPort p f).remote = s.remote := rfl
@[simp] theorem State.remoteTag_modPort (p : Fin 4) (f : Port → Port) : (s.modPort p f).remoteTag = s.remoteTag := rfl
@[simp] theorem State.slots_modPort (p : Fin 4) (f : Port → Port) : (s.modPort p f).slots = s.slots := rfl
@[simp] theorem State.ethLink_modPort (p : Fin 4) (f : Port → Port) : (s.modPort p f).ethLink = s.ethLink := rfl
@[simp] theorem State.patch_modPort (p : Fin 4) (f : Port → Port) : (s.modPort p f).patch = s.patch := rfl
@[simp] theorem State.patchLoading_modPort (p : Fin 4) (f : Port → Port) : (s.modPort p f).patchLoading = s.patchLoading := rfl
@[simp] theorem State.hamper_modPort (p : Fin 4) (f : Port → Port) : (s.modPort p f).hamper = s.hamper := rfl
@[simp] theorem State.press_modPort (p : Fin 4) (f : Port → Port) : (s.modPort p f).press = s.press := rfl
@[simp] theorem State.bist_modPort (p : Fin 4) (f : Port → Port) : (s.modPort p f).bist = s.bist := rfl
@[simp] theorem State.power_modPort (p : Fin 4) (f : Port → Port) : (s.modPort p f).power = s.power := rfl
@[simp] theorem State.shadow_modPort (p : Fin 4) (f : Port → Port) : (s.modPort p f).shadow = s.shadow := rfl
@[simp] theorem State.sumrx_modPort (p : Fin 4) (f : Port → Port) : (s.modPort p f).sumrx = s.sumrx := rfl
@[simp] theorem State.busData_modPort (p : Fin 4) (f : Port → Port) : (s.modPort p f).busData = s.busData := rfl
@[simp] theorem State.caps_modPort (p : Fin 4) (f : Port → Port) : (s.modPort p f).caps = s.caps := rfl
@[simp] theorem State.busErr_modPort (p : Fin 4) (f : Port → Port) : (s.modPort p f).busErr = s.busErr := rfl
@[simp] theorem State.ethHeld_modPort (p : Fin 4) (f : Port → Port) : (s.modPort p f).ethHeld = s.ethHeld := rfl
@[simp] theorem State.free_modPort (p : Fin 4) (f : Port → Port) : (s.modPort p f).free = s.free := rfl
@[simp] theorem State.clock_modPort (p : Fin 4) (f : Port → Port) : (s.modPort p f).clock = s.clock := rfl
@[simp] theorem State.out_modPort (p : Fin 4) (f : Port → Port) : (s.modPort p f).out = s.out := rfl
@[simp] theorem State.reg_modPort (p : Fin 4) (f : Port → Port) (x : Nat) : (s.modPort p f).reg x = s.reg x := rfl
@[simp] theorem State.rd_modPort (p : Fin 4) (f : Port → Port) (x : Fld) : (s.modPort p f).rd x = s.rd x := rfl
@[simp] theorem State.on_modPort (p : Fin 4) (f : Port → Port) (x : Fld) : (s.modPort p f).on x = s.on x := rfl
@[simp] theorem State.byte_modPort (p : Fin 4) (f : Port → Port) (x : Nat) : (s.modPort p f).byte x = s.byte x := rfl
@[simp] theorem State.isReady_modPort (p : Fin 4) (f : Port → Port) (x : ReadyBit) : (s.modPort p f).isReady x = s.isReady x := rfl

/-! ### modDrc -/

@[simp] theorem State.pending_modDrc (f : Drc → Drc) : (s.modDrc f).pending = s.pending := rfl
@[simp] theorem State.regs_modDrc (f : Drc → Drc) : (s.modDrc f).regs = s.regs := rfl
@[simp] theorem State.mem_modDrc (f : Drc → Drc) : (s.modDrc f).mem = s.mem := rfl
@[simp] theorem State.ready_modDrc (f : Drc → Drc) : (s.modDrc f).ready = s.ready := rfl
@[simp] theorem State.wasReady_modDrc (f : Drc → Drc) : (s.modDrc f).wasReady = s.wasReady := rfl
@[simp] theorem State.sl_modDrc (f : Drc → Drc) : (s.modDrc f).sl = s.sl := rfl
@[simp] theorem State.scan_modDrc (f : Drc → Drc) : (s.modDrc f).scan = s.scan := rfl
@[simp] theorem State.cores_modDrc (f : Drc → Drc) : (s.modDrc f).cores = s.cores := rfl
@[simp] theorem State.disp_modDrc (f : Drc → Drc) : (s.modDrc f).disp = s.disp := rfl
@[simp] theorem State.port_modDrc (f : Drc → Drc) : (s.modDrc f).port = s.port := rfl
@[simp] theorem State.enum_modDrc (f : Drc → Drc) : (s.modDrc f).enum = s.enum := rfl
@[simp] theorem State.time_modDrc (f : Drc → Drc) : (s.modDrc f).time = s.time := rfl
@[simp] theorem State.region_modDrc (f : Drc → Drc) : (s.modDrc f).region = s.region := rfl
@[simp] theorem State.dma_modDrc (f : Drc → Drc) : (s.modDrc f).dma = s.dma := rfl
@[simp] theorem State.dmaNext_modDrc (f : Drc → Drc) : (s.modDrc f).dmaNext = s.dmaNext := rfl
@[simp] theorem State.dmaStalled_modDrc (f : Drc → Drc) : (s.modDrc f).dmaStalled = s.dmaStalled := rfl
@[simp] theorem State.mbox_modDrc (f : Drc → Drc) : (s.modDrc f).mbox = s.mbox := rfl
@[simp] theorem State.remote_modDrc (f : Drc → Drc) : (s.modDrc f).remote = s.remote := rfl
@[simp] theorem State.remoteTag_modDrc (f : Drc → Drc) : (s.modDrc f).remoteTag = s.remoteTag := rfl
@[simp] theorem State.slots_modDrc (f : Drc → Drc) : (s.modDrc f).slots = s.slots := rfl
@[simp] theorem State.ethLink_modDrc (f : Drc → Drc) : (s.modDrc f).ethLink = s.ethLink := rfl
@[simp] theorem State.patch_modDrc (f : Drc → Drc) : (s.modDrc f).patch = s.patch := rfl
@[simp] theorem State.patchLoading_modDrc (f : Drc → Drc) : (s.modDrc f).patchLoading = s.patchLoading := rfl
@[simp] theorem State.hamper_modDrc (f : Drc → Drc) : (s.modDrc f).hamper = s.hamper := rfl
@[simp] theorem State.press_modDrc (f : Drc → Drc) : (s.modDrc f).press = s.press := rfl
@[simp] theorem State.bist_modDrc (f : Drc → Drc) : (s.modDrc f).bist = s.bist := rfl
@[simp] theorem State.power_modDrc (f : Drc → Drc) : (s.modDrc f).power = s.power := rfl
@[simp] theorem State.shadow_modDrc (f : Drc → Drc) : (s.modDrc f).shadow = s.shadow := rfl
@[simp] theorem State.sumrx_modDrc (f : Drc → Drc) : (s.modDrc f).sumrx = s.sumrx := rfl
@[simp] theorem State.busData_modDrc (f : Drc → Drc) : (s.modDrc f).busData = s.busData := rfl
@[simp] theorem State.caps_modDrc (f : Drc → Drc) : (s.modDrc f).caps = s.caps := rfl
@[simp] theorem State.busErr_modDrc (f : Drc → Drc) : (s.modDrc f).busErr = s.busErr := rfl
@[simp] theorem State.ethHeld_modDrc (f : Drc → Drc) : (s.modDrc f).ethHeld = s.ethHeld := rfl
@[simp] theorem State.free_modDrc (f : Drc → Drc) : (s.modDrc f).free = s.free := rfl
@[simp] theorem State.clock_modDrc (f : Drc → Drc) : (s.modDrc f).clock = s.clock := rfl
@[simp] theorem State.out_modDrc (f : Drc → Drc) : (s.modDrc f).out = s.out := rfl
@[simp] theorem State.reg_modDrc (f : Drc → Drc) (x : Nat) : (s.modDrc f).reg x = s.reg x := rfl
@[simp] theorem State.rd_modDrc (f : Drc → Drc) (x : Fld) : (s.modDrc f).rd x = s.rd x := rfl
@[simp] theorem State.on_modDrc (f : Drc → Drc) (x : Fld) : (s.modDrc f).on x = s.on x := rfl
theorem State.byte_modDrc (f : Drc → Drc) (x : Nat) (b : (f s.drc).bare = s.drc.bare) (c : (f s.drc).bareCount = s.drc.bareCount)
    (w : (f s.drc).written = s.drc.written) : (s.modDrc f).byte x = s.byte x := by
  have e : (s.modDrc f).byte x = if (f s.drc).bareAt x then Config.bareByte (f s.drc).bareCount[stackOf x] x else Memory.get s.mem x := rfl
  have h : (f s.drc).bareAt x = s.drc.bareAt x := by simp only [Drc.bareAt, b, w]
  rw [e, h, c, State.byte]
@[simp] theorem State.isReady_modDrc (f : Drc → Drc) (x : ReadyBit) : (s.modDrc f).isReady x = s.isReady x := rfl

/-! ### modTime -/

@[simp] theorem State.pending_modTime (f : Time → Time) : (s.modTime f).pending = s.pending := rfl
@[simp] theorem State.regs_modTime (f : Time → Time) : (s.modTime f).regs = s.regs := rfl
@[simp] theorem State.mem_modTime (f : Time → Time) : (s.modTime f).mem = s.mem := rfl
@[simp] theorem State.ready_modTime (f : Time → Time) : (s.modTime f).ready = s.ready := rfl
@[simp] theorem State.wasReady_modTime (f : Time → Time) : (s.modTime f).wasReady = s.wasReady := rfl
@[simp] theorem State.sl_modTime (f : Time → Time) : (s.modTime f).sl = s.sl := rfl
@[simp] theorem State.scan_modTime (f : Time → Time) : (s.modTime f).scan = s.scan := rfl
@[simp] theorem State.drc_modTime (f : Time → Time) : (s.modTime f).drc = s.drc := rfl
@[simp] theorem State.cores_modTime (f : Time → Time) : (s.modTime f).cores = s.cores := rfl
@[simp] theorem State.disp_modTime (f : Time → Time) : (s.modTime f).disp = s.disp := rfl
@[simp] theorem State.port_modTime (f : Time → Time) : (s.modTime f).port = s.port := rfl
@[simp] theorem State.enum_modTime (f : Time → Time) : (s.modTime f).enum = s.enum := rfl
@[simp] theorem State.region_modTime (f : Time → Time) : (s.modTime f).region = s.region := rfl
@[simp] theorem State.dma_modTime (f : Time → Time) : (s.modTime f).dma = s.dma := rfl
@[simp] theorem State.dmaNext_modTime (f : Time → Time) : (s.modTime f).dmaNext = s.dmaNext := rfl
@[simp] theorem State.dmaStalled_modTime (f : Time → Time) : (s.modTime f).dmaStalled = s.dmaStalled := rfl
@[simp] theorem State.mbox_modTime (f : Time → Time) : (s.modTime f).mbox = s.mbox := rfl
@[simp] theorem State.remote_modTime (f : Time → Time) : (s.modTime f).remote = s.remote := rfl
@[simp] theorem State.remoteTag_modTime (f : Time → Time) : (s.modTime f).remoteTag = s.remoteTag := rfl
@[simp] theorem State.slots_modTime (f : Time → Time) : (s.modTime f).slots = s.slots := rfl
@[simp] theorem State.ethLink_modTime (f : Time → Time) : (s.modTime f).ethLink = s.ethLink := rfl
@[simp] theorem State.patch_modTime (f : Time → Time) : (s.modTime f).patch = s.patch := rfl
@[simp] theorem State.patchLoading_modTime (f : Time → Time) : (s.modTime f).patchLoading = s.patchLoading := rfl
@[simp] theorem State.hamper_modTime (f : Time → Time) : (s.modTime f).hamper = s.hamper := rfl
@[simp] theorem State.press_modTime (f : Time → Time) : (s.modTime f).press = s.press := rfl
@[simp] theorem State.bist_modTime (f : Time → Time) : (s.modTime f).bist = s.bist := rfl
@[simp] theorem State.power_modTime (f : Time → Time) : (s.modTime f).power = s.power := rfl
@[simp] theorem State.shadow_modTime (f : Time → Time) : (s.modTime f).shadow = s.shadow := rfl
@[simp] theorem State.sumrx_modTime (f : Time → Time) : (s.modTime f).sumrx = s.sumrx := rfl
@[simp] theorem State.busData_modTime (f : Time → Time) : (s.modTime f).busData = s.busData := rfl
@[simp] theorem State.caps_modTime (f : Time → Time) : (s.modTime f).caps = s.caps := rfl
@[simp] theorem State.busErr_modTime (f : Time → Time) : (s.modTime f).busErr = s.busErr := rfl
@[simp] theorem State.ethHeld_modTime (f : Time → Time) : (s.modTime f).ethHeld = s.ethHeld := rfl
@[simp] theorem State.free_modTime (f : Time → Time) : (s.modTime f).free = s.free := rfl
@[simp] theorem State.clock_modTime (f : Time → Time) : (s.modTime f).clock = s.clock := rfl
@[simp] theorem State.out_modTime (f : Time → Time) : (s.modTime f).out = s.out := rfl
@[simp] theorem State.reg_modTime (f : Time → Time) (x : Nat) : (s.modTime f).reg x = s.reg x := rfl
@[simp] theorem State.rd_modTime (f : Time → Time) (x : Fld) : (s.modTime f).rd x = s.rd x := rfl
@[simp] theorem State.on_modTime (f : Time → Time) (x : Fld) : (s.modTime f).on x = s.on x := rfl
@[simp] theorem State.byte_modTime (f : Time → Time) (x : Nat) : (s.modTime f).byte x = s.byte x := rfl
@[simp] theorem State.isReady_modTime (f : Time → Time) (x : ReadyBit) : (s.modTime f).isReady x = s.isReady x := rfl

/-! ### modEnum -/

@[simp] theorem State.pending_modEnum (f : Enum → Enum) : (s.modEnum f).pending = s.pending := rfl
@[simp] theorem State.regs_modEnum (f : Enum → Enum) : (s.modEnum f).regs = s.regs := rfl
@[simp] theorem State.mem_modEnum (f : Enum → Enum) : (s.modEnum f).mem = s.mem := rfl
@[simp] theorem State.ready_modEnum (f : Enum → Enum) : (s.modEnum f).ready = s.ready := rfl
@[simp] theorem State.wasReady_modEnum (f : Enum → Enum) : (s.modEnum f).wasReady = s.wasReady := rfl
@[simp] theorem State.sl_modEnum (f : Enum → Enum) : (s.modEnum f).sl = s.sl := rfl
@[simp] theorem State.scan_modEnum (f : Enum → Enum) : (s.modEnum f).scan = s.scan := rfl
@[simp] theorem State.drc_modEnum (f : Enum → Enum) : (s.modEnum f).drc = s.drc := rfl
@[simp] theorem State.cores_modEnum (f : Enum → Enum) : (s.modEnum f).cores = s.cores := rfl
@[simp] theorem State.disp_modEnum (f : Enum → Enum) : (s.modEnum f).disp = s.disp := rfl
@[simp] theorem State.port_modEnum (f : Enum → Enum) : (s.modEnum f).port = s.port := rfl
@[simp] theorem State.time_modEnum (f : Enum → Enum) : (s.modEnum f).time = s.time := rfl
@[simp] theorem State.region_modEnum (f : Enum → Enum) : (s.modEnum f).region = s.region := rfl
@[simp] theorem State.dma_modEnum (f : Enum → Enum) : (s.modEnum f).dma = s.dma := rfl
@[simp] theorem State.dmaNext_modEnum (f : Enum → Enum) : (s.modEnum f).dmaNext = s.dmaNext := rfl
@[simp] theorem State.dmaStalled_modEnum (f : Enum → Enum) : (s.modEnum f).dmaStalled = s.dmaStalled := rfl
@[simp] theorem State.mbox_modEnum (f : Enum → Enum) : (s.modEnum f).mbox = s.mbox := rfl
@[simp] theorem State.remote_modEnum (f : Enum → Enum) : (s.modEnum f).remote = s.remote := rfl
@[simp] theorem State.remoteTag_modEnum (f : Enum → Enum) : (s.modEnum f).remoteTag = s.remoteTag := rfl
@[simp] theorem State.slots_modEnum (f : Enum → Enum) : (s.modEnum f).slots = s.slots := rfl
@[simp] theorem State.ethLink_modEnum (f : Enum → Enum) : (s.modEnum f).ethLink = s.ethLink := rfl
@[simp] theorem State.patch_modEnum (f : Enum → Enum) : (s.modEnum f).patch = s.patch := rfl
@[simp] theorem State.patchLoading_modEnum (f : Enum → Enum) : (s.modEnum f).patchLoading = s.patchLoading := rfl
@[simp] theorem State.hamper_modEnum (f : Enum → Enum) : (s.modEnum f).hamper = s.hamper := rfl
@[simp] theorem State.press_modEnum (f : Enum → Enum) : (s.modEnum f).press = s.press := rfl
@[simp] theorem State.bist_modEnum (f : Enum → Enum) : (s.modEnum f).bist = s.bist := rfl
@[simp] theorem State.power_modEnum (f : Enum → Enum) : (s.modEnum f).power = s.power := rfl
@[simp] theorem State.shadow_modEnum (f : Enum → Enum) : (s.modEnum f).shadow = s.shadow := rfl
@[simp] theorem State.sumrx_modEnum (f : Enum → Enum) : (s.modEnum f).sumrx = s.sumrx := rfl
@[simp] theorem State.busData_modEnum (f : Enum → Enum) : (s.modEnum f).busData = s.busData := rfl
@[simp] theorem State.caps_modEnum (f : Enum → Enum) : (s.modEnum f).caps = s.caps := rfl
@[simp] theorem State.busErr_modEnum (f : Enum → Enum) : (s.modEnum f).busErr = s.busErr := rfl
@[simp] theorem State.ethHeld_modEnum (f : Enum → Enum) : (s.modEnum f).ethHeld = s.ethHeld := rfl
@[simp] theorem State.free_modEnum (f : Enum → Enum) : (s.modEnum f).free = s.free := rfl
@[simp] theorem State.clock_modEnum (f : Enum → Enum) : (s.modEnum f).clock = s.clock := rfl
@[simp] theorem State.out_modEnum (f : Enum → Enum) : (s.modEnum f).out = s.out := rfl
@[simp] theorem State.reg_modEnum (f : Enum → Enum) (x : Nat) : (s.modEnum f).reg x = s.reg x := rfl
@[simp] theorem State.rd_modEnum (f : Enum → Enum) (x : Fld) : (s.modEnum f).rd x = s.rd x := rfl
@[simp] theorem State.on_modEnum (f : Enum → Enum) (x : Fld) : (s.modEnum f).on x = s.on x := rfl
@[simp] theorem State.byte_modEnum (f : Enum → Enum) (x : Nat) : (s.modEnum f).byte x = s.byte x := rfl
@[simp] theorem State.isReady_modEnum (f : Enum → Enum) (x : ReadyBit) : (s.modEnum f).isReady x = s.isReady x := rfl

/-! ### modPower -/

@[simp] theorem State.pending_modPower (f : Power → Power) : (s.modPower f).pending = s.pending := rfl
@[simp] theorem State.regs_modPower (f : Power → Power) : (s.modPower f).regs = s.regs := rfl
@[simp] theorem State.mem_modPower (f : Power → Power) : (s.modPower f).mem = s.mem := rfl
@[simp] theorem State.ready_modPower (f : Power → Power) : (s.modPower f).ready = s.ready := rfl
@[simp] theorem State.wasReady_modPower (f : Power → Power) : (s.modPower f).wasReady = s.wasReady := rfl
@[simp] theorem State.sl_modPower (f : Power → Power) : (s.modPower f).sl = s.sl := rfl
@[simp] theorem State.scan_modPower (f : Power → Power) : (s.modPower f).scan = s.scan := rfl
@[simp] theorem State.drc_modPower (f : Power → Power) : (s.modPower f).drc = s.drc := rfl
@[simp] theorem State.cores_modPower (f : Power → Power) : (s.modPower f).cores = s.cores := rfl
@[simp] theorem State.disp_modPower (f : Power → Power) : (s.modPower f).disp = s.disp := rfl
@[simp] theorem State.port_modPower (f : Power → Power) : (s.modPower f).port = s.port := rfl
@[simp] theorem State.enum_modPower (f : Power → Power) : (s.modPower f).enum = s.enum := rfl
@[simp] theorem State.time_modPower (f : Power → Power) : (s.modPower f).time = s.time := rfl
@[simp] theorem State.region_modPower (f : Power → Power) : (s.modPower f).region = s.region := rfl
@[simp] theorem State.dma_modPower (f : Power → Power) : (s.modPower f).dma = s.dma := rfl
@[simp] theorem State.dmaNext_modPower (f : Power → Power) : (s.modPower f).dmaNext = s.dmaNext := rfl
@[simp] theorem State.dmaStalled_modPower (f : Power → Power) : (s.modPower f).dmaStalled = s.dmaStalled := rfl
@[simp] theorem State.mbox_modPower (f : Power → Power) : (s.modPower f).mbox = s.mbox := rfl
@[simp] theorem State.remote_modPower (f : Power → Power) : (s.modPower f).remote = s.remote := rfl
@[simp] theorem State.remoteTag_modPower (f : Power → Power) : (s.modPower f).remoteTag = s.remoteTag := rfl
@[simp] theorem State.slots_modPower (f : Power → Power) : (s.modPower f).slots = s.slots := rfl
@[simp] theorem State.ethLink_modPower (f : Power → Power) : (s.modPower f).ethLink = s.ethLink := rfl
@[simp] theorem State.patch_modPower (f : Power → Power) : (s.modPower f).patch = s.patch := rfl
@[simp] theorem State.patchLoading_modPower (f : Power → Power) : (s.modPower f).patchLoading = s.patchLoading := rfl
@[simp] theorem State.hamper_modPower (f : Power → Power) : (s.modPower f).hamper = s.hamper := rfl
@[simp] theorem State.press_modPower (f : Power → Power) : (s.modPower f).press = s.press := rfl
@[simp] theorem State.bist_modPower (f : Power → Power) : (s.modPower f).bist = s.bist := rfl
@[simp] theorem State.shadow_modPower (f : Power → Power) : (s.modPower f).shadow = s.shadow := rfl
@[simp] theorem State.sumrx_modPower (f : Power → Power) : (s.modPower f).sumrx = s.sumrx := rfl
@[simp] theorem State.busData_modPower (f : Power → Power) : (s.modPower f).busData = s.busData := rfl
@[simp] theorem State.caps_modPower (f : Power → Power) : (s.modPower f).caps = s.caps := rfl
@[simp] theorem State.busErr_modPower (f : Power → Power) : (s.modPower f).busErr = s.busErr := rfl
@[simp] theorem State.ethHeld_modPower (f : Power → Power) : (s.modPower f).ethHeld = s.ethHeld := rfl
@[simp] theorem State.free_modPower (f : Power → Power) : (s.modPower f).free = s.free := rfl
@[simp] theorem State.clock_modPower (f : Power → Power) : (s.modPower f).clock = s.clock := rfl
@[simp] theorem State.out_modPower (f : Power → Power) : (s.modPower f).out = s.out := rfl
@[simp] theorem State.reg_modPower (f : Power → Power) (x : Nat) : (s.modPower f).reg x = s.reg x := rfl
@[simp] theorem State.rd_modPower (f : Power → Power) (x : Fld) : (s.modPower f).rd x = s.rd x := rfl
@[simp] theorem State.on_modPower (f : Power → Power) (x : Fld) : (s.modPower f).on x = s.on x := rfl
@[simp] theorem State.byte_modPower (f : Power → Power) (x : Nat) : (s.modPower f).byte x = s.byte x := rfl
@[simp] theorem State.isReady_modPower (f : Power → Power) (x : ReadyBit) : (s.modPower f).isReady x = s.isReady x := rfl

/-! ### emit -/

@[simp] theorem State.pending_emit (e : OutEvent) : (s.emit e).pending = s.pending := rfl
@[simp] theorem State.regs_emit (e : OutEvent) : (s.emit e).regs = s.regs := rfl
@[simp] theorem State.mem_emit (e : OutEvent) : (s.emit e).mem = s.mem := rfl
@[simp] theorem State.ready_emit (e : OutEvent) : (s.emit e).ready = s.ready := rfl
@[simp] theorem State.wasReady_emit (e : OutEvent) : (s.emit e).wasReady = s.wasReady := rfl
@[simp] theorem State.sl_emit (e : OutEvent) : (s.emit e).sl = s.sl := rfl
@[simp] theorem State.scan_emit (e : OutEvent) : (s.emit e).scan = s.scan := rfl
@[simp] theorem State.drc_emit (e : OutEvent) : (s.emit e).drc = s.drc := rfl
@[simp] theorem State.cores_emit (e : OutEvent) : (s.emit e).cores = s.cores := rfl
@[simp] theorem State.disp_emit (e : OutEvent) : (s.emit e).disp = s.disp := rfl
@[simp] theorem State.port_emit (e : OutEvent) : (s.emit e).port = s.port := rfl
@[simp] theorem State.enum_emit (e : OutEvent) : (s.emit e).enum = s.enum := rfl
@[simp] theorem State.time_emit (e : OutEvent) : (s.emit e).time = s.time := rfl
@[simp] theorem State.region_emit (e : OutEvent) : (s.emit e).region = s.region := rfl
@[simp] theorem State.dma_emit (e : OutEvent) : (s.emit e).dma = s.dma := rfl
@[simp] theorem State.dmaNext_emit (e : OutEvent) : (s.emit e).dmaNext = s.dmaNext := rfl
@[simp] theorem State.dmaStalled_emit (e : OutEvent) : (s.emit e).dmaStalled = s.dmaStalled := rfl
@[simp] theorem State.mbox_emit (e : OutEvent) : (s.emit e).mbox = s.mbox := rfl
@[simp] theorem State.remote_emit (e : OutEvent) : (s.emit e).remote = s.remote := rfl
@[simp] theorem State.remoteTag_emit (e : OutEvent) : (s.emit e).remoteTag = s.remoteTag := rfl
@[simp] theorem State.slots_emit (e : OutEvent) : (s.emit e).slots = s.slots := rfl
@[simp] theorem State.ethLink_emit (e : OutEvent) : (s.emit e).ethLink = s.ethLink := rfl
@[simp] theorem State.patch_emit (e : OutEvent) : (s.emit e).patch = s.patch := rfl
@[simp] theorem State.patchLoading_emit (e : OutEvent) : (s.emit e).patchLoading = s.patchLoading := rfl
@[simp] theorem State.hamper_emit (e : OutEvent) : (s.emit e).hamper = s.hamper := rfl
@[simp] theorem State.press_emit (e : OutEvent) : (s.emit e).press = s.press := rfl
@[simp] theorem State.bist_emit (e : OutEvent) : (s.emit e).bist = s.bist := rfl
@[simp] theorem State.power_emit (e : OutEvent) : (s.emit e).power = s.power := rfl
@[simp] theorem State.shadow_emit (e : OutEvent) : (s.emit e).shadow = s.shadow := rfl
@[simp] theorem State.sumrx_emit (e : OutEvent) : (s.emit e).sumrx = s.sumrx := rfl
@[simp] theorem State.busData_emit (e : OutEvent) : (s.emit e).busData = s.busData := rfl
@[simp] theorem State.caps_emit (e : OutEvent) : (s.emit e).caps = s.caps := rfl
@[simp] theorem State.busErr_emit (e : OutEvent) : (s.emit e).busErr = s.busErr := rfl
@[simp] theorem State.ethHeld_emit (e : OutEvent) : (s.emit e).ethHeld = s.ethHeld := rfl
@[simp] theorem State.free_emit (e : OutEvent) : (s.emit e).free = s.free := rfl
@[simp] theorem State.clock_emit (e : OutEvent) : (s.emit e).clock = s.clock := rfl
@[simp] theorem State.reg_emit (e : OutEvent) (x : Nat) : (s.emit e).reg x = s.reg x := rfl
@[simp] theorem State.rd_emit (e : OutEvent) (x : Fld) : (s.emit e).rd x = s.rd x := rfl
@[simp] theorem State.on_emit (e : OutEvent) (x : Fld) : (s.emit e).on x = s.on x := rfl
@[simp] theorem State.byte_emit (e : OutEvent) (x : Nat) : (s.emit e).byte x = s.byte x := rfl
@[simp] theorem State.isReady_emit (e : OutEvent) (x : ReadyBit) : (s.emit e).isReady x = s.isReady x := rfl

/-! ### setReady -/

@[simp] theorem State.pending_setReady (b : ReadyBit) (v : Bool) : (s.setReady b v).pending = s.pending := rfl
@[simp] theorem State.regs_setReady (b : ReadyBit) (v : Bool) : (s.setReady b v).regs = s.regs := rfl
@[simp] theorem State.mem_setReady (b : ReadyBit) (v : Bool) : (s.setReady b v).mem = s.mem := rfl
@[simp] theorem State.sl_setReady (b : ReadyBit) (v : Bool) : (s.setReady b v).sl = s.sl := rfl
@[simp] theorem State.scan_setReady (b : ReadyBit) (v : Bool) : (s.setReady b v).scan = s.scan := rfl
@[simp] theorem State.drc_setReady (b : ReadyBit) (v : Bool) : (s.setReady b v).drc = s.drc := rfl
@[simp] theorem State.cores_setReady (b : ReadyBit) (v : Bool) : (s.setReady b v).cores = s.cores := rfl
@[simp] theorem State.disp_setReady (b : ReadyBit) (v : Bool) : (s.setReady b v).disp = s.disp := rfl
@[simp] theorem State.port_setReady (b : ReadyBit) (v : Bool) : (s.setReady b v).port = s.port := rfl
@[simp] theorem State.enum_setReady (b : ReadyBit) (v : Bool) : (s.setReady b v).enum = s.enum := rfl
@[simp] theorem State.time_setReady (b : ReadyBit) (v : Bool) : (s.setReady b v).time = s.time := rfl
@[simp] theorem State.region_setReady (b : ReadyBit) (v : Bool) : (s.setReady b v).region = s.region := rfl
@[simp] theorem State.dma_setReady (b : ReadyBit) (v : Bool) : (s.setReady b v).dma = s.dma := rfl
@[simp] theorem State.dmaNext_setReady (b : ReadyBit) (v : Bool) : (s.setReady b v).dmaNext = s.dmaNext := rfl
@[simp] theorem State.dmaStalled_setReady (b : ReadyBit) (v : Bool) : (s.setReady b v).dmaStalled = s.dmaStalled := rfl
@[simp] theorem State.mbox_setReady (b : ReadyBit) (v : Bool) : (s.setReady b v).mbox = s.mbox := rfl
@[simp] theorem State.remote_setReady (b : ReadyBit) (v : Bool) : (s.setReady b v).remote = s.remote := rfl
@[simp] theorem State.remoteTag_setReady (b : ReadyBit) (v : Bool) : (s.setReady b v).remoteTag = s.remoteTag := rfl
@[simp] theorem State.slots_setReady (b : ReadyBit) (v : Bool) : (s.setReady b v).slots = s.slots := rfl
@[simp] theorem State.ethLink_setReady (b : ReadyBit) (v : Bool) : (s.setReady b v).ethLink = s.ethLink := rfl
@[simp] theorem State.patch_setReady (b : ReadyBit) (v : Bool) : (s.setReady b v).patch = s.patch := rfl
@[simp] theorem State.patchLoading_setReady (b : ReadyBit) (v : Bool) : (s.setReady b v).patchLoading = s.patchLoading := rfl
@[simp] theorem State.hamper_setReady (b : ReadyBit) (v : Bool) : (s.setReady b v).hamper = s.hamper := rfl
@[simp] theorem State.press_setReady (b : ReadyBit) (v : Bool) : (s.setReady b v).press = s.press := rfl
@[simp] theorem State.bist_setReady (b : ReadyBit) (v : Bool) : (s.setReady b v).bist = s.bist := rfl
@[simp] theorem State.power_setReady (b : ReadyBit) (v : Bool) : (s.setReady b v).power = s.power := rfl
@[simp] theorem State.shadow_setReady (b : ReadyBit) (v : Bool) : (s.setReady b v).shadow = s.shadow := rfl
@[simp] theorem State.sumrx_setReady (b : ReadyBit) (v : Bool) : (s.setReady b v).sumrx = s.sumrx := rfl
@[simp] theorem State.busData_setReady (b : ReadyBit) (v : Bool) : (s.setReady b v).busData = s.busData := rfl
@[simp] theorem State.caps_setReady (b : ReadyBit) (v : Bool) : (s.setReady b v).caps = s.caps := rfl
@[simp] theorem State.busErr_setReady (b : ReadyBit) (v : Bool) : (s.setReady b v).busErr = s.busErr := rfl
@[simp] theorem State.ethHeld_setReady (b : ReadyBit) (v : Bool) : (s.setReady b v).ethHeld = s.ethHeld := rfl
@[simp] theorem State.free_setReady (b : ReadyBit) (v : Bool) : (s.setReady b v).free = s.free := rfl
@[simp] theorem State.clock_setReady (b : ReadyBit) (v : Bool) : (s.setReady b v).clock = s.clock := rfl
@[simp] theorem State.out_setReady (b : ReadyBit) (v : Bool) : (s.setReady b v).out = s.out := rfl
@[simp] theorem State.reg_setReady (b : ReadyBit) (v : Bool) (x : Nat) : (s.setReady b v).reg x = s.reg x := rfl
@[simp] theorem State.rd_setReady (b : ReadyBit) (v : Bool) (x : Fld) : (s.setReady b v).rd x = s.rd x := rfl
@[simp] theorem State.on_setReady (b : ReadyBit) (v : Bool) (x : Fld) : (s.setReady b v).on x = s.on x := rfl
@[simp] theorem State.byte_setReady (b : ReadyBit) (v : Bool) (x : Nat) : (s.setReady b v).byte x = s.byte x := rfl

/-! ### The fields that they change -/

@[simp] theorem State.ready_setReady (b : ReadyBit) (v : Bool) : (s.setReady b v).ready =
    if v then s.ready ||| BitVec.ofNat 32 (2 ^ b.pos) else s.ready &&& ~~~BitVec.ofNat 32 (2 ^ b.pos) := rfl
@[simp] theorem State.wasReady_setReady (b : ReadyBit) (v : Bool) : (s.setReady b v).wasReady =
    if v then s.wasReady ||| BitVec.ofNat 32 (2 ^ b.pos) else s.wasReady := rfl
@[simp] theorem State.sl_modSl (n : Fin 8) (f : Slice → Slice) : (s.modSl n f).sl = s.sl.set n (f s.sl[n]) := rfl
@[simp] theorem State.scan_modScan (u : Fin 4) (f : Scan → Scan) : (s.modScan u f).scan = s.scan.set u (f s.scan[u]) := rfl
@[simp] theorem State.cores_modCore (c : Fin 8) (f : CoreSt → CoreSt) : (s.modCore c f).cores = s.cores.set c (f s.cores[c]) := rfl
@[simp] theorem State.port_modPort (p : Fin 4) (f : Port → Port) : (s.modPort p f).port = s.port.set p (f s.port[p]) := rfl
@[simp] theorem State.drc_modDrc (f : Drc → Drc) : (s.modDrc f).drc = f s.drc := rfl
@[simp] theorem State.time_modTime (f : Time → Time) : (s.modTime f).time = f s.time := rfl
@[simp] theorem State.enum_modEnum (f : Enum → Enum) : (s.modEnum f).enum = f s.enum := rfl
@[simp] theorem State.power_modPower (f : Power → Power) : (s.modPower f).power = f s.power := rfl
@[simp] theorem State.out_emit (e : OutEvent) : (s.emit e).out = s.out ++ [e] := rfl

/-! ### Register fields: wr, wrs, addSat -/

theorem State.setReg_eq (a : Nat) (v : Word) : s.setReg a v = { s with regs := (s.setReg a v).regs } := rfl

/-- A field written changes the register words alone. -/
theorem State.wr_cases (x : Fld) (v : Nat) (P : State → Prop) (h : ∀ m, P { s with regs := m }) : P (s.wr x v) := by
  have k : ∀ (a b : Nat) (w z : Word), P ((s.setReg a w).setReg b z) := fun a b w z => h _
  have k' : ∀ (a : Nat) (w : Word), P (s.setReg a w) := fun a w => h _
  unfold State.wr
  split
  · exact k' _ _
  · split
    · exact k' _ _
    · exact k _ _ _ _

@[simp] theorem State.pending_wr (x : Fld) (v : Nat) : (s.wr x v).pending = s.pending := State.wr_cases s x v (fun t => t.pending = s.pending) fun _ => rfl
@[simp] theorem State.mem_wr (x : Fld) (v : Nat) : (s.wr x v).mem = s.mem := State.wr_cases s x v (fun t => t.mem = s.mem) fun _ => rfl
@[simp] theorem State.ready_wr (x : Fld) (v : Nat) : (s.wr x v).ready = s.ready := State.wr_cases s x v (fun t => t.ready = s.ready) fun _ => rfl
@[simp] theorem State.wasReady_wr (x : Fld) (v : Nat) : (s.wr x v).wasReady = s.wasReady := State.wr_cases s x v (fun t => t.wasReady = s.wasReady) fun _ => rfl
@[simp] theorem State.sl_wr (x : Fld) (v : Nat) : (s.wr x v).sl = s.sl := State.wr_cases s x v (fun t => t.sl = s.sl) fun _ => rfl
@[simp] theorem State.scan_wr (x : Fld) (v : Nat) : (s.wr x v).scan = s.scan := State.wr_cases s x v (fun t => t.scan = s.scan) fun _ => rfl
@[simp] theorem State.drc_wr (x : Fld) (v : Nat) : (s.wr x v).drc = s.drc := State.wr_cases s x v (fun t => t.drc = s.drc) fun _ => rfl
@[simp] theorem State.cores_wr (x : Fld) (v : Nat) : (s.wr x v).cores = s.cores := State.wr_cases s x v (fun t => t.cores = s.cores) fun _ => rfl
@[simp] theorem State.disp_wr (x : Fld) (v : Nat) : (s.wr x v).disp = s.disp := State.wr_cases s x v (fun t => t.disp = s.disp) fun _ => rfl
@[simp] theorem State.port_wr (x : Fld) (v : Nat) : (s.wr x v).port = s.port := State.wr_cases s x v (fun t => t.port = s.port) fun _ => rfl
@[simp] theorem State.enum_wr (x : Fld) (v : Nat) : (s.wr x v).enum = s.enum := State.wr_cases s x v (fun t => t.enum = s.enum) fun _ => rfl
@[simp] theorem State.time_wr (x : Fld) (v : Nat) : (s.wr x v).time = s.time := State.wr_cases s x v (fun t => t.time = s.time) fun _ => rfl
@[simp] theorem State.region_wr (x : Fld) (v : Nat) : (s.wr x v).region = s.region := State.wr_cases s x v (fun t => t.region = s.region) fun _ => rfl
@[simp] theorem State.dma_wr (x : Fld) (v : Nat) : (s.wr x v).dma = s.dma := State.wr_cases s x v (fun t => t.dma = s.dma) fun _ => rfl
@[simp] theorem State.dmaNext_wr (x : Fld) (v : Nat) : (s.wr x v).dmaNext = s.dmaNext := State.wr_cases s x v (fun t => t.dmaNext = s.dmaNext) fun _ => rfl
@[simp] theorem State.dmaStalled_wr (x : Fld) (v : Nat) : (s.wr x v).dmaStalled = s.dmaStalled := State.wr_cases s x v (fun t => t.dmaStalled = s.dmaStalled) fun _ => rfl
@[simp] theorem State.mbox_wr (x : Fld) (v : Nat) : (s.wr x v).mbox = s.mbox := State.wr_cases s x v (fun t => t.mbox = s.mbox) fun _ => rfl
@[simp] theorem State.remote_wr (x : Fld) (v : Nat) : (s.wr x v).remote = s.remote := State.wr_cases s x v (fun t => t.remote = s.remote) fun _ => rfl
@[simp] theorem State.remoteTag_wr (x : Fld) (v : Nat) : (s.wr x v).remoteTag = s.remoteTag := State.wr_cases s x v (fun t => t.remoteTag = s.remoteTag) fun _ => rfl
@[simp] theorem State.slots_wr (x : Fld) (v : Nat) : (s.wr x v).slots = s.slots := State.wr_cases s x v (fun t => t.slots = s.slots) fun _ => rfl
@[simp] theorem State.ethLink_wr (x : Fld) (v : Nat) : (s.wr x v).ethLink = s.ethLink := State.wr_cases s x v (fun t => t.ethLink = s.ethLink) fun _ => rfl
@[simp] theorem State.patch_wr (x : Fld) (v : Nat) : (s.wr x v).patch = s.patch := State.wr_cases s x v (fun t => t.patch = s.patch) fun _ => rfl
@[simp] theorem State.patchLoading_wr (x : Fld) (v : Nat) : (s.wr x v).patchLoading = s.patchLoading := State.wr_cases s x v (fun t => t.patchLoading = s.patchLoading) fun _ => rfl
@[simp] theorem State.hamper_wr (x : Fld) (v : Nat) : (s.wr x v).hamper = s.hamper := State.wr_cases s x v (fun t => t.hamper = s.hamper) fun _ => rfl
@[simp] theorem State.press_wr (x : Fld) (v : Nat) : (s.wr x v).press = s.press := State.wr_cases s x v (fun t => t.press = s.press) fun _ => rfl
@[simp] theorem State.bist_wr (x : Fld) (v : Nat) : (s.wr x v).bist = s.bist := State.wr_cases s x v (fun t => t.bist = s.bist) fun _ => rfl
@[simp] theorem State.power_wr (x : Fld) (v : Nat) : (s.wr x v).power = s.power := State.wr_cases s x v (fun t => t.power = s.power) fun _ => rfl
@[simp] theorem State.shadow_wr (x : Fld) (v : Nat) : (s.wr x v).shadow = s.shadow := State.wr_cases s x v (fun t => t.shadow = s.shadow) fun _ => rfl
@[simp] theorem State.sumrx_wr (x : Fld) (v : Nat) : (s.wr x v).sumrx = s.sumrx := State.wr_cases s x v (fun t => t.sumrx = s.sumrx) fun _ => rfl
@[simp] theorem State.busData_wr (x : Fld) (v : Nat) : (s.wr x v).busData = s.busData := State.wr_cases s x v (fun t => t.busData = s.busData) fun _ => rfl
@[simp] theorem State.caps_wr (x : Fld) (v : Nat) : (s.wr x v).caps = s.caps := State.wr_cases s x v (fun t => t.caps = s.caps) fun _ => rfl
@[simp] theorem State.busErr_wr (x : Fld) (v : Nat) : (s.wr x v).busErr = s.busErr := State.wr_cases s x v (fun t => t.busErr = s.busErr) fun _ => rfl
@[simp] theorem State.ethHeld_wr (x : Fld) (v : Nat) : (s.wr x v).ethHeld = s.ethHeld := State.wr_cases s x v (fun t => t.ethHeld = s.ethHeld) fun _ => rfl
@[simp] theorem State.free_wr (x : Fld) (v : Nat) : (s.wr x v).free = s.free := State.wr_cases s x v (fun t => t.free = s.free) fun _ => rfl
@[simp] theorem State.clock_wr (x : Fld) (v : Nat) : (s.wr x v).clock = s.clock := State.wr_cases s x v (fun t => t.clock = s.clock) fun _ => rfl
@[simp] theorem State.out_wr (x : Fld) (v : Nat) : (s.wr x v).out = s.out := State.wr_cases s x v (fun t => t.out = s.out) fun _ => rfl

@[simp] theorem State.pending_wrs (l : List (Fld × Nat)) : (s.wrs l).pending = s.pending := by
  unfold State.wrs; induction l generalizing s <;> simp_all
@[simp] theorem State.mem_wrs (l : List (Fld × Nat)) : (s.wrs l).mem = s.mem := by
  unfold State.wrs; induction l generalizing s <;> simp_all
@[simp] theorem State.ready_wrs (l : List (Fld × Nat)) : (s.wrs l).ready = s.ready := by
  unfold State.wrs; induction l generalizing s <;> simp_all
@[simp] theorem State.wasReady_wrs (l : List (Fld × Nat)) : (s.wrs l).wasReady = s.wasReady := by
  unfold State.wrs; induction l generalizing s <;> simp_all
@[simp] theorem State.sl_wrs (l : List (Fld × Nat)) : (s.wrs l).sl = s.sl := by
  unfold State.wrs; induction l generalizing s <;> simp_all
@[simp] theorem State.scan_wrs (l : List (Fld × Nat)) : (s.wrs l).scan = s.scan := by
  unfold State.wrs; induction l generalizing s <;> simp_all
@[simp] theorem State.drc_wrs (l : List (Fld × Nat)) : (s.wrs l).drc = s.drc := by
  unfold State.wrs; induction l generalizing s <;> simp_all
@[simp] theorem State.cores_wrs (l : List (Fld × Nat)) : (s.wrs l).cores = s.cores := by
  unfold State.wrs; induction l generalizing s <;> simp_all
@[simp] theorem State.disp_wrs (l : List (Fld × Nat)) : (s.wrs l).disp = s.disp := by
  unfold State.wrs; induction l generalizing s <;> simp_all
@[simp] theorem State.port_wrs (l : List (Fld × Nat)) : (s.wrs l).port = s.port := by
  unfold State.wrs; induction l generalizing s <;> simp_all
@[simp] theorem State.enum_wrs (l : List (Fld × Nat)) : (s.wrs l).enum = s.enum := by
  unfold State.wrs; induction l generalizing s <;> simp_all
@[simp] theorem State.time_wrs (l : List (Fld × Nat)) : (s.wrs l).time = s.time := by
  unfold State.wrs; induction l generalizing s <;> simp_all
@[simp] theorem State.region_wrs (l : List (Fld × Nat)) : (s.wrs l).region = s.region := by
  unfold State.wrs; induction l generalizing s <;> simp_all
@[simp] theorem State.dma_wrs (l : List (Fld × Nat)) : (s.wrs l).dma = s.dma := by
  unfold State.wrs; induction l generalizing s <;> simp_all
@[simp] theorem State.dmaNext_wrs (l : List (Fld × Nat)) : (s.wrs l).dmaNext = s.dmaNext := by
  unfold State.wrs; induction l generalizing s <;> simp_all
@[simp] theorem State.dmaStalled_wrs (l : List (Fld × Nat)) : (s.wrs l).dmaStalled = s.dmaStalled := by
  unfold State.wrs; induction l generalizing s <;> simp_all
@[simp] theorem State.mbox_wrs (l : List (Fld × Nat)) : (s.wrs l).mbox = s.mbox := by
  unfold State.wrs; induction l generalizing s <;> simp_all
@[simp] theorem State.remote_wrs (l : List (Fld × Nat)) : (s.wrs l).remote = s.remote := by
  unfold State.wrs; induction l generalizing s <;> simp_all
@[simp] theorem State.remoteTag_wrs (l : List (Fld × Nat)) : (s.wrs l).remoteTag = s.remoteTag := by
  unfold State.wrs; induction l generalizing s <;> simp_all
@[simp] theorem State.slots_wrs (l : List (Fld × Nat)) : (s.wrs l).slots = s.slots := by
  unfold State.wrs; induction l generalizing s <;> simp_all
@[simp] theorem State.ethLink_wrs (l : List (Fld × Nat)) : (s.wrs l).ethLink = s.ethLink := by
  unfold State.wrs; induction l generalizing s <;> simp_all
@[simp] theorem State.patch_wrs (l : List (Fld × Nat)) : (s.wrs l).patch = s.patch := by
  unfold State.wrs; induction l generalizing s <;> simp_all
@[simp] theorem State.patchLoading_wrs (l : List (Fld × Nat)) : (s.wrs l).patchLoading = s.patchLoading := by
  unfold State.wrs; induction l generalizing s <;> simp_all
@[simp] theorem State.hamper_wrs (l : List (Fld × Nat)) : (s.wrs l).hamper = s.hamper := by
  unfold State.wrs; induction l generalizing s <;> simp_all
@[simp] theorem State.press_wrs (l : List (Fld × Nat)) : (s.wrs l).press = s.press := by
  unfold State.wrs; induction l generalizing s <;> simp_all
@[simp] theorem State.bist_wrs (l : List (Fld × Nat)) : (s.wrs l).bist = s.bist := by
  unfold State.wrs; induction l generalizing s <;> simp_all
@[simp] theorem State.power_wrs (l : List (Fld × Nat)) : (s.wrs l).power = s.power := by
  unfold State.wrs; induction l generalizing s <;> simp_all
@[simp] theorem State.shadow_wrs (l : List (Fld × Nat)) : (s.wrs l).shadow = s.shadow := by
  unfold State.wrs; induction l generalizing s <;> simp_all
@[simp] theorem State.sumrx_wrs (l : List (Fld × Nat)) : (s.wrs l).sumrx = s.sumrx := by
  unfold State.wrs; induction l generalizing s <;> simp_all
@[simp] theorem State.busData_wrs (l : List (Fld × Nat)) : (s.wrs l).busData = s.busData := by
  unfold State.wrs; induction l generalizing s <;> simp_all
@[simp] theorem State.caps_wrs (l : List (Fld × Nat)) : (s.wrs l).caps = s.caps := by
  unfold State.wrs; induction l generalizing s <;> simp_all
@[simp] theorem State.busErr_wrs (l : List (Fld × Nat)) : (s.wrs l).busErr = s.busErr := by
  unfold State.wrs; induction l generalizing s <;> simp_all
@[simp] theorem State.ethHeld_wrs (l : List (Fld × Nat)) : (s.wrs l).ethHeld = s.ethHeld := by
  unfold State.wrs; induction l generalizing s <;> simp_all
@[simp] theorem State.free_wrs (l : List (Fld × Nat)) : (s.wrs l).free = s.free := by
  unfold State.wrs; induction l generalizing s <;> simp_all
@[simp] theorem State.clock_wrs (l : List (Fld × Nat)) : (s.wrs l).clock = s.clock := by
  unfold State.wrs; induction l generalizing s <;> simp_all
@[simp] theorem State.out_wrs (l : List (Fld × Nat)) : (s.wrs l).out = s.out := by
  unfold State.wrs; induction l generalizing s <;> simp_all

@[simp] theorem State.pending_addSat (x : Fld) (k : Nat) : (s.addSat x k).pending = s.pending := State.pending_wr s x _
@[simp] theorem State.mem_addSat (x : Fld) (k : Nat) : (s.addSat x k).mem = s.mem := State.mem_wr s x _
@[simp] theorem State.ready_addSat (x : Fld) (k : Nat) : (s.addSat x k).ready = s.ready := State.ready_wr s x _
@[simp] theorem State.wasReady_addSat (x : Fld) (k : Nat) : (s.addSat x k).wasReady = s.wasReady := State.wasReady_wr s x _
@[simp] theorem State.sl_addSat (x : Fld) (k : Nat) : (s.addSat x k).sl = s.sl := State.sl_wr s x _
@[simp] theorem State.scan_addSat (x : Fld) (k : Nat) : (s.addSat x k).scan = s.scan := State.scan_wr s x _
@[simp] theorem State.drc_addSat (x : Fld) (k : Nat) : (s.addSat x k).drc = s.drc := State.drc_wr s x _
@[simp] theorem State.cores_addSat (x : Fld) (k : Nat) : (s.addSat x k).cores = s.cores := State.cores_wr s x _
@[simp] theorem State.disp_addSat (x : Fld) (k : Nat) : (s.addSat x k).disp = s.disp := State.disp_wr s x _
@[simp] theorem State.port_addSat (x : Fld) (k : Nat) : (s.addSat x k).port = s.port := State.port_wr s x _
@[simp] theorem State.enum_addSat (x : Fld) (k : Nat) : (s.addSat x k).enum = s.enum := State.enum_wr s x _
@[simp] theorem State.time_addSat (x : Fld) (k : Nat) : (s.addSat x k).time = s.time := State.time_wr s x _
@[simp] theorem State.region_addSat (x : Fld) (k : Nat) : (s.addSat x k).region = s.region := State.region_wr s x _
@[simp] theorem State.dma_addSat (x : Fld) (k : Nat) : (s.addSat x k).dma = s.dma := State.dma_wr s x _
@[simp] theorem State.dmaNext_addSat (x : Fld) (k : Nat) : (s.addSat x k).dmaNext = s.dmaNext := State.dmaNext_wr s x _
@[simp] theorem State.dmaStalled_addSat (x : Fld) (k : Nat) : (s.addSat x k).dmaStalled = s.dmaStalled := State.dmaStalled_wr s x _
@[simp] theorem State.mbox_addSat (x : Fld) (k : Nat) : (s.addSat x k).mbox = s.mbox := State.mbox_wr s x _
@[simp] theorem State.remote_addSat (x : Fld) (k : Nat) : (s.addSat x k).remote = s.remote := State.remote_wr s x _
@[simp] theorem State.remoteTag_addSat (x : Fld) (k : Nat) : (s.addSat x k).remoteTag = s.remoteTag := State.remoteTag_wr s x _
@[simp] theorem State.slots_addSat (x : Fld) (k : Nat) : (s.addSat x k).slots = s.slots := State.slots_wr s x _
@[simp] theorem State.ethLink_addSat (x : Fld) (k : Nat) : (s.addSat x k).ethLink = s.ethLink := State.ethLink_wr s x _
@[simp] theorem State.patch_addSat (x : Fld) (k : Nat) : (s.addSat x k).patch = s.patch := State.patch_wr s x _
@[simp] theorem State.patchLoading_addSat (x : Fld) (k : Nat) : (s.addSat x k).patchLoading = s.patchLoading := State.patchLoading_wr s x _
@[simp] theorem State.hamper_addSat (x : Fld) (k : Nat) : (s.addSat x k).hamper = s.hamper := State.hamper_wr s x _
@[simp] theorem State.press_addSat (x : Fld) (k : Nat) : (s.addSat x k).press = s.press := State.press_wr s x _
@[simp] theorem State.bist_addSat (x : Fld) (k : Nat) : (s.addSat x k).bist = s.bist := State.bist_wr s x _
@[simp] theorem State.power_addSat (x : Fld) (k : Nat) : (s.addSat x k).power = s.power := State.power_wr s x _
@[simp] theorem State.shadow_addSat (x : Fld) (k : Nat) : (s.addSat x k).shadow = s.shadow := State.shadow_wr s x _
@[simp] theorem State.sumrx_addSat (x : Fld) (k : Nat) : (s.addSat x k).sumrx = s.sumrx := State.sumrx_wr s x _
@[simp] theorem State.busData_addSat (x : Fld) (k : Nat) : (s.addSat x k).busData = s.busData := State.busData_wr s x _
@[simp] theorem State.caps_addSat (x : Fld) (k : Nat) : (s.addSat x k).caps = s.caps := State.caps_wr s x _
@[simp] theorem State.busErr_addSat (x : Fld) (k : Nat) : (s.addSat x k).busErr = s.busErr := State.busErr_wr s x _
@[simp] theorem State.ethHeld_addSat (x : Fld) (k : Nat) : (s.addSat x k).ethHeld = s.ethHeld := State.ethHeld_wr s x _
@[simp] theorem State.free_addSat (x : Fld) (k : Nat) : (s.addSat x k).free = s.free := State.free_wr s x _
@[simp] theorem State.clock_addSat (x : Fld) (k : Nat) : (s.addSat x k).clock = s.clock := State.clock_wr s x _
@[simp] theorem State.out_addSat (x : Fld) (k : Nat) : (s.addSat x k).out = s.out := State.out_wr s x _
@[simp] theorem State.byte_wr (x : Fld) (v : Nat) (y : Nat) : (s.wr x v).byte y = s.byte y := by simp [State.byte]
@[simp] theorem State.isReady_wr (x : Fld) (v : Nat) (y : ReadyBit) : (s.wr x v).isReady y = s.isReady y := by simp [State.isReady]
@[simp] theorem State.byte_wrs (l : List (Fld × Nat)) (y : Nat) : (s.wrs l).byte y = s.byte y := by simp [State.byte]
@[simp] theorem State.isReady_wrs (l : List (Fld × Nat)) (y : ReadyBit) : (s.wrs l).isReady y = s.isReady y := by simp [State.isReady]
@[simp] theorem State.byte_addSat (x : Fld) (k : Nat) (y : Nat) : (s.addSat x k).byte y = s.byte y := by simp [State.byte]
@[simp] theorem State.isReady_addSat (x : Fld) (k : Nat) (y : ReadyBit) : (s.addSat x k).isReady y = s.isReady y := by simp [State.isReady]

end Sys2Proof.Machine
end

