-- ==== Sys2Proof/Laws/Frame.lean ====
section
/-! SUPPORT. Frames: which register fields an operation leaves as they were, and equality of states field by field. -/

namespace Sys2Proof.Machine

open Sys2Proof

theorem State.rd_wr_of_apart (s : State) (f g : Fld) (v : Nat) (h : f.lo + f.w ≤ 64) (k : f.Apart g) :
    (s.wr f v).rd g = s.rd g := by
  rcases k with k | ⟨e, k⟩
  · exact State.rd_wr_ne s f g v k
  · exact State.rd_wr_apart s f g v e h k

theorem OnlyFlds.refl (s : State) (fs : List Fld) : OnlyFlds s s fs := fun _ _ => rfl

theorem OnlyFlds.trans {s t u : State} {fs : List Fld} (h : OnlyFlds s t fs) (k : OnlyFlds t u fs) : OnlyFlds s u fs :=
  fun g hg => (k g hg).trans (h g hg)

/-- A longer list says less. -/
theorem OnlyFlds.mono {s t : State} {fs gs : List Fld} (h : OnlyFlds s t fs) (k : ∀ f ∈ fs, f ∈ gs) : OnlyFlds s t gs :=
  fun g hg => h g fun f hf => hg f (k f hf)

/-- A field of the list may be written. -/
theorem OnlyFlds.wr {s t : State} {fs : List Fld} (h : OnlyFlds s t fs) {f : Fld} (v : Nat) (hf : f ∈ fs)
    (hw : f.lo + f.w ≤ 64) : OnlyFlds s (t.wr f v) fs :=
  h.trans fun g hg => State.rd_wr_of_apart t f g v hw (hg f hf)

theorem OnlyFlds.addSat {s t : State} {fs : List Fld} (h : OnlyFlds s t fs) {f : Fld} (k : Nat) (hf : f ∈ fs)
    (hw : f.lo + f.w ≤ 64) : OnlyFlds s (t.addSat f k) fs := h.wr _ hf hw

theorem OnlyFlds.wrs {s t : State} {fs : List Fld} (h : OnlyFlds s t fs) (l : List (Fld × Nat))
    (hl : ∀ e ∈ l, e.1 ∈ fs ∧ e.1.lo + e.1.w ≤ 64) : OnlyFlds s (t.wrs l) fs := by
  unfold State.wrs
  induction l generalizing t with
  | nil => exact h
  | cons e l ih => exact ih (h.wr e.2 (hl e (by simp)).1 (hl e (by simp)).2) fun x hx => hl x (by simp [hx])

/-- An update of anything but the register words. -/
theorem OnlyFlds.of_regs {s t u : State} {fs : List Fld} (h : OnlyFlds s t fs) (e : u.regs = t.regs) : OnlyFlds s u fs :=
  h.trans fun g _ => State.rd_congr fun a _ => by rw [State.reg, State.reg, e]

theorem OnlyFlds.setReg {s t : State} {fs : List Fld} (h : OnlyFlds s t fs) (a : Nat) (v : Word) (hf : wordFld a ∈ fs) :
    OnlyFlds s (t.setReg a v) fs :=
  h.trans fun g hg => by
    rcases hg _ hf with k | ⟨e, k⟩
    · refine State.rd_congr fun b hb => State.reg_setReg_ne _ (fun e => ?_) _
      exact k b hb (by simp [Fld.words, e])
    · have : 32 ≤ g.lo ∨ g.w = 0 := by simp at k; omega
      rcases this with k | k
      · exact State.rd_congr fun b hb => State.reg_setReg_ne _ (by simp [Fld.words, k] at hb; simp at e; omega) _
      · have z : ∀ x : State, x.rd g = 0 := fun x => by have := State.rd_lt x g; simp [k] at this; exact this
        rw [z, z]

/-- Steps over a list of units, each of which leaves the other fields as they were. -/
theorem OnlyFlds.each {s t : State} {fs : List Fld} {α : Type} {l : List α} {f : α → State → State}
    (h : OnlyFlds s t fs) (hf : ∀ a ∈ l, ∀ u, OnlyFlds u (f a u) fs) : OnlyFlds s (t.each l f) fs := by
  unfold State.each
  induction l generalizing t with
  | nil => exact h
  | cons a l ih => exact ih (h.trans (hf a (by simp) t)) fun b hb => hf b (by simp [hb])

/-- Two states are equal when every part is. -/
theorem State.eq_iff {s t : State} : s = t ↔ s.pending = t.pending ∧ s.regs = t.regs ∧ s.mem = t.mem ∧ s.ready = t.ready ∧
    s.wasReady = t.wasReady ∧ s.caps = t.caps ∧ s.sl = t.sl ∧ s.scan = t.scan ∧ s.drc = t.drc ∧ s.cores = t.cores ∧ s.disp = t.disp ∧ s.port = t.port ∧
    s.enum = t.enum ∧ s.time = t.time ∧ s.region = t.region ∧ s.dma = t.dma ∧ s.dmaNext = t.dmaNext ∧
    s.dmaStalled = t.dmaStalled ∧ s.mbox = t.mbox ∧ s.remote = t.remote ∧ s.remoteTag = t.remoteTag ∧
    s.slots = t.slots ∧ s.ethLink = t.ethLink ∧ s.patch = t.patch ∧ s.patchLoading = t.patchLoading ∧
    s.hamper = t.hamper ∧ s.press = t.press ∧ s.bist = t.bist ∧ s.power = t.power ∧ s.shadow = t.shadow ∧
    s.sumrx = t.sumrx ∧ s.busData = t.busData ∧ s.busErr = t.busErr ∧ s.ethHeld = t.ethHeld ∧
    s.free = t.free ∧ s.clock = t.clock ∧ s.out = t.out := by
  cases s; cases t; simp only [State.mk.injEq]

/-- A write that reaches its register does what the register does. -/
theorem State.regWrite_reaches {s : State} {ini : Initiator} {r : Reg} {ix : List Nat} (h : Reaches s ini r ix) (p : Part)
    (v : DWord) : s.regWrite ini r ix p v = s.regAct ini (ownCopy ini r ix).1 (ownCopy ini r ix).2 p v := by
  obtain ⟨h1, h2, h3⟩ := h
  simp [State.regWrite, h1, h2, h3]

end Sys2Proof.Machine
end

