-- ==== Sys2Proof/Laws/Keep.lean ====
section
/-! SUPPORT. What every operation keeps: the canonical forms of the register words and of pattern memory, and the queue. One
lemma says it of each shared operation; the files beside this one say it of every unit's operations. -/

namespace Sys2Proof.Machine

open Sys2Proof

/-- Register words that are canonical where those of s are. -/
def KeepR (s : State) (m : RegFile) : Prop := RegFile.wf s.regs → RegFile.wf m

/-- Pattern memory that is canonical where that of s is. -/
def KeepM (s : State) (m : List Host.Cell) : Prop := Memory.wf s.mem → Memory.wf m

/-- t has the queue of s, and is in canonical form where s is. -/
structure Keep (s t : State) : Prop where
  regs : KeepR s t.regs
  mem : KeepM s t.mem
  queue : t.pending = s.pending

theorem Keep.refl (s : State) : Keep s s := ⟨id, id, rfl⟩

theorem Keep.trans {s t u : State} (h : Keep s t) (k : Keep t u) : Keep s u :=
  ⟨fun w => k.regs (h.regs w), fun w => k.mem (h.mem w), k.queue.trans h.queue⟩

theorem Keep.inv {s t : State} (h : Keep s t) (i : s.Inv) : t.Inv := ⟨h.mem i.1, h.regs i.2⟩

@[simp] theorem keep_mk {s : State}
    {x1 x2 x3 x4 x5 x6 x7 x8 x9 x10 x11 x12 x13 x14 x15 x16 x17 x18 x19 x20 x21 x22 x23 x24 x25 x26 x27 x28 x29 x30 x31 x32 x33 x34
      x35 x36 x37} :
    Keep s ⟨x1, x2, x3, x4, x5, x6, x7, x8, x9, x10, x11, x12, x13, x14, x15, x16, x17,
      x18, x19, x20, x21, x22, x23, x24, x25, x26, x27, x28, x29, x30, x31, x32, x33, x34, x35, x36, x37⟩ ↔ KeepR s x2 ∧ KeepM s x3 ∧ x1 = s.pending :=
  ⟨fun k => ⟨k.1, k.2, k.3⟩, fun k => ⟨k.1, k.2.1, k.2.2⟩⟩

@[simp] theorem keepR_of {s t : State} (h : Keep s t) : KeepR s t.regs := h.regs
@[simp] theorem keepM_of {s t : State} (h : Keep s t) : KeepM s t.mem := h.mem
@[simp] theorem keep_queue {s t : State} (h : Keep s t) : (t.pending = s.pending) = True := eq_true h.queue

theorem keep_each {s t : State} {α : Type} {l : List α} {f : α → State → State}
    (hf : ∀ a u, Keep s u → Keep s (f a u)) (h : Keep s t) : Keep s (t.each l f) := by
  unfold State.each
  induction l generalizing t with
  | nil => exact h
  | cons a l ih => exact ih (hf a t h)

theorem keep_foldl {s t : State} {α : Type} {l : List α} {f : State → α → State}
    (hf : ∀ u a, Keep s u → Keep s (f u a)) (h : Keep s t) : Keep s (l.foldl f t) := by
  induction l generalizing t with
  | nil => exact h
  | cons a l ih => exact ih (hf t a h)

theorem keep_ite {s t u : State} {c : Prop} [Decidable c] (h : Keep s t) (k : Keep s u) : Keep s (if c then t else u) := by
  split <;> assumption

@[simp] theorem keep_setReg {s t : State} {a : Nat} {v : Word} (h : Keep s t) : Keep s (t.setReg a v) :=
  ⟨fun w => RegFile.put_wf (h.regs w) a v, h.mem, h.queue⟩

@[simp] theorem keep_wr {s t : State} {f : Fld} {v : Nat} (h : Keep s t) : Keep s (t.wr f v) := by
  unfold State.wr
  split
  · simp [h]
  · split <;> simp [h]

@[simp] theorem keep_wrs {s t : State} {l : List (Fld × Nat)} (h : Keep s t) : Keep s (t.wrs l) :=
  keep_foldl (fun _ _ k => keep_wr k) h

@[simp] theorem keep_addSat {s t : State} {f : Fld} {k : Nat} (h : Keep s t) : Keep s (t.addSat f k) := keep_wr h

@[simp] theorem keep_resetRegs {s t : State} {p : Nat → Bool} (h : Keep s t) : Keep s (t.resetRegs p) :=
  ⟨fun w => RegFile.filter_wf (h.regs w) _, h.mem, h.queue⟩

theorem RegFile.filterMap_wf {m : RegFile} (p : Nat → Bool) (f : Word → Word) (h : RegFile.wf m) :
    RegFile.wf (m.filterMap fun e =>
      bif p e.1 then (if f e.2 = resetWord e.1 then none else some (e.1, f e.2)) else some e) := by
  have key : ∀ e x : Nat × Word, (bif p e.1 then (if f e.2 = resetWord e.1 then none else some (e.1, f e.2)) else some e) =
      some x → x.1 = e.1 ∧ (x.2 ≠ resetWord x.1 ∨ x = e) := by
    intro e x hx
    cases hp : p e.1
    · simp [hp] at hx; subst hx; simp
    · simp only [hp, cond_true] at hx
      split at hx
      · cases hx
      · simp only [Option.some.injEq] at hx; subst hx; exact ⟨rfl, .inl ‹_›⟩
  constructor
  · rw [List.pairwise_filterMap]
    exact h.1.imp fun {a b} hab x hx y hy => by rw [(key a x hx).1, (key b y hy).1]; exact hab
  · intro x hx
    obtain ⟨e, he, hx⟩ := List.mem_filterMap.1 hx
    rcases (key e x hx).2 with k | rfl
    · exact k
    · exact h.2 x he

@[simp] theorem keep_mapRegs {s t : State} {p : Nat → Bool} {f : Word → Word} (h : Keep s t) : Keep s (t.mapRegs p f) :=
  ⟨fun w => RegFile.filterMap_wf p f (h.regs w), h.mem, h.queue⟩

@[simp] theorem keep_store {s t : State} {a : Nat} {bs : List Byte} (h : Keep s t) : Keep s (t.store a bs) :=
  ⟨h.regs, fun w => Memory.putAll_wf (h.mem w) a bs, h.queue⟩

@[simp] theorem keep_modSl {s t : State} {n : Fin 8} {f : Slice → Slice} (h : Keep s t) : Keep s (t.modSl n f) := ⟨h.1, h.2, h.3⟩
@[simp] theorem keep_modSeq {s t : State} {n : Fin 8} {f : Seq → Seq} (h : Keep s t) : Keep s (t.modSeq n f) := ⟨h.1, h.2, h.3⟩
@[simp] theorem keep_modScan {s t : State} {u : Fin 4} {f : Scan → Scan} (h : Keep s t) : Keep s (t.modScan u f) := ⟨h.1, h.2, h.3⟩
@[simp] theorem keep_modCore {s t : State} {c : Fin 8} {f : CoreSt → CoreSt} (h : Keep s t) : Keep s (t.modCore c f) :=
  ⟨h.1, h.2, h.3⟩
@[simp] theorem keep_modPort {s t : State} {p : Fin 4} {f : Port → Port} (h : Keep s t) : Keep s (t.modPort p f) := ⟨h.1, h.2, h.3⟩
@[simp] theorem keep_modDrc {s t : State} {f : Drc → Drc} (h : Keep s t) : Keep s (t.modDrc f) := ⟨h.1, h.2, h.3⟩
@[simp] theorem keep_modTime {s t : State} {f : Time → Time} (h : Keep s t) : Keep s (t.modTime f) := ⟨h.1, h.2, h.3⟩
@[simp] theorem keep_modEnum {s t : State} {f : Enum → Enum} (h : Keep s t) : Keep s (t.modEnum f) := ⟨h.1, h.2, h.3⟩
@[simp] theorem keep_modPower {s t : State} {f : Power → Power} (h : Keep s t) : Keep s (t.modPower f) := ⟨h.1, h.2, h.3⟩
@[simp] theorem keep_emit {s t : State} {e : OutEvent} (h : Keep s t) : Keep s (t.emit e) := ⟨h.1, h.2, h.3⟩
@[simp] theorem keep_setReady {s t : State} {b : ReadyBit} {v : Bool} (h : Keep s t) : Keep s (t.setReady b v) := ⟨h.1, h.2, h.3⟩

@[simp] theorem keep_freeVal {s t : State} (h : Keep s t) : Keep s t.freeVal.2 := ⟨h.1, h.2, h.3⟩

theorem keep_id {s t : State} (h : Keep s t) : Keep s (id t) := h

theorem keepR_filter {s : State} {m : RegFile} {p : Nat × Word → Bool} (h : KeepR s m) : KeepR s (m.filter p) :=
  fun w => RegFile.filter_wf (h w) p

theorem keepM_filter {s : State} {m : List Host.Cell} {p : Host.Cell → Bool} (h : KeepM s m) : KeepM s (m.filter p) :=
  fun w => ⟨(h w).1.filter p, fun e he => (h w).2 e (List.mem_filter.1 he).1⟩

theorem keepM_nil {s : State} : KeepM s [] := fun _ => ⟨List.Pairwise.nil, by simp⟩

theorem keep_snd {s v : State} {α : Type} {p : α × State} {a : α} (e : p = (a, v)) (h : Keep s p.2) : Keep s v := by
  rw [e] at h; exact h

/-- The next state of an outcome, where it has one. -/
def KeepO (s : State) (o : Host.Outcome State Fault Refusal) : Prop := ∃ t, o = .next t ∧ Keep s t

@[simp] theorem keepO_next {s t : State} (h : Keep s t) : KeepO s (.next t) := ⟨t, rfl, h⟩

end Sys2Proof.Machine
end

