-- ==== Sys2Proof/Laws/KeepOps.lean ====
section
/-! SUPPORT. What the operations of Machine/Ops.lean keep. -/

namespace Sys2Proof.Machine

open Sys2Proof

theorem keep_whenAwake {s t : State} {f : State → State} (hf : ∀ x0, Keep s x0 → Keep s (f x0)) (h : Keep s t) :
    Keep s (State.whenAwake t f) := by
  unfold State.whenAwake
  repeat' first
    | with_reducible assumption | with_reducible refine hf _ ?_ | split | (simp only [keep_mk]; refine ⟨?_, ?_, ?_⟩)
    | with_reducible refine keepR_of ?_ | with_reducible refine keepM_of ?_ | with_reducible refine Keep.queue ?_
    | with_reducible refine keep_snd ‹_› ?_

theorem keep_dropReady {s t : State} {b : ReadyBit} (h : Keep s t) :
    Keep s (State.dropReady t b) := by
  unfold State.dropReady; dsimp only
  repeat' first
    | with_reducible assumption | with_reducible refine keep_each (fun _ _ _ => ?_) ?_
    | with_reducible refine keep_setReady ?_ | split | (simp only [keep_mk]; refine ⟨?_, ?_, ?_⟩)
    | with_reducible refine keepR_of ?_ | with_reducible refine keepM_of ?_ | with_reducible refine Keep.queue ?_

theorem keep_accErrAt {s t : State} {i : Nat} {b : AccBit} {space : Bool} {addr : Nat} (h : Keep s t) :
    Keep s (State.accErrAt t i b space addr) := by
  unfold State.accErrAt; dsimp only
  repeat' first
    | with_reducible assumption | with_reducible refine keep_wr ?_ | with_reducible refine keep_wrs ?_ | split

theorem keep_accErr {s t : State} {ini : Initiator} {b : AccBit} {addr : Nat} (h : Keep s t) :
    Keep s (State.accErr t ini b addr) := by
  unfold State.accErr
  repeat' first
    | with_reducible assumption | with_reducible refine keep_accErrAt ?_

end Sys2Proof.Machine
end

