-- ==== Sys2Proof/Laws/KeepReport.lean ====
section
/-! SUPPORT. What the operations of Machine/Report.lean keep. -/

namespace Sys2Proof.Machine

open Sys2Proof

theorem keep_msix {s t : State} {owner : Fin 8} {v : Nat} (h : Keep s t) :
    Keep s (State.msix t owner v) := by
  unfold State.msix; dsimp only
  repeat' first
    | with_reducible assumption | with_reducible refine keep_emit ?_ | split

theorem keep_irqAll {s t : State} {bit : Nat} (h : Keep s t) :
    Keep s (State.irqAll t bit) := by
  unfold State.irqAll
  repeat' first
    | with_reducible assumption | with_reducible refine keep_each (fun _ _ _ => ?_) ?_ | with_reducible refine keep_wr ?_

theorem keep_hbmRefuse {s t : State} {who : HbmBy} {a : Nat} (h : Keep s t) :
    Keep s (State.hbmRefuse t who a) := by
  unfold State.hbmRefuse
  repeat' first
    | with_reducible assumption | with_reducible refine keep_accErrAt ?_

theorem keep_postRecord {s t : State} {r : HRec} (h : Keep s t) :
    Keep s (State.postRecord t r) := by
  unfold State.postRecord; dsimp only
  repeat' first
    | with_reducible assumption | with_reducible refine keep_wr ?_ | with_reducible refine keep_addSat ?_
    | with_reducible refine keep_emit ?_ | with_reducible refine keep_msix ?_ | with_reducible refine keep_irqAll ?_ | split
    | (simp only [keep_mk]; refine ⟨?_, ?_, ?_⟩) | with_reducible refine keepR_of ?_ | with_reducible refine keepM_of ?_
    | with_reducible refine Keep.queue ?_

theorem keep_report {s t : State} {src : Nat} {detail : DWord} {hold : Bool} {wire : Bool} (h : Keep s t) :
    Keep s (State.report t src detail hold wire) := by
  unfold State.report; dsimp only
  repeat' first
    | with_reducible assumption | with_reducible refine keep_wr ?_ | with_reducible refine keep_addSat ?_
    | with_reducible refine keep_postRecord ?_ | split | with_reducible refine keep_snd ‹_› ?_
    | (simp only [keep_mk]; refine ⟨?_, ?_, ?_⟩) | with_reducible refine keepR_of ?_ | with_reducible refine keepM_of ?_
    | with_reducible refine Keep.queue ?_

theorem keep_reportUnit {s t : State} {u1 : ErrUnit} {detail : DWord} (h : Keep s t) :
    Keep s (State.reportUnit t u1 detail) := by
  unfold State.reportUnit
  repeat' first
    | with_reducible assumption | with_reducible refine keep_report ?_

end Sys2Proof.Machine
end

