-- ==== Sys2Proof/Laws/KeepSlices.lean ====
section
/-! SUPPORT. What the operations of Machine/Slices.lean keep. -/

namespace Sys2Proof.Machine

open Sys2Proof

theorem keep_modSeqs {s t : State} {n : Fin 8} {f : Seq → Seq} (h : Keep s t) :
    Keep s (State.modSeqs t n f) := by
  unfold State.modSeqs
  repeat' first
    | with_reducible assumption | with_reducible refine keep_each (fun _ _ _ => ?_) ?_
    | with_reducible refine keep_modSeq ?_ | split | (simp only [keep_mk]; refine ⟨?_, ?_, ?_⟩)
    | with_reducible refine keepR_of ?_ | with_reducible refine keepM_of ?_ | with_reducible refine Keep.queue ?_
    | with_reducible refine keep_snd ‹_› ?_

theorem keep_rejectRegs {s t : State} {n : Fin 8} {why : Reason} {m : Fin 8} {v : Nat} (h : Keep s t) :
    Keep s (State.rejectRegs t n why m v) := by
  unfold State.rejectRegs; dsimp only
  repeat' first
    | with_reducible assumption | with_reducible refine keep_wrs ?_ | with_reducible refine keep_msix ?_
    | with_reducible refine keep_irqAll ?_

theorem keep_endCheck {s t : State} {recv : Fin 8} (h : Keep s t) :
    Keep s (State.endCheck t recv) := by
  unfold State.endCheck
  repeat' first
    | with_reducible assumption | with_reducible refine keep_each (fun _ _ _ => ?_) ?_ | with_reducible refine keep_modSl ?_
    | split | (simp only [keep_mk]; refine ⟨?_, ?_, ?_⟩) | with_reducible refine keepR_of ?_
    | with_reducible refine keepM_of ?_ | with_reducible refine Keep.queue ?_

theorem keep_rejectCheck {s t : State} {n : Fin 8} {why : Reason} (h : Keep s t) :
    Keep s (State.rejectCheck t n why) := by
  unfold State.rejectCheck
  repeat' first
    | with_reducible assumption | with_reducible refine keep_rejectRegs ?_ | with_reducible refine keep_endCheck ?_ | split

theorem keep_rinsed {s t : State} {kind : Nat} {inst : Nat} (h : Keep s t) :
    Keep s (State.rinsed t kind inst) := by
  unfold State.rinsed; dsimp only
  repeat' first
    | with_reducible assumption | with_reducible refine keep_modSl ?_ | with_reducible refine keep_modScan ?_
    | with_reducible refine keep_modPort ?_ | split | (simp only [keep_mk]; refine ⟨?_, ?_, ?_⟩)
    | with_reducible refine keepR_of ?_ | with_reducible refine keepM_of ?_ | with_reducible refine Keep.queue ?_
    | with_reducible refine keep_snd ‹_› ?_

theorem keep_abandonRinse {s t : State} {kinds : List Nat} {inst : Nat} (h : Keep s t) :
    Keep s (State.abandonRinse t kinds inst) := by
  unfold State.abandonRinse; dsimp only
  repeat' first
    | with_reducible assumption | with_reducible refine keep_wrs ?_ | with_reducible refine keep_rinsed ?_ | split
    | (simp only [keep_mk]; refine ⟨?_, ?_, ?_⟩) | with_reducible refine keepR_of ?_
    | with_reducible refine keepM_of ?_ | with_reducible refine Keep.queue ?_
    | with_reducible refine keep_snd ‹_› ?_

theorem keep_postAdc {s t : State} {n : Fin 8} {r : DWord} (h : Keep s t) :
    Keep s (State.postAdc t n r) := by
  unfold State.postAdc
  repeat' first
    | with_reducible assumption | with_reducible refine keep_wr ?_ | with_reducible refine keep_modSl ?_ | split
    | (simp only [keep_mk]; refine ⟨?_, ?_, ?_⟩) | with_reducible refine keepR_of ?_ | with_reducible refine keepM_of ?_
    | with_reducible refine Keep.queue ?_

theorem keep_endTdc {s t : State} {n : Fin 8} {timeout : Bool} {cancel : Bool} {time : Nat} (h : Keep s t) :
    Keep s (State.endTdc t n timeout cancel time) := by
  unfold State.endTdc; dsimp only
  repeat' first
    | with_reducible assumption | with_reducible refine keep_wr ?_ | with_reducible refine keep_modSl ?_
    | with_reducible refine keep_freeVal ?_ | split | (simp only [keep_mk]; refine ⟨?_, ?_, ?_⟩)
    | with_reducible refine keepR_of ?_ | with_reducible refine keepM_of ?_ | with_reducible refine Keep.queue ?_

theorem keep_abandonAdc {s t : State} {n : Fin 8} (h : Keep s t) :
    Keep s (State.abandonAdc t n) := by
  unfold State.abandonAdc; dsimp only
  repeat' first
    | with_reducible assumption | with_reducible refine keep_modSl ?_ | with_reducible refine keep_freeVal ?_
    | with_reducible refine keep_postAdc ?_ | split | (simp only [keep_mk]; refine ⟨?_, ?_, ?_⟩)
    | with_reducible refine keepR_of ?_ | with_reducible refine keepM_of ?_ | with_reducible refine Keep.queue ?_

theorem keep_abandonPress {s t : State} {n : Fin 8} (h : Keep s t) :
    Keep s (State.abandonPress t n) := by
  unfold State.abandonPress; dsimp only
  repeat' first
    | with_reducible assumption | with_reducible refine keep_wrs ?_ | split | (simp only [keep_mk]; refine ⟨?_, ?_, ?_⟩)
    | with_reducible refine keepR_of ?_ | with_reducible refine keepM_of ?_ | with_reducible refine Keep.queue ?_

theorem keep_safeRegs {s t : State} {n : Fin 8} (h : Keep s t) :
    Keep s (State.safeRegs t n) := by
  unfold State.safeRegs; dsimp only
  repeat' first
    | with_reducible assumption | with_reducible refine keep_resetRegs ?_ | with_reducible refine keep_mapRegs ?_

theorem keep_takeSafe {s t : State} {n : Fin 8} (h : Keep s t) :
    Keep s (State.takeSafe t n) := by
  unfold State.takeSafe; dsimp only
  repeat' first
    | with_reducible assumption | with_reducible refine keep_modSl ?_ | with_reducible refine keep_endTdc ?_
    | with_reducible refine keep_abandonAdc ?_ | with_reducible refine keep_abandonPress ?_
    | with_reducible refine keep_safeRegs ?_ | split | (simp only [keep_mk]; refine ⟨?_, ?_, ?_⟩)
    | with_reducible refine keepR_of ?_ | with_reducible refine keepM_of ?_ | with_reducible refine Keep.queue ?_

theorem keep_finish {s t : State} {n : Fin 8} {cause : Cause} (h : Keep s t) :
    Keep s (State.finish t n cause) := by
  unfold State.finish; dsimp only
  repeat' first
    | with_reducible assumption | with_reducible refine keep_each (fun _ _ _ => ?_) ?_
    | with_reducible refine keep_wr ?_ | with_reducible refine keep_modSl ?_ | with_reducible refine keep_msix ?_
    | with_reducible refine keep_irqAll ?_ | with_reducible refine keepR_filter ?_ | split
    | (simp only [keep_mk]; refine ⟨?_, ?_, ?_⟩) | with_reducible refine keepR_of ?_
    | with_reducible refine keepM_of ?_ | with_reducible refine Keep.queue ?_
    | with_reducible refine keep_snd ‹_› ?_

theorem keep_finishSafe {s t : State} {n : Fin 8} {cause : Cause} {why : Reason} (h : Keep s t) :
    Keep s (State.finishSafe t n cause why) := by
  unfold State.finishSafe; dsimp only
  repeat' first
    | with_reducible assumption | with_reducible refine keep_each (fun _ _ _ => ?_) ?_ | with_reducible refine keep_modSl ?_
    | with_reducible refine keep_rejectCheck ?_ | with_reducible refine keep_takeSafe ?_
    | with_reducible refine keep_finish ?_ | (simp only [keep_mk]; refine ⟨?_, ?_, ?_⟩) | with_reducible refine keepR_of ?_
    | with_reducible refine keepM_of ?_ | with_reducible refine Keep.queue ?_

theorem keep_containedSl {s t : State} {n : Fin 8} (h : Keep s t) :
    Keep s (State.containedSl t n) := by
  unfold State.containedSl
  repeat' first
    | with_reducible assumption | with_reducible refine keep_finishSafe ?_

theorem keep_stackLost {s t : State} {k : Fin 2} (h : Keep s t) :
    Keep s (State.stackLost t k) := by
  unfold State.stackLost
  repeat' first
    | with_reducible assumption | with_reducible refine keep_dropReady ?_ | with_reducible refine keep_modDrc ?_
    | with_reducible refine keep_modPower ?_ | split | (simp only [keep_mk]; refine ⟨?_, ?_, ?_⟩)
    | with_reducible refine keepR_of ?_ | with_reducible refine keepM_of ?_ | with_reducible refine Keep.queue ?_
    | with_reducible refine keep_snd ‹_› ?_

theorem keep_fatalNow {s t : State} {lost : MemLoss} (h : Keep s t) :
    Keep s (State.fatalNow t lost) := by
  unfold State.fatalNow; dsimp only
  repeat' first
    | with_reducible assumption | with_reducible refine keep_each (fun _ _ _ => ?_) ?_
    | with_reducible refine keep_finishSafe ?_ | with_reducible refine keep_modSl ?_
    | with_reducible refine keep_modDrc ?_ | with_reducible refine keep_stackLost ?_
    | with_reducible refine keep_setReady ?_ | with_reducible refine keep_modPower ?_
    | with_reducible refine keep_emit ?_ | split | (simp only [keep_mk]; refine ⟨?_, ?_, ?_⟩)
    | with_reducible refine keepR_of ?_ | with_reducible refine keepM_of ?_ | with_reducible refine Keep.queue ?_
    | with_reducible refine keep_snd ‹_› ?_

theorem keep_raiseExc {s t : State} {n : Fin 8} {origin : Fin 8} {exc : Nat} {sub : Nat} {seg : Nat} {off : Nat} {vec : Nat} {word : DWord}
    (h : Keep s t) :
    Keep s (State.raiseExc t n origin exc sub seg off vec word) := by
  unfold State.raiseExc; dsimp only
  repeat' first
    | with_reducible assumption | with_reducible refine keep_modSeqs ?_
    | with_reducible refine keep_each (fun _ _ _ => ?_) ?_ | with_reducible refine keep_addSat ?_
    | with_reducible refine keep_wrs ?_ | split | (simp only [keep_mk]; refine ⟨?_, ?_, ?_⟩)
    | with_reducible refine keepR_of ?_ | with_reducible refine keepM_of ?_ | with_reducible refine Keep.queue ?_
    | with_reducible refine keep_snd ‹_› ?_

theorem keep_dueEcc {s t : State} {l : Fin 8} (h : Keep s t) :
    Keep s (State.dueEcc t l) := by
  unfold State.dueEcc; dsimp only
  repeat' first
    | with_reducible assumption | with_reducible refine keep_modSeqs ?_
    | with_reducible refine keep_each (fun _ _ _ => ?_) ?_ | with_reducible refine keep_modSl ?_
    | with_reducible refine keep_raiseExc ?_ | with_reducible refine keepR_filter ?_ | split
    | (simp only [keep_mk]; refine ⟨?_, ?_, ?_⟩) | with_reducible refine keepR_of ?_
    | with_reducible refine keepM_of ?_ | with_reducible refine Keep.queue ?_
    | with_reducible refine keep_snd ‹_› ?_

theorem keep_endHere {s t : State} {l : Fin 8} {cause : Cause} (h : Keep s t) :
    Keep s (State.endHere t l cause) := by
  unfold State.endHere
  repeat' first
    | with_reducible assumption | with_reducible refine keep_dueEcc ?_ | with_reducible refine keep_finish ?_
    | split | (simp only [keep_mk]; refine ⟨?_, ?_, ?_⟩) | with_reducible refine keepR_of ?_
    | with_reducible refine keepM_of ?_ | with_reducible refine Keep.queue ?_
    | with_reducible refine keep_snd ‹_› ?_

theorem keep_trySlReady {s t : State} {n : Fin 8} (h : Keep s t) :
    Keep s (State.trySlReady t n) := by
  unfold State.trySlReady; dsimp only
  repeat' first
    | with_reducible assumption | with_reducible refine keep_setReady ?_ | split

end Sys2Proof.Machine
end

