-- ==== Sys2Proof/Laws/KeepEscalation.lean ====
section
/-! SUPPORT. What the operations of Machine/Escalation.lean keep. -/

namespace Sys2Proof.Machine

open Sys2Proof

theorem keep_judgePanic {s t : State} (h : Keep s t) :
    Keep s (State.judgePanic t) := by
  unfold State.judgePanic
  repeat' first
    | with_reducible assumption | with_reducible refine keep_modDrc ?_ | with_reducible refine keep_wr ?_
    | with_reducible refine keep_reportUnit ?_ | split | (simp only [keep_mk]; refine ⟨?_, ?_, ?_⟩)
    | with_reducible refine keepR_of ?_ | with_reducible refine keepM_of ?_ | with_reducible refine Keep.queue ?_
    | with_reducible refine keep_snd ‹_› ?_

theorem keep_samplePanic {s t : State} (h : Keep s t) :
    Keep s (State.samplePanic t) := by
  unfold State.samplePanic; dsimp only
  repeat' first
    | with_reducible assumption | with_reducible refine keep_addSat ?_ | with_reducible refine keep_modDrc ?_
    | with_reducible refine keep_judgePanic ?_ | with_reducible refine keep_wr ?_ | split
    | (simp only [keep_mk]; refine ⟨?_, ?_, ?_⟩) | with_reducible refine keepR_of ?_
    | with_reducible refine keepM_of ?_ | with_reducible refine Keep.queue ?_
    | with_reducible refine keep_snd ‹_› ?_

end Sys2Proof.Machine
end

