-- ==== Sys2Proof/Laws/KeepAdmission.lean ====
section
/-! SUPPORT. What the operations of Machine/Admission.lean keep. -/

namespace Sys2Proof.Machine

open Sys2Proof

theorem keep_acceptRegs {s t : State} {m : Fin 8} {bytes : Nat} {ovr : Bool} (h : Keep s t) :
    Keep s (State.acceptRegs t m bytes ovr) := by
  unfold State.acceptRegs; dsimp only
  repeat' first
    | with_reducible assumption | with_reducible refine keep_wrs ?_ | with_reducible refine keep_resetRegs ?_ | split

theorem keep_accept {s t : State} {c : Check} (h : Keep s t) :
    Keep s (State.accept t c) := by
  unfold State.accept; dsimp only
  repeat' first
    | with_reducible assumption | with_reducible refine keep_each (fun _ _ _ => ?_) ?_ | with_reducible refine keep_modSl ?_
    | with_reducible refine keep_acceptRegs ?_ | split | (simp only [keep_mk]; refine ⟨?_, ?_, ?_⟩)
    | with_reducible refine keepR_of ?_ | with_reducible refine keepM_of ?_ | with_reducible refine Keep.queue ?_

theorem keep_opStart {s t : State} {n : Fin 8} {ovrQueue : Bool} {ovrCal : Bool} (h : Keep s t) :
    Keep s (State.opStart t n ovrQueue ovrCal) := by
  unfold State.opStart; dsimp only
  repeat' first
    | with_reducible assumption | with_reducible refine keep_each (fun _ _ _ => ?_) ?_ | with_reducible refine keep_modSl ?_
    | with_reducible refine keep_rejectRegs ?_ | with_reducible refine keep_abandonRinse ?_ | split
    | (simp only [keep_mk]; refine ⟨?_, ?_, ?_⟩) | with_reducible refine keepR_of ?_ | with_reducible refine keepM_of ?_
    | with_reducible refine Keep.queue ?_

theorem keep_execAdmissionResult {s t : State} {n : Fin 8} (h : Keep s t) :
    KeepO s (execAdmissionResult n t) := by
  unfold execAdmissionResult
  repeat' first
    | with_reducible assumption | with_reducible refine keepO_next ?_ | with_reducible refine keep_rejectRegs ?_
    | with_reducible refine keep_endCheck ?_ | with_reducible refine keep_accept ?_ | split
    | with_reducible refine keep_snd ‹_› ?_

theorem keep_openInput {s t : State} {l : Fin 8} (h : Keep s t) :
    Keep s (State.openInput t l) := by
  unfold State.openInput; dsimp only
  repeat' first
    | with_reducible assumption | with_reducible refine keep_modSeqs ?_ | split
    | (simp only [keep_mk]; refine ⟨?_, ?_, ?_⟩) | with_reducible refine keepR_of ?_
    | with_reducible refine keepM_of ?_ | with_reducible refine Keep.queue ?_
    | with_reducible refine keep_snd ‹_› ?_

theorem keep_startBurst {s t : State} {l : Fin 8} (h : Keep s t) :
    Keep s (State.startBurst t l) := by
  unfold State.startBurst; dsimp only
  repeat' first
    | with_reducible assumption | with_reducible refine keep_openInput ?_
    | with_reducible refine keep_each (fun _ _ _ => ?_) ?_ | with_reducible refine keep_modSl ?_ | split
    | (simp only [keep_mk]; refine ⟨?_, ?_, ?_⟩) | with_reducible refine keepR_of ?_
    | with_reducible refine keepM_of ?_ | with_reducible refine Keep.queue ?_
    | with_reducible refine keep_snd ‹_› ?_

theorem keep_execBurstT0 {s t : State} {n : Fin 8} (h : Keep s t) :
    KeepO s (execBurstT0 n t) := by
  unfold execBurstT0; dsimp only
  repeat' first
    | with_reducible assumption | with_reducible refine keepO_next ?_ | with_reducible refine keep_startBurst ?_ | split

theorem keep_opResv {s t : State} {ini : Initiator} {n : Fin 8} {v : Nat} (h : Keep s t) :
    Keep s (State.opResv t ini n v) := by
  unfold State.opResv; dsimp only
  repeat' first
    | with_reducible assumption | with_reducible refine keep_wr ?_ | with_reducible refine keep_accErr ?_ | split

theorem keep_opDdist {s t : State} {ini : Initiator} {n : Fin 8} {v : Nat} (h : Keep s t) :
    Keep s (State.opDdist t ini n v) := by
  unfold State.opDdist; dsimp only
  repeat' first
    | with_reducible assumption | with_reducible refine keep_each (fun _ _ _ => ?_) ?_ | with_reducible refine keep_wr ?_
    | with_reducible refine keep_accErr ?_ | split

end Sys2Proof.Machine
end

