-- ==== Sys2Proof/Laws/KeepLoadUnit.lean ====
section
/-! SUPPORT. What the operations of Machine/LoadUnit.lean keep. -/

namespace Sys2Proof.Machine

open Sys2Proof

theorem keep_segRefuse {s t : State} {n : Fin 8} {err : Nat} (h : Keep s t) :
    Keep s (State.segRefuse t n err) := by
  unfold State.segRefuse
  repeat' first
    | with_reducible assumption | with_reducible refine keep_wrs ?_

theorem keep_segOpen {s t : State} {n : Fin 8} {seg : Nat} (h : Keep s t) :
    Keep s (State.segOpen t n seg) := by
  unfold State.segOpen; dsimp only
  repeat' first
    | with_reducible assumption | with_reducible refine keep_modSl ?_ | with_reducible refine keep_segRefuse ?_ | split
    | with_reducible refine keep_snd ‹_› ?_

theorem keep_takeSeal {s t : State} {n : Fin 8} {seg : Nat} {token : Word} (h : Keep s t) :
    Keep s (State.takeSeal t n seg token) := by
  unfold State.takeSeal; dsimp only
  repeat' first
    | with_reducible assumption | with_reducible refine keep_modSl ?_ | (simp only [keep_mk]; refine ⟨?_, ?_, ?_⟩)
    | with_reducible refine keepR_of ?_ | with_reducible refine keepM_of ?_ | with_reducible refine Keep.queue ?_

theorem keep_segSeal {s t : State} {n : Fin 8} {seg : Nat} (h : Keep s t) :
    Keep s (State.segSeal t n seg) := by
  unfold State.segSeal; dsimp only
  repeat' first
    | with_reducible assumption | with_reducible refine keep_segRefuse ?_ | with_reducible refine keep_takeSeal ?_ | split

theorem keep_segDrop {s t : State} {n : Fin 8} {seg : Nat} (h : Keep s t) :
    Keep s (State.segDrop t n seg) := by
  unfold State.segDrop; dsimp only
  repeat' first
    | with_reducible assumption | with_reducible refine keep_modSl ?_ | with_reducible refine keep_segRefuse ?_ | split
    | (simp only [keep_mk]; refine ⟨?_, ?_, ?_⟩) | with_reducible refine keepR_of ?_ | with_reducible refine keepM_of ?_
    | with_reducible refine Keep.queue ?_

theorem keep_opSegcmd {s t : State} {ini : Initiator} {n : Fin 8} {v : Nat} (h : Keep s t) :
    Keep s (State.opSegcmd t ini n v) := by
  unfold State.opSegcmd; dsimp only
  repeat' first
    | with_reducible assumption | with_reducible refine keep_accErr ?_ | with_reducible refine keep_segOpen ?_
    | with_reducible refine keep_segSeal ?_ | with_reducible refine keep_segDrop ?_ | split

theorem keep_dmaSeal {s t : State} {n : Fin 8} {seg : Nat} {token : Word} (h : Keep s t) :
    Keep s (State.dmaSeal t n seg token).1 := by
  unfold State.dmaSeal; dsimp only
  repeat' first
    | with_reducible assumption | with_reducible refine keep_modSl ?_ | with_reducible refine keep_takeSeal ?_ | split
    | (simp only [keep_mk]; refine ⟨?_, ?_, ?_⟩) | with_reducible refine keepR_of ?_ | with_reducible refine keepM_of ?_
    | with_reducible refine Keep.queue ?_

theorem keep_execVerifyBegin {s t : State} {n : Fin 8} (h : Keep s t) :
    KeepO s (execVerifyBegin n t) := by
  unfold execVerifyBegin
  repeat' first
    | with_reducible assumption | with_reducible refine keepO_next ?_ | with_reducible refine keep_modSl ?_ | split
    | (simp only [keep_mk]; refine ⟨?_, ?_, ?_⟩) | with_reducible refine keepR_of ?_ | with_reducible refine keepM_of ?_
    | with_reducible refine Keep.queue ?_

theorem keep_execLoaddonePost {s t : State} {n : Fin 8} (h : Keep s t) :
    KeepO s (execLoaddonePost n t) := by
  unfold execLoaddonePost
  repeat' first
    | with_reducible assumption | with_reducible refine keepO_next ?_ | with_reducible refine keep_modSl ?_ | split
    | (simp only [keep_mk]; refine ⟨?_, ?_, ?_⟩) | with_reducible refine keepR_of ?_ | with_reducible refine keepM_of ?_
    | with_reducible refine Keep.queue ?_

end Sys2Proof.Machine
end

