-- ==== Sys2Proof/Laws/KeepReadAhead.lean ====
section
/-! SUPPORT. What the operations of Machine/ReadAhead.lean keep. -/

namespace Sys2Proof.Machine

open Sys2Proof

theorem keep_streamRead {s t : State} {n : Fin 8} (h : Keep s t) :
    Keep s (State.streamRead t n) := by
  unfold State.streamRead; dsimp only
  repeat' first
    | with_reducible assumption | with_reducible refine keep_modSl ?_ | split
    | (simp only [keep_mk]; refine ⟨?_, ?_, ?_⟩) | with_reducible refine keepR_of ?_
    | with_reducible refine keepM_of ?_ | with_reducible refine Keep.queue ?_
    | with_reducible refine keep_snd ‹_› ?_

theorem keep_execPrefillDone {s t : State} {n : Fin 8} (h : Keep s t) :
    KeepO s (execPrefillDone n t) := by
  unfold execPrefillDone; dsimp only
  repeat' first
    | with_reducible refine keepO_next ?_
    | with_reducible assumption | with_reducible refine keep_modSl ?_ | with_reducible refine keep_openInput ?_
    | split | (simp only [keep_mk]; refine ⟨?_, ?_, ?_⟩) | with_reducible refine keepR_of ?_
    | with_reducible refine keepM_of ?_ | with_reducible refine Keep.queue ?_
    | with_reducible refine keep_snd ‹_› ?_

end Sys2Proof.Machine
end

