-- ==== Sys2Proof/Laws/KeepSequencer.lean ====
section
/-! SUPPORT. What the operations of Machine/Sequencer.lean keep. -/

namespace Sys2Proof.Machine

open Sys2Proof

theorem keep_dispatch {s t : State} {l : Fin 8} {w : DWord} {v : Nat} (h : Keep s t) :
    Keep s (State.dispatch t l w v) := by
  unfold State.dispatch
  repeat' first
    | with_reducible assumption | with_reducible refine keep_modSeqs ?_ | split
    | (simp only [keep_mk]; refine ⟨?_, ?_, ?_⟩) | with_reducible refine keepR_of ?_
    | with_reducible refine keepM_of ?_ | with_reducible refine Keep.queue ?_
    | with_reducible refine keep_snd ‹_› ?_

theorem keep_vecWord {s t : State} {n : Fin 8} {k : Fin 4} {w : DWord} {is_ : Nat → Bool} {f : Fin 8 → Nat → Nat → State → State} (hf : ∀ x0 x1 x2 x3, Keep s x3 → Keep s (f x0 x1 x2 x3))
    (h : Keep s t) :
    Keep s (State.vecWord t n k w is_ f) := by
  unfold State.vecWord; dsimp only
  repeat' first
    | with_reducible assumption | with_reducible refine hf _ _ _ _ ?_ | with_reducible refine keep_dispatch ?_
    | split | (simp only [keep_mk]; refine ⟨?_, ?_, ?_⟩) | with_reducible refine keepR_of ?_
    | with_reducible refine keepM_of ?_ | with_reducible refine Keep.queue ?_
    | with_reducible refine keep_snd ‹_› ?_

theorem keep_xferWord {s t : State} {n : Fin 8} {op : Op} {w : DWord} {f : Fin 8 → State → State} (hf : ∀ x0 x1, Keep s x1 → Keep s (f x0 x1))
    (h : Keep s t) :
    Keep s (State.xferWord t n op w f) := by
  unfold State.xferWord; dsimp only
  repeat' first
    | with_reducible assumption | with_reducible refine hf _ _ ?_ | with_reducible refine keep_dispatch ?_ | split
    | (simp only [keep_mk]; refine ⟨?_, ?_, ?_⟩) | with_reducible refine keepR_of ?_
    | with_reducible refine keepM_of ?_ | with_reducible refine Keep.queue ?_
    | with_reducible refine keep_snd ‹_› ?_

theorem keep_xferExc {s t : State} {l : Fin 8} {exc : Nat} {sub : Nat} {w : DWord} (h : Keep s t) :
    Keep s (State.xferExc t l exc sub w) := by
  unfold State.xferExc; dsimp only
  repeat' first
    | with_reducible assumption | with_reducible refine keep_raiseExc ?_

theorem keep_vecExc {s t : State} {l : Fin 8} {exc : Nat} {sub : Nat} {off : Nat} {v : Nat} {w : DWord} (h : Keep s t) :
    Keep s (State.vecExc t l exc sub off v w) := by
  unfold State.vecExc
  repeat' first
    | with_reducible assumption | with_reducible refine keep_raiseExc ?_

theorem keep_seam {s t : State} {l : Fin 8} {t1 : Nat} {cond : Bool} {ts : Option Nat} (h : Keep s t) :
    Keep s (State.seam t l t1 cond ts) := by
  unfold State.seam; dsimp only
  repeat' first
    | with_reducible assumption | with_reducible refine keep_each (fun _ _ _ => ?_) ?_
    | with_reducible refine keep_modSl ?_ | with_reducible refine keep_modSeqs ?_ | split
    | (simp only [keep_mk]; refine ⟨?_, ?_, ?_⟩) | with_reducible refine keepR_of ?_
    | with_reducible refine keepM_of ?_ | with_reducible refine Keep.queue ?_
    | with_reducible refine keep_snd ‹_› ?_

theorem keep_transfer {s t : State} {l : Fin 8} {t1 : Nat} {w : DWord} {cond : Bool} {ts : Option Nat} {before : State → State} (hf : ∀ u, Keep s u → Keep s (before u)) (h : Keep s t) :
    Keep s (State.transfer t l t1 w cond ts before) := by
  unfold State.transfer
  repeat' first
    | with_reducible assumption | with_reducible refine keep_xferExc ?_ | with_reducible refine keep_seam ?_
    | (with_reducible apply hf) | split

theorem keep_clearWindow {s t : State} {l : Fin 8} {c : Nat} (h : Keep s t) :
    Keep s (State.clearWindow t l c) := by
  unfold State.clearWindow; dsimp only
  repeat' first
    | with_reducible assumption | with_reducible refine keep_each (fun _ _ _ => ?_) ?_ | with_reducible refine keep_modSl ?_
    | (simp only [keep_mk]; refine ⟨?_, ?_, ?_⟩) | with_reducible refine keepR_of ?_ | with_reducible refine keepM_of ?_
    | with_reducible refine Keep.queue ?_

theorem keep_setLatch {s t : State} {l : Fin 8} {j : Nat} {fail : Bool} (h : Keep s t) :
    Keep s (State.setLatch t l j fail) := by
  unfold State.setLatch
  repeat' first
    | with_reducible assumption | with_reducible refine keep_each (fun _ _ _ => ?_) ?_ | with_reducible refine keep_wr ?_
    | split

theorem keep_condClear {s t : State} {l : Fin 8} {v : Nat} {w : DWord} (h : Keep s t) :
    Keep s (State.condClear t l v w) := by
  unfold State.condClear; dsimp only
  repeat' first
    | with_reducible assumption | with_reducible refine keep_clearWindow ?_ | with_reducible refine keep_modSeqs ?_
    | with_reducible refine keepR_filter ?_ | split | (simp only [keep_mk]; refine ⟨?_, ?_, ?_⟩)
    | with_reducible refine keepR_of ?_ | with_reducible refine keepM_of ?_ | with_reducible refine Keep.queue ?_
    | with_reducible refine keep_snd ‹_› ?_

theorem keep_execJmp {s t : State} {n : Fin 8} {word : DWord} (h : Keep s t) :
    KeepO s (execJmp n word t) := by
  unfold execJmp
  repeat' first
    | with_reducible refine keepO_next ?_
    | with_reducible assumption | with_reducible refine keep_xferWord (fun _ _ _ => ?_) ?_
    | with_reducible refine keep_transfer (fun _ _ => ?_) ?_ | with_reducible refine keep_id ?_ | split
    | (simp only [keep_mk]; refine ⟨?_, ?_, ?_⟩) | with_reducible refine keepR_of ?_
    | with_reducible refine keepM_of ?_ | with_reducible refine Keep.queue ?_
    | with_reducible refine keep_snd ‹_› ?_

theorem keep_execFseam {s t : State} {n : Fin 8} {word : DWord} (h : Keep s t) :
    KeepO s (execFseam n word t) := by
  unfold execFseam
  repeat' first
    | with_reducible refine keepO_next ?_
    | with_reducible assumption | with_reducible refine keep_xferWord (fun _ _ _ => ?_) ?_
    | with_reducible refine keep_transfer (fun _ _ => ?_) ?_ | with_reducible refine keep_id ?_ | split
    | (simp only [keep_mk]; refine ⟨?_, ?_, ?_⟩) | with_reducible refine keepR_of ?_
    | with_reducible refine keepM_of ?_ | with_reducible refine Keep.queue ?_
    | with_reducible refine keep_snd ‹_› ?_

theorem keep_execCall {s t : State} {n : Fin 8} {word : DWord} (h : Keep s t) :
    KeepO s (execCall n word t) := by
  unfold execCall; dsimp only
  repeat' first
    | with_reducible refine keepO_next ?_
    | with_reducible assumption | with_reducible refine keep_xferWord (fun _ _ _ => ?_) ?_
    | with_reducible refine keep_xferExc ?_ | with_reducible refine keep_transfer (fun _ _ => ?_) ?_
    | with_reducible refine keep_wr ?_ | with_reducible refine keep_modSeqs ?_ | split
    | (simp only [keep_mk]; refine ⟨?_, ?_, ?_⟩) | with_reducible refine keepR_of ?_
    | with_reducible refine keepM_of ?_ | with_reducible refine Keep.queue ?_
    | with_reducible refine keep_snd ‹_› ?_

theorem keep_execRet {s t : State} {n : Fin 8} {word : DWord} (h : Keep s t) :
    KeepO s (execRet n word t) := by
  unfold execRet; dsimp only
  repeat' first
    | with_reducible refine keepO_next ?_
    | with_reducible assumption | with_reducible refine keep_xferWord (fun _ _ _ => ?_) ?_
    | with_reducible refine keep_xferExc ?_ | with_reducible refine keep_transfer (fun _ _ => ?_) ?_
    | with_reducible refine keep_modSeqs ?_ | split | (simp only [keep_mk]; refine ⟨?_, ?_, ?_⟩)
    | with_reducible refine keepR_of ?_ | with_reducible refine keepM_of ?_ | with_reducible refine Keep.queue ?_
    | with_reducible refine keep_snd ‹_› ?_

theorem keep_execHalt {s t : State} {n : Fin 8} {word : DWord} (h : Keep s t) :
    KeepO s (execHalt n word t) := by
  unfold execHalt
  repeat' first
    | with_reducible refine keepO_next ?_
    | with_reducible assumption | with_reducible refine keep_xferWord (fun _ _ _ => ?_) ?_
    | with_reducible refine keep_each (fun _ _ _ => ?_) ?_ | with_reducible refine keep_wr ?_
    | with_reducible refine keep_modSeqs ?_ | split | (simp only [keep_mk]; refine ⟨?_, ?_, ?_⟩)
    | with_reducible refine keepR_of ?_ | with_reducible refine keepM_of ?_ | with_reducible refine Keep.queue ?_
    | with_reducible refine keep_snd ‹_› ?_

theorem keep_execLoop {s t : State} {n : Fin 8} {word : DWord} (h : Keep s t) :
    KeepO s (execLoop n word t) := by
  unfold execLoop; dsimp only
  repeat' first
    | with_reducible refine keepO_next ?_
    | with_reducible assumption | with_reducible refine keep_xferWord (fun _ _ _ => ?_) ?_
    | with_reducible refine keep_transfer (fun _ _ => ?_) ?_ | with_reducible refine keep_wr ?_ | split
    | (simp only [keep_mk]; refine ⟨?_, ?_, ?_⟩) | with_reducible refine keepR_of ?_
    | with_reducible refine keepM_of ?_ | with_reducible refine Keep.queue ?_
    | with_reducible refine keep_snd ‹_› ?_

theorem keep_execBrc {s t : State} {n : Fin 8} {word : DWord} {evt : Bool} (h : Keep s t) :
    KeepO s (execBrc n word evt t) := by
  unfold execBrc; dsimp only
  repeat' first
    | with_reducible refine keepO_next ?_
    | with_reducible assumption | with_reducible refine keep_xferWord (fun _ _ _ => ?_) ?_
    | with_reducible refine keep_xferExc ?_ | with_reducible refine keep_transfer (fun _ _ => ?_) ?_
    | with_reducible refine keep_condClear ?_ | split | (simp only [keep_mk]; refine ⟨?_, ?_, ?_⟩)
    | with_reducible refine keepR_of ?_ | with_reducible refine keepM_of ?_ | with_reducible refine Keep.queue ?_
    | with_reducible refine keep_snd ‹_› ?_

theorem keep_execMwait {s t : State} {n : Fin 8} {word : DWord} {evt : Bool} (h : Keep s t) :
    KeepO s (execMwait n word evt t) := by
  unfold execMwait; dsimp only
  repeat' first
    | with_reducible refine keepO_next ?_
    | with_reducible assumption | with_reducible refine keep_xferWord (fun _ _ _ => ?_) ?_
    | with_reducible refine keep_xferExc ?_ | with_reducible refine keep_condClear ?_
    | with_reducible refine keep_modSeqs ?_ | with_reducible refine keep_transfer (fun _ _ => ?_) ?_
    | with_reducible refine keep_wr ?_ | split | (simp only [keep_mk]; refine ⟨?_, ?_, ?_⟩)
    | with_reducible refine keepR_of ?_ | with_reducible refine keepM_of ?_ | with_reducible refine Keep.queue ?_
    | with_reducible refine keep_snd ‹_› ?_

theorem keep_execAdv {s t : State} {_n : Fin 8} {_word : DWord} (h : Keep s t) :
    KeepO s (execAdv _n _word t) := by
  unfold execAdv
  repeat' first
    | with_reducible assumption | with_reducible refine keepO_next ?_

theorem keep_execRpt {s t : State} {n : Fin 8} {k : Fin 4} {word : DWord} (h : Keep s t) :
    KeepO s (execRpt n k word t) := by
  unfold execRpt
  repeat' first
    | with_reducible refine keepO_next ?_
    | with_reducible assumption | with_reducible refine keep_vecWord (fun _ _ _ _ _ => ?_) ?_
    | with_reducible refine keep_modSeqs ?_ | split | (simp only [keep_mk]; refine ⟨?_, ?_, ?_⟩)
    | with_reducible refine keepR_of ?_ | with_reducible refine keepM_of ?_ | with_reducible refine Keep.queue ?_
    | with_reducible refine keep_snd ‹_› ?_

theorem keep_execLdc {s t : State} {n : Fin 8} {k : Fin 4} {word : DWord} (h : Keep s t) :
    KeepO s (execLdc n k word t) := by
  unfold execLdc
  repeat' first
    | with_reducible refine keepO_next ?_
    | with_reducible assumption | with_reducible refine keep_vecWord (fun _ _ _ _ _ => ?_) ?_
    | with_reducible refine keep_wr ?_ | split | (simp only [keep_mk]; refine ⟨?_, ?_, ?_⟩)
    | with_reducible refine keepR_of ?_ | with_reducible refine keepM_of ?_ | with_reducible refine Keep.queue ?_
    | with_reducible refine keep_snd ‹_› ?_

theorem keep_execTset {s t : State} {n : Fin 8} {k : Fin 4} {word : DWord} (h : Keep s t) :
    KeepO s (execTset n k word t) := by
  unfold execTset
  repeat' first
    | with_reducible refine keepO_next ?_
    | with_reducible assumption | with_reducible refine keep_vecWord (fun _ _ _ _ _ => ?_) ?_
    | with_reducible refine keep_modSeqs ?_ | split | (simp only [keep_mk]; refine ⟨?_, ?_, ?_⟩)
    | with_reducible refine keepR_of ?_ | with_reducible refine keepM_of ?_ | with_reducible refine Keep.queue ?_
    | with_reducible refine keep_snd ‹_› ?_

theorem keep_sendEntry {s t : State} {l : Fin 8} {kind : QKind} {v : Nat} {off : Nat} {word : DWord} (h : Keep s t) :
    Keep s (State.sendEntry t l kind v off word) := by
  unfold State.sendEntry; dsimp only
  repeat' first
    | with_reducible assumption | with_reducible refine keep_each (fun _ _ _ => ?_) ?_ | with_reducible refine keep_modSl ?_
    | (simp only [keep_mk]; refine ⟨?_, ?_, ?_⟩) | with_reducible refine keepR_of ?_ | with_reducible refine keepM_of ?_
    | with_reducible refine Keep.queue ?_

theorem keep_execLvl {s t : State} {n : Fin 8} {k : Fin 4} {word : DWord} (h : Keep s t) :
    KeepO s (execLvl n k word t) := by
  unfold execLvl
  repeat' first
    | with_reducible refine keepO_next ?_
    | with_reducible assumption | with_reducible refine keep_vecWord (fun _ _ _ _ _ => ?_) ?_
    | with_reducible refine keep_vecExc ?_ | with_reducible refine keep_sendEntry ?_ | split
    | (simp only [keep_mk]; refine ⟨?_, ?_, ?_⟩) | with_reducible refine keepR_of ?_
    | with_reducible refine keepM_of ?_ | with_reducible refine Keep.queue ?_
    | with_reducible refine keep_snd ‹_› ?_

theorem keep_execPmu {s t : State} {n : Fin 8} {k : Fin 4} {word : DWord} (h : Keep s t) :
    KeepO s (execPmu n k word t) := by
  unfold execPmu
  repeat' first
    | with_reducible refine keepO_next ?_
    | with_reducible assumption | with_reducible refine keep_vecWord (fun _ _ _ _ _ => ?_) ?_
    | with_reducible refine keep_sendEntry ?_ | split | (simp only [keep_mk]; refine ⟨?_, ?_, ?_⟩)
    | with_reducible refine keepR_of ?_ | with_reducible refine keepM_of ?_ | with_reducible refine Keep.queue ?_
    | with_reducible refine keep_snd ‹_› ?_

theorem keep_execTdc {s t : State} {n : Fin 8} {k : Fin 4} {word : DWord} (h : Keep s t) :
    KeepO s (execTdc n k word t) := by
  unfold execTdc
  repeat' first
    | with_reducible refine keepO_next ?_
    | with_reducible assumption | with_reducible refine keep_vecWord (fun _ _ _ _ _ => ?_) ?_
    | with_reducible refine keep_sendEntry ?_ | split | (simp only [keep_mk]; refine ⟨?_, ?_, ?_⟩)
    | with_reducible refine keepR_of ?_ | with_reducible refine keepM_of ?_ | with_reducible refine Keep.queue ?_
    | with_reducible refine keep_snd ‹_› ?_

theorem keep_execMkset {s t : State} {n : Fin 8} {k : Fin 4} {word : DWord} (h : Keep s t) :
    KeepO s (execMkset n k word t) := by
  unfold execMkset
  repeat' first
    | with_reducible refine keepO_next ?_
    | with_reducible assumption | with_reducible refine keep_vecWord (fun _ _ _ _ _ => ?_) ?_
    | with_reducible refine keep_sendEntry ?_ | with_reducible refine keep_mk ?_ | split
    | (simp only [keep_mk]; refine ⟨?_, ?_, ?_⟩) | with_reducible refine keepR_of ?_
    | with_reducible refine keepM_of ?_ | with_reducible refine Keep.queue ?_
    | with_reducible refine keep_snd ‹_› ?_

theorem keep_execMkclr {s t : State} {n : Fin 8} {k : Fin 4} {word : DWord} (h : Keep s t) :
    KeepO s (execMkclr n k word t) := by
  unfold execMkclr
  repeat' first
    | with_reducible refine keepO_next ?_
    | with_reducible assumption | with_reducible refine keep_vecWord (fun _ _ _ _ _ => ?_) ?_
    | with_reducible refine keep_sendEntry ?_ | with_reducible refine keep_mk ?_ | split
    | (simp only [keep_mk]; refine ⟨?_, ?_, ?_⟩) | with_reducible refine keepR_of ?_
    | with_reducible refine keepM_of ?_ | with_reducible refine Keep.queue ?_
    | with_reducible refine keep_snd ‹_› ?_

theorem keep_setMask {s t : State} {l : Fin 8} {f : Word → Word → Word} (h : Keep s t) :
    Keep s (State.setMask t l f) := by
  unfold State.setMask; dsimp only
  repeat' first
    | with_reducible assumption | with_reducible refine keep_modSeqs ?_ | split
    | (simp only [keep_mk]; refine ⟨?_, ?_, ?_⟩) | with_reducible refine keepR_of ?_
    | with_reducible refine keepM_of ?_ | with_reducible refine Keep.queue ?_
    | with_reducible refine keep_snd ‹_› ?_

theorem keep_execSmaskLoad {s t : State} {n : Fin 8} {k : Fin 4} {word : DWord} (h : Keep s t) :
    KeepO s (execSmaskLoad n k word t) := by
  unfold execSmaskLoad
  repeat' first
    | with_reducible refine keepO_next ?_
    | with_reducible assumption | with_reducible refine keep_vecWord (fun _ _ _ _ _ => ?_) ?_
    | with_reducible refine keep_setMask ?_ | split | (simp only [keep_mk]; refine ⟨?_, ?_, ?_⟩)
    | with_reducible refine keepR_of ?_ | with_reducible refine keepM_of ?_ | with_reducible refine Keep.queue ?_
    | with_reducible refine keep_snd ‹_› ?_

theorem keep_execSmaskEnable {s t : State} {n : Fin 8} {k : Fin 4} {word : DWord} (h : Keep s t) :
    KeepO s (execSmaskEnable n k word t) := by
  unfold execSmaskEnable
  repeat' first
    | with_reducible refine keepO_next ?_
    | with_reducible assumption | with_reducible refine keep_vecWord (fun _ _ _ _ _ => ?_) ?_
    | with_reducible refine keep_setMask ?_ | split | (simp only [keep_mk]; refine ⟨?_, ?_, ?_⟩)
    | with_reducible refine keepR_of ?_ | with_reducible refine keepM_of ?_ | with_reducible refine Keep.queue ?_
    | with_reducible refine keep_snd ‹_› ?_

theorem keep_execSmaskDisable {s t : State} {n : Fin 8} {k : Fin 4} {word : DWord} (h : Keep s t) :
    KeepO s (execSmaskDisable n k word t) := by
  unfold execSmaskDisable
  repeat' first
    | with_reducible refine keepO_next ?_
    | with_reducible assumption | with_reducible refine keep_vecWord (fun _ _ _ _ _ => ?_) ?_
    | with_reducible refine keep_setMask ?_ | split | (simp only [keep_mk]; refine ⟨?_, ?_, ?_⟩)
    | with_reducible refine keepR_of ?_ | with_reducible refine keepM_of ?_ | with_reducible refine Keep.queue ?_
    | with_reducible refine keep_snd ‹_› ?_

theorem keep_execSmaskDropFailed {s t : State} {n : Fin 8} {k : Fin 4} {word : DWord} (h : Keep s t) :
    KeepO s (execSmaskDropFailed n k word t) := by
  unfold execSmaskDropFailed; dsimp only
  repeat' first
    | with_reducible refine keepO_next ?_
    | with_reducible assumption | with_reducible refine keep_vecWord (fun _ _ _ _ _ => ?_) ?_
    | with_reducible refine keep_setMask ?_ | with_reducible refine keepR_filter ?_ | split
    | (simp only [keep_mk]; refine ⟨?_, ?_, ?_⟩) | with_reducible refine keepR_of ?_
    | with_reducible refine keepM_of ?_ | with_reducible refine Keep.queue ?_
    | with_reducible refine keep_snd ‹_› ?_

theorem keep_accum {s t : State} {l : Fin 8} {v : Nat} (h : Keep s t) :
    Keep s (State.accum t l v) := by
  unfold State.accum
  repeat' first
    | with_reducible assumption | with_reducible refine keep_foldl (fun _ _ _ => ?_) ?_
    | with_reducible refine keep_setLatch ?_

theorem keep_execSlatchAccum {s t : State} {n : Fin 8} {k : Fin 4} {word : DWord} (h : Keep s t) :
    KeepO s (execSlatchAccum n k word t) := by
  unfold execSlatchAccum
  repeat' first
    | with_reducible refine keepO_next ?_
    | with_reducible assumption | with_reducible refine keep_vecWord (fun _ _ _ _ _ => ?_) ?_
    | with_reducible refine keep_accum ?_ | split | (simp only [keep_mk]; refine ⟨?_, ?_, ?_⟩)
    | with_reducible refine keepR_of ?_ | with_reducible refine keepM_of ?_ | with_reducible refine Keep.queue ?_
    | with_reducible refine keep_snd ‹_› ?_

theorem keep_execSlatchAccumClrw {s t : State} {n : Fin 8} {k : Fin 4} {word : DWord} (h : Keep s t) :
    KeepO s (execSlatchAccumClrw n k word t) := by
  unfold execSlatchAccumClrw
  repeat' first
    | with_reducible refine keepO_next ?_
    | with_reducible assumption | with_reducible refine keep_vecWord (fun _ _ _ _ _ => ?_) ?_
    | with_reducible refine keep_accum ?_ | with_reducible refine keep_clearWindow ?_ | split
    | (simp only [keep_mk]; refine ⟨?_, ?_, ?_⟩) | with_reducible refine keepR_of ?_
    | with_reducible refine keepM_of ?_ | with_reducible refine Keep.queue ?_
    | with_reducible refine keep_snd ‹_› ?_

theorem keep_execSlatchClrw {s t : State} {n : Fin 8} {k : Fin 4} {word : DWord} (h : Keep s t) :
    KeepO s (execSlatchClrw n k word t) := by
  unfold execSlatchClrw
  repeat' first
    | with_reducible refine keepO_next ?_
    | with_reducible assumption | with_reducible refine keep_vecWord (fun _ _ _ _ _ => ?_) ?_
    | with_reducible refine keep_clearWindow ?_ | split | (simp only [keep_mk]; refine ⟨?_, ?_, ?_⟩)
    | with_reducible refine keepR_of ?_ | with_reducible refine keepM_of ?_ | with_reducible refine Keep.queue ?_
    | with_reducible refine keep_snd ‹_› ?_

theorem keep_execSlatchReset {s t : State} {n : Fin 8} {k : Fin 4} {word : DWord} (h : Keep s t) :
    KeepO s (execSlatchReset n k word t) := by
  unfold execSlatchReset
  repeat' first
    | with_reducible refine keepO_next ?_
    | with_reducible assumption | with_reducible refine keep_vecWord (fun _ _ _ _ _ => ?_) ?_
    | with_reducible refine keep_foldl (fun _ _ _ => ?_) ?_ | with_reducible refine keep_setLatch ?_ | split
    | (simp only [keep_mk]; refine ⟨?_, ?_, ?_⟩) | with_reducible refine keepR_of ?_
    | with_reducible refine keepM_of ?_ | with_reducible refine Keep.queue ?_
    | with_reducible refine keep_snd ‹_› ?_

theorem keep_breach {s t : State} {n : Fin 8} {sub : Nat} {e : InFlight} (h : Keep s t) :
    Keep s (State.breach t n sub e) := by
  unfold State.breach
  repeat' first
    | with_reducible assumption | with_reducible refine keep_raiseExc ?_ | with_reducible refine keep_endHere ?_
    | split | (simp only [keep_mk]; refine ⟨?_, ?_, ?_⟩) | with_reducible refine keepR_of ?_
    | with_reducible refine keepM_of ?_ | with_reducible refine Keep.queue ?_
    | with_reducible refine keep_snd ‹_› ?_

theorem keep_execQueueEntryArrival {s t : State} {n : Fin 8} (h : Keep s t) :
    KeepO s (execQueueEntryArrival n t) := by
  unfold execQueueEntryArrival; dsimp only
  repeat' first
    | with_reducible assumption | with_reducible refine keepO_next ?_ | with_reducible refine keep_modSl ?_
    | with_reducible refine keep_breach ?_ | split | (simp only [keep_mk]; refine ⟨?_, ?_, ?_⟩)
    | with_reducible refine keepR_of ?_ | with_reducible refine keepM_of ?_ | with_reducible refine Keep.queue ?_

theorem keep_execMarkerEdge {s t : State} {n : Fin 8} {m : Bool} (h : Keep s t) :
    KeepO s (execMarkerEdge n m t) := by
  unfold execMarkerEdge; dsimp only
  repeat' first
    | with_reducible assumption | with_reducible refine keepO_next ?_ | with_reducible refine keep_modSl ?_ | split
    | (simp only [keep_mk]; refine ⟨?_, ?_, ?_⟩) | with_reducible refine keepR_of ?_ | with_reducible refine keepM_of ?_
    | with_reducible refine Keep.queue ?_

theorem keep_execEvtInputEdge {s t : State} {e : Fin 8} {tm : Nat} (h : Keep s t) :
    KeepO s (execEvtInputEdge e tm t) := by
  unfold execEvtInputEdge
  repeat' first
    | with_reducible assumption | with_reducible refine keep_each (fun _ _ _ => ?_) ?_ | with_reducible refine keepO_next ?_
    | with_reducible refine keep_modSeq ?_ | split | (simp only [keep_mk]; refine ⟨?_, ?_, ?_⟩)
    | with_reducible refine keepR_of ?_ | with_reducible refine keepM_of ?_ | with_reducible refine Keep.queue ?_

theorem keep_execStreamUnderrun {s t : State} {n : Fin 8} (h : Keep s t) :
    KeepO s (execStreamUnderrun n t) := by
  unfold execStreamUnderrun
  repeat' first
    | with_reducible assumption | with_reducible refine keepO_next ?_ | with_reducible refine keep_reportUnit ?_
    | with_reducible refine keep_containedSl ?_ | split

theorem keep_execStreamEccError {s t : State} {n : Fin 8} {data : Bool} {seg : Nat} {off : Nat} {vec : Nat} {word : DWord}
    (h : Keep s t) :
    KeepO s (execStreamEccError n data seg off vec word t) := by
  unfold execStreamEccError; dsimp only
  repeat' first
    | with_reducible refine keepO_next ?_
    | with_reducible assumption | with_reducible refine keep_modSl ?_ | with_reducible refine keep_reportUnit ?_
    | with_reducible refine keep_containedSl ?_ | with_reducible refine keep_modSeqs ?_ | split
    | (simp only [keep_mk]; refine ⟨?_, ?_, ?_⟩) | with_reducible refine keepR_of ?_
    | with_reducible refine keepM_of ?_ | with_reducible refine Keep.queue ?_
    | with_reducible refine keep_snd ‹_› ?_

theorem keep_hem {s t : State} {l : Fin 8} (h : Keep s t) :
    Keep s (State.hem t l) := by
  unfold State.hem
  repeat' first
    | with_reducible assumption | with_reducible refine keep_modSeqs ?_ | split
    | (simp only [keep_mk]; refine ⟨?_, ?_, ?_⟩) | with_reducible refine keepR_of ?_
    | with_reducible refine keepM_of ?_ | with_reducible refine Keep.queue ?_
    | with_reducible refine keep_snd ‹_› ?_

theorem keep_goOn {s t : State} {l : Fin 8} (h : Keep s t) :
    Keep s (State.goOn t l) := by
  unfold State.goOn; dsimp only
  repeat' first
    | with_reducible assumption | with_reducible refine keep_seam ?_ | with_reducible refine keep_modSeqs ?_
    | with_reducible refine keep_hem ?_ | split | (simp only [keep_mk]; refine ⟨?_, ?_, ?_⟩)
    | with_reducible refine keepR_of ?_ | with_reducible refine keepM_of ?_ | with_reducible refine Keep.queue ?_
    | with_reducible refine keep_snd ‹_› ?_

theorem keep_takeBoundary {s t : State} {l : Fin 8} (h : Keep s t) :
    Keep s (State.takeBoundary t l) := by
  unfold State.takeBoundary; dsimp only
  repeat' first
    | with_reducible assumption | with_reducible refine keep_goOn ?_ | with_reducible refine keep_hem ?_
    | with_reducible refine keep_finish ?_ | with_reducible refine keep_dueEcc ?_ | split
    | (simp only [keep_mk]; refine ⟨?_, ?_, ?_⟩) | with_reducible refine keepR_of ?_
    | with_reducible refine keepM_of ?_ | with_reducible refine Keep.queue ?_
    | with_reducible refine keep_snd ‹_› ?_

theorem keep_execHemBoundary {s t : State} {n : Fin 8} (h : Keep s t) :
    KeepO s (execHemBoundary n t) := by
  unfold execHemBoundary; dsimp only
  repeat' first
    | with_reducible refine keepO_next ?_
    | with_reducible assumption | with_reducible refine keep_hem ?_ | with_reducible refine keep_finish ?_
    | with_reducible refine keep_takeBoundary ?_ | with_reducible refine keep_goOn ?_ | split
    | (simp only [keep_mk]; refine ⟨?_, ?_, ?_⟩) | with_reducible refine keepR_of ?_
    | with_reducible refine keepM_of ?_ | with_reducible refine Keep.queue ?_
    | with_reducible refine keep_snd ‹_› ?_

theorem keep_abortNow {s t : State} {l : Fin 8} (h : Keep s t) :
    Keep s (State.abortNow t l) := by
  unfold State.abortNow; dsimp only
  repeat' first
    | with_reducible assumption | with_reducible refine keep_goOn ?_ | with_reducible refine keep_hem ?_
    | with_reducible refine keep_finish ?_ | with_reducible refine keep_dueEcc ?_ | split
    | (simp only [keep_mk]; refine ⟨?_, ?_, ?_⟩) | with_reducible refine keepR_of ?_
    | with_reducible refine keepM_of ?_ | with_reducible refine Keep.queue ?_
    | with_reducible refine keep_snd ‹_› ?_

theorem keep_opAbort {s t : State} {n : Fin 8} {now : Bool} (h : Keep s t) :
    Keep s (State.opAbort t n now) := by
  unfold State.opAbort; dsimp only
  repeat' first
    | with_reducible assumption | with_reducible refine keep_rejectCheck ?_ | with_reducible refine keep_finish ?_
    | with_reducible refine keep_abortNow ?_ | with_reducible refine keep_modSeqs ?_
    | with_reducible refine keep_endHere ?_ | split | (simp only [keep_mk]; refine ⟨?_, ?_, ?_⟩)
    | with_reducible refine keepR_of ?_ | with_reducible refine keepM_of ?_ | with_reducible refine Keep.queue ?_
    | with_reducible refine keep_snd ‹_› ?_

theorem keep_opBcmd {s t : State} {ini : Initiator} {n : Fin 8} {v : Nat} (h : Keep s t) :
    Keep s (State.opBcmd t ini n v) := by
  unfold State.opBcmd; dsimp only
  repeat' first
    | with_reducible assumption | with_reducible refine keep_accErr ?_ | with_reducible refine keep_wrs ?_
    | with_reducible refine keep_opAbort ?_ | with_reducible refine keep_opStart ?_ | split
    | (simp only [keep_mk]; refine ⟨?_, ?_, ?_⟩) | with_reducible refine keepR_of ?_
    | with_reducible refine keepM_of ?_ | with_reducible refine Keep.queue ?_
    | with_reducible refine keep_snd ‹_› ?_

end Sys2Proof.Machine
end

