-- ==== Sys2Proof/Laws/KeepFormatter.lean ====
section
/-! SUPPORT. What the operations of Machine/Formatter.lean keep. -/

namespace Sys2Proof.Machine

open Sys2Proof

theorem keep_synthFault {s t : State} {n : Fin 8} (h : Keep s t) :
    Keep s (State.synthFault t n) := by
  unfold State.synthFault; dsimp only
  repeat' first
    | with_reducible assumption | with_reducible refine keep_wr ?_ | with_reducible refine keep_modSl ?_
    | with_reducible refine keep_setReady ?_ | with_reducible refine keep_reportUnit ?_
    | with_reducible refine keep_containedSl ?_ | (simp only [keep_mk]; refine ⟨?_, ?_, ?_⟩)
    | with_reducible refine keepR_of ?_ | with_reducible refine keepM_of ?_ | with_reducible refine Keep.queue ?_

theorem keep_execFseamHandover {s t : State} {n : Fin 8} (h : Keep s t) :
    KeepO s (execFseamHandover n t) := by
  unfold execFseamHandover; dsimp only
  repeat' first
    | with_reducible assumption | with_reducible refine keepO_next ?_ | with_reducible refine keep_wr ?_
    | with_reducible refine keep_modSl ?_ | with_reducible refine keep_seam ?_ | with_reducible refine keep_synthFault ?_
    | split | with_reducible refine keep_snd ‹_› ?_ | (simp only [keep_mk]; refine ⟨?_, ?_, ?_⟩)
    | with_reducible refine keepR_of ?_ | with_reducible refine keepM_of ?_ | with_reducible refine Keep.queue ?_

theorem keep_execSynthRecovered {s t : State} {n : Fin 8} {b : Bool} (h : Keep s t) :
    KeepO s (execSynthRecovered n b t) := by
  unfold execSynthRecovered; dsimp only
  repeat' first
    | with_reducible assumption | with_reducible refine keepO_next ?_ | with_reducible refine keep_modSl ?_
    | with_reducible refine keep_trySlReady ?_ | split | (simp only [keep_mk]; refine ⟨?_, ?_, ?_⟩)
    | with_reducible refine keepR_of ?_ | with_reducible refine keepM_of ?_ | with_reducible refine Keep.queue ?_

theorem keep_execSynthFault {s t : State} {n : Fin 8} (h : Keep s t) :
    KeepO s (execSynthFault n t) := by
  unfold execSynthFault
  repeat' first
    | with_reducible refine keepO_next ?_
    | with_reducible assumption | with_reducible refine keep_synthFault ?_ | split
    | (simp only [keep_mk]; refine ⟨?_, ?_, ?_⟩) | with_reducible refine keepR_of ?_
    | with_reducible refine keepM_of ?_ | with_reducible refine Keep.queue ?_
    | with_reducible refine keep_snd ‹_› ?_

theorem keep_execDllLockLost {s t : State} {n : Fin 8} (h : Keep s t) :
    KeepO s (execDllLockLost n t) := by
  unfold execDllLockLost
  repeat' first
    | with_reducible refine keepO_next ?_
    | with_reducible assumption | with_reducible refine keep_whenAwake (fun _ _ => ?_) ?_
    | with_reducible refine keep_reportUnit ?_ | with_reducible refine keep_wr ?_ | split
    | (simp only [keep_mk]; refine ⟨?_, ?_, ?_⟩) | with_reducible refine keepR_of ?_
    | with_reducible refine keepM_of ?_ | with_reducible refine Keep.queue ?_
    | with_reducible refine keep_snd ‹_› ?_

theorem keep_drop {s t : State} {n : Fin 8} {lane : Fin 32} {kind : Nat} (h : Keep s t) :
    Keep s (State.drop t n lane kind) := by
  unfold State.drop; dsimp only
  repeat' first
    | with_reducible assumption | with_reducible refine keep_wr ?_ | with_reducible refine keep_addSat ?_ | split

theorem keep_driveAt {s t : State} {n : Fin 8} {lane : Fin 32} {p : Played} {d : Drive} {t1 : Nat} (h : Keep s t) :
    Keep s (State.driveAt t n lane p d t1) := by
  unfold State.driveAt
  repeat' first
    | with_reducible assumption | with_reducible refine keep_modSl ?_ | with_reducible refine keep_drop ?_ | split
    | (simp only [keep_mk]; refine ⟨?_, ?_, ?_⟩) | with_reducible refine keepR_of ?_ | with_reducible refine keepM_of ?_
    | with_reducible refine Keep.queue ?_

theorem keep_drivePut {s t : State} {n : Fin 8} {lane : Fin 32} {h1 : Option (Played × Drive × Nat)} (h : Keep s t) :
    Keep s (State.drivePut t n lane h1) := by
  unfold State.drivePut
  repeat' first
    | with_reducible assumption | with_reducible refine keep_driveAt ?_ | split
    | (simp only [keep_mk]; refine ⟨?_, ?_, ?_⟩) | with_reducible refine keepR_of ?_
    | with_reducible refine keepM_of ?_ | with_reducible refine Keep.queue ?_
    | with_reducible refine keep_snd ‹_› ?_

theorem keep_driveJudge {s t : State} {n : Fin 8} {lane : Fin 32} {k : DriveKey} (h : Keep s t) :
    Keep s (State.driveJudge t n lane k) := by
  unfold State.driveJudge
  repeat' first
    | with_reducible assumption | with_reducible refine keep_drivePut ?_ | with_reducible refine keep_modSl ?_
    | split | (simp only [keep_mk]; refine ⟨?_, ?_, ?_⟩) | with_reducible refine keepR_of ?_
    | with_reducible refine keepM_of ?_ | with_reducible refine Keep.queue ?_
    | with_reducible refine keep_snd ‹_› ?_

theorem keep_driveUpTo {s t : State} {n : Fin 8} {lane : Fin 32} {h1 : Option DriveKey} (h : Keep s t) :
    Keep s (State.driveUpTo t n lane h1) := by
  unfold State.driveUpTo
  repeat' first
    | with_reducible assumption | with_reducible refine keep_each (fun _ _ _ => ?_) ?_
    | with_reducible refine keep_driveJudge ?_ | split | (simp only [keep_mk]; refine ⟨?_, ?_, ?_⟩)
    | with_reducible refine keepR_of ?_ | with_reducible refine keepM_of ?_ | with_reducible refine Keep.queue ?_
    | with_reducible refine keep_snd ‹_› ?_

theorem keep_execDriveEvent {s t : State} {n : Fin 8} {lane : Fin 32} {vec : Nat} {slot : Fin 4} (h : Keep s t) :
    KeepO s (execDriveEvent n lane vec slot t) := by
  unfold execDriveEvent
  repeat' first
    | with_reducible refine keepO_next ?_
    | with_reducible assumption | with_reducible refine keep_driveUpTo ?_ | split
    | (simp only [keep_mk]; refine ⟨?_, ?_, ?_⟩) | with_reducible refine keepR_of ?_
    | with_reducible refine keepM_of ?_ | with_reducible refine Keep.queue ?_
    | with_reducible refine keep_snd ‹_› ?_

theorem keep_failStrobe {s t : State} {n : Fin 8} {lane : Fin 32} {p : Played} {unit : Fin 2} {spill : Bool} (h : Keep s t) :
    Keep s (State.failStrobe t n lane p unit spill) := by
  unfold State.failStrobe; dsimp only
  repeat' first
    | with_reducible assumption | with_reducible refine keep_wr ?_ | with_reducible refine keep_addSat ?_
    | with_reducible refine keep_modSl ?_ | split | (simp only [keep_mk]; refine ⟨?_, ?_, ?_⟩)
    | with_reducible refine keepR_of ?_ | with_reducible refine keepM_of ?_ | with_reducible refine Keep.queue ?_

theorem keep_execStrobe {s t : State} {n : Fin 8} {lane : Fin 32} {vec : Nat} {unit : Fin 2} {obs : BallObs} (h : Keep s t) :
    KeepO s (execStrobe n lane vec unit obs t) := by
  unfold execStrobe; dsimp only
  repeat' first
    | with_reducible assumption | with_reducible refine keepO_next ?_ | with_reducible refine keep_modSl ?_
    | with_reducible refine keep_freeVal ?_ | with_reducible refine keep_drop ?_ | with_reducible refine keep_failStrobe ?_
    | split | with_reducible refine keep_snd ‹_› ?_

end Sys2Proof.Machine
end

