-- ==== Sys2Proof/Laws/KeepFields.lean ====
section
/-! SUPPORT. What the operations of Machine/Fields.lean keep. -/

namespace Sys2Proof.Machine

open Sys2Proof

theorem keep_setVal {s t : State} {r : Reg} {ix : List Nat} {v : DWord} (h : Keep s t) :
    Keep s (State.setVal t r ix v) := by
  unfold State.setVal; dsimp only
  repeat' first
    | with_reducible assumption | with_reducible refine keep_setReg ?_ | split

theorem keep_writeSome {s t : State} {ini : Initiator} {r : Reg} {ix : List Nat} {p : Part} {v : DWord} {f : FieldD → Bool} (h : Keep s t) :
    Keep s (State.writeSome t ini r ix p v f) := by
  unfold State.writeSome; dsimp only
  repeat' first
    | with_reducible assumption | with_reducible refine keep_accErr ?_ | with_reducible refine keep_setVal ?_ | split

theorem keep_writeReg {s t : State} {ini : Initiator} {r : Reg} {ix : List Nat} {p : Part} {v : DWord} (h : Keep s t) :
    Keep s (State.writeReg t ini r ix p v) := by
  unfold State.writeReg
  repeat' first
    | with_reducible assumption | with_reducible refine keep_writeSome ?_

theorem keep_writeUnless {s t : State} {busy : Bool} {ini : Initiator} {r : Reg} {ix : List Nat} {p : Part} {v : DWord} (h : Keep s t) :
    Keep s (State.writeUnless t busy ini r ix p v) := by
  unfold State.writeUnless
  repeat' first
    | with_reducible assumption | with_reducible refine keep_accErr ?_ | with_reducible refine keep_writeReg ?_ | split

end Sys2Proof.Machine
end

