-- ==== Sys2Proof/Laws/KeepPins.lean ====
section
/-! SUPPORT. What the operations of Machine/Pins.lean keep. -/

namespace Sys2Proof.Machine

open Sys2Proof

theorem keep_opPincfg {s t : State} {ini : Initiator} {n : Fin 8} {k : Fin 32} {v : DWord} (h : Keep s t) :
    Keep s (State.opPincfg t ini n k v) := by
  unfold State.opPincfg; dsimp only
  repeat' first
    | with_reducible assumption | with_reducible refine keep_modSl ?_ | with_reducible refine keep_accErr ?_
    | with_reducible refine keep_writeReg ?_ | split

theorem keep_pushLevel {s t : State} {ini : Initiator} {n : Fin 8} {opnd : DWord} (h : Keep s t) :
    Keep s (State.pushLevel t ini n opnd) := by
  unfold State.pushLevel; dsimp only
  repeat' first
    | with_reducible assumption | with_reducible refine keep_wr ?_ | with_reducible refine keep_modSl ?_
    | with_reducible refine keep_accErr ?_ | split | (simp only [keep_mk]; refine ⟨?_, ?_, ?_⟩)
    | with_reducible refine keepR_of ?_ | with_reducible refine keepM_of ?_ | with_reducible refine Keep.queue ?_

theorem keep_opLvlpush {s t : State} {ini : Initiator} {n : Fin 8} {p : Part} {v : DWord} (h : Keep s t) :
    Keep s (State.opLvlpush t ini n p v) := by
  unfold State.opLvlpush
  repeat' first
    | with_reducible assumption | with_reducible refine keep_accErr ?_ | with_reducible refine keep_setReg ?_
    | with_reducible refine keep_pushLevel ?_ | split | (simp only [keep_mk]; refine ⟨?_, ?_, ?_⟩)
    | with_reducible refine keepR_of ?_ | with_reducible refine keepM_of ?_ | with_reducible refine Keep.queue ?_
    | with_reducible refine keep_snd ‹_› ?_

theorem keep_driveDac {s t : State} {n : Fin 8} {k : Fin 32} {d : Fin 7} {code : Nat} (h : Keep s t) :
    Keep s (State.driveDac t n k d code) := by
  unfold State.driveDac
  repeat' first
    | with_reducible assumption | with_reducible refine keep_modSl ?_ | split
    | (simp only [keep_mk]; refine ⟨?_, ?_, ?_⟩) | with_reducible refine keepR_of ?_
    | with_reducible refine keepM_of ?_ | with_reducible refine Keep.queue ?_
    | with_reducible refine keep_snd ‹_› ?_

theorem keep_applyLevel {s t : State} {n : Fin 8} {dac : Nat} {code : Nat} {lanes : Word} (h : Keep s t) :
    Keep s (State.applyLevel t n dac code lanes) := by
  unfold State.applyLevel; dsimp only
  repeat' first
    | with_reducible assumption | with_reducible refine keep_each (fun _ _ _ => ?_) ?_
    | with_reducible refine keep_wr ?_ | with_reducible refine keep_driveDac ?_
    | with_reducible refine keepR_filter ?_ | split | (simp only [keep_mk]; refine ⟨?_, ?_, ?_⟩)
    | with_reducible refine keepR_of ?_ | with_reducible refine keepM_of ?_ | with_reducible refine Keep.queue ?_
    | with_reducible refine keep_snd ‹_› ?_

theorem keep_applyPpmu {s t : State} {n : Fin 8} {corr : Vector (Vector PmuCorr 5) 32} {k : Fin 32} (h : Keep s t) :
    Keep s (State.applyPpmu t n corr k) := by
  unfold State.applyPpmu; dsimp only
  repeat' first
    | with_reducible assumption | with_reducible refine keep_modSl ?_ | split
    | (simp only [keep_mk]; refine ⟨?_, ?_, ?_⟩) | with_reducible refine keepR_of ?_
    | with_reducible refine keepM_of ?_ | with_reducible refine Keep.queue ?_
    | with_reducible refine keep_snd ‹_› ?_

theorem keep_applyItem {s t : State} {n : Fin 8} {i : DacItem} (h : Keep s t) :
    Keep s (State.applyItem t n i) := by
  unfold State.applyItem; dsimp only
  repeat' first
    | with_reducible assumption | with_reducible refine keep_applyLevel ?_ | with_reducible refine keep_applyPpmu ?_
    | with_reducible refine keep_wr ?_ | with_reducible refine keep_driveDac ?_
    | with_reducible refine keep_modSl ?_ | with_reducible refine keep_each (fun _ _ _ => ?_) ?_ | split
    | (simp only [keep_mk]; refine ⟨?_, ?_, ?_⟩) | with_reducible refine keepR_of ?_
    | with_reducible refine keepM_of ?_ | with_reducible refine Keep.queue ?_
    | with_reducible refine keep_snd ‹_› ?_

theorem keep_tickSlice {s t : State} {n : Fin 8} (h : Keep s t) :
    Keep s (State.tickSlice t n) := by
  unfold State.tickSlice; dsimp only
  repeat' first
    | with_reducible assumption | with_reducible refine keep_foldl (fun _ _ _ => ?_) ?_ | with_reducible refine keep_modSl ?_
    | with_reducible refine keep_applyItem ?_ | split | (simp only [keep_mk]; refine ⟨?_, ?_, ?_⟩)
    | with_reducible refine keepR_of ?_ | with_reducible refine keepM_of ?_ | with_reducible refine Keep.queue ?_

theorem keep_tickExit {s t : State} (h : Keep s t) :
    Keep s (State.tickExit t) := by
  unfold State.tickExit; dsimp only
  repeat' first
    | with_reducible assumption | with_reducible refine keep_each (fun _ _ _ => ?_) ?_
    | with_reducible refine keep_takeSafe ?_ | with_reducible refine keep_modPower ?_
    | with_reducible refine keep_applyItem ?_ | with_reducible refine keep_modSl ?_ | split
    | (simp only [keep_mk]; refine ⟨?_, ?_, ?_⟩) | with_reducible refine keepR_of ?_
    | with_reducible refine keepM_of ?_ | with_reducible refine Keep.queue ?_
    | with_reducible refine keep_snd ‹_› ?_

theorem keep_execDacTick {s t : State} (h : Keep s t) :
    KeepO s (execDacTick t) := by
  unfold execDacTick
  repeat' first
    | with_reducible refine keepO_next ?_
    | with_reducible assumption | with_reducible refine keep_each (fun _ _ _ => ?_) ?_
    | with_reducible refine keep_tickSlice ?_ | with_reducible refine keep_tickExit ?_ | split
    | (simp only [keep_mk]; refine ⟨?_, ?_, ?_⟩) | with_reducible refine keepR_of ?_
    | with_reducible refine keepM_of ?_ | with_reducible refine Keep.queue ?_
    | with_reducible refine keep_snd ‹_› ?_

theorem keep_opPmuReg {s t : State} {ini : Initiator} {n : Fin 8} {k : Fin 32} {v : DWord} (h : Keep s t) :
    Keep s (State.opPmuReg t ini n k v) := by
  unfold State.opPmuReg
  repeat' first
    | with_reducible assumption | with_reducible refine keep_modSl ?_ | with_reducible refine keep_accErr ?_
    | with_reducible refine keep_writeReg ?_ | split | (simp only [keep_mk]; refine ⟨?_, ?_, ?_⟩)
    | with_reducible refine keepR_of ?_ | with_reducible refine keepM_of ?_ | with_reducible refine Keep.queue ?_

theorem keep_execPpmuAtLimit {s t : State} {n : Fin 8} {lane : Fin 32} {atLimit : Bool} (h : Keep s t) :
    KeepO s (execPpmuAtLimit n lane atLimit t) := by
  unfold execPpmuAtLimit; dsimp only
  repeat' first
    | with_reducible assumption | with_reducible refine keepO_next ?_ | with_reducible refine keep_modSl ?_ | split
    | (simp only [keep_mk]; refine ⟨?_, ?_, ?_⟩) | with_reducible refine keepR_of ?_ | with_reducible refine keepM_of ?_
    | with_reducible refine Keep.queue ?_

theorem keep_execPinsPark {s t : State} {n : Fin 8} (h : Keep s t) :
    KeepO s (execPinsPark n t) := by
  unfold execPinsPark; dsimp only
  repeat' first
    | with_reducible assumption | with_reducible refine keepO_next ?_ | with_reducible refine keep_modSl ?_ | split
    | (simp only [keep_mk]; refine ⟨?_, ?_, ?_⟩) | with_reducible refine keepR_of ?_ | with_reducible refine keepM_of ?_
    | with_reducible refine Keep.queue ?_

theorem keep_execBurstIdle {s t : State} {n : Fin 8} (h : Keep s t) :
    KeepO s (execBurstIdle n t) := by
  unfold execBurstIdle; dsimp only
  repeat' first
    | with_reducible assumption | with_reducible refine keepO_next ?_ | with_reducible refine keep_modSl ?_
    | with_reducible refine keep_msix ?_ | with_reducible refine keep_irqAll ?_ | split
    | (simp only [keep_mk]; refine ⟨?_, ?_, ?_⟩) | with_reducible refine keepR_of ?_ | with_reducible refine keepM_of ?_
    | with_reducible refine Keep.queue ?_

end Sys2Proof.Machine
end

