-- ==== Sys2Proof/Laws/KeepMeasure.lean ====
section
/-! SUPPORT. What the operations of Machine/Measure.lean keep. -/

namespace Sys2Proof.Machine

open Sys2Proof

theorem keep_startAdc {s t : State} {n : Fin 8} {src : BitVec 2} {tag : Byte} (h : Keep s t) :
    Keep s (State.startAdc t n src tag) := by
  unfold State.startAdc
  repeat' first
    | with_reducible assumption | with_reducible refine keep_modSl ?_ | (simp only [keep_mk]; refine ⟨?_, ?_, ?_⟩)
    | with_reducible refine keepR_of ?_ | with_reducible refine keepM_of ?_ | with_reducible refine Keep.queue ?_

theorem keep_startSum {s t : State} {n : Fin 8} (h : Keep s t) :
    Keep s (State.startSum t n) := by
  unfold State.startSum
  repeat' first
    | with_reducible assumption | with_reducible refine keep_wrs ?_ | with_reducible refine keep_modSl ?_
    | (simp only [keep_mk]; refine ⟨?_, ?_, ?_⟩) | with_reducible refine keepR_of ?_ | with_reducible refine keepM_of ?_
    | with_reducible refine Keep.queue ?_

theorem keep_adcStart {s t : State} {n : Fin 8} (h : Keep s t) :
    Keep s (State.adcStart t n) := by
  unfold State.adcStart
  repeat' first
    | with_reducible assumption | with_reducible refine keep_wr ?_ | with_reducible refine keep_startAdc ?_
    | with_reducible refine keep_startSum ?_ | split

theorem keep_opAdccmd {s t : State} {n : Fin 8} {v : Nat} (h : Keep s t) :
    Keep s (State.opAdccmd t n v) := by
  unfold State.opAdccmd; dsimp only
  repeat' first
    | with_reducible assumption | with_reducible refine keep_wr ?_ | with_reducible refine keep_modSl ?_
    | with_reducible refine keep_adcStart ?_ | split | (simp only [keep_mk]; refine ⟨?_, ?_, ?_⟩)
    | with_reducible refine keepR_of ?_ | with_reducible refine keepM_of ?_ | with_reducible refine Keep.queue ?_

theorem keep_execAdcTimer {s t : State} {n : Fin 8} (h : Keep s t) :
    KeepO s (execAdcTimer n t) := by
  unfold execAdcTimer
  repeat' first
    | with_reducible assumption | with_reducible refine keepO_next ?_ | with_reducible refine keep_wr ?_
    | with_reducible refine keep_startAdc ?_ | split

theorem keep_execAdcDelayExpiry {s t : State} {n : Fin 8} (h : Keep s t) :
    KeepO s (execAdcDelayExpiry n t) := by
  unfold execAdcDelayExpiry
  repeat' first
    | with_reducible assumption | with_reducible refine keepO_next ?_ | with_reducible refine keep_modSl ?_
    | (simp only [keep_mk]; refine ⟨?_, ?_, ?_⟩) | with_reducible refine keepR_of ?_ | with_reducible refine keepM_of ?_
    | with_reducible refine Keep.queue ?_

theorem keep_seqSample {s t : State} {n : Fin 8} {a : AdcRun} {sample : Nat} (h : Keep s t) :
    Keep s (State.seqSample t n a sample) := by
  unfold State.seqSample; dsimp only
  repeat' first
    | with_reducible assumption | with_reducible refine keep_modSl ?_ | with_reducible refine keep_postAdc ?_
    | with_reducible refine keep_sample ?_ | split | (simp only [keep_mk]; refine ⟨?_, ?_, ?_⟩)
    | with_reducible refine keepR_of ?_ | with_reducible refine keepM_of ?_ | with_reducible refine Keep.queue ?_

theorem keep_sumSample {s t : State} {n : Fin 8} {sample : Nat} (h : Keep s t) :
    Keep s (State.sumSample t n sample) := by
  unfold State.sumSample; dsimp only
  repeat' first
    | with_reducible assumption | with_reducible refine keep_wr ?_ | with_reducible refine keep_addSat ?_
    | with_reducible refine keep_modSl ?_ | with_reducible refine keep_sample ?_ | split
    | (simp only [keep_mk]; refine ⟨?_, ?_, ?_⟩) | with_reducible refine keepR_of ?_ | with_reducible refine keepM_of ?_
    | with_reducible refine Keep.queue ?_

theorem keep_execAdcSampleDone {s t : State} {n : Fin 8} {sample : BitVec 18} (h : Keep s t) :
    KeepO s (execAdcSampleDone n sample t) := by
  unfold execAdcSampleDone
  repeat' first
    | with_reducible assumption | with_reducible refine keepO_next ?_ | with_reducible refine keep_seqSample ?_
    | with_reducible refine keep_sumSample ?_ | with_reducible refine keep_sample ?_ | split

theorem keep_execAdcUrgentRequest {s t : State} {n : Fin 8} (h : Keep s t) :
    KeepO s (execAdcUrgentRequest n t) := by
  unfold execAdcUrgentRequest
  repeat' first
    | with_reducible assumption | with_reducible refine keepO_next ?_ | with_reducible refine keep_modSl ?_ | split
    | (simp only [keep_mk]; refine ⟨?_, ?_, ?_⟩) | with_reducible refine keepR_of ?_ | with_reducible refine keepM_of ?_
    | with_reducible refine Keep.queue ?_

theorem keep_takePmu {s t : State} {n : Fin 8} {tag : Byte} (h : Keep s t) :
    Keep s (State.takePmu t n tag) := by
  unfold State.takePmu; dsimp only
  repeat' first
    | with_reducible assumption | with_reducible refine keep_modSl ?_ | with_reducible refine keep_freeVal ?_
    | with_reducible refine keep_postAdc ?_ | with_reducible refine keep_startAdc ?_ | split
    | (simp only [keep_mk]; refine ⟨?_, ?_, ?_⟩) | with_reducible refine keepR_of ?_ | with_reducible refine keepM_of ?_
    | with_reducible refine Keep.queue ?_

theorem keep_armTdc {s t : State} {n : Fin 8} {tag : Byte} (h : Keep s t) :
    Keep s (State.armTdc t n tag) := by
  unfold State.armTdc
  repeat' first
    | with_reducible assumption | with_reducible refine keep_modSl ?_ | split | (simp only [keep_mk]; refine ⟨?_, ?_, ?_⟩)
    | with_reducible refine keepR_of ?_ | with_reducible refine keepM_of ?_ | with_reducible refine Keep.queue ?_

theorem keep_execPmuQueueTake {s t : State} {n : Fin 8} (h : Keep s t) :
    KeepO s (execPmuQueueTake n t) := by
  unfold execPmuQueueTake
  repeat' first
    | with_reducible assumption | with_reducible refine keepO_next ?_ | with_reducible refine keep_modSl ?_
    | with_reducible refine keep_takePmu ?_ | with_reducible refine keep_armTdc ?_ | split
    | (simp only [keep_mk]; refine ⟨?_, ?_, ?_⟩) | with_reducible refine keepR_of ?_ | with_reducible refine keepM_of ?_
    | with_reducible refine Keep.queue ?_

theorem keep_opTdccmd {s t : State} {n : Fin 8} {v : Nat} (h : Keep s t) :
    Keep s (State.opTdccmd t n v) := by
  unfold State.opTdccmd; dsimp only
  repeat' first
    | with_reducible assumption | with_reducible refine keep_wr ?_ | with_reducible refine keep_endTdc ?_
    | with_reducible refine keep_armTdc ?_ | split

theorem keep_opTdccfg {s t : State} {ini : Initiator} {n : Fin 8} {v : DWord} (h : Keep s t) :
    Keep s (State.opTdccfg t ini n v) := by
  unfold State.opTdccfg; dsimp only
  repeat' first
    | with_reducible assumption | with_reducible refine keep_wr ?_ | with_reducible refine keep_accErr ?_
    | with_reducible refine keep_writeReg ?_ | split

theorem keep_execTdcArmed {s t : State} {n : Fin 8} (h : Keep s t) :
    KeepO s (execTdcArmed n t) := by
  unfold execTdcArmed
  repeat' first
    | with_reducible assumption | with_reducible refine keepO_next ?_ | with_reducible refine keep_modSl ?_
    | (simp only [keep_mk]; refine ⟨?_, ?_, ?_⟩) | with_reducible refine keepR_of ?_ | with_reducible refine keepM_of ?_
    | with_reducible refine Keep.queue ?_

theorem keep_execTdcStartEdge {s t : State} {n : Fin 8} (h : Keep s t) :
    KeepO s (execTdcStartEdge n t) := by
  unfold execTdcStartEdge
  repeat' first
    | with_reducible assumption | with_reducible refine keepO_next ?_ | with_reducible refine keep_modSl ?_
    | (simp only [keep_mk]; refine ⟨?_, ?_, ?_⟩) | with_reducible refine keepR_of ?_ | with_reducible refine keepM_of ?_
    | with_reducible refine Keep.queue ?_

theorem keep_execTdcStop {s t : State} {n : Fin 8} {raw : Nat} (h : Keep s t) :
    KeepO s (execTdcStop n raw t) := by
  unfold execTdcStop
  repeat' first
    | with_reducible assumption | with_reducible refine keepO_next ?_ | with_reducible refine keep_modSl ?_
    | with_reducible refine keep_endTdc ?_ | split | (simp only [keep_mk]; refine ⟨?_, ?_, ?_⟩)
    | with_reducible refine keepR_of ?_ | with_reducible refine keepM_of ?_ | with_reducible refine Keep.queue ?_

theorem keep_execTdcTimeout {s t : State} {n : Fin 8} (h : Keep s t) :
    KeepO s (execTdcTimeout n t) := by
  unfold execTdcTimeout
  repeat' first
    | with_reducible assumption | with_reducible refine keepO_next ?_ | with_reducible refine keep_endTdc ?_ | split

theorem keep_execTdcLockLost {s t : State} {n : Fin 8} (h : Keep s t) :
    KeepO s (execTdcLockLost n t) := by
  unfold execTdcLockLost
  repeat' first
    | with_reducible assumption | with_reducible refine keepO_next ?_ | with_reducible refine keep_modSl ?_
    | (simp only [keep_mk]; refine ⟨?_, ?_, ?_⟩) | with_reducible refine keepR_of ?_ | with_reducible refine keepM_of ?_
    | with_reducible refine Keep.queue ?_

theorem keep_dropDisc {s t : State} (h : Keep s t) :
    Keep s (State.dropDisc t) := by
  unfold State.dropDisc
  repeat' first
    | with_reducible assumption | with_reducible refine keep_wr ?_ | with_reducible refine keep_modTime ?_
    | (simp only [keep_mk]; refine ⟨?_, ?_, ?_⟩) | with_reducible refine keepR_of ?_ | with_reducible refine keepM_of ?_
    | with_reducible refine Keep.queue ?_

theorem keep_execXoDisciplineUpdate {s t : State} {ppb : Int} (h : Keep s t) :
    KeepO s (execXoDisciplineUpdate ppb t) := by
  unfold execXoDisciplineUpdate; dsimp only
  repeat' first
    | with_reducible assumption | with_reducible refine keepO_next ?_ | with_reducible refine keep_wrs ?_
    | with_reducible refine keep_modTime ?_ | split | (simp only [keep_mk]; refine ⟨?_, ?_, ?_⟩)
    | with_reducible refine keepR_of ?_ | with_reducible refine keepM_of ?_ | with_reducible refine Keep.queue ?_

theorem keep_opXotb {s t : State} {ini : Initiator} {v : DWord} (h : Keep s t) :
    Keep s (State.opXotb t ini v) := by
  unfold State.opXotb; dsimp only
  repeat' first
    | with_reducible assumption | with_reducible refine keep_accErr ?_ | with_reducible refine keep_writeSome ?_
    | with_reducible refine keep_dropDisc ?_ | split

end Sys2Proof.Machine
end

