-- ==== Sys2Proof/Laws/KeepSpool.lean ====
section
/-! SUPPORT. What the operations of Machine/Spool.lean keep. -/

namespace Sys2Proof.Machine

open Sys2Proof

theorem keep_spoolStore {s t : State} {n : Fin 8} {r : SpoolRec} (h : Keep s t) :
    Keep s (State.spoolStore t n r) := by
  unfold State.spoolStore; dsimp only
  repeat' first
    | with_reducible assumption | with_reducible refine keep_addSat ?_ | with_reducible refine keep_modSl ?_
    | with_reducible refine keep_wr ?_ | with_reducible refine keep_modSeqs ?_
    | with_reducible refine keep_endHere ?_ | split | (simp only [keep_mk]; refine ⟨?_, ?_, ?_⟩)
    | with_reducible refine keepR_of ?_ | with_reducible refine keepM_of ?_ | with_reducible refine Keep.queue ?_
    | with_reducible refine keep_snd ‹_› ?_

theorem keep_execSpoolRecord {s t : State} {n : Fin 8} (h : Keep s t) :
    KeepO s (execSpoolRecord n t) := by
  unfold execSpoolRecord; dsimp only
  repeat' first
    | with_reducible assumption | with_reducible refine keepO_next ?_ | with_reducible refine keep_modSl ?_
    | with_reducible refine keep_spoolStore ?_ | split | (simp only [keep_mk]; refine ⟨?_, ?_, ?_⟩)
    | with_reducible refine keepR_of ?_ | with_reducible refine keepM_of ?_ | with_reducible refine Keep.queue ?_

theorem keep_opSprd {s t : State} {n : Fin 8} {v : Nat} (h : Keep s t) :
    Keep s (State.opSprd t n v) := by
  unfold State.opSprd; dsimp only
  repeat' first
    | with_reducible assumption | with_reducible refine keep_wr ?_ | split

theorem keep_dropStage {s t : State} {n : Fin 8} (h : Keep s t) :
    Keep s (State.dropStage t n) := by
  unfold State.dropStage
  repeat' first
    | with_reducible assumption | with_reducible refine keep_addSat ?_ | with_reducible refine keep_modSl ?_
    | (simp only [keep_mk]; refine ⟨?_, ?_, ?_⟩) | with_reducible refine keepR_of ?_ | with_reducible refine keepM_of ?_
    | with_reducible refine Keep.queue ?_

theorem keep_opSpcmd {s t : State} {ini : Initiator} {n : Fin 8} {v : Nat} (h : Keep s t) :
    Keep s (State.opSpcmd t ini n v) := by
  unfold State.opSpcmd; dsimp only
  repeat' first
    | with_reducible assumption | with_reducible refine keep_resetRegs ?_ | with_reducible refine keep_accErr ?_
    | with_reducible refine keep_dropStage ?_ | split

theorem keep_opLatch {s t : State} {ini : Initiator} {n : Fin 8} {v : Nat} {fail : Bool} (h : Keep s t) :
    Keep s (State.opLatch t ini n v fail) := by
  unfold State.opLatch; dsimp only
  repeat' first
    | with_reducible assumption | with_reducible refine keep_each (fun _ _ _ => ?_) ?_ | with_reducible refine keep_wr ?_
    | with_reducible refine keep_accErr ?_ | split

theorem keep_smapApply {s t : State} {n : Fin 8} (h : Keep s t) :
    Keep s (State.smapApply t n) := by
  unfold State.smapApply; dsimp only
  repeat' first
    | with_reducible assumption | with_reducible refine keep_modSl ?_
    | with_reducible refine keep_each (fun _ _ _ => ?_) ?_ | with_reducible refine keep_wr ?_
    | with_reducible refine keepR_filter ?_ | split | (simp only [keep_mk]; refine ⟨?_, ?_, ?_⟩)
    | with_reducible refine keepR_of ?_ | with_reducible refine keepM_of ?_ | with_reducible refine Keep.queue ?_
    | with_reducible refine keep_snd ‹_› ?_

theorem keep_smapCommit {s t : State} {ini : Initiator} {n : Fin 8} (h : Keep s t) :
    Keep s (State.smapCommit t ini n) := by
  unfold State.smapCommit; dsimp only
  repeat' first
    | with_reducible assumption | with_reducible refine keep_wrs ?_ | with_reducible refine keep_accErr ?_
    | with_reducible refine keep_smapApply ?_ | split | with_reducible refine keep_snd ‹_› ?_

theorem keep_smapRevert {s t : State} {n : Fin 8} (h : Keep s t) :
    Keep s (State.smapRevert t n) := by
  unfold State.smapRevert; dsimp only
  repeat' first
    | with_reducible assumption | with_reducible refine keep_each (fun _ _ _ => ?_) ?_ | with_reducible refine keep_setReg ?_
    | split

theorem keep_opSmapcmd {s t : State} {ini : Initiator} {n : Fin 8} {v : Nat} (h : Keep s t) :
    Keep s (State.opSmapcmd t ini n v) := by
  unfold State.opSmapcmd; dsimp only
  repeat' first
    | with_reducible assumption | with_reducible refine keep_smapCommit ?_ | with_reducible refine keep_smapRevert ?_ | split

theorem keep_opGang {s t : State} {ini : Initiator} {n : Fin 8} {v : Nat} (h : Keep s t) :
    Keep s (State.opGang t ini n v) := by
  unfold State.opGang; dsimp only
  repeat' first
    | with_reducible assumption | with_reducible refine keep_each (fun _ _ _ => ?_) ?_ | with_reducible refine keep_wr ?_
    | with_reducible refine keep_wrs ?_ | with_reducible refine keep_accErr ?_ | split

end Sys2Proof.Machine
end

