-- ==== Sys2Proof/Laws/KeepScope.lean ====
section
/-! SUPPORT. What the operations of Machine/Scope.lean keep. -/

namespace Sys2Proof.Machine

open Sys2Proof

theorem keep_modScope {s t : State} {n : Fin 8} {f : Scope → Scope} (h : Keep s t) :
    Keep s (State.modScope t n f) := by
  unfold State.modScope
  repeat' first
    | with_reducible assumption | with_reducible refine keep_modSl ?_ | (simp only [keep_mk]; refine ⟨?_, ?_, ?_⟩)
    | with_reducible refine keepR_of ?_ | with_reducible refine keepM_of ?_ | with_reducible refine Keep.queue ?_

theorem keep_stageVoh {s t : State} {n : Fin 8} {code : Nat} (h : Keep s t) :
    Keep s (State.stageVoh t n code) := by
  unfold State.stageVoh; dsimp only
  repeat' first
    | with_reducible assumption | with_reducible refine keep_modSl ?_ | (simp only [keep_mk]; refine ⟨?_, ?_, ?_⟩)
    | with_reducible refine keepR_of ?_ | with_reducible refine keepM_of ?_ | with_reducible refine Keep.queue ?_

theorem keep_scopeArm {s t : State} {ini : Initiator} {n : Fin 8} (h : Keep s t) :
    Keep s (State.scopeArm t ini n) := by
  unfold State.scopeArm; dsimp only
  repeat' first
    | with_reducible assumption | with_reducible refine keep_setReg ?_ | with_reducible refine keep_wr ?_
    | with_reducible refine keep_accErr ?_ | with_reducible refine keep_modScope ?_ | with_reducible refine keep_stageVoh ?_
    | split

theorem keep_scopeEnd {s t : State} {n : Fin 8} {st : ScopeState} (h : Keep s t) :
    Keep s (State.scopeEnd t n st) := by
  unfold State.scopeEnd
  repeat' first
    | with_reducible assumption | with_reducible refine keep_modScope ?_ | with_reducible refine keep_stageVoh ?_
    | (simp only [keep_mk]; refine ⟨?_, ?_, ?_⟩) | with_reducible refine keepR_of ?_ | with_reducible refine keepM_of ?_
    | with_reducible refine Keep.queue ?_

theorem keep_opScpcmd {s t : State} {ini : Initiator} {n : Fin 8} {v : Nat} (h : Keep s t) :
    Keep s (State.opScpcmd t ini n v) := by
  unfold State.opScpcmd; dsimp only
  repeat' first
    | with_reducible assumption | with_reducible refine keep_scopeArm ?_ | with_reducible refine keep_scopeEnd ?_ | split

theorem keep_execScopeSettled {s t : State} {n : Fin 8} (h : Keep s t) :
    KeepO s (execScopeSettled n t) := by
  unfold execScopeSettled
  repeat' first
    | with_reducible assumption | with_reducible refine keepO_next ?_ | with_reducible refine keep_modScope ?_ | split
    | (simp only [keep_mk]; refine ⟨?_, ?_, ?_⟩) | with_reducible refine keepR_of ?_ | with_reducible refine keepM_of ?_
    | with_reducible refine Keep.queue ?_

theorem keep_execScopeTrigger {s t : State} {n : Fin 8} {vec : Nat} (h : Keep s t) :
    KeepO s (execScopeTrigger n vec t) := by
  unfold execScopeTrigger; dsimp only
  repeat' first
    | with_reducible assumption | with_reducible refine keepO_next ?_ | with_reducible refine keep_modScope ?_ | split
    | (simp only [keep_mk]; refine ⟨?_, ?_, ?_⟩) | with_reducible refine keepR_of ?_ | with_reducible refine keepM_of ?_
    | with_reducible refine Keep.queue ?_

theorem keep_execScopeForcedTrigger {s t : State} {n : Fin 8} (h : Keep s t) :
    KeepO s (execScopeForcedTrigger n t) := by
  unfold execScopeForcedTrigger; dsimp only
  repeat' first
    | with_reducible assumption | with_reducible refine keepO_next ?_ | with_reducible refine keep_addSat ?_
    | with_reducible refine keep_modScope ?_ | split | (simp only [keep_mk]; refine ⟨?_, ?_, ?_⟩)
    | with_reducible refine keepR_of ?_ | with_reducible refine keepM_of ?_ | with_reducible refine Keep.queue ?_

end Sys2Proof.Machine
end

