-- ==== Sys2Proof/Laws/KeepHart.lean ====
section
/-! SUPPORT. What the operations of Machine/Hart.lean keep. -/

namespace Sys2Proof.Machine

open Sys2Proof

theorem keep_tickMtip {s t : State} (h : Keep s t) :
    Keep s (State.tickMtip t) := by
  unfold State.tickMtip; dsimp only
  repeat' first
    | with_reducible assumption | split | (simp only [keep_mk]; refine ⟨?_, ?_, ?_⟩)
    | with_reducible refine keepR_of ?_ | with_reducible refine keepM_of ?_ | with_reducible refine Keep.queue ?_
    | with_reducible refine keep_snd ‹_› ?_

end Sys2Proof.Machine
end

