-- ==== Sys2Proof/Laws/KeepScan.lean ====
section
/-! SUPPORT. What the operations of Machine/Scan.lean keep. -/

namespace Sys2Proof.Machine

open Sys2Proof

theorem keep_markLead {s t : State} {u : Fin 4} (h : Keep s t) :
    Keep s (State.markLead t u) := by
  unfold State.markLead; dsimp only
  repeat' first
    | with_reducible assumption | with_reducible refine keep_modScan ?_ | split
    | (simp only [keep_mk]; refine ⟨?_, ?_, ?_⟩) | with_reducible refine keepR_of ?_
    | with_reducible refine keepM_of ?_ | with_reducible refine Keep.queue ?_
    | with_reducible refine keep_snd ‹_› ?_

theorem keep_scanRefuse {s t : State} {u1 : Fin 4} {why : Nat} {value : Nat} (h : Keep s t) :
    Keep s (State.scanRefuse t u1 why value) := by
  unfold State.scanRefuse
  repeat' first
    | with_reducible assumption | with_reducible refine keep_wrs ?_

theorem keep_scanAccept {s t : State} {u : Fin 4} (h : Keep s t) :
    Keep s (State.scanAccept t u) := by
  unfold State.scanAccept; dsimp only
  repeat' first
    | with_reducible assumption | with_reducible refine keep_wr ?_ | with_reducible refine keep_modScan ?_
    | with_reducible refine keep_markLead ?_ | split | (simp only [keep_mk]; refine ⟨?_, ?_, ?_⟩)
    | with_reducible refine keepR_of ?_ | with_reducible refine keepM_of ?_ | with_reducible refine Keep.queue ?_
    | with_reducible refine keep_snd ‹_› ?_

theorem keep_scanAdmit {s t : State} {u : Fin 4} (h : Keep s t) :
    Keep s (State.scanAdmit t u) := by
  unfold State.scanAdmit; dsimp only
  repeat' first
    | with_reducible assumption | with_reducible refine keep_abandonRinse ?_
    | with_reducible refine keep_scanRefuse ?_ | with_reducible refine keep_freeVal ?_
    | with_reducible refine keep_scanAccept ?_ | split | (simp only [keep_mk]; refine ⟨?_, ?_, ?_⟩)
    | with_reducible refine keepR_of ?_ | with_reducible refine keepM_of ?_ | with_reducible refine Keep.queue ?_
    | with_reducible refine keep_snd ‹_› ?_

theorem keep_scanStop {s t : State} {u1 : Fin 4} (h : Keep s t) :
    Keep s (State.scanStop t u1) := by
  unfold State.scanStop
  repeat' first
    | with_reducible assumption | with_reducible refine keep_wr ?_ | with_reducible refine keep_modScan ?_

theorem keep_opScanCtrl {s t : State} {ini : Initiator} {u : Fin 4} {v : DWord} (h : Keep s t) :
    Keep s (State.opScanCtrl t ini u v) := by
  unfold State.opScanCtrl; dsimp only
  repeat' first
    | with_reducible assumption | with_reducible refine keep_accErr ?_ | with_reducible refine keep_scanRefuse ?_
    | with_reducible refine keep_scanStop ?_ | with_reducible refine keep_writeSome ?_
    | with_reducible refine keep_scanAdmit ?_ | split | (simp only [keep_mk]; refine ⟨?_, ?_, ?_⟩)
    | with_reducible refine keepR_of ?_ | with_reducible refine keepM_of ?_ | with_reducible refine Keep.queue ?_
    | with_reducible refine keep_snd ‹_› ?_

theorem keep_opScanResv {s t : State} {ini : Initiator} {u1 : Fin 4} {v : Nat} (h : Keep s t) :
    Keep s (State.opScanResv t ini u1 v) := by
  unfold State.opScanResv; dsimp only
  repeat' first
    | with_reducible assumption | with_reducible refine keep_wr ?_ | with_reducible refine keep_accErr ?_ | split

theorem keep_opScanWmark {s t : State} {ini : Initiator} {u1 : Fin 4} {v : DWord} (h : Keep s t) :
    Keep s (State.opScanWmark t ini u1 v) := by
  unfold State.opScanWmark; dsimp only
  repeat' first
    | with_reducible assumption | with_reducible refine keep_wr ?_ | with_reducible refine keep_accErr ?_
    | with_reducible refine keep_writeReg ?_ | split

theorem keep_scanFlag {s t : State} {u : Fin 4} {f : Fld} (h : Keep s t) :
    Keep s (State.scanFlag t u f) := by
  unfold State.scanFlag
  repeat' first
    | with_reducible assumption | with_reducible refine keep_wr ?_ | with_reducible refine keep_msix ?_ | split
    | (simp only [keep_mk]; refine ⟨?_, ?_, ?_⟩) | with_reducible refine keepR_of ?_
    | with_reducible refine keepM_of ?_ | with_reducible refine Keep.queue ?_
    | with_reducible refine keep_snd ‹_› ?_

theorem keep_opScanCmd {s t : State} {u : Fin 4} {v : Nat} (h : Keep s t) :
    Keep s (State.opScanCmd t u v) := by
  unfold State.opScanCmd; dsimp only
  repeat' first
    | with_reducible assumption | with_reducible refine keep_scanFlag ?_ | with_reducible refine keep_addSat ?_
    | with_reducible refine keep_modScan ?_ | split | (simp only [keep_mk]; refine ⟨?_, ?_, ?_⟩)
    | with_reducible refine keepR_of ?_ | with_reducible refine keepM_of ?_ | with_reducible refine Keep.queue ?_
    | with_reducible refine keep_snd ‹_› ?_

theorem keep_execScanLeadWatermark {s t : State} {u : Fin 4} {aurgent : Bool} {apanic : Bool} (h : Keep s t) :
    KeepO s (execScanLeadWatermark u aurgent apanic t) := by
  unfold execScanLeadWatermark
  repeat' first
    | with_reducible refine keepO_next ?_
    | with_reducible assumption | with_reducible refine keep_markLead ?_ | with_reducible refine keep_samplePanic ?_
    | split | (simp only [keep_mk]; refine ⟨?_, ?_, ?_⟩) | with_reducible refine keepR_of ?_
    | with_reducible refine keepM_of ?_ | with_reducible refine Keep.queue ?_
    | with_reducible refine keep_snd ‹_› ?_

theorem keep_lineFetch {s t : State} {u1 : Fin 4} {y : Nat} (h : Keep s t) :
    Keep s (State.lineFetch t u1 y) := by
  unfold State.lineFetch
  repeat' first
    | with_reducible assumption | with_reducible refine keep_modScan ?_ | split | (simp only [keep_mk]; refine ⟨?_, ?_, ?_⟩)
    | with_reducible refine keepR_of ?_ | with_reducible refine keepM_of ?_ | with_reducible refine Keep.queue ?_

theorem keep_execScanRasterStart {s t : State} {u : Fin 4} (h : Keep s t) :
    KeepO s (execScanRasterStart u t) := by
  unfold execScanRasterStart; dsimp only
  repeat' first
    | with_reducible refine keepO_next ?_
    | with_reducible assumption | with_reducible refine keep_setReg ?_ | with_reducible refine keep_modScan ?_
    | with_reducible refine keep_lineFetch ?_ | with_reducible refine keep_markLead ?_ | split
    | (simp only [keep_mk]; refine ⟨?_, ?_, ?_⟩) | with_reducible refine keepR_of ?_
    | with_reducible refine keepM_of ?_ | with_reducible refine Keep.queue ?_
    | with_reducible refine keep_snd ‹_› ?_

theorem keep_takeRequests {s t : State} {u1 : Fin 4} {atC : Bool} (h : Keep s t) :
    Keep s (State.takeRequests t u1 atC) := by
  unfold State.takeRequests; dsimp only
  repeat' first
    | with_reducible assumption | with_reducible refine keep_modScan ?_ | with_reducible refine keep_scanRefuse ?_ | split
    | with_reducible refine keep_snd ‹_› ?_ | (simp only [keep_mk]; refine ⟨?_, ?_, ?_⟩) | with_reducible refine keepR_of ?_
    | with_reducible refine keepM_of ?_ | with_reducible refine Keep.queue ?_

theorem keep_fetchPoint {s t : State} {u : Fin 4} (h : Keep s t) :
    Keep s (State.fetchPoint t u) := by
  unfold State.fetchPoint; dsimp only
  repeat' first
    | with_reducible assumption | with_reducible refine keep_scanFlag ?_ | with_reducible refine keep_addSat ?_
    | with_reducible refine keep_modScan ?_ | split | (simp only [keep_mk]; refine ⟨?_, ?_, ?_⟩)
    | with_reducible refine keepR_of ?_ | with_reducible refine keepM_of ?_ | with_reducible refine Keep.queue ?_
    | with_reducible refine keep_snd ‹_› ?_

theorem keep_nextLine {s t : State} {u1 : Fin 4} (h : Keep s t) :
    Keep s (State.nextLine t u1) := by
  unfold State.nextLine; dsimp only
  repeat' first
    | with_reducible assumption | with_reducible refine keep_wr ?_ | with_reducible refine keep_modScan ?_ | split
    | (simp only [keep_mk]; refine ⟨?_, ?_, ?_⟩) | with_reducible refine keepR_of ?_ | with_reducible refine keepM_of ?_
    | with_reducible refine Keep.queue ?_

theorem keep_execScanLineStart {s t : State} {u : Fin 4} (h : Keep s t) :
    KeepO s (execScanLineStart u t) := by
  unfold execScanLineStart; dsimp only
  repeat' first
    | with_reducible refine keepO_next ?_
    | with_reducible assumption | with_reducible refine keep_nextLine ?_ | with_reducible refine keep_lineFetch ?_
    | with_reducible refine keep_takeRequests ?_ | with_reducible refine keep_fetchPoint ?_
    | with_reducible refine keep_markLead ?_ | split | (simp only [keep_mk]; refine ⟨?_, ?_, ?_⟩)
    | with_reducible refine keepR_of ?_ | with_reducible refine keepM_of ?_ | with_reducible refine Keep.queue ?_
    | with_reducible refine keep_snd ‹_› ?_

theorem keep_scanFault {s t : State} {u : Fin 4} (h : Keep s t) :
    Keep s (State.scanFault t u) := by
  unfold State.scanFault; dsimp only
  repeat' first
    | with_reducible assumption | with_reducible refine keep_scanFlag ?_ | with_reducible refine keep_modScan ?_
    | with_reducible refine keep_each (fun _ _ _ => ?_) ?_ | with_reducible refine keep_containedSl ?_ | split
    | (simp only [keep_mk]; refine ⟨?_, ?_, ?_⟩) | with_reducible refine keepR_of ?_
    | with_reducible refine keepM_of ?_ | with_reducible refine Keep.queue ?_
    | with_reducible refine keep_snd ‹_› ?_

theorem keep_scanUnderrun {s t : State} {u : Fin 4} (h : Keep s t) :
    Keep s (State.scanUnderrun t u) := by
  unfold State.scanUnderrun
  repeat' first
    | with_reducible assumption | with_reducible refine keep_reportUnit ?_ | with_reducible refine keep_scanFault ?_
    | split | (simp only [keep_mk]; refine ⟨?_, ?_, ?_⟩) | with_reducible refine keepR_of ?_
    | with_reducible refine keepM_of ?_ | with_reducible refine Keep.queue ?_
    | with_reducible refine keep_snd ‹_› ?_

theorem keep_execScanUnderrun {s t : State} {u : Fin 4} (h : Keep s t) :
    KeepO s (execScanUnderrun u t) := by
  unfold execScanUnderrun
  repeat' first
    | with_reducible refine keepO_next ?_
    | with_reducible assumption | with_reducible refine keep_scanUnderrun ?_ | split
    | (simp only [keep_mk]; refine ⟨?_, ?_, ?_⟩) | with_reducible refine keepR_of ?_
    | with_reducible refine keepM_of ?_ | with_reducible refine Keep.queue ?_
    | with_reducible refine keep_snd ‹_› ?_

theorem keep_playOne {s t : State} {l : Fin 8} (h : Keep s t) :
    Keep s (State.playOne t l) := by
  unfold State.playOne; dsimp only
  repeat' first
    | with_reducible assumption | with_reducible refine keep_each (fun _ _ _ => ?_) ?_
    | with_reducible refine keep_modSl ?_ | with_reducible refine keep_modSeqs ?_ | split
    | (simp only [keep_mk]; refine ⟨?_, ?_, ?_⟩) | with_reducible refine keepR_of ?_
    | with_reducible refine keepM_of ?_ | with_reducible refine Keep.queue ?_
    | with_reducible refine keep_snd ‹_› ?_

theorem keep_execVectorGroup {s t : State} {n : Fin 8} (h : Keep s t) :
    KeepO s (execVectorGroup n t) := by
  unfold execVectorGroup; dsimp only
  repeat' first
    | with_reducible refine keepO_next ?_
    | with_reducible assumption | with_reducible refine keep_dueEcc ?_ | with_reducible refine keep_finish ?_
    | with_reducible refine keep_playOne ?_ | with_reducible refine keep_modSeqs ?_ | split
    | (simp only [keep_mk]; refine ⟨?_, ?_, ?_⟩) | with_reducible refine keepR_of ?_
    | with_reducible refine keepM_of ?_ | with_reducible refine Keep.queue ?_
    | with_reducible refine keep_snd ‹_› ?_

end Sys2Proof.Machine
end

