-- ==== Sys2Proof/Laws/KeepDrc.lean ====
section
/-! SUPPORT. What the operations of Machine/Drc.lean keep. -/

namespace Sys2Proof.Machine

open Sys2Proof

theorem keep_execPanicLong {s t : State} (h : Keep s t) :
    KeepO s (execPanicLong t) := by
  unfold execPanicLong
  repeat' first
    | with_reducible refine keepO_next ?_
    | with_reducible assumption | with_reducible refine keep_samplePanic ?_ | split
    | (simp only [keep_mk]; refine ⟨?_, ?_, ?_⟩) | with_reducible refine keepR_of ?_
    | with_reducible refine keepM_of ?_ | with_reducible refine Keep.queue ?_
    | with_reducible refine keep_snd ‹_› ?_

theorem keep_refreshWindow {s t : State} {k : Fin 2} (h : Keep s t) :
    Keep s (State.refreshWindow t k) := by
  unfold State.refreshWindow; dsimp only
  repeat' first
    | with_reducible assumption | with_reducible refine keep_modDrc ?_ | split | (simp only [keep_mk]; refine ⟨?_, ?_, ?_⟩)
    | with_reducible refine keepR_of ?_ | with_reducible refine keepM_of ?_ | with_reducible refine Keep.queue ?_

theorem keep_activate {s t : State} {pc : Fin 64} {sid : Fin 3} {bank : Fin 16} {row : Nat} (h : Keep s t) :
    Keep s (State.activate t pc sid bank row) := by
  unfold State.activate; dsimp only
  repeat' first
    | with_reducible assumption | with_reducible refine keep_refreshWindow ?_ | with_reducible refine keep_modDrc ?_
    | split | (simp only [keep_mk]; refine ⟨?_, ?_, ?_⟩) | with_reducible refine keepR_of ?_
    | with_reducible refine keepM_of ?_ | with_reducible refine Keep.queue ?_
    | with_reducible refine keep_snd ‹_› ?_

theorem keep_refreshRows {s t : State} {pc : Fin 64} {sid : Fin 3} {bank : Fin 16} {rows : List Nat} (h : Keep s t) :
    Keep s (State.refreshRows t pc sid bank rows) := by
  unfold State.refreshRows
  repeat' first
    | with_reducible assumption | with_reducible refine keep_each (fun _ _ _ => ?_) ?_
    | with_reducible refine keep_activate ?_ | with_reducible refine keep_modDrc ?_ | split
    | (simp only [keep_mk]; refine ⟨?_, ?_, ?_⟩) | with_reducible refine keepR_of ?_
    | with_reducible refine keepM_of ?_ | with_reducible refine Keep.queue ?_
    | with_reducible refine keep_snd ‹_› ?_

theorem keep_targetedRefresh {s t : State} {e : Fin 64 × Fin 3 × Fin 16 × Nat} (h : Keep s t) :
    Keep s (State.targetedRefresh t e) := by
  unfold State.targetedRefresh; dsimp only
  repeat' first
    | with_reducible assumption | with_reducible refine keep_addSat ?_ | with_reducible refine keep_modDrc ?_
    | with_reducible refine keep_refreshRows ?_ | with_reducible refine keepR_filter ?_ | split
    | (simp only [keep_mk]; refine ⟨?_, ?_, ?_⟩) | with_reducible refine keepR_of ?_
    | with_reducible refine keepM_of ?_ | with_reducible refine Keep.queue ?_
    | with_reducible refine keep_snd ‹_› ?_

theorem keep_probRefresh {s t : State} {e : Fin 64 × Fin 3 × Fin 16 × Nat} (h : Keep s t) :
    Keep s (State.probRefresh t e) := by
  unfold State.probRefresh; dsimp only
  repeat' first
    | with_reducible assumption | with_reducible refine keep_addSat ?_ | with_reducible refine keep_modDrc ?_
    | with_reducible refine keep_refreshRows ?_ | with_reducible refine keepR_filter ?_ | split
    | (simp only [keep_mk]; refine ⟨?_, ?_, ?_⟩) | with_reducible refine keepR_of ?_
    | with_reducible refine keepM_of ?_ | with_reducible refine Keep.queue ?_
    | with_reducible refine keep_snd ‹_› ?_

theorem keep_maintain {s t : State} {pc : Fin 64} (h : Keep s t) :
    Keep s (State.maintain t pc) := by
  unfold State.maintain; dsimp only
  repeat' first
    | with_reducible assumption | with_reducible refine keep_each (fun _ _ _ => ?_) ?_
    | with_reducible refine keep_targetedRefresh ?_ | with_reducible refine keep_probRefresh ?_
    | with_reducible refine keepR_filter ?_ | split | (simp only [keep_mk]; refine ⟨?_, ?_, ?_⟩)
    | with_reducible refine keepR_of ?_ | with_reducible refine keepM_of ?_ | with_reducible refine Keep.queue ?_
    | with_reducible refine keep_snd ‹_› ?_

theorem keep_execRowActivate {s t : State} {pc : Fin 64} {sid : Fin 3} {bank : Fin 16} {row : Nat} {adraw : Bool}
    (h : Keep s t) :
    KeepO s (execRowActivate pc sid bank row adraw t) := by
  unfold execRowActivate
  repeat' first
    | with_reducible refine keepO_next ?_
    | with_reducible assumption | with_reducible refine keep_maintain ?_ | with_reducible refine keep_activate ?_
    | split | (simp only [keep_mk]; refine ⟨?_, ?_, ?_⟩) | with_reducible refine keepR_of ?_
    | with_reducible refine keepM_of ?_ | with_reducible refine Keep.queue ?_
    | with_reducible refine keep_snd ‹_› ?_

theorem keep_execTargetedRefresh {s t : State} {pc : Fin 64} {sid : Fin 3} {bank : Fin 16} {row : Nat}
    (h : Keep s t) :
    KeepO s (execTargetedRefresh pc sid bank row t) := by
  unfold execTargetedRefresh; dsimp only
  repeat' first
    | with_reducible refine keepO_next ?_
    | with_reducible assumption | with_reducible refine keep_targetedRefresh ?_ | split
    | (simp only [keep_mk]; refine ⟨?_, ?_, ?_⟩) | with_reducible refine keepR_of ?_
    | with_reducible refine keepM_of ?_ | with_reducible refine Keep.queue ?_
    | with_reducible refine keep_snd ‹_› ?_

theorem keep_execProbRefresh {s t : State} {pc : Fin 64} {sid : Fin 3} {bank : Fin 16} {row : Nat} (h : Keep s t) :
    KeepO s (execProbRefresh pc sid bank row t) := by
  unfold execProbRefresh; dsimp only
  repeat' first
    | with_reducible refine keepO_next ?_
    | with_reducible assumption | with_reducible refine keep_probRefresh ?_ | split
    | (simp only [keep_mk]; refine ⟨?_, ?_, ?_⟩) | with_reducible refine keepR_of ?_
    | with_reducible refine keepM_of ?_ | with_reducible refine Keep.queue ?_
    | with_reducible refine keep_snd ‹_› ?_

theorem keep_recordEcc {s t : State} {a : Nat} {ue : Bool} (h : Keep s t) :
    Keep s (State.recordEcc t a ue) := by
  unfold State.recordEcc; dsimp only
  repeat' first
    | with_reducible assumption | with_reducible refine keep_wrs ?_ | split

theorem keep_execHbmCorrectedError {s t : State} {addr : Nat} (h : Keep s t) :
    KeepO s (execHbmCorrectedError addr t) := by
  unfold execHbmCorrectedError; dsimp only
  repeat' first
    | with_reducible refine keepO_next ?_
    | with_reducible assumption | with_reducible refine keep_whenAwake (fun _ _ => ?_) ?_
    | with_reducible refine keep_addSat ?_ | with_reducible refine keep_recordEcc ?_
    | with_reducible refine keep_reportUnit ?_ | split | (simp only [keep_mk]; refine ⟨?_, ?_, ?_⟩)
    | with_reducible refine keepR_of ?_ | with_reducible refine keepM_of ?_ | with_reducible refine Keep.queue ?_
    | with_reducible refine keep_snd ‹_› ?_

theorem keep_hbmUe {s t : State} {who : HbmBy} {addr : Nat} (h : Keep s t) :
    Keep s (State.hbmUe t who addr) := by
  unfold State.hbmUe; dsimp only
  repeat' first
    | with_reducible assumption | with_reducible refine keep_addSat ?_ | with_reducible refine keep_recordEcc ?_
    | with_reducible refine keep_reportUnit ?_ | with_reducible refine keep_scanUnderrun ?_
    | with_reducible refine keep_modCore ?_ | split | (simp only [keep_mk]; refine ⟨?_, ?_, ?_⟩)
    | with_reducible refine keepR_of ?_ | with_reducible refine keepM_of ?_ | with_reducible refine Keep.queue ?_
    | with_reducible refine keep_snd ‹_› ?_

theorem keep_execHbmUncorrectableError {s t : State} {addr : Nat} {who : HbmBy} (h : Keep s t) :
    KeepO s (execHbmUncorrectableError addr who t) := by
  unfold execHbmUncorrectableError
  repeat' first
    | with_reducible refine keepO_next ?_
    | with_reducible assumption | with_reducible refine keep_whenAwake (fun _ _ => ?_) ?_
    | with_reducible refine keep_hbmUe ?_ | split | (simp only [keep_mk]; refine ⟨?_, ?_, ?_⟩)
    | with_reducible refine keepR_of ?_ | with_reducible refine keepM_of ?_ | with_reducible refine Keep.queue ?_
    | with_reducible refine keep_snd ‹_› ?_

theorem keep_readBytes {s t : State} {a : Nat} {len : Nat} (h : Keep s t) :
    Keep s (State.readBytes t a len).2 := by
  unfold State.readBytes
  repeat' first
    | with_reducible assumption | split | (simp only [keep_mk]; refine ⟨?_, ?_, ?_⟩) | with_reducible refine keepR_of ?_
    | with_reducible refine keepM_of ?_ | with_reducible refine Keep.queue ?_

theorem keep_readMem {s t : State} {a : Nat} {len : Nat} (h : Keep s t) :
    Keep s (State.readMem t a len).2 := by
  unfold State.readMem; dsimp only
  repeat' first
    | with_reducible assumption | with_reducible refine keep_readBytes ?_ | split
    | (simp only [keep_mk]; refine ⟨?_, ?_, ?_⟩) | with_reducible refine keepR_of ?_
    | with_reducible refine keepM_of ?_ | with_reducible refine Keep.queue ?_
    | with_reducible refine keep_snd ‹_› ?_

theorem keep_deliver {s t : State} {who : HbmBy} {v : Nat} (h : Keep s t) :
    Keep s (State.deliver t who v) := by
  unfold State.deliver; dsimp only
  repeat' first
    | with_reducible assumption | with_reducible refine keep_modCore ?_ | split
    | (simp only [keep_mk]; refine ⟨?_, ?_, ?_⟩) | with_reducible refine keepR_of ?_
    | with_reducible refine keepM_of ?_ | with_reducible refine Keep.queue ?_
    | with_reducible refine keep_snd ‹_› ?_

theorem keep_hbmDeny {s t : State} {who : HbmBy} {a : Nat} {write : Bool} (h : Keep s t) :
    Keep s (State.hbmDeny t who a write) := by
  unfold State.hbmDeny; dsimp only
  repeat' first
    | with_reducible assumption | with_reducible refine keep_deliver ?_ | with_reducible refine keep_hbmRefuse ?_
    | with_reducible refine keep_modCore ?_ | split | (simp only [keep_mk]; refine ⟨?_, ?_, ?_⟩)
    | with_reducible refine keepR_of ?_ | with_reducible refine keepM_of ?_ | with_reducible refine Keep.queue ?_
    | with_reducible refine keep_snd ‹_› ?_

theorem keep_ownStore {s t : State} {c : Fin 8} {a : Nat} {bs : List Byte} (h : Keep s t) :
    Keep s (State.ownStore t c a bs) := by
  unfold State.ownStore
  repeat' first
    | with_reducible assumption | with_reducible refine keep_modCore ?_ | split
    | (simp only [keep_mk]; refine ⟨?_, ?_, ?_⟩) | with_reducible refine keepR_of ?_
    | with_reducible refine keepM_of ?_ | with_reducible refine Keep.queue ?_
    | with_reducible refine keep_snd ‹_› ?_

theorem keep_issueStore {s t : State} {who : HbmBy} {a : Nat} {bs : List Byte} (h : Keep s t) :
    Keep s (State.issueStore t who a bs) := by
  unfold State.issueStore
  repeat' first
    | with_reducible assumption | with_reducible refine keep_ownStore ?_ | split
    | (simp only [keep_mk]; refine ⟨?_, ?_, ?_⟩) | with_reducible refine keepR_of ?_
    | with_reducible refine keepM_of ?_ | with_reducible refine Keep.queue ?_
    | with_reducible refine keep_snd ‹_› ?_

theorem keep_undoStore {s t : State} {who : HbmBy} {a : Nat} {len : Nat} (h : Keep s t) :
    Keep s (State.undoStore t who a len) := by
  unfold State.undoStore
  repeat' first
    | with_reducible assumption | with_reducible refine keep_modCore ?_ | with_reducible refine keepR_filter ?_
    | split | (simp only [keep_mk]; refine ⟨?_, ?_, ?_⟩) | with_reducible refine keepR_of ?_
    | with_reducible refine keepM_of ?_ | with_reducible refine Keep.queue ?_
    | with_reducible refine keep_snd ‹_› ?_

theorem keep_storeGranule {s t : State} {r : HbmReq} {bs : List Byte} (h : Keep s t) :
    Keep s (State.storeGranule t r bs) := by
  unfold State.storeGranule; dsimp only
  repeat' first
    | with_reducible assumption | with_reducible refine keep_undoStore ?_ | with_reducible refine keep_hbmDeny ?_
    | with_reducible refine keep_store ?_ | with_reducible refine keep_drop ?_ | with_reducible refine keep_hbmUe ?_
    | split | (simp only [keep_mk]; refine ⟨?_, ?_, ?_⟩) | with_reducible refine keepR_of ?_
    | with_reducible refine keepM_of ?_ | with_reducible refine Keep.queue ?_
    | with_reducible refine keep_snd ‹_› ?_

theorem keep_streamGranule {s t : State} {r : HbmReq} (h : Keep s t) :
    Keep s (State.streamGranule t r) := by
  unfold State.streamGranule
  repeat' first
    | with_reducible assumption | with_reducible refine keep_streamRead ?_ | split
    | (simp only [keep_mk]; refine ⟨?_, ?_, ?_⟩) | with_reducible refine keepR_of ?_
    | with_reducible refine keepM_of ?_ | with_reducible refine Keep.queue ?_
    | with_reducible refine keep_snd ‹_› ?_

theorem keep_readGranule {s t : State} {r : HbmReq} (h : Keep s t) :
    Keep s (State.readGranule t r) := by
  unfold State.readGranule; dsimp only
  repeat' first
    | with_reducible assumption | with_reducible refine keep_hbmUe ?_ | with_reducible refine keep_streamGranule ?_
    | with_reducible refine keep_readMem ?_ | with_reducible refine keep_deliver ?_ | split
    | (simp only [keep_mk]; refine ⟨?_, ?_, ?_⟩) | with_reducible refine keepR_of ?_
    | with_reducible refine keepM_of ?_ | with_reducible refine Keep.queue ?_
    | with_reducible refine keep_snd ‹_› ?_

theorem keep_openFor {s t : State} {a : Nat} (h : Keep s t) :
    Keep s (State.openFor t a) := by
  unfold State.openFor; dsimp only
  repeat' first
    | with_reducible assumption | with_reducible refine keep_maintain ?_ | with_reducible refine keep_activate ?_
    | split | (simp only [keep_mk]; refine ⟨?_, ?_, ?_⟩) | with_reducible refine keepR_of ?_
    | with_reducible refine keepM_of ?_ | with_reducible refine Keep.queue ?_
    | with_reducible refine keep_snd ‹_› ?_

theorem keep_tookTurn {s t : State} {who : HbmBy} {a : Nat} (h : Keep s t) :
    Keep s (State.tookTurn t who a) := by
  unfold State.tookTurn
  repeat' first
    | with_reducible assumption | with_reducible refine keep_modDrc ?_ | split
    | (simp only [keep_mk]; refine ⟨?_, ?_, ?_⟩) | with_reducible refine keepR_of ?_
    | with_reducible refine keepM_of ?_ | with_reducible refine Keep.queue ?_
    | with_reducible refine keep_snd ‹_› ?_

theorem keep_serve {s t : State} {r : HbmReq} (h : Keep s t) :
    Keep s (State.serve t r) := by
  unfold State.serve; dsimp only
  repeat' first
    | with_reducible assumption | with_reducible refine keep_modDrc ?_ | with_reducible refine keep_tookTurn ?_
    | with_reducible refine keep_openFor ?_ | with_reducible refine keep_wr ?_
    | with_reducible refine keep_storeGranule ?_ | with_reducible refine keep_readGranule ?_ | split
    | (simp only [keep_mk]; refine ⟨?_, ?_, ?_⟩) | with_reducible refine keepR_of ?_
    | with_reducible refine keepM_of ?_ | with_reducible refine Keep.queue ?_
    | with_reducible refine keep_snd ‹_› ?_

theorem keep_serveAll {s t : State} {k : Nat} (h : Keep s t) :
    Keep s (State.serveAll t k) := by
  induction k generalizing t with
  | zero => exact h
  | succ k ih =>
    unfold State.serveAll
    split
    · exact ih (keep_serve h)
    · exact h

theorem keep_drcCycle {s t : State} (h : Keep s t) :
    Keep s (State.drcCycle t) := by
  unfold State.drcCycle; dsimp only
  repeat' first
    | with_reducible assumption | with_reducible refine keep_samplePanic ?_ | with_reducible refine keep_serveAll ?_
    | split | (simp only [keep_mk]; refine ⟨?_, ?_, ?_⟩) | with_reducible refine keepR_of ?_
    | with_reducible refine keepM_of ?_ | with_reducible refine Keep.queue ?_
    | with_reducible refine keep_snd ‹_› ?_

theorem keep_tookTurns {s t : State} {who : HbmBy} {a : Nat} {len : Nat} (h : Keep s t) :
    Keep s (State.tookTurns t who a len) := by
  unfold State.tookTurns
  repeat' first
    | with_reducible assumption | with_reducible refine keep_each (fun _ _ _ => ?_) ?_
    | with_reducible refine keep_tookTurn ?_ | with_reducible refine keep_maintain ?_ | split
    | (simp only [keep_mk]; refine ⟨?_, ?_, ?_⟩) | with_reducible refine keepR_of ?_
    | with_reducible refine keepM_of ?_ | with_reducible refine Keep.queue ?_
    | with_reducible refine keep_snd ‹_› ?_

theorem keep_execVerifyDone {s t : State} {n : Fin 8} {ecc : EccWhere} (h : Keep s t) :
    KeepO s (execVerifyDone n ecc t) := by
  unfold execVerifyDone; dsimp only
  repeat' first
    | with_reducible refine keepO_next ?_
    | with_reducible assumption | with_reducible refine keep_drcCycle ?_ | with_reducible refine keep_tookTurns ?_
    | with_reducible refine keep_modSl ?_ | split | (simp only [keep_mk]; refine ⟨?_, ?_, ?_⟩)
    | with_reducible refine keepR_of ?_ | with_reducible refine keepM_of ?_ | with_reducible refine Keep.queue ?_
    | with_reducible refine keep_snd ‹_› ?_

theorem keep_execHbmAccess {s t : State} {who : HbmBy} {addr : Nat} {len : Nat} {op : HbmOp} (h : Keep s t) :
    KeepO s (execHbmAccess who addr len op t) := by
  unfold execHbmAccess
  repeat' first
    | with_reducible refine keepO_next ?_
    | with_reducible assumption | with_reducible refine keep_wr ?_ | with_reducible refine keep_issueStore ?_
    | with_reducible refine keep_modDrc ?_ | with_reducible refine keep_drcCycle ?_
    | with_reducible refine keep_hbmDeny ?_ | with_reducible refine keep_samplePanic ?_ | split
    | (simp only [keep_mk]; refine ⟨?_, ?_, ?_⟩) | with_reducible refine keepR_of ?_
    | with_reducible refine keepM_of ?_ | with_reducible refine Keep.queue ?_
    | with_reducible refine keep_snd ‹_› ?_

theorem keep_execRefreshDue {s t : State} {pc : Fin 64} (h : Keep s t) :
    KeepO s (execRefreshDue pc t) := by
  unfold execRefreshDue; dsimp only
  repeat' first
    | with_reducible refine keepO_next ?_
    | with_reducible assumption | with_reducible refine keep_drcCycle ?_
    | with_reducible refine keep_refreshWindow ?_ | with_reducible refine keep_modDrc ?_
    | with_reducible refine keep_wr ?_ | with_reducible refine keep_addSat ?_ | split
    | (simp only [keep_mk]; refine ⟨?_, ?_, ?_⟩) | with_reducible refine keepR_of ?_
    | with_reducible refine keepM_of ?_ | with_reducible refine Keep.queue ?_
    | with_reducible refine keep_snd ‹_› ?_

theorem keep_execForcedBurstRefresh {s t : State} {pc : Fin 64} (h : Keep s t) :
    KeepO s (execForcedBurstRefresh pc t) := by
  unfold execForcedBurstRefresh
  repeat' first
    | with_reducible refine keepO_next ?_
    | with_reducible assumption | with_reducible refine keep_modDrc ?_ | with_reducible refine keep_drcCycle ?_
    | split | (simp only [keep_mk]; refine ⟨?_, ?_, ?_⟩) | with_reducible refine keepR_of ?_
    | with_reducible refine keepM_of ?_ | with_reducible refine Keep.queue ?_
    | with_reducible refine keep_snd ‹_› ?_

theorem keep_execHbmTempRead {s t : State} {k : Fin 2} {temp : Int} (h : Keep s t) :
    KeepO s (execHbmTempRead k temp t) := by
  unfold execHbmTempRead; dsimp only
  repeat' first
    | with_reducible assumption | with_reducible refine keepO_next ?_ | with_reducible refine keep_modDrc ?_
    | with_reducible refine keep_reportUnit ?_ | with_reducible refine keep_fatalNow ?_ | split
    | (simp only [keep_mk]; refine ⟨?_, ?_, ?_⟩) | with_reducible refine keepR_of ?_ | with_reducible refine keepM_of ?_
    | with_reducible refine Keep.queue ?_

theorem keep_opHbcmd {s t : State} {ini : Initiator} {v : Nat} (h : Keep s t) :
    Keep s (State.opHbcmd t ini v) := by
  unfold State.opHbcmd
  repeat' first
    | with_reducible assumption | with_reducible refine keep_each (fun _ _ _ => ?_) ?_ | with_reducible refine keep_modDrc ?_
    | with_reducible refine keep_accErr ?_ | split | (simp only [keep_mk]; refine ⟨?_, ?_, ?_⟩)
    | with_reducible refine keepR_of ?_ | with_reducible refine keepM_of ?_ | with_reducible refine Keep.queue ?_

theorem keep_opTrn {s t : State} {ini : Initiator} {k : Fin 2} {c : Fin 16} {w : Fin 64} {v : DWord} (h : Keep s t) :
    Keep s (State.opTrn t ini k c w v) := by
  unfold State.opTrn
  repeat' first
    | with_reducible assumption | with_reducible refine keep_accErr ?_ | with_reducible refine keep_writeReg ?_ | split

theorem keep_opPpr {s t : State} {ini : Initiator} {v : Nat} (h : Keep s t) :
    Keep s (State.opPpr t ini v) := by
  unfold State.opPpr; dsimp only
  repeat' first
    | with_reducible assumption | with_reducible refine keep_wr ?_ | with_reducible refine keep_modDrc ?_
    | with_reducible refine keep_accErr ?_ | split | (simp only [keep_mk]; refine ⟨?_, ?_, ?_⟩)
    | with_reducible refine keepR_of ?_ | with_reducible refine keepM_of ?_ | with_reducible refine Keep.queue ?_

theorem keep_execPprDone {s t : State} {res : PprEnd} (h : Keep s t) :
    KeepO s (execPprDone res t) := by
  unfold execPprDone
  repeat' first
    | with_reducible assumption | with_reducible refine keepO_next ?_ | with_reducible refine keep_wr ?_
    | with_reducible refine keep_modDrc ?_ | split | (simp only [keep_mk]; refine ⟨?_, ?_, ?_⟩)
    | with_reducible refine keepR_of ?_ | with_reducible refine keepM_of ?_ | with_reducible refine Keep.queue ?_

end Sys2Proof.Machine
end

