-- ==== Sys2Proof/Laws/KeepRtPorts.lean ====
section
/-! SUPPORT. What the operations of Machine/RtPorts.lean keep. -/

namespace Sys2Proof.Machine

open Sys2Proof

theorem keep_execSpoolDrain {s t : State} {n : Fin 8} (h : Keep s t) :
    KeepO s (execSpoolDrain n t) := by
  unfold execSpoolDrain; dsimp only
  repeat' first
    | with_reducible refine keepO_next ?_
    | with_reducible assumption | with_reducible refine keep_drcCycle ?_ | with_reducible refine keep_wrs ?_
    | with_reducible refine keep_tookTurns ?_ | with_reducible refine keep_store ?_
    | with_reducible refine keep_wr ?_ | with_reducible refine keep_modSl ?_ | split
    | (simp only [keep_mk]; refine ⟨?_, ?_, ?_⟩) | with_reducible refine keepR_of ?_
    | with_reducible refine keepM_of ?_ | with_reducible refine Keep.queue ?_
    | with_reducible refine keep_snd ‹_› ?_

theorem keep_storeCount {s t : State} {n : Fin 8} {place : Nat} {count : Nat} (h : Keep s t) :
    Keep s (State.storeCount t n place count) := by
  unfold State.storeCount
  repeat' first
    | with_reducible assumption | with_reducible refine keep_tookTurns ?_ | with_reducible refine keep_store ?_
    | with_reducible refine keep_modDrc ?_ | with_reducible refine keep_hbmRefuse ?_ | split
    | (simp only [keep_mk]; refine ⟨?_, ?_, ?_⟩) | with_reducible refine keepR_of ?_
    | with_reducible refine keepM_of ?_ | with_reducible refine Keep.queue ?_
    | with_reducible refine keep_snd ‹_› ?_

theorem keep_scopeDone {s t : State} {n : Fin 8} (h : Keep s t) :
    Keep s (State.scopeDone t n) := by
  unfold State.scopeDone; dsimp only
  repeat' first
    | with_reducible assumption | with_reducible refine keep_wrs ?_ | with_reducible refine keep_wr ?_
    | with_reducible refine keep_scopeEnd ?_ | split | (simp only [keep_mk]; refine ⟨?_, ?_, ?_⟩)
    | with_reducible refine keepR_of ?_ | with_reducible refine keepM_of ?_ | with_reducible refine Keep.queue ?_
    | with_reducible refine keep_snd ‹_› ?_

theorem keep_scopeStore {s t : State} {n : Fin 8} {count : Nat} (h : Keep s t) :
    Keep s (State.scopeStore t n count) := by
  unfold State.scopeStore; dsimp only
  repeat' first
    | with_reducible assumption | with_reducible refine keep_storeCount ?_ | with_reducible refine keep_modScope ?_
    | with_reducible refine keep_stageVoh ?_ | with_reducible refine keep_scopeDone ?_ | split
    | (simp only [keep_mk]; refine ⟨?_, ?_, ?_⟩) | with_reducible refine keepR_of ?_
    | with_reducible refine keepM_of ?_ | with_reducible refine Keep.queue ?_
    | with_reducible refine keep_snd ‹_› ?_

theorem keep_execScopeSample {s t : State} {n : Fin 8} {above : Bool} (h : Keep s t) :
    KeepO s (execScopeSample n above t) := by
  unfold execScopeSample; dsimp only
  repeat' first
    | with_reducible refine keepO_next ?_
    | with_reducible assumption | with_reducible refine keep_drcCycle ?_ | with_reducible refine keep_modScope ?_
    | with_reducible refine keep_scopeStore ?_ | split | (simp only [keep_mk]; refine ⟨?_, ?_, ?_⟩)
    | with_reducible refine keepR_of ?_ | with_reducible refine keepM_of ?_ | with_reducible refine Keep.queue ?_
    | with_reducible refine keep_snd ‹_› ?_

theorem keep_execScanLineFetched {s t : State} {u : Fin 4} (h : Keep s t) :
    KeepO s (execScanLineFetched u t) := by
  unfold execScanLineFetched; dsimp only
  repeat' first
    | with_reducible refine keepO_next ?_
    | with_reducible assumption | with_reducible refine keep_drcCycle ?_
    | with_reducible refine keep_each (fun _ _ _ => ?_) ?_ | with_reducible refine keep_tookTurns ?_
    | with_reducible refine keep_modScan ?_ | with_reducible refine keep_markLead ?_ | split
    | (simp only [keep_mk]; refine ⟨?_, ?_, ?_⟩) | with_reducible refine keepR_of ?_
    | with_reducible refine keepM_of ?_ | with_reducible refine Keep.queue ?_
    | with_reducible refine keep_snd ‹_› ?_

end Sys2Proof.Machine
end

