-- ==== Sys2Proof/Laws/KeepCores.lean ====
section
/-! SUPPORT. What the operations of Machine/Cores.lean keep. -/

namespace Sys2Proof.Machine

open Sys2Proof

theorem keep_dispReady {s t : State} (h : Keep s t) :
    Keep s (State.dispReady t) := by
  unfold State.dispReady
  repeat' first
    | with_reducible assumption | with_reducible refine keep_dispatch ?_ | with_reducible refine keep_setReady ?_
    | split | (simp only [keep_mk]; refine ⟨?_, ?_, ?_⟩) | with_reducible refine keepR_of ?_
    | with_reducible refine keepM_of ?_ | with_reducible refine Keep.queue ?_
    | with_reducible refine keep_snd ‹_› ?_

theorem keep_coresReady {s t : State} (h : Keep s t) :
    Keep s (State.coresReady t) := by
  unfold State.coresReady
  repeat' first
    | with_reducible assumption | with_reducible refine keep_setReady ?_

theorem keep_abandonTask {s t : State} {c : Fin 8} (h : Keep s t) :
    Keep s (State.abandonTask t c) := by
  unfold State.abandonTask
  repeat' first
    | with_reducible assumption | with_reducible refine keep_wr ?_ | with_reducible refine keep_modCore ?_ | split
    | (simp only [keep_mk]; refine ⟨?_, ?_, ?_⟩) | with_reducible refine keepR_of ?_ | with_reducible refine keepM_of ?_
    | with_reducible refine Keep.queue ?_

theorem keep_releaseGet {s t : State} {c : Fin 8} (h : Keep s t) :
    Keep s (State.releaseGet t c) := by
  unfold State.releaseGet
  repeat' first
    | with_reducible assumption | with_reducible refine keep_modCore ?_ | split | (simp only [keep_mk]; refine ⟨?_, ?_, ?_⟩)
    | with_reducible refine keepR_of ?_ | with_reducible refine keepM_of ?_ | with_reducible refine Keep.queue ?_

theorem keep_getRelease {s t : State} {c : Fin 8} (h : Keep s t) :
    Keep s (State.getRelease t c) := by
  unfold State.getRelease
  repeat' first
    | with_reducible assumption | with_reducible refine keep_releaseGet ?_ | split
    | (simp only [keep_mk]; refine ⟨?_, ?_, ?_⟩) | with_reducible refine keepR_of ?_
    | with_reducible refine keepM_of ?_ | with_reducible refine Keep.queue ?_
    | with_reducible refine keep_snd ‹_› ?_

theorem keep_coreReset {s t : State} {c : Fin 8} (h : Keep s t) :
    Keep s (State.coreReset t c) := by
  unfold State.coreReset; dsimp only
  repeat' first
    | with_reducible assumption | with_reducible refine keep_wr ?_ | with_reducible refine keep_modCore ?_
    | with_reducible refine keep_coresReady ?_ | with_reducible refine keep_abandonTask ?_
    | (simp only [keep_mk]; refine ⟨?_, ?_, ?_⟩) | with_reducible refine keepR_of ?_ | with_reducible refine keepM_of ?_
    | with_reducible refine Keep.queue ?_

theorem keep_coreRun {s t : State} {c : Fin 8} {run : Bool} (h : Keep s t) :
    Keep s (State.coreRun t c run) := by
  unfold State.coreRun; dsimp only
  repeat' first
    | with_reducible assumption | with_reducible refine keep_wr ?_ | with_reducible refine keep_modCore ?_
    | with_reducible refine keep_coresReady ?_ | split | (simp only [keep_mk]; refine ⟨?_, ?_, ?_⟩)
    | with_reducible refine keepR_of ?_ | with_reducible refine keepM_of ?_ | with_reducible refine Keep.queue ?_

theorem keep_opCoreCtrl {s t : State} {ini : Initiator} {c : Fin 8} {v : DWord} (h : Keep s t) :
    Keep s (State.opCoreCtrl t ini c v) := by
  unfold State.opCoreCtrl; dsimp only
  repeat' first
    | with_reducible assumption | with_reducible refine keep_writeSome ?_ | with_reducible refine keep_releaseGet ?_
    | with_reducible refine keep_coreReset ?_ | with_reducible refine keep_coreRun ?_ | split

theorem keep_coreFault {s t : State} {c : Fin 8} (h : Keep s t) :
    Keep s (State.coreFault t c) := by
  unfold State.coreFault
  repeat' first
    | with_reducible assumption | with_reducible refine keep_abandonTask ?_ | with_reducible refine keep_wr ?_
    | with_reducible refine keep_modCore ?_ | with_reducible refine keep_coresReady ?_ | split
    | (simp only [keep_mk]; refine ⟨?_, ?_, ?_⟩) | with_reducible refine keepR_of ?_
    | with_reducible refine keepM_of ?_ | with_reducible refine Keep.queue ?_
    | with_reducible refine keep_snd ‹_› ?_

theorem keep_execCoreUe {s t : State} {c : Fin 8} (h : Keep s t) :
    KeepO s (execCoreUe c t) := by
  unfold execCoreUe
  repeat' first
    | with_reducible refine keepO_next ?_
    | with_reducible assumption | with_reducible refine keep_whenAwake (fun _ _ => ?_) ?_
    | with_reducible refine keep_reportUnit ?_ | with_reducible refine keep_coreFault ?_ | split
    | (simp only [keep_mk]; refine ⟨?_, ?_, ?_⟩) | with_reducible refine keepR_of ?_
    | with_reducible refine keepM_of ?_ | with_reducible refine Keep.queue ?_
    | with_reducible refine keep_snd ‹_› ?_

theorem keep_execCoreTimerInterrupt {s t : State} {c : Fin 8} (h : Keep s t) :
    KeepO s (execCoreTimerInterrupt c t) := by
  unfold execCoreTimerInterrupt; dsimp only
  repeat' first
    | with_reducible assumption | with_reducible refine keepO_next ?_ | with_reducible refine keep_modCore ?_
    | (simp only [keep_mk]; refine ⟨?_, ?_, ?_⟩) | with_reducible refine keepR_of ?_ | with_reducible refine keepM_of ?_
    | with_reducible refine Keep.queue ?_

theorem keep_opIrqpend {s t : State} {ini : Initiator} {c : Fin 8} {v : Nat} (h : Keep s t) :
    Keep s (State.opIrqpend t ini c v) := by
  unfold State.opIrqpend; dsimp only
  repeat' first
    | with_reducible assumption | with_reducible refine keep_setReg ?_ | with_reducible refine keep_wr ?_ | split

theorem keep_opPush {s t : State} {ini : Initiator} {desc : DWord} (h : Keep s t) :
    Keep s (State.opPush t ini desc) := by
  unfold State.opPush
  repeat' first
    | with_reducible assumption | with_reducible refine keep_wr ?_ | with_reducible refine keep_addSat ?_
    | with_reducible refine keep_accErr ?_ | split | (simp only [keep_mk]; refine ⟨?_, ?_, ?_⟩)
    | with_reducible refine keepR_of ?_ | with_reducible refine keepM_of ?_ | with_reducible refine Keep.queue ?_

theorem keep_dropTasks {s t : State} {p : Task → Bool} (h : Keep s t) :
    Keep s (State.dropTasks t p) := by
  unfold State.dropTasks; dsimp only
  repeat' first
    | with_reducible assumption | with_reducible refine keep_addSat ?_ | (simp only [keep_mk]; refine ⟨?_, ?_, ?_⟩)
    | with_reducible refine keepR_of ?_ | with_reducible refine keepM_of ?_ | with_reducible refine Keep.queue ?_

theorem keep_opFlush {s t : State} {v : Nat} (h : Keep s t) :
    Keep s (State.opFlush t v) := by
  unfold State.opFlush
  repeat' first
    | with_reducible assumption | with_reducible refine keep_dropTasks ?_ | split

theorem keep_nextGroup {s t : State} {lvl : Fin 16} (h : Keep s t) :
    Keep s (State.nextGroup t lvl) := by
  unfold State.nextGroup; dsimp only
  repeat' first
    | with_reducible assumption | (simp only [keep_mk]; refine ⟨?_, ?_, ?_⟩) | with_reducible refine keepR_of ?_
    | with_reducible refine keepM_of ?_ | with_reducible refine Keep.queue ?_

theorem keep_drr {s t : State} {groups : Nat} {lvl : Fin 16} {k : Nat} (h : Keep s t) :
    Keep s (State.drr t groups lvl k).1 := by
  induction k generalizing t with
  | zero => exact h
  | succ k ih =>
    unfold State.drr
    dsimp only
    split
    · exact ih (keep_nextGroup (keep_ite ⟨h.1, h.2, h.3⟩ h))
    · split
      · exact ih (keep_nextGroup h)
      · exact ⟨h.1, h.2, h.3⟩

theorem keep_grant {s t : State} {c : Fin 8} {t1 : Task} (h : Keep s t) :
    Keep s (State.grant t c t1) := by
  unfold State.grant; dsimp only
  repeat' first
    | with_reducible assumption | with_reducible refine keep_wr ?_ | with_reducible refine keep_addSat ?_
    | with_reducible refine keep_modCore ?_ | (simp only [keep_mk]; refine ⟨?_, ?_, ?_⟩) | with_reducible refine keepR_of ?_
    | with_reducible refine keepM_of ?_ | with_reducible refine Keep.queue ?_

theorem keep_execDispatchGrant {s t : State} (h : Keep s t) :
    KeepO s (execDispatchGrant t) := by
  unfold execDispatchGrant
  refine keepO_next ?_
  split
  · exact h
  · split
    · exact h
    · rename_i c _
      dsimp only
      split
      · exact h
      · rename_i l _
        have k : Keep s (State.drr t (t.rd (fDpCoreCtrl_GROUPS c)) l 10).1 := keep_drr h
        split
        · rename_i e; rw [e] at k; exact keep_grant k
        · rename_i e; rw [e] at k; exact k

theorem keep_coreGet {s t : State} {c : Fin 8} (h : Keep s t) :
    Keep s (State.coreGet t c) := by
  unfold State.coreGet; dsimp only
  repeat' first
    | with_reducible assumption | with_reducible refine keep_wr ?_ | with_reducible refine keep_modCore ?_ | split
    | (simp only [keep_mk]; refine ⟨?_, ?_, ?_⟩) | with_reducible refine keepR_of ?_
    | with_reducible refine keepM_of ?_ | with_reducible refine Keep.queue ?_
    | with_reducible refine keep_snd ‹_› ?_

theorem keep_coreDone {s t : State} {c : Fin 8} (h : Keep s t) :
    Keep s (State.coreDone t c) := by
  unfold State.coreDone
  repeat' first
    | with_reducible assumption | with_reducible refine keep_wr ?_ | with_reducible refine keep_modCore ?_ | split
    | (simp only [keep_mk]; refine ⟨?_, ?_, ?_⟩) | with_reducible refine keepR_of ?_
    | with_reducible refine keepM_of ?_ | with_reducible refine Keep.queue ?_
    | with_reducible refine keep_snd ‹_› ?_

theorem keep_execGet {s t : State} {c : Fin 8} (h : Keep s t) :
    KeepO s (execGet c t) := by
  unfold execGet
  repeat' first
    | with_reducible refine keepO_next ?_
    | with_reducible assumption | with_reducible refine keep_coreGet ?_ | split
    | (simp only [keep_mk]; refine ⟨?_, ?_, ?_⟩) | with_reducible refine keepR_of ?_
    | with_reducible refine keepM_of ?_ | with_reducible refine Keep.queue ?_
    | with_reducible refine keep_snd ‹_› ?_

theorem keep_execGetRelease {s t : State} {c : Fin 8} (h : Keep s t) :
    KeepO s (execGetRelease c t) := by
  unfold execGetRelease
  repeat' first
    | with_reducible refine keepO_next ?_
    | with_reducible assumption | with_reducible refine keep_getRelease ?_ | split
    | (simp only [keep_mk]; refine ⟨?_, ?_, ?_⟩) | with_reducible refine keepR_of ?_
    | with_reducible refine keepM_of ?_ | with_reducible refine Keep.queue ?_
    | with_reducible refine keep_snd ‹_› ?_

theorem keep_execDone {s t : State} {c : Fin 8} (h : Keep s t) :
    KeepO s (execDone c t) := by
  unfold execDone
  repeat' first
    | with_reducible refine keepO_next ?_
    | with_reducible assumption | with_reducible refine keep_coreDone ?_ | split
    | (simp only [keep_mk]; refine ⟨?_, ?_, ?_⟩) | with_reducible refine keepR_of ?_
    | with_reducible refine keepM_of ?_ | with_reducible refine Keep.queue ?_
    | with_reducible refine keep_snd ‹_› ?_

end Sys2Proof.Machine
end

