-- ==== Sys2Proof/Laws/KeepPorts.lean ====
section
/-! SUPPORT. What the operations of Machine/Ports.lean keep. -/

namespace Sys2Proof.Machine

open Sys2Proof

theorem keep_dropFrames {s t : State} {p : Fin 4} (h : Keep s t) :
    Keep s (State.dropFrames t p) := by
  unfold State.dropFrames; dsimp only
  repeat' first
    | with_reducible assumption | with_reducible refine keep_addSat ?_ | with_reducible refine keep_modPort ?_ | split
    | (simp only [keep_mk]; refine ⟨?_, ?_, ?_⟩) | with_reducible refine keepR_of ?_ | with_reducible refine keepM_of ?_
    | with_reducible refine Keep.queue ?_

theorem keep_enter {s t : State} {p : Fin 4} {st : PortState} {single : Bool} (h : Keep s t) :
    Keep s (State.enter t p st single) := by
  unfold State.enter; dsimp only
  repeat' first
    | with_reducible assumption | with_reducible refine keep_modPort ?_ | with_reducible refine keep_setReady ?_
    | with_reducible refine keep_dropFrames ?_

theorem keep_enterProbe {s t : State} {p : Fin 4} {single : Bool} (h : Keep s t) :
    Keep s (State.enterProbe t p single) := by
  unfold State.enterProbe
  repeat' first
    | with_reducible assumption | with_reducible refine keep_abandonRinse ?_ | with_reducible refine keep_enter ?_
    | with_reducible refine keep_emit ?_ | split | (simp only [keep_mk]; refine ⟨?_, ?_, ?_⟩)
    | with_reducible refine keepR_of ?_ | with_reducible refine keepM_of ?_ | with_reducible refine Keep.queue ?_
    | with_reducible refine keep_snd ‹_› ?_

theorem keep_attempt1 {s t : State} {p : Fin 4} (h : Keep s t) :
    Keep s (State.attempt1 t p) := by
  unfold State.attempt1
  repeat' first
    | with_reducible assumption | with_reducible refine keep_wr ?_ | with_reducible refine keep_enterProbe ?_

theorem keep_failAttempt {s t : State} {p : Fin 4} {reason : Nat} (h : Keep s t) :
    Keep s (State.failAttempt t p reason) := by
  unfold State.failAttempt; dsimp only
  repeat' first
    | with_reducible assumption | with_reducible refine keep_wr ?_ | with_reducible refine keep_wrs ?_
    | with_reducible refine keep_enter ?_ | with_reducible refine keep_enterProbe ?_ | split

theorem keep_linkActive {s t : State} {p : Fin 4} (h : Keep s t) :
    Keep s (State.linkActive t p) := by
  unfold State.linkActive; dsimp only
  repeat' first
    | with_reducible assumption | with_reducible refine keep_wr ?_ | with_reducible refine keep_setReady ?_
    | with_reducible refine keep_modPort ?_ | split | (simp only [keep_mk]; refine ⟨?_, ?_, ?_⟩)
    | with_reducible refine keepR_of ?_ | with_reducible refine keepM_of ?_ | with_reducible refine Keep.queue ?_
    | with_reducible refine keep_snd ‹_› ?_

theorem keep_sendAt {s t : State} {p : Fin 4} {f : Frame} {departure : Nat} (h : Keep s t) :
    Keep s (State.sendAt t p f departure) := by
  unfold State.sendAt; dsimp only
  repeat' first
    | with_reducible assumption | with_reducible refine keep_modPort ?_ | with_reducible refine keep_emit ?_ | split
    | (simp only [keep_mk]; refine ⟨?_, ?_, ?_⟩) | with_reducible refine keepR_of ?_
    | with_reducible refine keepM_of ?_ | with_reducible refine Keep.queue ?_
    | with_reducible refine keep_snd ‹_› ?_

theorem keep_departure {s t : State} (h : Keep s t) :
    Keep s (State.departure t).2 := by
  unfold State.departure; dsimp only
  repeat' first
    | with_reducible assumption | with_reducible refine keep_freeVal ?_ | split
    | (simp only [keep_mk]; refine ⟨?_, ?_, ?_⟩) | with_reducible refine keepR_of ?_
    | with_reducible refine keepM_of ?_ | with_reducible refine Keep.queue ?_
    | with_reducible refine keep_snd ‹_› ?_

theorem keep_sendNow {s t : State} {p : Fin 4} {f : Frame} (h : Keep s t) :
    Keep s (State.sendNow t p f) := by
  unfold State.sendNow
  repeat' first
    | with_reducible assumption | with_reducible refine keep_departure ?_ | with_reducible refine keep_sendAt ?_
    | split | (simp only [keep_mk]; refine ⟨?_, ?_, ?_⟩) | with_reducible refine keepR_of ?_
    | with_reducible refine keepM_of ?_ | with_reducible refine Keep.queue ?_
    | with_reducible refine keep_snd ‹_› ?_

theorem keep_resend {s t : State} {p : Fin 4} (h : Keep s t) :
    Keep s (State.resend t p) := by
  unfold State.resend; dsimp only
  repeat' first
    | with_reducible assumption | with_reducible refine keep_foldl (fun _ _ _ => ?_) ?_
    | with_reducible refine keep_sendNow ?_ | with_reducible refine keep_addSat ?_ | split
    | (simp only [keep_mk]; refine ⟨?_, ?_, ?_⟩) | with_reducible refine keepR_of ?_
    | with_reducible refine keepM_of ?_ | with_reducible refine Keep.queue ?_
    | with_reducible refine keep_snd ‹_› ?_

theorem keep_enterRecover {s t : State} {p : Fin 4} (h : Keep s t) :
    Keep s (State.enterRecover t p) := by
  unfold State.enterRecover; dsimp only
  repeat' first
    | with_reducible assumption | with_reducible refine keep_addSat ?_ | with_reducible refine keep_modPort ?_
    | with_reducible refine keep_emit ?_ | with_reducible refine keep_setReady ?_
    | (simp only [keep_mk]; refine ⟨?_, ?_, ?_⟩) | with_reducible refine keepR_of ?_ | with_reducible refine keepM_of ?_
    | with_reducible refine Keep.queue ?_

theorem keep_swdly {s t : State} (h : Keep s t) :
    Keep s (State.swdly t).2 := by
  unfold State.swdly; dsimp only
  repeat' first
    | with_reducible assumption | with_reducible refine keep_freeVal ?_

theorem keep_recoverStep {s t : State} {p : Fin 4} (h : Keep s t) :
    Keep s (State.recoverStep t p) := by
  unfold State.recoverStep; dsimp only
  repeat' first
    | with_reducible assumption | with_reducible refine keep_modPort ?_ | with_reducible refine keep_emit ?_
    | with_reducible refine keep_linkActive ?_ | with_reducible refine keep_resend ?_ | with_reducible refine keep_swdly ?_
    | split | (simp only [keep_mk]; refine ⟨?_, ?_, ?_⟩) | with_reducible refine keepR_of ?_
    | with_reducible refine keepM_of ?_ | with_reducible refine Keep.queue ?_

theorem keep_progress {s t : State} {p : Fin 4} (h : Keep s t) :
    Keep s (State.progress t p) := by
  unfold State.progress; dsimp only
  repeat' first
    | with_reducible assumption | with_reducible refine keep_modPort ?_ | with_reducible refine keep_enterRecover ?_
    | with_reducible refine keep_recoverStep ?_ | split | (simp only [keep_mk]; refine ⟨?_, ?_, ?_⟩)
    | with_reducible refine keepR_of ?_ | with_reducible refine keepM_of ?_ | with_reducible refine Keep.queue ?_

theorem keep_loopBack {s t : State} {p : Fin 4} (h : Keep s t) :
    Keep s (State.loopBack t p) := by
  unfold State.loopBack
  repeat' first
    | with_reducible assumption | with_reducible refine keep_enter ?_ | split
    | (simp only [keep_mk]; refine ⟨?_, ?_, ?_⟩) | with_reducible refine keepR_of ?_
    | with_reducible refine keepM_of ?_ | with_reducible refine Keep.queue ?_
    | with_reducible refine keep_snd ‹_› ?_

theorem keep_opClCtrl {s t : State} {ini : Initiator} {p : Fin 4} {v : DWord} (h : Keep s t) :
    Keep s (State.opClCtrl t ini p v) := by
  unfold State.opClCtrl; dsimp only
  repeat' first
    | with_reducible assumption | with_reducible refine keep_accErr ?_ | with_reducible refine keep_writeReg ?_
    | with_reducible refine keep_wr ?_ | with_reducible refine keep_enter ?_
    | with_reducible refine keep_loopBack ?_ | with_reducible refine keep_attempt1 ?_ | split
    | (simp only [keep_mk]; refine ⟨?_, ?_, ?_⟩) | with_reducible refine keepR_of ?_
    | with_reducible refine keepM_of ?_ | with_reducible refine Keep.queue ?_
    | with_reducible refine keep_snd ‹_› ?_

theorem keep_execLosSet {s t : State} {p : Fin 4} {l : Fin 2} (h : Keep s t) :
    KeepO s (execLosSet p l t) := by
  unfold execLosSet
  repeat' first
    | with_reducible assumption | with_reducible refine keepO_next ?_ | with_reducible refine keep_modPort ?_
    | with_reducible refine keep_progress ?_ | (simp only [keep_mk]; refine ⟨?_, ?_, ?_⟩) | with_reducible refine keepR_of ?_
    | with_reducible refine keepM_of ?_ | with_reducible refine Keep.queue ?_

theorem keep_execLosClear {s t : State} {p : Fin 4} {l : Fin 2} (h : Keep s t) :
    KeepO s (execLosClear p l t) := by
  unfold execLosClear
  repeat' first
    | with_reducible assumption | with_reducible refine keepO_next ?_ | with_reducible refine keep_modPort ?_
    | with_reducible refine keep_progress ?_ | (simp only [keep_mk]; refine ⟨?_, ?_, ?_⟩) | with_reducible refine keepR_of ?_
    | with_reducible refine keepM_of ?_ | with_reducible refine Keep.queue ?_

theorem keep_execLolSet {s t : State} {p : Fin 4} {l : Fin 2} (h : Keep s t) :
    KeepO s (execLolSet p l t) := by
  unfold execLolSet
  repeat' first
    | with_reducible assumption | with_reducible refine keepO_next ?_ | with_reducible refine keep_modPort ?_
    | with_reducible refine keep_progress ?_ | split | (simp only [keep_mk]; refine ⟨?_, ?_, ?_⟩)
    | with_reducible refine keepR_of ?_ | with_reducible refine keepM_of ?_ | with_reducible refine Keep.queue ?_

theorem keep_execLolClear {s t : State} {p : Fin 4} {l : Fin 2} (h : Keep s t) :
    KeepO s (execLolClear p l t) := by
  unfold execLolClear
  repeat' first
    | with_reducible assumption | with_reducible refine keepO_next ?_ | with_reducible refine keep_modPort ?_
    | with_reducible refine keep_progress ?_ | (simp only [keep_mk]; refine ⟨?_, ?_, ?_⟩) | with_reducible refine keepR_of ?_
    | with_reducible refine keepM_of ?_ | with_reducible refine Keep.queue ?_

theorem keep_execFckDetector {s t : State} {p : Fin 4} {ok : Bool} (h : Keep s t) :
    KeepO s (execFckDetector p ok t) := by
  unfold execFckDetector
  repeat' first
    | with_reducible assumption | with_reducible refine keepO_next ?_ | with_reducible refine keep_modPort ?_
    | with_reducible refine keep_progress ?_ | split | (simp only [keep_mk]; refine ⟨?_, ?_, ?_⟩)
    | with_reducible refine keepR_of ?_ | with_reducible refine keepM_of ?_ | with_reducible refine Keep.queue ?_

theorem keep_execRxBlock {s t : State} {p : Fin 4} {l : Fin 2} {hdr : BitVec 2} {btype : Byte} (h : Keep s t) :
    KeepO s (execRxBlock p l hdr btype t) := by
  unfold execRxBlock; dsimp only
  repeat' first
    | with_reducible refine keepO_next ?_
    | with_reducible assumption | with_reducible refine keep_addSat ?_ | with_reducible refine keep_modPort ?_
    | with_reducible refine keep_progress ?_ | split | (simp only [keep_mk]; refine ⟨?_, ?_, ?_⟩)
    | with_reducible refine keepR_of ?_ | with_reducible refine keepM_of ?_ | with_reducible refine Keep.queue ?_
    | with_reducible refine keep_snd ‹_› ?_

theorem keep_execTrain {s t : State} {p : Fin 4} {_l : Fin 2} (h : Keep s t) :
    KeepO s (execTrain p _l t) := by
  unfold execTrain
  repeat' first
    | with_reducible assumption | with_reducible refine keepO_next ?_ | with_reducible refine keep_attempt1 ?_ | split

theorem keep_execAlign {s t : State} {p : Fin 4} {l : Fin 2} {block : Nat} (h : Keep s t) :
    KeepO s (execAlign p l block t) := by
  unfold execAlign; dsimp only
  repeat' first
    | with_reducible refine keepO_next ?_
    | with_reducible assumption | with_reducible refine keep_modPort ?_ | with_reducible refine keep_progress ?_
    | split | (simp only [keep_mk]; refine ⟨?_, ?_, ?_⟩) | with_reducible refine keepR_of ?_
    | with_reducible refine keepM_of ?_ | with_reducible refine Keep.queue ?_
    | with_reducible refine keep_snd ‹_› ?_

theorem keep_execAlignTx {s t : State} {p : Fin 4} (h : Keep s t) :
    KeepO s (execAlignTx p t) := by
  unfold execAlignTx; dsimp only
  repeat' first
    | with_reducible refine keepO_next ?_
    | with_reducible assumption | with_reducible refine keep_emit ?_ | split
    | (simp only [keep_mk]; refine ⟨?_, ?_, ?_⟩) | with_reducible refine keepR_of ?_
    | with_reducible refine keepM_of ?_ | with_reducible refine Keep.queue ?_
    | with_reducible refine keep_snd ‹_› ?_

theorem keep_sendHello {s t : State} {p : Fin 4} {swdly : Nat} (h : Keep s t) :
    Keep s (State.sendHello t p swdly) := by
  unfold State.sendHello
  repeat' first
    | with_reducible assumption | with_reducible refine keep_emit ?_ | with_reducible refine keep_swdly ?_

theorem keep_execHelloTimer {s t : State} {p : Fin 4} (h : Keep s t) :
    KeepO s (execHelloTimer p t) := by
  unfold execHelloTimer; dsimp only
  repeat' first
    | with_reducible assumption | with_reducible refine keepO_next ?_ | with_reducible refine keep_modPort ?_
    | with_reducible refine keep_swdly ?_ | with_reducible refine keep_sendHello ?_ | split
    | (simp only [keep_mk]; refine ⟨?_, ?_, ?_⟩) | with_reducible refine keepR_of ?_ | with_reducible refine keepM_of ?_
    | with_reducible refine Keep.queue ?_

theorem keep_execHello {s t : State} {p : Fin 4} {version : Byte} {_trusted : Bool} {rxok : Bool} {drive : Bool} {swdly : Nat} {serial : DWord} (h : Keep s t) :
    KeepO s (execHello p version _trusted rxok drive swdly serial t) := by
  unfold execHello; dsimp only
  repeat' first
    | with_reducible assumption | with_reducible refine keepO_next ?_ | with_reducible refine keep_addSat ?_
    | with_reducible refine keep_modPort ?_ | with_reducible refine keep_failAttempt ?_ | with_reducible refine keep_swdly ?_
    | split | (simp only [keep_mk]; refine ⟨?_, ?_, ?_⟩) | with_reducible refine keepR_of ?_
    | with_reducible refine keepM_of ?_ | with_reducible refine Keep.queue ?_

theorem keep_execTxEmbeddedChange {s t : State} {p : Fin 4} (h : Keep s t) :
    KeepO s (execTxEmbeddedChange p t) := by
  unfold execTxEmbeddedChange; dsimp only
  repeat' first
    | with_reducible assumption | with_reducible refine keepO_next ?_ | with_reducible refine keep_modPort ?_
    | with_reducible refine keep_progress ?_ | split | (simp only [keep_mk]; refine ⟨?_, ?_, ?_⟩)
    | with_reducible refine keepR_of ?_ | with_reducible refine keepM_of ?_ | with_reducible refine Keep.queue ?_

theorem keep_execRecover {s t : State} {p : Fin 4} {rdy : Bool} {swdly : Nat} (h : Keep s t) :
    KeepO s (execRecover p rdy swdly t) := by
  unfold execRecover; dsimp only
  repeat' first
    | with_reducible assumption | with_reducible refine keepO_next ?_ | with_reducible refine keep_modPort ?_
    | with_reducible refine keep_enterRecover ?_ | with_reducible refine keep_swdly ?_
    | with_reducible refine keep_progress ?_ | split | (simp only [keep_mk]; refine ⟨?_, ?_, ?_⟩)
    | with_reducible refine keepR_of ?_ | with_reducible refine keepM_of ?_ | with_reducible refine Keep.queue ?_

theorem keep_execAttemptTimeout {s t : State} {p : Fin 4} (h : Keep s t) :
    KeepO s (execAttemptTimeout p t) := by
  unfold execAttemptTimeout
  repeat' first
    | with_reducible assumption | with_reducible refine keepO_next ?_ | with_reducible refine keep_failAttempt ?_ | split

theorem keep_execSwitchTimeout {s t : State} {p : Fin 4} (h : Keep s t) :
    KeepO s (execSwitchTimeout p t) := by
  unfold execSwitchTimeout
  repeat' first
    | with_reducible assumption | with_reducible refine keepO_next ?_ | with_reducible refine keep_failAttempt ?_ | split

theorem keep_execDownRetry {s t : State} {p : Fin 4} (h : Keep s t) :
    KeepO s (execDownRetry p t) := by
  unfold execDownRetry
  repeat' first
    | with_reducible assumption | with_reducible refine keepO_next ?_ | with_reducible refine keep_enterProbe ?_ | split

theorem keep_execRecoverTimeout {s t : State} {p : Fin 4} (h : Keep s t) :
    KeepO s (execRecoverTimeout p t) := by
  unfold execRecoverTimeout
  repeat' first
    | with_reducible assumption | with_reducible refine keepO_next ?_ | with_reducible refine keep_attempt1 ?_ | split

theorem keep_transmitAt {s t : State} {p : Fin 4} {f : Frame} {departure : Nat} (h : Keep s t) :
    Keep s (State.transmitAt t p f departure) := by
  unfold State.transmitAt; dsimp only
  repeat' first
    | with_reducible assumption | with_reducible refine keep_modPort ?_ | with_reducible refine keep_sendAt ?_
    | with_reducible refine keep_departure ?_ | split | (simp only [keep_mk]; refine ⟨?_, ?_, ?_⟩)
    | with_reducible refine keepR_of ?_ | with_reducible refine keepM_of ?_ | with_reducible refine Keep.queue ?_
    | with_reducible refine keep_snd ‹_› ?_

theorem keep_transmit {s t : State} {p : Fin 4} {f : Frame} (h : Keep s t) :
    Keep s (State.transmit t p f) := by
  unfold State.transmit
  repeat' first
    | with_reducible assumption | with_reducible refine keep_departure ?_ | with_reducible refine keep_transmitAt ?_
    | split | (simp only [keep_mk]; refine ⟨?_, ?_, ?_⟩) | with_reducible refine keepR_of ?_
    | with_reducible refine keepM_of ?_ | with_reducible refine Keep.queue ?_
    | with_reducible refine keep_snd ‹_› ?_

theorem keep_execTxFrame {s t : State} {p : Fin 4} (h : Keep s t) :
    KeepO s (execTxFrame p t) := by
  unfold execTxFrame; dsimp only
  repeat' first
    | with_reducible refine keepO_next ?_
    | with_reducible assumption | with_reducible refine keep_emit ?_ | with_reducible refine keep_modPort ?_
    | with_reducible refine keep_transmit ?_ | with_reducible refine keepR_filter ?_ | split
    | (simp only [keep_mk]; refine ⟨?_, ?_, ?_⟩) | with_reducible refine keepR_of ?_
    | with_reducible refine keepM_of ?_ | with_reducible refine Keep.queue ?_
    | with_reducible refine keep_snd ‹_› ?_

theorem keep_ackUpto {s t : State} {p : Fin 4} {k : Nat} (h : Keep s t) :
    Keep s (State.ackUpto t p k) := by
  unfold State.ackUpto
  repeat' first
    | with_reducible assumption | with_reducible refine keep_modPort ?_ | with_reducible refine keep_drop ?_ | split
    | (simp only [keep_mk]; refine ⟨?_, ?_, ?_⟩) | with_reducible refine keepR_of ?_ | with_reducible refine keepM_of ?_
    | with_reducible refine Keep.queue ?_

theorem keep_execAck {s t : State} {p : Fin 4} {body : BitVec 16} {crc : Byte} (h : Keep s t) :
    KeepO s (execAck p body crc t) := by
  unfold execAck
  repeat' first
    | with_reducible refine keepO_next ?_
    | with_reducible assumption | with_reducible refine keep_ackUpto ?_ | split
    | (simp only [keep_mk]; refine ⟨?_, ?_, ?_⟩) | with_reducible refine keepR_of ?_
    | with_reducible refine keepM_of ?_ | with_reducible refine Keep.queue ?_
    | with_reducible refine keep_snd ‹_› ?_

theorem keep_resendOrRecover {s t : State} {p : Fin 4} (h : Keep s t) :
    Keep s (State.resendOrRecover t p) := by
  unfold State.resendOrRecover
  repeat' first
    | with_reducible assumption | with_reducible refine keep_modPort ?_ | with_reducible refine keep_resend ?_
    | with_reducible refine keep_enterRecover ?_ | split | (simp only [keep_mk]; refine ⟨?_, ?_, ?_⟩)
    | with_reducible refine keepR_of ?_ | with_reducible refine keepM_of ?_ | with_reducible refine Keep.queue ?_

theorem keep_execNak {s t : State} {p : Fin 4} {body : BitVec 16} {crc : Byte} (h : Keep s t) :
    KeepO s (execNak p body crc t) := by
  unfold execNak
  repeat' first
    | with_reducible refine keepO_next ?_
    | with_reducible assumption | with_reducible refine keep_ackUpto ?_
    | with_reducible refine keep_resendOrRecover ?_ | split | (simp only [keep_mk]; refine ⟨?_, ?_, ?_⟩)
    | with_reducible refine keepR_of ?_ | with_reducible refine keepM_of ?_ | with_reducible refine Keep.queue ?_
    | with_reducible refine keep_snd ‹_› ?_

theorem keep_execReplayTimeout {s t : State} {p : Fin 4} (h : Keep s t) :
    KeepO s (execReplayTimeout p t) := by
  unfold execReplayTimeout
  repeat' first
    | with_reducible assumption | with_reducible refine keepO_next ?_ | with_reducible refine keep_resendOrRecover ?_ | split

theorem keep_execAckTimer {s t : State} {p : Fin 4} (h : Keep s t) :
    KeepO s (execAckTimer p t) := by
  unfold execAckTimer; dsimp only
  repeat' first
    | with_reducible assumption | with_reducible refine keepO_next ?_ | with_reducible refine keep_modPort ?_
    | with_reducible refine keep_emit ?_ | split | (simp only [keep_mk]; refine ⟨?_, ?_, ?_⟩)
    | with_reducible refine keepR_of ?_ | with_reducible refine keepM_of ?_ | with_reducible refine Keep.queue ?_

theorem keep_execFrameCrcError {s t : State} {p : Fin 4} (h : Keep s t) :
    KeepO s (execFrameCrcError p t) := by
  unfold execFrameCrcError; dsimp only
  repeat' first
    | with_reducible assumption | with_reducible refine keepO_next ?_ | with_reducible refine keep_addSat ?_
    | with_reducible refine keep_modPort ?_ | with_reducible refine keep_emit ?_ | split
    | (simp only [keep_mk]; refine ⟨?_, ?_, ?_⟩) | with_reducible refine keepR_of ?_ | with_reducible refine keepM_of ?_
    | with_reducible refine Keep.queue ?_

theorem keep_takeFrame {s t : State} {p : Fin 4} {h1 : Hdr} (h : Keep s t) :
    Keep s (State.takeFrame t p h1).2 := by
  unfold State.takeFrame; dsimp only
  repeat' first
    | with_reducible assumption | with_reducible refine keep_modPort ?_ | with_reducible refine keep_emit ?_ | split
    | with_reducible refine keep_snd ‹_› ?_ | (simp only [keep_mk]; refine ⟨?_, ?_, ?_⟩) | with_reducible refine keepR_of ?_
    | with_reducible refine keepM_of ?_ | with_reducible refine Keep.queue ?_

theorem keep_execPeerBucketRefill {s t : State} {p : Fin 4} {k : Fin 3} (h : Keep s t) :
    KeepO s (execPeerBucketRefill p k t) := by
  unfold execPeerBucketRefill; dsimp only
  repeat' first
    | with_reducible assumption | with_reducible refine keepO_next ?_ | with_reducible refine keep_modPort ?_
    | (simp only [keep_mk]; refine ⟨?_, ?_, ?_⟩) | with_reducible refine keepR_of ?_ | with_reducible refine keepM_of ?_
    | with_reducible refine Keep.queue ?_

theorem keep_gate {s t : State} {p : Fin 4} {k : FrameKind} (h : Keep s t) :
    Keep s (State.gate t p k).2 := by
  unfold State.gate; dsimp only
  repeat' first
    | with_reducible assumption | with_reducible refine keep_wr ?_ | with_reducible refine keep_addSat ?_
    | with_reducible refine keep_modPort ?_ | with_reducible refine keep_reportUnit ?_ | split
    | with_reducible refine keep_snd ‹_› ?_ | (simp only [keep_mk]; refine ⟨?_, ?_, ?_⟩) | with_reducible refine keepR_of ?_
    | with_reducible refine keepM_of ?_ | with_reducible refine Keep.queue ?_

theorem keep_onFrame {s t : State} {p : Fin 4} {h1 : Hdr} {k : FrameKind} {f : State → State} (hf : ∀ u, Keep s u → Keep s (f u)) (h : Keep s t) :
    Keep s (State.onFrame t p h1 k f) := by
  unfold State.onFrame
  repeat' first
    | with_reducible assumption | with_reducible refine keep_takeFrame ?_ | with_reducible refine keep_gate ?_
    | (with_reducible apply hf) | split | with_reducible refine keep_snd ‹_› ?_

end Sys2Proof.Machine
end

