-- ==== Sys2Proof/Laws/KeepLinks.lean ====
section
/-! SUPPORT. What the operations of Machine/Links.lean keep. -/

namespace Sys2Proof.Machine

open Sys2Proof

theorem keep_offer {s t : State} {p : Fin 4} {f : Frame} (h : Keep s t) :
    Keep s (State.offer t p f) := by
  unfold State.offer
  repeat' first
    | with_reducible assumption | with_reducible refine keep_addSat ?_ | with_reducible refine keep_modPort ?_ | split
    | (simp only [keep_mk]; refine ⟨?_, ?_, ?_⟩) | with_reducible refine keepR_of ?_ | with_reducible refine keepM_of ?_
    | with_reducible refine Keep.queue ?_

theorem keep_routeUni {s t : State} {from_ : Option (Fin 4)} {f : Frame} (h : Keep s t) :
    Keep s (State.routeUni t from_ f) := by
  unfold State.routeUni
  repeat' first
    | with_reducible assumption | with_reducible refine keep_offer ?_ | with_reducible refine keep_addSat ?_ | split
    | (simp only [keep_mk]; refine ⟨?_, ?_, ?_⟩) | with_reducible refine keepR_of ?_
    | with_reducible refine keepM_of ?_ | with_reducible refine Keep.queue ?_
    | with_reducible refine keep_snd ‹_› ?_

theorem keep_forward {s t : State} {from_ : Option (Fin 4)} {f : Frame} (h : Keep s t) :
    Keep s (State.forward t from_ f) := by
  unfold State.forward
  repeat' first
    | with_reducible assumption | with_reducible refine keep_each (fun _ _ _ => ?_) ?_ | with_reducible refine keep_offer ?_

theorem keep_received {s t : State} {p : Fin 4} {hdr : Hdr} {urg : Bool} {load : Payload} {act : State → State} (hact : ∀ x0, Keep s x0 → Keep s (act x0))
    (h : Keep s t) :
    Keep s (State.received t p hdr urg load act) := by
  unfold State.received; dsimp only
  repeat' first
    | with_reducible assumption | with_reducible refine hact _ ?_ | with_reducible refine keep_forward ?_
    | with_reducible refine keep_routeUni ?_ | split | (simp only [keep_mk]; refine ⟨?_, ?_, ?_⟩)
    | with_reducible refine keepR_of ?_ | with_reducible refine keepM_of ?_ | with_reducible refine Keep.queue ?_
    | with_reducible refine keep_snd ‹_› ?_

theorem keep_postSummary {s t : State} {r : List Word} (h : Keep s t) :
    Keep s (State.postSummary t r) := by
  unfold State.postSummary
  repeat' first
    | with_reducible assumption | with_reducible refine keep_wr ?_ | split | (simp only [keep_mk]; refine ⟨?_, ?_, ?_⟩)
    | with_reducible refine keepR_of ?_ | with_reducible refine keepM_of ?_ | with_reducible refine Keep.queue ?_

theorem keep_execSummary {s t : State} {p : Fin 4} {hdr : Hdr} {vec : DWord} {map : BitVec 256} {tag : Byte} {slices : Byte}
    (h : Keep s t) :
    KeepO s (execSummary p hdr vec map tag slices t) := by
  unfold execSummary
  repeat' first
    | with_reducible refine keepO_next ?_
    | with_reducible assumption | with_reducible refine keep_onFrame (fun _ _ => ?_) ?_
    | with_reducible refine keep_postSummary ?_ | with_reducible refine keep_received (fun _ _ => ?_) ?_ | split
    | (simp only [keep_mk]; refine ⟨?_, ?_, ?_⟩) | with_reducible refine keepR_of ?_
    | with_reducible refine keepM_of ?_ | with_reducible refine Keep.queue ?_
    | with_reducible refine keep_snd ‹_› ?_

theorem keep_opSumrxpop {s t : State} {v : Nat} (h : Keep s t) :
    Keep s (State.opSumrxpop t v) := by
  unfold State.opSumrxpop
  repeat' first
    | with_reducible assumption | split | (simp only [keep_mk]; refine ⟨?_, ?_, ?_⟩) | with_reducible refine keepR_of ?_
    | with_reducible refine keepM_of ?_ | with_reducible refine Keep.queue ?_

theorem keep_sendSummary {s t : State} {load : Payload} (h : Keep s t) :
    Keep s (State.sendSummary t load) := by
  unfold State.sendSummary; dsimp only
  repeat' first
    | with_reducible assumption | with_reducible refine keep_each (fun _ _ _ => ?_) ?_ | with_reducible refine keep_addSat ?_
    | with_reducible refine keep_modPort ?_ | split | (simp only [keep_mk]; refine ⟨?_, ?_, ?_⟩)
    | with_reducible refine keepR_of ?_ | with_reducible refine keepM_of ?_ | with_reducible refine Keep.queue ?_

theorem keep_execGsync {s t : State} {n : Fin 8} {k : Fin 4} {word : DWord} {ainStep : Bool} (h : Keep s t) :
    KeepO s (execGsync n k word ainStep t) := by
  unfold execGsync; dsimp only
  repeat' first
    | with_reducible refine keepO_next ?_
    | with_reducible assumption | with_reducible refine keep_vecWord (fun _ _ _ _ _ => ?_) ?_
    | with_reducible refine keep_vecExc ?_ | with_reducible refine keep_sendSummary ?_ | split
    | (simp only [keep_mk]; refine ⟨?_, ?_, ?_⟩) | with_reducible refine keepR_of ?_
    | with_reducible refine keepM_of ?_ | with_reducible refine Keep.queue ?_
    | with_reducible refine keep_snd ‹_› ?_

theorem keep_setRole {s t : State} {p : Fin 4} {r : Role} (h : Keep s t) :
    Keep s (State.setRole t p r) := by
  unfold State.setRole; dsimp only
  repeat' first
    | with_reducible assumption | with_reducible refine keep_modPort ?_ | (simp only [keep_mk]; refine ⟨?_, ?_, ?_⟩)
    | with_reducible refine keepR_of ?_ | with_reducible refine keepM_of ?_ | with_reducible refine Keep.queue ?_

theorem keep_sendEnum {s t : State} {p : Fin 4} {bcast : Bool} {load : Payload} (h : Keep s t) :
    Keep s (State.sendEnum t p bcast load) := by
  unfold State.sendEnum
  repeat' first
    | with_reducible assumption | with_reducible refine keep_offer ?_

theorem keep_newGen {s t : State} {g : Word} {up : Option (Fin 4)} {depth : Nat} {root : Bool} (h : Keep s t) :
    Keep s (State.newGen t g up depth root) := by
  unfold State.newGen; dsimp only
  repeat' first
    | with_reducible assumption | with_reducible refine keep_foldl (fun _ _ _ => ?_) ?_ | with_reducible refine keep_wr ?_
    | with_reducible refine keep_addSat ?_ | with_reducible refine keep_modPort ?_ | with_reducible refine keep_modEnum ?_
    | split | (simp only [keep_mk]; refine ⟨?_, ?_, ?_⟩) | with_reducible refine keepR_of ?_
    | with_reducible refine keepM_of ?_ | with_reducible refine Keep.queue ?_

theorem keep_assignAll {s t : State} (h : Keep s t) :
    Keep s (State.assignAll t) := by
  unfold State.assignAll; dsimp only
  repeat' first
    | with_reducible assumption | with_reducible refine keep_each (fun _ _ _ => ?_) ?_ | with_reducible refine keep_wr ?_
    | with_reducible refine keep_modEnum ?_ | with_reducible refine keep_drop ?_ | with_reducible refine keep_sendEnum ?_
    | split | (simp only [keep_mk]; refine ⟨?_, ?_, ?_⟩) | with_reducible refine keepR_of ?_
    | with_reducible refine keepM_of ?_ | with_reducible refine Keep.queue ?_

theorem keep_enumCheck {s t : State} (h : Keep s t) :
    Keep s (State.enumCheck t) := by
  unfold State.enumCheck; dsimp only
  repeat' first
    | with_reducible assumption | with_reducible refine keep_modEnum ?_ | with_reducible refine keep_report ?_
    | with_reducible refine keep_sendEnum ?_ | with_reducible refine keep_assignAll ?_ | split
    | (simp only [keep_mk]; refine ⟨?_, ?_, ?_⟩) | with_reducible refine keepR_of ?_ | with_reducible refine keepM_of ?_
    | with_reducible refine Keep.queue ?_

theorem keep_fanOut {s t : State} {qs : List (Fin 4)} (h : Keep s t) :
    Keep s (State.fanOut t qs) := by
  unfold State.fanOut; dsimp only
  repeat' first
    | with_reducible assumption | with_reducible refine keep_each (fun _ _ _ => ?_) ?_
    | with_reducible refine keep_modEnum ?_ | with_reducible refine keep_sendEnum ?_
    | with_reducible refine keep_enumCheck ?_ | (simp only [keep_mk]; refine ⟨?_, ?_, ?_⟩)
    | with_reducible refine keepR_of ?_ | with_reducible refine keepM_of ?_ | with_reducible refine Keep.queue ?_

theorem keep_search {s t : State} (h : Keep s t) :
    Keep s (State.search t) := by
  unfold State.search
  repeat' first
    | with_reducible assumption | with_reducible refine keep_newGen ?_ | with_reducible refine keep_fanOut ?_

theorem keep_opEnumctl {s t : State} {ini : Initiator} {v : DWord} (h : Keep s t) :
    Keep s (State.opEnumctl t ini v) := by
  unfold State.opEnumctl; dsimp only
  repeat' first
    | with_reducible assumption | with_reducible refine keep_writeReg ?_ | with_reducible refine keep_search ?_ | split

theorem keep_execDiscover {s t : State} {p : Fin 4} {hdr : Hdr} {gen : Word} {depth : Nat} {partnerRoot : Bool} (h : Keep s t) :
    KeepO s (execDiscover p hdr gen depth partnerRoot t) := by
  unfold execDiscover; dsimp only
  repeat' first
    | with_reducible assumption | with_reducible refine keep_onFrame (fun _ _ => ?_) ?_ | with_reducible refine keepO_next ?_
    | with_reducible refine keep_wr ?_ | with_reducible refine keep_modEnum ?_ | with_reducible refine keep_setRole ?_
    | with_reducible refine keep_sendEnum ?_ | with_reducible refine keep_newGen ?_ | with_reducible refine keep_enumCheck ?_
    | with_reducible refine keep_fanOut ?_ | split | (simp only [keep_mk]; refine ⟨?_, ?_, ?_⟩)
    | with_reducible refine keepR_of ?_ | with_reducible refine keepM_of ?_ | with_reducible refine Keep.queue ?_

theorem keep_execJoin {s t : State} {p : Fin 4} {hdr : Hdr} {gen : Word} (h : Keep s t) :
    KeepO s (execJoin p hdr gen t) := by
  unfold execJoin; dsimp only
  repeat' first
    | with_reducible assumption | with_reducible refine keep_onFrame (fun _ _ => ?_) ?_ | with_reducible refine keepO_next ?_
    | with_reducible refine keep_modEnum ?_ | with_reducible refine keep_setRole ?_ | with_reducible refine keep_enumCheck ?_
    | split | (simp only [keep_mk]; refine ⟨?_, ?_, ?_⟩) | with_reducible refine keepR_of ?_
    | with_reducible refine keepM_of ?_ | with_reducible refine Keep.queue ?_

theorem keep_execAlt {s t : State} {p : Fin 4} {hdr : Hdr} {gen : Word} (h : Keep s t) :
    KeepO s (execAlt p hdr gen t) := by
  unfold execAlt
  repeat' first
    | with_reducible assumption | with_reducible refine keep_onFrame (fun _ _ => ?_) ?_ | with_reducible refine keepO_next ?_
    | with_reducible refine keep_modEnum ?_ | with_reducible refine keep_setRole ?_ | with_reducible refine keep_enumCheck ?_
    | split | (simp only [keep_mk]; refine ⟨?_, ?_, ?_⟩) | with_reducible refine keepR_of ?_
    | with_reducible refine keepM_of ?_ | with_reducible refine Keep.queue ?_

theorem keep_execReport {s t : State} {p : Fin 4} {hdr : Hdr} {gen : Word} {serial : DWord} {hint : BitVec 12} (h : Keep s t) :
    KeepO s (execReport p hdr gen serial hint t) := by
  unfold execReport; dsimp only
  repeat' first
    | with_reducible assumption | with_reducible refine keep_onFrame (fun _ _ => ?_) ?_ | with_reducible refine keepO_next ?_
    | with_reducible refine keep_modEnum ?_ | with_reducible refine keep_report ?_ | with_reducible refine keep_offer ?_
    | split | (simp only [keep_mk]; refine ⟨?_, ?_, ?_⟩) | with_reducible refine keepR_of ?_
    | with_reducible refine keepM_of ?_ | with_reducible refine Keep.queue ?_

theorem keep_execFin {s t : State} {p : Fin 4} {hdr : Hdr} {gen : Word} {count : Nat} {overflow : Bool} (h : Keep s t) :
    KeepO s (execFin p hdr gen count overflow t) := by
  unfold execFin
  repeat' first
    | with_reducible assumption | with_reducible refine keep_onFrame (fun _ _ => ?_) ?_ | with_reducible refine keepO_next ?_
    | with_reducible refine keep_modEnum ?_ | with_reducible refine keep_enumCheck ?_ | split
    | (simp only [keep_mk]; refine ⟨?_, ?_, ?_⟩) | with_reducible refine keepR_of ?_ | with_reducible refine keepM_of ?_
    | with_reducible refine Keep.queue ?_

theorem keep_execAssign {s t : State} {p : Fin 4} {hdr : Hdr} {gen : Word} {serial : DWord} {index : BitVec 12} (h : Keep s t) :
    KeepO s (execAssign p hdr gen serial index t) := by
  unfold execAssign; dsimp only
  repeat' first
    | with_reducible assumption | with_reducible refine keep_each (fun _ _ _ => ?_) ?_
    | with_reducible refine keep_onFrame (fun _ _ => ?_) ?_ | with_reducible refine keepO_next ?_
    | with_reducible refine keep_modEnum ?_ | with_reducible refine keep_offer ?_ | split
    | (simp only [keep_mk]; refine ⟨?_, ?_, ?_⟩) | with_reducible refine keepR_of ?_ | with_reducible refine keepM_of ?_
    | with_reducible refine Keep.queue ?_

theorem keep_execDoneEnum {s t : State} {p : Fin 4} {hdr : Hdr} {gen : Word} (h : Keep s t) :
    KeepO s (execDoneEnum p hdr gen t) := by
  unfold execDoneEnum; dsimp only
  repeat' first
    | with_reducible assumption | with_reducible refine keep_each (fun _ _ _ => ?_) ?_
    | with_reducible refine keep_onFrame (fun _ _ => ?_) ?_ | with_reducible refine keepO_next ?_
    | with_reducible refine keep_modEnum ?_ | with_reducible refine keep_offer ?_ | split
    | (simp only [keep_mk]; refine ⟨?_, ?_, ?_⟩) | with_reducible refine keepR_of ?_ | with_reducible refine keepM_of ?_
    | with_reducible refine Keep.queue ?_

theorem keep_execChange {s t : State} {p : Fin 4} {hdr : Hdr} {gen : Word} (h : Keep s t) :
    KeepO s (execChange p hdr gen t) := by
  unfold execChange
  repeat' first
    | with_reducible assumption | with_reducible refine keep_onFrame (fun _ _ => ?_) ?_ | with_reducible refine keepO_next ?_
    | with_reducible refine keep_offer ?_ | with_reducible refine keep_search ?_ | split

theorem keep_execAdopt {s t : State} {p : Fin 4} {hdr : Hdr} {gen : Word} (h : Keep s t) :
    KeepO s (execAdopt p hdr gen t) := by
  unfold execAdopt
  repeat' first
    | with_reducible assumption | with_reducible refine keep_onFrame (fun _ _ => ?_) ?_ | with_reducible refine keepO_next ?_
    | with_reducible refine keep_setRole ?_ | split

theorem keep_replaceUp {s t : State} {p : Fin 4} (h : Keep s t) :
    Keep s (State.replaceUp t p) := by
  unfold State.replaceUp; dsimp only
  repeat' first
    | with_reducible assumption | with_reducible refine keep_modEnum ?_ | with_reducible refine keep_setRole ?_
    | with_reducible refine keep_sendEnum ?_ | split | (simp only [keep_mk]; refine ⟨?_, ?_, ?_⟩)
    | with_reducible refine keepR_of ?_ | with_reducible refine keepM_of ?_ | with_reducible refine Keep.queue ?_

theorem keep_execEnumPortChange {s t : State} {p : Fin 4} (h : Keep s t) :
    KeepO s (execEnumPortChange p t) := by
  unfold execEnumPortChange; dsimp only
  repeat' first
    | with_reducible assumption | with_reducible refine keepO_next ?_ | with_reducible refine keep_modPort ?_
    | with_reducible refine keep_sendEnum ?_ | with_reducible refine keep_search ?_ | with_reducible refine keep_replaceUp ?_
    | split | (simp only [keep_mk]; refine ⟨?_, ?_, ?_⟩) | with_reducible refine keepR_of ?_
    | with_reducible refine keepM_of ?_ | with_reducible refine Keep.queue ?_

end Sys2Proof.Machine
end

