-- ==== Sys2Proof/Laws/KeepTime.lean ====
section
/-! SUPPORT. What the operations of Machine/Time.lean keep. -/

namespace Sys2Proof.Machine

open Sys2Proof

theorem keep_execDelayExchangeTimer {s t : State} {p : Fin 4} {departure : Nat} (h : Keep s t) :
    KeepO s (execDelayExchangeTimer p departure t) := by
  unfold execDelayExchangeTimer; dsimp only
  repeat' first
    | with_reducible refine keepO_next ?_
    | with_reducible assumption | with_reducible refine keep_modPort ?_ | with_reducible refine keep_departure ?_
    | with_reducible refine keep_transmitAt ?_ | split | (simp only [keep_mk]; refine ⟨?_, ?_, ?_⟩)
    | with_reducible refine keepR_of ?_ | with_reducible refine keepM_of ?_ | with_reducible refine Keep.queue ?_
    | with_reducible refine keep_snd ‹_› ?_

theorem keep_execDreq {s t : State} {p : Fin 4} {hdr : Hdr} {num : Byte} {arrival : Nat} {departure : Nat}
    (h : Keep s t) :
    KeepO s (execDreq p hdr num arrival departure t) := by
  unfold execDreq
  repeat' first
    | with_reducible refine keepO_next ?_
    | with_reducible assumption | with_reducible refine keep_onFrame (fun _ _ => ?_) ?_
    | with_reducible refine keep_transmitAt ?_ | with_reducible refine keep_departure ?_ | split
    | (simp only [keep_mk]; refine ⟨?_, ?_, ?_⟩) | with_reducible refine keepR_of ?_
    | with_reducible refine keepM_of ?_ | with_reducible refine Keep.queue ?_
    | with_reducible refine keep_snd ‹_› ?_

theorem keep_judgeMeasure {s t : State} {p : Fin 4} (h : Keep s t) :
    Keep s (State.judgeMeasure t p) := by
  unfold State.judgeMeasure; dsimp only
  repeat' first
    | with_reducible assumption | with_reducible refine keep_foldl (fun _ _ _ => ?_) ?_ | with_reducible refine keep_wr ?_
    | with_reducible refine keep_modPort ?_ | with_reducible refine keep_failAttempt ?_
    | with_reducible refine keep_linkActive ?_ | split | (simp only [keep_mk]; refine ⟨?_, ?_, ?_⟩)
    | with_reducible refine keepR_of ?_ | with_reducible refine keepM_of ?_ | with_reducible refine Keep.queue ?_

theorem keep_execDresp {s t : State} {p : Fin 4} {hdr : Hdr} {num : Byte} {turn : Nat} {arrival : Nat} (h : Keep s t) :
    KeepO s (execDresp p hdr num turn arrival t) := by
  unfold execDresp; dsimp only
  repeat' first
    | with_reducible assumption | with_reducible refine keep_onFrame (fun _ _ => ?_) ?_ | with_reducible refine keepO_next ?_
    | with_reducible refine keep_wr ?_ | with_reducible refine keep_modPort ?_ | with_reducible refine keep_judgeMeasure ?_
    | split | with_reducible refine keep_snd ‹_› ?_ | (simp only [keep_mk]; refine ⟨?_, ?_, ?_⟩)
    | with_reducible refine keepR_of ?_ | with_reducible refine keepM_of ?_ | with_reducible refine Keep.queue ?_

theorem keep_execMeasureExchangeTimeout {s t : State} {p : Fin 4} (h : Keep s t) :
    KeepO s (execMeasureExchangeTimeout p t) := by
  unfold execMeasureExchangeTimeout
  repeat' first
    | with_reducible assumption | with_reducible refine keepO_next ?_ | with_reducible refine keep_failAttempt ?_ | split

theorem keep_sendLate {s t : State} {num : Byte} {tm : DWord} {src : BitVec 12} {via : Option (Fin 4)} (h : Keep s t) :
    Keep s (State.sendLate t num tm src via) := by
  unfold State.sendLate; dsimp only
  repeat' first
    | with_reducible assumption | with_reducible refine keep_wrs ?_ | with_reducible refine keep_offer ?_
    | with_reducible refine keep_routeUni ?_ | split

theorem keep_lateTrig {s t : State} {num : Byte} {tm : DWord} {src : BitVec 12} {via : Option (Fin 4)} (h : Keep s t) :
    Keep s (State.lateTrig t num tm src via) := by
  unfold State.lateTrig
  repeat' first
    | with_reducible assumption | with_reducible refine keep_addSat ?_ | with_reducible refine keep_reportUnit ?_
    | with_reducible refine keep_sendLate ?_

theorem keep_acceptTrig {s t : State} {num : Byte} {tm : DWord} {src : BitVec 12} {via : Option (Fin 4)}
    (h : Keep s t) :
    Keep s (State.acceptTrig t num tm src via) := by
  unfold State.acceptTrig; dsimp only
  repeat' first
    | with_reducible assumption | with_reducible refine keep_lateTrig ?_ | with_reducible refine keep_wr ?_
    | with_reducible refine keep_modTime ?_ | with_reducible refine keep_each (fun _ _ _ => ?_) ?_
    | with_reducible refine keep_modSl ?_ | with_reducible refine keep_openInput ?_ | split
    | (simp only [keep_mk]; refine ⟨?_, ?_, ?_⟩) | with_reducible refine keepR_of ?_
    | with_reducible refine keepM_of ?_ | with_reducible refine Keep.queue ?_
    | with_reducible refine keep_snd ‹_› ?_

theorem keep_execTrig {s t : State} {p : Fin 4} {hdr : Hdr} {num : Byte} {tm : DWord} (h : Keep s t) :
    KeepO s (execTrig p hdr num tm t) := by
  unfold execTrig
  repeat' first
    | with_reducible assumption | with_reducible refine keep_onFrame (fun _ _ => ?_) ?_ | with_reducible refine keepO_next ?_
    | with_reducible refine keep_routeUni ?_ | with_reducible refine keep_forward ?_
    | with_reducible refine keep_acceptTrig ?_ | split

theorem keep_opTrigcmd {s t : State} {ini : Initiator} {v : DWord} (h : Keep s t) :
    Keep s (State.opTrigcmd t ini v) := by
  unfold State.opTrigcmd; dsimp only
  repeat' first
    | with_reducible assumption | with_reducible refine keep_wr ?_ | with_reducible refine keep_writeReg ?_
    | with_reducible refine keep_routeUni ?_ | with_reducible refine keep_forward ?_
    | with_reducible refine keep_acceptTrig ?_ | split

theorem keep_execLate {s t : State} {p : Fin 4} {hdr : Hdr} {num : Byte} {index : BitVec 12} {behind : Int}
    (h : Keep s t) :
    KeepO s (execLate p hdr num index behind t) := by
  unfold execLate
  repeat' first
    | with_reducible refine keepO_next ?_
    | with_reducible assumption | with_reducible refine keep_onFrame (fun _ _ => ?_) ?_
    | with_reducible refine keep_received (fun _ _ => ?_) ?_ | with_reducible refine keep_wrs ?_ | split
    | (simp only [keep_mk]; refine ⟨?_, ?_, ?_⟩) | with_reducible refine keepR_of ?_
    | with_reducible refine keepM_of ?_ | with_reducible refine Keep.queue ?_
    | with_reducible refine keep_snd ‹_› ?_

theorem keep_trigStart {s t : State} {n : Fin 8} {tm : Nat} (h : Keep s t) :
    Keep s (State.trigStart t n tm) := by
  unfold State.trigStart; dsimp only
  repeat' first
    | with_reducible assumption | with_reducible refine keep_modSl ?_ | with_reducible refine keep_startBurst ?_ | split
    | (simp only [keep_mk]; refine ⟨?_, ?_, ?_⟩) | with_reducible refine keepR_of ?_ | with_reducible refine keepM_of ?_
    | with_reducible refine Keep.queue ?_

theorem keep_execTriggerAction {s t : State} (h : Keep s t) :
    KeepO s (execTriggerAction t) := by
  unfold execTriggerAction; dsimp only
  repeat' first
    | with_reducible assumption | with_reducible refine keep_each (fun _ _ _ => ?_) ?_
    | with_reducible refine keep_foldl (fun _ _ _ => ?_) ?_ | with_reducible refine keepO_next ?_
    | with_reducible refine keep_addSat ?_ | with_reducible refine keep_modSeq ?_ | with_reducible refine keep_modTime ?_
    | with_reducible refine keep_opAbort ?_ | with_reducible refine keep_trigStart ?_ | with_reducible refine keep_act ?_
    | split | (simp only [keep_mk]; refine ⟨?_, ?_, ?_⟩) | with_reducible refine keepR_of ?_
    | with_reducible refine keepM_of ?_ | with_reducible refine Keep.queue ?_

theorem keep_takeSource {s t : State} {p : Fin 4} {h1 : Heard} (h : Keep s t) :
    Keep s (State.takeSource t p h1) := by
  unfold State.takeSource; dsimp only
  repeat' first
    | with_reducible assumption | with_reducible refine keep_wr ?_ | with_reducible refine keep_modTime ?_ | split
    | (simp only [keep_mk]; refine ⟨?_, ?_, ?_⟩) | with_reducible refine keepR_of ?_ | with_reducible refine keepM_of ?_
    | with_reducible refine Keep.queue ?_

theorem keep_chooseSource {s t : State} (h : Keep s t) :
    Keep s (State.chooseSource t) := by
  unfold State.chooseSource
  repeat' first
    | with_reducible assumption | with_reducible refine keep_takeSource ?_ | split | with_reducible refine keep_snd ‹_› ?_

theorem keep_stepTick {s t : State} {back : Int} (h : Keep s t) :
    Keep s (State.stepTick t back) := by
  unfold State.stepTick; dsimp only
  repeat' first
    | with_reducible assumption | with_reducible refine keep_foldl (fun _ _ _ => ?_) ?_
    | with_reducible refine keep_modTime ?_ | with_reducible refine keep_lateTrig ?_
    | (simp only [keep_mk]; refine ⟨?_, ?_, ?_⟩) | with_reducible refine keepR_of ?_ | with_reducible refine keepM_of ?_
    | with_reducible refine Keep.queue ?_

theorem keep_correct {s t : State} {off : Int} (h : Keep s t) :
    Keep s (State.correct t off) := by
  unfold State.correct; dsimp only
  repeat' first
    | with_reducible assumption | with_reducible refine keep_modTime ?_ | with_reducible refine keep_stepTick ?_ | split
    | (simp only [keep_mk]; refine ⟨?_, ?_, ?_⟩) | with_reducible refine keepR_of ?_ | with_reducible refine keepM_of ?_
    | with_reducible refine Keep.queue ?_

theorem keep_sendSync {s t : State} {not_ : Option (Fin 4)} {load : Payload} (h : Keep s t) :
    Keep s (State.sendSync t not_ load) := by
  unfold State.sendSync
  repeat' first
    | with_reducible assumption | with_reducible refine keep_each (fun _ _ _ => ?_) ?_ | with_reducible refine keep_offer ?_

theorem keep_forwardSync {s t : State} {p : Fin 4} {prio : Byte} {hops : Nat} {sseq : Word} {serial : DWord} (h : Keep s t) :
    Keep s (State.forwardSync t p prio hops sseq serial) := by
  unfold State.forwardSync; dsimp only
  repeat' first
    | with_reducible assumption | with_reducible refine keep_modTime ?_ | with_reducible refine keep_sendSync ?_ | split
    | (simp only [keep_mk]; refine ⟨?_, ?_, ?_⟩) | with_reducible refine keepR_of ?_ | with_reducible refine keepM_of ?_
    | with_reducible refine Keep.queue ?_

theorem keep_execSync {s t : State} {p : Fin 4} {hdr : Hdr} {prio : Byte} {hops : Nat} {sseq : Word} {tick : DWord} {tap : Byte} {serial : DWord} {arrival : Nat} (h : Keep s t) :
    KeepO s (execSync p hdr prio hops sseq tick tap serial arrival t) := by
  unfold execSync; dsimp only
  repeat' first
    | with_reducible assumption | with_reducible refine keep_onFrame (fun _ _ => ?_) ?_ | with_reducible refine keepO_next ?_
    | with_reducible refine keep_modTime ?_ | with_reducible refine keep_takeSource ?_
    | with_reducible refine keep_chooseSource ?_ | with_reducible refine keep_correct ?_
    | with_reducible refine keep_forwardSync ?_ | split | (simp only [keep_mk]; refine ⟨?_, ?_, ?_⟩)
    | with_reducible refine keepR_of ?_ | with_reducible refine keepM_of ?_ | with_reducible refine Keep.queue ?_

theorem keep_execSyncTimer {s t : State} (h : Keep s t) :
    KeepO s (execSyncTimer t) := by
  unfold execSyncTimer; dsimp only
  repeat' first
    | with_reducible assumption | with_reducible refine keepO_next ?_ | with_reducible refine keep_modTime ?_
    | with_reducible refine keep_sendSync ?_ | split | (simp only [keep_mk]; refine ⟨?_, ?_, ?_⟩)
    | with_reducible refine keepR_of ?_ | with_reducible refine keepM_of ?_ | with_reducible refine Keep.queue ?_

theorem keep_execSourceTimeout {s t : State} (h : Keep s t) :
    KeepO s (execSourceTimeout t) := by
  unfold execSourceTimeout; dsimp only
  repeat' first
    | with_reducible assumption | with_reducible refine keepO_next ?_ | with_reducible refine keep_wr ?_
    | with_reducible refine keep_modTime ?_ | with_reducible refine keep_takeSource ?_ | split
    | with_reducible refine keep_snd ‹_› ?_ | (simp only [keep_mk]; refine ⟨?_, ?_, ?_⟩) | with_reducible refine keepR_of ?_
    | with_reducible refine keepM_of ?_ | with_reducible refine Keep.queue ?_

theorem keep_execMasterTakeover {s t : State} (h : Keep s t) :
    KeepO s (execMasterTakeover t) := by
  unfold execMasterTakeover; dsimp only
  repeat' first
    | with_reducible assumption | with_reducible refine keepO_next ?_ | with_reducible refine keep_wr ?_
    | with_reducible refine keep_modTime ?_ | split | (simp only [keep_mk]; refine ⟨?_, ?_, ?_⟩)
    | with_reducible refine keepR_of ?_ | with_reducible refine keepM_of ?_ | with_reducible refine Keep.queue ?_

theorem keep_opSnap {s t : State} {v : Nat} (h : Keep s t) :
    Keep s (State.opSnap t v) := by
  unfold State.opSnap; dsimp only
  repeat' first
    | with_reducible assumption | with_reducible refine keep_wrs ?_ | split

theorem keep_opPhccmd {s t : State} {v : Nat} (h : Keep s t) :
    Keep s (State.opPhccmd t v) := by
  unfold State.opPhccmd
  repeat' first
    | with_reducible assumption | with_reducible refine keep_modTime ?_ | split | (simp only [keep_mk]; refine ⟨?_, ?_, ?_⟩)
    | with_reducible refine keepR_of ?_ | with_reducible refine keepM_of ?_ | with_reducible refine Keep.queue ?_

theorem keep_servo {s t : State} {off : Int} (h : Keep s t) :
    Keep s (State.servo t off) := by
  unfold State.servo; dsimp only
  repeat' first
    | with_reducible assumption | with_reducible refine keep_addSat ?_ | with_reducible refine keep_modTime ?_ | split
    | (simp only [keep_mk]; refine ⟨?_, ?_, ?_⟩) | with_reducible refine keepR_of ?_ | with_reducible refine keepM_of ?_
    | with_reducible refine Keep.queue ?_

theorem keep_opSrvoff {s t : State} {p : Part} {v : DWord} (h : Keep s t) :
    Keep s (State.opSrvoff t p v) := by
  unfold State.opSrvoff; dsimp only
  repeat' first
    | with_reducible assumption | with_reducible refine keep_setReg ?_ | with_reducible refine keep_servo ?_ | split

theorem keep_opSrvctl {s t : State} {ini : Initiator} {v : DWord} (h : Keep s t) :
    Keep s (State.opSrvctl t ini v) := by
  unfold State.opSrvctl; dsimp only
  repeat' first
    | with_reducible assumption | with_reducible refine keep_modTime ?_ | with_reducible refine keep_writeReg ?_ | split
    | (simp only [keep_mk]; refine ⟨?_, ?_, ?_⟩) | with_reducible refine keepR_of ?_ | with_reducible refine keepM_of ?_
    | with_reducible refine Keep.queue ?_

theorem keep_opTxtspop {s t : State} {v : Nat} (h : Keep s t) :
    Keep s (State.opTxtspop t v) := by
  unfold State.opTxtspop
  repeat' first
    | with_reducible assumption | with_reducible refine keep_modTime ?_ | split | (simp only [keep_mk]; refine ⟨?_, ?_, ?_⟩)
    | with_reducible refine keepR_of ?_ | with_reducible refine keepM_of ?_ | with_reducible refine Keep.queue ?_

theorem keep_pushStamp {s t : State} {x : TxStamp} (h : Keep s t) :
    Keep s (State.pushStamp t x) := by
  unfold State.pushStamp
  repeat' first
    | with_reducible assumption | with_reducible refine keep_wr ?_ | with_reducible refine keep_addSat ?_
    | with_reducible refine keep_modTime ?_ | split | (simp only [keep_mk]; refine ⟨?_, ?_, ?_⟩)
    | with_reducible refine keepR_of ?_ | with_reducible refine keepM_of ?_ | with_reducible refine Keep.queue ?_

theorem keep_phcStep {s t : State} (h : Keep s t) :
    Keep s (State.phcStep t) := by
  unfold State.phcStep; dsimp only
  repeat' first
    | with_reducible assumption | with_reducible refine keep_modTime ?_ | split | (simp only [keep_mk]; refine ⟨?_, ?_, ?_⟩)
    | with_reducible refine keepR_of ?_ | with_reducible refine keepM_of ?_ | with_reducible refine Keep.queue ?_

theorem keep_coreCount {s t : State} {c : Fin 8} (h : Keep s t) :
    Keep s (State.coreCount t c) := by
  unfold State.coreCount
  repeat' first
    | with_reducible assumption | with_reducible refine keep_wr ?_ | split

theorem keep_tickOne {s t : State} (h : Keep s t) :
    Keep s (State.tickOne t) := by
  unfold State.tickOne; dsimp only
  repeat' first
    | with_reducible assumption | with_reducible refine keep_modTime ?_ | with_reducible refine keep_tickMtip ?_
    | with_reducible refine keep_phcStep ?_ | with_reducible refine keep_each (fun _ _ _ => ?_) ?_
    | with_reducible refine keep_coreCount ?_ | with_reducible refine keep_markLead ?_
    | with_reducible refine keep_modDrc ?_ | with_reducible refine keep_drcCycle ?_ | split
    | (simp only [keep_mk]; refine ⟨?_, ?_, ?_⟩) | with_reducible refine keepR_of ?_
    | with_reducible refine keepM_of ?_ | with_reducible refine Keep.queue ?_
    | with_reducible refine keep_snd ‹_› ?_

end Sys2Proof.Machine
end

