-- ==== Sys2Proof/Laws/KeepReset.lean ====
section
/-! SUPPORT. What the operations of Machine/Reset.lean keep. -/

namespace Sys2Proof.Machine

open Sys2Proof

theorem keep_sliceReset {s t : State} {n : Fin 8} (h : Keep s t) :
    Keep s (State.sliceReset t n) := by
  unfold State.sliceReset; dsimp only
  repeat' first
    | with_reducible assumption | with_reducible refine keep_resetRegs ?_ | with_reducible refine keep_modSl ?_
    | with_reducible refine keep_setReady ?_ | with_reducible refine keep_finishSafe ?_
    | with_reducible refine keep_dropStage ?_ | (simp only [keep_mk]; refine ⟨?_, ?_, ?_⟩)
    | with_reducible refine keepR_of ?_ | with_reducible refine keepM_of ?_ | with_reducible refine Keep.queue ?_

theorem keep_moduleReset {s t : State} {k : ModuleReset} (h : Keep s t) :
    Keep s (State.moduleReset t k) := by
  unfold State.moduleReset; dsimp only
  repeat' first
    | with_reducible assumption | with_reducible refine keep_wr ?_
    | with_reducible refine keep_each (fun _ _ _ => ?_) ?_ | with_reducible refine keep_wrs ?_
    | with_reducible refine keepR_filter ?_ | with_reducible refine keepM_filter ?_ | split
    | (simp only [keep_mk]; refine ⟨?_, ?_, ?_⟩) | with_reducible refine keepR_of ?_
    | with_reducible refine keepM_of ?_ | with_reducible refine Keep.queue ?_
    | with_reducible refine keep_snd ‹_› ?_

theorem keep_mgmtStops {s t : State} (h : Keep s t) :
    Keep s (State.mgmtStops t) := by
  unfold State.mgmtStops; dsimp only
  repeat' first
    | with_reducible assumption | with_reducible refine keep_each (fun _ _ _ => ?_) ?_
    | with_reducible refine keep_wrs ?_ | with_reducible refine keepR_filter ?_ | split
    | (simp only [keep_mk]; refine ⟨?_, ?_, ?_⟩) | with_reducible refine keepR_of ?_
    | with_reducible refine keepM_of ?_ | with_reducible refine Keep.queue ?_
    | with_reducible refine keep_snd ‹_› ?_

theorem keep_mgmtReset {s t : State} (h : Keep s t) :
    Keep s (State.mgmtReset t) := by
  unfold State.mgmtReset; dsimp only
  repeat' first
    | with_reducible assumption | with_reducible refine keep_mgmtStops ?_ | with_reducible refine keep_resetRegs ?_
    | with_reducible refine keep_each (fun _ _ _ => ?_) ?_ | with_reducible refine keep_wr ?_
    | with_reducible refine keep_setReady ?_ | with_reducible refine keepR_filter ?_ | split
    | (simp only [keep_mk]; refine ⟨?_, ?_, ?_⟩) | with_reducible refine keepR_of ?_
    | with_reducible refine keepM_of ?_ | with_reducible refine Keep.queue ?_
    | with_reducible refine keep_snd ‹_› ?_

theorem keep_opRst {s t : State} {ini : Initiator} {v : Nat} (h : Keep s t) :
    Keep s (State.opRst t ini v) := by
  unfold State.opRst; dsimp only
  repeat' first
    | with_reducible assumption | with_reducible refine keep_each (fun _ _ _ => ?_) ?_ | with_reducible refine keep_accErr ?_
    | with_reducible refine keep_sliceReset ?_ | with_reducible refine keep_moduleReset ?_
    | with_reducible refine keep_mgmtReset ?_ | split

theorem keep_execPowerOnReset {s t : State} {vaon : Bool} (h : Keep s t) :
    KeepO s (execPowerOnReset vaon t) := by
  unfold execPowerOnReset
  repeat' first
    | with_reducible refine keepO_next ?_
    | with_reducible assumption | with_reducible refine keep_moduleReset ?_ | split
    | (simp only [keep_mk]; refine ⟨?_, ?_, ?_⟩) | with_reducible refine keepR_of ?_
    | with_reducible refine keepM_of ?_ | with_reducible refine Keep.queue ?_
    | with_reducible refine keep_snd ‹_› ?_

theorem keep_execPerstN {s t : State} (h : Keep s t) :
    KeepO s (execPerstN t) := by
  unfold execPerstN
  repeat' first
    | with_reducible refine keepO_next ?_
    | with_reducible assumption | with_reducible refine keep_moduleReset ?_ | split
    | (simp only [keep_mk]; refine ⟨?_, ?_, ?_⟩) | with_reducible refine keepR_of ?_
    | with_reducible refine keepM_of ?_ | with_reducible refine Keep.queue ?_
    | with_reducible refine keep_snd ‹_› ?_

theorem keep_execFullReset {s t : State} {data : Byte} {pec : Bool} (h : Keep s t) :
    KeepO s (execFullReset data pec t) := by
  unfold execFullReset
  repeat' first
    | with_reducible assumption | with_reducible refine keepO_next ?_ | with_reducible refine keep_moduleReset ?_ | split

theorem keep_unpowered {s t : State} (h : Keep s t) :
    Keep s (State.unpowered t) := by
  unfold State.unpowered; dsimp only
  repeat' first
    | with_reducible assumption | with_reducible refine keep_modDrc ?_ | split
    | (simp only [keep_mk]; refine ⟨?_, ?_, ?_⟩) | with_reducible refine keepR_of ?_
    | with_reducible refine keepM_of ?_ | with_reducible refine Keep.queue ?_
    | with_reducible refine keep_snd ‹_› ?_

theorem keep_execPwrgoodFall {s t : State} (h : Keep s t) :
    KeepO s (execPwrgoodFall t) := by
  unfold execPwrgoodFall; dsimp only
  repeat' first
    | with_reducible refine keepO_next ?_
    | with_reducible assumption | with_reducible refine keep_each (fun _ _ _ => ?_) ?_
    | with_reducible refine keep_finishSafe ?_ | with_reducible refine keep_unpowered ?_
    | with_reducible refine keep_modPower ?_ | split | (simp only [keep_mk]; refine ⟨?_, ?_, ?_⟩)
    | with_reducible refine keepR_of ?_ | with_reducible refine keepM_of ?_ | with_reducible refine Keep.queue ?_
    | with_reducible refine keep_snd ‹_› ?_

theorem keep_execVaonLoss {s t : State} (h : Keep s t) :
    KeepO s (execVaonLoss t) := by
  unfold execVaonLoss
  repeat' first
    | with_reducible assumption | with_reducible refine keepO_next ?_ | with_reducible refine keep_modPower ?_
    | with_reducible refine keep_moduleReset ?_ | (simp only [keep_mk]; refine ⟨?_, ?_, ?_⟩)
    | with_reducible refine keepR_of ?_ | with_reducible refine keepM_of ?_ | with_reducible refine Keep.queue ?_

theorem keep_execRailFault {s t : State} (h : Keep s t) :
    KeepO s (execRailFault t) := by
  unfold execRailFault
  repeat' first
    | with_reducible refine keepO_next ?_
    | with_reducible assumption | with_reducible refine keep_reportUnit ?_ | with_reducible refine keep_fatalNow ?_
    | with_reducible refine keep_freeVal ?_ | split | (simp only [keep_mk]; refine ⟨?_, ?_, ?_⟩)
    | with_reducible refine keepR_of ?_ | with_reducible refine keepM_of ?_ | with_reducible refine Keep.queue ?_
    | with_reducible refine keep_snd ‹_› ?_

theorem keep_execRailsInRange {s t : State} (h : Keep s t) :
    KeepO s (execRailsInRange t) := by
  unfold execRailsInRange
  repeat' first
    | with_reducible assumption | with_reducible refine keepO_next ?_ | with_reducible refine keep_modPower ?_
    | with_reducible refine keep_setReady ?_ | split | (simp only [keep_mk]; refine ⟨?_, ?_, ?_⟩)
    | with_reducible refine keepR_of ?_ | with_reducible refine keepM_of ?_ | with_reducible refine Keep.queue ?_

theorem keep_rootLost {s t : State} (h : Keep s t) :
    Keep s (State.rootLost t) := by
  unfold State.rootLost; dsimp only
  repeat' first
    | with_reducible assumption | with_reducible refine keep_dropReady ?_
    | with_reducible refine keep_each (fun _ _ _ => ?_) ?_ | with_reducible refine keep_dispatch ?_
    | with_reducible refine keep_setReady ?_ | with_reducible refine keep_mgmtStops ?_
    | with_reducible refine keep_modPower ?_ | with_reducible refine keep_reportUnit ?_
    | with_reducible refine keep_fatalNow ?_ | with_reducible refine keep_modSl ?_
    | with_reducible refine keep_modTime ?_ | split | (simp only [keep_mk]; refine ⟨?_, ?_, ?_⟩)
    | with_reducible refine keepR_of ?_ | with_reducible refine keepM_of ?_ | with_reducible refine Keep.queue ?_
    | with_reducible refine keep_snd ‹_› ?_

theorem keep_moveRoot {s t : State} {r : Nat} {auto : Bool} (h : Keep s t) :
    Keep s (State.moveRoot t r auto) := by
  unfold State.moveRoot; dsimp only
  repeat' first
    | with_reducible assumption | with_reducible refine keep_wr ?_ | with_reducible refine keep_modPower ?_ | split
    | (simp only [keep_mk]; refine ⟨?_, ?_, ?_⟩) | with_reducible refine keepR_of ?_ | with_reducible refine keepM_of ?_
    | with_reducible refine Keep.queue ?_

theorem keep_rootRefFails {s t : State} (h : Keep s t) :
    Keep s (State.rootRefFails t) := by
  unfold State.rootRefFails
  repeat' first
    | with_reducible assumption | with_reducible refine keep_reportUnit ?_ | with_reducible refine keep_rootLost ?_
    | with_reducible refine keep_moveRoot ?_ | split

theorem keep_execRefLost {s t : State} (h : Keep s t) :
    KeepO s (execRefLost t) := by
  unfold execRefLost; dsimp only
  repeat' first
    | with_reducible assumption | with_reducible refine keepO_next ?_ | with_reducible refine keep_modPower ?_
    | with_reducible refine keep_dropDisc ?_ | with_reducible refine keep_rootRefFails ?_ | split
    | (simp only [keep_mk]; refine ⟨?_, ?_, ?_⟩) | with_reducible refine keepR_of ?_ | with_reducible refine keepM_of ?_
    | with_reducible refine Keep.queue ?_

theorem keep_execRefValid {s t : State} (h : Keep s t) :
    KeepO s (execRefValid t) := by
  unfold execRefValid
  repeat' first
    | with_reducible assumption | with_reducible refine keepO_next ?_ | with_reducible refine keep_modPower ?_
    | (simp only [keep_mk]; refine ⟨?_, ?_, ?_⟩) | with_reducible refine keepR_of ?_ | with_reducible refine keepM_of ?_
    | with_reducible refine Keep.queue ?_

theorem keep_execRootReturnToRef {s t : State} (h : Keep s t) :
    KeepO s (execRootReturnToRef t) := by
  unfold execRootReturnToRef
  repeat' first
    | with_reducible assumption | with_reducible refine keepO_next ?_ | with_reducible refine keep_moveRoot ?_ | split

theorem keep_execXoLost {s t : State} (h : Keep s t) :
    KeepO s (execXoLost t) := by
  unfold execXoLost; dsimp only
  repeat' first
    | with_reducible assumption | with_reducible refine keep_each (fun _ _ _ => ?_) ?_ | with_reducible refine keepO_next ?_
    | with_reducible refine keep_modSl ?_ | with_reducible refine keep_modPower ?_
    | with_reducible refine keep_rootRefFails ?_ | split | (simp only [keep_mk]; refine ⟨?_, ?_, ?_⟩)
    | with_reducible refine keepR_of ?_ | with_reducible refine keepM_of ?_ | with_reducible refine Keep.queue ?_

theorem keep_execXoValid {s t : State} (h : Keep s t) :
    KeepO s (execXoValid t) := by
  unfold execXoValid; dsimp only
  repeat' first
    | with_reducible assumption | with_reducible refine keep_each (fun _ _ _ => ?_) ?_ | with_reducible refine keepO_next ?_
    | with_reducible refine keep_modSl ?_ | with_reducible refine keep_modPower ?_
    | (simp only [keep_mk]; refine ⟨?_, ?_, ?_⟩) | with_reducible refine keepR_of ?_ | with_reducible refine keepM_of ?_
    | with_reducible refine Keep.queue ?_

theorem keep_execTrootLockLost {s t : State} (h : Keep s t) :
    KeepO s (execTrootLockLost t) := by
  unfold execTrootLockLost
  repeat' first
    | with_reducible assumption | with_reducible refine keepO_next ?_ | with_reducible refine keep_rootLost ?_ | split

theorem keep_opClkctl {s t : State} {ini : Initiator} {v : DWord} (h : Keep s t) :
    Keep s (State.opClkctl t ini v) := by
  unfold State.opClkctl; dsimp only
  repeat' first
    | with_reducible assumption | with_reducible refine keep_accErr ?_ | with_reducible refine keep_writeReg ?_
    | with_reducible refine keep_rootLost ?_ | with_reducible refine keep_moveRoot ?_ | split

theorem keep_execRootPllLocked {s t : State} (h : Keep s t) :
    KeepO s (execRootPllLocked t) := by
  unfold execRootPllLocked; dsimp only
  repeat' first
    | with_reducible assumption | with_reducible refine keepO_next ?_ | with_reducible refine keep_modTime ?_
    | with_reducible refine keep_modPower ?_ | with_reducible refine keep_setReady ?_ | split
    | (simp only [keep_mk]; refine ⟨?_, ?_, ?_⟩) | with_reducible refine keepR_of ?_ | with_reducible refine keepM_of ?_
    | with_reducible refine Keep.queue ?_

theorem keep_execBootVerifyDone {s t : State} {a : SlotImage} {b : SlotImage} {ms : Nat} (h : Keep s t) :
    KeepO s (execBootVerifyDone a b ms t) := by
  unfold execBootVerifyDone; dsimp only
  repeat' first
    | with_reducible refine keepO_next ?_
    | with_reducible assumption | with_reducible refine keep_wrs ?_ | with_reducible refine keep_setReady ?_
    | with_reducible refine keep_reportUnit ?_ | split | (simp only [keep_mk]; refine ⟨?_, ?_, ?_⟩)
    | with_reducible refine keepR_of ?_ | with_reducible refine keepM_of ?_ | with_reducible refine Keep.queue ?_
    | with_reducible refine keep_snd ‹_› ?_

theorem keep_setRegion {s t : State} {i : Fin 32} {r : Region} (h : Keep s t) :
    Keep s (State.setRegion t i r) := by
  unfold State.setRegion
  repeat' first
    | with_reducible assumption | with_reducible refine keep_wrs ?_ | (simp only [keep_mk]; refine ⟨?_, ?_, ?_⟩)
    | with_reducible refine keepR_of ?_ | with_reducible refine keepM_of ?_ | with_reducible refine Keep.queue ?_

theorem keep_factoryValues {s t : State} {n : Fin 8} (h : Keep s t) :
    Keep s (State.factoryValues t n) := by
  unfold State.factoryValues; dsimp only
  repeat' first
    | with_reducible assumption | with_reducible refine keep_each (fun _ _ _ => ?_) ?_
    | with_reducible refine keep_setReg ?_ | with_reducible refine keep_wr ?_ | with_reducible refine keep_modSl ?_
    | split | (simp only [keep_mk]; refine ⟨?_, ?_, ?_⟩) | with_reducible refine keepR_of ?_
    | with_reducible refine keepM_of ?_ | with_reducible refine Keep.queue ?_
    | with_reducible refine keep_snd ‹_› ?_

theorem keep_bootWrites {s t : State} (h : Keep s t) :
    Keep s (State.bootWrites t) := by
  unfold State.bootWrites; dsimp only
  repeat' first
    | with_reducible assumption | with_reducible refine keep_each (fun _ _ _ => ?_) ?_
    | with_reducible refine keep_setRegion ?_ | with_reducible refine keep_wr ?_
    | with_reducible refine keep_factoryValues ?_ | with_reducible refine keep_modDrc ?_
    | with_reducible refine keepR_filter ?_ | split | (simp only [keep_mk]; refine ⟨?_, ?_, ?_⟩)
    | with_reducible refine keepR_of ?_ | with_reducible refine keepM_of ?_ | with_reducible refine Keep.queue ?_
    | with_reducible refine keep_snd ‹_› ?_

end Sys2Proof.Machine
end

