-- ==== Sys2Proof/Laws/KeepHamper.lean ====
section
/-! SUPPORT. What the operations of Machine/Hamper.lean keep. -/

namespace Sys2Proof.Machine

open Sys2Proof

theorem keep_dispFault {s t : State} (h : Keep s t) :
    Keep s (State.dispFault t) := by
  unfold State.dispFault; dsimp only
  repeat' first
    | with_reducible assumption | with_reducible refine keep_dropTasks ?_ | with_reducible refine keep_setReady ?_
    | with_reducible refine keep_dispatch ?_ | split | (simp only [keep_mk]; refine ⟨?_, ?_, ?_⟩)
    | with_reducible refine keepR_of ?_ | with_reducible refine keepM_of ?_ | with_reducible refine Keep.queue ?_
    | with_reducible refine keep_snd ‹_› ?_

theorem keep_portFault {s t : State} {p : Fin 4} (h : Keep s t) :
    Keep s (State.portFault t p) := by
  unfold State.portFault
  repeat' first
    | with_reducible assumption | with_reducible refine keep_dropFrames ?_ | with_reducible refine keep_attempt1 ?_ | split

theorem keep_ethDown {s t : State} {e : Fin 2} {fault : Bool} (h : Keep s t) :
    Keep s (State.ethDown t e fault) := by
  unfold State.ethDown; dsimp only
  repeat' first
    | with_reducible assumption | with_reducible refine keep_wr ?_ | with_reducible refine keep_addSat ?_
    | with_reducible refine keep_modTime ?_ | with_reducible refine keep_setReady ?_ | split
    | (simp only [keep_mk]; refine ⟨?_, ?_, ?_⟩) | with_reducible refine keepR_of ?_ | with_reducible refine keepM_of ?_
    | with_reducible refine Keep.queue ?_

theorem keep_actContained {s t : State} {src : Nat} (h : Keep s t) :
    Keep s (State.actContained t src) := by
  unfold State.actContained
  repeat' first
    | with_reducible assumption | with_reducible refine keep_each (fun _ _ _ => ?_) ?_
    | with_reducible refine keep_containedSl ?_ | with_reducible refine keep_scanFault ?_
    | with_reducible refine keep_coreFault ?_ | with_reducible refine keep_dispFault ?_
    | with_reducible refine keep_portFault ?_ | with_reducible refine keep_ethDown ?_ | split
    | (simp only [keep_mk]; refine ⟨?_, ?_, ?_⟩) | with_reducible refine keepR_of ?_ | with_reducible refine keepM_of ?_
    | with_reducible refine Keep.queue ?_

theorem keep_act {s t : State} {src : Nat} (h : Keep s t) :
    Keep s (State.act t src) := by
  unfold State.act
  repeat' first
    | with_reducible assumption | with_reducible refine keep_fatalNow ?_ | with_reducible refine keep_actContained ?_ | split

theorem keep_execHamperErrorEvent {s t : State} {src : Fin 512} {detail : DWord} (h : Keep s t) :
    KeepO s (execHamperErrorEvent src detail t) := by
  unfold execHamperErrorEvent
  repeat' first
    | with_reducible refine keepO_next ?_
    | with_reducible assumption | with_reducible refine keep_whenAwake (fun _ _ => ?_) ?_
    | with_reducible refine keep_report ?_ | with_reducible refine keep_act ?_ | split
    | (simp only [keep_mk]; refine ⟨?_, ?_, ?_⟩) | with_reducible refine keepR_of ?_
    | with_reducible refine keepM_of ?_ | with_reducible refine Keep.queue ?_
    | with_reducible refine keep_snd ‹_› ?_

theorem keep_execHamperWireFault {s t : State} {src : Fin 512} (h : Keep s t) :
    KeepO s (execHamperWireFault src t) := by
  unfold execHamperWireFault
  repeat' first
    | with_reducible refine keepO_next ?_
    | with_reducible assumption | with_reducible refine keep_whenAwake (fun _ _ => ?_) ?_
    | with_reducible refine keep_report ?_ | with_reducible refine keep_act ?_ | split
    | (simp only [keep_mk]; refine ⟨?_, ?_, ?_⟩) | with_reducible refine keepR_of ?_
    | with_reducible refine keepM_of ?_ | with_reducible refine Keep.queue ?_
    | with_reducible refine keep_snd ‹_› ?_

theorem keep_execHamperSourceCleared {s t : State} {src : Fin 512} (h : Keep s t) :
    KeepO s (execHamperSourceCleared src t) := by
  unfold execHamperSourceCleared
  repeat' first
    | with_reducible assumption | with_reducible refine keepO_next ?_ | (simp only [keep_mk]; refine ⟨?_, ?_, ?_⟩)
    | with_reducible refine keepR_of ?_ | with_reducible refine keepM_of ?_ | with_reducible refine Keep.queue ?_

theorem keep_execFatalFault {s t : State} {src : Fin 512} {lost : MemLoss} (h : Keep s t) :
    KeepO s (execFatalFault src lost t) := by
  unfold execFatalFault
  repeat' first
    | with_reducible refine keepO_next ?_
    | with_reducible assumption | with_reducible refine keep_whenAwake (fun _ _ => ?_) ?_
    | with_reducible refine keep_report ?_ | with_reducible refine keep_fatalNow ?_ | split
    | (simp only [keep_mk]; refine ⟨?_, ?_, ?_⟩) | with_reducible refine keepR_of ?_
    | with_reducible refine keepM_of ?_ | with_reducible refine Keep.queue ?_
    | with_reducible refine keep_snd ‹_› ?_

theorem keep_execEventPathDbe {s t : State} {n : Fin 8} (h : Keep s t) :
    KeepO s (execEventPathDbe n t) := by
  unfold execEventPathDbe
  repeat' first
    | with_reducible refine keepO_next ?_
    | with_reducible assumption | with_reducible refine keep_whenAwake (fun _ _ => ?_) ?_
    | with_reducible refine keep_reportUnit ?_ | with_reducible refine keep_containedSl ?_ | split
    | (simp only [keep_mk]; refine ⟨?_, ?_, ?_⟩) | with_reducible refine keepR_of ?_
    | with_reducible refine keepM_of ?_ | with_reducible refine Keep.queue ?_
    | with_reducible refine keep_snd ‹_› ?_

theorem keep_execControlPathDbe {s t : State} {pe : Fin 2} (h : Keep s t) :
    KeepO s (execControlPathDbe pe t) := by
  unfold execControlPathDbe
  repeat' first
    | with_reducible refine keepO_next ?_
    | with_reducible assumption | with_reducible refine keep_whenAwake (fun _ _ => ?_) ?_
    | with_reducible refine keep_reportUnit ?_ | with_reducible refine keep_each (fun _ _ _ => ?_) ?_
    | with_reducible refine keep_containedSl ?_ | split | (simp only [keep_mk]; refine ⟨?_, ?_, ?_⟩)
    | with_reducible refine keepR_of ?_ | with_reducible refine keepM_of ?_ | with_reducible refine Keep.queue ?_
    | with_reducible refine keep_snd ‹_› ?_

theorem keep_execDispatcherStoreRecovered {s t : State} (h : Keep s t) :
    KeepO s (execDispatcherStoreRecovered t) := by
  unfold execDispatcherStoreRecovered; dsimp only
  repeat' first
    | with_reducible refine keepO_next ?_
    | with_reducible assumption | with_reducible refine keep_dispReady ?_ | split
    | (simp only [keep_mk]; refine ⟨?_, ?_, ?_⟩) | with_reducible refine keepR_of ?_
    | with_reducible refine keepM_of ?_ | with_reducible refine Keep.queue ?_
    | with_reducible refine keep_snd ‹_› ?_

theorem keep_opPop {s t : State} {ini : Initiator} {v : Nat} (h : Keep s t) :
    Keep s (State.opPop t ini v) := by
  unfold State.opPop; dsimp only
  repeat' first
    | with_reducible assumption | with_reducible refine keep_drop ?_ | split | (simp only [keep_mk]; refine ⟨?_, ?_, ?_⟩)
    | with_reducible refine keepR_of ?_ | with_reducible refine keepM_of ?_ | with_reducible refine Keep.queue ?_

theorem keep_opAonclr {s t : State} {v : Nat} (h : Keep s t) :
    Keep s (State.opAonclr t v) := by
  unfold State.opAonclr; dsimp only
  repeat' first
    | with_reducible assumption | split | (simp only [keep_mk]; refine ⟨?_, ?_, ?_⟩) | with_reducible refine keepR_of ?_
    | with_reducible refine keepM_of ?_ | with_reducible refine Keep.queue ?_

theorem keep_injectDue {s t : State} (h : Keep s t) :
    Keep s (State.injectDue t) := by
  unfold State.injectDue
  repeat' first
    | with_reducible assumption | with_reducible refine keep_report ?_ | with_reducible refine keep_act ?_ | split
    | (simp only [keep_mk]; refine ⟨?_, ?_, ?_⟩) | with_reducible refine keepR_of ?_
    | with_reducible refine keepM_of ?_ | with_reducible refine Keep.queue ?_
    | with_reducible refine keep_snd ‹_› ?_

theorem keep_opInj {s t : State} {ini : Initiator} {v : DWord} (h : Keep s t) :
    Keep s (State.opInj t ini v) := by
  unfold State.opInj; dsimp only
  repeat' first
    | with_reducible assumption | with_reducible refine keep_accErr ?_ | with_reducible refine keep_writeReg ?_ | split
    | (simp only [keep_mk]; refine ⟨?_, ?_, ?_⟩) | with_reducible refine keepR_of ?_ | with_reducible refine keepM_of ?_
    | with_reducible refine Keep.queue ?_

theorem keep_opHmSrc {s t : State} {ini : Initiator} {i : Nat} {v : DWord} (h : Keep s t) :
    Keep s (State.opHmSrc t ini i v) := by
  unfold State.opHmSrc; dsimp only
  repeat' first
    | with_reducible assumption | with_reducible refine keep_writeSome ?_

end Sys2Proof.Machine
end

