-- ==== Sys2Proof/Laws/KeepPress.lean ====
section
/-! SUPPORT. What the operations of Machine/Press.lean keep. -/

namespace Sys2Proof.Machine

open Sys2Proof

theorem keep_modPress {s t : State} {n : Fin 8} {f : PressSl → PressSl} (h : Keep s t) :
    Keep s (State.modPress t n f) := by
  unfold State.modPress
  repeat' first
    | with_reducible assumption | (simp only [keep_mk]; refine ⟨?_, ?_, ?_⟩) | with_reducible refine keepR_of ?_
    | with_reducible refine keepM_of ?_ | with_reducible refine Keep.queue ?_

theorem keep_pressStart {s t : State} {n : Fin 8} (h : Keep s t) :
    Keep s (State.pressStart t n) := by
  unfold State.pressStart; dsimp only
  repeat' first
    | with_reducible assumption | with_reducible refine keep_modSl ?_ | with_reducible refine keep_modPress ?_
    | (simp only [keep_mk]; refine ⟨?_, ?_, ?_⟩) | with_reducible refine keepR_of ?_ | with_reducible refine keepM_of ?_
    | with_reducible refine Keep.queue ?_

theorem keep_pressTry {s t : State} {n : Fin 8} (h : Keep s t) :
    Keep s (State.pressTry t n) := by
  unfold State.pressTry
  repeat' first
    | with_reducible assumption | with_reducible refine keep_pressStart ?_ | split

theorem keep_opPressCtrl {s t : State} {ini : Initiator} {n : Fin 8} {v : DWord} (h : Keep s t) :
    Keep s (State.opPressCtrl t ini n v) := by
  unfold State.opPressCtrl; dsimp only
  repeat' first
    | with_reducible assumption | with_reducible refine keep_writeReg ?_ | with_reducible refine keep_modPress ?_
    | with_reducible refine keep_pressTry ?_ | split | (simp only [keep_mk]; refine ⟨?_, ?_, ?_⟩)
    | with_reducible refine keepR_of ?_ | with_reducible refine keepM_of ?_ | with_reducible refine Keep.queue ?_

theorem keep_execPressAutoStart {s t : State} {n : Fin 8} (h : Keep s t) :
    KeepO s (execPressAutoStart n t) := by
  unfold execPressAutoStart
  repeat' first
    | with_reducible assumption | with_reducible refine keepO_next ?_ | with_reducible refine keep_pressTry ?_

theorem keep_pressPass {s t : State} {n : Fin 8} {deskew : Vector Word 32} {levels : Vector (Vector Corr 7) 32} {tdc : Vector Int 98} {ppmu : Vector (Vector PmuCorr 5) 32}
    (h : Keep s t) :
    Keep s (State.pressPass t n deskew levels tdc ppmu) := by
  unfold State.pressPass; dsimp only
  repeat' first
    | with_reducible assumption | with_reducible refine keep_each (fun _ _ _ => ?_) ?_
    | with_reducible refine keep_setReg ?_ | with_reducible refine keep_modSl ?_ | with_reducible refine keep_wrs ?_
    | split | (simp only [keep_mk]; refine ⟨?_, ?_, ?_⟩) | with_reducible refine keepR_of ?_
    | with_reducible refine keepM_of ?_ | with_reducible refine Keep.queue ?_
    | with_reducible refine keep_snd ‹_› ?_

theorem keep_pressFail {s t : State} {n : Fin 8} {code : Nat} {lane : Nat} (h : Keep s t) :
    Keep s (State.pressFail t n code lane) := by
  unfold State.pressFail; dsimp only
  repeat' first
    | with_reducible assumption | with_reducible refine keep_wr ?_ | with_reducible refine keep_wrs ?_
    | with_reducible refine keep_addSat ?_ | split

theorem keep_execPressRunDone {s t : State} {n : Fin 8} {m : PressMeasured} (h : Keep s t) :
    KeepO s (execPressRunDone n m t) := by
  unfold execPressRunDone
  repeat' first
    | with_reducible refine keepO_next ?_
    | with_reducible assumption | with_reducible refine keep_modPress ?_ | split
    | (simp only [keep_mk]; refine ⟨?_, ?_, ?_⟩) | with_reducible refine keepR_of ?_
    | with_reducible refine keepM_of ?_ | with_reducible refine Keep.queue ?_
    | with_reducible refine keep_snd ‹_› ?_

theorem keep_pressEnd {s t : State} {n : Fin 8} (h : Keep s t) :
    Keep s (State.pressEnd t n) := by
  unfold State.pressEnd
  repeat' first
    | with_reducible assumption | with_reducible refine keep_pressPass ?_ | with_reducible refine keep_pressFail ?_
    | split | (simp only [keep_mk]; refine ⟨?_, ?_, ?_⟩) | with_reducible refine keepR_of ?_
    | with_reducible refine keepM_of ?_ | with_reducible refine Keep.queue ?_
    | with_reducible refine keep_snd ‹_› ?_

theorem keep_execPressSwitchRestore {s t : State} {n : Fin 8} (h : Keep s t) :
    KeepO s (execPressSwitchRestore n t) := by
  unfold execPressSwitchRestore; dsimp only
  repeat' first
    | with_reducible refine keepO_next ?_
    | with_reducible assumption | with_reducible refine keep_pressEnd ?_ | with_reducible refine keep_modPress ?_
    | with_reducible refine keep_modSl ?_ | with_reducible refine keep_trySlReady ?_ | split
    | (simp only [keep_mk]; refine ⟨?_, ?_, ?_⟩) | with_reducible refine keepR_of ?_
    | with_reducible refine keepM_of ?_ | with_reducible refine Keep.queue ?_
    | with_reducible refine keep_snd ‹_› ?_

theorem keep_pressJudge {s t : State} {n : Fin 8} {reading : BitVec 16} (h : Keep s t) :
    Keep s (State.pressJudge t n reading) := by
  unfold State.pressJudge; dsimp only
  repeat' first
    | with_reducible assumption | with_reducible refine keep_wr ?_ | split

theorem keep_opPressCfg {s t : State} {ini : Initiator} {v : DWord} (h : Keep s t) :
    Keep s (State.opPressCfg t ini v) := by
  unfold State.opPressCfg; dsimp only
  repeat' first
    | with_reducible assumption | with_reducible refine keep_wrs ?_ | with_reducible refine keep_accErr ?_
    | with_reducible refine keep_writeReg ?_ | split

theorem keep_modBist {s t : State} {f : Bist → Bist} (h : Keep s t) :
    Keep s (State.modBist t f) := by
  unfold State.modBist
  repeat' first
    | with_reducible assumption | (simp only [keep_mk]; refine ⟨?_, ?_, ?_⟩) | with_reducible refine keepR_of ?_
    | with_reducible refine keepM_of ?_ | with_reducible refine Keep.queue ?_

theorem keep_reinit {s t : State} {kind : Nat} {inst : Nat} (h : Keep s t) :
    Keep s (State.reinit t kind inst) := by
  unfold State.reinit; dsimp only
  repeat' first
    | with_reducible assumption | with_reducible refine keep_resetRegs ?_ | with_reducible refine keep_modSl ?_
    | with_reducible refine keep_coreReset ?_ | with_reducible refine keep_modCore ?_
    | with_reducible refine keep_modDrc ?_ | with_reducible refine keep_rinsed ?_
    | with_reducible refine keepR_filter ?_ | split | (simp only [keep_mk]; refine ⟨?_, ?_, ?_⟩)
    | with_reducible refine keepR_of ?_ | with_reducible refine keepM_of ?_ | with_reducible refine Keep.queue ?_
    | with_reducible refine keep_snd ‹_› ?_

theorem keep_reReady {s t : State} {kind : Nat} {inst : Nat} {was : Bool} (h : Keep s t) :
    Keep s (State.reReady t kind inst was) := by
  unfold State.reReady; dsimp only
  repeat' first
    | with_reducible assumption | with_reducible refine keep_trySlReady ?_ | with_reducible refine keep_setReady ?_
    | with_reducible refine keep_coresReady ?_ | with_reducible refine keep_dispReady ?_
    | with_reducible refine keep_loopBack ?_ | with_reducible refine keep_attempt1 ?_ | split
    | (simp only [keep_mk]; refine ⟨?_, ?_, ?_⟩) | with_reducible refine keepR_of ?_
    | with_reducible refine keepM_of ?_ | with_reducible refine Keep.queue ?_
    | with_reducible refine keep_snd ‹_› ?_

theorem keep_endFull {s t : State} (h : Keep s t) :
    Keep s (State.endFull t) := by
  unfold State.endFull
  repeat' first
    | with_reducible assumption | with_reducible refine keep_modBist ?_ | with_reducible refine keep_reinit ?_
    | with_reducible refine keep_reReady ?_ | split | with_reducible refine keep_snd ‹_› ?_
    | (simp only [keep_mk]; refine ⟨?_, ?_, ?_⟩) | with_reducible refine keepR_of ?_ | with_reducible refine keepM_of ?_
    | with_reducible refine Keep.queue ?_

theorem keep_opBistCmd {s t : State} {ini : Initiator} {v : Nat} (h : Keep s t) :
    Keep s (State.opBistCmd t ini v) := by
  unfold State.opBistCmd; dsimp only
  repeat' first
    | with_reducible assumption | with_reducible refine keep_wr ?_ | with_reducible refine keep_wrs ?_
    | with_reducible refine keep_setReady ?_ | with_reducible refine keep_accErr ?_
    | with_reducible refine keep_abandonRinse ?_ | with_reducible refine keep_modBist ?_
    | with_reducible refine keep_endFull ?_ | split | (simp only [keep_mk]; refine ⟨?_, ?_, ?_⟩)
    | with_reducible refine keepR_of ?_ | with_reducible refine keepM_of ?_ | with_reducible refine Keep.queue ?_

theorem keep_repair {s t : State} {kind : Nat} {inst : Nat} {source : Nat} {rep : TestReport} (h : Keep s t) :
    Keep s (State.repair t kind inst source rep) := by
  unfold State.repair; dsimp only
  repeat' first
    | with_reducible assumption | with_reducible refine keep_modBist ?_ | with_reducible refine keep_wr ?_
    | with_reducible refine keep_reportUnit ?_ | split | (simp only [keep_mk]; refine ⟨?_, ?_, ?_⟩)
    | with_reducible refine keepR_of ?_ | with_reducible refine keepM_of ?_ | with_reducible refine Keep.queue ?_
    | with_reducible refine keep_snd ‹_› ?_

theorem keep_execBistDone {s t : State} {rep : TestReport} (h : Keep s t) :
    KeepO s (execBistDone rep t) := by
  unfold execBistDone; dsimp only
  repeat' first
    | with_reducible refine keepO_next ?_
    | with_reducible assumption | with_reducible refine keep_wrs ?_ | with_reducible refine keep_repair ?_
    | with_reducible refine keep_endFull ?_ | split | (simp only [keep_mk]; refine ⟨?_, ?_, ?_⟩)
    | with_reducible refine keepR_of ?_ | with_reducible refine keepM_of ?_ | with_reducible refine Keep.queue ?_
    | with_reducible refine keep_snd ‹_› ?_

theorem keep_execRinseStep {s t : State} (h : Keep s t) :
    KeepO s (execRinseStep t) := by
  unfold execRinseStep; dsimp only
  repeat' first
    | with_reducible assumption | with_reducible refine keepO_next ?_ | with_reducible refine keep_wrs ?_
    | with_reducible refine keep_modBist ?_ | split | with_reducible refine keep_snd ‹_› ?_
    | (simp only [keep_mk]; refine ⟨?_, ?_, ?_⟩) | with_reducible refine keepR_of ?_ | with_reducible refine keepM_of ?_
    | with_reducible refine Keep.queue ?_

theorem keep_execRinseStepDone {s t : State} {rep : TestReport} (h : Keep s t) :
    KeepO s (execRinseStepDone rep t) := by
  unfold execRinseStepDone; dsimp only
  repeat' first
    | with_reducible refine keepO_next ?_
    | with_reducible assumption | with_reducible refine keep_wrs ?_ | with_reducible refine keep_modBist ?_
    | with_reducible refine keep_rinsed ?_ | with_reducible refine keep_reportUnit ?_
    | with_reducible refine keep_containedSl ?_ | with_reducible refine keep_setReady ?_
    | with_reducible refine keep_repair ?_ | split | (simp only [keep_mk]; refine ⟨?_, ?_, ?_⟩)
    | with_reducible refine keepR_of ?_ | with_reducible refine keepM_of ?_ | with_reducible refine Keep.queue ?_
    | with_reducible refine keep_snd ‹_› ?_

theorem keep_opTokcmd {s t : State} {ini : Initiator} {v : Nat} (h : Keep s t) :
    Keep s (State.opTokcmd t ini v) := by
  unfold State.opTokcmd; dsimp only
  repeat' first
    | with_reducible assumption | with_reducible refine keep_accErr ?_ | with_reducible refine keep_modBist ?_ | split
    | (simp only [keep_mk]; refine ⟨?_, ?_, ?_⟩) | with_reducible refine keepR_of ?_ | with_reducible refine keepM_of ?_
    | with_reducible refine Keep.queue ?_

theorem keep_execTokenVerifyDone {s t : State} {sig : Bool} (h : Keep s t) :
    KeepO s (execTokenVerifyDone sig t) := by
  unfold execTokenVerifyDone; dsimp only
  repeat' first
    | with_reducible assumption | with_reducible refine keep_each (fun _ _ _ => ?_) ?_ | with_reducible refine keepO_next ?_
    | with_reducible refine keep_wr ?_ | with_reducible refine keep_setReady ?_ | with_reducible refine keep_modBist ?_
    | split | with_reducible refine keep_snd ‹_› ?_ | (simp only [keep_mk]; refine ⟨?_, ?_, ?_⟩)
    | with_reducible refine keepR_of ?_ | with_reducible refine keepM_of ?_ | with_reducible refine Keep.queue ?_

theorem keep_opDarnCmd {s t : State} {ini : Initiator} {v : Nat} (h : Keep s t) :
    Keep s (State.opDarnCmd t ini v) := by
  unfold State.opDarnCmd
  repeat' first
    | with_reducible assumption | with_reducible refine keep_accErr ?_ | with_reducible refine keep_modBist ?_ | split
    | (simp only [keep_mk]; refine ⟨?_, ?_, ?_⟩) | with_reducible refine keepR_of ?_ | with_reducible refine keepM_of ?_
    | with_reducible refine Keep.queue ?_

end Sys2Proof.Machine
end

