-- ==== Sys2Proof/Laws/KeepHostIf.lean ====
section
/-! SUPPORT. What the operations of Machine/HostIf.lean keep. -/

namespace Sys2Proof.Machine

open Sys2Proof

theorem keep_setDma {s t : State} {c : Fin 16} {r : Option DmaRun} (h : Keep s t) :
    Keep s (State.setDma t c r) := by
  unfold State.setDma
  repeat' first
    | with_reducible assumption | (simp only [keep_mk]; refine ⟨?_, ?_, ?_⟩) | with_reducible refine keepR_of ?_
    | with_reducible refine keepM_of ?_ | with_reducible refine Keep.queue ?_

theorem keep_dmaBegin {s t : State} {c : Fin 16} {d : DmaDesc} (h : Keep s t) :
    Keep s (State.dmaBegin t c d) := by
  unfold State.dmaBegin
  repeat' first
    | with_reducible assumption | with_reducible refine keep_setDma ?_ | split

theorem keep_dmaMove {s t : State} {c : Fin 16} {r : DmaRun} {data : List Byte} {how : DmaEnd} (h : Keep s t) :
    Keep s (State.dmaMove t c r data how) := by
  unfold State.dmaMove; dsimp only
  repeat' first
    | with_reducible assumption | with_reducible refine keep_store ?_ | with_reducible refine keep_emit ?_
    | with_reducible refine keep_hbmRefuse ?_ | with_reducible refine keep_readBytes ?_
    | with_reducible refine keep_setDma ?_ | split | (simp only [keep_mk]; refine ⟨?_, ?_, ?_⟩)
    | with_reducible refine keepR_of ?_ | with_reducible refine keepM_of ?_ | with_reducible refine Keep.queue ?_

theorem keep_execDmaChunk {s t : State} {c : Fin 16} {desc : DmaDesc} {data : List Byte} {end_ : DmaEnd}
    (h : Keep s t) :
    KeepO s (execDmaChunk c desc data end_ t) := by
  unfold execDmaChunk; dsimp only
  repeat' first
    | with_reducible refine keepO_next ?_
    | with_reducible assumption | with_reducible refine keep_drcCycle ?_ | with_reducible refine keep_dmaBegin ?_
    | with_reducible refine keep_tookTurns ?_ | with_reducible refine keep_dmaMove ?_ | split
    | (simp only [keep_mk]; refine ⟨?_, ?_, ?_⟩) | with_reducible refine keepR_of ?_
    | with_reducible refine keepM_of ?_ | with_reducible refine Keep.queue ?_
    | with_reducible refine keep_snd ‹_› ?_

theorem keep_execDmaSeal {s t : State} {c : Fin 16} (h : Keep s t) :
    KeepO s (execDmaSeal c t) := by
  unfold execDmaSeal; dsimp only
  repeat' first
    | with_reducible assumption | with_reducible refine keepO_next ?_ | with_reducible refine keep_dmaSeal ?_
    | with_reducible refine keep_setDma ?_ | split | (simp only [keep_mk]; refine ⟨?_, ?_, ?_⟩)
    | with_reducible refine keepR_of ?_ | with_reducible refine keepM_of ?_ | with_reducible refine Keep.queue ?_

theorem keep_dmaStatus {s t : State} {c : Fin 16} {chunks : Nat} {code : Nat} (h : Keep s t) :
    Keep s (State.dmaStatus t c chunks code) := by
  unfold State.dmaStatus; dsimp only
  repeat' first
    | with_reducible assumption | with_reducible refine keep_wr ?_ | with_reducible refine keep_emit ?_

theorem keep_execDmaStatusWrite {s t : State} {c : Fin 16} (h : Keep s t) :
    KeepO s (execDmaStatusWrite c t) := by
  unfold execDmaStatusWrite; dsimp only
  repeat' first
    | with_reducible assumption | with_reducible refine keepO_next ?_ | with_reducible refine keep_wr ?_
    | with_reducible refine keep_msix ?_ | with_reducible refine keep_setDma ?_ | with_reducible refine keep_dmaStatus ?_
    | split

theorem keep_dmaAbortFrom {s t : State} {c : Fin 16} {k : Nat} (h : Keep s t) :
    Keep s (State.dmaAbortFrom t c k) := by
  induction k generalizing t with
  | zero => exact h
  | succ k ih =>
    unfold State.dmaAbortFrom
    split
    · exact h
    · exact ih (keep_dmaStatus h)

theorem keep_dmaCancel {s t : State} {c : Fin 16} (h : Keep s t) :
    Keep s (State.dmaCancel t c) := by
  unfold State.dmaCancel; dsimp only
  repeat' first
    | with_reducible assumption | with_reducible refine keep_resetRegs ?_ | with_reducible refine keep_setDma ?_
    | with_reducible refine keep_dmaStatus ?_ | with_reducible refine keep_dmaAbortFrom ?_ | split
    | (simp only [keep_mk]; refine ⟨?_, ?_, ?_⟩) | with_reducible refine keepR_of ?_ | with_reducible refine keepM_of ?_
    | with_reducible refine Keep.queue ?_

theorem keep_opDmaTail {s t : State} {ini : Initiator} {c : Fin 16} {v : Nat} (h : Keep s t) :
    Keep s (State.opDmaTail t ini c v) := by
  unfold State.opDmaTail; dsimp only
  repeat' first
    | with_reducible assumption | with_reducible refine keep_wr ?_ | with_reducible refine keep_accErr ?_ | split

theorem keep_partReset {s t : State} {p : Fin 8} (h : Keep s t) :
    Keep s (State.partReset t p) := by
  unfold State.partReset; dsimp only
  repeat' first
    | with_reducible assumption | with_reducible refine keep_each (fun _ _ _ => ?_) ?_
    | with_reducible refine keep_resetRegs ?_ | with_reducible refine keep_scanStop ?_
    | with_reducible refine keep_dropTasks ?_ | with_reducible refine keep_sliceReset ?_
    | with_reducible refine keep_dmaCancel ?_ | (simp only [keep_mk]; refine ⟨?_, ?_, ?_⟩)
    | with_reducible refine keepR_of ?_ | with_reducible refine keepM_of ?_ | with_reducible refine Keep.queue ?_

theorem keep_execFlr {s t : State} {p : Fin 8} (h : Keep s t) :
    KeepO s (execFlr p t) := by
  unfold execFlr
  repeat' first
    | with_reducible refine keepO_next ?_
    | with_reducible assumption | with_reducible refine keep_partReset ?_ | split
    | (simp only [keep_mk]; refine ⟨?_, ?_, ?_⟩) | with_reducible refine keepR_of ?_
    | with_reducible refine keepM_of ?_ | with_reducible refine Keep.queue ?_
    | with_reducible refine keep_snd ‹_› ?_

theorem keep_execPcieLinkDown {s t : State} (h : Keep s t) :
    KeepO s (execPcieLinkDown t) := by
  unfold execPcieLinkDown
  repeat' first
    | with_reducible assumption | with_reducible refine keepO_next ?_

theorem keep_opPrst {s t : State} {ini : Initiator} {v : Nat} (h : Keep s t) :
    Keep s (State.opPrst t ini v) := by
  unfold State.opPrst
  repeat' first
    | with_reducible assumption | with_reducible refine keep_each (fun _ _ _ => ?_) ?_ | with_reducible refine keep_accErr ?_
    | with_reducible refine keep_partReset ?_ | split

theorem keep_opPart {s t : State} {ini : Initiator} {p : Fin 8} {v : DWord} (h : Keep s t) :
    Keep s (State.opPart t ini p v) := by
  unfold State.opPart; dsimp only
  repeat' first
    | with_reducible assumption | with_reducible refine keep_accErr ?_ | with_reducible refine keep_writeReg ?_ | split

theorem keep_sendRemote {s t : State} {req : Nat → Nat} {wr : Bool} (h : Keep s t) :
    Keep s (State.sendRemote t req wr) := by
  unfold State.sendRemote; dsimp only
  repeat' first
    | with_reducible assumption | with_reducible refine keep_wr ?_ | with_reducible refine keep_offer ?_ | split
    | (simp only [keep_mk]; refine ⟨?_, ?_, ?_⟩) | with_reducible refine keepR_of ?_
    | with_reducible refine keepM_of ?_ | with_reducible refine Keep.queue ?_
    | with_reducible refine keep_snd ‹_› ?_

theorem keep_mboxBegin {s t : State} {req : Nat → Nat} {op : Nat} {len : Nat} (h : Keep s t) :
    Keep s (State.mboxBegin t req op len) := by
  unfold State.mboxBegin; dsimp only
  repeat' first
    | with_reducible assumption | with_reducible refine keep_sendRemote ?_ | split
    | (simp only [keep_mk]; refine ⟨?_, ?_, ?_⟩) | with_reducible refine keepR_of ?_
    | with_reducible refine keepM_of ?_ | with_reducible refine Keep.queue ?_
    | with_reducible refine keep_snd ‹_› ?_

theorem keep_mboxTake {s t : State} {p : Fin 8} (h : Keep s t) :
    Keep s (State.mboxTake t p) := by
  unfold State.mboxTake
  repeat' first
    | with_reducible assumption | with_reducible refine keep_mboxBegin ?_ | split
    | (simp only [keep_mk]; refine ⟨?_, ?_, ?_⟩) | with_reducible refine keepR_of ?_
    | with_reducible refine keepM_of ?_ | with_reducible refine Keep.queue ?_
    | with_reducible refine keep_snd ‹_› ?_

theorem keep_opMgCmd {s t : State} {ini : Initiator} {p : Fin 8} {v : Nat} (h : Keep s t) :
    Keep s (State.opMgCmd t ini p v) := by
  unfold State.opMgCmd; dsimp only
  repeat' first
    | with_reducible assumption | with_reducible refine keep_accErr ?_ | with_reducible refine keep_wr ?_
    | with_reducible refine keep_mboxTake ?_ | split | (simp only [keep_mk]; refine ⟨?_, ?_, ?_⟩)
    | with_reducible refine keepR_of ?_ | with_reducible refine keepM_of ?_ | with_reducible refine Keep.queue ?_
    | with_reducible refine keep_snd ‹_› ?_

theorem keep_mboxAnswer {s t : State} {p : Fin 8} {op : Nat} {len : Nat} {check : ImageCheck} {info : List Word} (h : Keep s t) :
    Keep s (State.mboxAnswer t p op len check info).2.2 := by
  unfold State.mboxAnswer; dsimp only
  repeat' first
    | with_reducible assumption | split | (simp only [keep_mk]; refine ⟨?_, ?_, ?_⟩) | with_reducible refine keepR_of ?_
    | with_reducible refine keepM_of ?_ | with_reducible refine Keep.queue ?_

theorem keep_mboxOrphan {s t : State} {p : Fin 8} {op : Nat} {len : Nat} {check : ImageCheck} {info : List Word}
    (h : Keep s t) :
    Keep s (State.mboxOrphan t p op len check info) := by
  unfold State.mboxOrphan; dsimp only
  repeat' first
    | with_reducible assumption | with_reducible refine keep_mboxAnswer ?_ | with_reducible refine keep_mboxTake ?_
    | split | (simp only [keep_mk]; refine ⟨?_, ?_, ?_⟩) | with_reducible refine keepR_of ?_
    | with_reducible refine keepM_of ?_ | with_reducible refine Keep.queue ?_
    | with_reducible refine keep_snd ‹_› ?_

theorem keep_mboxRespond {s t : State} {p : Fin 8} {op : Nat} {len : Nat} {check : ImageCheck} {info : List Word}
    (h : Keep s t) :
    Keep s (State.mboxRespond t p op len check info) := by
  unfold State.mboxRespond; dsimp only
  repeat' first
    | with_reducible assumption | with_reducible refine keep_mboxAnswer ?_
    | with_reducible refine keep_each (fun _ _ _ => ?_) ?_ | with_reducible refine keep_setReg ?_
    | with_reducible refine keep_wrs ?_ | with_reducible refine keep_msix ?_ | split
    | (simp only [keep_mk]; refine ⟨?_, ?_, ?_⟩) | with_reducible refine keepR_of ?_
    | with_reducible refine keepM_of ?_ | with_reducible refine Keep.queue ?_
    | with_reducible refine keep_snd ‹_› ?_

theorem keep_execMailboxResponse {s t : State} {p : Fin 8} {check : ImageCheck} {info : List Word} (h : Keep s t) :
    KeepO s (execMailboxResponse p check info t) := by
  unfold execMailboxResponse
  repeat' first
    | with_reducible refine keepO_next ?_
    | with_reducible assumption | with_reducible refine keep_mboxOrphan ?_
    | with_reducible refine keep_mboxRespond ?_ | split | (simp only [keep_mk]; refine ⟨?_, ?_, ?_⟩)
    | with_reducible refine keepR_of ?_ | with_reducible refine keepM_of ?_ | with_reducible refine Keep.queue ?_
    | with_reducible refine keep_snd ‹_› ?_

theorem keep_execRemoteTimeout {s t : State} (h : Keep s t) :
    KeepO s (execRemoteTimeout t) := by
  unfold execRemoteTimeout
  repeat' first
    | with_reducible assumption | with_reducible refine keepO_next ?_ | split | (simp only [keep_mk]; refine ⟨?_, ?_, ?_⟩)
    | with_reducible refine keepR_of ?_ | with_reducible refine keepM_of ?_ | with_reducible refine Keep.queue ?_

theorem keep_execRegrsp {s t : State} {p : Fin 4} {hdr : Hdr} {tag : BitVec 6} {off : Nat} {status : BitVec 2} {data : Word}
    (h : Keep s t) :
    KeepO s (execRegrsp p hdr tag off status data t) := by
  unfold execRegrsp; dsimp only
  repeat' first
    | with_reducible refine keepO_next ?_
    | with_reducible assumption | with_reducible refine keep_onFrame (fun _ _ => ?_) ?_
    | with_reducible refine keep_received (fun _ _ => ?_) ?_ | split | (simp only [keep_mk]; refine ⟨?_, ?_, ?_⟩)
    | with_reducible refine keepR_of ?_ | with_reducible refine keepM_of ?_ | with_reducible refine Keep.queue ?_
    | with_reducible refine keep_snd ‹_› ?_

end Sys2Proof.Machine
end

