-- ==== Sys2Proof/Laws/KeepMgmt.lean ====
section
/-! SUPPORT. What the operations of Machine/Mgmt.lean keep. -/

namespace Sys2Proof.Machine

open Sys2Proof

theorem keep_sample {s t : State} {e : Fin 17 × BitVec 16} (h : Keep s t) :
    Keep s (State.sample t e) := by
  unfold State.sample; dsimp only
  repeat' first
    | with_reducible assumption | with_reducible refine keep_wr ?_ | split
    | (simp only [keep_mk]; refine ⟨?_, ?_, ?_⟩) | with_reducible refine keepR_of ?_
    | with_reducible refine keepM_of ?_ | with_reducible refine Keep.queue ?_
    | with_reducible refine keep_snd ‹_› ?_

theorem keep_samples {s t : State} {l : List (Fin 17 × BitVec 16)} (h : Keep s t) :
    Keep s (State.samples t l) := by
  unfold State.samples; dsimp only
  repeat' first
    | with_reducible assumption | with_reducible refine keep_each (fun _ _ _ => ?_) ?_
    | with_reducible refine keep_sample ?_ | with_reducible refine keep_reportUnit ?_
    | with_reducible refine keep_fatalNow ?_ | with_reducible refine keep_pressJudge ?_
    | with_reducible refine keepR_filter ?_ | split | (simp only [keep_mk]; refine ⟨?_, ?_, ?_⟩)
    | with_reducible refine keepR_of ?_ | with_reducible refine keepM_of ?_ | with_reducible refine Keep.queue ?_
    | with_reducible refine keep_snd ‹_› ?_

theorem keep_execSensorSample {s t : State} {measured : List Int} (h : Keep s t) :
    KeepO s (execSensorSample measured t) := by
  unfold execSensorSample; dsimp only
  repeat' first
    | with_reducible refine keepO_next ?_
    | with_reducible assumption | with_reducible refine keep_samples ?_ | split
    | (simp only [keep_mk]; refine ⟨?_, ?_, ?_⟩) | with_reducible refine keepR_of ?_
    | with_reducible refine keepM_of ?_ | with_reducible refine Keep.queue ?_
    | with_reducible refine keep_snd ‹_› ?_

theorem keep_opSensor {s t : State} {ini : Initiator} {i : Nat} {v : DWord} (h : Keep s t) :
    Keep s (State.opSensor t ini i v) := by
  unfold State.opSensor
  repeat' first
    | with_reducible assumption | with_reducible refine keep_writeReg ?_ | split

theorem keep_execSafePins {s t : State} {data : Byte} {pec : Bool} (h : Keep s t) :
    KeepO s (execSafePins data pec t) := by
  unfold execSafePins
  repeat' first
    | with_reducible assumption | with_reducible refine keep_each (fun _ _ _ => ?_) ?_ | with_reducible refine keepO_next ?_
    | with_reducible refine keep_modPower ?_ | with_reducible refine keep_finishSafe ?_ | split
    | (simp only [keep_mk]; refine ⟨?_, ?_, ?_⟩) | with_reducible refine keepR_of ?_ | with_reducible refine keepM_of ?_
    | with_reducible refine Keep.queue ?_

theorem keep_execSafeRelease {s t : State} {data : Byte} {pec : Bool} (h : Keep s t) :
    KeepO s (execSafeRelease data pec t) := by
  unfold execSafeRelease
  repeat' first
    | with_reducible assumption | with_reducible refine keepO_next ?_ | with_reducible refine keep_modPower ?_ | split
    | (simp only [keep_mk]; refine ⟨?_, ?_, ?_⟩) | with_reducible refine keepR_of ?_ | with_reducible refine keepM_of ?_
    | with_reducible refine Keep.queue ?_

theorem keep_smbRead {s t : State} {pec : Bool} {bytes : List Byte} (h : Keep s t) :
    Keep s (State.smbRead t pec bytes) := by
  unfold State.smbRead
  repeat' first
    | with_reducible assumption | with_reducible refine keep_emit ?_ | split

theorem keep_execReadHamperLog {s t : State} {pec : Bool} (h : Keep s t) :
    KeepO s (execReadHamperLog pec t) := by
  unfold execReadHamperLog; dsimp only
  repeat' first
    | with_reducible assumption | with_reducible refine keepO_next ?_ | with_reducible refine keep_smbRead ?_

theorem keep_execReadTemps {s t : State} {pec : Bool} {age : Nat} {reach : BitVec 13} (h : Keep s t) :
    KeepO s (execReadTemps pec age reach t) := by
  unfold execReadTemps; dsimp only
  repeat' first
    | with_reducible assumption | with_reducible refine keepO_next ?_ | with_reducible refine keep_smbRead ?_ | split

theorem keep_execPowerDownPe {s t : State} {data : Byte} {pec : Bool} (h : Keep s t) :
    KeepO s (execPowerDownPe data pec t) := by
  unfold execPowerDownPe; dsimp only
  repeat' first
    | with_reducible assumption | with_reducible refine keep_each (fun _ _ _ => ?_) ?_ | with_reducible refine keepO_next ?_
    | with_reducible refine keep_modPower ?_ | with_reducible refine keep_setReady ?_
    | with_reducible refine keep_finishSafe ?_ | split | (simp only [keep_mk]; refine ⟨?_, ?_, ?_⟩)
    | with_reducible refine keepR_of ?_ | with_reducible refine keepM_of ?_ | with_reducible refine Keep.queue ?_

theorem keep_execSmbGetInfo {s t : State} {pec : Bool} {info : List Word} (h : Keep s t) :
    KeepO s (execSmbGetInfo pec info t) := by
  unfold execSmbGetInfo
  repeat' first
    | with_reducible assumption | with_reducible refine keepO_next ?_ | with_reducible refine keep_smbRead ?_ | split

theorem keep_execSmbReadSensors {s t : State} {pec : Bool} (h : Keep s t) :
    KeepO s (execSmbReadSensors pec t) := by
  unfold execSmbReadSensors
  repeat' first
    | with_reducible assumption | with_reducible refine keepO_next ?_ | with_reducible refine keep_smbRead ?_ | split

theorem keep_execSmbReadLog {s t : State} {pec : Bool} {first : Nat} {count : Nat} (h : Keep s t) :
    KeepO s (execSmbReadLog pec first count t) := by
  unfold execSmbReadLog
  repeat' first
    | with_reducible assumption | with_reducible refine keepO_next ?_ | with_reducible refine keep_smbRead ?_ | split

theorem keep_execAlertResponse {s t : State} (h : Keep s t) :
    KeepO s (execAlertResponse t) := by
  unfold execAlertResponse
  repeat' first
    | with_reducible assumption | with_reducible refine keepO_next ?_ | with_reducible refine keep_emit ?_ | split

theorem keep_execInterlockChange {s t : State} {a : Bool} {b : Bool} (h : Keep s t) :
    KeepO s (execInterlockChange a b t) := by
  unfold execInterlockChange; dsimp only
  repeat' first
    | with_reducible assumption | with_reducible refine keep_each (fun _ _ _ => ?_) ?_ | with_reducible refine keepO_next ?_
    | with_reducible refine keep_modPower ?_ | with_reducible refine keep_finishSafe ?_ | split
    | (simp only [keep_mk]; refine ⟨?_, ?_, ?_⟩) | with_reducible refine keepR_of ?_ | with_reducible refine keepM_of ?_
    | with_reducible refine Keep.queue ?_

theorem keep_execInterlockFault {s t : State} (h : Keep s t) :
    KeepO s (execInterlockFault t) := by
  unfold execInterlockFault; dsimp only
  repeat' first
    | with_reducible assumption | with_reducible refine keep_each (fun _ _ _ => ?_) ?_ | with_reducible refine keepO_next ?_
    | with_reducible refine keep_wr ?_ | with_reducible refine keep_reportUnit ?_ | with_reducible refine keep_finishSafe ?_
    | split

theorem keep_opIlk {s t : State} {ini : Initiator} {v : Nat} (h : Keep s t) :
    Keep s (State.opIlk t ini v) := by
  unfold State.opIlk
  repeat' first
    | with_reducible assumption | with_reducible refine keep_wr ?_ | with_reducible refine keep_modPower ?_
    | with_reducible refine keep_accErr ?_ | split | (simp only [keep_mk]; refine ⟨?_, ?_, ?_⟩)
    | with_reducible refine keepR_of ?_ | with_reducible refine keepM_of ?_ | with_reducible refine Keep.queue ?_

theorem keep_ringGet {s t : State} {e : Fin 2} {d : Nat} (h : Keep s t) :
    Keep s (State.ringGet t e d).2 := by
  unfold State.ringGet
  repeat' first
    | with_reducible assumption | with_reducible refine keep_hbmRefuse ?_ | split
    | (simp only [keep_mk]; refine ⟨?_, ?_, ?_⟩) | with_reducible refine keepR_of ?_
    | with_reducible refine keepM_of ?_ | with_reducible refine Keep.queue ?_
    | with_reducible refine keep_snd ‹_› ?_

theorem keep_ringPut {s t : State} {e : Fin 2} {d : Nat} {off : Nat} {bs : List Byte} (h : Keep s t) :
    Keep s (State.ringPut t e d off bs) := by
  unfold State.ringPut
  repeat' first
    | with_reducible assumption | with_reducible refine keep_store ?_ | with_reducible refine keep_hbmRefuse ?_
    | split | (simp only [keep_mk]; refine ⟨?_, ?_, ?_⟩) | with_reducible refine keepR_of ?_
    | with_reducible refine keepM_of ?_ | with_reducible refine Keep.queue ?_
    | with_reducible refine keep_snd ‹_› ?_

theorem keep_execEthTxFrame {s t : State} {e : Fin 2} {stamp : RawStamp} {ecc : Bool} (h : Keep s t) :
    KeepO s (execEthTxFrame e stamp ecc t) := by
  unfold execEthTxFrame; dsimp only
  repeat' first
    | with_reducible refine keepO_next ?_
    | with_reducible assumption | with_reducible refine keep_drcCycle ?_ | with_reducible refine keep_ringGet ?_
    | with_reducible refine keep_id ?_ | with_reducible refine keep_tookTurns ?_
    | with_reducible refine keep_ringPut ?_ | with_reducible refine keep_wr ?_
    | with_reducible refine keep_readBytes ?_ | with_reducible refine keep_emit ?_
    | with_reducible refine keep_pushStamp ?_ | split | (simp only [keep_mk]; refine ⟨?_, ?_, ?_⟩)
    | with_reducible refine keepR_of ?_ | with_reducible refine keepM_of ?_ | with_reducible refine Keep.queue ?_
    | with_reducible refine keep_snd ‹_› ?_

theorem keep_ethNoBuf {s t : State} {e : Fin 2} (h : Keep s t) :
    Keep s (State.ethNoBuf t e) := by
  unfold State.ethNoBuf
  repeat' first
    | with_reducible assumption | with_reducible refine keep_addSat ?_ | with_reducible refine keep_wr ?_ | split
    | (simp only [keep_mk]; refine ⟨?_, ?_, ?_⟩) | with_reducible refine keepR_of ?_
    | with_reducible refine keepM_of ?_ | with_reducible refine Keep.queue ?_
    | with_reducible refine keep_snd ‹_› ?_

theorem keep_ethDeliver {s t : State} {f : EthFrame} (h : Keep s t) :
    Keep s (State.ethDeliver t f) := by
  unfold State.ethDeliver; dsimp only
  repeat' first
    | with_reducible assumption | with_reducible refine keep_ethNoBuf ?_ | with_reducible refine keep_ringGet ?_
    | with_reducible refine keep_tookTurns ?_ | with_reducible refine keep_store ?_
    | with_reducible refine keep_hbmRefuse ?_ | with_reducible refine keep_ringPut ?_
    | with_reducible refine keep_wr ?_ | split | (simp only [keep_mk]; refine ⟨?_, ?_, ?_⟩)
    | with_reducible refine keepR_of ?_ | with_reducible refine keepM_of ?_ | with_reducible refine Keep.queue ?_
    | with_reducible refine keep_snd ‹_› ?_

theorem keep_ethDrain {s t : State} (h : Keep s t) :
    Keep s (State.ethDrain t) := by
  unfold State.ethDrain
  repeat' first
    | with_reducible assumption | with_reducible refine keep_ethDeliver ?_ | split
    | (simp only [keep_mk]; refine ⟨?_, ?_, ?_⟩) | with_reducible refine keepR_of ?_
    | with_reducible refine keepM_of ?_ | with_reducible refine Keep.queue ?_
    | with_reducible refine keep_snd ‹_› ?_

theorem keep_execEthRxFrame {s t : State} {e : Fin 2} {frame : List Byte} {fcs : Bool} {stamp : RawStamp} {ecc : Bool}
    (h : Keep s t) :
    KeepO s (execEthRxFrame e frame fcs stamp ecc t) := by
  unfold execEthRxFrame; dsimp only
  repeat' first
    | with_reducible refine keepO_next ?_
    | with_reducible assumption | with_reducible refine keep_drcCycle ?_ | with_reducible refine keep_addSat ?_
    | with_reducible refine keep_ethNoBuf ?_ | with_reducible refine keep_ethDeliver ?_ | split
    | (simp only [keep_mk]; refine ⟨?_, ?_, ?_⟩) | with_reducible refine keepR_of ?_
    | with_reducible refine keepM_of ?_ | with_reducible refine Keep.queue ?_
    | with_reducible refine keep_snd ‹_› ?_

theorem keep_opEthCtrl {s t : State} {ini : Initiator} {e : Fin 2} {p : Part} {v : DWord} (h : Keep s t) :
    Keep s (State.opEthCtrl t ini e p v) := by
  unfold State.opEthCtrl; dsimp only
  repeat' first
    | with_reducible assumption | with_reducible refine keep_writeReg ?_
    | with_reducible refine keep_each (fun _ _ _ => ?_) ?_ | with_reducible refine keep_ethNoBuf ?_ | split
    | (simp only [keep_mk]; refine ⟨?_, ?_, ?_⟩) | with_reducible refine keepR_of ?_
    | with_reducible refine keepM_of ?_ | with_reducible refine Keep.queue ?_
    | with_reducible refine keep_snd ‹_› ?_

theorem keep_ethReady {s t : State} {e : Fin 2} (h : Keep s t) :
    Keep s (State.ethReady t e) := by
  unfold State.ethReady
  repeat' first
    | with_reducible assumption | with_reducible refine keep_setReady ?_ | split
    | (simp only [keep_mk]; refine ⟨?_, ?_, ?_⟩) | with_reducible refine keepR_of ?_
    | with_reducible refine keepM_of ?_ | with_reducible refine Keep.queue ?_
    | with_reducible refine keep_snd ‹_› ?_

theorem keep_execEthLinkUp {s t : State} {e : Fin 2} (h : Keep s t) :
    KeepO s (execEthLinkUp e t) := by
  unfold execEthLinkUp
  repeat' first
    | with_reducible refine keepO_next ?_
    | with_reducible assumption | with_reducible refine keep_ethReady ?_ | split
    | (simp only [keep_mk]; refine ⟨?_, ?_, ?_⟩) | with_reducible refine keepR_of ?_
    | with_reducible refine keepM_of ?_ | with_reducible refine Keep.queue ?_
    | with_reducible refine keep_snd ‹_› ?_

theorem keep_execEthLinkDown {s t : State} {e : Fin 2} (h : Keep s t) :
    KeepO s (execEthLinkDown e t) := by
  unfold execEthLinkDown
  repeat' first
    | with_reducible assumption | with_reducible refine keepO_next ?_ | with_reducible refine keep_ethDown ?_

theorem keep_opEthRing {s t : State} {ini : Initiator} {r : Reg} {e : Fin 2} {p : Part} {v : DWord} (h : Keep s t) :
    Keep s (State.opEthRing t ini r e p v) := by
  unfold State.opEthRing; dsimp only
  repeat' first
    | with_reducible assumption | with_reducible refine keep_accErr ?_ | with_reducible refine keep_setVal ?_
    | with_reducible refine keep_writeReg ?_ | split

theorem keep_opEthTail {s t : State} {ini : Initiator} {tail : Fld} {log2 : Fld} {v : Nat} (h : Keep s t) :
    Keep s (State.opEthTail t ini tail log2 v) := by
  unfold State.opEthTail; dsimp only
  repeat' first
    | with_reducible assumption | with_reducible refine keep_wr ?_ | with_reducible refine keep_accErr ?_ | split

end Sys2Proof.Machine
end

