-- ==== Sys2Proof/Laws/KeepPatch.lean ====
section
/-! SUPPORT. What the operations of Machine/Patch.lean keep. -/

namespace Sys2Proof.Machine

open Sys2Proof

theorem keep_noPatch {s t : State} {st : Nat} {err : Nat} (h : Keep s t) :
    Keep s (State.noPatch t st err) := by
  unfold State.noPatch; dsimp only
  repeat' first
    | with_reducible assumption | with_reducible refine keep_each (fun _ _ _ => ?_) ?_ | with_reducible refine keep_wrs ?_
    | with_reducible refine keep_modSl ?_ | (simp only [keep_mk]; refine ⟨?_, ?_, ?_⟩) | with_reducible refine keepR_of ?_
    | with_reducible refine keepM_of ?_ | with_reducible refine Keep.queue ?_

theorem keep_patchFail {s t : State} {err : Nat} (h : Keep s t) :
    Keep s (State.patchFail t err) := by
  unfold State.patchFail
  repeat' first
    | with_reducible assumption | with_reducible refine keep_each (fun _ _ _ => ?_) ?_
    | with_reducible refine keep_reportUnit ?_ | with_reducible refine keep_trySlReady ?_
    | with_reducible refine keep_noPatch ?_

theorem keep_opUpcmd {s t : State} {ini : Initiator} {v : DWord} (h : Keep s t) :
    Keep s (State.opUpcmd t ini v) := by
  unfold State.opUpcmd; dsimp only
  repeat' first
    | with_reducible assumption | with_reducible refine keep_wrs ?_ | with_reducible refine keep_accErr ?_
    | with_reducible refine keep_writeReg ?_ | with_reducible refine keep_patchFail ?_ | split
    | (simp only [keep_mk]; refine ⟨?_, ?_, ?_⟩) | with_reducible refine keepR_of ?_ | with_reducible refine keepM_of ?_
    | with_reducible refine Keep.queue ?_

theorem keep_patchEnd {s t : State} {head : List Byte} {r : Nat × Option Patch} (h : Keep s t) :
    Keep s (State.patchEnd t head r) := by
  unfold State.patchEnd; dsimp only
  repeat' first
    | with_reducible assumption | with_reducible refine keep_each (fun _ _ _ => ?_) ?_ | with_reducible refine keep_wrs ?_
    | with_reducible refine keep_modSl ?_ | with_reducible refine keep_trySlReady ?_ | with_reducible refine keep_drop ?_
    | with_reducible refine keep_patchFail ?_ | split | with_reducible refine keep_snd ‹_› ?_
    | (simp only [keep_mk]; refine ⟨?_, ?_, ?_⟩) | with_reducible refine keepR_of ?_ | with_reducible refine keepM_of ?_
    | with_reducible refine Keep.queue ?_

theorem keep_patchRead {s t : State} (h : Keep s t) :
    Keep s (State.patchRead t) := by
  unfold State.patchRead; dsimp only
  repeat' first
    | with_reducible assumption | with_reducible refine keep_readBytes ?_ | with_reducible refine keep_hbmRefuse ?_
    | split | (simp only [keep_mk]; refine ⟨?_, ?_, ?_⟩) | with_reducible refine keepR_of ?_
    | with_reducible refine keepM_of ?_ | with_reducible refine Keep.queue ?_
    | with_reducible refine keep_snd ‹_› ?_

theorem keep_patchLoad {s t : State} {ecc : Bool} (h : Keep s t) :
    Keep s (State.patchLoad t ecc) := by
  unfold State.patchLoad; dsimp only
  repeat' first
    | with_reducible assumption | with_reducible refine keep_patchRead ?_ | with_reducible refine keep_patchEnd ?_
    | split | (simp only [keep_mk]; refine ⟨?_, ?_, ?_⟩) | with_reducible refine keepR_of ?_
    | with_reducible refine keepM_of ?_ | with_reducible refine Keep.queue ?_
    | with_reducible refine keep_snd ‹_› ?_

theorem keep_execPatchLoadDone {s t : State} {atag : Bool} {ecc : Bool} {aplain : List Byte} (h : Keep s t) :
    KeepO s (execPatchLoadDone atag ecc aplain t) := by
  unfold execPatchLoadDone; dsimp only
  repeat' first
    | with_reducible refine keepO_next ?_
    | with_reducible assumption | with_reducible refine keep_drcCycle ?_ | with_reducible refine keep_tookTurns ?_
    | with_reducible refine keep_patchLoad ?_ | split | (simp only [keep_mk]; refine ⟨?_, ?_, ?_⟩)
    | with_reducible refine keepR_of ?_ | with_reducible refine keepM_of ?_ | with_reducible refine Keep.queue ?_
    | with_reducible refine keep_snd ‹_› ?_

theorem keep_execCsCorrectedError {s t : State} {n : Fin 8} (h : Keep s t) :
    KeepO s (execCsCorrectedError n t) := by
  unfold execCsCorrectedError
  repeat' first
    | with_reducible refine keepO_next ?_
    | with_reducible assumption | with_reducible refine keep_whenAwake (fun _ _ => ?_) ?_
    | with_reducible refine keep_addSat ?_ | with_reducible refine keep_reportUnit ?_ | split
    | (simp only [keep_mk]; refine ⟨?_, ?_, ?_⟩) | with_reducible refine keepR_of ?_
    | with_reducible refine keepM_of ?_ | with_reducible refine Keep.queue ?_
    | with_reducible refine keep_snd ‹_› ?_

theorem keep_execCsUncorrectableError {s t : State} {n : Fin 8} (h : Keep s t) :
    KeepO s (execCsUncorrectableError n t) := by
  unfold execCsUncorrectableError; dsimp only
  repeat' first
    | with_reducible refine keepO_next ?_
    | with_reducible assumption | with_reducible refine keep_whenAwake (fun _ _ => ?_) ?_
    | with_reducible refine keep_wr ?_ | with_reducible refine keep_reportUnit ?_
    | with_reducible refine keep_containedSl ?_ | with_reducible refine keep_modSl ?_
    | with_reducible refine keep_setReady ?_ | split | (simp only [keep_mk]; refine ⟨?_, ?_, ?_⟩)
    | with_reducible refine keepR_of ?_ | with_reducible refine keepM_of ?_ | with_reducible refine Keep.queue ?_
    | with_reducible refine keep_snd ‹_› ?_

theorem keep_execSeqStateCorrect {s t : State} {n : Fin 8} {aentry : BitVec 14} (h : Keep s t) :
    KeepO s (execSeqStateCorrect n aentry t) := by
  unfold execSeqStateCorrect
  repeat' first
    | with_reducible refine keepO_next ?_
    | with_reducible assumption | with_reducible refine keep_whenAwake (fun _ _ => ?_) ?_
    | with_reducible refine keep_reportUnit ?_ | with_reducible refine keep_modSeq ?_ | split
    | (simp only [keep_mk]; refine ⟨?_, ?_, ?_⟩) | with_reducible refine keepR_of ?_
    | with_reducible refine keepM_of ?_ | with_reducible refine Keep.queue ?_
    | with_reducible refine keep_snd ‹_› ?_

end Sys2Proof.Machine
end

