-- ==== Sys2Proof/Laws/KeepPowerStates.lean ====
section
/-! SUPPORT. What the operations of Machine/PowerStates.lean keep. -/

namespace Sys2Proof.Machine

open Sys2Proof

theorem keep_parkSl {s t : State} {n : Fin 8} (h : Keep s t) :
    Keep s (State.parkSl t n) := by
  unfold State.parkSl
  repeat' first
    | with_reducible assumption | with_reducible refine keep_setReady ?_ | with_reducible refine keep_abandonRinse ?_

theorem keep_recoverSynths {s t : State} {n : Fin 8} (h : Keep s t) :
    Keep s (State.recoverSynths t n) := by
  unfold State.recoverSynths
  repeat' first
    | with_reducible assumption | with_reducible refine keep_modSl ?_ | (simp only [keep_mk]; refine ⟨?_, ?_, ?_⟩)
    | with_reducible refine keepR_of ?_ | with_reducible refine keepM_of ?_ | with_reducible refine Keep.queue ?_

theorem keep_standbyStart {s t : State} (h : Keep s t) :
    Keep s (State.standbyStart t) := by
  unfold State.standbyStart; dsimp only
  repeat' first
    | with_reducible assumption | with_reducible refine keep_each (fun _ _ _ => ?_) ?_
    | with_reducible refine keep_modPower ?_ | with_reducible refine keep_setReady ?_
    | with_reducible refine keep_abandonAdc ?_ | split | (simp only [keep_mk]; refine ⟨?_, ?_, ?_⟩)
    | with_reducible refine keepR_of ?_ | with_reducible refine keepM_of ?_ | with_reducible refine Keep.queue ?_

theorem keep_restoreBit {s t : State} {b : ReadyBit} (h : Keep s t) :
    Keep s (State.restoreBit t b) := by
  unfold State.restoreBit
  repeat' first
    | with_reducible assumption | with_reducible refine keep_setReady ?_ | with_reducible refine keep_modPower ?_
    | split | (simp only [keep_mk]; refine ⟨?_, ?_, ?_⟩) | with_reducible refine keepR_of ?_
    | with_reducible refine keepM_of ?_ | with_reducible refine Keep.queue ?_
    | with_reducible refine keep_snd ‹_› ?_

theorem keep_stacksBack {s t : State} (h : Keep s t) :
    Keep s (State.stacksBack t) := by
  unfold State.stacksBack
  repeat' first
    | with_reducible assumption | with_reducible refine keep_each (fun _ _ _ => ?_) ?_
    | with_reducible refine keep_modDrc ?_ | with_reducible refine keep_restoreBit ?_
    | with_reducible refine keepR_filter ?_ | split | (simp only [keep_mk]; refine ⟨?_, ?_, ?_⟩)
    | with_reducible refine keepR_of ?_ | with_reducible refine keepM_of ?_ | with_reducible refine Keep.queue ?_
    | with_reducible refine keep_snd ‹_› ?_

theorem keep_standbyLeave {s t : State} (h : Keep s t) :
    Keep s (State.standbyLeave t) := by
  unfold State.standbyLeave; dsimp only
  repeat' first
    | with_reducible assumption | with_reducible refine keep_stacksBack ?_
    | with_reducible refine keep_each (fun _ _ _ => ?_) ?_ | with_reducible refine keep_takeSafe ?_
    | with_reducible refine keep_modPower ?_ | with_reducible refine keep_recoverSynths ?_ | split
    | (simp only [keep_mk]; refine ⟨?_, ?_, ?_⟩) | with_reducible refine keepR_of ?_
    | with_reducible refine keepM_of ?_ | with_reducible refine Keep.queue ?_
    | with_reducible refine keep_snd ‹_› ?_

theorem keep_execStandbyEntered {s t : State} (h : Keep s t) :
    KeepO s (execStandbyEntered t) := by
  unfold execStandbyEntered; dsimp only
  repeat' first
    | with_reducible assumption | with_reducible refine keep_each (fun _ _ _ => ?_) ?_ | with_reducible refine keepO_next ?_
    | with_reducible refine keep_modSl ?_ | with_reducible refine keep_modDrc ?_ | with_reducible refine keep_modPower ?_
    | with_reducible refine keep_standbyLeave ?_ | split | (simp only [keep_mk]; refine ⟨?_, ?_, ?_⟩)
    | with_reducible refine keepR_of ?_ | with_reducible refine keepM_of ?_ | with_reducible refine Keep.queue ?_

theorem keep_execPeCorrectionsReloaded {s t : State} (h : Keep s t) :
    KeepO s (execPeCorrectionsReloaded t) := by
  unfold execPeCorrectionsReloaded
  repeat' first
    | with_reducible assumption | with_reducible refine keepO_next ?_ | with_reducible refine keep_modPower ?_ | split
    | (simp only [keep_mk]; refine ⟨?_, ?_, ?_⟩) | with_reducible refine keepR_of ?_ | with_reducible refine keepM_of ?_
    | with_reducible refine Keep.queue ?_

theorem keep_standbyReady {s t : State} (h : Keep s t) :
    Keep s (State.standbyReady t) := by
  unfold State.standbyReady; dsimp only
  repeat' first
    | with_reducible assumption | with_reducible refine keep_restoreBit ?_
    | with_reducible refine keep_each (fun _ _ _ => ?_) ?_ | with_reducible refine keep_setReady ?_
    | with_reducible refine keep_coresReady ?_ | with_reducible refine keep_trySlReady ?_
    | with_reducible refine keepR_filter ?_ | split | (simp only [keep_mk]; refine ⟨?_, ?_, ?_⟩)
    | with_reducible refine keepR_of ?_ | with_reducible refine keepM_of ?_ | with_reducible refine Keep.queue ?_
    | with_reducible refine keep_snd ‹_› ?_

theorem keep_execStandbySwitchClose {s t : State} (h : Keep s t) :
    KeepO s (execStandbySwitchClose t) := by
  unfold execStandbySwitchClose; dsimp only
  repeat' first
    | with_reducible assumption | with_reducible refine keep_each (fun _ _ _ => ?_) ?_ | with_reducible refine keepO_next ?_
    | with_reducible refine keep_modSl ?_ | with_reducible refine keep_modPower ?_
    | with_reducible refine keep_standbyReady ?_ | split | (simp only [keep_mk]; refine ⟨?_, ?_, ?_⟩)
    | with_reducible refine keepR_of ?_ | with_reducible refine keepM_of ?_ | with_reducible refine Keep.queue ?_

theorem keep_pwrRefuse {s t : State} {ini : Initiator} (h : Keep s t) :
    Keep s (State.pwrRefuse t ini) := by
  unfold State.pwrRefuse
  repeat' first
    | with_reducible assumption | with_reducible refine keep_wr ?_ | with_reducible refine keep_accErr ?_

theorem keep_opPwrctl {s t : State} {ini : Initiator} {v : DWord} (h : Keep s t) :
    Keep s (State.opPwrctl t ini v) := by
  unfold State.opPwrctl; dsimp only
  repeat' first
    | with_reducible assumption | with_reducible refine keep_each (fun _ _ _ => ?_) ?_
    | with_reducible refine keep_modPower ?_ | with_reducible refine keep_accErr ?_ | with_reducible refine keep_writeReg ?_
    | with_reducible refine keep_enter ?_ | with_reducible refine keep_parkSl ?_
    | with_reducible refine keep_recoverSynths ?_ | with_reducible refine keep_standbyStart ?_
    | with_reducible refine keep_standbyLeave ?_ | with_reducible refine keep_pwrRefuse ?_ | split
    | (simp only [keep_mk]; refine ⟨?_, ?_, ?_⟩) | with_reducible refine keepR_of ?_ | with_reducible refine keepM_of ?_
    | with_reducible refine Keep.queue ?_

theorem keep_forceOff {s t : State} {n : Fin 8} (h : Keep s t) :
    Keep s (State.forceOff t n) := by
  unfold State.forceOff
  repeat' first
    | with_reducible assumption | with_reducible refine keep_opAbort ?_

theorem keep_forceScan {s t : State} {u1 : Fin 4} (h : Keep s t) :
    Keep s (State.forceScan t u1) := by
  unfold State.forceScan
  repeat' first
    | with_reducible assumption | with_reducible refine keep_each (fun _ _ _ => ?_) ?_
    | with_reducible refine keep_scanStop ?_ | with_reducible refine keep_forceOff ?_ | split

theorem keep_hbOff {s t : State} {k : Fin 2} (h : Keep s t) :
    Keep s (State.hbOff t k) := by
  unfold State.hbOff
  repeat' first
    | with_reducible assumption | with_reducible refine keep_modDrc ?_ | with_reducible refine keep_dropReady ?_
    | (simp only [keep_mk]; refine ⟨?_, ?_, ?_⟩) | with_reducible refine keepR_of ?_ | with_reducible refine keepM_of ?_
    | with_reducible refine Keep.queue ?_

theorem keep_opSvcoff {s t : State} {ini : Initiator} {v : DWord} (h : Keep s t) :
    Keep s (State.opSvcoff t ini v) := by
  unfold State.opSvcoff; dsimp only
  repeat' first
    | with_reducible assumption | with_reducible refine keep_each (fun _ _ _ => ?_) ?_
    | with_reducible refine keep_setReady ?_ | with_reducible refine keep_accErr ?_ | with_reducible refine keep_writeSome ?_
    | with_reducible refine keep_recoverSynths ?_ | with_reducible refine keep_forceOff ?_
    | with_reducible refine keep_forceScan ?_ | with_reducible refine keep_hbOff ?_ | split

theorem keep_zeroLost {s t : State} {k : Fin 2} (h : Keep s t) :
    Keep s (State.zeroLost t k) := by
  unfold State.zeroLost
  repeat' first
    | with_reducible assumption | with_reducible refine keep_modDrc ?_ | with_reducible refine keepR_filter ?_
    | with_reducible refine keepM_filter ?_ | split | (simp only [keep_mk]; refine ⟨?_, ?_, ?_⟩)
    | with_reducible refine keepR_of ?_ | with_reducible refine keepM_of ?_ | with_reducible refine Keep.queue ?_
    | with_reducible refine keep_snd ‹_› ?_

theorem keep_execHbInitDone {s t : State} {k : Fin 2} {pass : Bool} (h : Keep s t) :
    KeepO s (execHbInitDone k pass t) := by
  unfold execHbInitDone; dsimp only
  repeat' first
    | with_reducible refine keepO_next ?_
    | with_reducible assumption | with_reducible refine keep_modDrc ?_ | with_reducible refine keep_reportUnit ?_
    | with_reducible refine keep_zeroLost ?_ | with_reducible refine keep_setReady ?_
    | with_reducible refine keep_each (fun _ _ _ => ?_) ?_ | with_reducible refine keepR_filter ?_ | split
    | (simp only [keep_mk]; refine ⟨?_, ?_, ?_⟩) | with_reducible refine keepR_of ?_
    | with_reducible refine keepM_of ?_ | with_reducible refine Keep.queue ?_
    | with_reducible refine keep_snd ‹_› ?_

theorem keep_mgmtBack {s t : State} (h : Keep s t) :
    Keep s (State.mgmtBack t) := by
  unfold State.mgmtBack; dsimp only
  repeat' first
    | with_reducible assumption | with_reducible refine keep_dispReady ?_
    | with_reducible refine keep_each (fun _ _ _ => ?_) ?_ | with_reducible refine keep_setReady ?_
    | with_reducible refine keep_ethReady ?_ | with_reducible refine keep_stacksBack ?_
    | with_reducible refine keep_standbyReady ?_ | with_reducible refine keepR_filter ?_ | split
    | (simp only [keep_mk]; refine ⟨?_, ?_, ?_⟩) | with_reducible refine keepR_of ?_
    | with_reducible refine keepM_of ?_ | with_reducible refine Keep.queue ?_
    | with_reducible refine keep_snd ‹_› ?_

theorem keep_execMgmtFirmwareRunning {s t : State} (h : Keep s t) :
    KeepO s (execMgmtFirmwareRunning t) := by
  unfold execMgmtFirmwareRunning
  repeat' first
    | with_reducible refine keepO_next ?_
    | with_reducible assumption | with_reducible refine keep_bootWrites ?_
    | with_reducible refine keep_each (fun _ _ _ => ?_) ?_ | with_reducible refine keep_setReady ?_
    | with_reducible refine keep_modPower ?_ | with_reducible refine keep_mgmtBack ?_ | split
    | (simp only [keep_mk]; refine ⟨?_, ?_, ?_⟩) | with_reducible refine keepR_of ?_
    | with_reducible refine keepM_of ?_ | with_reducible refine Keep.queue ?_
    | with_reducible refine keep_snd ‹_› ?_

end Sys2Proof.Machine
end

