-- ==== Sys2Proof/Laws/KeepBus.lean ====
section
/-! SUPPORT. What the operations of Machine/Bus.lean keep. -/

namespace Sys2Proof.Machine

open Sys2Proof

theorem keep_opHreg {s t : State} {ini : Initiator} {i : Fin 32} {v : Nat} (h : Keep s t) :
    Keep s (State.opHreg t ini i v) := by
  unfold State.opHreg; dsimp only
  repeat' first
    | with_reducible assumption | with_reducible refine keep_accErr ?_ | with_reducible refine keep_setRegion ?_ | split

theorem keep_opAccerr {s t : State} {ini : Initiator} {c : Nat} {p : Part} {v : DWord} (h : Keep s t) :
    Keep s (State.opAccerr t ini c p v) := by
  unfold State.opAccerr; dsimp only
  repeat' first
    | with_reducible assumption | with_reducible refine keep_wr ?_ | with_reducible refine keep_writeReg ?_ | split

theorem keep_pfWrite {s t : State} {ini : Initiator} {r : Reg} {ix : List Nat} {p : Part} {v : DWord} (h : Keep s t) :
    Keep s (State.pfWrite t ini r ix p v) := by
  unfold State.pfWrite
  repeat' first
    | with_reducible assumption | with_reducible refine keep_accErr ?_ | with_reducible refine keep_writeReg ?_ | split

theorem keep_writeGlobal {s t : State} {ini : Initiator} {r : Reg} {ix : List Nat} {p : Part} {v : DWord} (h : Keep s t) :
    Keep s (State.writeGlobal t ini r ix p v) := by
  unfold State.writeGlobal; dsimp only
  repeat' first
    | with_reducible assumption | with_reducible refine keep_accErr ?_ | with_reducible refine keep_writeReg ?_
    | with_reducible refine keep_writeUnless ?_ | with_reducible refine keep_opXotb ?_ | with_reducible refine keep_opRst ?_
    | with_reducible refine keep_opClkctl ?_ | with_reducible refine keep_opDmaTail ?_ | with_reducible refine keep_opPrst ?_
    | with_reducible refine keep_opPart ?_ | with_reducible refine keep_opSensor ?_ | with_reducible refine keep_opIlk ?_
    | with_reducible refine keep_opUpcmd ?_ | with_reducible refine keep_opPwrctl ?_ | with_reducible refine keep_opSvcoff ?_
    | with_reducible refine keep_opHreg ?_ | with_reducible refine keep_opAccerr ?_ | with_reducible refine keep_pfWrite ?_
    | split

theorem keep_writeSl {s t : State} {ini : Initiator} {r : Reg} {ix : List Nat} {p : Part} {v : DWord} (h : Keep s t) :
    Keep s (State.writeSl t ini r ix p v) := by
  unfold State.writeSl; dsimp only
  repeat' first
    | with_reducible assumption | with_reducible refine keep_opResv ?_ | with_reducible refine keep_opDdist ?_
    | with_reducible refine keep_opBcmd ?_ | with_reducible refine keep_opSegcmd ?_ | with_reducible refine keep_writeReg ?_
    | with_reducible refine keep_writeUnless ?_ | with_reducible refine keep_opPincfg ?_
    | with_reducible refine keep_opLvlpush ?_ | with_reducible refine keep_opPmuReg ?_
    | with_reducible refine keep_opAdccmd ?_ | with_reducible refine keep_opTdccmd ?_
    | with_reducible refine keep_opTdccfg ?_ | with_reducible refine keep_opSprd ?_ | with_reducible refine keep_opSpcmd ?_
    | with_reducible refine keep_opLatch ?_ | with_reducible refine keep_opSmapcmd ?_ | with_reducible refine keep_opGang ?_
    | with_reducible refine keep_opScpcmd ?_ | split

theorem keep_writeScan {s t : State} {ini : Initiator} {r : Reg} {ix : List Nat} {p : Part} {v : DWord} (h : Keep s t) :
    Keep s (State.writeScan t ini r ix p v) := by
  unfold State.writeScan; dsimp only
  repeat' first
    | with_reducible assumption | with_reducible refine keep_writeReg ?_ | with_reducible refine keep_writeUnless ?_
    | with_reducible refine keep_opScanCtrl ?_ | with_reducible refine keep_opScanResv ?_
    | with_reducible refine keep_opScanWmark ?_ | with_reducible refine keep_opScanCmd ?_
    | with_reducible refine keep_opHbcmd ?_ | with_reducible refine keep_opTrn ?_ | with_reducible refine keep_opPpr ?_
    | split

theorem keep_writeLink {s t : State} {ini : Initiator} {r : Reg} {ix : List Nat} {p : Part} {v : DWord} (h : Keep s t) :
    Keep s (State.writeLink t ini r ix p v) := by
  unfold State.writeLink; dsimp only
  repeat' first
    | with_reducible assumption | with_reducible refine keep_accErr ?_ | with_reducible refine keep_writeReg ?_
    | with_reducible refine keep_opCoreCtrl ?_ | with_reducible refine keep_opIrqpend ?_
    | with_reducible refine keep_opPush ?_ | with_reducible refine keep_opFlush ?_ | with_reducible refine keep_opClCtrl ?_
    | with_reducible refine keep_opSumrxpop ?_ | with_reducible refine keep_opEnumctl ?_
    | with_reducible refine keep_opTrigcmd ?_ | with_reducible refine keep_opSnap ?_ | with_reducible refine keep_opPhccmd ?_
    | with_reducible refine keep_opSrvoff ?_ | with_reducible refine keep_opSrvctl ?_
    | with_reducible refine keep_opTxtspop ?_ | split

theorem keep_writeMgmt {s t : State} {ini : Initiator} {r : Reg} {ix : List Nat} {p : Part} {v : DWord}
    (h : Keep s t) :
    Keep s (State.writeMgmt t ini r ix p v) := by
  unfold State.writeMgmt; dsimp only
  repeat' first
    | with_reducible assumption | with_reducible refine keep_opPop ?_ | with_reducible refine keep_opAonclr ?_
    | with_reducible refine keep_opInj ?_ | with_reducible refine keep_opHmSrc ?_
    | with_reducible refine keep_opPressCfg ?_ | with_reducible refine keep_opPressCtrl ?_
    | with_reducible refine keep_pfWrite ?_ | with_reducible refine keep_opTokcmd ?_
    | with_reducible refine keep_opBistCmd ?_ | with_reducible refine keep_opDarnCmd ?_
    | with_reducible refine keep_opMgCmd ?_ | with_reducible refine keep_opEthRing ?_
    | with_reducible refine keep_writeUnless ?_ | with_reducible refine keep_opEthCtrl ?_
    | with_reducible refine keep_opEthTail ?_ | with_reducible refine keep_writeReg ?_ | split
    | (simp only [keep_mk]; refine ⟨?_, ?_, ?_⟩) | with_reducible refine keepR_of ?_
    | with_reducible refine keepM_of ?_ | with_reducible refine Keep.queue ?_
    | with_reducible refine keep_snd ‹_› ?_

theorem keep_regAct {s t : State} {ini : Initiator} {r : Reg} {ix : List Nat} {p : Part} {v : DWord} (h : Keep s t) :
    Keep s (State.regAct t ini r ix p v) := by
  unfold State.regAct; dsimp only
  repeat' first
    | with_reducible assumption | with_reducible refine keep_writeGlobal ?_ | with_reducible refine keep_writeSl ?_
    | with_reducible refine keep_writeScan ?_ | with_reducible refine keep_writeLink ?_
    | with_reducible refine keep_writeMgmt ?_ | split

theorem keep_regWrite {s t : State} {ini : Initiator} {r : Reg} {ix : List Nat} {p : Part} {v : DWord} (h : Keep s t) :
    Keep s (State.regWrite t ini r ix p v) := by
  unfold State.regWrite; dsimp only
  repeat' first
    | with_reducible assumption | with_reducible refine keep_accErr ?_ | with_reducible refine keep_writeSome ?_
    | with_reducible refine keep_gate ?_ | with_reducible refine keep_regAct ?_ | split

theorem keep_write32 {s t : State} {ini : Initiator} {a : Nat} {v : Word} (h : Keep s t) :
    Keep s (State.write32 t ini a v) := by
  unfold State.write32
  repeat' first
    | with_reducible assumption | with_reducible refine keep_accErr ?_ | with_reducible refine keep_regWrite ?_ | split
    | with_reducible refine keep_snd ‹_› ?_

theorem keep_write64 {s t : State} {ini : Initiator} {a : Nat} {v : DWord} (h : Keep s t) :
    Keep s (State.write64 t ini a v) := by
  unfold State.write64; dsimp only
  repeat' first
    | with_reducible assumption | with_reducible refine keep_regWrite ?_ | with_reducible refine keep_write32 ?_ | split
    | with_reducible refine keep_snd ‹_› ?_

theorem keep_busWrite {s t : State} {ini : Initiator} {a : Nat} {size : Nat} {v : DWord} (h : Keep s t) :
    Keep s (State.busWrite t ini a size v) := by
  unfold State.busWrite
  repeat' first
    | with_reducible assumption | with_reducible refine keep_modCore ?_ | with_reducible refine keep_write32 ?_
    | with_reducible refine keep_write64 ?_ | with_reducible refine keep_accErr ?_ | split
    | (simp only [keep_mk]; refine ⟨?_, ?_, ?_⟩) | with_reducible refine keepR_of ?_
    | with_reducible refine keepM_of ?_ | with_reducible refine Keep.queue ?_
    | with_reducible refine keep_snd ‹_› ?_

theorem keep_popRead {s t : State} {r : Reg} {ix : List Nat} (h : Keep s t) :
    Keep s (State.popRead t r ix) := by
  unfold State.popRead; dsimp only
  repeat' first
    | with_reducible assumption | with_reducible refine keep_modSl ?_ | split | (simp only [keep_mk]; refine ⟨?_, ?_, ?_⟩)
    | with_reducible refine keepR_of ?_ | with_reducible refine keepM_of ?_ | with_reducible refine Keep.queue ?_

theorem keep_read32 {s t : State} {ini : Initiator} {a : Nat} (h : Keep s t) :
    Keep s (State.read32 t ini a).2 := by
  unfold State.read32; dsimp only
  repeat' first
    | with_reducible assumption | with_reducible refine keep_accErr ?_ | with_reducible refine keep_popRead ?_ | split
    | with_reducible refine keep_snd ‹_› ?_ | (simp only [keep_mk]; refine ⟨?_, ?_, ?_⟩) | with_reducible refine keepR_of ?_
    | with_reducible refine keepM_of ?_ | with_reducible refine Keep.queue ?_

theorem keep_read64 {s t : State} {ini : Initiator} {a : Nat} (h : Keep s t) :
    Keep s (State.read64 t ini a).2 := by
  unfold State.read64; dsimp only
  repeat' first
    | with_reducible assumption | with_reducible refine keep_accErr ?_ | with_reducible refine keep_popRead ?_
    | with_reducible refine keep_read32 ?_ | split | with_reducible refine keep_snd ‹_› ?_

theorem keep_busRead {s t : State} {ini : Initiator} {a : Nat} {size : Nat} (h : Keep s t) :
    Keep s (State.busRead t ini a size) := by
  unfold State.busRead; dsimp only
  repeat' first
    | with_reducible assumption | with_reducible refine keep_read32 ?_ | with_reducible refine keep_read64 ?_ | split
    | (simp only [keep_mk]; refine ⟨?_, ?_, ?_⟩) | with_reducible refine keepR_of ?_ | with_reducible refine keepM_of ?_
    | with_reducible refine Keep.queue ?_

theorem keep_answer {s t : State} {h1 : Hdr} {tag : BitVec 6} {off : Nat} {status : Nat} {data : Word} (h : Keep s t) :
    Keep s (State.answer t h1 tag off status data) := by
  unfold State.answer
  repeat' first
    | with_reducible assumption | with_reducible refine keep_routeUni ?_

theorem keep_execRegrd {s t : State} {p : Fin 4} {hdr : Hdr} {tag : BitVec 6} {off : Nat} (h : Keep s t) :
    KeepO s (execRegrd p hdr tag off t) := by
  unfold execRegrd; dsimp only
  repeat' first
    | with_reducible refine keepO_next ?_
    | with_reducible assumption | with_reducible refine keep_onFrame (fun _ _ => ?_) ?_
    | with_reducible refine keep_received (fun _ _ => ?_) ?_ | with_reducible refine keep_read32 ?_
    | with_reducible refine keep_answer ?_ | split | (simp only [keep_mk]; refine ⟨?_, ?_, ?_⟩)
    | with_reducible refine keepR_of ?_ | with_reducible refine keepM_of ?_ | with_reducible refine Keep.queue ?_
    | with_reducible refine keep_snd ‹_› ?_

theorem keep_execRegwr {s t : State} {p : Fin 4} {hdr : Hdr} {tag : BitVec 6} {off : Nat} {data : Word}
    (h : Keep s t) :
    KeepO s (execRegwr p hdr tag off data t) := by
  unfold execRegwr; dsimp only
  repeat' first
    | with_reducible refine keepO_next ?_
    | with_reducible assumption | with_reducible refine keep_onFrame (fun _ _ => ?_) ?_
    | with_reducible refine keep_received (fun _ _ => ?_) ?_ | with_reducible refine keep_write32 ?_
    | with_reducible refine keep_answer ?_ | split | (simp only [keep_mk]; refine ⟨?_, ?_, ?_⟩)
    | with_reducible refine keepR_of ?_ | with_reducible refine keepM_of ?_ | with_reducible refine Keep.queue ?_
    | with_reducible refine keep_snd ‹_› ?_

end Sys2Proof.Machine
end

