-- ==== Sys2Proof/Laws/KeepMicroRun.lean ====
section
/-! SUPPORT. What the operations of Machine/MicroRun.lean keep. -/

namespace Sys2Proof.Machine

open Sys2Proof

theorem keep_microStep {s t : State} {n : Fin 8} (h : Keep s t) :
    Keep s (State.microStep t n) := by
  unfold State.microStep; dsimp only
  repeat' first
    | with_reducible assumption | with_reducible refine keep_modSeq ?_ | with_reducible refine keep_addSat ?_
    | with_reducible refine keep_wr ?_ | split | (simp only [keep_mk]; refine ⟨?_, ?_, ?_⟩)
    | with_reducible refine keepR_of ?_ | with_reducible refine keepM_of ?_ | with_reducible refine Keep.queue ?_
    | with_reducible refine keep_snd ‹_› ?_

end Sys2Proof.Machine
end

