-- ==== Sys2Proof/Laws/KeepHartRun.lean ====
section
/-! SUPPORT. What the operations of Machine/HartRun.lean keep. -/

namespace Sys2Proof.Machine

open Sys2Proof

theorem keep_coreLine {s t : State} {c : Fin 8} {inst : Bool} {a : Nat} (h : Keep s t) :
    Keep s (State.coreLine t c inst a).2 := by
  unfold State.coreLine; dsimp only
  repeat' first
    | with_reducible assumption | with_reducible refine keep_freeVal ?_ | with_reducible refine keep_hbmRefuse ?_
    | with_reducible refine keep_tookTurns ?_ | with_reducible refine keep_openFor ?_
    | with_reducible refine keep_modCore ?_ | split | (simp only [keep_mk]; refine ⟨?_, ?_, ?_⟩)
    | with_reducible refine keepR_of ?_ | with_reducible refine keepM_of ?_ | with_reducible refine Keep.queue ?_
    | with_reducible refine keep_snd ‹_› ?_

theorem keep_cached {s t : State} {c : Fin 8} {inst : Bool} {a : Nat} {size : Nat} (h : Keep s t) :
    Keep s (State.cached t c inst a size).2 := by
  unfold State.cached; dsimp only
  repeat' first
    | with_reducible assumption | with_reducible refine keep_coreLine ?_ | with_reducible refine keep_drop ?_
    | split | (simp only [keep_mk]; refine ⟨?_, ?_, ?_⟩) | with_reducible refine keepR_of ?_
    | with_reducible refine keepM_of ?_ | with_reducible refine Keep.queue ?_
    | with_reducible refine keep_snd ‹_› ?_

theorem keep_coreStoreMem {s t : State} {c : Fin 8} {a : Nat} {bs : List Byte} (h : Keep s t) :
    Keep s (State.coreStoreMem t c a bs) := by
  unfold State.coreStoreMem
  repeat' first
    | with_reducible assumption | with_reducible refine keep_tookTurns ?_ | with_reducible refine keep_openFor ?_
    | with_reducible refine keep_store ?_ | with_reducible refine keep_ownStore ?_ | split
    | (simp only [keep_mk]; refine ⟨?_, ?_, ?_⟩) | with_reducible refine keepR_of ?_
    | with_reducible refine keepM_of ?_ | with_reducible refine Keep.queue ?_
    | with_reducible refine keep_snd ‹_› ?_

theorem keep_coreLoad {s t : State} {c : Fin 8} {size : Nat} {a : Nat} (h : Keep s t) :
    Keep s (State.coreLoad t c size a).2 := by
  unfold State.coreLoad; dsimp only
  repeat' first
    | with_reducible assumption | with_reducible refine keep_busRead ?_ | with_reducible refine keep_cached ?_
    | split | (simp only [keep_mk]; refine ⟨?_, ?_, ?_⟩) | with_reducible refine keepR_of ?_
    | with_reducible refine keepM_of ?_ | with_reducible refine Keep.queue ?_
    | with_reducible refine keep_snd ‹_› ?_

theorem keep_coreStore {s t : State} {c : Fin 8} {size : Nat} {a : Nat} {v : Nat} (h : Keep s t) :
    Keep s (State.coreStore t c size a v).2 := by
  unfold State.coreStore
  repeat' first
    | with_reducible assumption | with_reducible refine keep_modCore ?_ | with_reducible refine keep_coreDone ?_
    | with_reducible refine keep_dispatch ?_ | with_reducible refine keep_opPush ?_
    | with_reducible refine keep_accErr ?_ | with_reducible refine keep_tickMtip ?_
    | with_reducible refine keep_busWrite ?_ | with_reducible refine keep_hbmRefuse ?_
    | with_reducible refine keep_coreStoreMem ?_ | split | (simp only [keep_mk]; refine ⟨?_, ?_, ?_⟩)
    | with_reducible refine keepR_of ?_ | with_reducible refine keepM_of ?_ | with_reducible refine Keep.queue ?_
    | with_reducible refine keep_snd ‹_› ?_

theorem keep_coreAmo {s t : State} {c : Fin 8} {k : Amo} {size : Nat} {a : Nat} {b : Nat} (h : Keep s t) :
    Keep s (State.coreAmo t c k size a b).2 := by
  unfold State.coreAmo; dsimp only
  repeat' first
    | with_reducible assumption | with_reducible refine keep_modCore ?_ | with_reducible refine keep_hbmRefuse ?_
    | with_reducible refine keep_coreStoreMem ?_ | split | (simp only [keep_mk]; refine ⟨?_, ?_, ?_⟩)
    | with_reducible refine keepR_of ?_ | with_reducible refine keepM_of ?_ | with_reducible refine Keep.queue ?_
    | with_reducible refine keep_snd ‹_› ?_

theorem keep_coreEnd {s t : State} {c : Fin 8} {h1 : How} {e : Exc} {a : DWord} {f : CoreSt → CoreSt} (h : Keep s t) :
    Keep s (State.coreEnd t c h1 e a f) := by
  unfold State.coreEnd
  repeat' first
    | with_reducible assumption | with_reducible refine keep_modCore ?_ | split
    | (simp only [keep_mk]; refine ⟨?_, ?_, ?_⟩) | with_reducible refine keepR_of ?_
    | with_reducible refine keepM_of ?_ | with_reducible refine Keep.queue ?_
    | with_reducible refine keep_snd ‹_› ?_

theorem keep_getLoad {s t : State} {c : Fin 8} {rd : Fin 32} {len : Nat} (h : Keep s t) :
    Keep s (State.getLoad t c rd len) := by
  unfold State.getLoad; dsimp only
  repeat' first
    | with_reducible assumption | with_reducible refine keep_coreGet ?_ | with_reducible refine keep_modCore ?_
    | split | (simp only [keep_mk]; refine ⟨?_, ?_, ?_⟩) | with_reducible refine keepR_of ?_
    | with_reducible refine keepM_of ?_ | with_reducible refine Keep.queue ?_
    | with_reducible refine keep_snd ‹_› ?_

theorem keep_rvLoad {s t : State} {c : Fin 8} {len : Nat} {size : Nat} {sx : Bool} {rd : Fin 32} {a : DWord}
    (h : Keep s t) :
    Keep s (State.rvLoad t c len size sx rd a) := by
  unfold State.rvLoad; dsimp only
  repeat' first
    | with_reducible assumption | with_reducible refine keep_modCore ?_ | with_reducible refine keep_getLoad ?_
    | with_reducible refine keep_coreLoad ?_ | with_reducible refine keep_coreEnd ?_ | split
    | (simp only [keep_mk]; refine ⟨?_, ?_, ?_⟩) | with_reducible refine keepR_of ?_
    | with_reducible refine keepM_of ?_ | with_reducible refine Keep.queue ?_
    | with_reducible refine keep_snd ‹_› ?_

theorem keep_rvStore {s t : State} {c : Fin 8} {len : Nat} {size : Nat} {a : DWord} {v : DWord} (h : Keep s t) :
    Keep s (State.rvStore t c len size a v) := by
  unfold State.rvStore; dsimp only
  repeat' first
    | with_reducible assumption | with_reducible refine keep_modCore ?_ | with_reducible refine keep_store ?_
    | with_reducible refine keep_coreStore ?_ | with_reducible refine keep_coreEnd ?_ | split
    | (simp only [keep_mk]; refine ⟨?_, ?_, ?_⟩) | with_reducible refine keepR_of ?_
    | with_reducible refine keepM_of ?_ | with_reducible refine Keep.queue ?_
    | with_reducible refine keep_snd ‹_› ?_

theorem keep_rvLr {s t : State} {c : Fin 8} {len : Nat} {size : Nat} {rd : Fin 32} {a : DWord} (h : Keep s t) :
    Keep s (State.rvLr t c len size rd a) := by
  unfold State.rvLr; dsimp only
  repeat' first
    | with_reducible assumption | with_reducible refine keep_modCore ?_ | split
    | (simp only [keep_mk]; refine ⟨?_, ?_, ?_⟩) | with_reducible refine keepR_of ?_
    | with_reducible refine keepM_of ?_ | with_reducible refine Keep.queue ?_
    | with_reducible refine keep_snd ‹_› ?_

theorem keep_rvSc {s t : State} {c : Fin 8} {len : Nat} {size : Nat} {rd : Fin 32} {a : DWord} {v : DWord}
    (h : Keep s t) :
    Keep s (State.rvSc t c len size rd a v) := by
  unfold State.rvSc; dsimp only
  repeat' first
    | with_reducible assumption | with_reducible refine keep_modCore ?_ | with_reducible refine keep_store ?_
    | split | (simp only [keep_mk]; refine ⟨?_, ?_, ?_⟩) | with_reducible refine keepR_of ?_
    | with_reducible refine keepM_of ?_ | with_reducible refine Keep.queue ?_
    | with_reducible refine keep_snd ‹_› ?_

theorem keep_rvAmo {s t : State} {c : Fin 8} {len : Nat} {k : Amo} {size : Nat} {rd : Fin 32} {a : DWord} {v : DWord}
    (h : Keep s t) :
    Keep s (State.rvAmo t c len k size rd a v) := by
  unfold State.rvAmo; dsimp only
  repeat' first
    | with_reducible assumption | with_reducible refine keep_modCore ?_ | with_reducible refine keep_store ?_
    | with_reducible refine keep_coreAmo ?_ | with_reducible refine keep_coreEnd ?_ | split
    | (simp only [keep_mk]; refine ⟨?_, ?_, ?_⟩) | with_reducible refine keepR_of ?_
    | with_reducible refine keepM_of ?_ | with_reducible refine Keep.queue ?_
    | with_reducible refine keep_snd ‹_› ?_

theorem keep_rvCbo {s t : State} {c : Fin 8} {len : Nat} {raw : Nat} {k : Cbo} {a : DWord} (h : Keep s t) :
    Keep s (State.rvCbo t c len raw k a) := by
  unfold State.rvCbo; dsimp only
  repeat' first
    | with_reducible assumption | with_reducible refine keep_modCore ?_ | with_reducible refine keep_store ?_
    | with_reducible refine keepR_filter ?_ | with_reducible refine keepM_filter ?_ | split
    | (simp only [keep_mk]; refine ⟨?_, ?_, ?_⟩) | with_reducible refine keepR_of ?_
    | with_reducible refine keepM_of ?_ | with_reducible refine Keep.queue ?_
    | with_reducible refine keep_snd ‹_› ?_

theorem keep_rvCsr {s t : State} {c : Fin 8} {len : Nat} {raw : Nat} {k : CsrDo} {imm : Bool} {rd : Fin 32} {src : Fin 32} {n : Nat}
    (h : Keep s t) :
    Keep s (State.rvCsr t c len raw k imm rd src n) := by
  unfold State.rvCsr; dsimp only
  repeat' first
    | with_reducible assumption | with_reducible refine keep_modCore ?_ | split
    | (simp only [keep_mk]; refine ⟨?_, ?_, ?_⟩) | with_reducible refine keepR_of ?_
    | with_reducible refine keepM_of ?_ | with_reducible refine Keep.queue ?_
    | with_reducible refine keep_snd ‹_› ?_

theorem keep_rvExec {s t : State} {c : Fin 8} {len : Nat} {raw : Nat} {i : Rv} (h : Keep s t) :
    Keep s (State.rvExec t c len raw i) := by
  unfold State.rvExec; dsimp only
  repeat' first
    | with_reducible assumption | with_reducible refine keep_modCore ?_ | with_reducible refine keep_rvLoad ?_
    | with_reducible refine keep_store ?_ | with_reducible refine keep_rvStore ?_
    | with_reducible refine keep_rvLr ?_ | with_reducible refine keep_rvSc ?_ | with_reducible refine keep_rvAmo ?_
    | with_reducible refine keep_rvCbo ?_ | with_reducible refine keep_rvCsr ?_ | split
    | (simp only [keep_mk]; refine ⟨?_, ?_, ?_⟩) | with_reducible refine keepR_of ?_
    | with_reducible refine keepM_of ?_ | with_reducible refine Keep.queue ?_
    | with_reducible refine keep_snd ‹_› ?_

theorem keep_parcel {s t : State} {c : Fin 8} {a : Nat} (h : Keep s t) :
    Keep s (State.parcel t c a).2 := by
  unfold State.parcel; dsimp only
  repeat' first
    | with_reducible assumption | with_reducible refine keep_cached ?_ | split
    | (simp only [keep_mk]; refine ⟨?_, ?_, ?_⟩) | with_reducible refine keepR_of ?_
    | with_reducible refine keepM_of ?_ | with_reducible refine Keep.queue ?_
    | with_reducible refine keep_snd ‹_› ?_

theorem keep_rvStep {s t : State} {c : Fin 8} (h : Keep s t) :
    Keep s (State.rvStep t c) := by
  unfold State.rvStep; dsimp only
  repeat' first
    | with_reducible assumption | with_reducible refine keep_parcel ?_ | with_reducible refine keep_coreEnd ?_
    | with_reducible refine keep_id ?_ | with_reducible refine keep_rvExec ?_
    | with_reducible refine keep_modCore ?_ | split | (simp only [keep_mk]; refine ⟨?_, ?_, ?_⟩)
    | with_reducible refine keepR_of ?_ | with_reducible refine keepM_of ?_ | with_reducible refine Keep.queue ?_
    | with_reducible refine keep_snd ‹_› ?_

theorem keep_coreCycle {s t : State} {c : Fin 8} (h : Keep s t) :
    Keep s (State.coreCycle t c) := by
  unfold State.coreCycle; dsimp only
  repeat' first
    | with_reducible assumption | with_reducible refine keep_modCore ?_ | with_reducible refine keep_getRelease ?_
    | with_reducible refine keep_rvStep ?_ | split | (simp only [keep_mk]; refine ⟨?_, ?_, ?_⟩)
    | with_reducible refine keepR_of ?_ | with_reducible refine keepM_of ?_ | with_reducible refine Keep.queue ?_
    | with_reducible refine keep_snd ‹_› ?_

end Sys2Proof.Machine
end

