-- ==== Sys2Proof/Laws/KeepClock.lean ====
section
/-! SUPPORT. What the operations of Machine/Clock.lean keep. -/

namespace Sys2Proof.Machine

open Sys2Proof

theorem keep_seqCycle {s t : State} (h : Keep s t) :
    Keep s (State.seqCycle t) := by
  unfold State.seqCycle
  repeat' first
    | with_reducible assumption | with_reducible refine keep_each (fun _ _ _ => ?_) ?_
    | with_reducible refine keep_microStep ?_ | split | (simp only [keep_mk]; refine ⟨?_, ?_, ?_⟩)
    | with_reducible refine keepR_of ?_ | with_reducible refine keepM_of ?_ | with_reducible refine Keep.queue ?_
    | with_reducible refine keep_snd ‹_› ?_

theorem keep_cpuCycle {s t : State} (h : Keep s t) :
    Keep s (State.cpuCycle t) := by
  unfold State.cpuCycle
  repeat' first
    | with_reducible assumption | with_reducible refine keep_each (fun _ _ _ => ?_) ?_
    | with_reducible refine keep_coreCycle ?_ | split | (simp only [keep_mk]; refine ⟨?_, ?_, ?_⟩)
    | with_reducible refine keepR_of ?_ | with_reducible refine keepM_of ?_ | with_reducible refine Keep.queue ?_
    | with_reducible refine keep_snd ‹_› ?_

theorem keep_hardCycle {s t : State} (h : Keep s t) :
    Keep s (State.hardCycle t) := by
  unfold State.hardCycle; dsimp only
  repeat' first
    | with_reducible assumption | with_reducible refine keep_tickOne ?_ | with_reducible refine keep_ethDrain ?_
    | with_reducible refine keep_seqCycle ?_ | with_reducible refine keep_injectDue ?_ | split
    | (simp only [keep_mk]; refine ⟨?_, ?_, ?_⟩) | with_reducible refine keepR_of ?_
    | with_reducible refine keepM_of ?_ | with_reducible refine Keep.queue ?_
    | with_reducible refine keep_snd ‹_› ?_

theorem keep_setsWin {s t : State} {start : State} {h1 : State} (h : Keep s t) :
    Keep s (State.setsWin t start h1) := by
  unfold State.setsWin; dsimp only
  repeat' first
    | with_reducible assumption | with_reducible refine keep_each (fun _ _ _ => ?_) ?_
    | with_reducible refine keep_setReg ?_ | with_reducible refine keep_hardCycle ?_ | split
    | (simp only [keep_mk]; refine ⟨?_, ?_, ?_⟩) | with_reducible refine keepR_of ?_
    | with_reducible refine keepM_of ?_ | with_reducible refine Keep.queue ?_
    | with_reducible refine keep_snd ‹_› ?_

theorem keep_tick {s t : State} (h : Keep s t) :
    Keep s (State.tick t) := by
  unfold State.tick; dsimp only
  repeat' first
    | with_reducible assumption | with_reducible refine keep_hardCycle ?_ | with_reducible refine keep_cpuCycle ?_
    | with_reducible refine keep_setsWin ?_ | split | (simp only [keep_mk]; refine ⟨?_, ?_, ?_⟩)
    | with_reducible refine keepR_of ?_ | with_reducible refine keepM_of ?_ | with_reducible refine Keep.queue ?_
    | with_reducible refine keep_snd ‹_› ?_

end Sys2Proof.Machine
end

