-- ==== Sys2Proof/Laws/KeepCommands.lean ====
section
/-! SUPPORT. What the operations of Machine/Commands.lean keep. -/

namespace Sys2Proof.Machine

open Sys2Proof

theorem keep_command {s t : State} {ini : Initiator} {r : Reg} {ix : List Nat} {v : Word} (h : Keep s t) :
    Keep s (State.command t ini r ix v) := by
  unfold State.command
  repeat' first
    | with_reducible assumption | with_reducible refine keep_regWrite ?_

theorem keep_execRegisterWrite {s t : State} {ini : Initiator} {addr : Nat} {size : Nat} {wr : Option DWord} (h : Keep s t) :
    KeepO s (execRegisterWrite ini addr size wr t) := by
  unfold execRegisterWrite
  repeat' first
    | with_reducible assumption | with_reducible refine keepO_next ?_ | with_reducible refine keep_wr ?_
    | with_reducible refine keep_busWrite ?_ | with_reducible refine keep_busRead ?_ | split

theorem keep_execShadowLowWordRead {s t : State} {ini : Initiator} {addr : Nat} (h : Keep s t) :
    KeepO s (execShadowLowWordRead ini addr t) := keepO_next (keep_busRead h)

theorem keep_execShadowHighWordRead {s t : State} {ini : Initiator} {addr : Nat} (h : Keep s t) :
    KeepO s (execShadowHighWordRead ini addr t) := keepO_next (keep_busRead h)

theorem keep_execClkctlWrite {s t : State} {ini : Initiator} {v : Word} (h : Keep s t) :
    KeepO s (execClkctlWrite ini v t) := keepO_next (keep_command h)

theorem keep_execStart {s t : State} {ini : Initiator} {n : Fin 8} {v : Word} (h : Keep s t) :
    KeepO s (execStart ini n v t) := keepO_next (keep_command h)

theorem keep_execAbortHem {s t : State} {ini : Initiator} {n : Fin 8} {v : Word} (h : Keep s t) :
    KeepO s (execAbortHem ini n v t) := keepO_next (keep_command h)

theorem keep_execAbortNow {s t : State} {ini : Initiator} {n : Fin 8} {v : Word} (h : Keep s t) :
    KeepO s (execAbortNow ini n v t) := keepO_next (keep_command h)

theorem keep_execResvWrite {s t : State} {ini : Initiator} {n : Fin 8} {v : Word} (h : Keep s t) :
    KeepO s (execResvWrite ini n v t) := keepO_next (keep_command h)

theorem keep_execDdistWrite {s t : State} {ini : Initiator} {n : Fin 8} {v : Word} (h : Keep s t) :
    KeepO s (execDdistWrite ini n v t) := keepO_next (keep_command h)

theorem keep_execSegOpen {s t : State} {ini : Initiator} {n : Fin 8} {v : Word} (h : Keep s t) :
    KeepO s (execSegOpen ini n v t) := keepO_next (keep_command h)

theorem keep_execSegSeal {s t : State} {ini : Initiator} {n : Fin 8} {v : Word} (h : Keep s t) :
    KeepO s (execSegSeal ini n v t) := keepO_next (keep_command h)

theorem keep_execSegDrop {s t : State} {ini : Initiator} {n : Fin 8} {v : Word} (h : Keep s t) :
    KeepO s (execSegDrop ini n v t) := keepO_next (keep_command h)

theorem keep_execLoaddoneRead {s t : State} {ini : Initiator} {n : Fin 8} {wide : Bool} (h : Keep s t) :
    KeepO s (execLoaddoneRead ini n wide t) := keepO_next (keep_busRead h)

theorem keep_execHregCtrlWrite {s t : State} {ini : Initiator} {i : Fin 32} {v : Word} (h : Keep s t) :
    KeepO s (execHregCtrlWrite ini i v t) := keepO_next (keep_command h)

theorem keep_execSmapCommit {s t : State} {ini : Initiator} {n : Fin 8} {v : Word} (h : Keep s t) :
    KeepO s (execSmapCommit ini n v t) := keepO_next (keep_command h)

theorem keep_execSmapRevert {s t : State} {ini : Initiator} {n : Fin 8} {v : Word} (h : Keep s t) :
    KeepO s (execSmapRevert ini n v t) := keepO_next (keep_command h)

theorem keep_execGangWrite {s t : State} {ini : Initiator} {n : Fin 8} {v : Word} (h : Keep s t) :
    KeepO s (execGangWrite ini n v t) := keepO_next (keep_command h)

theorem keep_execPincfgWrite {s t : State} {ini : Initiator} {n : Fin 8} {lane : Fin 32} {v : Word} (h : Keep s t) :
    KeepO s (execPincfgWrite ini n lane v t) := keepO_next (keep_command h)

theorem keep_execLvlpush {s t : State} {ini : Initiator} {n : Fin 8} {wide : Bool} {v : DWord} (h : Keep s t) :
    KeepO s (execLvlpush ini n wide v t) := keepO_next (keep_regWrite h)

theorem keep_execPmuWrite {s t : State} {ini : Initiator} {n : Fin 8} {lane : Fin 32} {v : Word} (h : Keep s t) :
    KeepO s (execPmuWrite ini n lane v t) := keepO_next (keep_command h)

theorem keep_execAdcStart {s t : State} {ini : Initiator} {n : Fin 8} {v : Word} (h : Keep s t) :
    KeepO s (execAdcStart ini n v t) := keepO_next (keep_command h)

theorem keep_execAdcStop {s t : State} {ini : Initiator} {n : Fin 8} {v : Word} (h : Keep s t) :
    KeepO s (execAdcStop ini n v t) := keepO_next (keep_command h)

theorem keep_execAdcresRead {s t : State} {ini : Initiator} {n : Fin 8} {wide : Bool} (h : Keep s t) :
    KeepO s (execAdcresRead ini n wide t) := keepO_next (keep_busRead h)

theorem keep_execTdcArm {s t : State} {ini : Initiator} {n : Fin 8} {v : Word} (h : Keep s t) :
    KeepO s (execTdcArm ini n v t) := keepO_next (keep_command h)

theorem keep_execTdcCancel {s t : State} {ini : Initiator} {n : Fin 8} {v : Word} (h : Keep s t) :
    KeepO s (execTdcCancel ini n v t) := keepO_next (keep_command h)

theorem keep_execTdcresRead {s t : State} {ini : Initiator} {n : Fin 8} {wide : Bool} (h : Keep s t) :
    KeepO s (execTdcresRead ini n wide t) := keepO_next (keep_busRead h)

theorem keep_execXotbWrite {s t : State} {ini : Initiator} {v : Word} (h : Keep s t) :
    KeepO s (execXotbWrite ini v t) := keepO_next (keep_command h)

theorem keep_execSprdWrite {s t : State} {ini : Initiator} {n : Fin 8} {v : Word} (h : Keep s t) :
    KeepO s (execSprdWrite ini n v t) := keepO_next (keep_command h)

theorem keep_execDiscard {s t : State} {ini : Initiator} {n : Fin 8} {v : Word} (h : Keep s t) :
    KeepO s (execDiscard ini n v t) := keepO_next (keep_command h)

theorem keep_execCntclr {s t : State} {ini : Initiator} {n : Fin 8} {v : Word} (h : Keep s t) :
    KeepO s (execCntclr ini n v t) := keepO_next (keep_command h)

theorem keep_execSitelatWrite {s t : State} {ini : Initiator} {n : Fin 8} {v : Word} (h : Keep s t) :
    KeepO s (execSitelatWrite ini n v t) := keepO_next (keep_command h)

theorem keep_execSitesetWrite {s t : State} {ini : Initiator} {n : Fin 8} {v : Word} (h : Keep s t) :
    KeepO s (execSitesetWrite ini n v t) := keepO_next (keep_command h)

theorem keep_execScopeArm {s t : State} {ini : Initiator} {n : Fin 8} {v : Word} (h : Keep s t) :
    KeepO s (execScopeArm ini n v t) := keepO_next (keep_command h)

theorem keep_execScopeCancel {s t : State} {ini : Initiator} {n : Fin 8} {v : Word} (h : Keep s t) :
    KeepO s (execScopeCancel ini n v t) := keepO_next (keep_command h)

theorem keep_execScanEnable {s t : State} {ini : Initiator} {u1 : Fin 4} {v : Word} (h : Keep s t) :
    KeepO s (execScanEnable ini u1 v t) := keepO_next (keep_command h)

theorem keep_execScanDisable {s t : State} {ini : Initiator} {u1 : Fin 4} {v : Word} (h : Keep s t) :
    KeepO s (execScanDisable ini u1 v t) := keepO_next (keep_command h)

theorem keep_execScanCommit {s t : State} {ini : Initiator} {u1 : Fin 4} {v : Word} (h : Keep s t) :
    KeepO s (execScanCommit ini u1 v t) := keepO_next (keep_command h)

theorem keep_execScanBaserdy {s t : State} {ini : Initiator} {u1 : Fin 4} {v : Word} (h : Keep s t) :
    KeepO s (execScanBaserdy ini u1 v t) := keepO_next (keep_command h)

theorem keep_execScanOvlrdy {s t : State} {ini : Initiator} {u1 : Fin 4} {v : Word} (h : Keep s t) :
    KeepO s (execScanOvlrdy ini u1 v t) := keepO_next (keep_command h)

theorem keep_execHbInit {s t : State} {ini : Initiator} {v : Word} (h : Keep s t) :
    KeepO s (execHbInit ini v t) := keepO_next (keep_command h)

theorem keep_execTrnWrite {s t : State} {ini : Initiator} {k : Fin 2} {c : Fin 16} {w : Fin 64} {v : Word} (h : Keep s t) :
    KeepO s (execTrnWrite ini k c w v t) := keepO_next (keep_command h)

theorem keep_execPprSoft {s t : State} {ini : Initiator} {v : Word} (h : Keep s t) :
    KeepO s (execPprSoft ini v t) := keepO_next (keep_command h)

theorem keep_execPprHard {s t : State} {ini : Initiator} {v : Word} (h : Keep s t) :
    KeepO s (execPprHard ini v t) := keepO_next (keep_command h)

theorem keep_execCoreRun {s t : State} {ini : Initiator} {c : Fin 8} {v : Word} (h : Keep s t) :
    KeepO s (execCoreRun ini c v t) := keepO_next (keep_command h)

theorem keep_execCoreReset {s t : State} {ini : Initiator} {c : Fin 8} {v : Word} (h : Keep s t) :
    KeepO s (execCoreReset ini c v t) := keepO_next (keep_command h)

theorem keep_execMsipWrite {s t : State} {ini : Initiator} {c : Fin 8} {v : Word} (h : Keep s t) :
    KeepO s (execMsipWrite ini c v t) := keepO_next (keep_command h)

theorem keep_execDoorbell {s t : State} {ini : Initiator} {c : Fin 8} {v : Word} (h : Keep s t) :
    KeepO s (execDoorbell ini c v t) := keepO_next (keep_command h)

theorem keep_execPush {s t : State} {ini : Initiator} {desc : DWord} (h : Keep s t) :
    KeepO s (execPush ini desc t) := keepO_next (keep_regWrite h)

theorem keep_execFlush {s t : State} {ini : Initiator} {v : Word} (h : Keep s t) :
    KeepO s (execFlush ini v t) := keepO_next (keep_command h)

theorem keep_execClEnable {s t : State} {ini : Initiator} {p : Fin 4} {v : Word} (h : Keep s t) :
    KeepO s (execClEnable ini p v t) := keepO_next (keep_command h)

theorem keep_execClDisable {s t : State} {ini : Initiator} {p : Fin 4} {v : Word} (h : Keep s t) :
    KeepO s (execClDisable ini p v t) := keepO_next (keep_command h)

theorem keep_execLrst {s t : State} {ini : Initiator} {p : Fin 4} {v : Word} (h : Keep s t) :
    KeepO s (execLrst ini p v t) := keepO_next (keep_command h)

theorem keep_execSumrxPop {s t : State} {ini : Initiator} {v : Word} (h : Keep s t) :
    KeepO s (execSumrxPop ini v t) := keepO_next (keep_command h)

theorem keep_execSearch {s t : State} {ini : Initiator} {v : Word} (h : Keep s t) :
    KeepO s (execSearch ini v t) := keepO_next (keep_command h)

theorem keep_execSend {s t : State} {ini : Initiator} {v : Word} (h : Keep s t) :
    KeepO s (execSend ini v t) := keepO_next (keep_command h)

theorem keep_execSnap {s t : State} {ini : Initiator} {v : Word} (h : Keep s t) :
    KeepO s (execSnap ini v t) := keepO_next (keep_command h)

theorem keep_execPhcSet {s t : State} {ini : Initiator} {v : Word} (h : Keep s t) :
    KeepO s (execPhcSet ini v t) := keepO_next (keep_command h)

theorem keep_execServoUpdate {s t : State} {ini : Initiator} {wide : Bool} {v : DWord} (h : Keep s t) :
    KeepO s (execServoUpdate ini wide v t) := keepO_next (keep_regWrite h)

theorem keep_execReseti {s t : State} {ini : Initiator} {v : Word} (h : Keep s t) :
    KeepO s (execReseti ini v t) := keepO_next (keep_command h)

theorem keep_execTxtsPop {s t : State} {ini : Initiator} {v : Word} (h : Keep s t) :
    KeepO s (execTxtsPop ini v t) := keepO_next (keep_command h)

theorem keep_execPartitionReset {s t : State} {ini : Initiator} {v : Word} (h : Keep s t) :
    KeepO s (execPartitionReset ini v t) := keepO_next (keep_command h)

theorem keep_execPartWrite {s t : State} {ini : Initiator} {p : Fin 8} {v : Word} (h : Keep s t) :
    KeepO s (execPartWrite ini p v t) := keepO_next (keep_command h)

theorem keep_execGetInfo {s t : State} {ini : Initiator} {p : Fin 8} {v : Word} (h : Keep s t) :
    KeepO s (execGetInfo ini p v t) := keepO_next (keep_command h)

theorem keep_execReadSensors {s t : State} {ini : Initiator} {p : Fin 8} {v : Word} (h : Keep s t) :
    KeepO s (execReadSensors ini p v t) := keepO_next (keep_command h)

theorem keep_execReadLog {s t : State} {ini : Initiator} {p : Fin 8} {v : Word} (h : Keep s t) :
    KeepO s (execReadLog ini p v t) := keepO_next (keep_command h)

theorem keep_execRemoteRd {s t : State} {ini : Initiator} {p : Fin 8} {v : Word} (h : Keep s t) :
    KeepO s (execRemoteRd ini p v t) := keepO_next (keep_command h)

theorem keep_execRemoteWr {s t : State} {ini : Initiator} {p : Fin 8} {v : Word} (h : Keep s t) :
    KeepO s (execRemoteWr ini p v t) := keepO_next (keep_command h)

theorem keep_execUpdateBegin {s t : State} {ini : Initiator} {p : Fin 8} {v : Word} (h : Keep s t) :
    KeepO s (execUpdateBegin ini p v t) := keepO_next (keep_command h)

theorem keep_execUpdateData {s t : State} {ini : Initiator} {p : Fin 8} {v : Word} (h : Keep s t) :
    KeepO s (execUpdateData ini p v t) := keepO_next (keep_command h)

theorem keep_execUpdateEnd {s t : State} {ini : Initiator} {p : Fin 8} {v : Word} (h : Keep s t) :
    KeepO s (execUpdateEnd ini p v t) := keepO_next (keep_command h)

theorem keep_execConfirm {s t : State} {ini : Initiator} {p : Fin 8} {v : Word} (h : Keep s t) :
    KeepO s (execConfirm ini p v t) := keepO_next (keep_command h)

theorem keep_execCommitSvn {s t : State} {ini : Initiator} {p : Fin 8} {v : Word} (h : Keep s t) :
    KeepO s (execCommitSvn ini p v t) := keepO_next (keep_command h)

theorem keep_execIlkFaultClear {s t : State} {ini : Initiator} {v : Word} (h : Keep s t) :
    KeepO s (execIlkFaultClear ini v t) := keepO_next (keep_command h)

theorem keep_execLoad {s t : State} {ini : Initiator} {v : Word} (h : Keep s t) :
    KeepO s (execLoad ini v t) := keepO_next (keep_command h)

theorem keep_execReject {s t : State} {ini : Initiator} {v : Word} (h : Keep s t) :
    KeepO s (execReject ini v t) := keepO_next (keep_command h)

theorem keep_execPop {s t : State} {ini : Initiator} {v : Word} (h : Keep s t) :
    KeepO s (execPop ini v t) := keepO_next (keep_command h)

theorem keep_execAonclr {s t : State} {ini : Initiator} {v : Word} (h : Keep s t) :
    KeepO s (execAonclr ini v t) := keepO_next (keep_command h)

theorem keep_execInjectSingle {s t : State} {ini : Initiator} {v : Word} (h : Keep s t) :
    KeepO s (execInjectSingle ini v t) := keepO_next (keep_command h)

theorem keep_execInjectDouble {s t : State} {ini : Initiator} {v : Word} (h : Keep s t) :
    KeepO s (execInjectDouble ini v t) := keepO_next (keep_command h)

theorem keep_execInjectWire {s t : State} {ini : Initiator} {v : Word} (h : Keep s t) :
    KeepO s (execInjectWire ini v t) := keepO_next (keep_command h)

theorem keep_execPressRun {s t : State} {ini : Initiator} {n : Fin 8} {v : Word} (h : Keep s t) :
    KeepO s (execPressRun ini n v t) := keepO_next (keep_command h)

theorem keep_execBistStart {s t : State} {ini : Initiator} {v : Word} (h : Keep s t) :
    KeepO s (execBistStart ini v t) := keepO_next (keep_command h)

theorem keep_execBistAbort {s t : State} {ini : Initiator} {v : Word} (h : Keep s t) :
    KeepO s (execBistAbort ini v t) := keepO_next (keep_command h)

theorem keep_execSubmit {s t : State} {ini : Initiator} {v : Word} (h : Keep s t) :
    KeepO s (execSubmit ini v t) := keepO_next (keep_command h)

theorem keep_execFuse {s t : State} {ini : Initiator} {v : Word} (h : Keep s t) :
    KeepO s (execFuse ini v t) := keepO_next (keep_command h)

theorem keep_execWarm {s t : State} {ini : Initiator} {v : Word} (h : Keep s t) :
    KeepO s (execWarm ini v t) := keepO_next (keep_command h)

theorem keep_execSlice {s t : State} {ini : Initiator} {v : Word} (h : Keep s t) :
    KeepO s (execSlice ini v t) := keepO_next (keep_command h)

theorem keep_execMgmt {s t : State} {ini : Initiator} {v : Word} (h : Keep s t) :
    KeepO s (execMgmt ini v t) := keepO_next (keep_command h)

theorem keep_execStandby {s t : State} {ini : Initiator} {v : Word} (h : Keep s t) :
    KeepO s (execStandby ini v t) := keepO_next (keep_command h)

theorem keep_execStandbyExit {s t : State} {ini : Initiator} {v : Word} (h : Keep s t) :
    KeepO s (execStandbyExit ini v t) := keepO_next (keep_command h)

theorem keep_execPark {s t : State} {ini : Initiator} {v : Word} (h : Keep s t) :
    KeepO s (execPark ini v t) := keepO_next (keep_command h)

theorem keep_execUnpark {s t : State} {ini : Initiator} {v : Word} (h : Keep s t) :
    KeepO s (execUnpark ini v t) := keepO_next (keep_command h)

theorem keep_execSvcoffSl {s t : State} {ini : Initiator} {v : Word} (h : Keep s t) :
    KeepO s (execSvcoffSl ini v t) := keepO_next (keep_command h)

theorem keep_execSvcoffScan {s t : State} {ini : Initiator} {v : Word} (h : Keep s t) :
    KeepO s (execSvcoffScan ini v t) := keepO_next (keep_command h)

theorem keep_execSvcoffHb {s t : State} {ini : Initiator} {v : Word} (h : Keep s t) :
    KeepO s (execSvcoffHb ini v t) := keepO_next (keep_command h)

end Sys2Proof.Machine
end

