-- ==== Sys2Proof/Tests/Slice0.lean ====
section
/-! SUPPORT. Tests: ill-formed commands that `Instr.wf` refuses, witnesses of the statements' hypotheses, and single steps. A
witness names the obligation whose claims it serves; where a hypothesis asks that a register is reached and nothing else of the
state, `witness_reaches` has the register. -/

namespace Sys2Proof.Tests

open Sys2Proof Sys2Proof.Machine Sys2Proof.Machine.Claim

/-! ## Well-formed commands -/

/-- Each check of `Instr.wf` refuses a command just out of its range. -/
theorem wf_refuses : ∀ i ∈ ([.registerWrite .mgmt 0x4200000 4 none, .registerWrite (.pcie 0) 0x4000000 4 none,
    .registerWrite .mgmt 0 3 none, .shadowLowWordRead .mgmt 0x4000000,
    .shadowLowWordRead .mgmt 2, .shadowHighWordRead .mgmt 0x4000000, .shadowHighWordRead .mgmt 2, .driveEvent 0 0 (2 ^ 64) 0,
    .strobe 0 0 (2 ^ 64) 0 .windowClean, .streamEccError 0 true (2 ^ 20) 0 0 0, .streamEccError 0 true 0 (2 ^ 32) 0 0,
    .streamEccError 0 true 0 0 (2 ^ 64) 0, .hbmAccess .mgmt (2 ^ 36) 1 ⟨none, none⟩, .hbmAccess .mgmt 0 0 ⟨none, none⟩,
    .hbmAccess .mgmt 0 2 ⟨some [1], none⟩, .hbmAccess .mgmt 1020 5 ⟨none, none⟩, .hbmAccess .mgmt 0 8 ⟨none, some 4⟩,
    .tdcStop 0 (2 ^ 42), .scopeTrigger 0 (2 ^ 64), .rowActivate 0 0 0 (2 ^ 14) true] :
    List Instr), i.wf = false := by decide

theorem wf_refuses_links : ∀ i ∈ ([.targetedRefresh 0 0 0 (2 ^ 14), .probRefresh 0 0 0 (2 ^ 14), .hbmCorrectedError 0xC00000000,
    .hbmUncorrectableError 0xC00000000 .mgmt, .recover 0 true (2 ^ 32), .hello 0 0 true true true (2 ^ 32) 0,
    .regrd 0 ⟨0, 0, 0, false⟩ 0 0x4000000, .regrd 0 ⟨0, 0, 0, false⟩ 0 2, .regwr 0 ⟨0, 0, 0, false⟩ 0 2 0,
    .regrsp 0 ⟨0, 0, 0, false⟩ 0 2 0 0, .discover 0 ⟨0, 0, 0, false⟩ 0 256 false, .fin 0 ⟨0, 0, 0, false⟩ 0 65536 false,
    .sync 0 ⟨0, 0, 0, false⟩ 0 256 0 0 0 0 0, .dresp 0 ⟨0, 0, 0, false⟩ 0 (2 ^ 64) 0] : List Instr), i.wf = false := by decide

theorem wf_refuses_management : ∀ i ∈ ([.dmaChunk 0 ⟨0, 0, 0, 0, 0⟩ [1] .ok, .sensorSample [], .smbReadLog true 0 0,
    .ethTxFrame 0 ⟨⟨0, 1000000000, 0⟩, 0⟩ false, .ethTxFrame 0 ⟨⟨0, 0, 65536⟩, 0⟩ false, .ethRxFrame 0 [] true ⟨⟨0, 1000000000, 0⟩, 0⟩ false,
    .pressRunDone 0 ⟨0, 0, [], [], [], []⟩] : List Instr), i.wf = false := by decide

/-- And takes one at the end of it. -/
theorem wf_takes : ∀ i ∈ ([.registerWrite .mgmt 0x3FFFFFC 4 none, .driveEvent 7 31 (2 ^ 64 - 1) 3, .tdcStop 7 (2 ^ 42 - 1),
    .rowActivate 63 2 15 (2 ^ 14 - 1) false, .hbmAccess (.stream 0) 1020 8 ⟨none, none⟩, .hbmCorrectedError 0xBFFFFFFFF, .discover 3 ⟨0, 0, 0, false⟩ 0 255 true,
    .ethTxFrame 1 ⟨⟨0, 999999999, 65535⟩, 0⟩ false] : List Instr), i.wf = true := by decide

/-! ## States -/

/-- Every function ready, the pattern memory's contents valid, the interlock closed. -/
def up : State := { State.reset with
  ready := 0xFFFFFFFF, drc := { Drc.reset with lost := Vector.replicate 2 false }, power := { Power.reset with rails := true, ilkA := true, ilkB := false } }

/-- A loaded segment of four hems at 100 MHz, at the start of the slice's PATTERN region. -/
def aFig : Figures := ⟨4, 0x02000000, [0], [], [], false, some 256, false, ⟨none, none, none⟩, ⟨none, none, none⟩,
  ⟨none, none, none⟩, ⟨none, none, none⟩⟩
def aSeg : SegEntry := ⟨.loaded, 0, 1, false, false, 0, some aFig⟩

/-- A slice with a burst of its own on segment 0, in the state given. -/
def slOf (st : BurstState) (q : Seq) : Slice := { Slice.reset with
  st := st, gang := [0], reach := [0], segs := [(0, aSeg)], seq := q }

/-- `up` with slice 0 changed. -/
def onSl (f : Slice → Slice) : State := up.modSl 0 f

/-- `up` with port 0 changed, TRUSTED. -/
def onPort (f : Port → Port) : State := (up.modPort 0 f).wr (fClCtrl_MODE 0) 1

/-- A burst at a hem boundary, after its vector 64. -/
def atHem : State := onSl fun _ => slOf .running { Seq.reset with vec := 64, off := 64, hemDue := true }

/-- A burst whose vectors play. -/
def playing : State := onSl fun _ => slOf .running Seq.reset

/-- An ACTIVE TRUSTED port. -/
def linked : State := onPort fun x => { x with st := .active }

/-- The low word of NOW was read. -/
def shadowed : State := { up with shadow := up.shadow.set (shadowOf .mgmt) (some (aTmNow, 7)) }

/-- The header of the frame that a port expects next. -/
def hdr : Hdr := ⟨0, 0, 0, false⟩

/-! ## Witnesses: states and operands that meet the hypotheses of the statements -/

/-- Register accesses that reach their register. -/
theorem witness_reaches : ∀ e ∈ ([(.hmPop, []), (.hmAonclr, []), (.hmInj, []), (.clkctl, []), (.rst, []), (.slBcmd, [0]),
    (.slResv, [0]), (.slDdist, [0]), (.slSegcmd, [0]), (.hregCtrl, [0]), (.slSmapcmd, [0]), (.slGang, [0]), (.slPincfg, [0, 31]),
    (.slLvlpush, [0]), (.slPmu, [0, 31]), (.slAdccmd, [0]), (.slTdccmd, [0]), (.xotb, []), (.slSprd, [0]), (.slSpcmd, [0]),
    (.slSitelat, [0]), (.slSiteset, [0]), (.slScpcmd, [0]), (.scCtrl, [0]), (.scCmd, [0]), (.drcHbcmd, []),
    (.drcTrn, [1, 15, 63]), (.drcPpr, []), (.dpCoreCtrl, [0]), (.dpCoreMsip, [0]), (.dpCoreIrqpend, [0]), (.dpPush, []),
    (.dpCtrl, []), (.clCtrl, [0]), (.clSumrxpop, []), (.clEnumctl, []), (.tmTrigcmd, []), (.tmSnapcmd, []), (.tmPhccmd, []),
    (.tmSrvoff, []), (.tmSrvctl, []), (.tmTxtspop, []), (.prst, []), (.part, [0]), (.part, [7]), (.mgCmd, [0]), (.mgCmd, [7]),
    (.ilk, []), (.upcmd, []), (.prCtrl, [0]), (.prBistCmd, []), (.prBistTokcmd, []), (.prDarnCmd, []), (.pwrctl, []),
    (.svcoff, [])] : List (Reg × List Nat)), Reaches up .mgmt e.1 e.2 := by decide

/-- A narrow register by its one word, a wide one by each word and as a whole. -/
theorem witness_FieldsByAccessType :
    (Names (aSlVclk 0) 4 .slVclk [0] .lo ∧ Reg.slVclk ∈ plainRegs ∧ Reaches up .mgmt .slVclk [0]) ∧
    (Names (aSlTstart 7) 4 .slTstart [7] .lo ∧ Reg.slTstart ∈ plainRegs ∧ Reaches up (.pcie 0) .slTstart [7]) :=
  ⟨by decide, by decide⟩

theorem witness_FieldsByAccessType_parts :
    Names (aSlTstart 7 + 4) 4 .slTstart [7] .hi ∧ Names (aSlTstart 7) 8 .slTstart [7] .all := ⟨by decide, by decide⟩

/-- A boot field before its function is ready; a register in use and not. -/
theorem witness_FieldsByAccessType_guards :
    (Names aTmCtrl 4 .tmCtrl [] .lo ∧ State.reset.busOn .mgmt = true ∧ Reg.tmCtrl.desc.exempt = false ∧
      State.reset.gateReady Reg.tmCtrl.desc.gate [] = false ∧ Reg.tmCtrl.desc.fields.any (·.boot) = true) ∧
    (Names (aSlLc 0 3) 4 .slLc [0, 3] .lo ∧ Reaches up .mgmt .slLc [0, 3] ∧ Reaches playing .mgmt .slLc [0, 3] ∧
      inUse up .slLc [0, 3] 0 = some false ∧ inUse playing .slLc [0, 3] 0 = some true) ∧
    (Names (aDmaRing 15) 8 .dmaRing [15] .all ∧ Reaches up .mgmt .dmaRing [15] ∧
      inUse up .dmaRing [15] 0 = some false ∧ inUse (up.wr (fDmaCtrl_EN 15) 1) .dmaRing [15] 0 = some true) :=
  ⟨by decide, by decide, by decide⟩

/-- A 64-bit access that names two narrow registers. -/
theorem witness_FieldsByAccessType_pair : aClkctl % 8 = 0 ∧ aClkctl < bar0 ∧
    ∀ r ix, Reg.find aClkctl = some (r, ix, false) → r.desc.wide = false := by
  refine ⟨by decide, by decide, fun r ix h => ?_⟩
  rw [show Reg.find aClkctl = some (.clkctl, [], false) by decide] at h
  cases h; decide

theorem witness_FieldsByAccessType_reads : (up.busOn (.pcie 0) = true ∧ up.sees (.pcie 0) .slTstart [7] = true ∧
      Reg.slTstart ≠ .slLoaddone ∧ Reg.slTstart ≠ .slAdcres ∧ Reg.slTstart ≠ .slTdcres) ∧
    up.shadow[shadowOf .mgmt].map (·.1 + 4) ≠ some (aSlTstart 7 + 4) ∧
    (up.live .mgmt .slTstart [7] = [] ∧ ownCopy .mgmt .slTstart [7] = (.slTstart, [7])) := by decide

theorem witness_FieldsByAccessType_rules : (up.busOn (.pcie 0) = true ∧ up.sees (.pcie 0) .accerr [] = true) ∧
    ∀ e ∈ ([(.scResv, [3]), (.scWmark, [3]), (.dmaTail, [15]), (.etTxtail, [1]), (.etRxtail, [1]), (.hmSrc, [511]), (.sensor, [16]),
      (.prCfg, []), (.slTdccfg, [7])] : List (Reg × List Nat)), Reaches up .mgmt e.1 e.2 := by decide

theorem witness_FieldsByAccessType_owned :
    (Names aUpaddr 8 .upaddr [] .all ∧ Reaches up .mgmt .upaddr [] ∧ Reaches up (.pcie 0) .upaddr []) ∧
    (Names aIlkcfg 4 .ilkcfg [] .lo ∧ Reaches up (.pcie 0) .ilkcfg [] ∧ pfOrMgmt (.pcie 0) = true) ∧
    (Names (aEtTxring 1) 8 .etTxring [1] .all ∧ Reaches up .mgmt .etTxring [1] ∧ Names (aEtCtrl 1) 4 .etCtrl [1] .lo ∧
      Reaches up .mgmt .etCtrl [1]) := ⟨by decide, by decide, by decide⟩

theorem witness_AccessRules :
    ((Instr.registerWrite .mgmt 1 2 none).wf = true ∧ ¬ (2 = 4 ∧ 1 % 4 = 0) ∧ ¬ (2 = 8 ∧ 1 % 8 = 0) ∧ up.power.on = true) ∧
    ((Instr.registerWrite .mgmt 4 8 none).wf = true ∧ ¬ (8 = 4 ∧ 4 % 4 = 0) ∧ ¬ (8 = 8 ∧ 4 % 8 = 0)) ∧
    (Reg.find 0x3FFFFFC = none ∧ 0x3FFFFFC % 4 = 0 ∧ 0x3FFFFFC < bar0) ∧ up.busOn .mgmt = true := by decide

theorem witness_AccessRules_gate :
    (State.reset.power.on = true ∧ Reg.find (aSlResv 7) = some (.slResv, [7], false) ∧
      State.reset.sees (.pcie 0) .slResv [7] = true ∧ Reg.slResv.desc.exempt = false ∧
      State.reset.gateReady Reg.slResv.desc.gate [7] = false ∧ Initiator.pcie 0 ≠ .mgmt) ∧
    (Reg.find aTmNow = some (.tmNow, [], false) ∧ Reg.tmNow.desc.wide = true ∧ up.sees (.pcie 0) .tmNow [] = true ∧
      Reg.tmNow ≠ .slLoaddone ∧ Reg.tmNow ≠ .slAdcres ∧ Reg.tmNow ≠ .slTdcres) ∧
    (Reg.find (aTmNow + 4) = some (.tmNow, [], true) ∧ shadowed.sees .mgmt .tmNow [] = true ∧
      shadowed.shadow[shadowOf .mgmt] = some (aTmNow, (7 : Word))) := by decide

theorem witness_Faults : playing.sl[(0 : Fin 8)].st = .running ∧ up.power.on = true ∧ up.sl[(7 : Fin 8)].st = .idle ∧
    (playing.sl[playing.leadOf 0].st = .running ∧ playing.sl[playing.leadOf 0].seq.hemDue = false ∧
      playing.sl[playing.leadOf 0].seq.ecc = [] ∧ playing.sl[playing.leadOf 0].seq.vec ≤ 63 / 64 * 64 ∧
      63 < playing.sl[playing.leadOf 0].seq.vec + 64 ∧ playing.sl[playing.leadOf 0].seq.seg = 0 ∧
      playing.sl[playing.leadOf 0].seq.off ≤ 63 ∧ ∀ m ∈ playing.burstOf (playing.leadOf 0), playing.rd (fSlExc_VALID m) = 0) ∧
    (playing.sl[playing.leadOf 0].seq.vec + 64 ≤ 64 ∧ playing.sl[playing.leadOf 0].seq.eccDue = []) ∧
    (atHem.sl[atHem.leadOf 0].st = .running ∧ 63 / 64 * 64 < atHem.sl[atHem.leadOf 0].seq.vec) := by decide

/-- More than AON runs; before the rails were judged, and without PWRGOOD, AON alone. -/
theorem witness_Faults_power : Awake up ∧ ¬ Awake State.reset ∧ ¬ Awake (up.modPower fun p => { p with on := false }) := by decide

/-- Two stream errors in order. -/
theorem witness_Faults_order : ([⟨true, 0, 0, 0, 5, 0⟩, ⟨false, 0, 0, 0, 5, 0⟩] : List EccPend).Pairwise
    (fun a b => a.vec < b.vec ∨ a.vec = b.vec ∧ a.rank ≤ b.rank) ∨ ([⟨false, 0, 0, 0, 5, 0⟩, ⟨true, 0, 0, 0, 5, 0⟩] : List EccPend).Pairwise
    (fun a b => a.vec < b.vec ∨ a.vec = b.vec ∧ a.rank ≤ b.rank) := by decide

/-- A source of each class: of a slice, of a DMA channel, of the host interface. -/
theorem witness_hamperClass : hamperClass 0 = 1 ∧ hamperClass 113 = 2 ∧ (∀ c : Fin 16, hamperClass (384 + c) = 2) ∧
    hamperClass 497 = 3 := by decide

/-- A contained source of every unit. -/
theorem witness_hamperUnits : (∀ u : Fin 4, ∃ j : Fin 4, hamperClass (256 + 4 * u + j) = 2) ∧
    (∀ c : Fin 8, ∃ j : Fin 8, hamperClass (8 * (34 + c) + j) = 2) ∧ (∃ j : Fin 8, hamperClass (336 + j) = 2) ∧
    (∀ p : Fin 4, ∃ j : Fin 8, hamperClass (8 * (43 + p) + j) = 2) ∧ ∀ e : Fin 2, ∃ j : Fin 4, hamperClass (4 * (94 + e) + j) = 2 := by
  decide

/-- A record in Hamper's queue. -/
def aRecord : HRec := ⟨0, 384, 2, false, false, false, false, 1, 0, 0⟩

def recorded : State := { up with hamper := { Hamper.reset with queue := [aRecord] } }

/-- A block in the life-cycle state FIELD_DIAG. -/
def diag : State := up.modBist fun b => { b with fieldDiag := true }

theorem witness_HamperRecords :
    (up.isReady .hamper = true ∧ up.heldReady .dispatch = false ∧ up.tested [6] 0 = false) ∧
    (Reaches recorded .mgmt .hmPop [] ∧ recorded.hamper.queue = aRecord :: []) ∧ Reaches diag .mgmt .hmInj [] := by decide

theorem witness_mayInject (v : Word) : mayInject diag v := .inr (by decide)

/-- A block in PRODUCTION, where a source that is always contained is no target of an injection. -/
theorem witness_mayNotInject : ¬ mayInject (up.modBist fun b => { b with lcBlown := some 2 }) 384 := by decide

/-- The root PLL in lock on a reference, with the references given. -/
def rooted (src : BitVec 2) (ref xo : Bool) : State :=
  up.modPower fun p => { p with rootLock := true, rootSrc := src, refOk := ref, xoOk := xo }

/-- A slice whose burst plays on synthesizer A, with B in the role given and a hand-over to it due. -/
def handing (b : SynthRole) : State := onSl fun _ =>
  { slOf .running Seq.reset with synth := ⟨.active, b, false, 0x02000000, 0x40000000, some (64, 0x40000000)⟩ }

theorem witness_Clocks :
    ((rooted 1 true true).power.rootLock = true ∧ (rooted 1 true true).power.rootSrc = 1 ∧ (rooted 1 true true).rd fClkctl_SRC = 0 ∧
      (rooted 1 true true).power.xoOk = true ∧ (rooted 1 true false).power.xoOk = false) ∧
    ((rooted 2 true true).power.rootLock = true ∧ (rooted 2 true true).power.rootSrc = 2 ∧ (rooted 2 true true).rd fClkctl_SRC = 0 ∧
      (rooted 2 true true).power.refOk = true ∧ (rooted 2 false true).power.refOk = false ∧ (rooted 2 true true).anyAccepted = false) ∧
    (let s := up.modPower fun p => { p with refOk := true }
     s.isReady .aon = true ∧ s.power.rootLock = false ∧ selected (s.rd fClkctl_SRC) s.power.refOk s.power.xoOk ≠ 0) ∧
    (Reaches up .mgmt .clkctl [] ∧ playing.anyAccepted = true ∧ bitsOf (3 : Word).toNat 0 2 = 3) := by decide

theorem witness_Clocks_synths :
    ((handing .standby).sl[(0 : Fin 8)].synth.seam = some (64, 0x40000000) ∧
      (if (handing .standby).sl[(0 : Fin 8)].synth.useB then (handing .standby).sl[(0 : Fin 8)].synth.a
        else (handing .standby).sl[(0 : Fin 8)].synth.b) = .standby ∧ (handing .standby).sl[(0 : Fin 8)].st = .running) ∧
    (up.sl[(0 : Fin 8)].synth.a = .recovering ∧ up.sl[(0 : Fin 8)].synth.b = .recovering) ∧
    (handing .recovering).sl[(0 : Fin 8)].synth.a = .active := by decide

theorem witness_UnitResets :
    (Reaches up (.pcie 0) .rst [] ∧ pfOrMgmt (.pcie 0) = true ∧ pfOrMgmt .mgmt = true ∧ isPf (.pcie 0) = true) ∧
    ((0x0001 : Word).getLsbD 31 = false ∧ (0x0001 : Word).getLsbD 16 = false) ∧
    ((0x10000 : Word).getLsbD 31 = false ∧ ∀ n : Fin 8, (0x10000 : Word).getLsbD n = false) ∧ up.power.on = true ∧
    (let s := { State.reset with ready := 1 }
     s.power.on = true ∧ s.isReady .aon = true ∧ s.isReady .fw = false ∧ s.slots.trial = none) ∧
    (let s := { State.reset with ready := 1, slots := { Slots.reset with trial := some true, bootedOnce := true } }
     s.isReady .aon = true ∧ s.isReady .fw = false ∧ s.slots.trial = some true) ∧
    (let s := { State.reset with ready := 0xFFFFFFFB }
     s.isReady .fw = true ∧ s.isReady .troot = true ∧ s.isReady .mgmt = false ∧ s.wasReady.getLsbD 3 = false ∧ s.power.st = .active) ∧
    (let s := { State.reset with ready := 0xFFFFFFFB, wasReady := 8, power := { Power.reset with st := .standby } }
     s.isReady .fw = true ∧ s.isReady .troot = true ∧ s.isReady .mgmt = false ∧ s.wasReady.getLsbD 3 = true ∧
       s.power.st ≠ .active) := by decide
/-- A burst with vectors 0 and 1 on their way to the pins: lane 0 is connected, its entry has a drive event to 0 and an edge strobe
of unit 0; unit 1 has the word given at time 0 or at the late edge E2. -/
def formattingWith (unit1 : Nat) : State :=
  (((onSl fun _ => { (slOf .running Seq.reset) with
      played := [aPlayed 1, aPlayed 0], lanes := Vector.replicate 32 { Lane.reset with cut := false } }).wr
    ⟨aSlWent 0 0 0 0, 0, 64⟩ (2 ^ 4 + 2 ^ 38 + unit1 * 2 ^ 40)).wr ⟨aSlWtime 0 0 0 1, 0, 16⟩ 0x9000).wr (fSlPincfg_CONN 0 0) 1
  where aPlayed (vec : Nat) : Played := ⟨vec, 0, vec, 0, vec * 2 ^ 32, 2 ^ 38, 0, false⟩

def formatting : State := formattingWith 0

theorem witness_DriveAndStrobe :
    let p : Played := ⟨0, 0, 0, 0, 0, 2 ^ 38, 0, false⟩
    (formatting.drives 0 0 = true ∧ formatting.sl[(0 : Fin 8)].find 0 = some p ∧
      driveOf (bitsOf (formatting.entry 0 p 0) (7 * 0 + 4) 3) = some .d0 ∧
      formatting.driveDue 0 0 (drivePlace formatting 0 0 p 0) = [drivePlace formatting 0 0 p 0]) ∧
    (formatting.sl[(0 : Fin 8)].playing = true ∧ formatting.scopeMutes 0 0 0 = false ∧
      bitsOf (formatting.entry 0 p 0) 38 2 = 1 ∧ bitsOf (formatting.entry 0 p 0) 50 2 = 0 ∧
      formatting.taps 0 0 0 (bitsOf (formatting.entry 0 p 0) 28 4) * 2 ^ 24 < 2 * 2 ^ 38 ∧
      formatting.unitBusy 0 0 0 p = false ∧ formatting.rd (fSlPincfg_CONN 0 0) ≠ 0 ∧ formatting.rd (fSlPincfg_CONN 0 1) = 0 ∧
      formatting.sl[(0 : Fin 8)].lanes[(0 : Fin 32)].cut = false ∧
      strobeFails (bitsOf (formatting.entry 0 p 0) 36 2) (formatting.crossed 0 0) true (.edge false false) = some true ∧
      strobeFails (bitsOf (formatting.entry 0 p 0) 36 2) (formatting.crossed 0 0) true (.edge false true) = some false) := by decide

/-- A strobe out of range, a window of its unit that the vector before holds, a window delivered. -/
theorem witness_strobe_dropped :
    (let s := formattingWith (2 ^ 10 + 2); let p : Played := ⟨0, 0, 0, 0, 0, 2 ^ 38, 0, false⟩
     bitsOf (s.entry 0 p 0) 50 2 = 1 ∧ 2 * 2 ^ 38 ≤ s.taps 0 0 0 (bitsOf (s.entry 0 p 0) 40 4) * 2 ^ 24) ∧
    (let s := (formattingWith (2 ^ 11 + 2 ^ 5)).wr ⟨aSlWtime 0 0 0 1, 0, 16⟩ 0x300
     let p : Played := ⟨0, 0, 0, 0, 0, 2 ^ 38, 0, false⟩; let r : Played := ⟨1, 0, 1, 0, 2 ^ 32, 2 ^ 38, 0, false⟩
     bitsOf (s.entry 0 p 0) 50 2 = 2 ∧ s.taps 0 0 0 (bitsOf (s.entry 0 p 0) 44 4) * 2 ^ 24 < 2 * 2 ^ 38 ∧
     s.taps 0 0 0 (bitsOf (s.entry 0 p 0) 40 4) + 256 ≤ s.taps 0 0 0 (bitsOf (s.entry 0 p 0) 44 4) ∧
     s.unitBusy 0 0 1 p = false ∧ s.sl[(0 : Fin 8)].find 1 = some r ∧ s.unitBusy 0 0 1 r = true ∧
     strobeFails (bitsOf (s.entry 0 p 0) 48 2) (s.crossed 0 0) false .windowLong = some true) := by decide

/-- The lane that an acquisition takes, and vectors that a lane's ended acquisition still mutes. -/
theorem witness_strobeMuted :
    (let s := onSl fun x => { x with scope := { Scope.reset with st := .sampling } }
     s.sl[(0 : Fin 8)].scope.st = .sampling ∧ s.rd (fSlScpcfg_LANE 0) = (0 : Fin 32).val) ∧
    (let s := onSl fun x => { x with scope := { Scope.reset with muted := 31, resume := 5 } }
     ¬ (s.sl[(0 : Fin 8)].scope.st = .settle ∨ s.sl[(0 : Fin 8)].scope.st = .sampling) ∧
       s.sl[(0 : Fin 8)].scope.muted = (31 : Fin 32).val ∧ 4 < s.sl[(0 : Fin 8)].scope.resume) := by decide

/-- A control word of an opcode. -/
def opw (op : Nat) (w : DWord) : DWord := BitVec.ofNat 64 (op * 2 ^ 56) ||| w

/-- The transfer words of every opcode, well formed in the segment that plays. -/
theorem witness_words_transfer : atHem.sl[atHem.leadOf 0].takesTransfer = true ∧
    (∀ e ∈ ([(.jmp, opw 0x08 0), (.jmp, opw 0x08 0x100000), (.fseam, opw 0x0E 0x3F), (.call, opw 0x0A 1), (.ret, opw 0x0B 0),
        (.halt, opw 0x0F 0xFF), (.loop, opw 0x0C 7), (.brc, opw 0x09 0x4000), (.brc, opw 0x09 0x4010), (.brc, opw 0x09 0xC000),
        (.mwait, opw 0x0D 0x4007), (.mwait, opw 0x0D 0x4010)] : List (Op × DWord)),
      wordIs e.1 e.2 atHem.sl[atHem.leadOf 0].pwNow = true) := by decide

/-- The vector-class words. -/
theorem witness_words_vector : playing.sl[playing.leadOf 0].takesWords = true ∧
    (∀ e ∈ ([(.rpt, opw 0x02 0x40), (.ldc, opw 0x10 0x7FFFFFFFF), (.tset, opw 0x14 63), (.lvl, opw 0x18 0x5FFFF8000),
        (.pmu, opw 0x1C 0xFF), (.tdc, opw 0x1D 0xFF), (.mkset, opw 0x20 0x103), (.mkclr, opw 0x21 3),
        (.gsync, opw 0x30 0x1FF)] : List (Op × DWord)), wordIs e.1 e.2 playing.sl[playing.leadOf 0].pwNow = true) ∧
    ∀ k : Fin 4, smaskIs k (opw 0x28 (BitVec.ofNat 64 (k * 2 ^ 32 + 0xFFFFFFFF))) playing.sl[playing.leadOf 0].pwNow = true ∧
      slatchIs k (opw 0x29 (BitVec.ofNat 64 k)) playing.sl[playing.leadOf 0].pwNow = true := by decide

/-- Transfer words to segment 0, which the burst reaches, and to segment 1, which it does not; a condition on a site that no
slot holds. -/
theorem witness_ControlFlow : atHem.sl[atHem.leadOf 0].reach.contains (wTarget (opw 0x08 0)) = true ∧
    atHem.sl[atHem.leadOf 0].reach.contains (wTarget (opw 0x08 0x100000)) = false ∧
    atHem.source (atHem.leadOf 0) (atHem.sl[atHem.leadOf 0].seq.vec - 1) (opw 0x09 0xC000) true = none := by decide

/-- A condition on the fail flag of lane 0, without and with CLR. -/
theorem witness_ConditionalFlow : ∀ op ∈ [0x09, 0x0D],
    atHem.sl[atHem.leadOf 0].reach.contains (wTarget (opw op 0x4000)) = true ∧ (opw op 0x4000).getLsbD 4 = false ∧
    atHem.source (atHem.leadOf 0) (atHem.sl[atHem.leadOf 0].seq.vec - 1) (opw op 0x4000) false = some false ∧
    atHem.sl[atHem.leadOf 0].reach.contains (wTarget (opw op 0x4010)) = true ∧ (opw op 0x4010).getLsbD 4 = true ∧
    atHem.source (atHem.leadOf 0) (atHem.sl[atHem.leadOf 0].seq.vec - 1) (opw op 0x4010) false = some false := by decide

/-- A burst with site 5 in slot 0, and entries on their way to its queues. -/
def queued (k : QKind) : State := onSl fun _ => { (slOf .running Seq.reset) with
  mapSlot := Slice.reset.mapSlot.set 0 (some 5), inflight := [⟨k, 0, 0, 0, 0⟩], mkq0 := [⟨true, 7⟩, ⟨false, 8⟩] }

theorem witness_QueueWords : (queued (.pmu 1)).sl[(queued (.pmu 1)).leadOf 0].takesWords = true ∧
    (wordIs .lvl (opw 0x18 0x5FFFF8000) (queued (.pmu 1)).sl[(queued (.pmu 1)).leadOf 0].pwNow = true ∧
      bitsOf (opw 0x18 0x5FFFF8000).toNat 14 2 = 2 ∧ ((queued (.pmu 1)).slotOf ((queued (.pmu 1)).burstOf
        ((queued (.pmu 1)).leadOf 0)) (bitsOf (opw 0x18 0x5FFFF8000).toNat 32 8)).isSome = true) ∧
    (queued (.pmu 1)).sl[(0 : Fin 8)].inflight = ⟨.pmu 1, 0, 0, 0, 0⟩ :: [] ∧
    (queued (.tdc 1)).sl[(0 : Fin 8)].inflight = ⟨.tdc 1, 0, 0, 0, 0⟩ :: [] ∧
    (queued (.lvl 0)).sl[(0 : Fin 8)].inflight = ⟨.lvl 0, 0, 0, 0, 0⟩ :: [] ∧
    (queued (.mk false true 3)).sl[(0 : Fin 8)].inflight = ⟨.mk false true 3, 0, 0, 0, 0⟩ :: [] ∧
    (queued (.pmu 1)).sl[(0 : Fin 8)].mkq0 = [] ++ ⟨true, 7⟩ :: [⟨false, 8⟩] ∧
    (∀ x ∈ ([⟨false, 8⟩] : List MkEntry), 7 < x.instant) := by decide

/-- A burst on slices 0 and 1. -/
def ganged : State := (onSl fun _ => { (slOf .running Seq.reset) with gang := [0, 1] }).modSl 1 fun _ =>
  { (slOf .running Seq.reset) with gang := [0, 1] }

theorem witness_SiteWords : ganged.sl[ganged.leadOf 1].takesWords = true ∧
    wordIs .gsync (opw 0x30 0) ganged.sl[ganged.leadOf 1].pwNow = true ∧ ganged.burstOf (ganged.leadOf 1) = [0, 1] ∧
    (∀ m ∈ ganged.burstOf (ganged.leadOf 1), ganged.inStep (ganged.leadOf 1) m = true) ∧
    (let s := ganged.modSl 1 fun x => { x with seq := { x.seq with off := 64 } }
     s.sl[s.leadOf 1].takesWords = true ∧ 1 ∈ s.burstOf (s.leadOf 1) ∧ s.inStep (s.leadOf 1) 1 = false) := by decide

/-- Slice 0 with a burst in the state given. -/
def burst (st : BurstState) (q : Seq := Seq.reset) : State := onSl fun _ => { (slOf st q) with parked := false }

theorem witness_HemBoundary :
    (∀ s ∈ [burst .running { Seq.reset with vec := 64, off := 64, hemDue := true }, burst .running { Seq.reset with hemDue := true, halted := true },
        burst .running { Seq.reset with hemDue := true, excRaised := true },
        burst .running { Seq.reset with hemDue := true, spoolStop := true },
        burst .running { Seq.reset with hemDue := true, abortHem := true }],
      s.sl[s.leadOf 0].st = .running ∧ s.sl[s.leadOf 0].seq.hemDue = true ∧ s.sl[s.leadOf 0].seq.ecc = [] ∧
        s.sl[s.leadOf 0].parked = false) ∧
    (playing.sl[playing.leadOf 0].st = .running ∧ playing.sl[playing.leadOf 0].seq.hemDue = false) := by decide

/-- A stream error due in the next hem, at the boundary before it and at the first group of that hem. -/
theorem witness_HemBoundary_ecc :
    (let s := burst .running { Seq.reset with vec := 64, off := 64, hemDue := true, ecc := [⟨true, 0, 0, 127, 127, 0⟩] }
     s.sl[s.leadOf 0].st = .running ∧ s.sl[s.leadOf 0].seq.hemDue = true ∧ s.sl[s.leadOf 0].seq.halted = false ∧
       s.sl[s.leadOf 0].seq.excRaised = false ∧ (s.goOn (s.leadOf 0)).sl[s.leadOf 0].seq.eccDue = ⟨true, 0, 0, 127, 127, 0⟩ :: []) ∧
    (let s := burst .running { Seq.reset with vec := 64, off := 64, ecc := [⟨true, 0, 0, 127, 127, 0⟩] }
     s.sl[s.leadOf 0].st = .running ∧ s.sl[s.leadOf 0].seq.hemDue = false ∧ s.sl[s.leadOf 0].seq.eccDue ≠ []) := by decide

theorem witness_HemBoundary_states : (burst .prefill).sl[(0 : Fin 8)].st = .prefill ∧
    ((burst .armed).sl[(burst .armed).leadOf 0].st = .armed ∧
      (∀ m ∈ (burst .armed).burstOf ((burst .armed).leadOf 0), (burst .armed).sl[m].st = .armed) ∧
      (burst .armed).sl[(burst .armed).leadOf 0].seq.ecc = [] ∧
      (burst .armed).rd (fSlBurst_MODE (burst .armed).sl[(burst .armed).leadOf 0].recv) ≠ 2) ∧
    ((burst .ending).sl[(0 : Fin 8)].st = .ending ∧ (burst .ending).sl[(0 : Fin 8)].parked = false) ∧
    (let s := onSl fun _ => slOf .ending Seq.reset
     s.sl[(0 : Fin 8)].st = .ending ∧ s.sl[(0 : Fin 8)].parked = true ∧ s.sl[(0 : Fin 8)].stage = [] ∧
       s.sl[(0 : Fin 8)].fails = []) := by decide

/-- A START taken on slice 0 alone, and one taken while slice 0 held a burst. -/
def taken : Check := ⟨0, false, false, none, 0, Vector.replicate 8 0⟩
def takenBusy : Check := { taken with busy := some 0 }

/-- Slice 0 in CHECKING. -/
def checking (c : Check) : State := (onSl fun x => { x with chk := some c }).wr (fPrStat_CAL_STALE 0) 1

/-- Slice 0 in CHECKING with segment 0 loaded and the calibration overridden. -/
def admissible : State := onSl fun x => { x with
  chk := some { taken with ovrCal := true }
  segs := [(0, aSeg)] }

theorem witness_Admission :
    (Reaches up .mgmt .slBcmd [0] ∧ (∀ m ∈ up.members 0, up.sl[m].chk = none) ∧ (1 : Word).getLsbD 1 = false ∧
      (1 : Word).getLsbD 2 = false) ∧
    (Reaches (checking taken) .mgmt .slBcmd [0] ∧
      (((checking taken).members 0).find? fun (k : Fin 8) => (checking taken).sl[k].chk.isSome) = some 0 ∧
      (checking taken).sameStart 0 0 = false) := by decide
/-- The checks of an admission, each with a state in which it is the one that decides. -/
theorem witness_Admission_checks :
    (checking taken).sl[(0 : Fin 8)].chk = some taken ∧ (checking taken).verdict taken = some (.calStale, 0, 0) ∧
    OneGang (checking taken) taken ∧ (∀ k ∈ (checking taken).members 0, (!(checking taken).isReady (.sl k)) = false ∧
      ((checking taken).press[k].phase != .off) = false) ∧ (checking taken).safeHeld = false ∧
    (checking taken).members 0 = [0] ∧ (checking taken).rd (fPrStat_CAL_STALE 0) = 1 ∧
    ((checking taken).wr (fSlGang_MEMBERS 0) 3).members 0 ≠ ((checking taken).wr (fSlGang_MEMBERS 0) 3).members 1 ∧
    { checking taken with ready := 0 }.isReady (.sl 0) = false ∧ takenBusy.busy = some 0 ∧
    ((checking taken).modPower fun p => { p with sbSafe := true }).safeHeld = true ∧
    ((checking taken).modPress 0 fun p => { p with phase := .running }).press[(0 : Fin 8)].phase ≠ .off := by decide

/-- A START while a member is in CHECKING: with its gang in order, with a member that is not ready, with a member of another gang. -/
theorem witness_Admission_busy :
    ((∃ m ∈ (checking taken).members 0, (checking taken).sl[m].chk ≠ none) ∧
      ((checking taken).members 0).find? (fun (k : Fin 8) => (checking taken).members k != (checking taken).members 0) = none) ∧
    (let s := { checking taken with ready := 0 }
     (s.members 0).find? (fun (k : Fin 8) => !s.isReady (.sl k)) = some 0 ∧ s.sameStart 0 0 = false) ∧
    (let s := (checking taken).wr (fSlGang_MEMBERS 0) 3
     (∃ m ∈ s.members 0, s.sl[m].chk ≠ none) ∧ (s.members 0).find? (fun (k : Fin 8) => s.members k != s.members 0) = some 1) := by decide

theorem witness_Admission_accepts : admissible.sl[(0 : Fin 8)].chk = some { taken with ovrCal := true } ∧
    admissible.verdict { taken with ovrCal := true } = none := by decide

theorem witness_AbortsAndReservations : Reaches up .mgmt .slBcmd [0] ∧ (3 : Word).getLsbD 2 = false ∧ up.isReady (.sl 0) = true ∧
    (∀ s ∈ [checking taken, burst .prefill, burst .armed, burst .running, burst .ending],
      Reaches s .mgmt .slBcmd [0] ∧ Reaches s .mgmt .slResv [0] ∧ Reaches s .mgmt .slDdist [0]) := by decide

/-- A finished DMA run whose seal is due for segment 1 of slice 0. -/
def sealing : DmaRun := ⟨⟨0, 0, 64, 0x1002, 9⟩, 64, 1, 0, true, true⟩

def sealDue : State := { (onSl fun x => { x with segs := [(1, ⟨.opened, 0, 1, false, false, 0, none⟩)] }) with
  dma := up.dma.set 0 (some sealing) }

theorem witness_Segments : Reaches up .mgmt .slSegcmd [0] ∧ Reaches sealDue .mgmt .slSegcmd [0] ∧
    sealDue.dma[(0 : Fin 16)] = some sealing ∧ sealing.finished = true ∧ sealing.sealDue = true ∧
    sealDue.dmaStalled.getLsbD 0 = false := by decide

/-- A slice whose seal queue holds a seal in the state given, for its segment 1. -/
def sealed (st : SealState) : State := onSl fun x => { x with
  segs := [(1, ⟨.verifying, 0, 1, false, false, 0, none⟩)], sealq := [⟨1, 9, st⟩], loaddone := [2 ^ 63] }

/-- Magic, version 1 and type 1 of an image of segment 0 at address 0. -/
def imaged : State := up.store 0 [0x47, 0x53, 0x48, 0x54, 1, 0, 1]

theorem witness_ImageVerification_served : sealDone ⟨1, 9, .waiting⟩ = false ∧ sealDone ⟨1, 9, .verifying⟩ = false ∧
    (sealed .verifying).drc.waiting = [] ∧ LoadServed (sealed .verifying) ∧
    (let s := { sealed .verifying with ready := 0xF }
     s.panicNow = false ∧ s.drc.panicSince = none ∧ s.imageServed 0 1 = false) := by decide

theorem witness_ImageVerification :
    ((sealed .waiting).sl[(0 : Fin 8)].sealq = [] ++ ⟨1, 9, .waiting⟩ :: [] ∧ (sealed .waiting).panicNow = false ∧
      (sealed .verifying).sl[(0 : Fin 8)].sealq = [] ++ ⟨1, 9, .verifying⟩ :: [] ∧ (sealed .verifying).panicNow = false ∧
      sealDone ⟨0, 0, .ready 5⟩ = true) ∧
    (sealed (.ready 5)).sl[(0 : Fin 8)].sealq = ⟨1, 9, .ready 5⟩ :: [] ∧
    ((sealed .waiting).busOn .mgmt = true ∧ (sealed .waiting).sees .mgmt .slLoaddone [0] = true) ∧
    (up.image (up.imageBase 0 1)).magic ≠ 0x54485347 ∧
    ((imaged.image (imaged.imageBase 0 1)).magic = 0x54485347 ∧ (imaged.image (imaged.imageBase 0 1)).version = 1 ∧
      (imaged.image (imaged.imageBase 0 1)).type = 1 ∧ (imaged.image (imaged.imageBase 0 1)).segno ≠ 1) := by decide

/-- A PATTERN region of slice 0, a region that site cores and DMA may write, and core 0 running. -/
def mapped : State := ({ up with region := (up.region.set 0 ⟨1, 0, 0, 1⟩).set 1 ⟨5, 0, 1, 1⟩ }.wr (fDpCoreCtrl_RUN 0) 1)

/-- A SCAN unit holds panic, from the time given on; a request of the management controller may wait. -/
def panicking (since : Option Nat) (w : List HbmReq) : State :=
  (mapped.modScan 0 fun u => { u with st := .run, panic := true }).modDrc fun d => { d with panicSince := since, waiting := w }

/-- A sealed segment of slice 0 in its PATTERN region, which the management controller may write. -/
theorem witness_RegionsAndMemory_sealed :
    (let s := mapped.modSl 0 fun x => { x with segs := [(0, aSeg), (1, ⟨.opened, 0, 1, false, false, 0, none⟩)] }
     ServedNow s (.dma 0) 0 64 ∧ s.mayWrite (.dma 0) 0 64 = true ∧ s.sealed 0 64 = true ∧ s.mayRead (.dma 0) 0 64 = true) ∧
    (let r : HbmReq := ⟨.dma 0, 0, 1, some [5], none, 0, true, true⟩
     let s := (mapped.modSl 0 fun x => { x with segs := [(0, aSeg)] }).modDrc fun d => { d with waiting := [r] }
     r ∈ s.drc.waiting ∧ r.wr = some [5] ∧ s.sealed r.addr 1 = true) ∧
    mapped.sealed (2 ^ 21) 4 = false := by decide

/-- A granule of a read by the management controller. -/
def aReq : HbmReq := ⟨.mgmt, 0, 64, none, none, 0, true, true⟩

theorem witness_RegionsAndMemory : Reaches mapped .mgmt .hregCtrl [0] ∧
    (ServedNow mapped (.core 0) (2 ^ 21) 4 ∧ mapped.mayWrite (.core 0) (2 ^ 21) 4 = true ∧ mapped.drc.lost[stackOf (2 ^ 22 - 8)] = false ∧
      ServedNow mapped (.core 0) (2 ^ 22 - 8) 8 ∧ mapped.mayRead (.core 0) (2 ^ 22 - 8) 8 = true) ∧
    (mapped.actsOn (.core 0) = true ∧ mapped.mayWrite (.core 0) (2 ^ 35) 4 = false ∧ mapped.mayRead (.core 0) (2 ^ 22 - 7) 8 = false) := by
  decide

theorem witness_RegionsAndMemory_others :
    (ServedNow mapped (.stream 0) 0 256 ∧ mapped.mayRead (.stream 0) 0 256 = true ∧ ∀ c, HbmBy.stream 0 ≠ .core c) ∧
    (Calm mapped ∧ mapped.mayRead (.stream 1) 0 64 = false) := by decide

theorem witness_RegionsAndMemory_order :
    ((panicking (some 0) []).actsOn .mgmt = true ∧ rtPort .mgmt = none ∧ (panicking (some 0) []).panicNow = true ∧
      (panicking (some 0) []).drc.panicSince = some 0 ∧ (panicking (some 0) []).clock - 0 ≤ 1280000 ∧
      (panicking (some 0) []).drc.waiting = [] ∧ (panicking (some 0) []).mayRead .mgmt 0 1024 = true) ∧
    (mapped.modDrc fun d => { d with waiting := [aReq] }).pick = some aReq := by decide

/-- Lane 31 staged to a slot with no site; two slots staged with one site. -/
def stagedLane : State := up.wr (fSlSmapLane_EN 0 31) 1
def stagedTwice : State := (up.wr (fSlSmapSlot_EN 0 0) 1).wr (fSlSmapSlot_EN 0 31) 1

theorem witness_SiteMap : Reaches up .mgmt .slSmapcmd [0] ∧ up.smapCheck 0 = none ∧ Reaches up .mgmt .slGang [0] ∧
    (playing.gang 0).find? (fun (m : Fin 8) => !playing.sl[m].isIdle) = some 0 ∧
    (∀ q ∈ up.gang 0, up.sl[q].isIdle = true) ∧ stagedLane.smapCheck 0 = some (2, 31) ∧
    stagedTwice.smapCheck 0 = some (3, 31) := by decide

/-- Items that the next DAC tick applies. -/
def dacDue (i : DacItem) : State := onSl fun x => { x with dacPipe := [(1, i)] }

theorem witness_PinElectronics : Reaches up .mgmt .slPincfg [0, 31] ∧ Reaches up .mgmt .slLvlpush [0] ∧
    Reaches up .mgmt .slPmu [0, 31] ∧ up.power.exitStep = 0 ∧
    (dueItems (dacDue (.level 6 65535 1)) 0 = [.level 6 65535 1] ∧ (dacDue (.level 6 65535 1)).power.exitStep = 0 ∧
      (dacDue (.level 6 65535 1)).sl[(0 : Fin 8)].scope.armed = false) ∧
    (dueItems (dacDue (.ppmu 31)) 0 = [.ppmu 31] ∧ (dacDue (.ppmu 31)).power.exitStep = 0) := by decide

/-- An ADC sequence that samples, and a TDC measurement in progress. -/
def adcRun : AdcRun := ⟨0, 7, 0, 0, 0, true, false, false⟩
def tdcRun : TdcRun := ⟨7, true, true, 0⟩

def measuring : State := onSl fun x => { x with adc := some adcRun, tdc := some tdcRun, pmuq := [⟨false, 7⟩] }

theorem witness_AdcRuns : measuring.sl[(0 : Fin 8)].pmuq = ⟨false, 7⟩ :: [] ∧ Reaches up .mgmt .slAdccmd [0] ∧
    measuring.sl[(0 : Fin 8)].adc = some adcRun ∧ adcRun.started = true ∧
    (let s := onSl fun x => { x with sumRun := true }
     s.sl[(0 : Fin 8)].adc = none ∧ s.sl[(0 : Fin 8)].sumRun = true) ∧
    (up.busOn .mgmt = true ∧ up.sees .mgmt .slAdcres [0] = true) := by decide

/-- The time base disciplined. -/
def disciplined : State := (up.modPower fun p => { p with refOk := true }).wr fXotb_DISC_EN 1

theorem witness_TdcRuns :
    (let s := onSl fun x => { x with pmuq := [⟨true, 7⟩] }
     s.sl[(0 : Fin 8)].pmuq = ⟨true, 7⟩ :: []) ∧
    (up.busOn .mgmt = true ∧ up.sees .mgmt .slTdcres [0] = true) ∧ ((-100000 : Int) ≤ 100000) ∧ Reaches measuring .mgmt .slTdccmd [0] ∧
    measuring.sl[(0 : Fin 8)].tdc = some tdcRun ∧ tdcRun.started = true ∧ tdcRun.armed = true ∧ disciplined.disciplined = true ∧
    Reaches up .mgmt .xotb [] := by decide

/-- A slice with a failing vector, a staged record, and a SPOOL region. -/
def spooling : State := { (onSl fun x => { x with
    fails := [⟨0, 0, 0, 0, 1, true, false, false, false⟩], stage := [⟨0, 0, 0, 1, 0, 0, 0⟩] }) with
  region := up.region.set 0 ⟨2, 0, 0, 1⟩ }

theorem witness_SpoolAndLatches : spooling.sl[(0 : Fin 8)].fails = ⟨0, 0, 0, 0, 1, true, false, false, false⟩ :: [] ∧
    spooling.sl[(0 : Fin 8)].stage = ⟨0, 0, 0, 1, 0, 0, 0⟩ :: [] ∧ spooling.regionOf 2 0 = some (0, 2 ^ 21) ∧
    Reaches spooling .mgmt .slSprd [0] ∧ Reaches spooling .mgmt .slSpcmd [0] ∧ Reaches spooling .mgmt .slSitelat [0] ∧
    Reaches spooling .mgmt .slSiteset [0] := by decide

/-- A drain that the DRC serves, one whose stack is down, one behind an older request of its port. -/
theorem witness_SpoolAndLatches_drain : (Rested spooling ∧ spooling.drc.waiting = [] ∧ spooling.stackUp (stackOf 0) = true) ∧
    { spooling with ready := 0xF }.stackUp (stackOf 0) = false ∧
    (let o : HbmReq := ⟨.spool 0, 0, 32, none, none, 0, true, true⟩
     let s := { spooling with ready := 0xF }.modDrc fun d => { d with waiting := [o] }
     s.regionOf 2 0 = some (0, 2 ^ 21) ∧ s.drc.waiting = [o] ∧ s.stackUp (stackOf o.addr) = false ∧
       overlaps o.addr o.len (0 + 32 * (s.rd (fSlSpwr_COUNT 0) % (2 ^ 21 / 32))) 32 = true) := by decide

/-- Scope mode in the state given, with a trigger where `trig` names one. -/
def scoping (st : ScopeState) (trig : Option Int) : State := { ((onSl fun x => { x with
    scope := { Scope.reset with st := st, trig := trig }, played := [⟨0, 0, 0, 0, 0, 2 ^ 39, 0, false⟩] }).wr (fSlScpcfg_AUTO 0) 1)
  with region := up.region.set 0 ⟨2, 0, 0, 1⟩ }

theorem witness_ScopeRuns : Reaches up .mgmt .slScpcmd [0] ∧
    (scoping .settle none).sl[(0 : Fin 8)].scope.st = .settle ∧
    (scoping .sampling none).sl[(0 : Fin 8)].find 0 = some ⟨0, 0, 0, 0, 0, 2 ^ 39, 0, false⟩ ∧
    ((scoping .sampling none).rd (fSlScpcfg_AUTO 0) = 1 ∧ (scoping .sampling none).sl[(0 : Fin 8)].scope.st = .sampling ∧
      (scoping .sampling none).sl[(0 : Fin 8)].scope.trig = none) ∧
    ((scoping .sampling (some 9)).sl[(0 : Fin 8)].scope.st = .sampling ∧
      (scoping .sampling (some 9)).sl[(0 : Fin 8)].scope.trig.isSome = true ∧
      (scoping .sampling (some 9)).regionOf 2 0 = some (0, 2 ^ 21)) ∧
    (let s := { scoping .sampling (some 9) with region := up.region }
     s.rd (fSlScphits_HITS 0) ≤ s.sl[(0 : Fin 8)].scope.hit + 1 ∧ s.regionOf 2 0 = none) := by decide
/-- A SCAN unit in the state given, at a line, with a frame of two active lines and four in all. -/
def scanning (st : ScanState) (line : Nat) (f : Scan → Scan := id) : State :=
  { ((((up.modScan 0 fun x => f { x with st := st, line := line, fetch := [0] }).wr (fScVtim_VACT 0) 2).wr (fScVtim_VTOTAL 0) 4).wr
    (fScCtrl_SMODE 0) 1) with region := up.region.set 0 ⟨3, 0, 0, 1⟩ }

/-- The end of a point: its count is stored, or waits while its stack is down. -/
theorem witness_ScopeRuns_count : Rested (scoping .sampling (some 9)) ∧ (scoping .sampling (some 9)).drc.waiting = [] ∧
    ¬ (scoping .sampling (some 9)).sl[(0 : Fin 8)].scope.hit + 1 < (scoping .sampling (some 9)).rd (fSlScphits_HITS 0) ∧
    (scoping .sampling (some 9)).stackUp (stackOf 0) = true ∧
    { scoping .sampling (some 9) with ready := 0xF }.stackUp (stackOf 0) = false := by decide

theorem witness_ScanControl :
    (Reaches up .mgmt .scCtrl [0] ∧ up.scan[(0 : Fin 4)].enabled = false ∧ Reaches up .mgmt .scCmd [0]) ∧
    (Reaches (scanning .run 0) .mgmt .scCtrl [0] ∧ (scanning .run 0).isReady (.scan 0) = true ∧
      (scanning .run 0).scan[(0 : Fin 4)].enabled = true) := by decide

theorem witness_ScanRaster :
    ((scanning .wait 0).scan[(0 : Fin 4)].fetch = 0 :: [] ∧ (scanning .wait 0).regionOf 3 0 = some (0, 2 ^ 21) ∧
      Rested (scanning .wait 0) ∧ (scanning .wait 0).drc.waiting = []) ∧
    ((scanning .primed 0).scan[(0 : Fin 4)].st = .primed ∧ (scanning .primed 0).rd (fScCtrl_SMODE 0) = 1 ∧
      (scanning .primed 0).rd (fScTstart_TICK 0) = 0) ∧
    ((scanning .run 0).scan[(0 : Fin 4)].st = .run ∧ (scanning .run 0).scan[(0 : Fin 4)].lastLine = false ∧
      (scanning .run 0).scan[(0 : Fin 4)].line + 1 < (scanning .run 0).rd (fScVtim_VACT 0)) ∧
    ((scanning .run 3 fun x => { x with lastLine := true }).scan[(0 : Fin 4)].lastLine = true ∧
      0 < (scanning .run 3).rd (fScVtim_VACT 0)) := by decide

/-- The blanking lines 2 and 3, the second of them the fetch point F, without and with a request. -/
theorem witness_ScanRaster_F :
    (∀ line ∈ [1, 2], ∀ b : Bool,
      (scanning .run line fun x => { x with base := b }).scan[(0 : Fin 4)].st = .run ∧
      (scanning .run line fun x => { x with base := b }).scan[(0 : Fin 4)].lastLine = false ∧
      (scanning .run line fun x => { x with base := b }).rd (fScVtim_VACT 0) ≤
        (scanning .run line fun x => { x with base := b }).scan[(0 : Fin 4)].line + 1 ∧
      (scanning .run line fun x => { x with base := b }).scan[(0 : Fin 4)].base = b ∧
      (scanning .run line).scan[(0 : Fin 4)].commit = false ∧ (scanning .run line).scan[(0 : Fin 4)].ovl = false) ∧
    ¬ IsF (scanning .run 1 fun x => { x with base := true }) 0 2 true ∧
    IsF (scanning .run 2 fun x => { x with base := true }) 0 3 true ∧
    ((scanning .run 0).scan[(0 : Fin 4)].enabled = true ∧ (scanning .run 0).scan[(0 : Fin 4)].st ≠ .fault) := by decide

/-- The DRC with a forced burst on pseudo-channel 63, queued refreshes and a stack under initialisation and one under repair. -/
def refreshing : State := up.modDrc fun d => { d with
  forced := d.forced.set 63 1, targeted := [(63, 2, 15, 16383)], prob := [(0, 0, 0, 0)]
  initBusy := d.initBusy.set 1 true, ppr := some 0 }

theorem witness_Refresh : (refreshing.drc.forced[(63 : Fin 64)] ≠ 0 ∧ refreshing.drc.waiting = []) ∧ ¬ windowBegins up (stackOfPc 63) ∧
    windowBegins { up with clock := 32 * 12800000 } (stackOfPc 0) ∧
    (((63 : Fin 64), (2 : Fin 3), (15 : Fin 16), 16383) ∈ refreshing.drc.targeted) ∧
    (((0 : Fin 64), (0 : Fin 3), (0 : Fin 16), 0) ∈ refreshing.drc.prob) ∧ ((95 : Int) ≤ 95 ∧ (95 : Int) < 96) := by decide

/-- Activates with nothing queued, in a window and at the start of one, and behind a refresh that is queued. -/
theorem witness_Refresh_activates : (Rested up ∧ ¬ windowBegins up (stackOfPc 63)) ∧
    (Rested { up with clock := 32 * 12800000 } ∧ windowBegins { up with clock := 32 * 12800000 } (stackOfPc 63)) ∧
    (let s := up.modDrc fun d => { d with targeted := [(63, 2, 15, 16383)] }
     s.drc.targeted = [(63, 2, 15, 16383)] ∧ s.drc.prob = []) := by decide

/-- Both stacks out of service while stack 1 is initialised. -/
def initialising : State := { refreshing with ready := 0xF }

theorem witness_StackErrorsAndRepair : (∀ u, HbmBy.dma 0 ≠ .scan u) ∧ Reaches up .mgmt .drcHbcmd [] ∧
    (initialising.drc.initBusy[(1 : Fin 2)] = true ∧ refreshing.isReady .mgmt = true ∧ refreshing.isReady .troot = true ∧
      refreshing.rd ⟨aSvcoff, 17, 1⟩ = 0 ∧ refreshing.heldReady (.hb 1) = false ∧ refreshing.tested [8] 1 = false) ∧
    (refreshing.drc.lost[(1 : Fin 2)] = false ∧ State.reset.drc.lost[(1 : Fin 2)] = true ∧ State.reset.drc.fill = true) ∧
    Reaches up .mgmt .drcTrn [1, 15, 63] ∧ Reaches up .mgmt .drcPpr [] ∧ refreshing.drc.ppr = some 0 ∧
    ((scanning .run 0).scan[(0 : Fin 4)].enabled = true ∧ (scanning .run 0).scan[(0 : Fin 4)].st ≠ .fault) := by decide

/-- Core 0 runs, with an external interrupt pending and enabled. -/
def interrupting : State :=
  ((mapped.modCore 0 fun c => { c with csr := { c.csr with mstatus := 8, mie := 0x800 } }).wr ⟨aDpCoreIrqpend 0, 0, 1⟩ 1).wr
    ⟨aDpCoreIrqen 0, 0, 1⟩ 1

theorem witness_SiteCores : Reaches up (.pcie 0) .dpCoreCtrl [7] ∧ (1 : Word).getLsbD 1 = false ∧
    Reaches up .mgmt .dpCoreCtrl [0] ∧ Reaches up .mgmt .dpCoreMsip [7] ∧ Reaches up .mgmt .dpCoreIrqpend [7] := by decide

/-- The window of a core's local SRAM, from its first to its last byte. -/
theorem witness_SiteCores_sram : up.busOn .mgmt = true ∧ 0 + 8 ≤ 0x40000 ∧ 0x3FFF8 + 8 ≤ 0x40000 := by decide

theorem witness_SiteCores_cycle : up.coreRuns 7 = false ∧
    (interrupting.coreRuns 0 = true ∧ interrupting.cores[(0 : Fin 8)].waiting = none ∧ interrupting.irqDue 0 = some 11) ∧
    up.cores[(7 : Fin 8)].machineMode = true ∧ (7 : DWord).toNat % 8 ≠ 0 := by decide

/-- Addresses of a core: its local SRAM, GET and DONE, mtime, BAR0, pattern memory. -/
theorem witness_SiteCores_places : coreAt 0x3FFF8 8 = .sram ∧ coreAt 0x40000 8 = .get ∧ coreAt 0x40008 8 = .done ∧
    coreAt 0x2000000 8 = .mtime ∧ coreAt 0x40000000 8 = .bar 0 ∧ coreAt 0x1000200000 8 = .mem 0x200000 ∧ coreAt 0x44000000 8 = .nowhere := by
  simp [coreAt, memBytes]

/-- An aligned 8-byte load and store that core 0's PMP permits. -/
abbrev Permitted (a : DWord) : Prop := a.toNat % 8 = 0 ∧ ∀ k ∈ [Reach.load, .store],
  mapped.cores[(0 : Fin 8)].csr.pmpOk mapped.cores[(0 : Fin 8)].dataMode k a.toNat 8 = true

theorem witness_SiteCores_access : Permitted 0x3FFF8 ∧ Permitted 0x40000 ∧ Permitted 0x40008 ∧ Permitted 0x2000000 ∧
    Permitted 0x40000000 ∧ Permitted 0x1000200000 ∧ Permitted 0x44000000 ∧ mapped.mayRead (.core 0) 0x200000 8 = true ∧
    mapped.mayWrite (.core 0) 0x200000 8 = true ∧ mapped.coreServed 0 0x200000 8 = true := by decide

/-- A task that waits at level 0 for group 0, with core 0 waiting at its GET port. -/
def aTask : Task := ⟨0, .mgmt, 0⟩
def granting : State := ({ (up.modCore 0 fun c => { c with waiting := some 0 }) with
  disp := ⟨[aTask], Vector.replicate 16 0, Vector.replicate 16 (Vector.replicate 8 1), false⟩ }).wr (fDpCoreCtrl_GETEN 0) 1
def grantingGroups : State := (granting.wr (fDpCoreCtrl_GROUPS 0) 1).wr (fDpCoreCtrl_RUN 0) 1

theorem witness_Dispatcher : Reaches up .mgmt .dpPush [] ∧ Reaches up .mgmt .dpCtrl [] ∧ up.isReady .dispatch = true ∧
    (up.wr (fDpCoreCtrl_RUN 0) 1).coreRuns 0 = true ∧ granting.cores[(0 : Fin 8)].waiting.isSome = true := by decide

theorem witness_Dispatcher_grants : (grantingGroups.isReady .dispatch = true ∧ grantingGroups.coreRuns 0 = true) ∧
    grantingGroups.rd (fDpCoreCtrl_GETEN 0) = 1 ∧ grantingGroups.cores[(0 : Fin 8)].waiting.isSome = true ∧
    (∀ c' : Fin 8, c' ≠ 0 → grantingGroups.cores[c'].waiting = none) ∧
    grantingGroups.bestLevel (grantingGroups.rd (fDpCoreCtrl_GROUPS 0)) = some 0 ∧
    grantingGroups.disp.ptr[(0 : Fin 16)] = 0 ∧ bitOf (grantingGroups.rd (fDpCoreCtrl_GROUPS 0)) 0 = true ∧
    grantingGroups.disp.deficit[(0 : Fin 16)][(0 : Fin 8)] = 1 ∧ grantingGroups.eligible 0 0 = aTask :: [] := by decide

/-- `grantingGroups` with another pointer and another deficit at every level. -/
def grantingAt (ptr deficit : Nat) : State := { grantingGroups with
  disp := { grantingGroups.disp with ptr := Vector.replicate 16 ptr, deficit := Vector.replicate 16 (Vector.replicate 8 deficit) } }

/-- The pointer at a usable group, before one, and at one whose deficit is spent. -/
theorem witness_Dispatcher_turns : (∀ g : Fin 8, 1 ≤ grantingGroups.rd (fDpWeight_WEIGHT g)) ∧
    (grantingAt 0 1).disp.ptr[(0 : Fin 16)] < 8 ∧ MovesBy (grantingAt 0 1) 0 0 0 ∧ MovesBy (grantingAt 7 0) 0 0 1 ∧
    MovesBy (grantingAt 0 0) 0 0 8 := ⟨by decide, by decide, by decide, by decide, by decide⟩

/-- A frame that waits or was sent. -/
def aFrame (seq : BitVec 12) (urg : Bool) : Frame := ⟨seq, 0, 0, false, urg, .join 0⟩

/-- An ACTIVE TRUSTED port that has sent frames 0 and 1. -/
def sending : State := onPort fun x => { x with
  st := .active, txseq := 2, sent := [aFrame 0 false, aFrame 1 false], wait := [aFrame 0 false, aFrame 0 true] }

/-- A PEER port in ACTIVE. -/
def peer : State := linked.wr (fClCtrl_MODE 0) 0

theorem witness_LinkDetectors : (∀ l : Fin 2, up.port[(0 : Fin 4)].lane[l].blk = true → up.port[(0 : Fin 4)].lane[l].bad ≤ 31) ∧
    (let s := onPort fun x => { x with lane := x.lane.set 1 ⟨false, false, true, 0, 40, 31, none⟩ }
     s.port[(0 : Fin 4)].lane[(1 : Fin 2)].blk = true ∧ s.port[(0 : Fin 4)].lane[(1 : Fin 2)].bad ≤ 31) := by decide

/-- ALIGN on both lanes at the limit of the skew, across the turn of the count, and beyond it. -/
theorem witness_LinkDetectors_skew :
    let x := fun (a b : Option Nat) => { Port.reset with
      lane := (Port.reset.lane.set 0 { RxLane.reset with alignAt := a }).set 1 { RxLane.reset with alignAt := b } }
    (x (some 16) (some 0)).deskew = true ∧ (x (some 0) (some 16383)).deskew = true ∧ (x (some 17) (some 0)).deskew = false ∧
      (x none (some 0)).deskew = false := by decide

theorem witness_LinkTraining : Reaches up .mgmt .clCtrl [0] ∧ (∀ p : Fin 4, Present up p ∧ Present linked p) ∧
    ((0x80000000 : Word).getLsbD 31 = true ∧ (0x80000000 : Word).getLsbD 30 = false ∧ (0 : Word).getLsbD 31 = false) ∧
    ((0xC0000000 : Word).getLsbD 31 = true ∧ (0xC0000000 : Word).getLsbD 30 = true ∧ (0xC0000000 : Word).getLsbD 29 = false ∧
      Reaches linked .mgmt .clCtrl [0] ∧ linked.port[(0 : Fin 4)].st ≠ .loopback) := by decide

theorem witness_Replay :
    (sending.port[(0 : Fin 4)].wait = [aFrame 0 false] ++ aFrame 0 true :: [] ∧ aFrame 0 true ∉ [aFrame 0 false] ∧
      sending.port[(0 : Fin 4)].st = .active ∧ sending.port[(0 : Fin 4)].sent.length < 256 ∧ RoleHolds sending 0 ∧
      (aFrame 0 true).urg = true ∧ ∀ g ∈ [aFrame 0 false], g.urg = false) ∧
    (let s := onPort fun x => { x with st := .active, sum := some (aFrame 0 false) }
     s.port[(0 : Fin 4)].wait = [] ∧ s.port[(0 : Fin 4)].sum = some (aFrame 0 false) ∧ s.port[(0 : Fin 4)].st = .active ∧
       s.port[(0 : Fin 4)].sent.length < 256 ∧ RoleHolds s 0) ∧
    (linked.port[(0 : Fin 4)].st = .active ∧ linked.port[(0 : Fin 4)].wait = [] ∧ linked.port[(0 : Fin 4)].sum = none) := by decide

/-- A port whose role is of an older generation sends its ENUM frames, and nothing where only others wait. -/
theorem witness_Replay_stale :
    (let s := sending.modPort 0 fun x => { x with roleGen := some 7 }
     s.port[(0 : Fin 4)].wait = [aFrame 0 false] ++ aFrame 0 true :: [] ∧ s.port[(0 : Fin 4)].st = .active ∧
       s.port[(0 : Fin 4)].sent.length < 256 ∧ ¬ RoleHolds s 0 ∧ (aFrame 0 true).load.kind = 2 ∧ aFrame 0 true ∉ [aFrame 0 false] ∧
       (aFrame 0 true).urg = true ∧ ∀ g ∈ [aFrame 0 false], g.load.kind = 2 → g.urg = false) ∧
    (let s := onPort fun x => { x with st := .active, roleGen := some 7, wait := [⟨0, 0, 0, false, true, .trig 0 0⟩] }
     ¬ RoleHolds s 0 ∧ ∀ f ∈ s.port[(0 : Fin 4)].wait, f.load.kind ≠ 2) := by decide

/-- An ACK and a NAK of frame 1, one that names no outstanding frame, and one with a wrong check. -/
theorem witness_Replay_acks :
    (sending.port[(0 : Fin 4)].sent = [aFrame 0 false] ++ aFrame 1 false :: [] ∧
      (∀ g ∈ [aFrame 0 false], g.seq ≠ (aFrame 1 false).seq) ∧ (aFrame 1 false).seq ≠ sending.port[(0 : Fin 4)].txseq ∧
      Exchanges sending.port[(0 : Fin 4)] ∧ (BitVec.ofNat 8 (bodyCrc 1)).toNat = bodyCrc 1 ∧
      (aFrame 1 false).seq = (1 : BitVec 16).setWidth 12) ∧
    ((BitVec.ofNat 8 (bodyCrc 2)).toNat = bodyCrc 2 ∧ (2 : BitVec 16).setWidth 12 = sending.port[(0 : Fin 4)].txseq ∧
      ∀ g ∈ sending.port[(0 : Fin 4)].sent, g.seq ≠ (2 : BitVec 16).setWidth 12) ∧
    (0 : Byte).toNat ≠ bodyCrc 1 := by decide

/-- A frame that is ahead of the one expected, one already taken, and frames that a PEER port does not accept: of a kind of
which it takes none, and of one whose bucket is empty. -/
theorem witness_Replay_received : received (.join 0 ⟨5, 0, 0, false⟩ 0) = some (0, ⟨5, 0, 0, false⟩, none) ∧
    ¬ InOrder linked 0 ⟨5, 0, 0, false⟩ ∧ ¬ InOrder linked 0 ⟨0xFFF, 0, 0, false⟩ ∧ Exchanges linked.port[(0 : Fin 4)] := by decide

theorem witness_Replay_dropped : (received (.join 0 hdr 0) = some (0, hdr, none) ∧ InOrder peer 0 hdr ∧ ¬ Passes peer 0 hdr none) ∧
    (received (.trig 0 hdr 0 0) = some (0, hdr, some 0) ∧
      ¬ Passes (peer.modPort 0 fun x => { x with tokens := x.tokens.set 0 0 }) 0 hdr (some 0)) := by decide

/-- A device that has index 5 in generation 1, with port 0 as its UP port. -/
def indexed : State := { linked.modPort 0 fun x => { x with role := .up, roleGen := some 1 } with
  enum := { Enum.reset with gen := 1, valid := true, ivalid := true, index := 5, up := some 0 } }

/-- A frame to that device. -/
def toUs : Hdr := ⟨0, 5, 9, false⟩

theorem witness_SummariesAndRemote : Accepts indexed 0 toUs (some 2) ∧ Accepts peer 0 hdr (some 2) ∧
    Reaches up .mgmt .clSumrxpop [] ∧ Accepts indexed 0 toUs none ∧ Mine indexed toUs.dst ∧ ¬ Mine indexed 9 ∧
    (Reg.find (Claim.bar0 aTmNow) = some (.tmNow, [], false) ∧ indexed.sees .remote .tmNow [] = true) ∧
    (Reg.find (Claim.bar0 0x3FFFFFC) = none) := by decide

/-- Unicast frames, on a TRUSTED port and on a PEER port; a broadcast one of each kind, to the device and past it. -/
theorem witness_SummariesAndRemote_broadcast : toUs.bcast = false ∧ peer.rd (fClCtrl_MODE 0) = 0 ∧ indexed.rd (fClCtrl_MODE 0) = 1 ∧
    (∀ b ∈ [some 2, some (1 : Fin 3), none], Accepts indexed 0 { toUs with bcast := true } b ∧
      Accepts indexed 0 { hdr with bcast := true } b) ∧ Mine indexed toUs.dst ∧ ¬ Mine indexed hdr.dst := by decide

def indexedShadow : State := { indexed with shadow := indexed.shadow.set (shadowOf .remote) (some (aTmNow, 7)) }

theorem witness_SummariesAndRemote_writes :
    (Accepts indexedShadow 0 toUs none ∧ Mine indexedShadow toUs.dst ∧ Reg.find (Claim.bar0 (aTmNow + 4)) = some (.tmNow, [], true) ∧
      indexedShadow.shadow[shadowOf .remote] = some (Claim.bar0 (aTmNow + 4) - 4, (7 : Word)) ∧ 4 ≤ Claim.bar0 (aTmNow + 4)) ∧
    (Reg.find (Claim.bar0 (aSlVclk 0)) = some (.slVclk, [0], false) ∧ Reg.slVclk ∈ plainRegs ∧ Reaches indexed .remote .slVclk [0] ∧
      (∀ f ∈ Reg.slVclk.desc.fields, f.lo + f.w ≤ 32 → f.acc = .rw → f.accepts (bitsOf (0 : Word).toNat f.lo f.w) = true) ∧
      (indexed.downFor toUs.src <|> indexed.enum.up) = some 0 ∧ Carries indexed 0 ∧ indexed.port[(0 : Fin 4)].st = .active) := by
  decide

theorem witness_SummariesAndRemote_refused : Accepts { indexed with ready := 0 } 0 toUs none ∧
    Mine { indexed with ready := 0 } toUs.dst ∧ { indexed with ready := 0 }.power.on = true ∧
    Reg.find (Claim.bar0 (aSlResv 0)) = some (.slResv, [0], false) ∧ { indexed with ready := 0 }.sees .remote .slResv [0] = true ∧
    Reg.slResv.desc.exempt = false ∧ { indexed with ready := 0 }.gateReady Reg.slResv.desc.gate [0] = false := by decide

theorem witness_EnumerationSearch : AcceptsEnum indexed 0 hdr ∧ ¬ Other indexed 1 ∧ Other indexed 2 ∧
    (indexed.rd fClEnumctl_ROOT = 0 ∧ indexed.enum.valid = true ∧ NewerGen indexed.enum.gen 0 ∧ NewerGen 2 indexed.enum.gen) ∧
    (¬ NewerGen (0x80000001 : Word) indexed.enum.gen ∧ ¬ NewerGen indexed.enum.gen (0x80000001 : Word)) := by decide

/-- The root, and a search that its host asks for. -/
theorem witness_EnumerationSearch_root : (indexed.wr fClEnumctl_ROOT 1).rd fClEnumctl_ROOT = 1 ∧
    AcceptsEnum (indexed.wr fClEnumctl_ROOT 1) 0 hdr ∧ Reaches up .mgmt .clEnumctl [] ∧
    ((0xC0000000 : Word).getLsbD 31 = true ∧ (0xC0000000 : Word).getLsbD 30 = true ∧ (0 : Word).getLsbD 31 = false) := by decide

/-- An ENUM frame in MEASURE, and a frame on a port whose role is of an older generation. -/
theorem witness_EnumerationSearch_unused :
    (received (.join 0 hdr 1) = some (0, hdr, none) ∧ isEnumFrame (.join 0 hdr 1) = true ∧
      (let s := onPort fun x => { x with st := .measure }
       Passes s 0 hdr none ∧ s.port[(0 : Fin 4)].st ≠ .active)) ∧
    (isEnumFrame (.regrd 0 hdr 0 0) = false ∧
      (let s := indexed.modPort 0 fun x => { x with roleGen := some 7 }
       Passes s 0 hdr none ∧ ¬ RoleHolds s 0)) := by decide

set_option maxRecDepth 40000 in
theorem witness_EnumerationTree : AcceptsEnum indexed 0 hdr ∧ ¬ Other indexed 1 ∧
    (giveIndices [(7, 2)] [(1, 0), (2, 1)] false).1 = [(1, 0), (2, 1)] ++ [(7, 2)] ∧
    (giveIndices [(7, 1)] [(1, 0), (2, 1)] false).1 = [(1, 0), (2, 1)] ++ [(7, 2)] := by decide

/-- A link-delay exchange in progress. -/
def exchanging (st : PortState) (k : Nat) : State := onPort fun x => { x with
  st := st, exch := [(3, 0)], rtts := List.replicate k 100 }

theorem witness_LinkDelay : Present (exchanging .measure 15) 0 ∧ Accepts (exchanging .active 0) 0 hdr (some 1) ∧
    ((exchanging .active 0).port[(0 : Fin 4)].st = .active ∧
      ((exchanging .active 0).port[(0 : Fin 4)].exch.find? fun e => e.1 == 3) = some (3, 0)) ∧
    (∀ e ∈ (exchanging .active 0).port[(0 : Fin 4)].exch, e.1 ≠ 4) := by decide

theorem witness_LinkDelay_measure :
    (Accepts (exchanging .measure 14) 0 hdr (some 1) ∧ (exchanging .measure 14).port[(0 : Fin 4)].st = .measure ∧
      ((exchanging .measure 14).port[(0 : Fin 4)].exch.find? fun e => e.1 == 3) = some (3, 0) ∧
      (exchanging .measure 14).port[(0 : Fin 4)].rtts.length < 15) ∧
    (Accepts (exchanging .measure 15) 0 hdr (some 1) ∧ (exchanging .measure 15).port[(0 : Fin 4)].rtts.length = 15 ∧
      (exchanging .measure 15).hasCap 4 = true) := by decide

theorem witness_LinkDelay_stamps : (aFrame 0 false).load.kind ≠ 0x11 ∧ (Payload.dresp 0 0 0).kind = 0x11 := by decide

/-- A trigger pending at 100 for a burst that waits for it on slice 0. -/
def aTrig : Trig := ⟨3, 100, 0, none⟩
def triggered : State := (onSl fun _ => { (slOf .armed Seq.reset) with trigArmed := [100] }).modTime fun x => { x with pend := [aTrig] }

theorem witness_Triggers : Accepts peer 0 hdr (some 0) ∧ peer.rd (fClCtrl_MODE 0) = 0 ∧ Accepts linked 0 hdr (some 0) ∧
    linked.rd (fClCtrl_MODE 0) = 1 ∧ hdr.bcast = false ∧ ({ hdr with bcast := true } : Hdr).bcast = true ∧
    Accepts linked 0 { hdr with bcast := true } (some 0) ∧ Reaches up .mgmt .tmTrigcmd [] ∧ (0x80000000 : Word).getLsbD 31 = true ∧
    up.time.pend = [] := by decide

theorem witness_Triggers_action : Earliest triggered 100 ∧
    (∀ x ∈ acting triggered 100, triggered.rd (fTmTrigact_ABORT x.num.toNat) = 0) := by decide

theorem witness_Triggers_starts : StartsAt triggered 0 100 ∧ ∀ n : Fin 8, n ≠ 0 → triggered.sl[n].st ≠ .armed := by decide

/-- A burst of slices 0 and 7 in state `st` with a trigger pending whose action aborts both. -/
def aborting (st : BurstState) : State := ((burst st).modTime fun x => { x with pend := [aTrig] }).wr (fTmTrigact_ABORT 3) 0x81

theorem witness_Triggers_aborts : ∀ st ∈ [BurstState.prefill, .armed, .running],
    ((aborting st).time.pend = [aTrig] ∧ bitOf ((aborting st).rd (fTmTrigact_ABORT aTrig.num.toNat)) (0 : Fin 8).val = true) ∧
    (∀ k : Fin 8, bitOf ((aborting st).rd (fTmTrigact_ABORT aTrig.num.toNat)) k = true →
      (aborting st).burstOf k = (aborting st).burstOf 0 ∧ (aborting st).sl[k].lead = (aborting st).sl[(0 : Fin 8)].lead ∨
        ∀ m ∈ (aborting st).burstOf 0, m ∉ (aborting st).burstOf k ∧
          ((aborting st).sl[k].st = .running → m ∉ (aborting st).burstOf (aborting st).sl[k].lead)) ∧
    (aborting st).sl[(0 : Fin 8)].lead ∈ (aborting st).burstOf 0 ∧
      (∀ m ∈ (aborting st).burstOf 0, (aborting st).sl[m].st = (aborting st).sl[(0 : Fin 8)].st) ∧
      (aborting st).sl[(aborting st).sl[(0 : Fin 8)].lead].seq.hemDue = false ∧
      (aborting st).sl[(aborting st).sl[(0 : Fin 8)].lead].seq.ecc = [] := by
  intro st h
  refine ⟨?_, ?_, ?_⟩ <;> · revert st
                            decide

/-- A device whose time unit is enabled, with an ACTIVE TRUSTED port. -/
def timed (role : TimeRole) : State := (linked.modTime fun x => { x with role := role }).wr fTmCtrl_EN 1

/-- Another device's serial number. -/
theorem other_serial (x : DWord) : x + 1 ≠ x := by bv_omega

theorem witness_TimeFollowing : Accepts (timed .none) 0 hdr (some 1) ∧ (timed .none).rd fTmCtrl_EN = 1 ∧
    MaySource (timed .none) 0 ∧ linked.rd fTmCtrl_EN = 0 ∧ ¬ MaySource up 0 ∧ Quiet (timed .none) ∧
    (timed .none).time.pend = [] ∧ (timed .master).time.role = .master := by decide
/-- The one port that may be a source is the best, whatever it heard. -/
theorem witness_TimeFollowing_sync (d : DWord) :
    SourceIs (timed .follower) (heardNow (timed .follower) 0 0 d 1 1) 0 ⟨0, d, 1, 1, 0⟩ := by
  have hk : ∀ k : Fin 4, k ≠ 0 → ¬ MaySource (timed .follower) k := by decide
  have hs : (timed .follower).time.srcValid = false := by decide
  have h0 : IsBest (timed .follower) (heardNow (timed .follower) 0 0 d 1 1) 0 ⟨0, d, 1, 1, 0⟩ := by
    refine ⟨⟨rfl, by decide, by show (0 : Nat) < 0 + 640000; decide⟩, fun k x hx => ?_⟩
    by_cases h : k = 0
    · subst h
      obtain ⟨hx, -⟩ := hx
      cases hx
      exact ⟨by simp [Better, Ranks], by simp⟩
    · exact absurd hx.2.1 (hk k h)
  simp only [SourceIs, hs, Bool.false_and]
  exact h0

/-- A master hears of a lower and of a higher priority. -/
theorem witness_TimeFollowing_ranks (d : DWord) : ¬ Ranks (0, d) (ownMaster ((timed .master).wr fTmCtrl_PRIO 7)) ∧
    Ranks (8, d) (ownMaster ((timed .master).wr fTmCtrl_PRIO 7)) := by
  have h : (ownMaster ((timed .master).wr fTmCtrl_PRIO 7)).1 = 7 := by decide
  show ¬ ((ownMaster _).1 < 0 ∨ 0 = (ownMaster _).1 ∧ d < _) ∧ ((ownMaster _).1 < 8 ∨ _)
  rw [h]; simp

theorem witness_PtpClock : Reaches up .mgmt .tmSnapcmd [] ∧ Reaches up .mgmt .tmPhccmd [] ∧ Reaches up .mgmt .tmSrvoff [] ∧
    Reaches up .mgmt .tmSrvctl [] ∧ Reaches up .mgmt .tmTxtspop [] := by decide

/-- Channel 0 enabled with a descriptor in its ring, regions that its partition may write and read. -/
def dmaOn : State := ({ up with region := up.region.set 0 ⟨5, 0, 0, 1⟩ }.wr (fDmaCtrl_EN 0) 1).wr (fDmaTail_INDEX 0) 1

/-- A descriptor of `len` bytes to pattern memory, and one to the host. -/
def descIn (len : Word) : DmaDesc := ⟨0x1000, 0, len, 0, 0⟩
def descOut (at_ : DWord) : DmaDesc := ⟨0x1000, at_, 64, 1, 0⟩

theorem witness_DmaTransfers : Turn dmaOn 0 ∧ Served dmaOn ∧ dmaOn.dma[(0 : Fin 16)] = none := by decide

theorem witness_DmaTransfers_short : BadDesc dmaOn 0 (descIn 0) ∧ BadDesc dmaOn 0 (descIn 63) := by decide

theorem witness_DmaTransfers_long : BadDesc dmaOn 0 (descIn 0x40000040) :=
  .inr (.inr (.inr (.inr (.inl (by decide)))))

theorem witness_DmaTransfers_in : ¬ BadDesc dmaOn 0 (descIn 64) ∧ (descIn 64).ctrl.getLsbD 0 = false ∧
    dmaOn.mayWrite (.dma 0) (chunkAt ⟨descIn 64, 0, 0, 0, false, false⟩) (chunkLen ⟨descIn 64, 0, 0, 0, false, false⟩) = true := by
  decide

theorem witness_DmaTransfers_longest : ¬ BadDesc dmaOn 0 (descIn 0x40000000) := by decide

theorem witness_DmaTransfers_out : ¬ BadDesc dmaOn 0 (descOut 0) ∧ (descOut 0).ctrl.getLsbD 0 = true ∧ (∀ k : Fin 2, dmaOn.drc.lost[k] = false) ∧
    dmaOn.mayRead (.dma 0) (chunkAt ⟨descOut 0, 0, 0, 0, false, false⟩) (chunkLen ⟨descOut 0, 0, 0, 0, false, false⟩) = true := by
  decide

theorem witness_DmaTransfers_barred : ¬ BadDesc dmaOn 0 (descOut 0x80000000) ∧
    dmaOn.mayRead (.dma 0) (chunkAt ⟨descOut 0x80000000, 0, 0, 0, false, false⟩)
      (chunkLen ⟨descOut 0x80000000, 0, 0, 0, false, false⟩) = false := by decide

/-- Chunks of a run in progress, which may be the last. -/
theorem witness_DmaTransfers_run :
    (let s := { dmaOn with dma := dmaOn.dma.set 0 (some ⟨descIn 128, 64, 1, 0, false, false⟩) }
     Turn s 0 ∧ Served s ∧ s.dma[(0 : Fin 16)] = some ⟨descIn 128, 64, 1, 0, false, false⟩ ∧
       s.mayWrite (.dma 0) (chunkAt ⟨descIn 128, 64, 1, 0, false, false⟩) (chunkLen ⟨descIn 128, 64, 1, 0, false, false⟩) = true) ∧
    (∀ i < chunkLen ⟨descOut 0, 0, 0, 0, false, false⟩, dmaOn.drc.lost[stackOf (chunkAt ⟨descOut 0, 0, 0, 0, false, false⟩ + i)] = false) := by
  decide

/-- A descriptor that has ended and whose STATUS word is due. -/
def dmaEnded : State := { dmaOn with dma := dmaOn.dma.set 0 (some { sealing with sealDue := false }) }

theorem witness_DmaTransfers_status : dmaEnded.dma[(0 : Fin 16)] = some { sealing with sealDue := false } ∧
    dmaEnded.dmaStalled.getLsbD 0 = false := by decide

theorem witness_Partitions : Reaches up (.pcie 0) .prst [] ∧ bitsOf (0x80 : Word).toNat 0 8 = 2 ^ (7 : Fin 8).val ∧
    Reaches up (.pcie 0) .part [7] ∧ pfOrMgmt (.pcie 0) = true ∧ (7 : Fin 8) ≠ 0 ∧
    (∀ n : Fin 8, up.sl[n].st = .idle ∧ up.sl[n].chk = none) ∧ (∀ u : Fin 4, up.scan[u].st = .off) ∧
    (∀ c : Fin 16, up.dma[c] = none) ∧
    (∀ q : Fin 8, q ≠ 7 → q ≠ 0 → ∀ i ∈ partBits, ¬ ((2 : Word).getLsbD i = true ∧ (up.reg (aPart q)).getLsbD i = true)) ∧
    (up.writeReg (.pcie 0) .part [7] .lo ((2 : Word).setWidth 64)).partsWhole = true := by decide

/-- SR-IOV present, and absent; partition 0, which holds what no other does. -/
theorem witness_Partitions_function : up.hasCap 10 = true ∧ HasFunction up 7 ∧ Reaches up (.pcie 0) .part [0] ∧
    ({ up with caps := 0 }.hasCap 10 = false ∧ Reaches { up with caps := 0 } .mgmt .part [7] ∧ ¬ HasFunction { up with caps := 0 } 7) := by
  decide

/-- A PART write that takes a slice whose burst runs. -/
theorem witness_Partitions_busy : (1 : Word).getLsbD 0 ≠ (playing.reg (aPart 7)).getLsbD 0 ∧ playing.sl[(0 : Fin 8)].st ≠ .idle ∧
    Reaches playing .mgmt .part [0] := by decide

/-- Slices 0 and 1 in one gang, of which partition 7 is to take slice 0; SCAN unit 0 attached to slice 0. -/
theorem witness_Partitions_spans :
    (let s := (up.wr (fSlGang_MEMBERS 0) 3).wr (fSlGang_MEMBERS 1) 3
     let w := s.writeReg .mgmt .part [7] .lo 1
     ∃ n : Fin 8, ∃ m ∈ w.gang n, w.ownerSl m ≠ w.ownerSl n) ∧
    (let w := up.writeReg .mgmt .part [7] .lo 1
     ∃ u : Fin 4, ∃ n ∈ w.attached u, w.ownerSl n ≠ w.ownerScan u) := by decide

/-- Mailbox p with a command in progress, behind those that a partition reset took from it. -/
def asked (p : Fin 8) (op : Nat) (orphans : List Orphan) : State := { up with mbox := up.mbox.set p ⟨some (op, 8), orphans⟩ }

/-- Mailbox p idle, with the commands that a partition reset took from it still running. -/
def orphaned (p : Fin 8) (orphans : List Orphan) : State := { up with mbox := up.mbox.set p ⟨none, orphans⟩ }

theorem witness_Mailboxes : (∀ p : Fin 8, Reaches up .mgmt .mgCmd [p] ∧ up.mbox[p].op = none) ∧
    bitsOf (0x00000FE0 : Word).toNat 0 12 = 4064 ∧ bitsOf (0x00000FE1 : Word).toNat 0 12 = 4065 ∧
    ((asked 7 1 []).mbox[(7 : Fin 8)] = ⟨some (1, 8), []⟩ ∧ (asked 7 1 []).isReady .mgmt = true) ∧
    (Reaches (orphaned 0 [⟨2, 8, none⟩]) .mgmt .mgCmd [0] ∧ (orphaned 0 [⟨2, 8, none⟩]).mbox[(0 : Fin 8)].op = none ∧
      (orphaned 0 [⟨2, 8, none⟩]).mbox[(0 : Fin 8)].orphans ≠ [] ∧ Begun (orphaned 0 [⟨2, 8, none⟩]) 0 ∧ ∀ p : Fin 8, Begun up p) := by decide

/-- A command taken from a mailbox, its only one and the first of several. -/
theorem witness_Mailboxes_discarded : ((orphaned 7 [⟨2, 8, none⟩]).mbox[(7 : Fin 8)].orphans = ⟨2, 8, none⟩ :: [] ∧
      (orphaned 7 [⟨2, 8, none⟩]).mbox[(7 : Fin 8)].op = none) ∧
    ((asked 7 1 [⟨2, 8, none⟩, ⟨3, 8, some []⟩]).mbox[(7 : Fin 8)].orphans = ⟨2, 8, none⟩ :: [⟨3, 8, some []⟩]) := by decide

/-- Mailbox 0 with a command that runs and an update of n bytes behind it, both taken from it. -/
def updateNext (n : Word) : State := orphaned 0 [⟨2, 8, none⟩, ⟨0x20, 4, some [n]⟩]

/-- Whatever the size the update asks for, one that fits its slot or one that does not. -/
theorem witness_Mailboxes_next (n : Word) :
    (updateNext n).mbox[(0 : Fin 8)].orphans = ⟨2, 8, none⟩ :: ⟨0x20, 4, some [n]⟩ :: [] ∧
      (updateNext n).isReady .mgmt = true := ⟨rfl, (by decide : up.isReady .mgmt = true)⟩

/-- A remote request that has its response; a device below port 0. -/
def answered : State := { asked 0 0x10 [] with remote := some ⟨9, 0, 0, some (0, 7)⟩ }

theorem witness_Mailboxes_remote : indexed.remotePort 9 = some 0 ∧ ¬ Mine indexed 9 ∧ up.mbox[(0 : Fin 8)] = Mbox.reset ∧
    answered.mbox[(0 : Fin 8)] = ⟨some (0x10, 8), []⟩ ∧ answered.isReady .mgmt = true ∧
    answered.remote = some ⟨9, 0, 0, some (0, 7)⟩ := by decide

/-- An update in progress, of an image of 4,064 bytes. -/
def updating : State := { up with slots := { Slots.reset with writing := some 4064 } }

theorem witness_FirmwareUpdate : Reaches updating .mgmt .mgCmd [0] ∧ updating.mbox[(0 : Fin 8)] = Mbox.reset ∧
    updating.slots.writing = some 4064 ∧ bitsOf (0x00000FE0 : Word).toNat 0 12 = 4064 ∧
    (reqOf updating 0).toNat + 4064 ≤ 4064 ∧ ((asked 0 0x22 []).mbox[(0 : Fin 8)] = ⟨some (0x22, 8), []⟩ ∧
      (asked 0 0x22 []).isReady .mgmt = true) ∧ up.slots.writing = none := by decide

theorem witness_ManagementSafety : (up.power.on = true ∧ up.isReady .mgmt = true ∧ up.power.rails = true ∧
      up.power.peOff = false ∧ up.power.st ≠ .standby ∧ (List.replicate 17 (0 : Int)).length = 17) ∧
    (up.modPower fun p => { p with peOff := true }).power.peOff = true ∧ { up with ready := 0 }.isReady .mgmt = false ∧
    Reaches up (.pcie 0) .ilk [] := by decide

/-- Port e up, with a descriptor in each ring. -/
def ethOn (e : Fin 2) : State := ((({ up with ethLink := Vector.replicate 2 true }.wr (fEtCtrl_EN e) 1).wr (fEtTxtail_INDEX e) 1).wr
  (fEtRxtail_INDEX e) 1)

theorem witness_Ethernet : ∀ e : Fin 2, (ethOn e).rd (fEtCtrl_EN e) = 1 ∧ (ethOn e).ethLink[e] = true ∧
    (ethOn e).rd (fEtTxhead_INDEX e) ≠ (ethOn e).rd (fEtTxtail_INDEX e) ∧
    (ethOn e).rd (fEtRxhead_INDEX e) ≠ (ethOn e).rd (fEtRxtail_INDEX e) ∧ Served (ethOn e) := by decide

/-- Port 0 with its rings at 0xBF0000000, whose descriptors name a buffer at 0xBF0000100. -/
def ethBuf : State :=
  (((ethOn 0).wr (fEtTxring_BASE 0) 0x2FC00000).wr (fEtRxring_BASE 0) 0x2FC00000).store 0xBF0000000 [0x00, 0x01, 0x00, 0xF0, 0x0B, 0, 0, 0, 64, 0]

theorem witness_Ethernet_buffers : Served ethBuf ∧ ethBuf.ethHeld = [] ∧ inPrivate (txDesc ethBuf 0) 16 = true ∧
    inPrivate (rxDesc ethBuf 0) 16 = true ∧ ethBuf.num (txDesc ethBuf 0) 8 = 0xBF0000100 ∧
    txDesc ethBuf 0 + 16 ≤ ethBuf.num (txDesc ethBuf 0) 8 ∧ rxDesc ethBuf 0 + 16 ≤ ethBuf.num (rxDesc ethBuf 0) 8 ∧
    ethBuf.mayWrite (.eth 0) (ethBuf.num (rxDesc ethBuf 0) 8) (16 + min 2033 2032) = true := by decide

/-- Its enabling and rings stand. -/
theorem witness_Ethernet_rings : ethBuf.rd (fEtCtrl_EN 0) = 1 ∧ ethBuf.ethLink[(0 : Fin 2)] = true ∧
    ethBuf.rd (fEtTxhead_INDEX 0) ≠ ethBuf.rd (fEtTxtail_INDEX 0) ∧ ethBuf.rd (fEtRxhead_INDEX 0) ≠ ethBuf.rd (fEtRxtail_INDEX 0) := by
  decide

theorem witness_Ethernet_receives : Sends ethBuf 0 ∧ Receives ethBuf 0 2033 ∧ Receives ethBuf 0 65535 ∧ (∀ k : Fin 2, ethBuf.drc.lost[k] = false) ∧
    (let s := { ethBuf with ethHeld := [⟨0, [], none, false⟩] }
     s.ethHeld = ⟨0, [], none, false⟩ :: [] ∧ Served s ∧ Receives s 0 0) := by decide

/-- A port with nothing to send, without its link, in an empty ring, not enabled; a stack out of service. -/
theorem witness_Ethernet_nothing : (Calm up ∧ up.drc.waiting = [] ∧ ¬ Sends up 0 ∧ up.ethLink[(0 : Fin 2)] = false) ∧
    (let s := (ethOn 0).wr (fEtCtrl_EN 0) 0
     Calm s ∧ s.drc.waiting = [] ∧ s.ethLink[(0 : Fin 2)] = true ∧ s.rd (fEtCtrl_EN 0) = 0) ∧
    (let s := (ethOn 0).wr (fEtRxtail_INDEX 0) 0
     s.ethLink[(0 : Fin 2)] = true ∧ s.rd (fEtRxhead_INDEX 0) = s.rd (fEtRxtail_INDEX 0)) ∧
    (let s := { ethBuf with ready := 0xF }
     Calm s ∧ s.drc.waiting = [] ∧ s.rd (fEtCtrl_EN 0) = 1 ∧ s.ethLink[(0 : Fin 2)] = true ∧
       s.rd (fEtRxhead_INDEX 0) ≠ s.rd (fEtRxtail_INDEX 0) ∧ s.isReady (.hb 1) = false) := by decide

/-- A ring outside the firmware-private area; panic held, and a frame that waits. -/
theorem witness_Ethernet_refused : inPrivate (txDesc (ethOn 1) 1) 16 = false ∧
    ((ethOn 0).modScan 0 fun u => { u with st := .run, panic := true }).panicNow = true ∧
    { ethOn 0 with ethHeld := [⟨0, [], none, false⟩] }.ethHeld ≠ [] := by decide

/-- A patch load in progress. -/
def patching : State := { up with patchLoading := true }.wr fUpaddr_ADDR 0xBF0000000

/-- The first bytes of the header of a patch of one word for this device. -/
def patchHead : List Byte := [0x50, 0x55, 0x48, 0x54, 1, 0, Config.stepping, 0, 0, 0, 0, 0, 0, 0, 0, 0, 1, 0, 0, 0]

theorem witness_Microcode : Reaches up .mgmt .upcmd [] ∧ (1 : Word).getLsbD 1 = false ∧ up.hasCap 12 = true ∧
    patching.patchLoading = true ∧ up.patchLoading = false ∧ (∀ k : Fin 2, patching.drc.lost[k] = false) ∧
    Served patching ∧ patching.mayRead .patch (patching.rd fUpaddr_ADDR) (patching.rd fUplen_BYTES) = true := by decide

/-- A load of an image outside the firmware-private area; the patch facility absent. -/
theorem witness_Microcode_refused :
    (let s := patching.wr fUpaddr_ADDR 0
     s.patchLoading = true ∧ Served s ∧ s.mayRead .patch (s.rd fUpaddr_ADDR) (s.rd fUplen_BYTES) = false) ∧
    (let s := { up with caps := 0, ready := 0xFFFF00FF }
     Reaches s .mgmt .upcmd [] ∧ s.hasCap 12 = false ∧ ∀ n : Fin 8, s.isReady (.sl n) = false) ∧
    (let s := { patching with ready := 0xF }
     Calm s ∧ s.drc.waiting = [] ∧ s.isReady (.hb 0) = false) ∧ (2 : Word).getLsbD 1 = true := by decide

/-- A patch of one word, with the next-address selector and the COMMIT given, that traps ROM address 0x40, and an engine that stands
there, in the service routine given. -/
def aPatch (nsel commit : Nat) : Patch := ⟨[BitVec.ofNat 160 (0x40 * 2 ^ 146 + nsel * 2 ^ 143 + commit * 2 ^ 97)], [0x80400000]⟩
def atWord (nsel commit : Nat) (service : Option Nat) : State := { (burst .running { Seq.reset with
  micro := { Micro.reset with addr := some 0x40, entry := some 0x80, service := service } }).modSl 0 fun x => { x with patched := true } with
  patch := some (aPatch nsel commit) }

/-- The word of the patch in a `Patch` is the one that the engine fetches. -/
theorem witness_Microcode_words : (∀ k ∈ [2, 3, 6], ((atWord k 1 none).sl[(0 : Fin 8)].seq.micro.addr = some 0x40 ∧ EngineRuns (atWord k 1 none) 0 ∧
      fetched (atWord k 1 none) 0 0x40 = 0x2000)) ∧
    mNsel (fetchedWord (atWord 2 0 none) 0 0x40) = 2 ∧
    (mNsel (fetchedWord (atWord 3 1 none) 0 0x40) = 3 ∧ mCommit (fetchedWord (atWord 3 1 none) 0 0x40) = true ∧
      (atWord 3 1 none).sl[(0 : Fin 8)].seq.micro.pend = [] ∧ (atWord 3 1 none).sl[(0 : Fin 8)].seq.micro.queue = []) ∧
    (mNsel (fetchedWord (atWord 6 1 (some 0xA0)) 0 0x40) = 6 ∧ (atWord 6 1 (some 0xA0)).sl[(0 : Fin 8)].seq.micro.pend = [] ∧
      (atWord 6 1 (some 0xA0)).sl[(0 : Fin 8)].seq.micro.service ≠ none ∧
      (atWord 6 1 (some 0xA0)).sl[(0 : Fin 8)].seq.micro.entry = some 0x80) := by decide

theorem witness_Microcode_dispatch : Micro.reset.addr = none ∧ Micro.reset.pend = [] ∧ Micro.reset.queue = [] ∧
    (atWord 2 0 none).sl[(0 : Fin 8)].seq.micro.addr ≠ none := by decide

/-- Words whose conditions are those of the stack, a loop counter and the gang; a WAIT word that the ROM may hold. -/
theorem witness_Microcode_conditions : (∀ k ∈ [2, 3, 4, 6], mCond (BitVec.ofNat 160 (k * 2 ^ 137)) = k) ∧
    (let w := BitVec.ofNat 160 (2 * 2 ^ 143 + 5 * 2 ^ 137)
     romOk 0 w = true ∧ mNsel w = 2) := by decide

theorem witness_Microcode_checks : patchCheck patchHead 324 true false [] = (0, some ⟨[0], []⟩) := by
  simp [patchCheck, patchHead]; decide

/-- Press of slice 0 in the phase given. -/
def pressing (k : PressPhase) : State := up.modPress 0 fun p => { p with phase := k }

theorem witness_PressCalibration : Reaches up .mgmt .prCtrl [7] ∧ (pressing .running).press[(0 : Fin 8)].phase = .running ∧
    (pressing .restored).press[(0 : Fin 8)].phase = .restored := by decide

/-- A full BIST of the last instance of a target, and a rinse step in progress. -/
def bisting (k i : Nat) : State := up.modBist fun b => { b with full := some (k, i, true) }
def rinsing : State := up.modBist fun b => { b with rinse := some (1, 0) }

theorem witness_SelfTests : Reaches up .mgmt .prBistCmd [] ∧ ((1 : Word).getLsbD 30 = false ∧ (1 : Word).getLsbD 31 = false) ∧
    (∀ k ∈ [1, 2, 3, 4, 5, 6, 7, 8], (bisting k (bistInsts k - 1)).bist.full = some (k, bistInsts k - 1, true) ∧
      bistInsts k - 1 < bistInsts k) ∧ (bitsOf (0x100 : Word).toNat 0 8 < bistInsts (bitsOf (0x100 : Word).toNat 8 8) ∧
      (0x100 : Word).getLsbD 31 = false) ∧ rinsing.bist.rinse = some (1, 0) ∧ (bisting 7 3).bist.rinse ≠ some (7, 3) := by decide

theorem witness_SelfTests_rinse : diag.rd fPrBistRinse_EN = 1 ∧ diag.rinseAllowed = true ∧ diag.bist.rinse = none ∧
    diag.isReady .hamper = true ∧ diag.bist.next < 24 := by decide

theorem witness_LifeCycle : Reaches up .mgmt .prBistTokcmd [] ∧ Reaches up .mgmt .prDarnCmd [] ∧
    (up.modBist fun b => { b with token := some (0, 5) }).bist.token = some (0, 5) := ⟨by decide, by decide, rfl⟩

/-- STANDBY asked for, and every slice in SLICE_PARK. -/
def standbyAsked : State := up.wr ⟨aPwrctl, 31, 1⟩ 1
def allParked : State := up.wr ⟨aPwrctl, 0, 8⟩ 0xFF

theorem witness_PowerStates :
    (Reaches up (.pcie 0) .pwrctl [] ∧ pfOrMgmt (.pcie 0) = true ∧ up.rd ⟨aPwrctl, 31, 1⟩ = 0 ∧
      bitsOf (0x80000000 : Word).toNat 0 8 = up.rd ⟨aPwrctl, 0, 8⟩ ∧ bitsOf (0x80000000 : Word).toNat 8 23 = 0) ∧
    (Reaches standbyAsked .mgmt .pwrctl [] ∧ standbyAsked.rd ⟨aPwrctl, 31, 1⟩ = 1 ∧
      bitsOf (0 : Word).toNat 0 8 = standbyAsked.rd ⟨aPwrctl, 0, 8⟩) ∧
    (bitsOf (0xFF : Word).toNat 31 1 = up.rd ⟨aPwrctl, 31, 1⟩ ∧ bitsOf (0xFF : Word).toNat 8 23 = 0 ∧
      ∀ n : Fin 8, up.rd ⟨aPwrctl, n.val, 1⟩ = 1 → (0xFF : Word).getLsbD n = true) ∧
    (Reaches allParked .mgmt .pwrctl [] ∧ bitsOf (0 : Word).toNat 31 1 = allParked.rd ⟨aPwrctl, 31, 1⟩ ∧
      ∀ n : Fin 8, (0 : Word).getLsbD n = true → allParked.rd ⟨aPwrctl, n.val, 1⟩ = 1) := by decide

/-- The power state and the step of an exit from STANDBY. -/
def power (st : PwrState) (k : Nat) : State := up.modPower fun p => { p with st := st, exitStep := k }

theorem witness_PowerStates_steps :
    ((power .entering 0).power.st = .entering ∧ (power .entering 0).power.exitAsked = false ∧
      ∀ n : Fin 8, (power .entering 0).sl[n].lvlq = [] ∧ (power .entering 0).sl[n].dacPipe = []) ∧
    (let s := (power .entering 0).modPower fun p => { p with exitAsked := true }
     s.power.exitAsked = true ∧ s.power.peAsk = false) ∧
    ((power .exiting 0).power.st = .exiting ∧ (power .exiting 0).power.exitStep = 0) ∧
    ((power .exiting 4).power.st = .exiting ∧ (power .exiting 4).power.exitStep = 4) := by decide

theorem witness_PowerStates_service : Reaches up (.pcie 0) .svcoff [] ∧ pfOrMgmt (.pcie 0) = true ∧
    (∀ b ∈ [8, 9, 10, 11, 16, 17], (0xFF : Word).getLsbD b = (up.reg aSvcoff).getLsbD b) ∧
    (∀ b ∈ [0, 1, 2, 3, 4, 5, 6, 7, 16, 17], (0xF00 : Word).getLsbD b = (up.reg aSvcoff).getLsbD b) ∧
    (∀ b : Fin 12, (0x30000 : Word).getLsbD b = (up.reg aSvcoff).getLsbD b) := by decide

theorem witness_PowerStates_svcoff : svcSets up 0x30000 16 ∧ svcSets up 0x30000 17 := by decide

theorem witness_StepRunsFront : { up with pending := [.dacTick, .refLost] }.pending = .dacTick :: [.refLost] := rfl

theorem witness_IdleStep : (up.pending = [] ∧ (up.clock + 1) % 8 ≠ 0 ∧ up.isReady .troot = true ∧ up.ethHeld = [] ∧
      up.drc.waiting = [] ∧ up.drc.panicSince = none) ∧ (State.reset.pending = [] ∧ State.reset.isReady .troot = false) := by decide

/-- A core clears a flag of type RW1C that was 1. -/
theorem witness_IdleStep_flags : State.clearedBits (up.wr fClSumrxstat_DROP 1) up = [(aClSumrxstat, 2 ^ fClSumrxstat_DROP.lo)] := by
  decide

theorem witness_StepKeepsInv : State.reset.Inv ∧ ∃ t, step up = .next t := ⟨by decide, _, rfl⟩

theorem witness_ReadAfterWrite : (fSlFfvec_VEC 0).lo + (fSlFfvec_VEC 0).w ≤ 64 := by decide

theorem witness_NoOtherAccess : (up.modPower fun p => { p with on := false }).power.on = false ∧
    (Instr.registerWrite .mgmt 0 4 none).wf = true ∧ aTmNow % 4 = 0 ∧ up.power.on = true ∧
    (Reg.find aBoot = some (.boot, [], false) ∧ up.sees (.pcie 7) .boot [] = false) := by decide

/-! ## One step each, with results worked out from the rules named -/

/-- The state after a command. -/
def after (c : Instr) (s : State) : State := match exec c s with | .next t => t | _ => s

/-- R205: PW runs from 2^39 at 100 MHz to 2^34 at 3.2 GHz. -/
theorem test_period_word : pwOf 0x02000000 = 2 ^ 39 ∧ pwOf 0x40000000 = 2 ^ 34 := by decide

/-- R71: the sum 98,304 is allowed and 98,305 is not; the eight slices and four units hold 7 × 7,680 + 4 × 400 beside RESV[0]. -/
theorem test_resv_budget :
    (after (.resvWrite .mgmt 0 (98304 - 7 * 7680 - 4 * 400)) up).rd (fSlResv_BW 0) = 98304 - 7 * 7680 - 4 * 400 ∧
    (after (.resvWrite .mgmt 0 (98305 - 7 * 7680 - 4 * 400)) up).rd (fSlResv_BW 0) = 7680 := by decide

/-- R56: a write to a control register of a function that is not ready is dropped. -/
theorem test_not_ready : (after (.registerWrite (.pcie 0) (aSlPark 0) 4 (some 3)) State.reset).rd (fSlPark_MODE 0) = 0 := by decide

/-- R16: the low word's read keeps the high word for the next read of the same initiator. -/
theorem test_shadow : (after (.shadowHighWordRead .mgmt (aTmNow + 4)) (after (.shadowLowWordRead .mgmt aTmNow)
    (up.modTime fun x => { x with tick := 0x500000007 }))).busData = 5 ∧
    (after (.shadowLowWordRead .mgmt aTmNow) (up.modTime fun x => { x with tick := 0x500000007 })).busData = 7 := by decide

/-- R145: LDC of 7 into L3. -/
theorem test_ldc : (after (.ldc 0 0 (opw 0x10 0x300000007)) playing).rd (fSlLc_VALUE 0 3) = 7 := by decide

/-- R140: JMP to the segment that the burst is in begins it anew. -/
theorem test_jmp : (after (.jmp 0 (opw 0x08 0)) atHem).sl[(0 : Fin 8)].seq.off = 0 ∧
    (after (.jmp 0 (opw 0x08 0)) atHem).sl[(0 : Fin 8)].seq.vec = 64 := by decide

/-- R404: the host's doorbell of core 3 sets bit 16 of its IRQPEND, and no other core's. -/
theorem test_doorbell : (after (.doorbell (.pcie 0) 3 0x10000) up).reg (aDpCoreIrqpend 3) = 0x10000 ∧
    (after (.doorbell (.pcie 0) 3 0x10000) up).reg (aDpCoreIrqpend 2) = 0 := by decide

/-- R406: a task pushed waits behind the one that waits already. -/
theorem test_push : (after (.push .mgmt 0x100000000000009) granting).disp.waiting.length = 2 ∧
    ((after (.push .mgmt 0x100000000000009) granting).disp.waiting.head?.map Task.desc) = some 0 := by decide

/-- R565: POP takes the oldest record. -/
theorem test_pop : (after (.pop .mgmt 0) recorded).hamper.queue = [] := by decide

/-- R89, R94: a write stores its bytes in address order and no other. -/
theorem test_hbm_write : (after (.hbmAccess .mgmt 5 2 ⟨some [0x34, 0x12], none⟩) up).byte 5 = 0x34 ∧
    (after (.hbmAccess .mgmt 5 2 ⟨some [0x34, 0x12], none⟩) up).byte 6 = 0x12 ∧
    (after (.hbmAccess .mgmt 5 2 ⟨some [0x34, 0x12], none⟩) up).byte 7 = up.byte 7 := by decide

/-- R508: ILK_A low with ILK_B high is OPEN, and the pin safe state is held. -/
theorem test_interlock : (after (.interlockChange false true) up).safeHeld = true := by decide

/-- R591: a slice reset's bit reads back as 0. -/
theorem test_slice_self_clears : (after (.slice .mgmt 1) up).reg aRst = 0 := by decide

/-- R435: an ACK of frame 0 removes it and keeps frame 1. -/
theorem test_ack : (after (.ack 0 0 (BitVec.ofNat 8 (bodyCrc 0))) sending).port[(0 : Fin 4)].sent = [aFrame 1 false] := by decide

/-- A step takes the front of the queue; on an empty queue the clock moves on. -/
theorem test_step_front : (match step { up with pending := [.ldc 0 0 0, .dacTick] } with | .next t => t.pending.length | _ => 9) = 1 ∧
    (match step up with | .next t => t.clock | _ => 9) = 1 := by decide

end Sys2Proof.Tests
end

section
/-! SUPPORT. Which register and part an address names (spec/00 R15 to R17), and the width and the places of a register's fields. -/

namespace Sys2Proof.Machine

open Sys2Proof

/-! ## Addresses -/

/-- The indices that `dimsAt` finds give the offset back. -/
theorem dimsAt_offset {ds : List (Nat × Nat)} {o : Nat} {ix : List Nat} (h : dimsAt ds o = some ix) :
    ((ds.zip ix).map fun e => e.1.2 * e.2).sum = o := by
  induction ds generalizing o ix with
  | nil =>
    simp only [dimsAt] at h
    split at h <;> cases h
    simp [*]
  | cons d ds ih =>
    obtain ⟨c, st⟩ := d
    simp only [dimsAt] at h
    split at h
    next jx hj =>
      split at h <;> cases h
      simp [ih hj, Nat.div_add_mod]
    next => cases h

/-- What a search of a block's registers finds: the register, at the address asked for, in a word that it has. -/
theorem Reg.findIn_sound {l : List Reg} {a : Nat} {r : Reg} {ix : List Nat} {hi : Bool}
    (h : Reg.findIn l a = some (r, ix, hi)) :
    a = r.addr ix + (if hi then 4 else 0) ∧ (hi = true → r.desc.wide = true) := by
  induction l with
  | nil => cases h
  | cons q l ih =>
    simp only [Reg.findIn] at h
    split at h
    · exact ih h
    next hbase =>
      split at h
      next jx hj =>
        cases h
        have := dimsAt_offset hj
        simp only [Reg.addr]
        simp; omega
      next =>
        split at h
        next hw =>
          obtain ⟨hwide, hle⟩ := Bool.and_eq_true_iff.1 hw
          split at h
          next jx hj =>
            cases h
            have := dimsAt_offset hj
            have := of_decide_eq_true hle
            simp only [Reg.addr]
            exact ⟨by simp; omega, fun _ => hwide⟩
          next => exact ih h
        next => exact ih h

theorem Reg.find_lo_addr {a : Nat} {r : Reg} {ix : List Nat} (h : Reg.find a = some (r, ix, false)) : a = r.addr ix :=
  (Reg.findIn_sound h).1

theorem Reg.find_hi_addr {a : Nat} {r : Reg} {ix : List Nat} (h : Reg.find a = some (r, ix, true)) : a = r.addr ix + 4 :=
  (Reg.findIn_sound h).1

theorem Reg.find_hi_wide {a : Nat} {r : Reg} {ix : List Nat} (h : Reg.find a = some (r, ix, true)) : r.desc.wide = true :=
  (Reg.findIn_sound h).2 rfl

/-- No register lies past BAR0 (spec/00 R32). -/
theorem Reg.find_lt_bar0 {a : Nat} {x : Reg × List Nat × Bool} (h : Reg.find a = some x) : a < bar0 := by
  refine Decidable.byContradiction fun hge => ?_
  have hnone : Reg.ofBlock a = [] := by
    unfold bar0 at hge
    unfold Reg.ofBlock
    simp only [show ¬ a < 0x100000 by omega, show ¬ a < 0x1000000 by omega, show ¬ a < 0x2000000 by omega,
      show ¬ a < 0x2400000 by omega, show ¬ a < 0x2800000 by omega, show ¬ a < 0x2c00000 by omega,
      show ¬ a < 0x3000000 by omega, show ¬ a < 0x3400000 by omega, show ¬ a < 0x3800000 by omega,
      show ¬ a < 0x3c00000 by omega, show ¬ a < 0x4000000 by omega, if_false]
  simp [Reg.find, hnone, Reg.findIn] at h

/-- The window of the cores' SRAM begins after BAR0 (assumption 53). -/
theorem sramAt_bar0 (ini : Initiator) {a : Nat} (size : Nat) (h : a < bar0) : sramAt ini a size = none := by
  unfold sramAt
  rw [if_neg (by omega)]

/-- The address that an access names: the register's, or its high word's. -/
theorem names_addr {a size : Nat} {r : Reg} {ix : List Nat} {p : Part} (h : Claim.Names a size r ix p) : a = r.at ix p := by
  cases p with
  | lo => exact Reg.find_lo_addr h.2.2
  | hi => exact Reg.find_hi_addr h.2.2
  | all => exact Reg.find_lo_addr h.2.2.1

theorem names_lt_bar0 {a size : Nat} {r : Reg} {ix : List Nat} {p : Part} (h : Claim.Names a size r ix p) : a < bar0 := by
  cases p with
  | lo => exact Reg.find_lt_bar0 h.2.2
  | hi => exact Reg.find_lt_bar0 h.2.2
  | all => exact Reg.find_lt_bar0 h.2.2.1

/-! ## The register map's tables -/

/-- The bits of a register (spec/00 R15). -/
def Reg.bits (r : Reg) : Nat := if r.desc.wide then 64 else 32

theorem Reg.bits_le (r : Reg) : r.bits ≤ 64 := by unfold Reg.bits; split <;> omega

/-- Every field lies within its register. -/
theorem Reg.field_le_bits (r : Reg) : ∀ f ∈ r.desc.fields, f.lo + f.w ≤ r.bits := by cases r <;> decide

/-- No bit belongs to two fields of a register. -/
abbrev FieldD.Apart (f g : FieldD) : Prop := f.lo + f.w ≤ g.lo ∨ g.lo + g.w ≤ f.lo

theorem Reg.fields_apart (r : Reg) : r.desc.fields.Pairwise FieldD.Apart := by cases r <;> decide

/-- The words from an address upward are none of the copies of ACCERR and ACCERR_ADDR. -/
abbrev OffAcc (a : Nat) : Prop := 0x101000 ≤ a ∨ a + 8 ≤ 0x100400

/-- A register with an RW field is no copy of ACCERR or ACCERR_ADDR. -/
theorem Reg.offAcc_or_no_rw (r : Reg) (ix : List Nat) : OffAcc (r.addr ix) ∨ ∀ f ∈ r.desc.fields, f.acc ≠ .rw := by
  have table : (0x101000 ≤ r.desc.base ∨ r.desc.dims = [] ∧ r.desc.base + 8 ≤ 0x100400) ∨
      ∀ f ∈ r.desc.fields, f.acc ≠ .rw := by
    cases r <;> decide
  rcases table with (h | ⟨hd, h⟩) | h
  · exact .inl (.inl (Nat.le_trans h (Nat.le_add_right _ _)))
  · exact .inl (.inr (by simpa [Reg.addr, hd] using h))
  · exact .inr h

end Sys2Proof.Machine
end

section
/-! SUPPORT. A write on the fields of a register, field by field and by access type (spec/00 R18 to R22). -/

namespace Sys2Proof.Machine

open Sys2Proof Claim

/-! ## Bits of a field -/

/-- Bits that agree give the same number. -/
theorem bitsOf_congr {x y : DWord} {lo w : Nat} (h : ∀ i, lo ≤ i → i < lo + w → x.getLsbD i = y.getLsbD i) :
    bitsOf x.toNat lo w = bitsOf y.toNat lo w := by
  refine Nat.eq_of_testBit_eq fun i => ?_
  simp only [testBit_bitsOf, BitVec.testBit_toNat]
  by_cases hi : i < w
  · rw [h (lo + i) (by omega) (by omega)]
  · simp [hi]

/-- The same number says that the bits agree. -/
theorem getLsbD_of_bitsOf {x y : DWord} {lo w i : Nat} (h : bitsOf x.toNat lo w = bitsOf y.toNat lo w) (h1 : lo ≤ i)
    (h2 : i < lo + w) : x.getLsbD i = y.getLsbD i := by
  have := congrArg (fun n => n.testBit (i - lo)) h
  simpa only [testBit_bitsOf, show i - lo < w by omega, show lo + (i - lo) = i by omega, decide_true, Bool.true_and,
    BitVec.testBit_toNat] using this

@[simp] theorem FieldD.getLsbD_mask (f : FieldD) (i : Nat) :
    f.mask.getLsbD i = (decide (i < 64) && (decide (f.lo ≤ i) && decide (i < f.lo + f.w))) := by
  rw [FieldD.mask, BitVec.getLsbD_ofNat, Nat.testBit_mul_two_pow, Nat.testBit_two_pow_sub_one]
  by_cases h : f.lo ≤ i
  · simp only [show i - f.lo < f.w ↔ i < f.lo + f.w by omega]
  · simp [h]

/-- The bits of a value outside a field. -/
def FieldD.Outside (f : FieldD) (i : Nat) : Prop := i < f.lo ∨ f.lo + f.w ≤ i

theorem FieldD.getLsbD_mask_outside {f : FieldD} {i : Nat} (h : f.Outside i) : f.mask.getLsbD i = false := by
  rw [FieldD.getLsbD_mask]
  rcases h with h | h
  · simp [show ¬ f.lo ≤ i by omega]
  · simp [show ¬ i < f.lo + f.w by omega]

theorem FieldD.getLsbD_mask_inside {f : FieldD} {i : Nat} (hf : f.lo + f.w ≤ 64) (h1 : f.lo ≤ i) (h2 : i < f.lo + f.w) :
    f.mask.getLsbD i = true := by
  simp [h1, h2, show i < 64 by omega]

/-! ## One field -/

/-- Bits that a mask does not reach keep what they held. -/
theorem getLsbD_merge_of_mask_false {x y k : DWord} {i : Nat} (hk : k.getLsbD i = false) :
    ((x &&& ~~~k) ||| (y &&& k)).getLsbD i = x.getLsbD i := by
  by_cases hi : i < 64
  · rw [BitVec.getLsbD_or, BitVec.getLsbD_and, BitVec.getLsbD_and, BitVec.getLsbD_not, hk]
    simp only [hi, decide_true, Bool.not_false, Bool.and_true, Bool.and_false, Bool.or_false]
  · rw [BitVec.getLsbD_of_ge _ _ (by omega), BitVec.getLsbD_of_ge _ _ (by omega)]

/-- Bits that a mask reaches take the new ones. -/
theorem getLsbD_merge_of_mask_true {x y k : DWord} {i : Nat} (hk : k.getLsbD i = true) :
    ((x &&& ~~~k) ||| (y &&& k)).getLsbD i = y.getLsbD i := by
  rw [BitVec.getLsbD_or, BitVec.getLsbD_and, BitVec.getLsbD_and, BitVec.getLsbD_not, hk]
  simp only [Bool.not_true, Bool.and_true, Bool.and_false, Bool.false_or]

theorem getLsbD_clear_of_mask_false {x y : DWord} {i : Nat} (hy : y.getLsbD i = false) :
    (x &&& ~~~y).getLsbD i = x.getLsbD i := by
  have h : x &&& ~~~y = (x &&& ~~~y) ||| (0 &&& y) := by simp
  rw [h, getLsbD_merge_of_mask_false hy]

/-- A field's write leaves every other bit as it was. -/
theorem FieldD.write_outside (f : FieldD) (cur v m : DWord) {i : Nat} (h : f.Outside i) :
    (f.write cur v m).1.getLsbD i = cur.getLsbD i := by
  have hmask := FieldD.getLsbD_mask_outside h
  have hreach : (f.mask &&& m).getLsbD i = false := by rw [BitVec.getLsbD_and, hmask, Bool.false_and]
  unfold FieldD.write
  dsimp only
  split
  · rfl
  · split
    · split
      · exact getLsbD_merge_of_mask_false hreach
      · exact getLsbD_merge_of_mask_false hmask
    · exact getLsbD_clear_of_mask_false (by rw [BitVec.getLsbD_and, hreach, Bool.and_false])
    all_goals rfl

/-- A field's reset value in its place. -/
theorem FieldD.bitsOf_reset (f : FieldD) (hf : f.lo + f.w ≤ 64) (cur : DWord) :
    bitsOf ((cur &&& ~~~f.mask) ||| (BitVec.ofNat 64 (f.reset * 2 ^ f.lo) &&& f.mask)).toNat f.lo f.w = f.reset % 2 ^ f.w := by
  refine Nat.eq_of_testBit_eq fun i => ?_
  rw [testBit_bitsOf, BitVec.testBit_toNat, Nat.testBit_mod_two_pow]
  by_cases hi : i < f.w
  · rw [getLsbD_merge_of_mask_true (FieldD.getLsbD_mask_inside hf (by omega) (by omega)), BitVec.getLsbD_ofNat,
      Nat.testBit_mul_two_pow]
    simp [show f.lo + i < 64 by omega]
  · simp [hi]

/-- A field after its write holds what its access type makes of the written bits. -/
theorem FieldD.bitsOf_write (f : FieldD) (hf : f.lo + f.w ≤ 64) (cur v m : DWord) :
    bitsOf (f.write cur v m).1.toNat f.lo f.w = fieldAfter cur v m f := by
  unfold FieldD.write fieldAfter
  dsimp only
  by_cases hk : f.mask &&& m = 0
  · rw [if_pos hk, if_pos hk]
  · rw [if_neg hk, if_neg hk]
    cases f.acc with
    | rw =>
      dsimp only
      split
      · rfl
      · exact FieldD.bitsOf_reset f hf cur
    | rw1c => rfl
    | ro => rfl
    | wo => rfl
    | rw1s => rfl

/-- A field's write says whether it was given an encoding that it does not list. -/
theorem FieldD.write_rejects (f : FieldD) (cur v m : DWord) : (f.write cur v m).2 = fieldRejects cur v m f := by
  unfold FieldD.write fieldRejects
  dsimp only
  split
  next h => simp [h]
  next h =>
    split
    next ha => split <;> simp_all
    all_goals simp_all

/-- The bits of RW and RW1C fields under a write depend on no other bit of the register. -/
theorem bitsOf_written_congr {f : FieldD} {cur cur' v m : DWord} (hc : bitsOf cur.toNat f.lo f.w = bitsOf cur'.toNat f.lo f.w) :
    bitsOf ((cur &&& ~~~(f.mask &&& m)) ||| (v &&& (f.mask &&& m))).toNat f.lo f.w =
      bitsOf ((cur' &&& ~~~(f.mask &&& m)) ||| (v &&& (f.mask &&& m))).toNat f.lo f.w :=
  bitsOf_congr fun i h1 h2 => by
    have := getLsbD_of_bitsOf hc h1 h2
    simp [this]

theorem bitsOf_cleared_congr {f : FieldD} {cur cur' v m : DWord} (hc : bitsOf cur.toNat f.lo f.w = bitsOf cur'.toNat f.lo f.w) :
    bitsOf (cur &&& ~~~(v &&& (f.mask &&& m))).toNat f.lo f.w = bitsOf (cur' &&& ~~~(v &&& (f.mask &&& m))).toNat f.lo f.w :=
  bitsOf_congr fun i h1 h2 => by
    have := getLsbD_of_bitsOf hc h1 h2
    simp [this]

theorem fieldAfter_congr {f : FieldD} {cur cur' v m : DWord} (hc : bitsOf cur.toNat f.lo f.w = bitsOf cur'.toNat f.lo f.w) :
    fieldAfter cur v m f = fieldAfter cur' v m f := by
  unfold fieldAfter
  simp only [bitsOf_written_congr hc, bitsOf_cleared_congr hc, hc]

theorem fieldRejects_congr {f : FieldD} {cur cur' v m : DWord} (hc : bitsOf cur.toNat f.lo f.w = bitsOf cur'.toNat f.lo f.w) :
    fieldRejects cur v m f = fieldRejects cur' v m f := by
  unfold fieldRejects
  simp only [bitsOf_written_congr hc]

/-- A write of one field leaves a field apart from it as it was. -/
theorem FieldD.bitsOf_write_apart {f g : FieldD} (h : f.Apart g) (cur v m : DWord) :
    bitsOf (f.write cur v m).1.toNat g.lo g.w = bitsOf cur.toNat g.lo g.w :=
  bitsOf_congr fun i h1 h2 => FieldD.write_outside f cur v m (by unfold FieldD.Outside; unfold FieldD.Apart at h; omega)

/-! ## All fields of a list -/

/-- The first field acts, then the others. -/
theorem writeFields_cons (f : FieldD) (fs : List FieldD) (cur v m : DWord) :
    writeFields (f :: fs) cur v m =
      ((writeFields fs (f.write cur v m).1 v m).1, (f.write cur v m).2 || (writeFields fs (f.write cur v m).1 v m).2) := by
  have gen : ∀ (l : List FieldD) (c : DWord) (b : Bool),
      l.foldl (fun a f => let r := f.write a.1 v m; (r.1, a.2 || r.2)) (c, b) =
        ((writeFields l c v m).1, b || (writeFields l c v m).2) := by
    intro l
    induction l with
    | nil => simp [writeFields]
    | cons g l ih =>
      intro c b
      simp only [writeFields, List.foldl_cons, Bool.false_or] at ih ⊢
      rw [ih _ (b || _), ih _ (g.write c v m).2]
      simp [Bool.or_assoc]
  rw [writeFields, List.foldl_cons]
  simpa using gen fs (f.write cur v m).1 (f.write cur v m).2

/-- A bit that belongs to no field of the list stays. -/
theorem writeFields_outside {fs : List FieldD} (v m : DWord) {i : Nat} (h : ∀ f ∈ fs, f.Outside i) (cur : DWord) :
    (writeFields fs cur v m).1.getLsbD i = cur.getLsbD i := by
  induction fs generalizing cur with
  | nil => rfl
  | cons f fs ih =>
    rw [writeFields_cons, ih fun g hg => h g (by simp [hg]), FieldD.write_outside f cur v m (h f (by simp))]

/-- A field apart from every field of the list stays. -/
theorem bitsOf_writeFields_apart {fs : List FieldD} {g : FieldD} (v m : DWord) (h : ∀ f ∈ fs, f.Apart g) (cur : DWord) :
    bitsOf (writeFields fs cur v m).1.toNat g.lo g.w = bitsOf cur.toNat g.lo g.w :=
  bitsOf_congr fun i h1 h2 => writeFields_outside v m
    (fun f hf => by have := h f hf; unfold FieldD.Outside; unfold FieldD.Apart at this; omega) cur

/-- Each field of the list holds what its access type makes of the written bits. -/
theorem bitsOf_writeFields {fs : List FieldD} (v m : DWord) (ha : fs.Pairwise FieldD.Apart)
    (hw : ∀ f ∈ fs, f.lo + f.w ≤ 64) (cur : DWord) {g : FieldD} (hg : g ∈ fs) :
    bitsOf (writeFields fs cur v m).1.toNat g.lo g.w = fieldAfter cur v m g := by
  induction fs generalizing cur with
  | nil => cases hg
  | cons f fs ih =>
    obtain ⟨hf, ha⟩ := List.pairwise_cons.1 ha
    rw [writeFields_cons]
    rcases List.mem_cons.1 hg with rfl | hg
    · rw [bitsOf_writeFields_apart v m fun f hf' => (hf f hf').symm, FieldD.bitsOf_write g (hw g (by simp))]
    · rw [ih ha (fun x hx => hw x (by simp [hx])) _ hg, fieldAfter_congr (FieldD.bitsOf_write_apart (hf g hg) cur v m)]

/-- RSVD is due where one of the fields was given an encoding that it does not list. -/
theorem writeFields_rejects {fs : List FieldD} (v m : DWord) (ha : fs.Pairwise FieldD.Apart) (cur : DWord) :
    (writeFields fs cur v m).2 = fs.any (fieldRejects cur v m) := by
  induction fs generalizing cur with
  | nil => rfl
  | cons f fs ih =>
    obtain ⟨hf, ha⟩ := List.pairwise_cons.1 ha
    rw [writeFields_cons, List.any_cons, FieldD.write_rejects, ih ha]
    have hrest : fs.any (fieldRejects (f.write cur v m).1 v m) = fs.any (fieldRejects cur v m) :=
      Bool.eq_iff_iff.2 <| by
        simp only [List.any_eq_true]
        exact exists_congr fun g => and_congr_right fun hg => by
          rw [fieldRejects_congr (FieldD.bitsOf_write_apart (hf g hg) cur v m)]
    exact congrArg (fieldRejects cur v m f || ·) hrest

/-- Two fields of a list in which no bit belongs to two are apart. -/
theorem FieldD.apart_of_mem {fs : List FieldD} (ha : fs.Pairwise FieldD.Apart) {f g : FieldD} (hf : f ∈ fs) (hg : g ∈ fs)
    (hne : f ≠ g) : f.Apart g := by
  induction fs with
  | nil => cases hf
  | cons x fs ih =>
    obtain ⟨hx, ha⟩ := List.pairwise_cons.1 ha
    rcases List.mem_cons.1 hf with rfl | hf' <;> rcases List.mem_cons.1 hg with rfl | hg'
    · exact absurd rfl hne
    · exact hx g hg'
    · exact (hx f hf').symm
    · exact ih ha hf' hg'

/-- Where only some fields of a list take part, those hold what their access types make of the written bits, and the others stay. -/
theorem bitsOf_writeFields_filter {fs : List FieldD} (v m : DWord) (ha : fs.Pairwise FieldD.Apart)
    (hw : ∀ f ∈ fs, f.lo + f.w ≤ 64) (part : FieldD → Bool) (cur : DWord) {g : FieldD} (hg : g ∈ fs) :
    bitsOf (writeFields (fs.filter part) cur v m).1.toNat g.lo g.w =
      if part g = true then fieldAfter cur v m g else bitsOf cur.toNat g.lo g.w := by
  split
  next hp =>
    exact bitsOf_writeFields v m (ha.filter part) (fun f hf => hw f ((List.mem_filter.1 hf).1)) cur (List.mem_filter.2 ⟨hg, hp⟩)
  next hp =>
    refine bitsOf_writeFields_apart v m (fun f hf => ?_) cur
    obtain ⟨hf, hfp⟩ := List.mem_filter.1 hf
    exact FieldD.apart_of_mem ha hf hg fun h => hp (h ▸ hfp)

end Sys2Proof.Machine
end

section
/-! SUPPORT. Values of whole registers, and what recording a broken rule in ACCERR does and leaves (spec/00 R20 to R28). -/

namespace Sys2Proof.Machine

open Sys2Proof Claim

/-! ## Updates of the register words alone -/

/-- The states differ in register words at most. -/
abbrev OnlyRegs (s t : State) : Prop := t = { s with regs := t.regs }

theorem OnlyRegs.refl (s : State) : OnlyRegs s s := rfl

theorem OnlyRegs.of_regs (s : State) (m : RegFile) : OnlyRegs s { s with regs := m } := rfl

theorem OnlyRegs.trans {s t u : State} (h : OnlyRegs s t) (k : OnlyRegs t u) : OnlyRegs s u :=
  Eq.trans k (congrArg (fun x : State => { x with regs := u.regs }) h)

theorem OnlyRegs.setReg {s t : State} (h : OnlyRegs s t) (a : Nat) (v : Word) : OnlyRegs s (t.setReg a v) :=
  h.trans (.of_regs t _)

theorem OnlyRegs.wr {s t : State} (h : OnlyRegs s t) (f : Fld) (v : Nat) : OnlyRegs s (t.wr f v) := by
  unfold State.wr
  split
  · exact h.setReg _ _
  · split
    · exact h.setReg _ _
    · exact (h.setReg _ _).setReg _ _

theorem OnlyRegs.wrs {s t : State} (h : OnlyRegs s t) (l : List (Fld × Nat)) : OnlyRegs s (t.wrs l) := by
  unfold State.wrs
  induction l generalizing t with
  | nil => exact h
  | cons e l ih => exact ih (h.wr e.1 e.2)

theorem OnlyRegs.accErr {s t : State} (h : OnlyRegs s t) (ini : Initiator) (b : AccBit) (a : Nat) :
    OnlyRegs s (t.accErr ini b a) := by
  unfold State.accErr State.accErrAt
  dsimp only
  split
  · exact h.wr _ _
  · exact (h.wr _ _).wrs _

theorem OnlyRegs.setVal {s t : State} (h : OnlyRegs s t) (r : Reg) (ix : List Nat) (v : DWord) :
    OnlyRegs s (t.setVal r ix v) := by
  unfold State.setVal
  dsimp only
  split
  · exact (h.setReg _ _).setReg _ _
  · exact h.setReg _ _

/-! ## ACCERR -/

theorem copyOf_le (ini : Initiator) : copyOf ini ≤ 16 := by cases ini <;> simp only [copyOf] <;> omega

theorem AccBit.pos_lt (b : AccBit) : b.pos < 8 := by cases b <;> decide

theorem AccBit.pos_inj {b b' : AccBit} (h : b.pos = b'.pos) : b = b' := by
  revert h
  cases b <;> cases b' <;> decide

/-- A field whose words are none of the copies' is apart from what a broken rule writes. -/
theorem apart_accFlds_of_words {g : Fld} (hg : ∀ a ∈ g.words, a < 0x100400 ∨ 0x101000 ≤ a) (ini : Initiator) :
    ∀ f ∈ accFlds (copyOf ini), f.Apart g := by
  have hc := copyOf_le ini
  intro f hf
  refine .inl fun a ha haf => ?_
  have h := hg a ha
  simp only [List.mem_cons, List.not_mem_nil, or_false] at hf
  rcases hf with rfl | rfl | rfl | rfl <;>
    simp [Fld.words, fAccerrxAddr_ADDR, fAccerrxAddr_SPACE, fAccerrxAddr_VALID, aAccerrx, aAccerrxAddr] at haf <;> omega

theorem apart_accFlds {g : Fld} (hg : OffAcc g.addr) (ini : Initiator) : ∀ f ∈ accFlds (copyOf ini), f.Apart g := by
  refine apart_accFlds_of_words (fun a ha => ?_) ini
  have hgw : a = g.addr ∨ a = g.addr + 4 := by
    unfold Fld.words at ha
    split at ha
    · simp_all
    · split at ha <;> simp_all
  omega

/-- The bit of a copy of ACCERR that stands for a broken rule. -/
abbrev accBitFld (ini : Initiator) (b : AccBit) : Fld := ⟨aAccerrx (copyOf ini), b.pos, 1⟩

theorem accBitFld_words (ini : Initiator) (b : AccBit) : (accBitFld ini b).words = [aAccerrx (copyOf ini)] := by
  have hb := b.pos_lt
  simp [Fld.words, show ¬ 32 ≤ b.pos by omega, show b.pos + 1 ≤ 32 by omega]

/-- A field apart from a copy's bits is apart from each of them. -/
theorem accBitFld_apart {ini : Initiator} {b : AccBit} {g : Fld} (h : Fld.Apart ⟨aAccerrx (copyOf ini), 0, 8⟩ g) :
    (accBitFld ini b).Apart g := by
  have hb := b.pos_lt
  rcases h with h | ⟨e, h⟩
  · exact .inl (by rw [accBitFld_words]; simpa [Fld.words] using h)
  · exact .inr ⟨e, by simp only at h ⊢; omega⟩

/-- What a broken rule does (R25, R27): its bit, and the address where the copy holds none. -/
theorem State.accErr_eq (s : State) (ini : Initiator) (b : AccBit) (a : Nat) :
    s.accErr ini b a = if s.rd (fAccerrxAddr_VALID (copyOf ini)) = 0 then
        (s.wr (accBitFld ini b) 1).wrs [(fAccerrxAddr_ADDR (copyOf ini), a), (fAccerrxAddr_SPACE (copyOf ini), 0),
          (fAccerrxAddr_VALID (copyOf ini), 1)]
      else s.wr (accBitFld ini b) 1 := by
  have hv : (s.wr (accBitFld ini b) 1).rd (fAccerrxAddr_VALID (copyOf ini)) = s.rd (fAccerrxAddr_VALID (copyOf ini)) :=
    State.rd_wr_ne s _ _ 1 (by rw [accBitFld_words]; simp [Fld.words, fAccerrxAddr_VALID, aAccerrx, aAccerrxAddr]; omega)
  unfold State.accErr State.accErrAt
  simp only [State.on, hv, b2n, bne_iff_ne, ne_eq, ite_not]
  split <;> rfl

/-- A broken rule changes its bit and the captured address at most. -/
theorem State.onlyFlds_accErr (s : State) (ini : Initiator) (b : AccBit) (a : Nat) :
    OnlyFlds s (s.accErr ini b a) (accBitFld ini b :: (accFlds (copyOf ini)).tail) := by
  have hpos := b.pos_lt
  have hbit : OnlyFlds s (s.wr (accBitFld ini b) 1) (accBitFld ini b :: (accFlds (copyOf ini)).tail) :=
    (OnlyFlds.refl s _).wr 1 (by simp) (by simp only; omega)
  rw [State.accErr_eq]
  split
  · exact hbit.wrs _ (by simp [fAccerrxAddr_ADDR, fAccerrxAddr_SPACE, fAccerrxAddr_VALID])
  · exact hbit

/-- After changes among fields that take in the copy of ACCERR, a broken rule is one more of them. -/
theorem OnlyFlds.accErr {s t : State} {fs : List Fld} (h : OnlyFlds s t fs) (ini : Initiator) (b : AccBit) (a : Nat)
    (hfs : ∀ f ∈ accFlds (copyOf ini), f ∈ fs) : OnlyFlds s (t.accErr ini b a) fs := by
  refine h.trans fun g hg => t.onlyFlds_accErr ini b a g fun f hf => ?_
  rcases List.mem_cons.1 hf with rfl | hf
  · exact accBitFld_apart (hg _ (hfs _ (by simp)))
  · exact hg f (hfs f (List.mem_of_mem_tail hf))

/-- A field outside the copies of ACCERR and ACCERR_ADDR stays. -/
theorem State.rd_accErr (s : State) (ini : Initiator) (b : AccBit) (a : Nat) {g : Fld} (hg : OffAcc g.addr) :
    (s.accErr ini b a).rd g = s.rd g :=
  (OnlyFlds.refl s (accFlds (copyOf ini))).accErr ini b a (fun _ h => h) g (apart_accFlds hg ini)

theorem State.reg_accErr (s : State) (ini : Initiator) (b : AccBit) (a : Nat) {x : Nat} (hx : x < 0x100400 ∨ 0x101000 ≤ x) :
    (s.accErr ini b a).reg x = s.reg x := by
  have h := (OnlyFlds.refl s (accFlds (copyOf ini))).accErr ini b a (fun _ h => h) (wordFld x)
    (apart_accFlds_of_words (by simpa [Fld.words] using hx) ini)
  simpa [State.rd, bitsOf, Nat.mod_eq_of_lt (BitVec.isLt _), BitVec.toNat_inj] using h

/-- A copy of ACCERR is no word of ACCERR_ADDR. -/
theorem accAddr_words {c : Nat} {f : Fld} (hf : f ∈ (accFlds c).tail) : aAccerrx c ∉ f.words := by
  simp only [List.tail_cons, List.mem_cons, List.not_mem_nil, or_false] at hf
  rcases hf with rfl | rfl | rfl <;>
    simp [Fld.words, fAccerrxAddr_ADDR, fAccerrxAddr_SPACE, fAccerrxAddr_VALID, aAccerrxAddr, aAccerrx] <;> omega

/-- The bit of a broken rule reads 1. -/
theorem State.rd_accErr_bit (s : State) (ini : Initiator) (b : AccBit) (a : Nat) : (s.accErr ini b a).rd (accBitFld ini b) = 1 := by
  have hpos := b.pos_lt
  have hbit : (s.wr (accBitFld ini b) 1).rd (accBitFld ini b) = 1 := State.rd_wr_self s _ 1 (by simp only; omega)
  rw [State.accErr_eq]
  split
  · refine ((OnlyFlds.refl _ (accFlds (copyOf ini)).tail).wrs _ ?_ (accBitFld ini b) fun f hf => ?_).trans hbit
    · simp [fAccerrxAddr_ADDR, fAccerrxAddr_SPACE, fAccerrxAddr_VALID]
    · refine .inl fun x hx hxf => ?_
      rw [accBitFld_words, List.mem_singleton] at hx
      exact accAddr_words hf (hx ▸ hxf)
  · exact hbit

/-- A bit that is set stays set. -/
theorem State.rd_accErr_bit_keep (s : State) (ini : Initiator) (b b' : AccBit) (a : Nat) (h : s.rd (accBitFld ini b') = 1) :
    (s.accErr ini b a).rd (accBitFld ini b') = 1 := by
  by_cases hb : b = b'
  · subst hb
    exact s.rd_accErr_bit ini b a
  · refine (s.onlyFlds_accErr ini b a _ fun f hf => ?_).trans h
    rcases List.mem_cons.1 hf with rfl | hf
    · have hpos : b.pos ≠ b'.pos := fun e => hb (AccBit.pos_inj e)
      exact .inr ⟨rfl, by simp only; omega⟩
    · refine .inl fun x hx hxf => ?_
      rw [accBitFld_words, List.mem_singleton] at hx
      exact accAddr_words hf (hx ▸ hxf)

/-- A field of ACCERR_ADDR after a write of another field of the same copy. -/
theorem State.rd_wr_accAddr (s : State) (c v : Nat) :
    (s.wr (fAccerrxAddr_VALID c) v).rd (fAccerrxAddr_ADDR c) = s.rd (fAccerrxAddr_ADDR c) ∧
    (s.wr (fAccerrxAddr_VALID c) v).rd (fAccerrxAddr_SPACE c) = s.rd (fAccerrxAddr_SPACE c) ∧
    (s.wr (fAccerrxAddr_SPACE c) v).rd (fAccerrxAddr_ADDR c) = s.rd (fAccerrxAddr_ADDR c) := by
  refine ⟨State.rd_wr_apart s (fAccerrxAddr_VALID c) (fAccerrxAddr_ADDR c) v rfl ?_ ?_,
    State.rd_wr_apart s (fAccerrxAddr_VALID c) (fAccerrxAddr_SPACE c) v rfl ?_ ?_,
    State.rd_wr_apart s (fAccerrxAddr_SPACE c) (fAccerrxAddr_ADDR c) v rfl ?_ ?_⟩ <;>
    simp [fAccerrxAddr_ADDR, fAccerrxAddr_SPACE, fAccerrxAddr_VALID]

/-- The copy of ACCERR_ADDR holds an address after a broken rule, and the one of this rule where it held none (R27). -/
theorem State.rd_accErr_addr (s : State) (ini : Initiator) (b : AccBit) (a : Nat) :
    (s.accErr ini b a).rd (fAccerrxAddr_VALID (copyOf ini)) = 1 ∧
    (s.rd (fAccerrxAddr_VALID (copyOf ini)) = 0 →
      (s.accErr ini b a).rd (fAccerrxAddr_ADDR (copyOf ini)) = bitsOf a 0 36 ∧
      (s.accErr ini b a).rd (fAccerrxAddr_SPACE (copyOf ini)) = 0) := by
  have hbit : (s.wr (accBitFld ini b) 1).rd (fAccerrxAddr_VALID (copyOf ini)) = s.rd (fAccerrxAddr_VALID (copyOf ini)) :=
    State.rd_wr_ne s _ _ 1 (by rw [accBitFld_words]; simp [Fld.words, fAccerrxAddr_VALID, aAccerrx, aAccerrxAddr]; omega)
  have hlt := s.rd_lt (fAccerrxAddr_VALID (copyOf ini))
  rw [State.accErr_eq]
  simp only [State.wrs, List.foldl_cons, List.foldl_nil]
  split
  next h0 =>
    simp only [State.rd_wr_accAddr]
    refine ⟨State.rd_wr_self _ (fAccerrxAddr_VALID _) 1 ?_, fun _ =>
      ⟨(State.rd_wr_self _ (fAccerrxAddr_ADDR _) a ?_).trans ?_, State.rd_wr_self _ (fAccerrxAddr_SPACE _) 0 ?_⟩⟩ <;>
      simp [bitsOf, fAccerrxAddr_ADDR, fAccerrxAddr_SPACE, fAccerrxAddr_VALID]
  next h0 =>
    refine ⟨?_, fun h => absurd h h0⟩
    rw [hbit]
    have : s.rd (fAccerrxAddr_VALID (copyOf ini)) < 2 := hlt
    omega

/-- Recording a broken rule is all that it does (R25, R27). -/
theorem State.flagged_accErr (s : State) (ini : Initiator) (b : AccBit) (a : Nat) : Flagged s (s.accErr ini b a) ini b a := by
  have hpos := b.pos_lt
  obtain ⟨hvalid, haddr⟩ := s.rd_accErr_addr ini b a
  refine ⟨s.rd_accErr_bit ini b a, hvalid, haddr, fun h => ?_, s.onlyFlds_accErr ini b a, (OnlyRegs.refl s).accErr ini b a⟩
  rw [State.accErr_eq, if_neg (by omega)]
  exact (OnlyFlds.refl s _).wr 1 (by simp) (by simp only; omega)

/-! ## Values of whole registers -/

theorem State.getLsbD_regVal (s : State) (r : Reg) (ix : List Nat) (i : Nat) :
    (s.regVal r ix).getLsbD i = if i < 32 then (s.reg (r.addr ix)).getLsbD i
      else r.desc.wide && (s.reg (r.addr ix + 4)).getLsbD (i - 32) := by
  unfold State.regVal
  dsimp only
  by_cases hi : i < 32
  · cases r.desc.wide <;> simp [hi, show i < 64 by omega]
  · have hlow : (s.reg (r.addr ix)).getLsbD i = false := BitVec.getLsbD_of_ge _ _ (by omega)
    cases r.desc.wide
    · simp [hi, hlow]
    · by_cases h64 : i < 64
      · simp [hi, h64, hlow]
      · simp [hi, h64, BitVec.getLsbD_of_ge (s.reg (r.addr ix + 4)) (i - 32) (by omega)]

theorem State.testBit_reg64 (s : State) (a i : Nat) :
    (s.reg64 a).testBit i = if i < 32 then (s.reg a).getLsbD i else (s.reg (a + 4)).getLsbD (i - 32) := by
  unfold State.reg64
  rw [Nat.add_comm, Nat.mul_comm, Nat.testBit_two_pow_mul_add _ (s.reg a).isLt, BitVec.testBit_toNat, BitVec.testBit_toNat]

/-- A field of a register is the same bits of its value. -/
theorem State.rd_eq_regVal (s : State) (r : Reg) (ix : List Nat) {lo w : Nat} (h : lo + w ≤ r.bits) :
    s.rd ⟨r.addr ix, lo, w⟩ = bitsOf (s.regVal r ix).toNat lo w := by
  rw [State.rd_eq]
  refine Nat.eq_of_testBit_eq fun i => ?_
  rw [testBit_bitsOf, testBit_bitsOf, BitVec.testBit_toNat, State.getLsbD_regVal, State.testBit_reg64]
  by_cases hi : i < w
  · by_cases hl : lo + i < 32
    · simp [hl]
    · have hw : r.desc.wide = true := by
        unfold Reg.bits at h
        refine Decidable.byContradiction fun hn => ?_
        rw [if_neg hn] at h
        omega
      simp [hl, hw]
  · simp [hi]

/-- The bits of a register hold what was put there. -/
theorem State.getLsbD_regVal_setVal (s : State) (r : Reg) (ix : List Nat) (x : DWord) {i : Nat} (hi : i < r.bits) :
    ((s.setVal r ix x).regVal r ix).getLsbD i = x.getLsbD i := by
  rw [State.getLsbD_regVal]
  unfold State.setVal
  unfold Reg.bits at hi
  dsimp only
  by_cases hw : r.desc.wide = true
  · rw [if_pos hw] at hi ⊢
    by_cases h : i < 32
    · rw [if_pos h, State.reg_setReg_ne _ (by omega), State.reg_setReg_self]
      simp [h]
    · rw [if_neg h, State.reg_setReg_self]
      simp [hw, show i - 32 < 32 by omega, show 32 + (i - 32) = i by omega]
  · rw [if_neg hw] at hi ⊢
    rw [if_pos hi, State.reg_setReg_self]
    simp [hi]

theorem State.bitsOf_regVal_setVal (s : State) (r : Reg) (ix : List Nat) (x : DWord) {lo w : Nat} (h : lo + w ≤ r.bits) :
    bitsOf ((s.setVal r ix x).regVal r ix).toNat lo w = bitsOf x.toNat lo w :=
  bitsOf_congr fun i _ h2 => State.getLsbD_regVal_setVal s r ix x (by omega)

/-- A value put in a register changes its words alone. -/
theorem OnlyFlds.setVal {s t : State} {fs : List Fld} (h : OnlyFlds s t fs) (r : Reg) (ix : List Nat) (x : DWord)
    (hfs : ∀ f ∈ regWords r ix, f ∈ fs) : OnlyFlds s (t.setVal r ix x) fs := by
  unfold State.setVal
  dsimp only
  split
  next hw => exact (h.setReg _ _ (hfs _ (by simp))).setReg _ _ (hfs _ (by simp [hw]))
  next => exact h.setReg _ _ (hfs _ (by simp))

theorem State.regVal_accErr (s : State) (ini : Initiator) (b : AccBit) (a : Nat) {r : Reg} {ix : List Nat}
    (h : OffAcc (r.addr ix)) : (s.accErr ini b a).regVal r ix = s.regVal r ix := by
  unfold State.regVal
  dsimp only
  rw [s.reg_accErr ini b a (x := r.addr ix) (by omega), s.reg_accErr ini b a (x := r.addr ix + 4) (by omega)]

end Sys2Proof.Machine
end

section
/-! SUPPORT. A register access from the bus to what its register does: the equations of a write and of a read, and a write by access
type (spec/00 R15 to R28, R56, R616). -/

namespace Sys2Proof.Machine

open Sys2Proof Claim

/-! ## Writes by access type -/

/-- A write acting on some of a register's fields does to each what its access type says, and nothing else. -/
theorem State.byFields_writeSome (s : State) (ini : Initiator) (r : Reg) (ix : List Nat) (p : Part) (v : DWord)
    (part : FieldD → Bool) : ByFields s (s.writeSome ini r ix p (partVal p v) part) ini r ix p v part := by
  have hfit : ∀ f ∈ r.desc.fields, f.lo + f.w ≤ r.bits := r.field_le_bits
  have hapart := r.fields_apart
  have hbad := writeFields_rejects (partVal p v) p.mask (hapart.filter part) (s.regVal r ix)
  have hput : OnlyFlds s (s.setVal r ix (writeFields (r.desc.fields.filter part) (s.regVal r ix) (partVal p v) p.mask).1)
      (regWords r ix) := (OnlyFlds.refl s _).setVal r ix _ fun _ h => h
  have hvals := fun (f : FieldD) (hf : f ∈ r.desc.fields) =>
    bitsOf_writeFields_filter (partVal p v) p.mask hapart (fun g hg => Nat.le_trans (hfit g hg) r.bits_le) part (s.regVal r ix) hf
  rw [List.any_filter] at hbad
  unfold State.writeSome
  dsimp only
  rw [hbad]
  split
  next h =>
    have hoff : OffAcc (r.addr ix) := by
      obtain ⟨f, hf, hrej⟩ := List.any_eq_true.1 h
      refine (r.offAcc_or_no_rw ix).resolve_right fun hno => hno f hf ?_
      simp only [fieldRejects, Bool.and_eq_true, beq_iff_eq] at hrej
      exact hrej.2.1.2
    refine ⟨fun f hf => ?_, fun _ => State.rd_accErr_bit _ _ _ _, ?_, ((OnlyRegs.refl s).setVal r ix _).accErr _ _ _⟩
    · rw [State.regVal_accErr _ _ _ _ hoff, State.bitsOf_regVal_setVal _ _ _ _ (hfit f hf), hvals f hf]
    · rw [if_pos h]
      exact (hput.mono fun _ h => List.mem_append_left _ h).accErr ini .rsvd _ fun _ h => List.mem_append_right _ h
  next h =>
    refine ⟨fun f hf => ?_, fun hb => absurd hb h, ?_, (OnlyRegs.refl s).setVal r ix _⟩
    · rw [State.bitsOf_regVal_setVal _ _ _ _ (hfit f hf), hvals f hf]
    · rw [if_neg h, List.append_nil]
      exact hput

theorem State.byFields_writeReg (s : State) (ini : Initiator) (r : Reg) (ix : List Nat) (p : Part) (v : DWord) :
    ByFields s (s.writeReg ini r ix p (partVal p v)) ini r ix p v fun _ => true :=
  s.byFields_writeSome ini r ix p v _

/-! ## From the bus to the register -/

/-- A command that writes by address does what the bus does. -/
theorem runs_write {ini : Initiator} {a size : Nat} {v : DWord} {s : State} {Q : State → Prop} (h : Q (s.busWrite ini a size v)) :
    Runs (.registerWrite ini a size (some v)) s Q := ⟨_, rfl, h⟩

theorem runs_read {ini : Initiator} {a size : Nat} {s : State} {Q : State → Prop} (h : Q (s.busRead ini a size)) :
    Runs (.registerWrite ini a size none) s Q := ⟨_, rfl, h⟩

theorem State.busWrite_word (s : State) (ini : Initiator) {a : Nat} (v : DWord) (ha : a < bar0) (h4 : a % 4 = 0) :
    s.busWrite ini a 4 v = s.write32 ini a (v.setWidth 32) := by
  unfold State.busWrite
  rw [sramAt_bar0 ini 4 ha]
  simp [h4]

theorem State.busWrite_double (s : State) (ini : Initiator) {a : Nat} (v : DWord) (ha : a < bar0) (h8 : a % 8 = 0) :
    s.busWrite ini a 8 v = s.write64 ini a v := by
  unfold State.busWrite
  rw [sramAt_bar0 ini 8 ha]
  simp [h8]

theorem State.write32_none {s : State} {ini : Initiator} {a : Nat} (v : Word) (hb : s.busOn ini = true) (hf : Reg.find a = none) :
    s.write32 ini a v = s.accErr ini .unmapped a := by
  unfold State.write32
  simp [hb, hf]

/-- An access that names a register and part writes them (R15, R16). -/
theorem State.busWrite_names {s : State} {ini : Initiator} {a size : Nat} {r : Reg} {ix : List Nat} {p : Part} (v : DWord)
    (hn : Names a size r ix p) (hb : s.busOn ini = true) :
    s.busWrite ini a size v = s.regWrite ini r ix p (partVal p v) := by
  have ha := names_lt_bar0 hn
  cases p with
  | lo =>
    obtain ⟨rfl, h4, hf⟩ := hn
    rw [s.busWrite_word ini v ha h4]
    simp [State.write32, hb, hf]
  | hi =>
    obtain ⟨rfl, h4, hf⟩ := hn
    rw [s.busWrite_word ini v ha h4]
    simp [State.write32, hb, hf]
  | all =>
    obtain ⟨rfl, h8, hf, hw⟩ := hn
    rw [s.busWrite_double ini v ha h8]
    simp [State.write64, hf, hw]

/-- A register that the initiator does not see (R17, R28). -/
theorem State.regWrite_hidden {s : State} {ini : Initiator} {r : Reg} {ix : List Nat} (p : Part) (v : DWord) (hb : s.busOn ini = true)
    (hs : s.sees ini r ix = false) : s.regWrite ini r ix p v = s.accErr ini .unmapped (r.at ix p) := by
  simp [State.regWrite, hb, hs]

/-- A register whose function is not ready, written by another than the management controller (R56). -/
theorem State.regWrite_notReady {s : State} {ini : Initiator} {r : Reg} {ix : List Nat} (p : Part) (v : DWord)
    (hb : s.busOn ini = true) (hs : s.sees ini r ix = true) (he : r.desc.exempt = false)
    (hg : s.gateReady r.desc.gate ix = false) (hm : ini ≠ .mgmt) :
    s.regWrite ini r ix p v = s.accErr ini .notready (r.at ix p) := by
  simp [State.regWrite, hb, hs, he, hg, hm]

/-- Boot fields that the management controller writes before their function is ready (R20, R56). -/
theorem State.regWrite_boot {s : State} {r : Reg} {ix : List Nat} (p : Part) (v : DWord) (hb : s.busOn .mgmt = true)
    (he : r.desc.exempt = false) (hg : s.gateReady r.desc.gate ix = false) (hf : r.desc.fields.any (·.boot) = true) :
    s.regWrite .mgmt r ix p v = s.writeSome .mgmt r ix p v fun f => f.boot := by
  have hs : s.sees .mgmt r ix = true := rfl
  unfold State.regWrite
  dsimp only
  rw [hb, hs, he, hg, hf]
  rfl

/-- The block of a register's address is the one that acts (spec/00 R32). -/
theorem State.regAct_global (s : State) (ini : Initiator) {r : Reg} (ix : List Nat) (p : Part) (v : DWord)
    (h : r.desc.base < 0x1000000) : s.regAct ini r ix p v = s.writeGlobal ini r ix p v := by
  unfold State.regAct
  dsimp only
  rw [if_pos h]

theorem State.regAct_slice (s : State) (ini : Initiator) {r : Reg} (ix : List Nat) (p : Part) (v : DWord)
    (h : 0x1000000 ≤ r.desc.base) (h' : r.desc.base < 0x2000000) : s.regAct ini r ix p v = s.writeSl ini r ix p v := by
  unfold State.regAct
  dsimp only
  rw [if_neg (by omega), if_pos h']

theorem State.regAct_scan (s : State) (ini : Initiator) {r : Reg} (ix : List Nat) (p : Part) (v : DWord)
    (h : 0x2000000 ≤ r.desc.base) (h' : r.desc.base < 0x2800000) : s.regAct ini r ix p v = s.writeScan ini r ix p v := by
  unfold State.regAct
  dsimp only
  rw [if_neg (by omega), if_neg (by omega), if_pos h']

theorem State.regAct_mgmt (s : State) (ini : Initiator) {r : Reg} (ix : List Nat) (p : Part) (v : DWord)
    (h : 0x3400000 ≤ r.desc.base) : s.regAct ini r ix p v = s.writeMgmt ini r ix p v := by
  unfold State.regAct
  dsimp only
  rw [if_neg (by omega), if_neg (by omega), if_neg (by omega), if_neg (by omega)]

/-- A command that names a register which it reaches does what the register does. -/
theorem runs_write_reaches {ini : Initiator} {a size : Nat} {r : Reg} {ix : List Nat} {p : Part} {v : DWord} {s : State}
    {Q : State → Prop} (hn : Names a size r ix p) (hr : Reaches s ini r ix)
    (h : Q (s.regAct ini (ownCopy ini r ix).1 (ownCopy ini r ix).2 p (partVal p v))) :
    Runs (.registerWrite ini a size (some v)) s Q := by
  refine runs_write ?_
  rw [State.busWrite_names v hn hr.1, State.regWrite_reaches hr]
  exact h

/-- The low word of a register, as the 32-bit access at its address writes it. -/
theorem partVal_word (v : Word) : partVal .lo (v.setWidth 64) = v.setWidth 64 := by
  simp [partVal]

/-- While the initiator's accesses do not reach the module, a write does nothing. -/
theorem State.busWrite_off {s : State} {ini : Initiator} (a size : Nat) (v : DWord) (hb : s.busOn ini = false) :
    s.busWrite ini a size v = s := by
  have h32 : ∀ (b : Nat) (w : Word), s.write32 ini b w = s := fun b w => by simp [State.write32, hb]
  have h64 : s.write64 ini a v = s := by
    unfold State.write64
    dsimp only
    rw [h32, h32]
    split
    · split
      · simp [State.regWrite, hb]
      · rfl
    · rfl
  unfold State.busWrite
  rw [h32, h64, hb]
  split <;> simp

theorem State.busRead_off {s : State} {ini : Initiator} (a size : Nat) (hb : s.busOn ini = false) : s.busRead ini a size = s := by
  simp [State.busRead, hb]

/-! ## Reads -/

theorem State.busRead_word {s : State} {ini : Initiator} {a : Nat} (hb : s.busOn ini = true) (ha : a < bar0) (h4 : a % 4 = 0) :
    s.busRead ini a 4 = { (s.read32 ini a).2 with busData := (s.read32 ini a).1.setWidth 64 } := by
  unfold State.busRead
  rw [sramAt_bar0 ini 4 ha]
  simp [hb, h4]

theorem State.busRead_double {s : State} {ini : Initiator} {a : Nat} (hb : s.busOn ini = true) (ha : a < bar0) (h8 : a % 8 = 0) :
    s.busRead ini a 8 = { (s.read64 ini a).2 with busData := (s.read64 ini a).1 } := by
  unfold State.busRead
  rw [sramAt_bar0 ini 8 ha]
  simp [hb, h8]

/-- The registers whose read takes a record are three. -/
theorem State.popRead_eq (s : State) {r : Reg} (ix : List Nat) (h1 : r ≠ .slLoaddone) (h2 : r ≠ .slAdcres) (h3 : r ≠ .slTdcres) :
    s.popRead r ix = s := by
  unfold State.popRead
  dsimp only
  split
  · exact absurd rfl h1
  · exact absurd rfl h2
  · exact absurd rfl h3
  · rfl

/-- A read of a register's low word: of a 64-bit one, the high word goes to the initiator's shadow (R16). -/
theorem State.read32_lo {s : State} {ini : Initiator} {a : Nat} {r : Reg} {ix : List Nat} (hf : Reg.find a = some (r, ix, false))
    (hs : s.sees ini r ix = true) (h1 : r ≠ .slLoaddone) (h2 : r ≠ .slAdcres) (h3 : r ≠ .slTdcres) :
    s.read32 ini a = ((s.readVal ini r ix).setWidth 32, { s with
      shadow := if r.desc.wide then s.shadow.set (shadowOf ini) (some (a, (s.readVal ini r ix >>> 32).setWidth 32)) else s.shadow }) := by
  unfold State.read32
  rw [hf]
  simp only [hs, Bool.not_true, Bool.false_eq_true, if_false]
  split
  · rw [State.popRead_eq _ ix h1 h2 h3]
  · rfl

/-- A read of a register's high word where the shadow does not name the register. -/
theorem State.read32_hi {s : State} {ini : Initiator} {a : Nat} {r : Reg} {ix : List Nat} (hf : Reg.find a = some (r, ix, true))
    (hs : s.sees ini r ix = true) (hsh : s.shadow[shadowOf ini].map (·.1 + 4) ≠ some a) :
    s.read32 ini a = ((s.readVal ini r ix >>> 32).setWidth 32, s) := by
  unfold State.read32
  rw [hf]
  simp only [hs, Bool.not_true, Bool.false_eq_true, if_false, if_true]
  split
  next tag w heq =>
    rw [heq] at hsh
    rw [if_neg (by simpa using hsh)]
  next => rfl

/-- A read of a register's high word takes it from the shadow that names the register (R16). -/
theorem State.read32_shadow {s : State} {ini : Initiator} {a : Nat} {r : Reg} {ix : List Nat} {w : Word}
    (hf : Reg.find (a + 4) = some (r, ix, true)) (hs : s.sees ini r ix = true) (hsh : s.shadow[shadowOf ini] = some (a, w)) :
    s.read32 ini (a + 4) = (w, { s with shadow := s.shadow.set (shadowOf ini) none }) := by
  unfold State.read32
  rw [hf]
  simp [hs, hsh]

/-- A broken rule recorded is recorded whatever the value on the bus. -/
theorem flagged_busData {s t : State} {ini : Initiator} {b : AccBit} {a : Nat} (h : Flagged s t ini b a) (x : DWord) :
    Flagged { s with busData := x } { t with busData := x } ini b a := by
  obtain ⟨hbit, hvalid, haddr, hkept, honly, hregs⟩ := h
  exact ⟨hbit, hvalid, haddr, hkept, honly, congrArg (fun y : State => { y with busData := x }) hregs⟩

end Sys2Proof.Machine
end

section
/-! Accesses without power, to hidden registers, of other sizes, to no register and to functions that are not ready; reads in two
words (spec/00 R15 to R17, R28; spec/01 R56). -/

namespace Sys2Proof.Machine

open Sys2Proof Claim

/-- Without power no initiator's accesses reach the module (log entry 16). -/
theorem State.busOn_unpowered {s : State} (ini : Initiator) (h : s.power.on = false) : s.busOn ini = false := by
  simp [State.busOn, h]

theorem noPower_holds : noPower := by
  intro ini a size v s hoff _
  have hb := State.busOn_unpowered ini hoff
  cases v with
  | none => exact runs_read (State.busRead_off a size hb)
  | some v => exact runs_write (State.busWrite_off a size v hb)

/-- A write that a rule refuses is recorded with the address that it named. -/
theorem runs_refused {ini : Initiator} {a size : Nat} {r : Reg} {ix : List Nat} {p : Part} {v : DWord} {s : State} {b : AccBit}
    (hn : Names a size r ix p) (hb : s.busOn ini = true)
    (h : s.regWrite ini r ix p (partVal p v) = s.accErr ini b (r.at ix p)) :
    Runs (.registerWrite ini a size (some v)) s fun t => Flagged s t ini b a := by
  refine runs_write ?_
  rw [State.busWrite_names v hn hb, h, ← names_addr hn]
  exact s.flagged_accErr ini b a

theorem hiddenWrite_holds : hiddenWrite := by
  intro ini a r ix v s hb h4 hf hs
  exact runs_refused (p := .lo) ⟨rfl, h4, hf⟩ hb (State.regWrite_hidden _ _ hb hs)

/-- Settles O59: without power the bus does nothing, and a register that the initiator does not see answers UNMAPPED. -/
theorem noOtherAccess : Obligations.NoOtherAccess := ⟨noPower_holds, hiddenWrite_holds⟩

theorem notReady_holds : notReady := by
  intro ini r ix a v s hb hf h4 hs he hg hm
  exact runs_refused (p := .lo) ⟨rfl, h4, hf⟩ hb (State.regWrite_notReady _ _ hb hs he hg hm)

theorem otherSize_holds : otherSize := by
  intro ini a size v s hb ha _ h4 h8
  have hwrite : s.busWrite ini a size v = s.accErr ini .size a := by
    unfold State.busWrite
    rw [sramAt_bar0 ini size ha]
    simp only [h4, h8, hb, if_false, if_true]
  have hread : s.busRead ini a size = { s with busData := s.readOther ini a size } := by
    unfold State.busRead
    rw [sramAt_bar0 ini size ha]
    simp only [h4, h8, hb, Bool.not_true, Bool.false_eq_true, if_false]
  refine ⟨runs_write ?_, runs_read ?_⟩
  · rw [hwrite]
    exact s.flagged_accErr ini .size a
  · rw [hread]

theorem unmapped_holds : unmapped := by
  intro ini a v s hb h4 ha hf
  refine ⟨runs_write ?_, runs_read ?_⟩
  · rw [s.busWrite_word ini v ha h4, State.write32_none _ hb hf]
    exact s.flagged_accErr ini .unmapped a
  · have hread : s.read32 ini a = (0, s.accErr ini .unmapped a) := by
      unfold State.read32
      rw [hf]
    rw [State.busRead_word hb ha h4, hread]
    exact ⟨rfl, flagged_busData (s.flagged_accErr ini .unmapped a) 0⟩

theorem shadowLow_holds : shadowLow := by
  intro ini a r ix s hb h4 hf hw hs h1 h2 h3
  refine ⟨_, rfl, ?_⟩
  rw [State.busRead_word hb (Reg.find_lt_bar0 hf) h4, State.read32_lo hf hs h1 h2 h3, if_pos hw]
  exact ⟨rfl, rfl⟩

theorem shadowHigh_holds : shadowHigh := by
  intro ini a r ix w s hb h4 hf hs hsh
  refine ⟨_, rfl, ?_⟩
  rw [State.busRead_word hb (Reg.find_lt_bar0 hf) (by omega), State.read32_shadow hf hs hsh]

/-- Settles O2: each access that names no register, or not by a word of it, or whose function is not ready, is recorded and does
nothing else; the two words of a 64-bit register are read by way of the shadow. -/
theorem accessRules : Obligations.AccessRules :=
  ⟨otherSize_holds, unmapped_holds, notReady_holds, shadowLow_holds, shadowHigh_holds⟩

end Sys2Proof.Machine
end

section
/-! Writes by access type, guarded and owned registers, pairs of words, and reads (spec/00 R16 to R24, R28, R616; spec/01 R56). -/

namespace Sys2Proof.Machine

open Sys2Proof Claim

/-! ## Registers with no rule of their own -/

/-- Only ACCERR and ACCERR_ADDR stand for an initiator's own copy. -/
theorem ownCopy_eq {r : Reg} (h1 : r ≠ .accerr) (h2 : r ≠ .accerrAddr) (ini : Initiator) (ix : List Nat) :
    ownCopy ini r ix = (r, ix) := by
  unfold ownCopy
  split
  · exact absurd rfl h1
  · exact absurd rfl h2
  · rfl

theorem plainRegs_no_own : ∀ r ∈ plainRegs, r ≠ .accerr ∧ r ≠ .accerrAddr := by decide

/-- A register with no row of its own acts by its fields. -/
theorem plainRegs_act : ∀ r ∈ plainRegs, ∀ (s : State) (ini : Initiator) (ix : List Nat) (p : Part) (v : DWord),
    s.regAct ini r ix p v = s.writeReg ini r ix p v := by
  simp only [plainRegs, List.forall_mem_cons, List.not_mem_nil, false_imp_iff, implies_true, and_true]
  and_intros <;> exact fun _ _ _ _ _ => rfl

theorem registerWrite_holds : Claim.registerWrite := by
  intro ini a size r ix p v s hn hr hreach
  obtain ⟨h1, h2⟩ := plainRegs_no_own r hr
  refine runs_write_reaches hn hreach ?_
  rw [ownCopy_eq h1 h2, plainRegs_act r hr]
  exact s.byFields_writeReg ini r ix p v

theorem bootWrite_holds : bootWrite := by
  intro a size r ix p v s hn hb he hg hf
  refine runs_write ?_
  rw [State.busWrite_names v hn hb, State.regWrite_boot p _ hb he hg hf]
  exact s.byFields_writeSome .mgmt r ix p v _

/-! ## Guarded registers -/

/-- A field of one bit is set or holds 0. -/
theorem State.on_eq_decide (s : State) (f : Fld) (h : f.w = 1) : s.on f = decide (s.rd f = 1) := by
  have hlt := s.rd_lt f
  rw [h] at hlt
  rw [State.on, Bool.eq_iff_iff]
  simp only [bne_iff_ne, decide_eq_true_eq]
  omega

/-- A register that its rule guards is refused while its unit is in use, else it acts by its fields. -/
theorem inUse_act {s : State} {r : Reg} {ix : List Nat} {v : DWord} {busy : Bool} (h : inUse s r ix v = some busy)
    (ini : Initiator) (p : Part) : s.regAct ini r ix p v = s.writeUnless busy ini r ix p v := by
  unfold inUse at h
  dsimp only at h
  rw [← State.on_eq_decide s (fDmaCtrl_EN _) rfl, ← State.on_eq_decide s (fEtCtrl_EN _) rfl] at h
  split at h
  next hr =>
    obtain rfl := Option.some.inj h
    subst hr
    rfl
  split at h
  next hr =>
    obtain rfl := Option.some.inj h
    simp only [List.mem_cons, List.not_mem_nil, or_false] at hr
    rcases hr with rfl | rfl | rfl | rfl | rfl | rfl | rfl | rfl <;> rfl
  split at h
  next hr =>
    obtain rfl := Option.some.inj h
    simp only [List.mem_cons, List.not_mem_nil, or_false] at hr
    rcases hr with rfl | rfl | rfl | rfl <;> rfl
  split at h
  next hr =>
    obtain rfl := Option.some.inj h
    subst hr
    rfl
  split at h
  next hr =>
    obtain rfl := Option.some.inj h
    simp only [List.mem_cons, List.not_mem_nil, or_false] at hr
    rcases hr with rfl | rfl | rfl | rfl | rfl | rfl | rfl <;> rfl
  split at h
  next hr =>
    obtain rfl := Option.some.inj h
    simp only [List.mem_cons, List.not_mem_nil, or_false] at hr
    rcases hr with rfl | rfl | rfl | rfl | rfl | rfl <;> rfl
  split at h
  next hr =>
    obtain rfl := Option.some.inj h
    simp only [List.mem_cons, List.not_mem_nil, or_false] at hr
    rcases hr with rfl | rfl <;> rfl
  split at h
  next hr =>
    obtain rfl := Option.some.inj h
    simp only [List.mem_cons, List.not_mem_nil, or_false] at hr
    rcases hr with rfl | rfl <;> rfl
  cases h

theorem guardedWrite_holds : guardedWrite := by
  intro ini a size r ix p v busy s hn hreach huse
  refine runs_write_reaches hn hreach ?_
  rw [ownCopy_eq (by rintro rfl; cases huse) (by rintro rfl; cases huse), inUse_act huse, State.writeUnless]
  cases busy with
  | true => exact s.flagged_accErr ini .busy _
  | false => exact s.byFields_writeReg ini r ix p v

/-! ## Registers of one initiator -/

theorem ownedWrite_holds : ownedWrite := by
  intro ini a size r ix p v s hn hreach
  refine ⟨fun hr => runs_write_reaches hn hreach ?_, fun hr => runs_write_reaches hn hreach ?_⟩
  · have hact : s.regAct ini (ownCopy ini r ix).1 (ownCopy ini r ix).2 p (partVal p v) = s.pfWrite ini r ix p (partVal p v) := by
      rcases hr with rfl | rfl <;> rfl
    rw [hact, State.pfWrite]
    split
    · exact s.byFields_writeReg ini r ix p v
    · exact s.flagged_accErr ini .unmapped _
  · have hact : s.regAct ini (ownCopy ini r ix).1 (ownCopy ini r ix).2 p (partVal p v) =
        if ini = .mgmt then s.writeReg ini r ix p (partVal p v) else s.accErr ini .unmapped (r.at ix p) := by
      subst hr; rfl
    rw [hact]
    split
    · exact s.byFields_writeReg ini r ix p v
    · exact s.flagged_accErr ini .unmapped _

/-! ## Pairs of words -/

theorem pairWrite_holds : pairWrite := by
  intro ini a v s h8 ha hnarrow
  have hhalves : s.write64 ini a v = (s.write32 ini a (v.setWidth 32)).write32 ini (a + 4) ((v >>> 32).setWidth 32) := by
    unfold State.write64
    dsimp only
    split
    next r ix hf => rw [if_neg (by simp [hnarrow r ix hf])]
    next => rfl
  have hlo := s.busWrite_word ini ((v.setWidth 32).setWidth 64) ha (by omega)
  have hhi := (s.write32 ini a (v.setWidth 32)).busWrite_word ini (a := a + 4) (((v >>> 32).setWidth 32).setWidth 64)
    (by unfold bar0 at *; omega) (by omega)
  simp only [BitVec.setWidth_setWidth_of_le, Nat.reduceLeDiff, BitVec.setWidth_eq] at hlo hhi
  refine runs_write ⟨_, congrArg Host.Outcome.next hlo, ?_⟩
  rw [s.busWrite_double ini v ha h8, hhalves]
  exact congrArg Host.Outcome.next hhi

/-! ## Reads -/

theorem registerRead_holds : registerRead := by
  intro ini a size r ix p s hn hb hs h1 h2 h3
  have ha := names_lt_bar0 hn
  refine runs_read ?_
  cases p with
  | lo =>
    obtain ⟨rfl, h4, hf⟩ := hn
    rw [State.busRead_word hb ha h4, State.read32_lo hf hs h1 h2 h3]
    exact ⟨rfl, rfl⟩
  | hi =>
    obtain ⟨rfl, h4, hf⟩ := hn
    intro x hsh
    rw [State.busRead_word hb ha h4, State.read32_hi hf hs hsh]
  | all =>
    obtain ⟨rfl, h8, hf, hw⟩ := hn
    have hread : s.read64 ini a = (s.readVal ini r ix, s) := by
      unfold State.read64
      simp only [hf, hw, hs, Bool.not_true, Bool.false_eq_true, if_false, if_true, State.popRead_eq s ix h1 h2 h3]
    show s.busRead ini a 8 = _
    rw [State.busRead_double hb ha h8, hread]

/-- A value with a field hidden, or as it stands. -/
def FieldD.hideIf (hide : FieldD → Bool) (x : DWord) (f : FieldD) : DWord := if hide f then x &&& ~~~f.mask else x

theorem FieldD.hideIf_apart (hide : FieldD → Bool) {f g : FieldD} (h : f.Apart g) (x : DWord) :
    bitsOf (f.hideIf hide x).toNat g.lo g.w = bitsOf x.toNat g.lo g.w := by
  unfold FieldD.hideIf
  split
  · refine bitsOf_congr fun i h1 h2 => getLsbD_clear_of_mask_false (FieldD.getLsbD_mask_outside ?_)
    unfold FieldD.Outside
    unfold FieldD.Apart at h
    omega
  · rfl

theorem FieldD.bitsOf_hideIf (hide : FieldD → Bool) {f : FieldD} (hf : f.lo + f.w ≤ 64) (x : DWord) :
    bitsOf (f.hideIf hide x).toNat f.lo f.w = if hide f = true then 0 else bitsOf x.toNat f.lo f.w := by
  unfold FieldD.hideIf
  split
  · rw [← bitsOf_zero f.lo f.w]
    refine bitsOf_congr (y := 0) fun i h1 h2 => ?_
    rw [BitVec.getLsbD_and, BitVec.getLsbD_not, FieldD.getLsbD_mask_inside hf h1 h2]
    simp
  · rfl

theorem hideAll_apart (hide : FieldD → Bool) {fs : List FieldD} {g : FieldD} (h : ∀ f ∈ fs, f.Apart g) (x : DWord) :
    bitsOf (fs.foldl (FieldD.hideIf hide) x).toNat g.lo g.w = bitsOf x.toNat g.lo g.w := by
  induction fs generalizing x with
  | nil => rfl
  | cons f fs ih =>
    rw [List.foldl_cons, ih (fun f hf => h f (by simp [hf])), FieldD.hideIf_apart hide (h f (by simp))]

/-- Of fields hidden one after the other, each reads 0 where it is hidden, and as it stood where not. -/
theorem bitsOf_hideAll (hide : FieldD → Bool) {fs : List FieldD} (ha : fs.Pairwise FieldD.Apart)
    (hw : ∀ f ∈ fs, f.lo + f.w ≤ 64) (x : DWord) {g : FieldD} (hg : g ∈ fs) :
    bitsOf (fs.foldl (FieldD.hideIf hide) x).toNat g.lo g.w = if hide g = true then 0 else bitsOf x.toNat g.lo g.w := by
  induction fs generalizing x with
  | nil => cases hg
  | cons f fs ih =>
    obtain ⟨hf, ha⟩ := List.pairwise_cons.1 ha
    rw [List.foldl_cons]
    rcases List.mem_cons.1 hg with rfl | hg
    · rw [hideAll_apart hide (fun f hf' => (hf f hf').symm), FieldD.bitsOf_hideIf hide (hw g (by simp))]
    · rw [ih ha (fun f hf => hw f (by simp [hf])) _ hg, FieldD.hideIf_apart hide (hf g hg)]

theorem readStored_holds : readStored := by
  intro ini r ix f s hlive hown hf
  have hread : s.readVal ini r ix =
      r.desc.fields.foldl (FieldD.hideIf fun f => f.acc == .wo || (f.boot && s.bootHidden r ix)) (s.regVal r ix) := by
    unfold State.readVal
    simp only [hown, hlive, List.foldl_nil, BitVec.ofNat_toNat, BitVec.setWidth_eq]
    rfl
  rw [hread, bitsOf_hideAll _ r.fields_apart (fun g hg => Nat.le_trans (r.field_le_bits g hg) r.bits_le) _ hf]
  simp

end Sys2Proof.Machine
end

section
/-! SUPPORT. What a 32-bit write gives the fields of one register, and the frame of a write that no field refuses
(spec/00 R18 to R22). -/

namespace Sys2Proof.Machine

open Sys2Proof Claim

/-! ## Fields that take every encoding -/

theorem fieldRejects_of_ok_nil {f : FieldD} (cur v m : DWord) (h : f.ok = []) : fieldRejects cur v m f = false := by
  simp [fieldRejects, FieldD.accepts, h]

/-- A write that reaches no bit changes nothing. -/
theorem merge_zero (x y : DWord) : (x &&& ~~~0) ||| (y &&& 0) = x :=
  BitVec.eq_of_getLsbD_eq fun _ _ => getLsbD_merge_of_mask_false (by simp)

theorem clear_zero (x y : DWord) : x &&& ~~~(y &&& 0) = x :=
  BitVec.eq_of_getLsbD_eq fun _ _ => getLsbD_clear_of_mask_false (by simp)

/-- An RW field that takes every encoding holds the written bits where the write reaches, and what it held elsewhere. -/
theorem fieldAfter_rw {f : FieldD} (cur v m : DWord) (hacc : f.acc = .rw) (hok : f.ok = []) :
    fieldAfter cur v m f = bitsOf ((cur &&& ~~~m) ||| (v &&& m)).toNat f.lo f.w := by
  have hbits : ∀ i, f.lo ≤ i → i < f.lo + f.w →
      ((cur &&& ~~~(f.mask &&& m)) ||| (v &&& (f.mask &&& m))).getLsbD i = ((cur &&& ~~~m) ||| (v &&& m)).getLsbD i := by
    intro i h1 h2
    by_cases hi : i < 64
    · simp only [BitVec.getLsbD_or, BitVec.getLsbD_and, BitVec.getLsbD_not, FieldD.getLsbD_mask, h1, h2, hi, decide_true,
        Bool.true_and]
    · rw [BitVec.getLsbD_of_ge _ _ (by omega), BitVec.getLsbD_of_ge _ _ (by omega)]
  rw [← bitsOf_congr hbits]
  unfold fieldAfter
  simp only [hacc, FieldD.accepts, hok, List.isEmpty_nil, Bool.true_or, if_true]
  split
  next h0 => rw [h0, merge_zero]
  next => rfl

/-- An RW1C field under a write of its low word loses the bits written as 1. -/
theorem fieldAfter_rw1c {f : FieldD} (cur v m : DWord) (hacc : f.acc = .rw1c) :
    fieldAfter cur v m f = bitsOf (cur &&& ~~~(v &&& m)).toNat f.lo f.w := by
  have hbits : ∀ i, f.lo ≤ i → i < f.lo + f.w →
      (cur &&& ~~~(v &&& (f.mask &&& m))).getLsbD i = (cur &&& ~~~(v &&& m)).getLsbD i := by
    intro i h1 h2
    by_cases hi : i < 64
    · simp only [BitVec.getLsbD_and, BitVec.getLsbD_not, FieldD.getLsbD_mask, h1, h2, hi, decide_true, Bool.true_and]
    · rw [BitVec.getLsbD_of_ge _ _ (by omega), BitVec.getLsbD_of_ge _ _ (by omega)]
  rw [← bitsOf_congr hbits]
  unfold fieldAfter
  simp only [hacc]
  split
  next h0 => rw [h0, clear_zero]
  next => rfl

/-- The bits of the low word are those that its mask reaches. -/
theorem Part.getLsbD_lo_mask (i : Nat) : Part.lo.mask.getLsbD i = decide (i < 32) := by
  have h : Part.lo.mask = BitVec.ofNat 64 (2 ^ 32 - 1) := rfl
  rw [h, BitVec.getLsbD_ofNat, Nat.testBit_two_pow_sub_one]
  by_cases hi : i < 32
  · simp [hi, show i < 64 by omega]
  · simp [hi]

/-- An RW field of the low word takes the bits of the word written. -/
theorem fieldAfter_rw_word {f : FieldD} (cur : DWord) (v : Word) (hacc : f.acc = .rw) (hok : f.ok = []) (h32 : f.lo + f.w ≤ 32) :
    fieldAfter cur (v.setWidth 64) Part.lo.mask f = bitsOf v.toNat f.lo f.w := by
  rw [fieldAfter_rw cur _ _ hacc hok]
  rw [← BitVec.toNat_setWidth_of_le (show 32 ≤ 64 by decide) (b := v)]
  exact bitsOf_congr fun i _ h2 => getLsbD_merge_of_mask_true (by rw [Part.getLsbD_lo_mask]; simp; omega)

/-! ## Fields of one register after a write -/

/-- A field of a register after a write by access type. -/
theorem rd_of_byFields {s t : State} {ini : Initiator} {r : Reg} {ix : List Nat} {p : Part} {v : DWord} {part : FieldD → Bool}
    (h : ByFields s t ini r ix p v part) {f : FieldD} (hf : f ∈ r.desc.fields) :
    t.rd ⟨r.addr ix, f.lo, f.w⟩ =
      if part f = true then fieldAfter (s.regVal r ix) (partVal p v) p.mask f else s.rd ⟨r.addr ix, f.lo, f.w⟩ := by
  rw [State.rd_eq_regVal t r ix (r.field_le_bits f hf), State.rd_eq_regVal s r ix (r.field_le_bits f hf)]
  exact h.1 f hf

/-- A word written gives an RW field that takes every encoding its bits. -/
theorem State.rd_writeSome_rw (s : State) (ini : Initiator) (r : Reg) (ix : List Nat) (v : Word) {part : FieldD → Bool} (f : FieldD)
    (hf : f ∈ r.desc.fields) (hpart : part f = true) (hacc : f.acc = .rw) (hok : f.ok = []) (h32 : f.lo + f.w ≤ 32) :
    (s.writeSome ini r ix .lo (v.setWidth 64) part).rd ⟨r.addr ix, f.lo, f.w⟩ = bitsOf v.toNat f.lo f.w := by
  have h := rd_of_byFields (s.byFields_writeSome ini r ix .lo (v.setWidth 64) part) hf
  rw [partVal_word] at h
  rw [h, if_pos hpart, fieldAfter_rw_word _ v hacc hok h32]

theorem State.rd_writeReg_rw (s : State) (ini : Initiator) (r : Reg) (ix : List Nat) (v : Word) (f : FieldD)
    (hf : f ∈ r.desc.fields) (hacc : f.acc = .rw) (hok : f.ok = []) (h32 : f.lo + f.w ≤ 32) :
    (s.writeReg ini r ix .lo (v.setWidth 64)).rd ⟨r.addr ix, f.lo, f.w⟩ = bitsOf v.toNat f.lo f.w :=
  s.rd_writeSome_rw ini r ix v f hf rfl hacc hok h32

/-- A bit of the low word written as 1 clears, where its field is RW1C. -/
theorem State.rd_writeSome_rw1c (s : State) (ini : Initiator) (r : Reg) (ix : List Nat) (v : Word) {part : FieldD → Bool}
    (f : FieldD) (hf : f ∈ r.desc.fields) (hpart : part f = true) (hacc : f.acc = .rw1c) (hw : f.w = 1) (h32 : f.lo < 32) :
    (s.writeSome ini r ix .lo (v.setWidth 64) part).rd ⟨r.addr ix, f.lo, 1⟩ =
      if v.getLsbD f.lo = true then 0 else s.rd ⟨r.addr ix, f.lo, 1⟩ := by
  have h := rd_of_byFields (s.byFields_writeSome ini r ix .lo (v.setWidth 64) part) hf
  rw [partVal_word, if_pos hpart, fieldAfter_rw1c _ _ _ hacc, hw] at h
  have hbits := r.field_le_bits f hf
  rw [h, State.rd_eq_regVal s r ix (by omega)]
  have hbit : (v.setWidth 64 &&& Part.lo.mask).getLsbD f.lo = v.getLsbD f.lo := by
    rw [BitVec.getLsbD_and, Part.getLsbD_lo_mask]
    simp [h32, show f.lo < 64 by omega]
  split
  next hset =>
    rw [← bitsOf_zero f.lo 1]
    refine bitsOf_congr (y := 0) fun i h1 h2 => ?_
    obtain rfl : i = f.lo := by omega
    rw [BitVec.getLsbD_and, BitVec.getLsbD_not, hbit, hset]
    simp
  next hclear =>
    refine bitsOf_congr fun i h1 h2 => getLsbD_clear_of_mask_false ?_
    obtain rfl : i = f.lo := by omega
    rw [hbit]
    simpa using hclear

/-- Bits of a 32-bit register written as 1 clear, where their field is RW1C. -/
theorem State.rd_writeReg_rw1c_word (s : State) (ini : Initiator) (r : Reg) (ix : List Nat) (v : Word) (f : FieldD)
    (hf : f ∈ r.desc.fields) (hacc : f.acc = .rw1c) (h32 : f.lo + f.w ≤ 32) :
    (s.writeReg ini r ix .lo (v.setWidth 64)).rd ⟨r.addr ix, f.lo, f.w⟩ =
      bitsOf (s.reg (r.addr ix) &&& ~~~v).toNat f.lo f.w := by
  have h := rd_of_byFields (s.byFields_writeReg ini r ix .lo (v.setWidth 64)) hf
  rw [partVal_word, if_pos rfl, fieldAfter_rw1c _ _ _ hacc] at h
  rw [h]
  refine Nat.eq_of_testBit_eq fun i => ?_
  rw [testBit_bitsOf, testBit_bitsOf, BitVec.testBit_toNat, BitVec.testBit_toNat]
  by_cases hi : i < f.w
  · have h32 : f.lo + i < 32 := by omega
    rw [BitVec.getLsbD_and, BitVec.getLsbD_and, BitVec.getLsbD_not, BitVec.getLsbD_not, BitVec.getLsbD_and, State.getLsbD_regVal,
      Part.getLsbD_lo_mask, BitVec.getLsbD_setWidth]
    simp [h32, show f.lo + i < 64 by omega]
  · simp [hi]

/-! ## Frames of a write that no field refuses -/

/-- Where every field that takes part lists no encodings, a write by access type puts the new value and does nothing more. -/
theorem State.writeSome_eq_setVal (s : State) (ini : Initiator) (r : Reg) (ix : List Nat) (p : Part) (v : DWord)
    (part : FieldD → Bool) (hok : ∀ f ∈ r.desc.fields, f.ok = []) :
    s.writeSome ini r ix p v part =
      s.setVal r ix (writeFields (r.desc.fields.filter part) (s.regVal r ix) v p.mask).1 := by
  have hnone : (writeFields (r.desc.fields.filter part) (s.regVal r ix) v p.mask).2 = false := by
    rw [writeFields_rejects _ _ (r.fields_apart.filter part), List.any_eq_false]
    intro f hf
    rw [fieldRejects_of_ok_nil _ _ _ (hok f (List.mem_filter.1 hf).1)]
    simp
  unfold State.writeSome
  dsimp only
  rw [hnone]
  rfl

/-- Such a write changes the register's words alone. -/
theorem State.onlyFlds_writeReg (s : State) (ini : Initiator) (r : Reg) (ix : List Nat) (p : Part) (v : DWord)
    (hok : ∀ f ∈ r.desc.fields, f.ok = []) : OnlyFlds s (s.writeReg ini r ix p v) (regWords r ix) := by
  rw [State.writeReg, State.writeSome_eq_setVal s ini r ix p v _ hok]
  exact (OnlyFlds.refl s _).setVal r ix _ fun _ h => h

theorem OnlyRegs.writeSome {s t : State} (h : OnlyRegs s t) (ini : Initiator) (r : Reg) (ix : List Nat) (p : Part) (v : DWord)
    (part : FieldD → Bool) : OnlyRegs s (t.writeSome ini r ix p v part) := by
  unfold State.writeSome
  dsimp only
  split
  · exact (h.setVal _ _ _).accErr _ _ _
  · exact h.setVal _ _ _

theorem OnlyRegs.writeReg {s t : State} (h : OnlyRegs s t) (ini : Initiator) (r : Reg) (ix : List Nat) (p : Part) (v : DWord) :
    OnlyRegs s (t.writeReg ini r ix p v) := h.writeSome ini r ix p v _

/-- A field of a word's low part may be written where the word may change. -/
theorem OnlyFlds.wr_word {s t : State} {fs : List Fld} (h : OnlyFlds s t fs) {f : Fld} (v : Nat) (hf : wordFld f.addr ∈ fs)
    (hlo : f.lo < 32) (h32 : f.lo + f.w ≤ 32) : OnlyFlds s (t.wr f v) fs := by
  unfold State.wr
  rw [if_neg (by omega), if_pos h32]
  exact h.setReg _ _ hf

/-- Whether a write stores to a field: RW and RW1C (R18). -/
def FieldD.stores (f : FieldD) : Bool := f.acc == .rw || f.acc == .rw1c

/-- A field that a write does not store to keeps the register as it was. -/
theorem FieldD.write_of_not_stores {f : FieldD} (h : f.stores = false) (cur v m : DWord) : (f.write cur v m).1 = cur := by
  unfold FieldD.write
  dsimp only
  unfold FieldD.stores at h
  split
  · rfl
  · split
    next ha => simp [ha] at h
    next ha => simp [ha] at h
    all_goals rfl

/-- A bit outside the fields that are stored to stays. -/
theorem writeFields_outside_stores {fs : List FieldD} (v m : DWord) {i : Nat} (h : ∀ f ∈ fs, f.stores = true → f.Outside i)
    (cur : DWord) : (writeFields fs cur v m).1.getLsbD i = cur.getLsbD i := by
  induction fs generalizing cur with
  | nil => rfl
  | cons f fs ih =>
    rw [writeFields_cons, ih fun g hg => h g (by simp [hg])]
    cases hf : f.stores with
    | false => rw [FieldD.write_of_not_stores hf]
    | true => exact FieldD.write_outside f cur v m (h f (by simp) hf)

/-- Where a value put in a 32-bit register differs from the old one in some fields' bits alone, only those fields change. -/
theorem State.onlyFlds_setVal_narrow (s : State) (r : Reg) (ix : List Nat) (x : DWord) {fs : List FieldD}
    (hn : r.desc.wide = false) (hne : fs ≠ []) (hin : ∀ f ∈ fs, f.lo < 32 ∧ f.lo + f.w ≤ 32)
    (hx : ∀ i, (∀ f ∈ fs, f.Outside i) → x.getLsbD i = (s.regVal r ix).getLsbD i) :
    OnlyFlds s (s.setVal r ix x) (fs.map fun f => ⟨r.addr ix, f.lo, f.w⟩) := by
  have hput : s.setVal r ix x = s.setReg (r.addr ix) (x.setWidth 32) := by
    unfold State.setVal
    rw [hn]
    rfl
  rw [hput]
  intro g hg
  by_cases haway : r.addr ix ∈ g.words
  · have hsame : ∀ f ∈ fs, g.addr = r.addr ix ∧ (f.lo + f.w ≤ g.lo ∨ g.lo + g.w ≤ f.lo) := by
      intro f hf
      obtain ⟨hlo, hle⟩ := hin f hf
      rcases hg _ (List.mem_map_of_mem hf) with h | h
      · refine absurd ?_ (h _ haway)
        simp [Fld.words, hle, show ¬ 32 ≤ f.lo by omega]
      · exact h
    obtain ⟨f0, hf0⟩ := List.exists_mem_of_ne_nil fs hne
    have haddr := (hsame f0 hf0).1
    have hbit : ∀ i, g.lo ≤ i → i < g.lo + g.w → i < 32 → x.getLsbD i = (s.reg (r.addr ix)).getLsbD i := by
      intro i h1 h2 h32
      rw [hx i fun f hf => ?_, State.getLsbD_regVal, if_pos h32]
      have := (hsame f hf).2
      unfold FieldD.Outside
      omega
    rw [State.rd_eq, State.rd_eq, haddr]
    refine Nat.eq_of_testBit_eq fun i => ?_
    rw [testBit_bitsOf, testBit_bitsOf, State.testBit_reg64, State.testBit_reg64, State.reg_setReg_self,
      State.reg_setReg_ne _ (show r.addr ix + 4 ≠ r.addr ix by omega)]
    by_cases hi : i < g.w
    · by_cases h32 : g.lo + i < 32
      · simp [h32, hbit (g.lo + i) (by omega) (by omega) h32]
      · simp [h32]
    · simp [hi]
  · exact State.rd_congr fun a ha => State.reg_setReg_ne _ (by rintro rfl; exact haway ha) _

end Sys2Proof.Machine
end

section
/-! Writes of registers with a rule of their own: ACCERR, RESV and WMARK of a SCAN unit, indices of rings, latched errors and warnings,
PRESS.CFG (spec/00 R25 to R27; the rules named at each). -/

namespace Sys2Proof.Machine

open Sys2Proof Claim

/-- A 32-bit write by the address of a register that it reaches, whose act is known. -/
theorem runs_write_word {ini : Initiator} {a : Nat} {r : Reg} {ix : List Nat} {v : Word} {s t : State} {Q : State → Prop}
    (hf : a % 4 = 0 ∧ Reg.find a = some (r, ix, false)) (hr : Reaches s ini r ix)
    (hact : s.regAct ini (ownCopy ini r ix).1 (ownCopy ini r ix).2 .lo (v.setWidth 64) = t) (h : Q t) :
    Runs (.registerWrite ini a 4 (some (v.setWidth 64))) s Q := by
  refine runs_write_reaches (p := .lo) ⟨rfl, hf⟩ hr ?_
  rw [partVal_word, hact]
  exact h

/-! ## ACCERR (R25 to R27) -/

/-- A copy of ACCERR after a write: its bits alone, less those written as 1. -/
theorem writeReg_accerrx (s : State) (ini : Initiator) (c : Nat) (v : Word) :
    (s.writeReg ini .accerrx [c] .lo (v.setWidth 64)).rd ⟨aAccerrx c, 0, 8⟩ = bitsOf (s.reg (aAccerrx c) &&& ~~~v).toNat 0 8 ∧
    OnlyFlds s (s.writeReg ini .accerrx [c] .lo (v.setWidth 64)) [⟨aAccerrx c, 0, 8⟩] := by
  refine ⟨s.rd_writeReg_rw1c_word ini .accerrx [c] v ⟨0, 8, .rw1c, 0, false, []⟩ (by decide) rfl (by decide), ?_⟩
  rw [State.writeReg, State.writeSome_eq_setVal s ini .accerrx [c] _ _ _ (by decide)]
  exact s.onlyFlds_setVal_narrow .accerrx [c] _ (fs := [⟨0, 8, .rw1c, 0, false, []⟩]) rfl (by simp) (by simp) fun i hi =>
    writeFields_outside _ _ (fun f hf => hi f (by simpa [Reg.desc] using hf)) _

theorem accerrWrite_holds : accerrWrite := by
  intro ini v s hb hs
  obtain ⟨hbits, honly⟩ := writeReg_accerrx s ini (copyOf ini) v
  have hregs := (OnlyRegs.refl s).writeReg ini .accerrx [copyOf ini] .lo (v.setWidth 64)
  have hact : s.regAct ini .accerrx [copyOf ini] .lo (v.setWidth 64) = s.opAccerr ini (copyOf ini) .lo (v.setWidth 64) :=
    s.regAct_global ini _ _ _ (by decide)
  refine runs_write_word (r := .accerr) (ix := []) (by decide) ⟨hb, hs, rfl⟩ hact ?_
  unfold State.opAccerr
  generalize s.writeReg ini .accerrx [copyOf ini] .lo (v.setWidth 64) = x at hbits honly hregs
  have hword : (fAccerrxAddr_VALID (copyOf ini)).words = [aAccerrxAddr (copyOf ini) + 4] := rfl
  have happart : ∀ a ∈ (⟨aAccerrx (copyOf ini), 0, 8⟩ : Fld).words, a ∉ (fAccerrxAddr_VALID (copyOf ini)).words := by
    rw [hword]
    simp [Fld.words, aAccerrx, aAccerrxAddr]
    omega
  have hvalid : x.rd (fAccerrxAddr_VALID (copyOf ini)) = s.rd (fAccerrxAddr_VALID (copyOf ini)) :=
    honly _ fun f hf => .inl fun a ha haf => by
      obtain rfl := List.mem_singleton.1 hf
      exact happart a haf ha
  dsimp only
  split
  next h0 =>
    have hreg : (x.wr (fAccerrxAddr_VALID (copyOf ini)) 0).reg (aAccerrx (copyOf ini)) = 0 :=
      (State.reg_wr x _ 0 (happart _ (by simp [Fld.words]))).trans h0
    refine ⟨(State.rd_wr_ne x _ _ 0 happart).trans hbits, ?_, (honly.mono (by simp)).wr 0 (by simp) (by simp [fAccerrxAddr_VALID]),
      hregs.wr _ _⟩
    rw [if_pos hreg, State.rd_wr_self _ _ _ (by simp [fAccerrxAddr_VALID])]
    rfl
  next h0 =>
    exact ⟨hbits, hvalid, honly.mono (by simp), hregs⟩

/-! ## SCAN units (R71, R355) -/

/-- The reservations of the SCAN units: the unit's own and the others'. -/
theorem sum_scResv (s : State) (u : Fin 4) :
    ((List.range 4).map fun w => s.rd (fScResv_BW w)).sum =
      s.rd (fScResv_BW u) + (((List.finRange 4).filter (· ≠ u)).map fun (w : Fin 4) => s.rd (fScResv_BW w)).sum := by
  have hunits : List.finRange 4 = [0, 1, 2, 3] := rfl
  have hall : (List.range 4).map (fun w => s.rd (fScResv_BW w)) = (List.finRange 4).map fun (w : Fin 4) => s.rd (fScResv_BW w) := rfl
  rw [hall, hunits]
  have hothers : ∀ w : Fin 4, [0, 1, 2, 3].filter (· ≠ w) =
      match w with | 0 => [1, 2, 3] | 1 => [0, 2, 3] | 2 => [0, 1, 3] | 3 => [0, 1, 2] := by decide
  rw [hothers]
  match u with
  | 0 => rfl
  | 1 | 2 | 3 =>
    simp only [List.map_cons, List.map_nil, List.sum_cons, List.sum_nil]
    omega

theorem find_scResv : ∀ u : Fin 4, aScResv u % 4 = 0 ∧ Reg.find (aScResv u) = some (.scResv, [u.val], false) := by decide
theorem find_scWmark : ∀ u : Fin 4, aScWmark u % 4 = 0 ∧ Reg.find (aScWmark u) = some (.scWmark, [u.val], false) := by decide

/-- What a write of RESV does where the unit is not enabled: RSVD for a value above 400, then the budget (R71). -/
theorem opScanResv_disabled (s : State) (ini : Initiator) (u : Fin 4) (x : Nat) (he : s.scan[u].enabled = false) :
    let new := min (bitsOf x 0 9) 400
    let others := ((List.finRange 8).map fun (m : Fin 8) => s.rd (fSlResv_BW m)).sum +
      (((List.finRange 4).filter (· ≠ u)).map fun (w : Fin 4) => s.rd (fScResv_BW w)).sum
    let q := if 400 < bitsOf x 0 9 then s.accErr ini .rsvd (aScResv u) else s
    s.opScanResv ini u x =
      if s.rd (fScResv_BW u) < new ∧ 98304 < others + new then q.accErr ini .budget (aScResv u) else q.wr (fScResv_BW u) new := by
  intro new others q
  have hsum : (slices.map fun (m : Fin 8) => s.rd (fSlResv_BW m)).sum + ((List.range 4).map fun w => s.rd (fScResv_BW w)).sum -
      s.rd (fScResv_BW u) = others := by
    rw [sum_scResv s u]
    simp only [others, slices]
    omega
  have hnew : (if bitsOf x 0 9 ≤ 400 then bitsOf x 0 9 else 400) = new := by
    simp only [new]
    split <;> omega
  have hq : (if bitsOf x 0 9 ≤ 400 then s else s.accErr ini .rsvd (aScResv u)) = q := by
    simp only [q, ← Nat.not_lt, ite_not]
  unfold State.opScanResv
  rw [he]
  dsimp only
  rw [hsum, hnew, hq]
  simp only [Bool.false_eq_true, if_false, Bool.and_eq_true, decide_eq_true_eq]

theorem resvWrite_disabled (s : State) (ini : Initiator) (u : Fin 4) (x : Nat) (he : s.scan[u].enabled = false) :
    let t := s.opScanResv ini u x
    let new := min (bitsOf x 0 9) 400
    let others := ((List.finRange 8).map fun (m : Fin 8) => s.rd (fSlResv_BW m)).sum +
      (((List.finRange 4).filter (· ≠ u)).map fun (w : Fin 4) => s.rd (fScResv_BW w)).sum
    (bitsOf x 0 9 > 400 → t.rd (accBitFld ini .rsvd) = 1) ∧
    (s.rd (fScResv_BW u) < new ∧ 98304 < others + new → t.rd (fScResv_BW u) = s.rd (fScResv_BW u) ∧
      t.rd (accBitFld ini .budget) = 1) ∧
    (¬ (s.rd (fScResv_BW u) < new ∧ 98304 < others + new) → t.rd (fScResv_BW u) = new) ∧
    OnlyFlds s t (fScResv_BW u :: accFlds (copyOf ini)) ∧ OnlyRegs s t := by
  intro t new others
  have ht := opScanResv_disabled s ini u x he
  dsimp only at ht
  generalize hq : (if 400 < bitsOf x 0 9 then s.accErr ini .rsvd (aScResv u) else s) = q at ht
  have hoff : OffAcc (fScResv_BW u).addr := .inl (by simp only [fScResv_BW, aScResv]; omega)
  have hqonly : OnlyFlds s q (accFlds (copyOf ini)) := by
    subst hq
    split
    · exact (OnlyFlds.refl s _).accErr ini .rsvd _ fun _ h => h
    · exact OnlyFlds.refl s _
  have hqregs : OnlyRegs s q := by
    subst hq
    split
    · exact (OnlyRegs.refl s).accErr ini .rsvd _
    · exact OnlyRegs.refl s
  have hqrsvd : 400 < bitsOf x 0 9 → q.rd (accBitFld ini .rsvd) = 1 := fun h => by
    subst hq
    rw [if_pos h]
    exact s.rd_accErr_bit ini .rsvd _
  have hqonly' : OnlyFlds s q (fScResv_BW u :: accFlds (copyOf ini)) := hqonly.mono fun _ h => List.mem_cons_of_mem _ h
  have hnew : new % 2 ^ 9 = new := Nat.mod_eq_of_lt (by simp only [new]; omega)
  by_cases hover : s.rd (fScResv_BW u) < new ∧ 98304 < others + new
  · have ht : t = q.accErr ini .budget (aScResv u) := ht.trans (if_pos hover)
    rw [ht]
    refine ⟨fun h => q.rd_accErr_bit_keep ini _ _ _ (hqrsvd h), fun _ => ⟨?_, q.rd_accErr_bit ini _ _⟩, fun h => absurd hover h,
      hqonly'.accErr ini _ _ fun _ h => List.mem_cons_of_mem _ h, hqregs.accErr _ _ _⟩
    rw [q.rd_accErr _ _ _ hoff]
    exact hqonly _ (apart_accFlds hoff ini)
  · have ht : t = q.wr (fScResv_BW u) new := ht.trans (if_neg hover)
    rw [ht]
    refine ⟨fun h => ?_, fun h => absurd h hover, fun _ => (q.rd_wr_self _ _ (by simp [fScResv_BW])).trans hnew,
      hqonly'.wr _ (by simp) (by simp [fScResv_BW]), hqregs.wr _ _⟩
    refine (q.rd_wr_ne _ _ _ fun a ha haf => ?_).trans (hqrsvd h)
    have hc := copyOf_le ini
    rw [accBitFld_words, List.mem_singleton] at ha
    simp [Fld.words, fScResv_BW, aScResv, aAccerrx] at ha haf
    omega

/-- The word of WMARK after a write, and PANIC put right where it is above URG (R355). -/
theorem wmarkWrite_disabled (s : State) (ini : Initiator) (u : Fin 4) (v : Word) :
    let x := s.writeReg ini .scWmark [u.val] .lo (v.setWidth 64)
    let t := if x.rd (fScWmark_URG u) < x.rd (fScWmark_PANIC u) then
      (x.wr (fScWmark_PANIC u) 200).accErr ini .rsvd (aScWmark u) else x
    t.rd (fScWmark_URG u) = bitsOf v.toNat 16 16 ∧
    t.rd (fScWmark_PANIC u) = (if bitsOf v.toNat 16 16 < bitsOf v.toNat 0 16 then 200 else bitsOf v.toNat 0 16) ∧
    (bitsOf v.toNat 16 16 < bitsOf v.toNat 0 16 → t.rd (accBitFld ini .rsvd) = 1) ∧
    OnlyFlds s t (wordFld (aScWmark u) :: accFlds (copyOf ini)) ∧ OnlyRegs s t := by
  intro x t
  have hurg : x.rd (fScWmark_URG u) = bitsOf v.toNat 16 16 :=
    s.rd_writeReg_rw ini .scWmark [u.val] v ⟨16, 16, .rw, 400, false, []⟩ (by decide) rfl rfl (by decide)
  have hpanic : x.rd (fScWmark_PANIC u) = bitsOf v.toNat 0 16 :=
    s.rd_writeReg_rw ini .scWmark [u.val] v ⟨0, 16, .rw, 200, false, []⟩ (by decide) rfl rfl (by decide)
  have honly : OnlyFlds s x (wordFld (aScWmark u) :: accFlds (copyOf ini)) :=
    (s.onlyFlds_writeReg ini .scWmark [u.val] .lo (v.setWidth 64) (by decide)).mono fun f hf => by
      obtain rfl := List.mem_singleton.1 hf
      exact List.mem_cons_self
  have hregs : OnlyRegs s x := (OnlyRegs.refl s).writeReg ini .scWmark [u.val] .lo (v.setWidth 64)
  have hoff : OffAcc (aScWmark u) := .inl (by simp only [aScWmark]; omega)
  by_cases hlow : bitsOf v.toNat 16 16 < bitsOf v.toNat 0 16
  · have ht : t = (x.wr (fScWmark_PANIC u) 200).accErr ini .rsvd (aScWmark u) := if_pos (by rwa [hurg, hpanic])
    have hput : OnlyFlds s (x.wr (fScWmark_PANIC u) 200) (wordFld (aScWmark u) :: accFlds (copyOf ini)) :=
      honly.wr_word 200 List.mem_cons_self (by simp [fScWmark_PANIC]) (by simp [fScWmark_PANIC])
    rw [ht, if_pos hlow]
    refine ⟨?_, ?_, fun _ => State.rd_accErr_bit _ _ _ _, hput.accErr ini _ _ fun _ h => List.mem_cons_of_mem _ h,
      (hregs.wr _ _).accErr _ _ _⟩
    · rw [State.rd_accErr _ _ _ _ hoff, State.rd_wr_apart x (fScWmark_PANIC u) (fScWmark_URG u) _ rfl (by simp [fScWmark_PANIC])
        (by simp [fScWmark_PANIC, fScWmark_URG]), hurg]
    · rw [State.rd_accErr _ _ _ _ hoff, State.rd_wr_self _ _ _ (by simp [fScWmark_PANIC])]
      rfl
  · have ht : t = x := if_neg (by rwa [hurg, hpanic])
    rw [ht, if_neg hlow]
    exact ⟨hurg, hpanic, fun h => absurd h hlow, honly, hregs⟩

theorem scanRegWrite_holds : scanRegWrite := by
  intro ini u v s
  have hu : Fin.ofNat 4 u.val = u := Fin.ofNat_val_eq_self u
  have hlow : (v.setWidth 64).toNat = v.toNat := BitVec.toNat_setWidth_of_le (by decide)
  refine ⟨fun hr => ?_, fun hr => ?_⟩
  · have hact : s.regAct ini .scResv [u.val] .lo (v.setWidth 64) = s.opScanResv ini u v.toNat := by
      rw [State.regAct_scan _ _ _ _ _ (by decide) (by decide), ← hlow]
      exact congrArg (fun n => s.opScanResv ini n (v.setWidth 64).toNat) hu
    refine runs_write_word (find_scResv u) hr hact ?_
    cases he : s.scan[u].enabled with
    | true =>
      have hbusy : s.opScanResv ini u v.toNat = s.accErr ini .busy (aScResv u) := by
        rw [State.opScanResv, if_pos he]
      rw [hbusy]
      exact s.flagged_accErr ini .busy _
    | false => exact resvWrite_disabled s ini u v.toNat he
  · have hact : s.regAct ini .scWmark [u.val] .lo (v.setWidth 64) = s.opScanWmark ini u (v.setWidth 64) := by
      rw [State.regAct_scan _ _ _ _ _ (by decide) (by decide)]
      exact congrArg (fun n => s.opScanWmark ini n (v.setWidth 64)) hu
    refine runs_write_word (find_scWmark u) hr hact ?_
    unfold State.opScanWmark
    split
    next he => exact s.flagged_accErr ini .busy _
    next he =>
      exact wmarkWrite_disabled s ini u v

/-! ## Indices of rings (R22, R492, R503) -/

/-- An index within the ring is taken; one outside gives 0 with RSVD. -/
theorem indexWrite (s : State) (ini : Initiator) (f : Fld) (a x size : Nat) (hlo : f.lo = 0) (hw : f.w = 12) (hoff : OffAcc f.addr)
    (hx : x < 2 ^ 12) :
    let t := if x < size then s.wr f x else (s.wr f 0).accErr ini .rsvd a
    if x < size then t.rd f = x ∧ OnlyFlds s t [f] ∧ OnlyRegs s t
    else t.rd f = 0 ∧ t.rd (accBitFld ini .rsvd) = 1 ∧ OnlyFlds s t (f :: accFlds (copyOf ini)) ∧ OnlyRegs s t := by
  have hfit : f.lo + f.w ≤ 64 := by omega
  intro t
  by_cases h : x < size
  · have ht : t = s.wr f x := if_pos h
    rw [ht, if_pos h]
    exact ⟨by rw [State.rd_wr_self s f x hfit, hw, Nat.mod_eq_of_lt hx], (OnlyFlds.refl s _).wr x (by simp) hfit,
      (OnlyRegs.refl s).wr _ _⟩
  · have ht : t = (s.wr f 0).accErr ini .rsvd a := if_neg h
    rw [ht, if_neg h]
    exact ⟨by rw [State.rd_accErr _ _ _ _ hoff, State.rd_wr_self s f 0 hfit, Nat.zero_mod], State.rd_accErr_bit _ _ _ _,
      ((OnlyFlds.refl s _).wr 0 (by simp) hfit).accErr ini _ _ fun _ h => List.mem_cons_of_mem _ h,
      ((OnlyRegs.refl s).wr _ _).accErr _ _ _⟩

theorem find_dmaTail : ∀ c : Fin 16, aDmaTail c % 4 = 0 ∧ Reg.find (aDmaTail c) = some (.dmaTail, [c.val], false) := by decide
theorem find_etTxtail : ∀ e : Fin 2, aEtTxtail e % 4 = 0 ∧ Reg.find (aEtTxtail e) = some (.etTxtail, [e.val], false) := by decide
theorem find_etRxtail : ∀ e : Fin 2, aEtRxtail e % 4 = 0 ∧ Reg.find (aEtRxtail e) = some (.etRxtail, [e.val], false) := by decide

theorem ringIndexWrite_holds : ringIndexWrite := by
  intro ini v s takes
  have hlow : (v.setWidth 64).toNat = v.toNat := BitVec.toNat_setWidth_of_le (by decide)
  have hx : bitsOf v.toNat 0 12 < 2 ^ 12 := bitsOf_lt _ _ _
  refine ⟨fun c hr => ?_, fun e hr => ?_, fun e hr => ?_⟩
  · have hact : s.regAct ini .dmaTail [c.val] .lo (v.setWidth 64) = s.opDmaTail ini c v.toNat := by
      rw [State.regAct_global _ _ _ _ _ (by decide), ← hlow]
      exact congrArg (fun n => s.opDmaTail ini n (v.setWidth 64).toNat) (Fin.ofNat_val_eq_self c)
    exact runs_write_word (find_dmaTail c) hr hact
      (indexWrite s ini (fDmaTail_INDEX c) (aDmaTail c) _ (s.ringSize c) rfl rfl (.inl (by simp only [fDmaTail_INDEX, aDmaTail]; omega)) hx)
  · have hact : s.regAct ini .etTxtail [e.val] .lo (v.setWidth 64) =
        s.opEthTail ini (fEtTxtail_INDEX e) (fEtTxsz_LOG2 e) v.toNat := by
      rw [State.regAct_mgmt _ _ _ _ _ (by decide), ← hlow]
      rfl
    exact runs_write_word (find_etTxtail e) hr hact
      (indexWrite s ini (fEtTxtail_INDEX e) (aEtTxtail e) _ _ rfl rfl (.inl (by simp only [fEtTxtail_INDEX, aEtTxtail]; omega)) hx)
  · have hact : s.regAct ini .etRxtail [e.val] .lo (v.setWidth 64) =
        s.opEthTail ini (fEtRxtail_INDEX e) (fEtRxsz_LOG2 e) v.toNat := by
      rw [State.regAct_mgmt _ _ _ _ _ (by decide), ← hlow]
      rfl
    exact runs_write_word (find_etRxtail e) hr hact
      (indexWrite s ini (fEtRxtail_INDEX e) (aEtRxtail e) _ _ rfl rfl (.inl (by simp only [fEtRxtail_INDEX, aEtRxtail]; omega)) hx)

/-! ## Latched errors and warnings (R541, R497) -/

/-- The sources of Hamper, by blocks of 32. -/
theorem find_hmSrc_block : ∀ (b : Fin 16) (k : Fin 32),
    Reg.find (aHmSrc (32 * b.val + k.val)) = some (.hmSrc, [32 * b.val + k.val], false) := by decide

theorem find_hmSrc (i : Fin 512) : aHmSrc i % 4 = 0 ∧ Reg.find (aHmSrc i) = some (.hmSrc, [i.val], false) := by
  have h := find_hmSrc_block ⟨i / 32, by omega⟩ ⟨i % 32, by omega⟩
  simp only [show 32 * (i.val / 32) + i.val % 32 = i.val by omega] at h
  exact ⟨by simp only [aHmSrc]; omega, h⟩

theorem find_sensor : ∀ i : Fin 17, aSensor i % 4 = 0 ∧ Reg.find (aSensor i) = some (.sensor, [i.val], false) := by decide

/-- SRC[i] after a write: COUNT takes the written bits, and LATCHED clears where it was written 1 and no error is present. -/
theorem hmSrcWrite (s : State) (ini : Initiator) (i : Nat) (v : Word) :
    let t := s.opHmSrc ini i (v.setWidth 64)
    t.rd (fHmSrc_LATCHED i) = (if v.getLsbD 31 = true ∧ (s.hamper.find i).active = false then 0 else s.rd (fHmSrc_LATCHED i)) ∧
    t.rd (fHmSrc_COUNT i) = bitsOf v.toNat 0 16 ∧ OnlyFlds s t [fHmSrc_LATCHED i, fHmSrc_COUNT i] ∧ OnlyRegs s t := by
  intro t
  let part : FieldD → Bool := fun f => !(f.lo == 31 && (s.hamper.find i).active)
  have hcount : t.rd (fHmSrc_COUNT i) = bitsOf v.toNat 0 16 :=
    s.rd_writeSome_rw ini .hmSrc [i] v (part := part) ⟨0, 16, .rw, 0, false, []⟩ (by decide) (by simp [part]) rfl rfl (by decide)
  refine ⟨?_, hcount, ?_, (OnlyRegs.refl s).writeSome ini .hmSrc [i] .lo _ part⟩
  · cases ha : (s.hamper.find i).active with
    | true =>
      have h := rd_of_byFields (s.byFields_writeSome ini .hmSrc [i] .lo (v.setWidth 64) part)
        (f := ⟨31, 1, .rw1c, 0, false, []⟩) (by decide)
      rw [partVal_word, if_neg (by simp [part, ha])] at h
      rw [if_neg (by simp)]
      exact h
    | false =>
      have h := s.rd_writeSome_rw1c ini .hmSrc [i] v (part := part) ⟨31, 1, .rw1c, 0, false, []⟩ (by decide) (by simp [part, ha])
        rfl rfl (by decide)
      simp only [and_true]
      exact h
  · have hput := State.writeSome_eq_setVal s ini .hmSrc [i] .lo (v.setWidth 64) part (by decide)
    have ht : t = s.setVal .hmSrc [i] _ := hput
    rw [ht]
    refine s.onlyFlds_setVal_narrow .hmSrc [i] _ (fs := [⟨31, 1, .rw1c, 0, false, []⟩, ⟨0, 16, .rw, 0, false, []⟩]) rfl (by simp)
      (by simp) fun j hj => writeFields_outside_stores _ _ (fun f hf hs => hj f ?_) _
    have htable : ∀ f ∈ Reg.hmSrc.desc.fields, f.stores = true →
        f ∈ [⟨31, 1, .rw1c, 0, false, []⟩, (⟨0, 16, .rw, 0, false, []⟩ : FieldD)] := by decide
    exact htable f (List.mem_filter.1 hf).1 hs

/-- SENSOR[i] after a write: WARN clears where it was written 1 and the reading is below the limit. -/
theorem sensorWrite (s : State) (ini : Initiator) (i : Nat) (v : Word) :
    let t := s.opSensor ini i (v.setWidth 64)
    t.rd (fSensor_WARN i) =
      (if v.getLsbD 31 = true ∧ s.reached i (s.rd (fSensor_VALUE i)) = false then 0 else s.rd (fSensor_WARN i)) ∧
    OnlyFlds s t [fSensor_WARN i] ∧ OnlyRegs s t := by
  intro t
  cases hr : s.reached i (s.rd (fSensor_VALUE i)) with
  | true =>
    have ht : t = s := if_pos hr
    rw [ht, if_neg (by simp)]
    exact ⟨rfl, OnlyFlds.refl s _, OnlyRegs.refl s⟩
  | false =>
    have ht : t = s.writeReg ini .sensor [i] .lo (v.setWidth 64) := if_neg (by simp [hr])
    have hput : t = s.setVal .sensor [i] _ := ht.trans (State.writeSome_eq_setVal s ini .sensor [i] .lo (v.setWidth 64) _ (by decide))
    have hwarn := s.rd_writeSome_rw1c ini .sensor [i] v (part := fun _ => true) ⟨31, 1, .rw1c, 0, false, []⟩ (by decide) rfl
      rfl rfl (by decide)
    refine ⟨?_, ?_, ?_⟩
    · rw [ht]
      simp only [and_true]
      exact hwarn
    · rw [hput]
      refine s.onlyFlds_setVal_narrow .sensor [i] _ (fs := [⟨31, 1, .rw1c, 0, false, []⟩]) rfl (by simp)
        (by simp) fun j hj => writeFields_outside_stores _ _ (fun f hf hs => hj f ?_) _
      have htable : ∀ f ∈ Reg.sensor.desc.fields, f.stores = true → f ∈ [(⟨31, 1, .rw1c, 0, false, []⟩ : FieldD)] := by decide
      exact htable f (List.mem_filter.1 hf).1 hs
    · rw [ht]
      exact (OnlyRegs.refl s).writeReg ini .sensor [i] .lo _

theorem latchedWrite_holds : latchedWrite := by
  intro ini v s
  refine ⟨fun i hr => ?_, fun i hr => ?_⟩
  · have hact : s.regAct ini .hmSrc [i.val] .lo (v.setWidth 64) = s.opHmSrc ini i (v.setWidth 64) := by
      rw [State.regAct_mgmt _ _ _ _ _ (by decide)]
      rfl
    exact runs_write_word (find_hmSrc i) hr hact (hmSrcWrite s ini i v)
  · have hact : s.regAct ini .sensor [i.val] .lo (v.setWidth 64) = s.opSensor ini i (v.setWidth 64) := by
      rw [State.regAct_global _ _ _ _ _ (by decide)]
      rfl
    exact runs_write_word (find_sensor i) hr hact (sensorWrite s ini i v)

/-! ## PRESS.CFG (R569) -/

/-- PRESS.CFG after a write, with the pair put right where HARD is not above DRIFT. -/
theorem pressCfgWrite_word (s : State) (ini : Initiator) (v : Word) :
    let t := s.opPressCfg ini (v.setWidth 64)
    let hard := bitsOf v.toNat 8 8
    let drift := bitsOf v.toNat 0 8
    t.rd fPrCfg_HOLDOFF = bitsOf v.toNat 16 16 ∧
    t.rd fPrCfg_HARD = (if drift < hard then hard else 96) ∧ t.rd fPrCfg_DRIFT = (if drift < hard then drift else 32) ∧
    (hard ≤ drift → t.rd (accBitFld ini .rsvd) = 1) ∧
    OnlyFlds s t (wordFld aPrCfg :: if drift < hard then [] else accFlds (copyOf ini)) ∧ OnlyRegs s t := by
  intro t hard drift
  generalize hx : s.writeReg ini .prCfg [] .lo (v.setWidth 64) = x
  have hhold : x.rd fPrCfg_HOLDOFF = bitsOf v.toNat 16 16 :=
    hx ▸ s.rd_writeReg_rw ini .prCfg [] v ⟨16, 16, .rw, 100, false, []⟩ (by decide) rfl rfl (by decide)
  have hhard : x.rd fPrCfg_HARD = hard :=
    hx ▸ s.rd_writeReg_rw ini .prCfg [] v ⟨8, 8, .rw, 96, false, []⟩ (by decide) rfl rfl (by decide)
  have hdrift : x.rd fPrCfg_DRIFT = drift :=
    hx ▸ s.rd_writeReg_rw ini .prCfg [] v ⟨0, 8, .rw, 32, false, []⟩ (by decide) rfl rfl (by decide)
  have honly : OnlyFlds s x [wordFld aPrCfg] := hx ▸ s.onlyFlds_writeReg ini .prCfg [] .lo (v.setWidth 64) (by decide)
  have hregs : OnlyRegs s x := hx ▸ (OnlyRegs.refl s).writeReg ini .prCfg [] .lo (v.setWidth 64)
  have ht : t = if hard ≤ drift then ((x.wr fPrCfg_HARD 96).wr fPrCfg_DRIFT 32).accErr ini .rsvd aPrCfg else x := by
    rw [← hhard, ← hdrift, ← hx]
    rfl
  have hoff : OffAcc aPrCfg := by decide
  by_cases h : drift < hard
  · rw [ht, if_neg (by omega), if_pos h, if_pos h, if_pos h]
    exact ⟨hhold, hhard, hdrift, fun hle => absurd h (by omega), honly, hregs⟩
  · rw [ht, if_pos (by omega), if_neg h, if_neg h, if_neg h]
    have hput : OnlyFlds s ((x.wr fPrCfg_HARD 96).wr fPrCfg_DRIFT 32) (wordFld aPrCfg :: accFlds (copyOf ini)) :=
      ((honly.wr_word 96 (f := fPrCfg_HARD) (by decide) (by decide) (by decide)).wr_word 32 (f := fPrCfg_DRIFT) (by decide)
        (by decide) (by decide)).mono (by simp)
    refine ⟨?_, ?_, ?_, fun _ => State.rd_accErr_bit _ _ _ _, hput.accErr ini _ _ fun _ h => List.mem_cons_of_mem _ h,
      ((hregs.wr _ _).wr _ _).accErr _ _ _⟩
    · rw [State.rd_accErr _ _ _ _ hoff, State.rd_wr_apart _ fPrCfg_DRIFT fPrCfg_HOLDOFF _ rfl (by decide) (by decide),
        State.rd_wr_apart _ fPrCfg_HARD fPrCfg_HOLDOFF _ rfl (by decide) (by decide), hhold]
    · rw [State.rd_accErr _ _ _ _ hoff, State.rd_wr_apart _ fPrCfg_DRIFT fPrCfg_HARD _ rfl (by decide) (by decide),
        State.rd_wr_self _ _ _ (by decide)]
      rfl
    · rw [State.rd_accErr _ _ _ _ hoff, State.rd_wr_self _ _ _ (by decide)]
      rfl

theorem pressCfgWrite_holds : pressCfgWrite := by
  intro ini v s hr
  have hact : s.regAct ini .prCfg [] .lo (v.setWidth 64) = s.opPressCfg ini (v.setWidth 64) := by
    rw [State.regAct_mgmt _ _ _ _ _ (by decide)]
    rfl
  exact runs_write_word (by decide) hr hact (pressCfgWrite_word s ini v)

end Sys2Proof.Machine
end

section
/-! Writes of TDCCFG and of an Ethernet port's rings and CTRL (spec/07 R266, R287; spec/03 R94; spec/14 R505). -/

namespace Sys2Proof.Machine

open Sys2Proof Claim

/-! ## TDCCFG (R266, R287) -/

/-- A field put to 0 where a condition holds. -/
def State.zeroIf (s : State) (c : Prop) [Decidable c] (f : Fld) : State := if c then s.wr f 0 else s

theorem State.rd_zeroIf_self (s : State) (c : Prop) [Decidable c] {f : Fld} (h : f.lo + f.w ≤ 64) :
    (s.zeroIf c f).rd f = if c then 0 else s.rd f := by
  unfold State.zeroIf
  split
  · rw [State.rd_wr_self s f 0 h, Nat.zero_mod]
  · rfl

theorem State.rd_zeroIf_apart (s : State) (c : Prop) [Decidable c] {f g : Fld} (e : g.addr = f.addr) (h : f.lo + f.w ≤ 64)
    (k : f.lo + f.w ≤ g.lo ∨ g.lo + g.w ≤ f.lo) : (s.zeroIf c f).rd g = s.rd g := by
  unfold State.zeroIf
  split
  · exact State.rd_wr_apart s f g 0 e h k
  · rfl

theorem OnlyFlds.zeroIf_word {s t : State} {fs : List Fld} (h : OnlyFlds s t fs) (c : Prop) [Decidable c] {f : Fld}
    (hf : wordFld f.addr ∈ fs) (hlo : f.lo < 32) (h32 : f.lo + f.w ≤ 32) : OnlyFlds s (t.zeroIf c f) fs := by
  unfold State.zeroIf
  split
  · exact h.wr_word 0 hf hlo h32
  · exact h

theorem OnlyRegs.zeroIf {s t : State} (h : OnlyRegs s t) (c : Prop) [Decidable c] (f : Fld) : OnlyRegs s (t.zeroIf c f) := by
  unfold State.zeroIf
  split
  · exact h.wr f 0
  · exact h

theorem find_slTdccfg : ∀ n : Fin 8, aSlTdccfg n % 4 = 0 ∧ Reg.find (aSlTdccfg n) = some (.slTdccfg, [n.val], false) := by decide

/-- The fields of TDCCFG that a word written gives. -/
theorem rd_writeReg_tdccfg (s : State) (ini : Initiator) (n : Nat) (v : Word) :
    let x := s.writeReg ini .slTdccfg [n] .lo (v.setWidth 64)
    x.rd (fSlTdccfg_STOPSKIP n) = bitsOf v.toNat 16 8 ∧ x.rd (fSlTdccfg_STOP_KIND n) = bitsOf v.toNat 14 2 ∧
    x.rd (fSlTdccfg_START_KIND n) = bitsOf v.toNat 6 2 ∧ x.rd (fSlTdccfg_STOP_SEL n) = bitsOf v.toNat 8 5 ∧
    x.rd (fSlTdccfg_START_SEL n) = bitsOf v.toNat 0 5 :=
  ⟨s.rd_writeReg_rw ini .slTdccfg [n] v ⟨16, 8, .rw, 0, false, []⟩ (by decide) rfl rfl (by decide),
    s.rd_writeReg_rw ini .slTdccfg [n] v ⟨14, 2, .rw, 0, false, []⟩ (by decide) rfl rfl (by decide),
    s.rd_writeReg_rw ini .slTdccfg [n] v ⟨6, 2, .rw, 0, false, []⟩ (by decide) rfl rfl (by decide),
    s.rd_writeReg_rw ini .slTdccfg [n] v ⟨8, 5, .rw, 0, false, []⟩ (by decide) rfl rfl (by decide),
    s.rd_writeReg_rw ini .slTdccfg [n] v ⟨0, 5, .rw, 0, false, []⟩ (by decide) rfl rfl (by decide)⟩

/-- A selection of a marker beyond 1 (R287). -/
abbrev MarkerBad (kind sel : Nat) : Prop := kind = 3 ∧ 1 < sel

/-- TDCCFG as it is written, each selection of a marker beyond 1 put to 0, with RSVD. -/
theorem opTdccfg_idle (s : State) (ini : Initiator) (n : Fin 8) (v : Word) (h : s.sl[n].tdcArmed = false) :
    let stopBad := MarkerBad (bitsOf v.toNat 14 2) (bitsOf v.toNat 8 5)
    let startBad := MarkerBad (bitsOf v.toNat 6 2) (bitsOf v.toNat 0 5)
    let z := ((s.writeReg ini .slTdccfg [n.val] .lo (v.setWidth 64)).zeroIf stopBad (fSlTdccfg_STOP_SEL n)).zeroIf startBad
      (fSlTdccfg_START_SEL n)
    s.opTdccfg ini n (v.setWidth 64) = if stopBad ∨ startBad then z.accErr ini .rsvd (aSlTdccfg n) else z := by
  obtain ⟨-, hstopKind, hstartKind, hstopSel, hstartSel⟩ := rd_writeReg_tdccfg s ini n v
  unfold State.opTdccfg State.zeroIf
  rw [if_neg (by rw [h]; exact Bool.false_ne_true)]
  dsimp only
  rw [hstopKind, hstartKind, hstopSel, hstartSel]
  simp only [Bool.and_eq_true, Bool.or_eq_true, beq_iff_eq, decide_eq_true_eq, MarkerBad]

/-- TDCCFG after a write while the TDC is not armed. -/
theorem tdccfgWrite_idle (s : State) (ini : Initiator) (n : Fin 8) (v : Word) (h : s.sl[n].tdcArmed = false) :
    let t := s.opTdccfg ini n (v.setWidth 64)
    let stopBad := MarkerBad (bitsOf v.toNat 14 2) (bitsOf v.toNat 8 5)
    let startBad := MarkerBad (bitsOf v.toNat 6 2) (bitsOf v.toNat 0 5)
    t.rd (fSlTdccfg_STOPSKIP n) = bitsOf v.toNat 16 8 ∧
    t.rd (fSlTdccfg_STOP_KIND n) = bitsOf v.toNat 14 2 ∧ t.rd (fSlTdccfg_START_KIND n) = bitsOf v.toNat 6 2 ∧
    t.rd (fSlTdccfg_STOP_SEL n) = (if stopBad then 0 else bitsOf v.toNat 8 5) ∧
    t.rd (fSlTdccfg_START_SEL n) = (if startBad then 0 else bitsOf v.toNat 0 5) ∧
    (stopBad ∨ startBad → t.rd (accBitFld ini .rsvd) = 1) ∧
    OnlyFlds s t (wordFld (aSlTdccfg n) :: accFlds (copyOf ini)) ∧ OnlyRegs s t := by
  intro t stopBad startBad
  have ht : t = _ := opTdccfg_idle s ini n v h
  obtain ⟨hskip, hstopKind, hstartKind, hstopSel, hstartSel⟩ := rd_writeReg_tdccfg s ini n v
  have honly : OnlyFlds s (s.writeReg ini .slTdccfg [n.val] .lo (v.setWidth 64)) (wordFld (aSlTdccfg n) :: accFlds (copyOf ini)) :=
    (s.onlyFlds_writeReg ini .slTdccfg [n.val] .lo (v.setWidth 64) (by decide)).mono fun f hf => by
      obtain rfl := List.mem_singleton.1 hf
      exact List.mem_cons_self
  have hregs := (OnlyRegs.refl s).writeReg ini .slTdccfg [n.val] .lo (v.setWidth 64)
  generalize s.writeReg ini .slTdccfg [n.val] .lo (v.setWidth 64) = x at *
  have hz : ∀ g : Fld, g.addr = aSlTdccfg n → (13 ≤ g.lo ∨ g.lo + g.w ≤ 8) → (5 ≤ g.lo ∨ g.lo + g.w ≤ 0) →
      ((x.zeroIf stopBad (fSlTdccfg_STOP_SEL n)).zeroIf startBad (fSlTdccfg_START_SEL n)).rd g = x.rd g := by
    intro g hg hstop hstart
    rw [State.rd_zeroIf_apart _ _ hg (by simp [fSlTdccfg_START_SEL]) (by simpa [fSlTdccfg_START_SEL] using hstart),
      State.rd_zeroIf_apart _ _ hg (by simp [fSlTdccfg_STOP_SEL]) (by simpa [fSlTdccfg_STOP_SEL] using hstop)]
  have hzstop : ((x.zeroIf stopBad (fSlTdccfg_STOP_SEL n)).zeroIf startBad (fSlTdccfg_START_SEL n)).rd (fSlTdccfg_STOP_SEL n) =
      if stopBad then 0 else bitsOf v.toNat 8 5 := by
    rw [State.rd_zeroIf_apart _ _ (f := fSlTdccfg_START_SEL n) (g := fSlTdccfg_STOP_SEL n) rfl (by simp [fSlTdccfg_START_SEL])
      (by simp [fSlTdccfg_START_SEL, fSlTdccfg_STOP_SEL]), State.rd_zeroIf_self _ _ (by simp [fSlTdccfg_STOP_SEL]), hstopSel]
  have hzstart : ((x.zeroIf stopBad (fSlTdccfg_STOP_SEL n)).zeroIf startBad (fSlTdccfg_START_SEL n)).rd (fSlTdccfg_START_SEL n) =
      if startBad then 0 else bitsOf v.toNat 0 5 := by
    rw [State.rd_zeroIf_self _ _ (by simp [fSlTdccfg_START_SEL]),
      State.rd_zeroIf_apart _ _ (f := fSlTdccfg_STOP_SEL n) (g := fSlTdccfg_START_SEL n) rfl (by simp [fSlTdccfg_STOP_SEL])
      (by simp [fSlTdccfg_START_SEL, fSlTdccfg_STOP_SEL]), hstartSel]
  have hzonly := (honly.zeroIf_word stopBad (f := fSlTdccfg_STOP_SEL n) List.mem_cons_self (by simp [fSlTdccfg_STOP_SEL])
    (by simp [fSlTdccfg_STOP_SEL])).zeroIf_word startBad (f := fSlTdccfg_START_SEL n) List.mem_cons_self
    (by simp [fSlTdccfg_START_SEL]) (by simp [fSlTdccfg_START_SEL])
  have hzregs := (hregs.zeroIf stopBad (fSlTdccfg_STOP_SEL n)).zeroIf startBad (fSlTdccfg_START_SEL n)
  have hzskip := (hz (fSlTdccfg_STOPSKIP n) rfl (by simp [fSlTdccfg_STOPSKIP]) (by simp [fSlTdccfg_STOPSKIP])).trans hskip
  have hzstopKind := (hz (fSlTdccfg_STOP_KIND n) rfl (by simp [fSlTdccfg_STOP_KIND]) (by simp [fSlTdccfg_STOP_KIND])).trans hstopKind
  have hzstartKind := (hz (fSlTdccfg_START_KIND n) rfl (by simp [fSlTdccfg_START_KIND]) (by simp [fSlTdccfg_START_KIND])).trans
    hstartKind
  generalize (x.zeroIf stopBad (fSlTdccfg_STOP_SEL n)).zeroIf startBad (fSlTdccfg_START_SEL n) = z at *
  by_cases hbad : stopBad ∨ startBad
  · have hoff : OffAcc (aSlTdccfg n) := .inl (by simp only [aSlTdccfg]; omega)
    have hkeep : ∀ g : Fld, g.addr = aSlTdccfg n → (z.accErr ini .rsvd (aSlTdccfg n)).rd g = z.rd g := fun g hg =>
      z.rd_accErr ini .rsvd _ (hg ▸ hoff)
    rw [ht, if_pos hbad, hkeep _ rfl, hkeep _ rfl, hkeep _ rfl, hkeep _ rfl, hkeep _ rfl]
    exact ⟨hzskip, hzstopKind, hzstartKind, hzstop, hzstart, fun _ => State.rd_accErr_bit _ _ _ _,
      hzonly.accErr ini _ _ fun _ h => List.mem_cons_of_mem _ h, hzregs.accErr _ _ _⟩
  · rw [ht, if_neg hbad]
    exact ⟨hzskip, hzstopKind, hzstartKind, hzstop, hzstart, fun h => absurd h hbad, hzonly, hzregs⟩

theorem tdccfgWrite_holds : tdccfgWrite := by
  intro ini n v s hr
  have hact : s.regAct ini .slTdccfg [n.val] .lo (v.setWidth 64) = s.opTdccfg ini n (v.setWidth 64) := by
    rw [State.regAct_slice _ _ _ _ _ (by decide) (by decide)]
    exact congrArg (fun m => s.opTdccfg ini m (v.setWidth 64)) (Fin.ofNat_val_eq_self n)
  refine runs_write_word (find_slTdccfg n) hr hact ?_
  cases h : s.sl[n].tdcArmed with
  | true =>
    have hbusy : s.opTdccfg ini n (v.setWidth 64) = s.accErr ini .busy (aSlTdccfg n) := if_pos h
    rw [hbusy]
    exact s.flagged_accErr ini .busy _
  | false => exact tdccfgWrite_idle s ini n v h

/-! ## Rings of an Ethernet port (R94, R505) -/

/-- The base of a ring after a write, put to 0 with RSVD where it lies outside the firmware-private area. -/
theorem ethRingWrite_stopped (s : State) (ini : Initiator) (e : Fin 2) {r : Reg} (p : Part) (v : DWord)
    (hr : r = .etTxring ∨ r = .etRxring) (h : s.on (fEtCtrl_EN e) = false) :
    let t := s.opEthRing ini r e p (partVal p v)
    let new := ((s.regVal r [e.val] &&& ~~~p.mask) ||| (partVal p v &&& p.mask)).toNat
    let base := bitsOf new 6 30 * 64
    bitsOf (t.regVal r [e.val]).toNat 6 30 = (if inPrivate base 64 = true then bitsOf new 6 30 else 0) ∧
    (inPrivate base 64 = false → t.rd (accBitFld ini .rsvd) = 1) ∧
    OnlyFlds s t (regWords r [e.val] ++ accFlds (copyOf ini)) ∧ OnlyRegs s t := by
  intro t new base
  have hfield : (⟨6, 30, .rw, 0, false, []⟩ : FieldD) ∈ r.desc.fields := by rcases hr with rfl | rfl <;> decide
  have hok : ∀ f ∈ r.desc.fields, f.ok = [] := by rcases hr with rfl | rfl <;> decide
  have hbits : 6 + 30 ≤ r.bits := by rcases hr with rfl | rfl <;> decide
  have hoff : OffAcc (r.addr [e.val]) := by
    rcases hr with rfl | rfl <;> exact .inl (by simp [Reg.addr, Reg.desc]; omega)
  have hnew := (s.byFields_writeReg ini r [e.val] p v).1 _ hfield
  rw [if_pos rfl, fieldAfter_rw _ _ _ rfl rfl] at hnew
  have honly := (s.onlyFlds_writeReg ini r [e.val] p (partVal p v) hok).mono (gs := regWords r [e.val] ++ accFlds (copyOf ini))
    fun f hf => List.mem_append_left _ hf
  have hregs := (OnlyRegs.refl s).writeReg ini r [e.val] p (partVal p v)
  have ht : t = if inPrivate (bitsOf ((s.writeReg ini r [e.val] p (partVal p v)).regVal r [e.val]).toNat 6 30 * 64) 64 = true then
      s.writeReg ini r [e.val] p (partVal p v)
    else ((s.writeReg ini r [e.val] p (partVal p v)).setVal r [e.val] 0).accErr ini .rsvd (r.at [e.val] p) :=
    if_neg (by rw [h]; exact Bool.false_ne_true)
  generalize s.writeReg ini r [e.val] p (partVal p v) = x at *
  rw [hnew] at ht
  cases hin : inPrivate base 64 with
  | true =>
    have ht : t = x := ht.trans (if_pos hin)
    rw [ht]
    exact ⟨hnew, fun h => absurd h (by simp), honly, hregs⟩
  | false =>
    have ht : t = (x.setVal r [e.val] 0).accErr ini .rsvd (r.at [e.val] p) :=
      ht.trans (if_neg fun h => Bool.false_ne_true (hin.symm.trans h))
    rw [ht]
    refine ⟨?_, fun _ => State.rd_accErr_bit _ _ _ _, (honly.setVal r _ _ fun f hf => List.mem_append_left _ hf).accErr ini _ _
      fun f hf => List.mem_append_right _ hf, (hregs.setVal r _ _).accErr _ _ _⟩
    rw [State.regVal_accErr _ _ _ _ hoff, State.bitsOf_regVal_setVal _ _ _ _ hbits]
    exact bitsOf_zero 6 30

theorem ethRingWrite_holds : ethRingWrite := by
  intro ini a size e r p v s hr hn hreach
  have hact : s.regAct ini (ownCopy ini r [e.val]).1 (ownCopy ini r [e.val]).2 p (partVal p v) =
      s.opEthRing ini r e p (partVal p v) := by
    have hown : ownCopy ini r [e.val] = (r, [e.val]) := by rcases hr with rfl | rfl <;> rfl
    rw [hown]
    rcases hr with rfl | rfl
    · rw [State.regAct_mgmt (r := .etTxring) _ _ _ _ _ (by decide)]
      exact congrArg (fun m => s.opEthRing ini .etTxring m p (partVal p v)) (Fin.ofNat_val_eq_self e)
    · rw [State.regAct_mgmt (r := .etRxring) _ _ _ _ _ (by decide)]
      exact congrArg (fun m => s.opEthRing ini .etRxring m p (partVal p v)) (Fin.ofNat_val_eq_self e)
  refine runs_write_reaches hn hreach ?_
  rw [hact]
  have hon := State.on_eq_decide s (fEtCtrl_EN e) rfl
  by_cases h : s.rd (fEtCtrl_EN e) = 1
  · have hbusy : s.opEthRing ini r e p (partVal p v) = s.accErr ini .busy (r.at [e] p) := if_pos (by rw [hon, h]; rfl)
    simp only [if_pos h]
    rw [hbusy]
    exact s.flagged_accErr ini .busy _
  · simp only [if_neg h]
    exact ethRingWrite_stopped s ini e p v hr (by rw [hon, decide_eq_false h])

end Sys2Proof.Machine
end

section
/-! Writes of CTRL of an Ethernet port (spec/14 R505), and the statement of the family's writes and reads as a whole. -/

namespace Sys2Proof.Machine

open Sys2Proof Claim

/-! ## The frames that wait behind a port's current one -/

theorem keepCurrent_sublist (e : Fin 2) (l : List EthFrame) : (keepCurrent e l).Sublist l := by
  induction l with
  | nil => exact .slnil
  | cons f l ih =>
    rw [keepCurrent]
    split
    · exact List.filter_sublist.cons_cons f
    · exact ih.cons_cons f

/-- Of the port's frames the first is kept. -/
theorem filter_port_keepCurrent (e : Fin 2) (l : List EthFrame) :
    (keepCurrent e l).filter (fun x => x.port == e) = (l.filter fun x => x.port == e).take 1 := by
  induction l with
  | nil => rfl
  | cons f l ih =>
    rw [keepCurrent]
    split
    next h => simp [h, List.filter_filter]
    next h => simpa [h] using ih

/-- The frames of the other port are kept. -/
theorem filter_other_keepCurrent (e : Fin 2) (l : List EthFrame) :
    (keepCurrent e l).filter (fun x => x.port != e) = l.filter fun x => x.port != e := by
  induction l with
  | nil => rfl
  | cons f l ih =>
    rw [keepCurrent]
    split
    next h => simp [h, List.filter_filter]
    next h => simpa [h] using ih

/-- Each frame is the port's or the other's. -/
theorem length_eq_ports (e : Fin 2) (l : List EthFrame) :
    l.length = (l.filter fun x => x.port == e).length + (l.filter fun x => x.port != e).length := by
  induction l with
  | nil => rfl
  | cons f l ih =>
    rw [List.length_cons, ih]
    cases hp : f.port == e with
    | true =>
      simp only [List.filter_cons, bne, hp, Bool.not_true, if_true, Bool.false_eq_true, if_false, List.length_cons]
      omega
    | false =>
      simp only [List.filter_cons, bne, hp, Bool.not_false, if_true, Bool.false_eq_true, if_false, List.length_cons]
      omega

/-- As many frames are dropped as the port has behind its first. -/
theorem length_sub_keepCurrent (e : Fin 2) (l : List EthFrame) :
    l.length - (keepCurrent e l).length = (l.filter fun x => x.port == e).length - 1 := by
  have hall := length_eq_ports e l
  have hkept := length_eq_ports e (keepCurrent e l)
  rw [filter_port_keepCurrent, filter_other_keepCurrent, List.length_take] at hkept
  omega

/-! ## Frames dropped for want of a descriptor -/

theorem State.rd_rxdrop_ethNoBuf (s : State) (e : Fin 2) :
    (s.ethNoBuf e).rd (fEtRxdrop_COUNT e) = min (s.rd (fEtRxdrop_COUNT e) + 1) (2 ^ 32 - 1) := by
  unfold State.ethNoBuf State.addSat
  rw [State.rd_wr_ne _ (fEtStat_NOBUF e) (fEtRxdrop_COUNT e) _
      (by simp [Fld.words, fEtStat_NOBUF, fEtRxdrop_COUNT, aEtStat, aEtRxdrop]),
    State.rd_wr_self _ _ _ (by simp [fEtRxdrop_COUNT])]
  exact Nat.mod_eq_of_lt (by simp only [fEtRxdrop_COUNT]; omega)

theorem State.rd_nobuf_ethNoBuf (s : State) (e : Fin 2) : (s.ethNoBuf e).rd (fEtStat_NOBUF e) = 1 := by
  unfold State.ethNoBuf
  rw [State.rd_wr_self _ _ _ (by simp [fEtStat_NOBUF])]
  rfl

theorem State.onlyFlds_ethNoBuf (s : State) (e : Fin 2) :
    OnlyFlds s (s.ethNoBuf e) [fEtRxdrop_COUNT e, fEtStat_NOBUF e] :=
  ((OnlyFlds.refl s _).addSat 1 (by simp) (by simp [fEtRxdrop_COUNT])).wr 1 (by simp) (by simp [fEtStat_NOBUF])

theorem State.onlyRegs_ethNoBuf (s : State) (e : Fin 2) : OnlyRegs s (s.ethNoBuf e) := by
  unfold State.ethNoBuf State.addSat
  exact ((OnlyRegs.refl s).wr _ _).wr _ _

theorem State.each_cons {α : Type} (s : State) (a : α) (l : List α) (f : α → State → State) :
    s.each (a :: l) f = (f a s).each l f := rfl

/-- Frames dropped one by one: each is counted, RXDROP stopping at its greatest value. -/
theorem ethNoBuf_each (e : Fin 2) (l : List Nat) (s : State) :
    let t := s.each l fun _ s => s.ethNoBuf e
    t.rd (fEtRxdrop_COUNT e) = min (s.rd (fEtRxdrop_COUNT e) + l.length) (2 ^ 32 - 1) ∧
    (t.rd (fEtStat_NOBUF e) = if l.length = 0 then s.rd (fEtStat_NOBUF e) else 1) ∧
    OnlyFlds s t [fEtRxdrop_COUNT e, fEtStat_NOBUF e] ∧ OnlyRegs s t := by
  induction l generalizing s with
  | nil =>
    intro t
    have ht : t = s := rfl
    have hlt : s.rd (fEtRxdrop_COUNT e) < 2 ^ 32 := s.rd_lt (fEtRxdrop_COUNT e)
    rw [ht, List.length_nil, if_pos rfl]
    exact ⟨by omega, rfl, OnlyFlds.refl s _, OnlyRegs.refl s⟩
  | cons a l ih =>
    intro t
    have ht : t = (s.ethNoBuf e).each l fun _ s => s.ethNoBuf e := s.each_cons a l _
    obtain ⟨hcount, hnobuf, honly, hregs⟩ := ih (s.ethNoBuf e)
    rw [← ht] at hcount hnobuf honly hregs
    rw [s.rd_rxdrop_ethNoBuf e] at hcount
    rw [s.rd_nobuf_ethNoBuf e, ite_self] at hnobuf
    clear_value t
    rw [List.length_cons, if_neg (Nat.succ_ne_zero _)]
    exact ⟨by omega, hnobuf, (s.onlyFlds_ethNoBuf e).trans honly, (s.onlyRegs_ethNoBuf e).trans hregs⟩

/-! ## CTRL (R505) -/

/-- CTRL after its word was written, before the frames are looked at. -/
theorem ethCtrlWrite_word (s : State) (ini : Initiator) (e : Fin 2) (p : Part) (v : DWord) :
    let x := s.writeReg ini .etCtrl [e.val] p (partVal p v)
    x.rd (fEtCtrl_EN e) = bitsOf ((s.regVal .etCtrl [e.val] &&& ~~~p.mask) ||| (partVal p v &&& p.mask)).toNat 31 1 ∧
    x.rd (fEtRxdrop_COUNT e) = s.rd (fEtRxdrop_COUNT e) ∧ x.rd (fEtStat_NOBUF e) = s.rd (fEtStat_NOBUF e) ∧
    OnlyFlds s x (regWords .etCtrl [e.val]) ∧ OnlyRegs s x := by
  intro x
  have honly : OnlyFlds s x (regWords .etCtrl [e.val]) := s.onlyFlds_writeReg ini .etCtrl [e.val] p (partVal p v) (by decide)
  have hen := rd_of_byFields (s.byFields_writeReg ini .etCtrl [e.val] p v) (f := ⟨31, 1, .rw, 0, false, []⟩) (by decide)
  rw [if_pos rfl, fieldAfter_rw _ _ _ rfl rfl] at hen
  have hkeep : ∀ g : Fld, aEtCtrl e ∉ g.words → x.rd g = s.rd g := fun g hg => honly g fun f hf => by
    obtain rfl := List.mem_singleton.1 hf
    refine .inl fun a ha haf => hg ?_
    obtain rfl := List.mem_singleton.1 haf
    exact ha
  exact ⟨hen, hkeep _ (by simp [Fld.words, fEtRxdrop_COUNT, aEtRxdrop, aEtCtrl]), hkeep _
    (by simp [Fld.words, fEtStat_NOBUF, aEtStat, aEtCtrl]), honly, (OnlyRegs.refl s).writeReg _ _ _ _ _⟩

theorem OnlyRegs.ethHeld {s t : State} (h : OnlyRegs s t) : t.ethHeld = s.ethHeld := by rw [h]

/-- A port stopped: of its frames the first is kept, and each one behind it is dropped and counted. -/
def State.dropBehind (s : State) (e : Fin 2) : State :=
  { s with ethHeld := keepCurrent e s.ethHeld }.each (List.range (s.ethHeld.length - (keepCurrent e s.ethHeld).length))
    fun _ s => s.ethNoBuf e

theorem State.opEthCtrl_eq (s : State) (ini : Initiator) (e : Fin 2) (p : Part) (v : DWord) :
    s.opEthCtrl ini e p v =
      let x := s.writeReg ini .etCtrl [e] p v
      if x.on (fEtCtrl_EN e) then x else x.dropBehind e := rfl

theorem dropBehind_of_onlyRegs (s x : State) (e : Fin 2) (hregs : OnlyRegs s x) :
    let t := x.dropBehind e
    let gone := (s.ethHeld.filter fun x => x.port == e).length - 1
    t.rd (fEtCtrl_EN e) = x.rd (fEtCtrl_EN e) ∧ t.ethHeld = keepCurrent e s.ethHeld ∧
    t.rd (fEtRxdrop_COUNT e) = min (x.rd (fEtRxdrop_COUNT e) + gone) (2 ^ 32 - 1) ∧
    (t.rd (fEtStat_NOBUF e) = if gone = 0 then x.rd (fEtStat_NOBUF e) else 1) ∧
    OnlyFlds x t [fEtRxdrop_COUNT e, fEtStat_NOBUF e] ∧ t = { s with regs := t.regs, ethHeld := t.ethHeld } := by
  intro t gone
  have hheld : x.ethHeld = s.ethHeld := hregs.ethHeld
  obtain ⟨hcount, hnobuf, honly, htregs⟩ := ethNoBuf_each e (List.range (x.ethHeld.length - (keepCurrent e x.ethHeld).length))
    { x with ethHeld := keepCurrent e x.ethHeld }
  have hgone : (List.range (x.ethHeld.length - (keepCurrent e x.ethHeld).length)).length = gone := by
    rw [List.length_range, length_sub_keepCurrent, hheld]
  rw [hgone] at hcount hnobuf
  have hleft : t.ethHeld = keepCurrent e s.ethHeld := (congrArg State.ethHeld htregs).trans (congrArg (keepCurrent e) hheld)
  have hput : OnlyFlds x t [fEtRxdrop_COUNT e, fEtStat_NOBUF e] := ((OnlyFlds.refl x _).of_regs rfl).trans honly
  refine ⟨hput _ fun f hf => .inl ?_, hleft, hcount, hnobuf, hput, ?_⟩
  · simp only [List.mem_cons, List.not_mem_nil, or_false] at hf
    rcases hf with rfl | rfl <;>
      simp [Fld.words, fEtCtrl_EN, fEtRxdrop_COUNT, fEtStat_NOBUF, aEtCtrl, aEtRxdrop, aEtStat]
  · calc t = { x with regs := t.regs, ethHeld := keepCurrent e x.ethHeld } := htregs
      _ = { s with regs := t.regs, ethHeld := keepCurrent e x.ethHeld } :=
        congrArg (fun y : State => { y with regs := t.regs, ethHeld := keepCurrent e x.ethHeld }) hregs
      _ = { s with regs := t.regs, ethHeld := t.ethHeld } := by rw [hleft, hheld]

theorem ethCtrlWrite_holds : ethCtrlWrite := by
  intro ini a size e p v s hn hreach
  have hact : s.regAct ini (ownCopy ini .etCtrl [e.val]).1 (ownCopy ini .etCtrl [e.val]).2 p (partVal p v) =
      s.opEthCtrl ini e p (partVal p v) := by
    rw [ownCopy_eq (by decide) (by decide), State.regAct_mgmt (r := .etCtrl) _ _ _ _ _ (by decide)]
    exact congrArg (fun m => s.opEthCtrl ini m p (partVal p v)) (Fin.ofNat_val_eq_self e)
  refine runs_write_reaches hn hreach ?_
  rw [hact]
  obtain ⟨hen, hcount, hnobuf, honly, hregs⟩ := ethCtrlWrite_word s ini e p v
  rw [State.opEthCtrl_eq]
  dsimp only
  generalize s.writeReg ini .etCtrl [e.val] p (partVal p v) = x at *
  have hon := State.on_eq_decide x (fEtCtrl_EN e) rfl
  have hmono : OnlyFlds s x (regWords .etCtrl [e.val] ++ [fEtRxdrop_COUNT e, fEtStat_NOBUF e]) :=
    honly.mono fun _ hf => List.mem_append_left _ hf
  have hbit := bitsOf_lt ((s.regVal .etCtrl [e.val] &&& ~~~p.mask) ||| (partVal p v &&& p.mask)).toNat 31 1
  generalize bitsOf ((s.regVal .etCtrl [e.val] &&& ~~~p.mask) ||| (partVal p v &&& p.mask)).toNat 31 1 = new at *
  obtain rfl | rfl : new = 1 ∨ new = 0 := by omega
  · have hlt : s.rd (fEtRxdrop_COUNT e) < 2 ^ 32 := s.rd_lt (fEtRxdrop_COUNT e)
    rw [if_pos (hon.trans (decide_eq_true hen)), if_neg Nat.one_ne_zero, if_pos rfl, hregs.ethHeld]
    exact ⟨hen, List.Sublist.refl _, fun _ => rfl, fun h => absurd h Nat.one_ne_zero,
      hcount.trans (Nat.min_eq_left (Nat.le_sub_one_of_lt hlt)).symm, hnobuf, hmono, hregs⟩
  · obtain ⟨hen', hleft, hcount', hnobuf', honly', ht⟩ := dropBehind_of_onlyRegs s x e hregs
    rw [if_neg (by rw [hon, hen]; exact Bool.false_ne_true), if_pos rfl]
    generalize x.dropBehind e = t at *
    rw [hcount] at hcount'
    rw [hnobuf] at hnobuf'
    rw [hleft]
    refine ⟨hen'.trans hen, keepCurrent_sublist e _, fun h => absurd h Nat.zero_ne_one,
      fun _ => ⟨filter_port_keepCurrent e _, filter_other_keepCurrent e _⟩, hcount', hnobuf',
      hmono.trans (honly'.mono fun _ hf => List.mem_append_right _ hf), hleft ▸ ht⟩

/-- Settles O1: each clause by the register's rule, and a field's rule by its access type. -/
theorem fieldsByAccessType : Obligations.FieldsByAccessType :=
  ⟨registerWrite_holds, bootWrite_holds, guardedWrite_holds, pairWrite_holds, registerRead_holds, readStored_holds,
    accerrWrite_holds, scanRegWrite_holds, ringIndexWrite_holds, latchedWrite_holds, pressCfgWrite_holds, tdccfgWrite_holds,
    ownedWrite_holds, ethRingWrite_holds, ethCtrlWrite_holds⟩

end Sys2Proof.Machine
end

section
/-! SUPPORT. What a report leaves of the state, and what the pin safe state of an idle slice leaves of the register words (spec/16 R541,
spec/07 R243). -/

namespace Sys2Proof.Machine

open Sys2Proof Claim

/-! ## Words reset and words passed through a function -/

theorem RegFile.get_filter_addr (m : RegFile) (p : Nat → Bool) (a : Nat) (d : Word) :
    RegFile.get (m.filter fun e => !p e.1) a d = if p a then d else RegFile.get m a d := by
  induction m with
  | nil => simp [RegFile.get]
  | cons e m ih =>
    obtain ⟨b, w⟩ := e
    cases hb : p b with
    | true =>
      rw [List.filter_cons_of_neg (by simp [hb]), ih]
      by_cases hab : b = a
      · simp [← hab, hb]
      · simp [RegFile.get, hab]
    | false =>
      rw [List.filter_cons_of_pos (by simp [hb]), RegFile.get, RegFile.get, ih]
      by_cases hab : b = a
      · simp [← hab, hb]
      · simp [hab]

theorem State.reg_resetRegs (s : State) (p : Nat → Bool) (a : Nat) :
    (s.resetRegs p).reg a = if p a then resetWord a else s.reg a := RegFile.get_filter_addr _ _ _ _

/-- A word whose address does not meet the test is left as it was. -/
theorem State.reg_mapRegs_off (s : State) {p : Nat → Bool} {a : Nat} (f : Word → Word) (hp : p a = false) :
    (s.mapRegs p f).reg a = s.reg a := by
  unfold State.mapRegs State.reg
  dsimp only
  induction s.regs with
  | nil => rfl
  | cons e m ih =>
    obtain ⟨b, w⟩ := e
    cases hb : p b with
    | false =>
      rw [List.filterMap_cons_some (b := (b, w)) (by simp [hb]), RegFile.get, RegFile.get, ih]
    | true =>
      have hne : b ≠ a := fun hba => by
        rw [hba, hp] at hb
        cases hb
      have hget : RegFile.get ((b, w) :: m) a (resetWord a) = RegFile.get m a (resetWord a) := by
        rw [RegFile.get, if_neg hne]
      rw [hget]
      by_cases hw : f w = resetWord b
      · rw [List.filterMap_cons_none (by simp [hb, hw]), ih]
      · rw [List.filterMap_cons_some (b := (b, f w)) (by simp [hb, hw]), RegFile.get, if_neg hne, ih]

theorem inSpan_eq_true {base len a : Nat} : inSpan base len a = true ↔ base ≤ a ∧ a < base + len := by simp [inSpan]

theorem inSpan_eq_false {base len a : Nat} : inSpan base len a = false ↔ a < base ∨ base + len ≤ a := by
  simp only [inSpan, Bool.and_eq_false_iff, decide_eq_false_iff_not]
  omega

/-- The pin safe state takes back whatever is stored among the level codes. -/
theorem State.reg_safeRegs_level (s : State) (n : Fin 8) {a : Nat} (hlo : aSlLevel n 0 0 ≤ a) (hhi : a < aSlLevel n 0 0 + 0x400) :
    (s.safeRegs n).reg a = resetWord a := by
  unfold State.safeRegs
  dsimp only
  rw [State.reg_mapRegs_off _ _ (inSpan_eq_false.2 (by simp only [aSlLevel, aSlPmu] at *; omega)),
    State.reg_mapRegs_off _ _ (inSpan_eq_false.2 (by simp only [aSlLevel, aSlPincfg] at *; omega)), State.reg_resetRegs,
    if_pos (inSpan_eq_true.2 ⟨hlo, hhi⟩)]

/-! ## Reports (spec/16 R541 to R543) -/

/-- The states differ in register words, Hamper and what was sent at most. -/
abbrev OnlyReport (s t : State) : Prop := t = { s with regs := t.regs, hamper := t.hamper, out := t.out }

theorem OnlyReport.trans {s t u : State} (h : OnlyReport s t) (k : OnlyReport t u) : OnlyReport s u :=
  Eq.trans k (congrArg (fun x : State => { x with regs := u.regs, hamper := u.hamper, out := u.out }) h)

theorem OnlyRegs.onlyReport {s t : State} (h : OnlyRegs s t) : OnlyReport s t :=
  Eq.trans h (congrArg (fun x : State => { s with regs := t.regs, hamper := x.hamper, out := x.out }) h.symm)

theorem OnlyReport.wr {s t : State} (h : OnlyReport s t) (f : Fld) (v : Nat) : OnlyReport s (t.wr f v) :=
  h.trans ((OnlyRegs.refl t).wr f v).onlyReport

theorem OnlyReport.addSat {s t : State} (h : OnlyReport s t) (f : Fld) (k : Nat) : OnlyReport s (t.addSat f k) := h.wr f _

theorem OnlyReport.irqAll {s t : State} (h : OnlyReport s t) (bit : Nat) : OnlyReport s (t.irqAll bit) := by
  unfold State.irqAll State.each
  generalize List.finRange 8 = l
  induction l generalizing t with
  | nil => exact h
  | cons c l ih => exact ih (h.wr _ _)

theorem OnlyReport.setHamper {s t : State} (h : OnlyReport s t) (x : Hamper) : OnlyReport s { t with hamper := x } :=
  h.trans (u := { t with hamper := x }) rfl

theorem OnlyReport.postRecord {s t : State} (h : OnlyReport s t) (r : HRec) : OnlyReport s (t.postRecord r) := by
  unfold State.postRecord
  extract_lets q marked fatal noted queued full
  have hqueued : OnlyReport s queued := h.setHamper _
  have hfull : OnlyReport s full := h.setHamper _
  clear_value queued full
  split
  · exact (hqueued.trans (u := queued.emit (.msix 0 1)) rfl).irqAll 17
  · exact (hfull.addSat _ _).wr _ _

/-- A report changes the register words, Hamper and what is sent out at most. -/
theorem State.onlyReport_report (s : State) (src : Nat) (detail : DWord) (hold wire : Bool) :
    OnlyReport s (s.report src detail hold wire) := by
  unfold State.report
  extract_lets e cls inj injWire latched counted due makes seen armed told
  have htold : OnlyReport s told := ((((OnlyRegs.refl s).wr _ _).onlyReport.wr _ _).addSat _ _).setHamper _
  clear_value told
  split
  · exact htold.postRecord _
  · exact htold

/-! ## A contained fault of a slice with nothing to end (spec/02 R61) -/

/-- A slice with no burst, admission, ADC, TDC or Press work. -/
structure State.Resting (s : State) (n : Fin 8) : Prop where
  st : s.sl[n].st = .idle
  chk : s.sl[n].chk = none
  adc : s.sl[n].adc = none
  tdc : s.sl[n].tdc = none
  press : s.press[n].phase = .off

theorem OnlyReport.resting {s t : State} (h : OnlyReport s t) {n : Fin 8} (hr : s.Resting n) : t.Resting n := by
  rw [h]
  exact ⟨hr.st, hr.chk, hr.adc, hr.tdc, hr.press⟩

theorem State.endTdc_of_none {s : State} {n : Fin 8} (h : s.sl[n].tdc = none) (timeout cancel : Bool) (time : Nat) :
    s.endTdc n timeout cancel time = s := by
  unfold State.endTdc
  rw [h]

theorem State.abandonAdc_of_none {s : State} {n : Fin 8} (h : s.sl[n].adc = none) :
    s.abandonAdc n = s.modSl n fun x => { x with adc := none, sumRun := false, adcUrgent := false } := by
  unfold State.abandonAdc
  rw [h]

theorem State.abandonPress_of_off {s : State} {n : Fin 8} (h : s.press[n].phase = .off) : s.abandonPress n = s := if_pos h

theorem State.regs_takeSafe_of_resting {s : State} {n : Fin 8} (h : s.Resting n) : (s.takeSafe n).regs = (s.safeRegs n).regs := by
  unfold State.takeSafe
  extract_lets safe ended gone codes
  have hsafe : safe.sl = s.sl ∧ safe.press = s.press := ⟨rfl, rfl⟩
  have hadc : safe.abandonAdc n = safe.modSl n fun x => { x with adc := none, sumRun := false, adcUrgent := false } :=
    State.abandonAdc_of_none (by rw [hsafe.1]; exact h.adc)
  have htdc : ended = safe.abandonAdc n := State.endTdc_of_none (by
    rw [hadc]
    simpa [State.modSl, hsafe.1] using h.tdc) _ _ _
  have hpress : gone = ended := State.abandonPress_of_off (by
    rw [htdc, hadc]
    exact h.press)
  calc gone.regs = (safe.abandonAdc n).regs := by rw [hpress, htdc]
    _ = safe.regs := by rw [hadc]; rfl

theorem State.regs_containedSl_of_resting {s : State} {n : Fin 8} (h : s.Resting n) :
    (s.containedSl n).regs = (s.safeRegs n).regs := by
  have hburst : s.burstOf n = [n] := by
    unfold State.burstOf Slice.accepted
    rw [h.st]
    rfl
  have hcheck : s.rejectCheck n .fault = s := by
    unfold State.rejectCheck
    rw [h.chk]
  have hfinish : s.finish n .contained = s := by
    have hover : s.overFor n .contained = true := by
      unfold State.overFor
      dsimp only
      rw [h.st]
      rfl
    unfold State.finish
    exact if_pos hover
  rw [← State.regs_takeSafe_of_resting h]
  unfold State.containedSl State.finishSafe
  rw [hburst, hcheck, hfinish]
  rfl

/-- A contained fault reported of a resting slice takes back whatever is stored among its level codes. -/
theorem State.reg_contained_of_resting {s : State} {n : Fin 8} (h : s.Resting n) (u : ErrUnit) (detail : DWord) {a : Nat}
    (hlo : aSlLevel n 0 0 ≤ a) (hhi : a < aSlLevel n 0 0 + 0x400) :
    ((s.reportUnit u detail).containedSl n).reg a = resetWord a := by
  have hreport : OnlyReport s (s.reportUnit u detail) := s.onlyReport_report _ _ _ _
  rw [State.reg, State.regs_containedSl_of_resting (hreport.resting h)]
  exact (s.reportUnit u detail).reg_safeRegs_level n hlo hhi

end Sys2Proof.Machine
end

section
/-! The faults of a slice and the clocks, refuted: a register word stored at an address that is no multiple of 4 lies in the span that
the pin safe state takes back, and is none of the words that a contained fault may change (spec/00 R15, spec/01 R35, spec/06 R212). -/

namespace Sys2Proof.Machine

open Sys2Proof Claim

/-! ## Fields at multiples of 4 -/

/-- A word off the multiples of 4 is apart from every field of a register. -/
theorem Fld.apart_stray {f : Fld} {a : Nat} (hf : f.addr % 4 = 0) (ha : a % 4 ≠ 0) : f.Apart (wordFld a) := by
  have hwords : ∀ b ∈ f.words, b = f.addr ∨ b = f.addr + 4 := by
    intro b hb
    unfold Fld.words at hb
    split at hb
    · exact .inr (List.mem_singleton.1 hb)
    · split at hb
      · exact .inl (List.mem_singleton.1 hb)
      · simpa using hb
  refine .inl fun b hb hbf => ?_
  have hba : b = a := by simpa [Fld.words] using hb
  have := hwords b hbf
  omega

theorem irqFlds_aligned {b : Nat} : ∀ f ∈ irqFlds b, f.addr % 4 = 0 := by
  simp only [irqFlds, List.mem_map, forall_exists_index, and_imp, forall_apply_eq_imp_iff₂, aDpCoreIrqpend]
  omega

theorem reportFlds_aligned (src : Nat) : ∀ f ∈ reportFlds src, f.addr % 4 = 0 := by
  intro f hf
  rcases List.mem_append.1 hf with hf | hf
  · simp only [List.mem_cons, List.not_mem_nil, or_false] at hf
    rcases hf with rfl | rfl | rfl | rfl | rfl <;>
      simp only [fHmSrc_COUNT, fHmSrc_LATCHED, fHmCnt_COUNT, fHmStat_LOST, aHmSrc, aHmCnt, aHmStat] <;> omega
  · exact irqFlds_aligned f hf

theorem rejectFlds_aligned : ∀ f ∈ rejectFlds, f.addr % 4 = 0 := by
  intro f hf
  obtain ⟨m, -, hf⟩ := List.mem_flatMap.1 hf
  rcases List.mem_append.1 hf with hf | hf
  · simp only [List.mem_cons, List.not_mem_nil, or_false] at hf
    rcases hf with rfl | rfl | rfl <;> simp only [aSlAdmit, aSlAdmitd] <;> omega
  · exact irqFlds_aligned f hf

theorem stopFlds_aligned (m : Fin 8) : ∀ f ∈ stopFlds m, f.addr % 4 = 0 := by
  intro f hf
  simp only [stopFlds, List.mem_append] at hf
  rcases hf with (((hf | hf) | hf) | hf) | hf
  · obtain ⟨i, -, rfl⟩ := List.mem_map.1 hf
    simp only [aSlLevel]
    omega
  · obtain ⟨k, -, hf⟩ := List.mem_flatMap.1 hf
    simp only [List.mem_cons, List.not_mem_nil, or_false] at hf
    rcases hf with rfl | rfl <;> simp only [aSlPincfg, aSlPmu] <;> omega
  · simp only [List.mem_cons, List.not_mem_nil, or_false] at hf
    rcases hf with rfl | rfl | rfl | rfl | rfl | rfl | rfl | rfl <;>
      simp only [aSlAdmit, aSlAdmitd, aSlBendvec, aSlAdcstat, aSlTdcstat, aPrStat] <;> omega
  · exact irqFlds_aligned f hf
  · exact irqFlds_aligned f hf

/-- No field that a contained fault may write lies off the multiples of 4. -/
theorem containedFlds_apart_stray (src : Nat) (l : List (Fin 8)) {a : Nat} (ha : a % 4 ≠ 0) :
    ∀ f ∈ reportFlds src ++ rejectFlds ++ l.flatMap stopFlds, f.Apart (wordFld a) := by
  intro f hf
  refine Fld.apart_stray ?_ ha
  rcases List.mem_append.1 hf with hf | hf
  · rcases List.mem_append.1 hf with hf | hf
    · exact reportFlds_aligned src f hf
    · exact rejectFlds_aligned f hf
  · obtain ⟨m, -, hf⟩ := List.mem_flatMap.1 hf
    exact stopFlds_aligned m f hf

theorem State.rd_wordFld (s : State) (a : Nat) : s.rd (wordFld a) = (s.reg a).toNat := by
  have hlt := (s.reg a).isLt
  simp [State.rd, bitsOf, Nat.mod_eq_of_lt hlt]

/-! ## EVENT_PATH_DBE (R35) -/

theorem exec_eventPathDbe {n : Fin 8} {s : State} (h : s.awake = true) :
    exec (.eventPathDbe n) s = .next ((s.reportUnit (.eventPath n) 0).containedSl n) :=
  congrArg Host.Outcome.next (if_pos h)

/-- In the module awake after reset, with one stray word among slice 0's level codes, the fault puts the word back to 0. -/
theorem not_eventPathDbe : ¬ eventPathDbe := by
  intro h
  obtain ⟨t, ht, -, -, honly, -⟩ := h 0
    { State.reset with regs := [(aSlLevel 0 0 0 + 1, 1)], power := { Power.reset with rails := true } } ⟨rfl, rfl⟩
  rw [exec_eventPathDbe rfl] at ht
  obtain rfl := Host.Outcome.next.inj ht
  have hstray := honly (wordFld (aSlLevel 0 0 0 + 1)) (containedFlds_apart_stray _ _ (by decide))
  rw [State.rd_wordFld, State.rd_wordFld, State.reg_contained_of_resting ⟨rfl, rfl, rfl, rfl, rfl⟩ _ _ (by decide)
    (by decide)] at hstray
  exact absurd hstray (by decide)

/-- Refutes O3 by EVENT_PATH_DBE: where a register word is stored off the multiples of 4 in the span of the level codes, which no
access writes but the statement's states do not rule out, the fault changes a word that its frame says it leaves. -/
theorem not_faults : ¬ Obligations.Faults := fun h => not_eventPathDbe h.1

/-! ## SYNTH_FAULT (R212) -/

theorem exec_synthFault {n : Fin 8} {s : State} (h : s.awake = true) (ha : s.sl[n].synth.a = .active) :
    exec (.synthFault n) s = .next (s.synthFault n) :=
  congrArg Host.Outcome.next (if_pos ⟨h, .inl ha⟩)

theorem State.regs_synthFault (s : State) (n : Fin 8) :
    (s.synthFault n).regs = (((s.reportUnit (.synth n) 0).containedSl n).wr (fSlVclk_FAULT n) 1).regs := by
  unfold State.synthFault
  extract_lets contained flagged
  rfl

theorem State.reg_synthFault_of_resting {s : State} {n : Fin 8} (h : s.Resting n) {a : Nat} (hlo : aSlLevel n 0 0 ≤ a)
    (hhi : a < aSlLevel n 0 0 + 0x400) : (s.synthFault n).reg a = resetWord a := by
  have hoff : a ∉ (fSlVclk_FAULT n).words := by
    have hwords : (fSlVclk_FAULT n).words = [aSlVclk n] := rfl
    rw [hwords, List.mem_singleton]
    simp only [aSlLevel] at hlo
    simp only [aSlVclk]
    omega
  rw [State.reg, State.regs_synthFault]
  exact (State.reg_wr _ _ _ hoff).trans (State.reg_contained_of_resting h _ _ hlo hhi)

/-- The same stray word, with an ACTIVE synthesizer in slice 0. -/
theorem not_synthFault : ¬ synthFault := by
  intro h
  obtain ⟨t, ht, -, -, -, -, -, honly, -⟩ := h 0
    { State.reset with
      regs := [(aSlLevel 0 0 0 + 1, 1)], power := { Power.reset with rails := true }
      sl := State.reset.sl.set 0 { Slice.reset with synth := { Synths.reset with a := .active } } } (.inl rfl) ⟨rfl, rfl⟩
  rw [exec_synthFault rfl rfl] at ht
  obtain rfl := Host.Outcome.next.inj ht
  have hstray := honly (wordFld (aSlLevel 0 0 0 + 1)) fun f hf => ?_
  · rw [State.rd_wordFld, State.rd_wordFld, State.reg_synthFault_of_resting ⟨rfl, rfl, rfl, rfl, rfl⟩ (by decide) (by decide)]
      at hstray
    exact absurd hstray (by decide)
  · rcases List.mem_cons.1 hf with rfl | hf
    · exact Fld.apart_stray (by decide) (by decide)
    · exact containedFlds_apart_stray _ _ (by decide) f hf

/-- Refutes O5 by SYNTH_FAULT, whose contained fault changes a stored word that its frame says it leaves: one off the multiples of 4
in the span of the level codes, which no access writes but the statement's states do not rule out. -/
theorem not_clocks : ¬ Obligations.Clocks := by
  rintro ⟨-, -, -, -, -, -, -, -, -, -, hsynth, -⟩
  exact not_synthFault hsynth

end Sys2Proof.Machine
end

section
/-! SUPPORT. A write of BCMD from the bus to what it does, and what START does to a rinse step on its slice (spec/02 R67, R83; spec/16
R559). -/

namespace Sys2Proof.Machine

open Sys2Proof Claim

/-! ## From the bus to BCMD (R83) -/

theorem State.command_slBcmd {s : State} {ini : Initiator} {n : Fin 8} (h : Reaches s ini .slBcmd [n]) (v : Word) :
    s.command ini .slBcmd [n] v = s.opBcmd ini n v.toNat := by
  have hslice : s.regAct ini .slBcmd [n.val] .lo (v.setWidth 64) = s.opBcmd ini n (v.setWidth 64).toNat := by
    rw [State.regAct_slice _ _ _ _ _ (by decide) (by decide)]
    exact congrArg (fun m => s.opBcmd ini m (v.setWidth 64).toNat) (Fin.ofNat_val_eq_self n)
  have hword : (v.setWidth 64).toNat = v.toNat := BitVec.toNat_setWidth_of_le (by decide)
  calc s.command ini .slBcmd [n] v = s.regAct ini .slBcmd [n.val] .lo (v.setWidth 64) := State.regWrite_reaches h _ _
    _ = s.opBcmd ini n v.toNat := by rw [hslice, hword]

theorem exec_start_of_reaches {s : State} {ini : Initiator} {n : Fin 8} (h : Reaches s ini .slBcmd [n]) (v : Word) :
    exec (.start ini n v) s = .next (s.opBcmd ini n (v ||| 1).toNat) := congrArg Host.Outcome.next (State.command_slBcmd h _)

theorem exec_abortNow_of_reaches {s : State} {ini : Initiator} {n : Fin 8} (h : Reaches s ini .slBcmd [n]) (v : Word) :
    exec (.abortNow ini n v) s = .next (s.opBcmd ini n (v ||| 4).toNat) := congrArg Host.Outcome.next (State.command_slBcmd h _)

/-- The overrides as a write of BCMD stores them. -/
def State.storeOverrides (s : State) (n : Fin 8) (v : Nat) : State :=
  s.wrs [(fSlBcmd_OVR_QUEUE n, bitsOf v 5 1), (fSlBcmd_OVR_CAL n, bitsOf v 4 1)]

/-- START alone in a write acts, also on a slice that is not ready (R56). -/
theorem State.opBcmd_start (s : State) (ini : Initiator) (n : Fin 8) {v : Nat} (hnow : bitOf v 2 = false) (hhem : bitOf v 1 = false)
    (hstart : bitOf v 0 = true) : s.opBcmd ini n v = (s.storeOverrides n v).opStart n (bitOf v 5) (bitOf v 4) := by
  simp [State.opBcmd, State.storeOverrides, hnow, hhem, hstart]

/-- ABORT_NOW wins over the other bits of a write (R83). -/
theorem State.opBcmd_abortNow {s : State} (ini : Initiator) {n : Fin 8} {v : Nat} (hready : s.isReady (.sl n) = true)
    (hnow : bitOf v 2 = true) : s.opBcmd ini n v = (s.storeOverrides n v).opAbort n true := by
  simp [State.opBcmd, State.storeOverrides, hready, hnow]

/-- The overrides of a slice are not the GANG register of any. -/
theorem State.members_storeOverrides (s : State) (n m : Fin 8) (v : Nat) : (s.storeOverrides n v).members m = s.members m := by
  have hgang : (s.storeOverrides n v).rd (fSlGang_MEMBERS m) = s.rd (fSlGang_MEMBERS m) := by
    refine (OnlyFlds.refl s [fSlBcmd_OVR_QUEUE n, fSlBcmd_OVR_CAL n]).wrs _ ?_ _ fun f hf => .inl fun a ha haf => ?_
    · simp [fSlBcmd_OVR_QUEUE, fSlBcmd_OVR_CAL]
    · simp only [List.mem_cons, List.not_mem_nil, or_false] at hf
      rcases hf with rfl | rfl <;>
        simp [Fld.words, fSlGang_MEMBERS, fSlBcmd_OVR_QUEUE, fSlBcmd_OVR_CAL, aSlGang, aSlBcmd] at ha haf <;> omega
  rw [State.members, State.members, hgang]

/-! ## START during a rinse step (R67, R559) -/

theorem State.rd_of_regs_eq {s t : State} (h : s.regs = t.regs) (f : Fld) : s.rd f = t.rd f :=
  State.rd_congr fun a _ => by rw [State.reg, State.reg, h]

theorem State.regs_rinsed (s : State) (kind inst : Nat) : (s.rinsed kind inst).regs = s.regs := by
  unfold State.rinsed
  split <;> rfl

/-- An abandoned rinse step reports how long it ran. -/
theorem State.rd_rinsedur_abandonRinse {s : State} {kinds : List Nat} {kind inst : Nat} (h : s.bist.rinse = some (kind, inst))
    (hk : kind ∈ kinds) :
    (s.abandonRinse kinds inst).rd fPrBistRinsedur_US = s.usSince s.bist.rinseAt % 2 ^ fPrBistRinsedur_US.w := by
  have hmine : (kinds.contains kind && inst == inst) = true := by simpa using hk
  unfold State.abandonRinse
  rw [h]
  dsimp only
  rw [if_pos hmine, State.rd_of_regs_eq (State.regs_rinsed _ _ _)]
  exact State.rd_wr_self _ _ _ (by decide)

/-- START of a slice in no gang and in no admission writes the registers of an abandoned rinse step and no other. -/
theorem State.regs_opStart_alone {s : State} {n : Fin 8} (hgang : s.members n = [n]) (hchk : s.sl[n].chk = none)
    (ovrQueue ovrCal : Bool) : (s.opStart n ovrQueue ovrCal).regs = (s.abandonRinse [1, 2] n).regs := by
  unfold State.opStart
  simp only [hgang, List.find?_cons, hchk, Option.isSome_none, List.find?_nil]
  rfl

/-- START on a slice under a rinse step leaves in RINSEDUR how long the step ran. -/
theorem State.rd_rinsedur_opBcmd {s : State} (ini : Initiator) {n : Fin 8} {v kind : Nat} (hnow : bitOf v 2 = false)
    (hhem : bitOf v 1 = false) (hstart : bitOf v 0 = true) (hgang : s.members n = [n]) (hchk : s.sl[n].chk = none)
    (hrinse : s.bist.rinse = some (kind, n.val)) (hkind : kind ∈ [1, 2]) :
    (s.opBcmd ini n v).rd fPrBistRinsedur_US = s.usSince s.bist.rinseAt % 2 ^ fPrBistRinsedur_US.w := by
  have hbist : (s.storeOverrides n v).bist = s.bist := State.bist_wrs _ _
  have hclock : (s.storeOverrides n v).clock = s.clock := State.clock_wrs _ _
  have hsl : (s.storeOverrides n v).sl = s.sl := State.sl_wrs _ _
  have hregs := State.regs_opStart_alone (s := s.storeOverrides n v) (n := n) (by rw [State.members_storeOverrides, hgang])
    (by rw [hsl, hchk]) (bitOf v 5) (bitOf v 4)
  rw [State.opBcmd_start s ini n hnow hhem hstart, State.rd_of_regs_eq hregs,
    State.rd_rinsedur_abandonRinse (by rw [hbist, hrinse]) hkind, State.usSince, State.usSince, hbist, hclock]

end Sys2Proof.Machine
end

section
/-! Admission, refuted: START abandons a rinse step on its slice, which the statement's frame does not name in full (spec/02 R67, spec/16
R559). -/

namespace Sys2Proof.Machine

open Sys2Proof Claim

/-- RINSEDUR is none of the fields that the statement lets START write. -/
theorem startFlds_apart_rinsedur (n : Fin 8) : ∀ f ∈ [fSlBcmd_OVR_QUEUE n, fSlBcmd_OVR_CAL n, fPrBistRinseres_RESULT,
    fPrBistRinseres_COVERAGE], f.Apart fPrBistRinsedur_US := by
  intro f hf
  simp only [List.mem_cons, List.not_mem_nil, or_false] at hf
  refine .inl fun a ha haf => ?_
  obtain rfl : a = 0x3810308 := List.mem_singleton.1 ha
  have hbcmd : 0x3810308 ≠ aSlBcmd n := by
    simp only [aSlBcmd]
    omega
  rcases hf with rfl | rfl | rfl | rfl
  · exact hbcmd (List.mem_singleton.1 haf)
  · exact hbcmd (List.mem_singleton.1 haf)
  · exact absurd haf (by decide)
  · exact absurd haf (by decide)

/-- Slice 0 after reset with a rinse step on it for 1 µs: START abandons the step, and RINSEDUR, which read 0, reads 1. -/
theorem not_start : ¬ start := by
  intro h
  let s : State := { State.reset with clock := 12800, bist := { Bist.reset with rinse := some (1, 0) } }
  have hr : Reaches s .mgmt .slBcmd [(0 : Fin 8)] := by decide
  obtain ⟨t, ht, -, -, -, -, honly, -⟩ := h .mgmt 0 0 s hr (by decide) (by decide) (by decide)
  rw [exec_start_of_reaches hr] at ht
  obtain rfl := Host.Outcome.next.inj ht
  have hkept := honly fPrBistRinsedur_US (startFlds_apart_rinsedur 0)
  rw [State.rd_rinsedur_opBcmd .mgmt (by decide) (by decide) (by decide) (by decide) (by decide) (kind := 1) (by decide) (by decide)]
    at hkept
  exact absurd hkept (by decide)

/-- Refutes O15 by START: it abandons a rinse step that runs on the slice (R559), whose duration then stands in RINSEDUR, a register that
the statement's frame says START leaves. -/
theorem not_admission : ¬ Obligations.Admission := fun h => not_start h.1

end Sys2Proof.Machine
end

section
/-! Aborts and reservations, refuted: ABORT_NOW acts through the lead that the slice's burst names, of which the statement asks nothing
(spec/02 R78, spec/05 R184). -/

namespace Sys2Proof.Machine

open Sys2Proof Claim

/-- ABORT_NOW through a lead that has no burst and stands at no boundary ends nothing. -/
theorem State.abortNow_of_idle {s : State} {l : Fin 8} (hst : s.sl[l].st = .idle) (hdue : s.sl[l].seq.hemDue = false)
    (hat : s.sl[l].seq.atBoundary = false) : s.abortNow l = s := by
  have hover : s.overFor l .abortNow = true := by
    unfold State.overFor
    dsimp only
    rw [hst]
    rfl
  have hfinish : s.finish l .abortNow = s := if_pos hover
  unfold State.abortNow
  dsimp only
  rw [hdue, hat, if_neg (by simp), if_neg (by simp), if_neg (by simp), hfinish]

theorem State.opAbort_now_of_running {s : State} {n : Fin 8} (hst : s.sl[n].st = .running) (hchk : s.sl[n].chk = none) :
    s.opAbort n true = s.abortNow s.sl[n].lead := by
  have hcheck : s.rejectCheck n .aborted = s := by
    unfold State.rejectCheck
    rw [hchk]
  unfold State.opAbort
  dsimp only
  rw [hcheck, hst]
  rfl

/-- Slice 0 runs a burst that names slice 1 as its lead, and slice 1 has none: ABORT_NOW leaves slice 0 RUNNING. -/
theorem not_abortNow : ¬ abortNow := by
  intro h
  let s : State := { State.reset with
    ready := BitVec.allOnes 32
    sl := State.reset.sl.set 0 { Slice.reset with st := .running, gang := [0], lead := 1 } }
  have hr : Reaches s .mgmt .slBcmd [(0 : Fin 8)] := by decide
  obtain ⟨t, ht, -, -, hrun, -⟩ := h .mgmt 0 0 s hr (by decide)
  have hsl : (s.storeOverrides 0 4).sl = s.sl := State.sl_wrs _ _
  have hkept : (s.storeOverrides 0 4).opAbort 0 true = s.storeOverrides 0 4 := by
    rw [State.opAbort_now_of_running (by rw [hsl]; rfl) (by rw [hsl]; rfl)]
    exact State.abortNow_of_idle (by rw [hsl]; rfl) (by rw [hsl]; rfl) (by rw [hsl]; rfl)
  rw [exec_abortNow_of_reaches hr, State.opBcmd_abortNow .mgmt (by decide) (by decide)] at ht
  obtain rfl := Host.Outcome.next.inj ht
  obtain ⟨hending, -⟩ := hrun rfl 0 (by decide)
  exact absurd (hending.symm.trans (congrArg (fun x : State => x.sl[(0 : Fin 8)].st) hkept)) (by rw [hsl]; decide)

/-- Refutes O16 by ABORT_NOW: of a RUNNING slice whose burst names a lead that has no burst, which no admission makes but the statement's
states do not rule out, it ends nothing. -/
theorem not_abortsAndReservations : ¬ Obligations.AbortsAndReservations := fun h => not_abortNow h.2.1

end Sys2Proof.Machine
end

section
/-! SUPPORT. The segment table and the seal queue of a slice, and a write of SEGCMD from the bus to its command (spec/03 R103, R106 to
R108, R120). -/

namespace Sys2Proof.Machine

open Sys2Proof Claim

/-! ## The segment table (R103) -/

theorem Slice.seg_setSeg_self (x : Slice) (g : Nat) (e : SegEntry) : (x.setSeg g e).seg g = e := by
  simp [Slice.seg, Slice.setSeg]

theorem Slice.seg_congr {x y : Slice} (h : x.segs = y.segs) (k : Nat) : x.seg k = y.seg k := by
  rw [Slice.seg, Slice.seg, h]

/-- An entry taken out of the table leaves every other one. -/
theorem Slice.seg_of_filter {x y : Slice} {g k : Nat} (h : y.segs = x.segs.filter fun e => e.1 != g) (hk : k ≠ g) :
    y.seg k = x.seg k := by
  have hsame : (fun e : Nat × SegEntry => decide ((e.1 != g) = true ∧ (e.1 == k) = true)) = fun e => e.1 == k := by
    funext e
    by_cases he : e.1 = k
    · simp [he, hk]
    · simp [he]
  rw [Slice.seg, Slice.seg, h, List.find?_filter, hsame]

/-- An entry that is not in the table is EMPTY with no error. -/
theorem Slice.seg_of_filter_self {x y : Slice} {g : Nat} (h : y.segs = x.segs.filter fun e => e.1 != g) :
    y.seg g = ⟨.empty, 0, 0, false, false, 0, none⟩ := by
  have hnone : (x.segs.filter fun e => e.1 != g).find? (fun e => e.1 == g) = none := by simp
  rw [Slice.seg, h, hnone]

theorem Slice.seg_setSeg_ne (x : Slice) {g k : Nat} (hk : k ≠ g) (e : SegEntry) : (x.setSeg g e).seg k = x.seg k := by
  have hhead : (g == k) = false := by simpa using Ne.symm hk
  have hrest : (x.setSeg g e).seg k = ({ x with segs := x.segs.filter fun y => y.1 != g } : Slice).seg k := by
    rw [Slice.seg, Slice.seg, Slice.setSeg, List.find?_cons, hhead]
  exact hrest.trans (Slice.seg_of_filter rfl hk)

/-! ## One slice changed -/

theorem State.sl_modSl_self (s : State) (n : Fin 8) (f : Slice → Slice) : (s.modSl n f).sl[n] = f s.sl[n] := by
  simp

theorem State.modSl_congr {s : State} {n : Fin 8} {f g : Slice → Slice} (h : f s.sl[n] = g s.sl[n]) :
    s.modSl n f = s.modSl n g := by
  rw [State.modSl, State.modSl, h]

theorem State.modSl_of_eq {s : State} {n : Fin 8} {f : Slice → Slice} (h : f s.sl[n] = s.sl[n]) : s.modSl n f = s := by
  have hset : s.sl.set n s.sl[n] = s.sl := Vector.set_getElem_self ..
  rw [State.modSl, h, hset]

/-- A change of a slice's segment table and seal queue is the frame of its segment commands. -/
theorem State.modSl_segs_sealq {s : State} {n : Fin 8} {f : Slice → Slice}
    (h : f s.sl[n] = { s.sl[n] with segs := (f s.sl[n]).segs, sealq := (f s.sl[n]).sealq }) :
    s.modSl n f = s.modSl n fun x => { x with segs := (s.modSl n f).sl[n].segs, sealq := (s.modSl n f).sl[n].sealq } := by
  rw [State.sl_modSl_self]
  exact State.modSl_congr h

/-! ## The seal queue (R108) -/

/-- A seal that meets a test ends as ABANDONED, where it has no record yet. -/
def Seal.abandonIf (p : Seal → Bool) (q : Seal) : Seal :=
  match q.st with
  | .ready _ => q
  | _ => if p q then { q with st := .ready 0xF } else q

theorem abandonSeals_eq_map (p : Seal → Bool) (l : List Seal) : abandonSeals p l = l.map (Seal.abandonIf p) := rfl

theorem Seal.seg_abandonIf (p : Seal → Bool) (q : Seal) : (q.abandonIf p).seg = q.seg := by
  unfold Seal.abandonIf
  split
  · rfl
  · split <;> rfl

theorem Seal.abandonIf_of_not {p : Seal → Bool} {q : Seal} (h : p q = false) : q.abandonIf p = q := by
  unfold Seal.abandonIf
  split
  · rfl
  · rw [h, if_neg Bool.false_ne_true]

/-- A seal that meets the test no longer awaits its verification. -/
theorem Seal.st_abandonIf {p : Seal → Bool} {q : Seal} (h : q.verifies = true → p q = true) :
    (q.abandonIf p).st ≠ .waiting ∧ (q.abandonIf p).st ≠ .verifying := by
  unfold Seal.abandonIf
  split
  next e he => simp [he]
  next hr =>
    by_cases hp : p q = true
    · simp [hp]
    · have hnot : q.verifies ≠ true := fun hv => hp (h hv)
      unfold Seal.verifies at hnot
      split at hnot
      next e he => simp [hp, he]
      next => exact absurd rfl hnot

/-- The test by which a drop of a segment meets the seals that await its verification (R123). -/
abbrev dropMeets (g : Nat) (q : Seal) : Bool := q.seg == g && q.verifies

theorem length_abandonSeals (p : Seal → Bool) (l : List Seal) : (abandonSeals p l).length = l.length := List.length_map ..

/-- No seal of a dropped segment awaits its verification. -/
theorem st_of_mem_abandonSeals {g : Nat} {l : List Seal} {q : Seal} (h : q ∈ abandonSeals (dropMeets g) l) (hq : q.seg = g) :
    q.st ≠ .waiting ∧ q.st ≠ .verifying := by
  obtain ⟨r, -, rfl⟩ := List.mem_map.1 (abandonSeals_eq_map .. ▸ h)
  rw [Seal.seg_abandonIf] at hq
  exact Seal.st_abandonIf fun hv => by simp [dropMeets, hq, hv]

/-- The seals of other segments stay as they are. -/
theorem filter_abandonSeals (g : Nat) (l : List Seal) :
    (abandonSeals (dropMeets g) l).filter (fun q => q.seg != g) = l.filter fun q => q.seg != g := by
  have hseg : (fun q : Seal => q.seg != g) ∘ Seal.abandonIf (dropMeets g) = fun q => q.seg != g :=
    funext fun q => congrArg (· != g) (Seal.seg_abandonIf _ q)
  have hkept : ∀ q ∈ l.filter (fun q => q.seg != g), q.abandonIf (dropMeets g) = q := fun q hq =>
    Seal.abandonIf_of_not (by simp [dropMeets, show q.seg ≠ g by simpa using (List.mem_filter.1 hq).2])
  rw [abandonSeals_eq_map, List.filter_map, hseg, List.map_congr_left hkept, List.map_id']

/-! ## From the bus to a segment command (R120) -/

theorem getLsbD_segcmd_mask : ∀ i < 32, (0xFFFFFFF : Word).getLsbD i = decide (i < 28) := by decide

/-- The segment of a command's word is the operand's. -/
theorem bitsOf_segcmd_seg (v : Word) {op : Word} (h : op &&& 0xFFFFFFF = 0) :
    bitsOf ((v &&& 0xFFFFFFF) ||| op).toNat 0 20 = bitsOf v.toNat 0 20 := by
  refine Nat.eq_of_testBit_eq fun i => ?_
  rw [testBit_bitsOf, testBit_bitsOf, BitVec.testBit_toNat, BitVec.testBit_toNat, BitVec.getLsbD_or, BitVec.getLsbD_and]
  by_cases hi : i < 20
  · have hmask : (0xFFFFFFF : Word).getLsbD (0 + i) = true :=
      (getLsbD_segcmd_mask _ (by omega)).trans (decide_eq_true (by omega))
    have hop : op.getLsbD (0 + i) = false := by
      have hbit := congrArg (BitVec.getLsbD · (0 + i)) h
      rw [BitVec.getLsbD_and, hmask, Bool.and_true] at hbit
      exact hbit.trans BitVec.getLsbD_zero
    rw [hmask, hop, Bool.and_true, Bool.or_false]
  · simp [hi]

/-- The OP of a command's word is the command's. -/
theorem bitsOf_segcmd_op (v op : Word) : bitsOf ((v &&& 0xFFFFFFF) ||| op).toNat 28 4 = bitsOf op.toNat 28 4 := by
  refine Nat.eq_of_testBit_eq fun i => ?_
  rw [testBit_bitsOf, testBit_bitsOf, BitVec.testBit_toNat, BitVec.testBit_toNat, BitVec.getLsbD_or, BitVec.getLsbD_and]
  by_cases hi : i < 4
  · have hmask : (0xFFFFFFF : Word).getLsbD (28 + i) = false :=
      (getLsbD_segcmd_mask _ (by omega)).trans (decide_eq_false (by omega))
    rw [hmask, Bool.and_false, Bool.false_or]
  · simp [hi]

/-- What SEGCMD does for each OP (R106). -/
def State.segOp (s : State) (ini : Initiator) (n : Fin 8) (op g : Nat) : State :=
  match op with
  | 1 => s.segOpen n g
  | 2 => s.segSeal n g
  | 3 => s.segDrop n g
  | _ => s.accErr ini .rsvd (aSlSegcmd n)

theorem State.opSegcmd_eq_segOp (s : State) (ini : Initiator) (n : Fin 8) (v : Nat) :
    s.opSegcmd ini n v = s.segOp ini n (bitsOf v 28 4) (bitsOf v 0 20) := rfl

theorem State.command_slSegcmd {s : State} {ini : Initiator} {n : Fin 8} (h : Reaches s ini .slSegcmd [n]) (v : Word) :
    s.command ini .slSegcmd [n] v = s.opSegcmd ini n v.toNat := by
  have hslice : s.regAct ini .slSegcmd [n.val] .lo (v.setWidth 64) = s.opSegcmd ini n (v.setWidth 64).toNat := by
    rw [State.regAct_slice _ _ _ _ _ (by decide) (by decide)]
    exact congrArg (fun m => s.opSegcmd ini m (v.setWidth 64).toNat) (Fin.ofNat_val_eq_self n)
  have hword : (v.setWidth 64).toNat = v.toNat := BitVec.toNat_setWidth_of_le (by decide)
  calc s.command ini .slSegcmd [n] v = s.regAct ini .slSegcmd [n.val] .lo (v.setWidth 64) := State.regWrite_reaches h _ _
    _ = s.opSegcmd ini n v.toNat := by rw [hslice, hword]

/-- A segment command does what its OP says to the segment that it names. -/
theorem State.command_segOp {s : State} {ini : Initiator} {n : Fin 8} (h : Reaches s ini .slSegcmd [n]) (v : Word) {op : Word}
    (hop : op &&& 0xFFFFFFF = 0) : s.command ini .slSegcmd [n] ((v &&& 0xFFFFFFF) ||| op) =
      s.segOp ini n (bitsOf op.toNat 28 4) (bitsOf v.toNat 0 20) := by
  rw [State.command_slSegcmd h, State.opSegcmd_eq_segOp, bitsOf_segcmd_op, bitsOf_segcmd_seg v hop]

theorem exec_segOpen_of_reaches {s : State} {ini : Initiator} {n : Fin 8} (h : Reaches s ini .slSegcmd [n]) (v : Word) :
    exec (.segOpen ini n v) s = .next (s.segOpen n (bitsOf v.toNat 0 20)) :=
  congrArg Host.Outcome.next (State.command_segOp h v (op := 0x10000000) (by decide))

theorem exec_segSeal_of_reaches {s : State} {ini : Initiator} {n : Fin 8} (h : Reaches s ini .slSegcmd [n]) (v : Word) :
    exec (.segSeal ini n v) s = .next (s.segSeal n (bitsOf v.toNat 0 20)) :=
  congrArg Host.Outcome.next (State.command_segOp h v (op := 0x20000000) (by decide))

theorem exec_segDrop_of_reaches {s : State} {ini : Initiator} {n : Fin 8} (h : Reaches s ini .slSegcmd [n]) (v : Word) :
    exec (.segDrop ini n v) s = .next (s.segDrop n (bitsOf v.toNat 0 20)) :=
  congrArg Host.Outcome.next (State.command_segOp h v (op := 0x30000000) (by decide))

/-- A refused command sets REFUSED and ERR and does nothing else (R106, R121). -/
theorem State.segRefused_segRefuse (s : State) (n : Fin 8) {err : Nat} (h : err < 16) : SegRefused s (s.segRefuse n err) n err := by
  have hset : (s.wr (fSlSegstat_REFUSED n) 1).rd (fSlSegstat_REFUSED n) = 1 :=
    State.rd_wr_self _ _ 1 (by simp [fSlSegstat_REFUSED])
  have hkept : (s.segRefuse n err).rd (fSlSegstat_REFUSED n) = (s.wr (fSlSegstat_REFUSED n) 1).rd (fSlSegstat_REFUSED n) :=
    State.rd_wr_apart _ (fSlSegstat_ERR n) _ err rfl (by simp [fSlSegstat_ERR])
      (.inl (by simp [fSlSegstat_ERR, fSlSegstat_REFUSED]))
  have herr : (s.segRefuse n err).rd (fSlSegstat_ERR n) = err % 2 ^ 4 :=
    State.rd_wr_self _ (fSlSegstat_ERR n) err (by simp [fSlSegstat_ERR])
  refine ⟨hkept.trans hset, herr.trans (Nat.mod_eq_of_lt h), ?_, (OnlyRegs.refl s).wrs _⟩
  exact (OnlyFlds.refl s _).wrs _ (by simp [fSlSegstat_REFUSED, fSlSegstat_ERR])

end Sys2Proof.Machine
end

section
/-! Segment commands: open, seal, drop, and the seal of a DMA descriptor (spec/03 R106 to R108, R123). -/

namespace Sys2Proof.Machine

open Sys2Proof Claim

/-! ## OPEN (R106) -/

/-- An entry replaced is the one that changes. -/
theorem otherSegs_setSeg (s : State) (n : Fin 8) (g : Nat) (e : SegEntry) : OtherSegs s (s.modSl n fun x => x.setSeg g e) n g :=
  fun k hk => by rw [State.sl_modSl_self, Slice.seg_setSeg_ne _ hk]

/-- The checks of OPEN in their order. -/
theorem State.segOpen_eq (s : State) (n : Fin 8) (g : Nat) :
    let b := s.rd (fSlSegargBase_BASE n)
    let z := s.rd (fSlSegargSize_SIZE n)
    s.segOpen n g =
      if (s.sl[n].seg g).st ≠ .empty then s.segRefuse n 1
      else if z = 0 ∨ (s.regionOf 1 n).all (fun r => r.2 < (b + z) * 4096) = true then s.segRefuse n 2
      else if (s.sl[n].segs.any fun e => e.2.st != .empty && decide (b < e.2.base + e.2.size ∧ e.2.base < b + z)) = true then
        s.segRefuse n 3
      else s.modSl n fun x => x.setSeg g ⟨.opened, b, z, false, false, (x.seg g).err, none⟩ := by
  unfold State.segOpen
  dsimp only
  generalize s.rd (fSlSegargBase_BASE n) = b
  generalize s.rd (fSlSegargSize_SIZE n) = z
  have hmeets : (fun e : Nat × SegEntry => e.2.st != .empty && overlaps b z e.2.base e.2.size) =
      fun e => e.2.st != .empty && decide (b < e.2.base + e.2.size ∧ e.2.base < b + z) := by
    funext e
    rw [overlaps, ← Bool.decide_and]
  rw [hmeets]
  cases s.regionOf 1 n with
  | none => simp
  | some r => simp

theorem segOpen_holds : Claim.segOpen := by
  intro ini n v s hr
  refine ⟨_, exec_segOpen_of_reaches hr v, ?_⟩
  dsimp only
  rw [State.segOpen_eq]
  split
  · exact s.segRefused_segRefuse n (by decide)
  split
  · exact s.segRefused_segRefuse n (by decide)
  split
  · exact s.segRefused_segRefuse n (by decide)
  refine ⟨?_, otherSegs_setSeg s n _ _, ?_⟩
  · rw [State.sl_modSl_self, Slice.seg_setSeg_self]
  · rw [State.sl_modSl_self]
    rfl

/-! ## Seals (R106 to R108) -/

/-- A seal taken by an OPEN entry: the entry is VERIFYING, the seal takes the last place. -/
theorem State.takeSeal_spec (s : State) (n : Fin 8) (g : Nat) (token : Word) :
    let t := s.takeSeal n g token
    t.sl[n].seg g = { s.sl[n].seg g with st := .verifying } ∧ OtherSegs s t n g ∧
    t.sl[n].sealq = s.sl[n].sealq ++ [⟨g, token, .waiting⟩] ∧
    t = s.modSl n fun x => { x with segs := t.sl[n].segs, sealq := t.sl[n].sealq } := by
  intro t
  have ht : t.sl[n] = _ := s.sl_modSl_self n _
  refine ⟨?_, fun k hk => ?_, ?_, State.modSl_segs_sealq rfl⟩
  · rw [ht]
    exact Slice.seg_setSeg_self _ _ _
  · rw [ht]
    exact Slice.seg_setSeg_ne _ hk _
  · rw [ht]

theorem segSeal_holds : Claim.segSeal := by
  intro ini n v s hr
  refine ⟨_, exec_segSeal_of_reaches hr v, ?_⟩
  dsimp only
  unfold State.segSeal
  simp only [Bool.or_eq_true, bne_iff_ne, decide_eq_true_eq]
  split
  · exact s.segRefused_segRefuse n (by decide)
  · exact s.takeSeal_spec n _ _

/-! ## DROP (R106, R123) -/

/-- The segment table without a dropped entry, but for the result of its last verification. -/
theorem Slice.emptySeg_spec (x : Slice) (g : Nat) :
    let y := x.emptySeg g
    y.seg g = ⟨.empty, 0, 0, false, false, if (x.seg g).st = .verifying then 0xF else (x.seg g).err, none⟩ ∧
    (∀ k, k ≠ g → y.seg k = x.seg k) ∧ y.sealq = abandonSeals (dropMeets g) x.sealq ∧
    y = { x with segs := y.segs, sealq := y.sealq } := by
  intro y
  let z : Slice := { x.abandonSeg g with segs := x.segs.filter fun y => y.1 != g }
  have hy : y = if (if (x.seg g).st = .verifying then 0xF else (x.seg g).err) = 0 then z
      else z.setSeg g ⟨.empty, 0, 0, false, false, if (x.seg g).st = .verifying then 0xF else (x.seg g).err, none⟩ := rfl
  have hother : ∀ k, k ≠ g → z.seg k = x.seg k := fun k hk => Slice.seg_of_filter rfl hk
  rw [hy]
  generalize (if (x.seg g).st = .verifying then 0xF else (x.seg g).err) = err
  split
  next herr =>
    rw [herr]
    exact ⟨Slice.seg_of_filter_self (x := x) rfl, hother, rfl, rfl⟩
  next => exact ⟨Slice.seg_setSeg_self _ _ _, fun k hk => (Slice.seg_setSeg_ne _ hk _).trans (hother k hk), rfl, rfl⟩

theorem segDrop_holds : Claim.segDrop := by
  intro ini n v s hr
  refine ⟨_, exec_segDrop_of_reaches hr v, ?_⟩
  dsimp only
  unfold State.segDrop
  dsimp only
  split
  · exact s.segRefused_segRefuse n (by decide)
  split
  · rfl
  obtain ⟨hseg, hother, hsealq, hframe⟩ := s.sl[n].emptySeg_spec (bitsOf v.toNat 0 20)
  have hsl := s.sl_modSl_self n fun x => x.emptySeg (bitsOf v.toNat 0 20)
  refine ⟨?_, ?_, ?_, fun k hk => ?_, ?_, fun q hq hg => ?_, ?_, State.modSl_segs_sealq hframe⟩
  · rw [hsl, hseg]
  · rw [hsl, hseg]
  · rw [hsl, hseg]
  · rw [hsl, hother k hk]
  · rw [hsl, hsealq, length_abandonSeals]
  · rw [hsl, hsealq] at hq
    exact st_of_mem_abandonSeals hq hg
  · rw [hsl, hsealq, filter_abandonSeals]

/-! ## The seal of a DMA descriptor (R107) -/

theorem bitOf_toNat (w : Word) (i : Nat) : bitOf w.toNat i = w.getLsbD i := by
  rw [← BitVec.testBit_toNat, Nat.testBit_eq_decide_div_mod_eq]
  rfl

theorem exec_dmaSeal_of_due {c : Fin 16} {r : DmaRun} {s : State} (h : s.dma[c] = some r) (hfin : r.finished = true)
    (hdue : r.sealDue = true) (hgo : s.dmaStalled.getLsbD c = false) :
    exec (.dmaSeal c) s = .next (let x := s.dmaSeal (dSlice r.desc) (dSeg r.desc) r.desc.token
      if x.2 then x.1.setDma c (some { r with sealDue := false }) else x.1) := by
  show execDmaSeal c s = _
  unfold execDmaSeal
  simp only [h, hfin, hdue, bitOf_toNat, hgo, Bool.not_false, Bool.and_true, if_true]

/-- A seal of an entry that is not OPEN takes the last place for its record, and the table stays. -/
theorem State.noEntrySeal_spec (s : State) (n : Fin 8) (q : Seal) :
    let t := s.modSl n fun x => { x with sealq := x.sealq ++ [q] }
    t.sl[n].segs = s.sl[n].segs ∧ t.sl[n].sealq = s.sl[n].sealq ++ [q] ∧
    t = s.modSl n fun x => { x with segs := t.sl[n].segs, sealq := t.sl[n].sealq } := by
  intro t
  have ht : t.sl[n] = _ := s.sl_modSl_self n _
  exact ⟨by rw [ht], by rw [ht], State.modSl_segs_sealq rfl⟩

/-- What the seal of a finished descriptor does, by whether the queue has room and the entry is OPEN. -/
theorem State.dmaSeal_eq (s : State) (n : Fin 8) (g : Nat) (token : Word) : s.dmaSeal n g token =
    if 64 ≤ s.sl[n].sealq.length then (s, false)
    else if (s.sl[n].seg g).st = .opened then (s.takeSeal n g token, true)
    else (s.modSl n fun x => { x with sealq := x.sealq ++ [⟨g, token, .noEntry 1⟩] }, true) := rfl

theorem dmaSeal_holds : Claim.dmaSeal := by
  intro c r s h hfin hdue hgo
  refine ⟨_, exec_dmaSeal_of_due h hfin hdue hgo, ?_⟩
  dsimp only
  rw [State.dmaSeal_eq]
  by_cases hfull : 64 ≤ s.sl[dSlice r.desc].sealq.length
  · rw [if_pos hfull, if_pos hfull]
    rfl
  rw [if_neg hfull, if_neg hfull]
  by_cases hopen : (s.sl[dSlice r.desc].seg (dSeg r.desc)).st = .opened
  · rw [if_pos hopen]
    obtain ⟨hseg, hother, hsealq, hframe⟩ := s.takeSeal_spec (dSlice r.desc) (dSeg r.desc) r.desc.token
    exact ⟨rfl, hother, fun _ => ⟨hseg, hsealq⟩, fun hno => absurd hopen hno, congrArg (fun y : State => y.setDma c _) hframe⟩
  · rw [if_neg hopen]
    obtain ⟨hsegs, hsealq, hframe⟩ := s.noEntrySeal_spec (dSlice r.desc) ⟨dSeg r.desc, r.desc.token, .noEntry 1⟩
    exact ⟨rfl, fun k _ => Slice.seg_congr hsegs k, fun hyes => absurd hyes hopen, fun _ => ⟨hsegs, hsealq⟩,
      congrArg (fun y : State => y.setDma c _) hframe⟩

/-- Settles O17: each segment command by its checks in their order, then by what it does to its entry and to the seal queue. -/
theorem segments : Obligations.Segments := ⟨segOpen_holds, segSeal_holds, segDrop_holds, dmaSeal_holds⟩

end Sys2Proof.Machine
end

section
/-! SUPPORT. The oldest seal without a record, the turns of the load unit's reads of an image, and the checks of an image in their order
(spec/03 R96 to R98, R108, R110; spec/10 R364). -/

namespace Sys2Proof.Machine

open Sys2Proof Claim

/-! ## The oldest seal without a record (R108) -/

theorem sealDone_iff (q : Seal) : sealDone q = true ↔ ∃ e, q.st = .ready e := by
  unfold sealDone
  cases q.st <;> simp

theorem firstUndone_append {a : List Seal} {q : Seal} (ha : ∀ p ∈ a, sealDone p = true) (hq : sealDone q = false) (b : List Seal) :
    firstUndone (a ++ q :: b) = some q := by
  induction a with
  | nil =>
    rw [List.nil_append, firstUndone]
    split
    next e he => exact absurd ((sealDone_iff q).2 ⟨e, he⟩) (by simp [hq])
    next => rfl
  | cons p a ih =>
    obtain ⟨e, he⟩ := (sealDone_iff p).1 (ha p List.mem_cons_self)
    rw [List.cons_append, firstUndone, he]
    exact ih fun p hp => ha p (List.mem_cons_of_mem _ hp)

theorem mapUndone_append {a : List Seal} {q : Seal} (ha : ∀ p ∈ a, sealDone p = true) (hq : sealDone q = false) (b : List Seal)
    (f : Seal → Seal) : mapUndone f (a ++ q :: b) = a ++ f q :: b := by
  induction a with
  | nil =>
    rw [List.nil_append, mapUndone]
    split
    next e he => exact absurd ((sealDone_iff q).2 ⟨e, he⟩) (by simp [hq])
    next => rfl
  | cons p a ih =>
    obtain ⟨e, he⟩ := (sealDone_iff p).1 (ha p List.mem_cons_self)
    rw [List.cons_append, mapUndone, he]
    exact congrArg (p :: ·) (ih fun p hp => ha p (List.mem_cons_of_mem _ hp))

/-! ## Nothing goes before the load unit's reads (R364, R369, R372) -/

/-- With nothing waiting and no panic, a DRC cycle does nothing. -/
theorem State.drcCycle_of_calm {s : State} (hw : s.drc.waiting = []) (hp : s.panicNow = false) (hs : s.drc.panicSince = none) :
    s.drcCycle = s := by
  have hsample : s.samplePanic = s := by
    unfold State.samplePanic
    rw [hs, hp]
    rfl
  unfold State.drcCycle
  dsimp only
  rw [hsample, hw]
  rfl

theorem State.maintain_of_rested {s : State} (h : Rested s) (pc : Fin 64) : s.maintain pc = s := by
  obtain ⟨htargeted, hprob⟩ := h
  have hnone : s.each (s.drc.targeted.filter fun e => e.1 == pc && (!s.panicNow || s.ripe e)) (fun e s => s.targetedRefresh e) = s := by
    rw [htargeted]
    rfl
  unfold State.maintain
  dsimp only
  rw [hnone, hprob]
  split <;> rfl

/-- The stacks that serve the load unit serve its reads of an image. -/
theorem State.imageServed_of_loadServed {s : State} (h : LoadServed s) (hw : s.drc.waiting = []) (n : Fin 8) (g : Nat) :
    s.imageServed n g = true := by
  obtain ⟨-, hpanic, -, hup, hforced⟩ := h
  have hserve : ∀ a, s.servable (.load n) a = true := fun a => by
    unfold State.servable
    dsimp only
    rw [hup, hpanic, hforced]
    simp
  refine List.all_eq_true.2 fun x _ => ?_
  rw [hserve, hw]
  rfl

/-! ## The turns of the load unit's reads (R364) -/

/-- The state with other round robins of class 6. -/
def State.withTurns (s : State) (v : Vector Nat 64) : State := { s with drc := { s.drc with turn := v } }

/-- The round robins behind a granule of slice n's load unit at an address. -/
def State.turnsBehind (s : State) (n : Fin 8) (a : Nat) : Vector Nat 64 := s.drc.turn.set (placeOf a).1 ((n.val + 1) % 24)

theorem State.getElem_turnsBehind (s : State) (n : Fin 8) (a : Nat) (pc : Fin 64) :
    (s.turnsBehind n a)[pc] = if (placeOf a).1 = pc then (n.val + 1) % 24 else s.drc.turn[pc] := by
  simp [State.turnsBehind, Vector.getElem_set, Fin.val_inj]

theorem State.tookTurn_load (s : State) (n : Fin 8) (a : Nat) : s.tookTurn (.load n) a = s.withTurns (s.turnsBehind n a) := rfl

theorem rested_withTurns {s : State} (h : Rested s) (v : Vector Nat 64) : Rested (s.withTurns v) := h

/-- Granules of the load unit, one by one: each moves the round robin of its pseudo-channel behind the slice's place. -/
theorem State.each_tookTurn_load (n : Fin 8) (l : List (Nat × Nat)) {s : State} (h : Rested s) :
    let t := s.each l fun g s => (s.tookTurn (.load n) g.1).maintain (placeOf g.1).1
    t = s.withTurns t.drc.turn ∧ ∀ pc : Fin 64,
      t.drc.turn[pc] = if (∃ g ∈ l, (placeOf g.1).1 = pc) then (n.val + 1) % 24 else s.drc.turn[pc] := by
  induction l generalizing s with
  | nil => exact ⟨rfl, fun pc => by simp [State.each]⟩
  | cons g l ih =>
    intro t
    have hstep : (s.tookTurn (.load n) g.1).maintain (placeOf g.1).1 = s.withTurns (s.turnsBehind n g.1) := by
      rw [State.tookTurn_load, State.maintain_of_rested (rested_withTurns h _)]
    have ht : t = (s.withTurns (s.turnsBehind n g.1)).each l fun g s => (s.tookTurn (.load n) g.1).maintain (placeOf g.1).1 := by
      rw [← hstep]
      exact s.each_cons g l _
    obtain ⟨hframe, hturn⟩ := ih (rested_withTurns h (s.turnsBehind n g.1))
    rw [← ht] at hframe hturn
    refine ⟨hframe, fun pc => (hturn pc).trans ?_⟩
    have hhead : (s.withTurns (s.turnsBehind n g.1)).drc.turn[pc] = _ := s.getElem_turnsBehind n g.1 pc
    rw [hhead]
    simp only [List.mem_cons, exists_eq_or_imp]
    by_cases hrest : ∃ g ∈ l, (placeOf g.1).1 = pc
    · rw [if_pos hrest, if_pos (.inr hrest)]
    · rw [if_neg hrest]
      by_cases hg : (placeOf g.1).1 = pc
      · rw [if_pos hg, if_pos (.inl hg)]
      · rw [if_neg hg, if_neg (by simp [hg, hrest])]

/-- The reads of an image move the round robins behind the slice's place and do nothing else. -/
theorem State.tookTurns_load {s : State} (h : Rested s) (n : Fin 8) (a len : Nat) :
    let t := s.tookTurns (.load n) a len
    t = s.withTurns t.drc.turn ∧ TurnsOn s t n a len := State.each_tookTurn_load n (granulesOf a len) h

/-- Whose turn it is has no part in a verification. -/
theorem State.verify_withTurns (s : State) (v : Vector Nat 64) (n : Fin 8) (g : Nat) (ecc : EccWhere) :
    (s.withTurns v).verify n g ecc = s.verify n g ecc := rfl

/-! ## The checks of a header (R96, R110) -/

/-- What the header says that the image is: the format, a version and type that are listed, the sealed segment. -/
abbrev Image.Named (i : Image) (g : Nat) : Prop :=
  i.magic = 0x54485347 ∧ i.version = 1 ∧ (i.type = 1 ∨ i.type = 2) ∧ i.segno = g

/-- Lengths within their limits and within a range of some 4 KiB units. -/
abbrev Image.Fits (i : Image) (units : Nat) : Prop :=
  4 ≤ i.hems ∧ i.hems ≤ 67108864 ∧ (if i.type = 1 then i.words ≤ 16777216 else i.words = 0) ∧ i.size ≤ units * 4096

/-- A frequency word within the synthesizers' range. -/
abbrev Image.FreqInRange (i : Image) : Prop := 0x02000000 ≤ i.freq ∧ i.freq ≤ 0x40000000

/-- The header's checks in their order. -/
theorem Image.headErr_eq (i : Image) (g units bytes : Nat) : i.headErr g units bytes =
    if i.magic ≠ 0x54485347 then 5
    else if i.version ≠ 1 ∨ (i.type ≠ 1 ∧ i.type ≠ 2) then 6
    else if i.segno ≠ g then 7
    else if ¬ (i.Fits units ∧ bytes = i.size) then 8
    else if ¬ i.FreqInRange then 9
    else 0 := by
  have hfits : (((i.hems < 4 ∨ 67108864 < i.hems) ∨
      (if i.type = 1 then decide (16777216 < i.words) else i.words != 0) = true) ∨ units * 4096 < i.size) ∨ bytes ≠ i.size ↔
      ¬ (i.Fits units ∧ bytes = i.size) := by
    unfold Image.Fits
    split <;> simp <;> omega
  have hfreq : i.freq < 0x02000000 ∨ 0x40000000 < i.freq ↔ ¬ i.FreqInRange := by
    unfold Image.FreqInRange
    omega
  unfold Image.headErr
  simp only [bne_iff_ne, Bool.or_eq_true, Bool.and_eq_true, decide_eq_true_eq, hfits, hfreq]

/-- The checks that are left of a header that names the sealed segment's image. -/
theorem Image.headErr_of_named {i : Image} {g : Nat} (h : i.Named g) (units bytes : Nat) : i.headErr g units bytes =
    if ¬ (i.Fits units ∧ bytes = i.size) then 8 else if ¬ i.FreqInRange then 9 else 0 := by
  obtain ⟨hmagic, hversion, htype, hsegno⟩ := h
  rw [Image.headErr_eq, if_neg (Decidable.not_not.2 hmagic), if_neg (by omega), if_neg (Decidable.not_not.2 hsegno)]

/-- A header with no error has passed every check. -/
theorem Image.headErr_eq_zero_iff (i : Image) (g units bytes : Nat) :
    i.headErr g units bytes = 0 ↔ i.Named g ∧ i.Fits units ∧ bytes = i.size ∧ i.FreqInRange := by
  by_cases hnamed : i.Named g
  · rw [Image.headErr_of_named hnamed]
    split
    next h => exact ⟨fun h0 => absurd h0 (by decide), fun ⟨_, hfits, hbytes, _⟩ => absurd ⟨hfits, hbytes⟩ h⟩
    next h =>
      obtain ⟨hfits, hbytes⟩ := Decidable.not_not.1 h
      split
      next hf => exact ⟨fun h0 => absurd h0 (by decide), fun ⟨_, _, _, hfreq⟩ => absurd hfreq hf⟩
      next hf => exact ⟨fun _ => ⟨hnamed, hfits, hbytes, Decidable.not_not.1 hf⟩, fun _ => rfl⟩
  · refine ⟨fun h0 => absurd ?_ hnamed, fun h => absurd h.1 hnamed⟩
    rw [Image.headErr_eq] at h0
    have hmagic : i.magic = 0x54485347 := Decidable.byContradiction fun hm => by simp only [if_pos hm, Nat.reduceEqDiff] at h0
    rw [if_neg (Decidable.not_not.2 hmagic)] at h0
    have hvt : ¬ (i.version ≠ 1 ∨ (i.type ≠ 1 ∧ i.type ≠ 2)) := fun hvt => by simp only [if_pos hvt, Nat.reduceEqDiff] at h0
    rw [if_neg hvt] at h0
    have hsegno : i.segno = g := Decidable.byContradiction fun hs => by simp only [if_pos hs, Nat.reduceEqDiff] at h0
    exact ⟨hmagic, by omega, by omega, hsegno⟩

theorem Image.bytes_of_headErr {i : Image} {g units bytes : Nat} (h : i.headErr g units bytes = 0) : bytes = i.size := by
  obtain ⟨-, -, hbytes, -⟩ := (i.headErr_eq_zero_iff g units bytes).1 h
  exact hbytes

/-! ## The checks of an image (R96 to R98, R110) -/

/-- The image sealed in an entry of a slice. -/
def State.imageOf (s : State) (n : Fin 8) (g : Nat) : Image := s.image (s.imageBase n g)

/-- The checks behind the CRC: control words, placement, edge-pool records (R110). -/
def State.verifyWords (s : State) (n : Fin 8) (g : Nat) : Nat × Bool × Option Figures :=
  let x := s.sl[n]
  let i := s.imageOf n g
  if i.type = 2 then (0, true, some (dataFigures i.hems i.freq))
  else
    let ws := s.ctlWords i
    if !encodingOk ws i.freq then (0xB, false, none)
    else
      let l := placeFrom 0 ws
      if !placementOk l (i.hems * 64) i.freq g then (0xC, false, none)
      else
        let f := figuresOf l i.hems i.freq g
        if 4194304 < x.edgesUsed g + f.succ.length then (0xD, false, none) else (0, false, some f)

/-- IMAGE_BYTES of the trailer (R97). -/
def State.imageBytes (s : State) (i : Image) : Nat := s.num (i.base + i.body + 4) 8

/-- The order of a verification (R110). -/
theorem State.verify_eq (s : State) (n : Fin 8) (g : Nat) (ecc : EccWhere) :
    let i := s.imageOf n g
    let units := (s.sl[n].seg g).size
    (s.verify n g ecc).1 =
      if ecc = .header then 0xE
      else if i.headErr g units i.size ≠ 0 then i.headErr g units i.size
      else if ecc = .body then 0xE
      else if i.headErr g units (s.imageBytes i) ≠ 0 then 8
      else if s.crcOk i = false then 0xA
      else (s.verifyWords n g).1 := by
  intro i units
  have hverify : s.verify n g ecc =
      if ecc = .header then (0xE, false, none)
      else if i.headErr g units i.size != 0 then (i.headErr g units i.size, false, none)
      else if ecc = .body then (0xE, false, none)
      else if i.headErr g units (s.imageBytes i) != 0 then (8, false, none)
      else if !s.crcOk i then (0xA, false, none)
      else s.verifyWords n g := rfl
  rw [hverify]
  simp only [bne_iff_ne, Bool.not_eq_true', apply_ite Prod.fst]

theorem State.verify_of_headErr {s : State} {n : Fin 8} {g k : Nat} {ecc : EccWhere} (hecc : ecc ≠ .header)
    (h : (s.imageOf n g).headErr g (s.sl[n].seg g).size (s.imageOf n g).size = k) (hk : k ≠ 0) : (s.verify n g ecc).1 = k := by
  subst h
  exact (s.verify_eq n g ecc).trans ((if_neg hecc).trans (if_pos hk))

/-- The checks behind a header without error. -/
theorem State.verify_of_header {s : State} {n : Fin 8} {g : Nat} {ecc : EccWhere} (hecc : ecc ≠ .header)
    (h : (s.imageOf n g).headErr g (s.sl[n].seg g).size (s.imageOf n g).size = 0) : (s.verify n g ecc).1 =
      if ecc = .body then 0xE
      else if (s.imageOf n g).headErr g (s.sl[n].seg g).size (s.imageBytes (s.imageOf n g)) ≠ 0 then 8
      else if s.crcOk (s.imageOf n g) = false then 0xA
      else (s.verifyWords n g).1 :=
  (s.verify_eq n g ecc).trans ((if_neg hecc).trans (if_neg (Decidable.not_not.2 h)))

/-- A verification without error has passed every check. -/
theorem State.passed_of_verify {s : State} {n : Fin 8} {g : Nat} {ecc : EccWhere} (h : (s.verify n g ecc).1 = 0) :
    let i := s.imageOf n g
    let units := (s.sl[n].seg g).size
    ecc = .none ∧ i.headErr g units i.size = 0 ∧ i.headErr g units (s.imageBytes i) = 0 ∧ s.crcOk i = true ∧
    (s.verifyWords n g).1 = 0 := by
  rw [State.verify_eq] at h
  split at h
  · exact absurd h (by decide)
  next hheader =>
  split at h
  next hhead => exact absurd h hhead
  next hhead =>
  split at h
  · exact absurd h (by decide)
  next hbody =>
  split at h
  · exact absurd h (by decide)
  next hbytes =>
  split at h
  · exact absurd h (by decide)
  next hcrc =>
  refine ⟨?_, Decidable.not_not.1 hhead, Decidable.not_not.1 hbytes, Bool.not_eq_false _ ▸ hcrc, h⟩
  cases ecc with
  | none => rfl
  | header => exact absurd rfl hheader
  | body => exact absurd rfl hbody

/-- Behind the CRC, a FULL image without error holds only control words that are listed. -/
theorem State.listed_of_verifyWords {s : State} {n : Fin 8} {g : Nat} (h : (s.verifyWords n g).1 = 0)
    (ht : (s.imageOf n g).type = 1) : ∀ w ∈ s.ctlWords (s.imageOf n g),
      (opOf (wOp w)).any (fun o => operandsOk o w (pwOf (s.imageOf n g).freq)) = true := by
  unfold State.verifyWords at h
  dsimp only at h
  rw [if_neg (by omega)] at h
  split at h
  · exact absurd h (by decide)
  next hok =>
    intro w hw
    have hall : encodingOk (s.ctlWords (s.imageOf n g)) (s.imageOf n g).freq = true := by simpa using hok
    have hlisted := List.all_eq_true.1 hall w hw
    cases hop : opOf (wOp w) with
    | none => rw [hop] at hlisted; exact hlisted
    | some o => rw [hop] at hlisted; exact hlisted

/-- A CRC without error matches. -/
theorem State.crc_of_crcOk {s : State} {i : Image} (h : s.crcOk i = true) :
    s.num (i.base + i.body) 4 = (crc32c (s.bytes i.base i.body)).toNat := by
  simp only [State.crcOk, Bool.and_eq_true, beq_iff_eq] at h
  exact h.2

end Sys2Proof.Machine
end

section
/-! Verification of an image in the order of its checks, and the queue of results (spec/03 R96 to R98, R108, R110, R111, R126). -/

namespace Sys2Proof.Machine

open Sys2Proof Claim

/-! ## VERIFY_BEGIN (R108, R111) -/

/-- What VERIFY_BEGIN does to a slice, with or without panic. -/
def Slice.beginVerify (x : Slice) (panic : Bool) : Slice :=
  if 16 ≤ x.loaddone.length then x
  else match firstUndone x.sealq with
    | some q => match q.st with
      | .waiting => if panic then x else { x with sealq := mapUndone (fun q => { q with st := .verifying }) x.sealq }
      | .noEntry e => { x with sealq := mapUndone (fun q => { q with st := .ready e }) x.sealq }
      | _ => x
    | none => x

theorem exec_verifyBegin (n : Fin 8) (s : State) :
    exec (.verifyBegin n) s = .next (s.modSl n fun x => x.beginVerify s.panicNow) := rfl

/-- VERIFY_BEGIN with room in LOADDONE, by the state of the oldest seal without a record. -/
theorem Slice.beginVerify_of_oldest {x : Slice} {a b : List Seal} {q : Seal} (hsplit : x.sealq = a ++ q :: b)
    (ha : ∀ p ∈ a, sealDone p = true) (hq : sealDone q = false) (hroom : ¬ 16 ≤ x.loaddone.length) :
    (q.st = .waiting → x.beginVerify true = x) ∧
    (q.st = .waiting → x.beginVerify false = { x with sealq := a ++ { q with st := .verifying } :: b }) ∧
    (∀ panic e, q.st = .noEntry e → x.beginVerify panic = { x with sealq := a ++ { q with st := .ready e } :: b }) ∧
    ∀ panic, q.st = .verifying → x.beginVerify panic = x := by
  have hfirst := firstUndone_append ha hq b
  have hmap := mapUndone_append ha hq b
  rw [← hsplit] at hfirst hmap
  simp only [Slice.beginVerify, hroom, if_false, hfirst]
  refine ⟨fun hst => ?_, fun hst => ?_, fun panic e hst => ?_, fun panic hst => ?_⟩
  · rw [hst]
    rfl
  · rw [hst]
    exact congrArg (fun l => { x with sealq := l }) (hmap _)
  · rw [hst]
    exact congrArg (fun l => { x with sealq := l }) (hmap _)
  · rw [hst]

theorem verifyBegin_holds : verifyBegin := by
  intro n a b q s hsplit ha hq
  refine ⟨_, exec_verifyBegin n s, ?_⟩
  dsimp only
  split
  next hfull => exact State.modSl_of_eq (if_pos hfull)
  next hroom =>
    obtain ⟨hheld, hwaiting, hnoEntry, hverifying⟩ := Slice.beginVerify_of_oldest hsplit ha hq hroom
    cases hst : q.st with
    | waiting =>
      dsimp only
      cases s.panicNow with
      | true => exact State.modSl_of_eq (hheld hst)
      | false => exact State.modSl_congr (hwaiting hst)
    | noEntry e => exact State.modSl_congr (hnoEntry _ e hst)
    | verifying => exact State.modSl_of_eq (hverifying _ hst)
    | ready e => exact absurd ((sealDone_iff q).2 ⟨e, hst⟩) (by simp [hq])

/-! ## VERIFY_DONE (R110) -/

/-- An entry after a verification: LOADED with its figures, or OPEN with the code. -/
def SegEntry.verified (e : SegEntry) (r : Nat × Bool × Option Figures) : SegEntry :=
  if r.1 = 0 then { e with st := .loaded, dataOnly := r.2.1, err := 0, fig := r.2.2 }
  else { e with st := .opened, err := r.1, fig := none }

/-- The end of the verification of the oldest seal without a record. -/
def State.endVerify (s : State) (n : Fin 8) (g : Nat) (ecc : EccWhere) : State :=
  let r := s.verify n g ecc
  s.modSl n fun x =>
    ({ x with sealq := mapUndone (fun q => { q with st := .ready r.1 }) x.sealq } : Slice).setSeg g ((x.seg g).verified r)

theorem exec_verifyDone (n : Fin 8) (ecc : EccWhere) (s : State) : exec (.verifyDone n ecc) s = .next (
    let s := s.drcCycle
    match firstUndone s.sl[n].sealq with
    | some q =>
      if q.st = .verifying && s.imageServed n q.seg then
        (s.tookTurns (.load n) (s.imageBase n q.seg) ((s.sl[n].seg q.seg).size * 4096)).endVerify n q.seg ecc
      else s
    | none => s) := rfl

/-- VERIFY_DONE with nothing waiting and no panic, by whether the reads of the image are served. -/
theorem exec_verifyDone_of_oldest {n : Fin 8} {q : Seal} {s : State} (hfirst : firstUndone s.sl[n].sealq = some q)
    (hst : q.st = .verifying) (hcycle : s.drcCycle = s) (ecc : EccWhere) :
    exec (.verifyDone n ecc) s = .next (if s.imageServed n q.seg = true then
      (s.tookTurns (.load n) (s.imageBase n q.seg) ((s.sl[n].seg q.seg).size * 4096)).endVerify n q.seg ecc else s) := by
  rw [exec_verifyDone, hcycle]
  dsimp only
  rw [hfirst]
  dsimp only
  rw [hst, decide_eq_true rfl, Bool.true_and]

theorem State.sl_endVerify (s : State) (n : Fin 8) (g : Nat) (ecc : EccWhere) : (s.endVerify n g ecc).sl[n] =
    ({ s.sl[n] with sealq := mapUndone (fun q => { q with st := .ready (s.verify n g ecc).1 }) s.sl[n].sealq } : Slice).setSeg g
      ((s.sl[n].seg g).verified (s.verify n g ecc)) := s.sl_modSl_self n _

theorem State.seg_endVerify (s : State) (n : Fin 8) (g : Nat) (ecc : EccWhere) :
    (s.endVerify n g ecc).sl[n].seg g = (s.sl[n].seg g).verified (s.verify n g ecc) := by
  rw [State.sl_endVerify, Slice.seg_setSeg_self]

theorem verifyDone_holds : verifyDone := by
  intro n ecc a b q s hsplit ha hst hw
  have hq : sealDone q = false := by simp [sealDone, hst]
  have hfirst := firstUndone_append ha hq b
  have hmap := mapUndone_append ha hq b
  rw [← hsplit] at hfirst hmap
  refine ⟨fun hload => ?_, fun hp hs hheld => ?_⟩
  · have ⟨hrest, hpanic, hsince, _, _⟩ := hload
    have hcycle := State.drcCycle_of_calm hw hpanic hsince
    obtain ⟨hframe, hturns⟩ := State.tookTurns_load hrest n (s.imageBase n q.seg) ((s.sl[n].seg q.seg).size * 4096)
    refine ⟨_, exec_verifyDone_of_oldest hfirst hst hcycle ecc, ?_⟩
    rw [if_pos (State.imageServed_of_loadServed hload hw n q.seg)]
    generalize s.tookTurns (.load n) (s.imageBase n q.seg) ((s.sl[n].seg q.seg).size * 4096) = u at *
    generalize u.drc.turn = v at hframe
    subst hframe
    have hseg := State.seg_endVerify (s.withTurns v) n q.seg ecc
    have hsl := State.sl_endVerify (s.withTurns v) n q.seg ecc
    rw [State.verify_withTurns] at hseg hsl
    refine ⟨?_, fun k hk => ?_, fun h0 => ?_, fun h0 => ?_, hturns, ?_⟩
    · rw [hsl]
      exact hmap _
    · rw [hsl]
      exact Slice.seg_setSeg_ne _ hk _
    · exact hseg.trans (if_pos h0)
    · exact hseg.trans (if_neg h0)
    · rw [hsl]
      rfl
  · have hcycle := State.drcCycle_of_calm hw hp hs
    exact ⟨s, by rw [exec_verifyDone_of_oldest hfirst hst hcycle, hheld, if_neg Bool.false_ne_true], rfl⟩

/-! ## The order of the checks (R96 to R98, R110) -/

theorem verifyOrder_holds : verifyOrder := by
  intro n g ecc s i e named lengths head crc
  have hclean : ∀ bytes, head → bytes = i.size → i.headErr g (s.sl[n].seg g).size bytes = 0 :=
    fun _ ⟨⟨_, hnamed⟩, hfits, hfreq⟩ hbytes => (i.headErr_eq_zero_iff ..).2 ⟨hnamed, hfits, hbytes, hfreq⟩
  have hcode : ∀ k, ecc ≠ .header → i.headErr g (s.sl[n].seg g).size i.size = k → k ≠ 0 → e = k := fun _ =>
    State.verify_of_headErr
  have hpass : head → e = _ := fun hhead => State.verify_of_header hhead.1.1 (hclean _ hhead rfl)
  refine ⟨fun hecc => (s.verify_eq n g ecc).trans (if_pos hecc),
    fun hecc hm => hcode 5 hecc ?_ (by decide),
    fun hecc hm hvt => hcode 6 hecc ?_ (by decide),
    fun hecc hm hv ht hseg => hcode 7 hecc ?_ (by decide),
    fun ⟨hecc, hnamed⟩ hlen => hcode 8 hecc ?_ (by decide),
    fun ⟨hecc, hnamed⟩ hlen hfreq => hcode 9 hecc ?_ (by decide),
    fun hhead hecc => (hpass hhead).trans (if_pos hecc), fun hhead hecc hsize => ?_, fun hhead hecc hsize hcrc => ?_, fun h0 => ?_⟩
  · rw [Image.headErr_eq, if_pos hm]
  · rw [Image.headErr_eq, if_neg (Decidable.not_not.2 hm), if_pos hvt]
  · rw [Image.headErr_eq, if_neg (Decidable.not_not.2 hm), if_neg (by omega), if_pos hseg]
  · rw [Image.headErr_of_named hnamed, if_pos fun h => hlen h.1]
  · rw [Image.headErr_of_named hnamed, if_neg (Decidable.not_not.2 ⟨hlen, rfl⟩), if_pos (by omega)]
  · have herr : i.headErr g (s.sl[n].seg g).size (s.imageBytes i) ≠ 0 := fun h => hsize (Image.bytes_of_headErr h)
    exact (hpass hhead).trans ((if_neg (by simp [hecc])).trans (if_pos herr))
  · have hbad : s.crcOk i = false := Bool.eq_false_iff.2 fun hok => hcrc (State.crc_of_crcOk hok)
    exact (hpass hhead).trans ((if_neg (by simp [hecc])).trans
      ((if_neg (Decidable.not_not.2 (hclean _ hhead hsize))).trans (if_pos hbad)))
  · obtain ⟨hecc, hhead, hsize, hcrc, hwords⟩ := State.passed_of_verify h0
    obtain ⟨hnamed, hfits, -, hfreq⟩ := (i.headErr_eq_zero_iff ..).1 hhead
    refine ⟨⟨⟨by simp [hecc], hnamed⟩, hfits, hfreq⟩, hecc, Image.bytes_of_headErr hsize, State.crc_of_crcOk hcrc, ?_⟩
    exact State.listed_of_verifyWords hwords

/-! ## LOADDONE (R108, R126) -/

theorem loaddonePost_holds : loaddonePost := by
  intro n q rest e s hq hst
  refine ⟨_, rfl, ?_⟩
  dsimp only
  split
  next hfull => exact State.modSl_of_eq (by rw [hq]; dsimp only; rw [hst]; exact if_neg (by omega))
  next hroom => exact State.modSl_congr (by rw [hq]; dsimp only; rw [hst]; exact if_pos (by omega))

theorem find_slLoaddone : ∀ n : Fin 8,
    aSlLoaddone n % 8 = 0 ∧ Reg.find (aSlLoaddone n) = some (.slLoaddone, [n.val], false) := by decide

/-- LOADDONE shows the oldest record, or 0. -/
theorem State.readVal_loaddone (s : State) (ini : Initiator) (n : Fin 8) :
    s.readVal ini .slLoaddone [n.val] = s.sl[n].loaddone.headD 0 := by
  have hlive : s.live ini .slLoaddone [n.val] = [(0, 64, (s.sl[n].loaddone.headD 0).toNat)] :=
    congrArg (fun m : Fin 8 => [(0, 64, (s.sl[m].loaddone.headD 0).toNat)]) (Fin.ofNat_val_eq_self n)
  unfold State.readVal
  dsimp only
  rw [ownCopy_eq (by decide) (by decide)]
  dsimp only
  rw [hlive, List.foldl_cons, List.foldl_nil]
  generalize List.foldl _ _ _ = stored
  generalize s.sl[n].loaddone.headD 0 = r
  have hr := r.isLt
  have hs := stored.isLt
  refine BitVec.eq_of_toNat_eq ?_
  rw [BitVec.toNat_ofNat, withBits]
  dsimp only
  omega

/-- The oldest record removed. -/
def State.popLoaddone (s : State) (n : Fin 8) : State := s.modSl n fun x => { x with loaddone := x.loaddone.tail }

theorem State.popRead_loaddone (s : State) (n : Fin 8) : s.popRead .slLoaddone [n.val] = s.popLoaddone n :=
  congrArg s.popLoaddone (Fin.ofNat_val_eq_self n)

/-- A read of the low word of LOADDONE takes the record, whose high word goes to the shadow (R16, R126). -/
theorem State.read32_loaddone {s : State} {ini : Initiator} {n : Fin 8} (hs : s.sees ini .slLoaddone [n.val] = true) :
    s.read32 ini (aSlLoaddone n) = ((s.sl[n].loaddone.headD 0).setWidth 32,
      { s.popLoaddone n with
        shadow := s.shadow.set (shadowOf ini) (some (aSlLoaddone n, (s.sl[n].loaddone.headD 0 >>> 32).setWidth 32)) }) := by
  unfold State.read32
  rw [(find_slLoaddone n).2]
  dsimp only
  rw [hs, State.readVal_loaddone, State.popRead_loaddone]
  rfl

theorem State.read64_loaddone {s : State} {ini : Initiator} {n : Fin 8} (hs : s.sees ini .slLoaddone [n.val] = true) :
    s.read64 ini (aSlLoaddone n) =
      (s.sl[n].loaddone.headD 0, s.popLoaddone n) := by
  unfold State.read64
  rw [(find_slLoaddone n).2]
  dsimp only
  rw [hs, State.readVal_loaddone, State.popRead_loaddone]
  rfl

/-- The low word of a record on the bus. -/
theorem setWidth_low_eq_and (r : DWord) : (r.setWidth 32).setWidth 64 = r &&& 0xFFFFFFFF := by
  refine BitVec.eq_of_getLsbD_eq fun i hi => ?_
  have hmask : (0xFFFFFFFF : DWord).getLsbD i = decide (i < 32) := Part.getLsbD_lo_mask i
  rw [BitVec.getLsbD_and, hmask, BitVec.getLsbD_setWidth, BitVec.getLsbD_setWidth]
  simp [hi, Bool.and_comm]

theorem State.loaddone_popLoaddone (s : State) (n : Fin 8) : (s.popLoaddone n).sl[n].loaddone = s.sl[n].loaddone.tail := by
  rw [State.popLoaddone, State.sl_modSl_self]

theorem loaddoneRead_holds : loaddoneRead := by
  intro ini n wide s hb hs
  have hlt := Reg.find_lt_bar0 (find_slLoaddone n).2
  have h8 := (find_slLoaddone n).1
  refine ⟨_, rfl, ?_⟩
  dsimp only
  cases wide with
  | false =>
    rw [if_neg Bool.false_ne_true, State.busRead_word hb hlt (by omega), State.read32_loaddone hs]
    exact ⟨s.loaddone_popLoaddone n, setWidth_low_eq_and _, rfl, rfl⟩
  | true =>
    rw [if_pos rfl, State.busRead_double hb hlt h8, State.read64_loaddone hs]
    exact ⟨s.loaddone_popLoaddone n, rfl, rfl, rfl⟩

/-- Settles O18: a verification by the oldest seal without a record, the turns of its reads and the order of its checks; LOADDONE by the
bus read of its oldest record. -/
theorem imageVerification : Obligations.ImageVerification :=
  ⟨verifyBegin_holds, verifyDone_holds, verifyOrder_holds, loaddonePost_holds, loaddoneRead_holds⟩

end Sys2Proof.Machine
end

section
/-! Reads after writes, refuted: a store to a stack that came back with undefined contents also marks its bytes as written, which the
statement's frame leaves out (spec/03 R89, spec/17 R589). -/

namespace Sys2Proof.Machine

open Sys2Proof Claim

/-- After reset but for both stacks back with undefined contents: a store at address 0 lists the byte as written. -/
theorem not_readAfterStore : ¬ readAfterStore := by
  intro h
  let s : State := { State.reset with drc := { Drc.reset with bare := Vector.replicate 2 true } }
  obtain ⟨-, -, hframe⟩ := h s 0 [0]
  have hkept : (s.store 0 [0]).drc.written = s.drc.written := congrArg (fun x : State => x.drc.written) hframe
  exact absurd hkept (by decide)

/-- Refutes O58 by the frame of a store: in a stack that came back with undefined contents (R589) it lists its bytes as written, beside
what it does to pattern memory. The rest of the statement is `State.byte_store`, `State.rd_wr_self` and `OnlyFlds.wr`. -/
theorem not_readAfterWrite : ¬ Obligations.ReadAfterWrite := fun h => not_readAfterStore h.1

end Sys2Proof.Machine
end

section
/-! SUPPORT. Lanes of a slice, counters and conditional writes of fields: what each gives and what it leaves as it was. -/

namespace Sys2Proof.Machine

open Sys2Proof Claim

/-! ## One slice or one lane changed -/

theorem State.modSl_modSl (s : State) (n : Fin 8) (f g : Slice → Slice) :
    (s.modSl n f).modSl n g = s.modSl n fun x => g (f x) := by
  simp [State.modSl]

theorem Slice.lanes_modLane_self (x : Slice) (lane : Fin 32) (f : Lane → Lane) :
    (x.modLane lane f).lanes[lane] = f x.lanes[lane] := by
  simp [Slice.modLane]

theorem Slice.lanes_modLane_ne (x : Slice) {lane k : Fin 32} (h : k ≠ lane) (f : Lane → Lane) :
    (x.modLane lane f).lanes[k] = x.lanes[k] := by
  have hne : lane.val ≠ k.val := fun e => h (Fin.ext e.symm)
  simp [Slice.modLane, hne]

theorem Slice.modLane_modLane (x : Slice) (lane : Fin 32) (f g : Lane → Lane) :
    (x.modLane lane f).modLane lane g = x.modLane lane fun l => g (f l) := by
  simp [Slice.modLane]

/-! ## Counters -/

theorem OnlyRegs.addSat {s t : State} (h : OnlyRegs s t) (f : Fld) (k : Nat) : OnlyRegs s (t.addSat f k) := h.wr f _

theorem State.rd_addSat_self (s : State) (f : Fld) (k : Nat) (h : f.lo + f.w ≤ 64) :
    (s.addSat f k).rd f = min (s.rd f + k) (2 ^ f.w - 1) := by
  have hpos := Nat.two_pow_pos f.w
  rw [State.addSat, State.rd_wr_self s f _ h, Nat.mod_eq_of_lt (by omega)]

theorem State.rd_addSat_ne (s : State) (f g : Fld) (k : Nat) (h : ∀ a ∈ g.words, a ∉ f.words) : (s.addSat f k).rd g = s.rd g :=
  s.rd_wr_ne f g _ h

/-! ## A field written under a condition -/

section
variable {c : Prop} [Decidable c]

theorem State.rd_wr_ite_ne (s : State) (f g : Fld) (v : Nat) (h : ∀ a ∈ g.words, a ∉ f.words) :
    (if c then s.wr f v else s).rd g = s.rd g := by
  split
  · exact s.rd_wr_ne f g v h
  · rfl

theorem OnlyFlds.wr_ite {s t : State} {fs : List Fld} (h : OnlyFlds s t fs) {f : Fld} (v : Nat) (hf : f ∈ fs)
    (hw : f.lo + f.w ≤ 64) : OnlyFlds s (if c then t.wr f v else t) fs := by
  split
  · exact h.wr v hf hw
  · exact h

theorem OnlyRegs.wr_ite {s t : State} (h : OnlyRegs s t) (f : Fld) (v : Nat) : OnlyRegs s (if c then t.wr f v else t) := by
  split
  · exact h.wr f v
  · exact h

end

end Sys2Proof.Machine
end

section
/-! Drive events and strobes: a drop counted, a drive event judged, a strobe muted, dropped or delivered (spec/06 R218 to R228, R239,
R240; spec/08 R293 to R296, R311, R316). -/

namespace Sys2Proof.Machine

open Sys2Proof Claim

/-! ## A drop (R239, R240) -/

theorem wfcnt_ne_wferr (n : Fin 8) (kind : Nat) : aSlWfcnt n kind ≠ aSlWferr n := by
  simp only [aSlWfcnt, aSlWferr]; omega

/-- A drop of one of the three kinds sets its flag, counts, and names the lane where no flag was set. -/
theorem State.dropped_drop (s : State) (n : Fin 8) (lane : Fin 32) {kind : Nat} (hk : kind < 3) :
    Dropped s (s.drop n lane kind) n lane kind := by
  have hne := wfcnt_ne_wferr n kind
  have hflag : (⟨aSlWferr n, kind, 1⟩ : Fld).words = [aSlWferr n] := by
    simp [Fld.words, show ¬ 32 ≤ kind by omega, show kind + 1 ≤ 32 by omega]
  have hlane : (fSlWferr_LANE n).words = [aSlWferr n] := rfl
  have hcount : (fSlWfcnt_COUNT n kind).words = [aSlWfcnt n kind] := rfl
  have hfit : kind + 1 ≤ 64 := by omega
  unfold State.drop
  extract_lets named
  refine ⟨?_, ?_, fun h => ?_, ?_, ((OnlyRegs.refl s).wr_ite _ _).wr _ _ |>.addSat _ _⟩
  · rw [State.rd_addSat_ne _ _ _ _ (by simpa [hflag, hcount] using hne.symm), State.rd_wr_self _ _ _ hfit]
    rfl
  · rw [State.rd_addSat_self _ _ _ (by simp [fSlWfcnt_COUNT]), State.rd_wr_ne _ _ _ _ (by simpa [hflag, hcount] using hne),
      State.rd_wr_ite_ne _ _ _ _ (by simpa [hlane, hcount] using hne)]
    rfl
  · rw [State.rd_addSat_ne _ _ _ _ (by simpa [hlane, hcount] using hne.symm),
      State.rd_wr_apart _ ⟨aSlWferr n, kind, 1⟩ (fSlWferr_LANE n) _ rfl hfit (.inl (by simp [fSlWferr_LANE]; omega)),
      show named = s.wr (fSlWferr_LANE n) lane from if_pos h, State.rd_wr_self _ _ _ (by simp [fSlWferr_LANE])]
    exact Nat.mod_eq_of_lt lane.isLt
  · exact (((OnlyFlds.refl s _).wr_ite _ (by simp) (by simp [fSlWferr_LANE])).wr 1 (by simp) hfit).addSat 1 (by simp)
      (by simp [fSlWfcnt_COUNT])

/-! ## A drive event judged (R218, R221, R223) -/

theorem Slice.vec_of_find {x : Slice} {vec : Nat} {p : Played} (h : x.find vec = some p) : p.vec = vec := by
  simpa using List.find?_some h

/-- A slot that holds a drive event: what it sets, and its time. -/
theorem State.driveSlot_of_driveOf {s : State} {n : Fin 8} {lane : Fin 32} {p : Played} {slot : Fin 4} {d : Drive}
    (hd : driveOf (bitsOf (s.entry n p lane) (7 * slot + 4) 3) = some d) :
    s.driveSlot n lane p slot = some (d, driveTaps s n lane p slot) := by
  rw [State.driveSlot, hd, Option.map_some]

/-- A drive event with no other due before it is judged alone. -/
theorem exec_driveEvent_of_alone {n : Fin 8} {lane : Fin 32} {vec : Nat} {slot : Fin 4} {p : Played} {d : Drive} {s : State}
    (hdrives : s.drives n lane = true) (hp : s.sl[n].find vec = some p)
    (hd : driveOf (bitsOf (s.entry n p lane) (7 * slot + 4) 3) = some d)
    (hdue : s.driveDue n lane (drivePlace s n lane p slot) = [drivePlace s n lane p slot]) :
    exec (.driveEvent n lane vec slot) s =
      .next (Judged (s.driveAt n lane p d (driveTaps s n lane p slot)) n lane (drivePlace s n lane p slot)) := by
  have hslot := State.driveSlot_of_driveOf hd
  have hkey : (s.sl[n].find vec).bind (fun p => s.driveKey n lane p slot) = some (drivePlace s n lane p slot) := by
    rw [hp, Option.bind_some, State.driveKey, hslot, Option.map_some]
  have hnamed : s.driveNamed n lane (drivePlace s n lane p slot) = some (p, d, driveTaps s n lane p slot) := by
    have hfind : s.sl[n].find p.vec = some p := by rw [Slice.vec_of_find hp, hp]
    rw [State.driveNamed, hfind, Option.bind_some, hslot, Option.map_some]
  refine congrArg Host.Outcome.next ((if_pos hdrives).trans ?_)
  rw [hkey, State.driveUpTo, hdue]
  exact congrArg (fun e => Judged (s.drivePut n lane e) n lane _) hnamed

theorem Played.beyond_iff (p : Played) (t : Nat) : p.beyond t = true ↔ 2 * p.pw ≤ t * 2 ^ 24 := decide_eq_true_iff

theorem Lane.tooSoon_eq_any (l : Lane) (t : Int) : l.tooSoon t = l.lastEvent.any fun u => t < u + 2 ^ 32 := by
  unfold Lane.tooSoon
  cases l.lastEvent <;> rfl

theorem driveEvent_holds : driveEvent := by
  intro n lane vec slot p d s hdrives hp hd hdue
  refine ⟨_, exec_driveEvent_of_alone hdrives hp hd hdue, ?_⟩
  unfold State.driveAt
  simp only [Played.beyond_iff, Lane.tooSoon_eq_any]
  split
  · exact ⟨_, s.dropped_drop n lane (by decide), rfl⟩
  · split
    · exact ⟨_, s.dropped_drop n lane (by decide), rfl⟩
    · simp only [Judged, State.modSl_modSl, Slice.modLane_modLane]

/-! ## A strobe with no result (R311, R316) -/

theorem State.scopeMutes_iff (s : State) (n : Fin 8) (lane : Fin 32) (vec : Nat) : s.scopeMutes n lane vec = true ↔
    if s.sl[n].scope.st = .settle ∨ s.sl[n].scope.st = .sampling then s.rd (fSlScpcfg_LANE n) = lane
    else s.sl[n].scope.muted = lane ∧ vec < s.sl[n].scope.resume := by
  have harmed : s.sl[n].scope.armed = true ↔ s.sl[n].scope.st = .settle ∨ s.sl[n].scope.st = .sampling := by simp [Scope.armed]
  simp only [State.scopeMutes, harmed]
  split <;> simp

theorem strobeMuted_holds : strobeMuted := by
  intro n lane vec unit obs s h
  have hmuted := (s.scopeMutes_iff n lane vec).2 h
  exact ⟨s, congrArg Host.Outcome.next (if_pos (by rw [hmuted, Bool.or_true])), rfl⟩

/-! ## A failing strobe counted (R293 to R296) -/

/-- The registers of a failing strobe: its counter, the flag of one that stands at its largest value, FFVEC. -/
def State.countFail (s : State) (n : Fin 8) (lane : Fin 32) (vec : Nat) : State :=
  let c := fSlFailcnt_COUNT n lane
  let s := s.addSat c 1
  let s := if s.rd c = 0xFFFFFFFF then s.wr ⟨aSlFcsat n, lane, 1⟩ 1 else s
  s.wr (fSlFfvec_VEC n) (min (s.rd (fSlFfvec_VEC n)) vec)

/-- The vector and lane of a failing strobe in its slice: in the compare window, and with full capture in the vector's record. -/
def Slice.noteFail (x : Slice) (p : Played) (lane : Fin 32) (unit : Fin 2) (spill full : Bool) : Slice := { x with
  window := if x.window.contains (p.vec, lane) then x.window else x.window ++ [(p.vec, lane)]
  fails :=
    if full then
      addFail ⟨p.vec, p.off, p.seg, p.ts, BitVec.ofNat 32 (2 ^ lane.val), unit == 0, unit == 1, spill, p.again⟩ x.fails
    else x.fails }

section
variable (x : Slice) (p : Played) (lane : Fin 32) (unit : Fin 2) (spill full : Bool)

theorem Slice.lanes_noteFail : (x.noteFail p lane unit spill full).lanes = x.lanes := rfl

theorem Slice.mem_window_noteFail : (p.vec, lane) ∈ (x.noteFail p lane unit spill full).window := by
  unfold Slice.noteFail
  split
  · exact List.contains_iff_mem.1 ‹_›
  · exact List.mem_append_right _ (List.mem_singleton.2 rfl)

theorem Slice.window_prefix_noteFail : x.window <+: (x.noteFail p lane unit spill full).window := by
  unfold Slice.noteFail
  split
  · exact List.prefix_rfl
  · exact List.prefix_append _ _

end

/-- A change of a slice's lanes, compare window and failing vectors is the frame of a strobe. -/
theorem State.modSl_lanes_window_fails {s : State} {n : Fin 8} {f : Slice → Slice}
    (h : f s.sl[n] = { s.sl[n] with lanes := (f s.sl[n]).lanes, window := (f s.sl[n]).window, fails := (f s.sl[n]).fails }) :
    s.modSl n f = s.modSl n fun x => { x with
      lanes := (f s.sl[n]).lanes, window := (f s.sl[n]).window, fails := (f s.sl[n]).fails } :=
  State.modSl_congr h

/-- The fields that a failing strobe may write. -/
abbrev failFlds (n : Fin 8) (lane : Fin 32) : List Fld := [fSlFailcnt_COUNT n lane, ⟨aSlFcsat n, lane, 1⟩, fSlFfvec_VEC n]

theorem State.onlyFlds_countFail (s : State) (n : Fin 8) (lane : Fin 32) (vec : Nat) :
    OnlyFlds s (s.countFail n lane vec) (failFlds n lane) :=
  (((OnlyFlds.refl s _).addSat 1 (by simp) (by simp [fSlFailcnt_COUNT])).wr_ite 1 (by simp)
    (show lane.val + 1 ≤ 64 by omega)).wr _ (by simp) (by simp [fSlFfvec_VEC])

theorem State.onlyRegs_countFail (s : State) (n : Fin 8) (lane : Fin 32) (vec : Nat) : OnlyRegs s (s.countFail n lane vec) :=
  (((OnlyRegs.refl s).addSat _ _).wr_ite _ _).wr _ _

theorem failcnt_words (n : Fin 8) (lane : Fin 32) : (fSlFailcnt_COUNT n lane).words = [aSlFailcnt n lane] := rfl

theorem ffvec_words (n : Fin 8) : (fSlFfvec_VEC n).words = [aSlFfvec n, aSlFfvec n + 4] := rfl

theorem fcsat_words (n : Fin 8) (lane : Fin 32) : (⟨aSlFcsat n, lane, 1⟩ : Fld).words = [aSlFcsat n] := by
  simp [Fld.words, show ¬ 32 ≤ lane.val by omega, show lane.val + 1 ≤ 32 by omega]

theorem State.rd_countFail_count (s : State) (n : Fin 8) (lane : Fin 32) (vec : Nat) :
    (s.countFail n lane vec).rd (fSlFailcnt_COUNT n lane) = min (s.rd (fSlFailcnt_COUNT n lane) + 1) 0xFFFFFFFF := by
  unfold State.countFail
  rw [State.rd_wr_ne _ _ _ _ (by simp [failcnt_words, ffvec_words, aSlFailcnt, aSlFfvec]; omega),
    State.rd_wr_ite_ne _ _ _ _ (by simp [failcnt_words, fcsat_words, aSlFailcnt, aSlFcsat]; omega),
    State.rd_addSat_self _ _ _ (by simp [fSlFailcnt_COUNT])]
  rfl

theorem State.rd_countFail_ffvec (s : State) (n : Fin 8) (lane : Fin 32) (vec : Nat) :
    (s.countFail n lane vec).rd (fSlFfvec_VEC n) = min (s.rd (fSlFfvec_VEC n)) vec % 2 ^ 64 := by
  unfold State.countFail
  rw [State.rd_wr_self _ _ _ (by simp [fSlFfvec_VEC]),
    State.rd_wr_ite_ne _ _ _ _ (by simp [ffvec_words, fcsat_words, aSlFfvec, aSlFcsat]; omega),
    State.rd_addSat_ne _ _ _ _ (by simp [failcnt_words, ffvec_words, aSlFailcnt, aSlFfvec]; omega)]
  rfl

theorem State.rd_countFail_capture (s : State) (n : Fin 8) (lane : Fin 32) (vec : Nat) :
    (s.countFail n lane vec).rd (fSlBurst_CAPTURE n) = s.rd (fSlBurst_CAPTURE n) := by
  refine State.onlyFlds_countFail s n lane vec _ fun f hf => .inl ?_
  have hcapture : (fSlBurst_CAPTURE n).words = [aSlBurst n] := rfl
  simp only [failFlds, List.mem_cons, List.not_mem_nil, or_false] at hf
  rcases hf with rfl | rfl | rfl <;>
    simp [hcapture, failcnt_words, ffvec_words, fcsat_words, aSlBurst, aSlFailcnt, aSlFcsat, aSlFfvec] <;> omega

section
variable (s : State) (n : Fin 8) (lane : Fin 32) (p : Played) (unit : Fin 2) (spill : Bool)

theorem State.failStrobe_eq : s.failStrobe n lane p unit spill = (s.countFail n lane p.vec).modSl n fun x =>
    x.noteFail p lane unit spill (s.on (fSlBurst_CAPTURE n)) := by
  rw [State.on, ← State.rd_countFail_capture s n lane p.vec]
  rfl

theorem State.sl_failStrobe :
    (s.failStrobe n lane p unit spill).sl[n] = s.sl[n].noteFail p lane unit spill (s.on (fSlBurst_CAPTURE n)) := by
  have hsl : (s.countFail n lane p.vec).sl = s.sl := by rw [State.onlyRegs_countFail]
  rw [State.failStrobe_eq, State.sl_modSl_self, hsl]

theorem State.rd_failStrobe (f : Fld) : (s.failStrobe n lane p unit spill).rd f = (s.countFail n lane p.vec).rd f := by
  rw [State.failStrobe_eq, State.rd_modSl]

theorem State.failStrobe_frame : s.failStrobe n lane p unit spill =
    { s.modSl n fun x => x.noteFail p lane unit spill (s.on (fSlBurst_CAPTURE n)) with
      regs := (s.failStrobe n lane p unit spill).regs } := by
  rw [State.failStrobe_eq, State.onlyRegs_countFail]
  rfl

theorem State.free_failStrobe : (s.failStrobe n lane p unit spill).free = s.free := by
  rw [State.failStrobe_frame]
  rfl

end

/-! ## A strobe delivered (R228, R293) -/

/-- The placed instants that a strobe leaves on its lane under a comparator's deskew: that of its edge or open, and a window's close. -/
def Lane.sample (l : Lane) (instant : Int) (close : Option Int) (cmp : Int) : Lane := { l with
  sampled := some (placed instant cmp)
  closed := match close with | some c => some (placed c cmp) | none => l.closed }

/-- The state with a strobe's instants on its lane. -/
def State.sampleLane (s : State) (n : Fin 8) (lane : Fin 32) (instant : Int) (close : Option Int) : State :=
  s.modSl n fun x => x.modLane lane fun l => l.sample instant close (signed (s.rd (fSlDeskew_CMP n lane)) 8)

theorem State.sl_sampleLane (s : State) (n : Fin 8) (lane : Fin 32) (instant : Int) (close : Option Int) :
    (s.sampleLane n lane instant close).sl[n] =
      s.sl[n].modLane lane fun l => l.sample instant close (signed (s.rd (fSlDeskew_CMP n lane)) 8) := s.sl_modSl_self n _

/-- A strobe's result, the one known or else a free one, and the state that is left. -/
def State.drawResult (s : State) (known : Option Bool) : Bool × State :=
  match known with
  | some f => (f, s)
  | none => (s.freeVal.1.getLsbD 0, s.freeVal.2)

theorem State.drawResult_ne (s : State) (known : Option Bool) : known ≠ some (!(s.drawResult known).1) := by
  cases known <;> simp [State.drawResult]

theorem State.drawResult_free (s : State) (known : Option Bool) (h : known.isSome = true) : (s.drawResult known).2.free = s.free := by
  obtain ⟨f, rfl⟩ := Option.isSome_iff_exists.1 h
  rfl

theorem State.drawResult_state (s : State) (known : Option Bool) :
    (s.drawResult known).2 = { s with free := (s.drawResult known).2.free } := by
  cases known <;> rfl

/-- A strobe delivered: its instants, its result, and a fail counted. -/
def State.deliverStrobe (s : State) (n : Fin 8) (lane : Fin 32) (p : Played) (unit : Fin 2) (instant : Int) (close : Option Int)
    (known : Option Bool) (spill : Bool) : State :=
  let r := (s.sampleLane n lane instant close).drawResult known
  if r.1 then r.2.failStrobe n lane p unit spill else r.2

section
variable {n : Fin 8} {lane : Fin 32} {p : Played} {unit : Fin 2} {instant : Int} {close : Option Int} {known : Option Bool}
  {spill : Bool} {free : Nat} (s : State)

/-- A pass leaves its instants, and of the free values the one drawn. -/
theorem strobed_pass (hknown : known ≠ some true) (hfree : known.isSome = true → free = s.free) :
    Strobed s { s.sampleLane n lane instant close with free := free } n lane p instant close known := by
  have hsl := s.sl_sampleLane n lane instant close
  refine ⟨fun k hk => ?_, ?_, ⟨false, hknown, hfree, fun _ => ⟨?_, ?_, rfl⟩, nofun⟩, ?_, fun _ => ?_,
    OnlyFlds.refl s _, ?_⟩ <;> dsimp only <;> rw [hsl]
  · exact Slice.lanes_modLane_ne _ hk _
  · exact Slice.lanes_modLane_self _ _ _
  · rfl
  · rfl
  · exact List.prefix_rfl
  · rfl
  · rfl

/-- A fail is counted and noted beside its instants. -/
theorem strobed_fail (hknown : known ≠ some false) (hfree : known.isSome = true → free = s.free) :
    Strobed s ({ s.sampleLane n lane instant close with free := free }.failStrobe n lane p unit spill) n lane p instant close
      known := by
  let w : State := { s.sampleLane n lane instant close with free := free }
  have hrd : ∀ f, w.rd f = s.rd f := fun _ => rfl
  have hlane : w.sl[n] = _ := s.sl_sampleLane n lane instant close
  have hsl := w.sl_failStrobe n lane p unit spill
  rw [hlane] at hsl
  refine ⟨fun k hk => ?_, ?_, ⟨true, hknown, fun h => ?_, nofun, fun _ => ⟨?_, ?_, ?_⟩⟩, ?_, fun h => ?_,
    fun g hg => ?_, ?_⟩
  · rw [hsl, Slice.lanes_noteFail]
    exact Slice.lanes_modLane_ne _ hk _
  · rw [hsl, Slice.lanes_noteFail]
    exact Slice.lanes_modLane_self _ _ _
  · exact (w.free_failStrobe n lane p unit spill).trans (hfree h)
  · rw [hsl]
    exact Slice.mem_window_noteFail ..
  · rw [State.rd_failStrobe, State.rd_countFail_count, hrd]
  · rw [State.rd_failStrobe, State.rd_countFail_ffvec, hrd]
  · rw [hsl]
    exact Slice.window_prefix_noteFail (s.sl[n].modLane lane _) p lane unit spill _
  · have hoff : w.on (fSlBurst_CAPTURE n) = false := by rw [State.on, hrd, h]; rfl
    rw [hsl, hoff]
    rfl
  · rw [State.rd_failStrobe, State.onlyFlds_countFail w n lane p.vec g hg, hrd]
  · have hslice : (s.sampleLane n lane instant close).modSl n
        (fun x => x.noteFail p lane unit spill (w.on (fSlBurst_CAPTURE n))) = _ :=
      (s.modSl_modSl n _ _).trans (State.modSl_lanes_window_fails rfl)
    rw [hsl, State.free_failStrobe]
    exact (w.failStrobe_frame n lane p unit spill).trans
      (congrArg (fun x : State => { x with regs := (w.failStrobe n lane p unit spill).regs, free := free }) hslice)

theorem strobed_deliverStrobe : Strobed s (s.deliverStrobe n lane p unit instant close known spill) n lane p instant close known := by
  have hfree := State.drawResult_free (s.sampleLane n lane instant close) known
  have hne := State.drawResult_ne (s.sampleLane n lane instant close) known
  have hstate := State.drawResult_state (s.sampleLane n lane instant close) known
  unfold State.deliverStrobe
  extract_lets r
  cases hr : r.1 with
  | false =>
    rw [if_neg Bool.false_ne_true, hstate]
    exact strobed_pass s (by simpa [r, hr] using hne) hfree
  | true =>
    rw [if_pos rfl, hstate]
    exact strobed_fail s (by simpa [r, hr] using hne) hfree

end

/-! ## Which strobes are delivered (R219, R221, R224, R225, R242) -/

/-- The close of a window strobe. -/
def State.strobeClose (s : State) (n : Fin 8) (lane : Fin 32) (p : Played) (o : StrobeOf) : Option Int :=
  if o.kind = 2 then some (s.nominal n lane p o.close) else none

/-- The result of a strobe, where its lane is connected, its switch is closed and the spec says what the comparator sees. -/
def State.strobeKnown (s : State) (n : Fin 8) (lane : Fin 32) (o : StrobeOf) (obs : BallObs) : Option Bool :=
  if s.rd (fSlPincfg_CONN n lane) = 0 ∨ s.sl[n].lanes[lane].cut = true then none
  else strobeFails o.exp (s.crossed n lane) (o.kind == 1) obs

/-- The instants that a delivered strobe leaves are those of its span. -/
theorem State.sampleLane_eq_of_strobe (s : State) (n : Fin 8) (lane : Fin 32) (p : Played) (o : StrobeOf) :
    s.sampleLane n lane (s.nominal n lane p o.open_) (s.strobeClose n lane p o) =
      s.modSl n fun x => x.modLane lane fun l => { l with
        sampled := some (placed (s.strobeSpan n lane p o).1 (signed (s.rd (fSlDeskew_CMP n lane)) 8))
        closed := if o.kind = 2 then some (placed (s.strobeSpan n lane p o).2 (signed (s.rd (fSlDeskew_CMP n lane)) 8))
          else l.closed } := by
  unfold State.sampleLane State.strobeClose State.strobeSpan
  by_cases hwindow : o.kind = 2
  · simp only [if_pos hwindow, if_neg (show ¬ o.kind = 1 by omega)]
    rfl
  · simp only [if_neg hwindow]
    rfl

theorem State.strobeKnown_eq (s : State) (n : Fin 8) (lane : Fin 32) (o : StrobeOf) (obs : BallObs) : s.strobeKnown n lane o obs =
    if s.rd (fSlPincfg_CONN n lane) == 0 || s.sl[n].lanes[lane].cut then none
    else strobeFails o.exp (s.crossed n lane) (decide (o.kind = 1)) obs := by
  simp only [State.strobeKnown, Bool.or_eq_true, beq_iff_eq]
  rfl

theorem StrobeOf.on_eq_false_iff (o : StrobeOf) : o.on = false ↔ o.kind ≠ 1 ∧ o.kind ≠ 2 := by simp [StrobeOf.on]

theorem StrobeOf.bad_iff (o : StrobeOf) (p : Played) : o.bad p = true ↔
    2 * p.pw ≤ o.open_ * 2 ^ 24 ∨ o.kind = 2 ∧ (2 * p.pw ≤ o.close * 2 ^ 24 ∨ o.close < o.open_ + 256) := by
  simp only [StrobeOf.bad, Bool.or_eq_true, Bool.and_eq_true, beq_iff_eq, decide_eq_true_eq, Played.beyond_iff]

/-- Whether a strobe ends after its vector. -/
def State.strobeSpills (s : State) (n : Fin 8) (lane : Fin 32) (p : Played) (o : StrobeOf) : Bool :=
  let e := s.strobeSpan n lane p o
  decide ((p.sched : Int) + (p.pw : Int) ≤ if o.kind = 1 then e.1 else e.2)

/-- A strobe on a slice that plays, not muted, of a vector taken: none, one dropped, or one delivered. -/
theorem exec_strobe_of_found {n : Fin 8} {lane : Fin 32} {vec : Nat} (unit : Fin 2) (obs : BallObs) {p : Played} {s : State}
    (hplays : s.sl[n].playing = true) (hheard : s.scopeMutes n lane vec = false) (hp : s.sl[n].find vec = some p) :
    let o := s.strobeOf n lane p unit
    exec (.strobe n lane vec unit obs) s = .next (
      if o.on = false then s
      else if o.bad p = true then s.drop n lane 0
      else if s.unitBusy n lane unit p = true then s.drop n lane 2
      else s.deliverStrobe n lane p unit (s.nominal n lane p o.open_) (s.strobeClose n lane p o) (s.strobeKnown n lane o obs)
        (s.strobeSpills n lane p o)) := by
  intro o
  have hgoes : ¬ (!s.sl[n].playing || s.scopeMutes n lane vec) = true := by rw [hplays, hheard]; decide
  refine congrArg Host.Outcome.next ((if_neg hgoes).trans ?_)
  rw [hp]
  simp only [Bool.not_eq_true', State.deliverStrobe, State.sampleLane_eq_of_strobe, State.strobeKnown_eq]
  rfl

theorem strobe_holds : strobe := by
  intro n lane vec unit obs p s hplays hheard hp
  refine ⟨_, exec_strobe_of_found unit obs hplays hheard hp, ?_⟩
  extract_lets e b kind o c
  have hstrobe : s.strobeOf n lane p unit = ⟨kind, bitsOf e (b + 8) 2, o, c⟩ := rfl
  simp only [hstrobe, StrobeOf.on_eq_false_iff, StrobeOf.bad_iff, State.strobeClose, State.strobeKnown]
  split
  · rfl
  · split
    · exact s.dropped_drop n lane (by decide)
    · split
      · exact s.dropped_drop n lane (by decide)
      · exact strobed_deliverStrobe s

/-- Settles O8: a drive event due alone is judged by the rules of its place, a strobe that is neither muted nor dropped is delivered. -/
theorem driveAndStrobe : Obligations.DriveAndStrobe := ⟨driveEvent_holds, strobe_holds, strobeMuted_holds⟩

end Sys2Proof.Machine
end

section
/-! SUPPORT. What a SCAN unit sends out where it sets a flag of STAT (spec/09 R343, R351, spec/14 R487), and the operations of its raster
that send nothing. -/

namespace Sys2Proof.Machine

open Sys2Proof Claim

variable (s : State) (u : Fin 4)

/-- An interrupt goes to the PF, and to the VF that owns its source. -/
theorem State.out_msix (owner : Fin 8) (v : Nat) :
    (s.msix owner v).out = s.out ++ .msix 0 v :: if owner = 0 then [] else [.msix owner v] := by
  unfold State.msix
  split <;> simp

/-- A flag of STAT set is never silent: vector 10 + u is sent (R487). -/
theorem State.out_scanFlag_ne (f : Fld) : (s.scanFlag u f).out ≠ s.out := by
  rw [State.scanFlag, State.out_msix, State.out_wr]
  exact fun h => List.cons_ne_nil _ _ (List.append_right_eq_self.1 h)

/-- A COMMIT that waits for the next frame sets LATE (R351). -/
theorem State.out_opScanCmd_of_late {s : State} {u : Fin 4} {v : Nat} (hcommit : bitOf v 0 = true) (hnew : s.scan[u].commit = false)
    (hlate : s.commitLate u = true) : (s.opScanCmd u v).out = (s.scanFlag u (fScStat_LATE u)).out := by
  have hsets : (bitOf v 0 && !s.scan[u].commit && s.commitLate u) = true := by rw [hcommit, hnew, hlate]; rfl
  unfold State.opScanCmd
  dsimp only
  rw [State.out_modScan, if_pos hsets, State.out_addSat]

theorem State.out_markLead : (s.markLead u).out = s.out := rfl

theorem State.out_nextLine : (s.nextLine u).out = s.out := by
  unfold State.nextLine
  dsimp only
  rw [State.out_modScan]
  split
  · rw [State.out_wr, State.out_wr]
  · rfl

/-- F without the overlay that STREAM mode waits for sets OVLMISSED (R343). -/
theorem State.out_fetchPoint_of_miss {s : State} {u : Fin 4} (hmode : fOvlMode s.scan[u].live = 2) (htaken : s.scan[u].ovlTaken = false) :
    (s.fetchPoint u).out = (s.scanFlag u (fScStat_OVLMISSED u)).out := by
  have hmiss : (fOvlMode s.scan[u].live == 2 && !s.scan[u].ovlTaken) = true := by rw [hmode, htaken]; rfl
  unfold State.fetchPoint
  dsimp only
  rw [State.out_modScan, if_pos hmiss, State.out_addSat]

theorem State.takeRequests_of_none {s : State} {u : Fin 4} (hcommit : s.scan[u].commit = false) (hbase : s.scan[u].base = false)
    (hovl : s.scan[u].ovl = false) (atC : Bool) : s.takeRequests u atC = s := by
  unfold State.takeRequests
  dsimp only
  rw [hcommit, hbase, hovl]
  rfl

/-- The start of a blanking line that is F, where no request waits (R341). -/
theorem exec_scanLineStart_of_isF {s : State} {u : Fin 4} (hrun : s.scan[u].st = .run)
    (hblank : (s.nextLine u).rd (fScVtim_VACT u) ≤ (s.nextLine u).scan[u].line) (hcommit : (s.nextLine u).scan[u].commit = false)
    (hbase : (s.nextLine u).scan[u].base = false) (hovl : (s.nextLine u).scan[u].ovl = false) (hF : (s.nextLine u).isF u = true) :
    exec (.scanLineStart u) s = .next (((s.nextLine u).fetchPoint u).markLead u) := by
  have hruns : ¬ (s.scan[u].st != .run) = true := by rw [hrun]; decide
  refine congrArg Host.Outcome.next ((if_neg hruns).trans (congrArg (State.markLead · u) ?_))
  rw [if_neg (Nat.not_lt.2 hblank)]
  dsimp only
  rw [State.takeRequests_of_none hcommit hbase hovl, if_pos hF]

theorem State.command_scCmd {s : State} {ini : Initiator} {u : Fin 4} (h : Reaches s ini .scCmd [u]) (v : Word) :
    s.command ini .scCmd [u] v = s.opScanCmd u v.toNat := by
  have hunit : s.regAct ini .scCmd [u.val] .lo (v.setWidth 64) = s.opScanCmd u (v.setWidth 64).toNat := by
    rw [State.regAct_scan _ _ _ _ _ (by decide) (by decide)]
    exact congrArg (fun w => s.opScanCmd w (v.setWidth 64).toNat) (Fin.ofNat_val_eq_self u)
  have hword : (v.setWidth 64).toNat = v.toNat := BitVec.toNat_setWidth_of_le (by decide)
  calc s.command ini .scCmd [u] v = s.regAct ini .scCmd [u.val] .lo (v.setWidth 64) := State.regWrite_reaches h _ _
    _ = s.opScanCmd u v.toNat := by rw [hunit, hword]

theorem exec_scanCommit_of_reaches {s : State} {ini : Initiator} {u : Fin 4} (h : Reaches s ini .scCmd [u]) (v : Word) :
    exec (.scanCommit ini u v) s = .next (s.opScanCmd u (v ||| 1).toNat) := congrArg Host.Outcome.next (State.command_scCmd h _)

end Sys2Proof.Machine
end

section
/-! SCAN units, refuted: where a command sets LATE or OVLMISSED its unit sends an interrupt, which the statements' frames leave out (spec/09
R343, R351, spec/14 R487). -/

namespace Sys2Proof.Machine

open Sys2Proof Claim

/-- SCAN unit 0 ready and in a frame of four lines of which two are active, at a line that is the last of the frame or not. -/
def inFrame (c : Scan) (line : Nat) (last : Bool) : State :=
  ({ State.reset with
    ready := BitVec.allOnes 32, scan := State.reset.scan.set 0 { c with st := .run, line := line, lastLine := last } }.wr
    (fScVtim_VACT 0) 2).wr (fScVtim_VTOTAL 0) 4

/-- At line 3, which is F, a COMMIT comes too late for the frame: LATE is set and vector 10 sent. -/
theorem not_scanCommit : ¬ scanCommit := by
  intro h
  have hr : Reaches (inFrame Scan.reset 3 true) .mgmt .scCmd [(0 : Fin 4)] := by decide
  obtain ⟨t, ht, -, -, hframe⟩ := h .mgmt 0 0 (inFrame Scan.reset 3 true) hr
  rw [exec_scanCommit_of_reaches hr] at ht
  obtain rfl := Host.Outcome.next.inj ht
  have hsilent := congrArg State.out hframe
  change _ = (inFrame Scan.reset 3 true).out at hsilent
  rw [State.out_opScanCmd_of_late (by decide) (by decide) (by decide)] at hsilent
  exact State.out_scanFlag_ne _ _ _ hsilent

/-- Refutes O26 by SCAN_COMMIT: with LATE, which a COMMIT after F sets, the unit sends its interrupt (R487), and the statement's frame says
that nothing is sent. -/
theorem not_scanControl : ¬ Obligations.ScanControl := by
  rintro ⟨-, -, -, hcommit, -⟩
  exact not_scanCommit hcommit

/-- A unit with its overlay in STREAM mode. -/
def streaming : Scan := { Scan.reset with live := Scan.reset.live.set 0 (BitVec.ofNat 32 (2 * 2 ^ 14)) }

/-- At the start of line 3, which is F, no OVLRDY was taken: OVLMISSED is set and vector 10 sent. -/
theorem not_scanFetchPoint : ¬ scanFetchPoint := by
  intro h
  have hrun : (inFrame streaming 2 false).scan[(0 : Fin 4)].st = .run := by decide
  obtain ⟨t, ht, hpost⟩ := h 0 (inFrame streaming 2 false) hrun (by decide) (by decide) (by decide) (by decide) (by decide)
  dsimp only at hpost
  rw [if_pos (by decide)] at hpost
  obtain ⟨-, -, hframe, -⟩ := hpost
  rw [exec_scanLineStart_of_isF hrun (by decide) (by decide) (by decide) (by decide) (by decide)] at ht
  obtain rfl := Host.Outcome.next.inj ht
  have hsilent := congrArg State.out hframe
  rw [State.out_markLead, State.out_fetchPoint_of_miss (by decide) (by decide)] at hsilent
  exact State.out_scanFlag_ne _ _ _ (hsilent.trans (State.out_nextLine _ 0).symm)

/-- Refutes O27 by SCAN_LINE_START at F: with OVLMISSED, which F sets where STREAM mode took no OVLRDY, the unit sends its interrupt (R487),
and the statement's frame says that nothing is sent. -/
theorem not_scanRaster : ¬ Obligations.ScanRaster := by
  rintro ⟨-, -, -, -, hfetch, -⟩
  exact not_scanFetchPoint hfetch

end Sys2Proof.Machine
end

section
/-! SUPPORT. A write of CORE[c].CTRL as the register's own rule, READY.CORES after it, and what a grant gives the core and the queue
(spec/11 R403, R408, spec/16 R563). -/

namespace Sys2Proof.Machine

open Sys2Proof

theorem State.regAct_link (s : State) (ini : Initiator) {r : Reg} (ix : List Nat) (p : Part) (v : DWord)
    (h : 0x2800000 ≤ r.desc.base) (h' : r.desc.base < 0x3400000) : s.regAct ini r ix p v = s.writeLink ini r ix p v := by
  unfold State.regAct
  dsimp only
  rw [if_neg (by omega), if_neg (by omega), if_neg (by omega), if_pos h']

/-! ## CORE[c].CTRL (R403) -/

theorem State.command_dpCoreCtrl {s : State} {ini : Initiator} {c : Fin 8} (h : Reaches s ini .dpCoreCtrl [c]) (v : Word) :
    s.command ini .dpCoreCtrl [c] v = s.opCoreCtrl ini c (v.setWidth 64) := by
  have hcore : s.regAct ini .dpCoreCtrl [c.val] .lo (v.setWidth 64) = s.opCoreCtrl ini c (v.setWidth 64) := by
    rw [State.regAct_link _ _ _ _ _ (by decide) (by decide)]
    exact congrArg (fun d => s.opCoreCtrl ini d (v.setWidth 64)) (Fin.ofNat_val_eq_self c)
  exact (State.regWrite_reaches h _ _).trans hcore

theorem exec_coreRun_of_reaches {s : State} {ini : Initiator} {c : Fin 8} (h : Reaches s ini .dpCoreCtrl [c]) (v : Word) :
    exec (.coreRun ini c v) s = .next (s.opCoreCtrl ini c (v.setWidth 64)) :=
  congrArg Host.Outcome.next (State.command_dpCoreCtrl h v)

/-- The fields of CORE[c].CTRL that every initiator may write: GROUPS and GETEN. -/
def coreCtrlOpen (f : FieldD) : Bool := f.lo == 8 || f.lo == 2

/-- The management controller's write with GETEN = 1 and RESET = 0 writes GROUPS and GETEN, then RUN. -/
theorem State.opCoreCtrl_run {s : State} {c : Fin 8} {v : DWord} (hreset : bitOf v.toNat 1 = false)
    (hgeten : (s.writeSome .mgmt .dpCoreCtrl [c] .lo v coreCtrlOpen).on (fDpCoreCtrl_GETEN c) = true) :
    s.opCoreCtrl .mgmt c v = (s.writeSome .mgmt .dpCoreCtrl [c] .lo v coreCtrlOpen).coreRun c (bitOf v.toNat 0) := by
  unfold State.opCoreCtrl
  unfold coreCtrlOpen at hgeten ⊢
  dsimp only
  rw [if_pos hgeten, if_pos rfl, hreset, if_neg Bool.false_ne_true]

/-- While a failed test or an exhausted repair holds READY.CORES it shows 0, whatever the cores do (R560, R563). -/
theorem State.isReady_coresReady_of_held {s : State} (h : s.heldReady .cores = true) : s.coresReady.isReady .cores = false := by
  unfold State.coresReady State.isReady
  rw [h, Bool.not_true, Bool.and_false, Bool.false_and, State.ready_setReady]
  simp [ReadyBit.pos]

theorem State.isReady_coreRun_of_held {s : State} (c : Fin 8) (run : Bool) (h : s.heldReady .cores = true) :
    (s.coreRun c run).isReady .cores = false := by
  refine State.isReady_coresReady_of_held ?_
  rw [← h, State.heldReady, State.heldReady]
  split <;> simp

/-! ## Grants (R408) -/

theorem filterMap_coreList_of_only {α : Type} {f : Fin 8 → Option α} {c : Fin 8} {a : α} (hc : f c = some a)
    (halone : ∀ d : Fin 8, d ≠ c → f d = none) : coreList.filterMap f = [a] := by
  have hcores : coreList = [0, 1, 2, 3, 4, 5, 6, 7] := by decide
  have hf : f = fun d => if d = c then some a else none := by
    funext d
    by_cases hd : d = c
    · rw [if_pos hd, hd, hc]
    · rw [if_neg hd, halone d hd]
  rw [hcores, hf]
  match c with
  | 0 | 1 | 2 | 3 | 4 | 5 | 6 | 7 => rfl

/-- One core alone in GET is the first that the Dispatcher looks at. -/
theorem State.waitingCores_of_one {s : State} {c : Fin 8} {since : Nat} (hwait : s.cores[c].waiting = some since)
    (hgeten : s.on (fDpCoreCtrl_GETEN c) = true) (hruns : s.coreRuns c = true)
    (halone : ∀ d : Fin 8, d ≠ c → s.cores[d].waiting = none) : s.waitingCores = [c] := by
  unfold State.waitingCores
  dsimp only
  rw [filterMap_coreList_of_only (c := c) (a := (since, c)), List.mergeSort_singleton, List.map_singleton]
  · rw [hwait, hgeten, hruns]
    rfl
  · intro d hd
    rw [halone d hd]

/-- A grant to the core that is looked at first, of the task that the round robin of its best level gives. -/
theorem exec_dispatchGrant_of_drr {s s' : State} {c : Fin 8} {rest : List (Fin 8)} {l : Fin 16} {k : Task}
    (hready : s.isReady .dispatch = true) (hcores : s.waitingCores = c :: rest)
    (hlevel : s.bestLevel (s.rd (fDpCoreCtrl_GROUPS c)) = some l) (hdrr : s.drr (s.rd (fDpCoreCtrl_GROUPS c)) l 10 = (s', some k)) :
    exec .dispatchGrant s = .next (s'.grant c k) := by
  have hfirst : (c :: rest).find? (fun d : Fin 8 => (s.bestLevel (s.rd (fDpCoreCtrl_GROUPS d))).isSome) = some c :=
    List.find?_cons_of_pos (by rw [hlevel]; rfl)
  refine congrArg Host.Outcome.next ?_
  rw [hready, hcores, hfirst]
  dsimp only
  rw [hlevel]
  dsimp only
  rw [hdrr]
  rfl

/-- The core granted a task holds it. -/
theorem State.hold_grant (s : State) (c : Fin 8) (k : Task) : (s.grant c k).cores[c].hold = some k.desc := by
  unfold State.grant
  dsimp only
  rw [State.cores_modCore]
  simp

end Sys2Proof.Machine
end

section
/-! Site cores, refuted: the statement of CORE_RUN has READY.CORES follow the cores alone, and a failed test or an exhausted repair holds
the bit at 0 (spec/16 R560, R563). The Dispatcher, refuted: its statement takes a task for eligible behind an earlier one of its flow,
which the Dispatcher never does (spec/11 R407). -/

namespace Sys2Proof.Machine

open Sys2Proof Claim

/-- RUN set for every core but core 0, and an exhausted repair that holds READY.CORES. -/
def heldCrew : State :=
  coreList.tail.foldl (fun (s : State) (c : Fin 8) => s.wr (fDpCoreCtrl_RUN c) 1) { State.reset with
    ready := 0xFDFFFFFF, bist := { Bist.reset with exhausted := 2 ^ 25 } }

/-- GROUPS and GETEN written with their reset values change nothing. -/
theorem writeSome_heldCrew : heldCrew.writeSome .mgmt .dpCoreCtrl [(0 : Fin 8)] .lo 0xFF05 coreCtrlOpen = heldCrew := by
  have hregs : (heldCrew.writeSome .mgmt .dpCoreCtrl [(0 : Fin 8)] .lo 0xFF05 coreCtrlOpen).regs = heldCrew.regs := by decide
  rw [(OnlyRegs.refl heldCrew).writeSome .mgmt .dpCoreCtrl [(0 : Fin 8)] .lo 0xFF05 coreCtrlOpen, hregs]

theorem exec_coreRun_heldCrew : exec (.coreRun .mgmt 0 0xFF05) heldCrew = .next (heldCrew.coreRun 0 true) := by
  have hgeten : heldCrew.on (fDpCoreCtrl_GETEN (0 : Fin 8)) = true := by decide
  have hrun : heldCrew.opCoreCtrl .mgmt 0 0xFF05 = heldCrew.coreRun 0 true := by
    rw [State.opCoreCtrl_run (by decide) (by rw [writeSome_heldCrew]; exact hgeten), writeSome_heldCrew]
    rfl
  exact (exec_coreRun_of_reaches (by decide) _).trans (congrArg Host.Outcome.next hrun)

/-- All eight cores run after the write, and the held READY.CORES stays 0. -/
theorem not_coreRun : ¬ coreRun := by
  intro h
  obtain ⟨t, ht, -, -, -, -, hmgmt⟩ := h .mgmt 0 0xFF05 heldCrew (by decide) (by decide)
  obtain ⟨-, ⟨hshown, -⟩, -⟩ := hmgmt rfl
  rw [exec_coreRun_heldCrew] at ht
  obtain rfl := Host.Outcome.next.inj ht
  have hrun : (List.finRange 8).all (fun c : Fin 8 => (heldCrew.coreRun 0 true).coreRuns c) = true := by decide
  have hheld : (heldCrew.coreRun 0 true).isReady .cores = false := State.isReady_coreRun_of_held 0 true (by decide)
  exact Bool.false_ne_true (hheld.symm.trans (hshown.trans hrun))

/-- Refutes O30 by CORE_RUN: core 0 starts and all eight run, yet READY.CORES, which an exhausted repair holds (R563), stays 0. -/
theorem not_siteCores : ¬ Obligations.SiteCores := fun h => not_coreRun h.1

/-- Two tasks of flow 0 and group 0, the earlier at level 0, the later at level 15. -/
def lowTask : Task := ⟨0x0100000000000000, .mgmt, 0⟩
def highTask : Task := ⟨0xF100000000000000, .mgmt, 0⟩

/-- They wait in push order, and core 0 is blocked in GET. -/
def oneFlow : State :=
  { State.reset with
    ready := BitVec.allOnes 32, cores := State.reset.cores.set 0 { CoreSt.reset with waiting := some 0 }
    disp := { Disp.reset with waiting := [lowTask, highTask] } }.wr (fDpCoreCtrl_RUN 0) 1

/-- After the turn of the round robin of level 0. -/
def turned : State := (oneFlow.drr (oneFlow.rd (fDpCoreCtrl_GROUPS 0)) 0 10).1

theorem exec_dispatchGrant_oneFlow : exec .dispatchGrant oneFlow = .next (turned.grant 0 lowTask) :=
  exec_dispatchGrant_of_drr (by decide)
    (State.waitingCores_of_one (since := 0) (by decide) (by decide) (by decide) (by decide)) (by decide)
    (Prod.ext rfl (by decide))

/-- The earlier task of the flow is granted, of the lower level. -/
theorem not_dispatchGrant : ¬ dispatchGrant := by
  intro h
  obtain ⟨t, ht, hgrant, -, -⟩ := h oneFlow (by decide)
  rw [exec_dispatchGrant_oneFlow] at ht
  obtain rfl := Host.Outcome.next.inj ht
  have hheld : (turned.grant 0 lowTask).cores[(0 : Fin 8)].hold = some lowTask.desc := State.hold_grant turned 0 lowTask
  have hmoved : Moved oneFlow (turned.grant 0 lowTask) 0 := by
    refine Or.inl ?_
    rw [hheld]
    decide
  obtain ⟨-, -, -, -, k, -, hk, -, -, -, -, hhighest, -⟩ := hgrant 0 hmoved
  have hdesc : lowTask.desc = k.desc := Option.some.inj (hheld.symm.trans (congrArg CoreSt.hold hk))
  have hlevel : dLevel highTask.desc ≤ dLevel k.desc := hhighest highTask (by decide) (by decide) (by decide)
  rw [← hdesc] at hlevel
  exact absurd hlevel (by decide)

/-- Refutes O31 by DISPATCH_GRANT: of two tasks of one flow the earlier is granted, though the later has the higher level; the statement
calls both eligible, where a later task of a flow never is before the earlier one is granted (R407). -/
theorem not_dispatcher : ¬ Obligations.Dispatcher := fun h => not_dispatchGrant h.2.1

end Sys2Proof.Machine
end
